-- ==== Sys2Proof/Word.lean ====
section
/-! DEFINITION. Sys2Proof/Word.lean: the word types and their plainest arithmetic (03_numbers.md R44, 00_scope.md R5). -/

namespace Sys2Proof

abbrev Byte := BitVec 8
abbrev W32 := BitVec 32
abbrev W64 := BitVec 64
/-- The 64 bytes of a token or of a memory sector; byte b is bits [8b+7 : 8b] (R38). -/
abbrev W512 := BitVec 512

/-- sext(v, n) of R44, widened to 64 bits. -/
def sext64 {n : Nat} (v : BitVec n) : W64 := v.signExtend 64

/-- v[hi:lo] of R5. -/
def bits {n : Nat} (v : BitVec n) (hi lo : Nat) : BitVec (hi - lo + 1) := v.extractLsb hi lo

/-- v[hi:lo] of R5 as a number. -/
def field {n : Nat} (v : BitVec n) (hi lo : Nat) : Nat := (v.toNat >>> lo) % 2 ^ (hi - lo + 1)

/-- v with bits [hi:lo] replaced by the low bits of x. -/
def setField {n : Nat} (v : BitVec n) (hi lo x : Nat) : BitVec n :=
  let m : BitVec n := BitVec.ofNat n ((2 ^ (hi - lo + 1) - 1) <<< lo)
  (v &&& ~~~m) ||| (BitVec.ofNat n (x <<< lo) &&& m)

end Sys2Proof
end

