-- ==== Sys2Proof/Config.lean ====
section
/-! DEFINITION. Sys2Proof/Config.lean: what the stepping fixes, and the free values: constants with no body, of which Lean
can prove no value. A claim about the model holds for every choice of them. The assumption log names each. -/

namespace Sys2Proof

/-- The error, in units of 2^−60 of the exact reciprocal, of RCP on an operand of a format (R63 bounds it; log 9). -/
opaque Config.rcpError (fmt operand : Nat) : Int
/-- The same for RSQ (log 9). -/
opaque Config.rsqError (fmt operand : Nat) : Int
/-- The f that RRED.EXP2 sends when x − floor(x) is no value of the format, which R191 does not foresee (log 22). -/
opaque Config.rredFrac (fmt operand : Nat) : Nat
/-- A block pair of R52 whose four B elements, which R207's order places in four blocks, have different scales: the one scale of B that
R52 does not name for it, a UE5M3 code, from the A block and the B elements and scales (log 23). -/
opaque Config.q4Scale (aBlock : Nat) (bElems bScales : List Nat) : Nat
/-- A free number, by the counter State.m.draw: which TLB entry a fill replaces, and results that the spec leaves
unspecified (logs 10, 13, 14). -/
opaque Config.freeNat (draw : Nat) : Nat
/-- A free word, by the counter State.m.draw (logs 13, 14). -/
opaque Config.freeWord (draw : Nat) : W512
/-- The 32-byte seed that helper data and an SRAM PUF response give (R413; log 16). -/
opaque Config.seedOf (helper response : List Byte) : List Byte
/-- The private key of the ML-DSA-65 identity key pair that a seed gives (R413; log 16). -/
opaque Config.identityKey (seed : List Byte) : List Byte
/-- The 3,309 bytes of an ML-DSA-65 signature by a private key (R415; log 16). -/
opaque Config.signature (key bytes : List Byte) : List Byte
/-- An ML-DSA-65 signature verifies against a public key (R412; log 16). -/
opaque Config.verifies (key bytes sig : List Byte) : Bool
/-- The SHAKE256-256 digest of the vendor's public key, in the ROM (R412; log 16). -/
opaque Config.romKeyDigest : List Byte
/-- The length in bytes of the signed slot image that starts with these bytes (R412 gives no length of the body; log 16). -/
opaque Config.slotLength (first : List Byte) : Nat
/-- The minimum security version in the body of a configuration record (R412 gives it no place; log 16). -/
opaque Config.minVersion (body : List Byte) : Nat
/-- The ROM, and the bodies with which a device comes: of the firmware slots, and of the configuration slots (R414; log 16). -/
opaque Config.rom : List Byte
opaque Config.firmwareBody (slot : Nat) : List Byte
opaque Config.configBody (slot : Nat) : List Byte

/-- What rank r of a communicator contributes to the k-th operation on a slot of a partition: element, or byte, i (R407; log 12: other devices). -/
opaque Config.peerData (part slot k r i : Nat) : Nat
/-- The sector that rank r of a communicator slot of a partition contributes to an RLD, by the counter State.m.draw (R235; log 12: other devices). -/
opaque Config.peerSector (part slot draw r : Nat) : W512
/-- Whether every other rank's k-th operation on a slot has this rank's OP, REDOP, FMT, COUNT and ROOT (R408; log 12). -/
opaque Config.peersMatch (part slot k : Nat) : Bool

/-- The contents of REG_VERSION (R285). -/
def Config.regVersion : W64 := 0x00040101

/-- CRC-32 of IEEE 802.3 (R134): one byte into the reflected register. -/
def crcByte (c : W32) (b : Byte) : W32 :=
  let x := c ^^^ b.zeroExtend 32
  let f := fun (v : W32) => if v.getLsbD 0 then (v >>> 1) ^^^ 0xEDB88320 else v >>> 1
  f (f (f (f (f (f (f (f x)))))))

/-- CRC-32 of R134 over bytes in ascending order. -/
def crc32 (bs : List Byte) : W32 := ~~~(bs.foldl crcByte 0xFFFFFFFF)

/-- The threshold of a region's back-pressure counter (R113; log 83). -/
opaque Config.pressThreshold : Nat

end Sys2Proof
end

