-- ==== Sys2Proof/Syntax.lean ====
section
/-! DEFINITION. Sys2Proof/Syntax.lean: the instructions. One constructor for each row of spec/opcode_table.json:
the 78 sequencer words (09_encoding.md R150, R152), the 114 element, switch and controller words (R144, R148), and
the 124 device events, which have no encoding. A constructor of the first two groups holds exactly the fields that
its encoding admits; a constructor of the last names what the event acts on, and carries any reading that comes from
outside the machine. -/

namespace Sys2Proof

/-- The fields of an element, switch or controller word beside its opcode (R144). -/
structure EFields where
  fmt : BitVec 4
  mod : BitVec 4
  imm : BitVec 8
  tb  : BitVec 20
  ta  : BitVec 20
deriving DecidableEq, Repr, Inhabited

/-- An answer to a request that comes back to its agent: the request's number, and whether DRAM found an uncorrectable error in what it read (R229, R257). -/
structure Reply where
  id  : Nat
  bad : Bool := false
deriving DecidableEq, Repr, Inhabited

/-- To whom a write becomes visible: to all the agents of a die (who = 0), or to one agent or region of it (R95). -/
structure Sight where
  die : Nat
  who : Nat := 0
deriving DecidableEq, Repr, Inhabited

/-- What a turn of start-up finds (R409, R410, R413): what fails in its step, dies of step 6, sectors of steps 7 and 8, of another step anything; the PUF's response, and whether
the seed that it gives passes the helper data's check; and the image of a signed configuration update that takes effect with a start. -/
structure StartIn where
  units  : List Nat := []
  puf    : List Byte := []
  pufOk  : Bool := true
  update : Option (List Byte) := none
deriving DecidableEq, Repr, Inhabited

/-- What the header of a received flit says (R403): its sequence number, the number it acknowledges, and whether the far end has refused the flit after that one. -/
structure FlitIn where
  seq   : Nat
  ack   : Nat
  again : Bool
deriving DecidableEq, Repr, Inhabited

/-- What an exchange of timestamps finds (R404): the rate in ppm toward the far end, the link's latency, and whether the far end is nearer the time master. -/
structure Sync where
  ppm     : Int
  latency : Nat
  nearer  : Bool
deriving DecidableEq, Repr, Inhabited

/-- What a release from a peer writes: 1, 2, 4, 8 or 64 bytes (R97). -/
structure LinkData where
  val : BitVec 512
  len : Nat := 8
deriving DecidableEq, Repr, Inhabited

/-- One constructor per row of the opcode table. -/
inductive Instr where
  /-- ADD (R256). Sequencer register add, modulo 2^64, into sD. -/
  | add (d a b : BitVec 5)
  /-- SUB (R256). Sequencer register subtract, modulo 2^64. -/
  | sub (d a b : BitVec 5)
  /-- MUL (R256). Low 64 bits of the product of two registers. -/
  | mul (d a b : BitVec 5)
  /-- MULH (R256). High 64 bits of the signed product of two registers. -/
  | mulh (d a b : BitVec 5)
  /-- DIV (R256). Signed division truncated toward zero; division by zero returns all ones and sets DZ. -/
  | div (d a b : BitVec 5)
  /-- REM (R256). Signed remainder with the sign of a; remainder by zero returns a and sets DZ. -/
  | rem (d a b : BitVec 5)
  /-- AND (R256). Bitwise AND of two registers. -/
  | and (d a b : BitVec 5)
  /-- OR (R256). Bitwise OR of two registers. -/
  | or (d a b : BitVec 5)
  /-- XOR (R256). Bitwise XOR of two registers. -/
  | xor (d a b : BitVec 5)
  /-- SHL (R256). Shift left by b[5:0]. -/
  | shl (d a b : BitVec 5)
  /-- SHR (R256). Logical shift right by b[5:0]. -/
  | shr (d a b : BitVec 5)
  /-- SAR (R256). Arithmetic shift right by b[5:0]. -/
  | sar (d a b : BitVec 5)
  /-- SLT (R256). Writes 1 if a is signed less than b, else 0. -/
  | slt (d a b : BitVec 5)
  /-- SLTU (R256). Writes 1 if a is unsigned less than b, else 0. -/
  | sltu (d a b : BitVec 5)
  /-- MIN (R256). The signed smaller of two registers. -/
  | min (d a b : BitVec 5)
  /-- MAX (R256). The signed larger of two registers. -/
  | max (d a b : BitVec 5)
  /-- ADDI (R256). Adds a sign-extended 15-bit immediate. -/
  | addi (d a : BitVec 5) (i : BitVec 15)
  /-- ANDI (R256). ANDs a sign-extended immediate. -/
  | andi (d a : BitVec 5) (i : BitVec 15)
  /-- ORI (R256). ORs a sign-extended immediate. -/
  | ori (d a : BitVec 5) (i : BitVec 15)
  /-- XORI (R256). XORs a sign-extended immediate. -/
  | xori (d a : BitVec 5) (i : BitVec 15)
  /-- SHLI (R256). Shift left by an immediate count of 0 to 63. -/
  | shli (d a : BitVec 5) (i : BitVec 15)
  /-- SHRI (R256). Logical shift right by an immediate count. -/
  | shri (d a : BitVec 5) (i : BitVec 15)
  /-- SARI (R256). Arithmetic shift right by an immediate count. -/
  | sari (d a : BitVec 5) (i : BitVec 15)
  /-- SLTI (R256). Writes 1 if a is signed less than the immediate. -/
  | slti (d a : BitVec 5) (i : BitVec 15)
  /-- LIH (R256). Loads sext(IMM20) x 2^12 into sD. -/
  | lih (d : BitVec 5) (i : BitVec 20)
  /-- SEXT (R256). Sign-extends the low n bits of sA. -/
  | sext (d a : BitVec 5) (n : BitVec 15)
  /-- LDB (R257). Loads 1 byte, zero-extended, from scratch or global memory. -/
  | ldb (d a : BitVec 5) (s : BitVec 3) (o : BitVec 12)
  /-- LDH (R257). Loads 2 bytes, zero-extended. -/
  | ldh (d a : BitVec 5) (s : BitVec 3) (o : BitVec 12)
  /-- LDW (R257). Loads 4 bytes, zero-extended. -/
  | ldw (d a : BitVec 5) (s : BitVec 3) (o : BitVec 12)
  /-- LDD (R257). Loads 8 bytes; a nonzero OS marks an acquire. -/
  | ldd (d a : BitVec 5) (s : BitVec 3) (o : BitVec 12)
  /-- STB (R257). Stores the low byte of sD. -/
  | stb (d a : BitVec 5) (s : BitVec 3) (o : BitVec 12)
  /-- STH (R257). Stores the low 2 bytes of sD. -/
  | sth (d a : BitVec 5) (s : BitVec 3) (o : BitVec 12)
  /-- STW (R257). Stores the low 4 bytes of sD. -/
  | stw (d a : BitVec 5) (s : BitVec 3) (o : BitVec 12)
  /-- STD (R257). Stores 8 bytes; a nonzero OS marks a release. -/
  | std (d a : BitVec 5) (s : BitVec 3) (o : BitVec 12)
  /-- PRD (R259). Reads 8 bytes at an offset of a parameter window under R71. -/
  | prd (d n : BitVec 5) (o : BitVec 15)
  /-- PLEN (R259). Writes a window's bound size, or 0 if the window is unbound. -/
  | plen (d n : BitVec 5)
  /-- AMO (R258). Atomic read-modify-write of a 4-byte or 8-byte word, returning the old value. -/
  | amo (d a b : BitVec 5) (s : BitVec 3) (z : BitVec 1) (f : BitVec 4)
  /-- ACAS (R258). Atomic compare-and-swap of a 4-byte or 8-byte word. -/
  | acas (d a b : BitVec 5) (s : BitVec 3) (z : BitVec 1)
  /-- BEQ (R260). Branches if sA equals sB. -/
  | beq (a b : BitVec 5) (o : BitVec 15)
  /-- BNE (R260). Branches if sA differs from sB. -/
  | bne (a b : BitVec 5) (o : BitVec 15)
  /-- BLT (R260). Branches on signed less than. -/
  | blt (a b : BitVec 5) (o : BitVec 15)
  /-- BGE (R260). Branches on signed greater than or equal. -/
  | bge (a b : BitVec 5) (o : BitVec 15)
  /-- BLTU (R260). Branches on unsigned less than. -/
  | bltu (a b : BitVec 5) (o : BitVec 15)
  /-- BGEU (R260). Branches on unsigned greater than or equal. -/
  | bgeu (a b : BitVec 5) (o : BitVec 15)
  /-- JAL (R260). Writes PC + 1 to sD and jumps PC-relative. -/
  | jal (d : BitVec 5) (o : BitVec 20)
  /-- JALR (R260). Writes PC + 1 to sD and jumps to sA plus the immediate. -/
  | jalr (d a : BitVec 5) (i : BitVec 15)
  /-- FENCE (R261). Waits until the accesses its kind and scope order have been performed. -/
  | fence (s : BitVec 3) (k : BitVec 2)
  /-- WAITC (R262). Waits until each class's outstanding count is at most its field, then acquires what the retired operations covered. -/
  | waitc (l s c t : BitVec 5)
  /-- WANY (R263). Waits until any tag in the mask is set and returns the lowest one. -/
  | wany (d a : BitVec 5)
  /-- WALL (R263). Waits until every tag in the mask is set. -/
  | wall (d a : BitVec 5)
  /-- TFIRST (R263). Returns the lowest set tag in the mask, or 64, without waiting. -/
  | tfirst (d a : BitVec 5)
  /-- TCLR (R263). Clears one tag bit of SQ_TAGS. -/
  | tclr (a : BitVec 5)
  /-- MWAIT (R264). Waits until a global word, read with acquires, is at least sD. -/
  | mwait (d a : BitVec 5) (s : BitVec 3) (o : BitVec 12)
  /-- SLEEP (R265). Waits until global time has advanced by the given nanoseconds. -/
  | sleep (a : BitVec 5) (i : BitVec 15)
  /-- COPY (R267). Sends a linear copy request to a die copy engine with a completion tag. -/
  | copy (d a b : BitVec 5) (t : BitVec 6) (r : BitVec 1)
  /-- COPYX (R268). Sends a strided or reducing copy, described in scratch, to a hub copy engine. -/
  | copyx (d a b : BitVec 5) (t : BitVec 6) (r : BitVec 1)
  /-- COLL (R269). Sends a collective request, described in scratch, to the collective engine. -/
  | coll (d a b : BitVec 5) (t : BitVec 6) (r : BitVec 1)
  /-- QAPP (R270). Appends a 64-byte packet from scratch to a user-mode queue with a release. -/
  | qapp (d a b : BitVec 5)
  /-- SIGNAL (R271). Stores or atomically adds sD to an 8-byte global word as a release. -/
  | signal (d a : BitVec 5) (s : BitVec 3) (o : BitVec 11) (x : BitVec 1)
  /-- HPOST (R272). Appends n records from scratch to a host ring through the hub. -/
  | hpost (d a b : BitVec 5) (n : BitVec 10)
  /-- START (R273). Pulses h0 as a REGION-scope release and opens a tile operation. -/
  | start
  /-- WDONE (R273). Waits until every START run has retired, as a REGION-scope acquire. -/
  | wdone
  /-- RECONF (R274). Requests a partial-reconfiguration section as a tile operation and a PKG release. -/
  | reconf (i : BitVec 15)
  /-- RATE (R275). Declares a new end-to-end rate and triggers a re-solve. -/
  | rate (a : BitVec 5)
  /-- GRAISE (R275). Asks the range server to raise the LAUNCH's group count. -/
  | graise (d a : BitVec 5)
  /-- STEP (R276). Writes a step-mark pennant, returns its reference and sets STEP_NO. -/
  | step (d a : BitVec 5)
  /-- PNRD (R277). Reads a named pennant into scratch, returning 1 if it still resolves. -/
  | pnrd (d a b : BitVec 5)
  /-- CSRR (R279). Reads a CSR into sD. -/
  | csrr (d : BitVec 5) (c : BitVec 15)
  /-- CSRW (R279). Writes sA to a CSR and returns the old value. -/
  | csrw (d a : BitVec 5) (c : BitVec 15)
  /-- CSRS (R279). ORs sA into a CSR and returns the old value. -/
  | csrs (d a : BitVec 5) (c : BitVec 15)
  /-- TRAP (R280). Enters the handler with code 0x3E0 + n, or faults fatally when the handler is unavailable. -/
  | trap (n : BitVec 20)
  /-- ERET (R280). Returns from the handler to SQ_EPC and clears INH. -/
  | eret
  /-- YIELD (R280). Enters the handler for a pending PREEMPT, or does nothing. -/
  | yield
  /-- HALT (R282). Waits for loads, stores and copies to reach zero, then stops the sequencer. -/
  | halt
  /-- NOP (R282). Does nothing. -/
  | nop
  /-- TIME (R282). Writes global time in nanoseconds to sD. -/
  | time (d : BitVec 5)
  /-- INJ (R278). Appends a scratch token to a memory cell's QPOP-only queue. -/
  | inj (a b : BitVec 5) (n h t : BitVec 1)
  /-- TAKE (R278). Removes the head of a memory cell's QPUSH-only queue into scratch and returns its status. -/
  | take (d a b : BitVec 5)
  /-- PASS (R159). Vector element that passes L unchanged. -/
  | pass (f : EFields)
  /-- VC_ADD (R159). Lane-wise wrapping integer add. -/
  | vcAdd (f : EFields)
  /-- VC_SUB (R159). Lane-wise wrapping integer subtract. -/
  | vcSub (f : EFields)
  /-- ADDS (R159). Lane-wise saturating integer add; sets SAT on clamp. -/
  | adds (f : EFields)
  /-- SUBS (R159). Lane-wise saturating integer subtract. -/
  | subs (f : EFields)
  /-- VC_MUL (R159). Lane-wise wrapping integer multiply. -/
  | vcMul (f : EFields)
  /-- VC_MULH (R159). High half of the lane-wise product. -/
  | vcMulh (f : EFields)
  /-- MAD (R159). Lane-wise wrapping multiply-add. -/
  | mad (f : EFields)
  /-- VC_MIN (R159). Lane-wise integer minimum. -/
  | vcMin (f : EFields)
  /-- VC_MAX (R159). Lane-wise integer maximum. -/
  | vcMax (f : EFields)
  /-- ABS (R159). Lane-wise wrapping absolute value. -/
  | abs (f : EFields)
  /-- VC_AND (R159). Lane-wise AND. -/
  | vcAnd (f : EFields)
  /-- VC_OR (R159). Lane-wise OR. -/
  | vcOr (f : EFields)
  /-- VC_XOR (R159). Lane-wise XOR. -/
  | vcXor (f : EFields)
  /-- ANDN (R159). Lane-wise a AND NOT b. -/
  | andn (f : EFields)
  /-- VC_SHL (R160). Lane-wise shift left. -/
  | vcShl (f : EFields)
  /-- VC_SHR (R160). Lane-wise logical shift right. -/
  | vcShr (f : EFields)
  /-- VC_SAR (R160). Lane-wise arithmetic shift right. -/
  | vcSar (f : EFields)
  /-- ROL (R160). Lane-wise rotate left. -/
  | rol (f : EFields)
  /-- CLZ (R160). Lane-wise count of leading zeros. -/
  | clz (f : EFields)
  /-- POPC (R160). Lane-wise population count. -/
  | popc (f : EFields)
  /-- CMP (R161). Lane-wise integer compare returning 1 or 0. -/
  | cmp (f : EFields)
  /-- SEL (R162). Per-element select of a or b by c. -/
  | sel (f : EFields)
  /-- CLAMP (R162). Per-element clamp of a between b and c. -/
  | clamp (f : EFields)
  /-- NARROW (R163). Saturating conversion to a narrower integer format. -/
  | narrow (f : EFields)
  /-- WIDEN (R163). Conversion of one part to a wider integer format. -/
  | widen (f : EFields)
  /-- BFX (R164). Bit-field extract. -/
  | bfx (f : EFields)
  /-- BFI (R164). Bit-field insert. -/
  | bfi (f : EFields)
  /-- FADD (R166). Floating-point add, rounded once under MOD. -/
  | fadd (f : EFields)
  /-- FSUB (R166). Floating-point subtract. -/
  | fsub (f : EFields)
  /-- FMUL (R166). Floating-point multiply. -/
  | fmul (f : EFields)
  /-- FMA (R166). Fused multiply-add, a x b + c. -/
  | fma (f : EFields)
  /-- FMS (R166). Fused multiply-subtract, a x b - c. -/
  | fms (f : EFields)
  /-- FNMA (R166). Fused c - a x b. -/
  | fnma (f : EFields)
  /-- FMIN (R167). minimumNumber of two operands. -/
  | fmin (f : EFields)
  /-- FMAX (R167). maximumNumber of two operands. -/
  | fmax (f : EFields)
  /-- FABS (R168). Clears the sign bit. -/
  | fabs (f : EFields)
  /-- FNEG (R168). Inverts the sign bit. -/
  | fneg (f : EFields)
  /-- FCMP (R169). Floating-point compare returning integer 1 or 0. -/
  | fcmp (f : EFields)
  /-- FCLASS (R170). Returns a one-hot class of the operand. -/
  | fclass (f : EFields)
  /-- RCP (R171). Approximate reciprocal. -/
  | rcp (f : EFields)
  /-- RSQ (R171). Approximate reciprocal square root. -/
  | rsq (f : EFields)
  /-- FSCALE (R172). Scales a by 2^t, with t an integer. -/
  | fscale (f : EFields)
  /-- FRINT (R173). Rounds to an integral value under MOD. -/
  | frint (f : EFields)
  /-- FCVT (R179). Converts between floating-point formats. -/
  | fcvt (f : EFields)
  /-- FTOI (R179). Converts floating point to integer. -/
  | ftoi (f : EFields)
  /-- ITOF (R179). Converts integer to floating point. -/
  | itof (f : EFields)
  /-- QNT (R180). Scales and quantises to E4M3, E5M2 or I8 without overflow. -/
  | qnt (f : EFields)
  /-- QNT4 (R181). Quantises a burst row into one Q4 row. -/
  | qnt4 (f : EFields)
  /-- DQNT (R182). Dequantises by a scale to F32, BF16 or F16. -/
  | dqnt (f : EFields)
  /-- AMAX (R183). Largest magnitude over all elements, broadcast. -/
  | amax (f : EFields)
  /-- LSHUP (R184). Moves lanes up by n. -/
  | lshup (f : EFields)
  /-- LSHDN (R184). Moves lanes down by n. -/
  | lshdn (f : EFields)
  /-- LBCST (R184). Broadcasts one lane. -/
  | lbcst (f : EFields)
  /-- LPERM (R184). Permutes lanes by the indices in R. -/
  | lperm (f : EFields)
  /-- LRADD (R185). Tree sum of all elements, broadcast. -/
  | lradd (f : EFields)
  /-- LRMAX (R185). Tree maximum of all elements. -/
  | lrmax (f : EFields)
  /-- LRMIN (R185). Tree minimum of all elements. -/
  | lrmin (f : EFields)
  /-- LSCAN (R186). Inclusive prefix sum. -/
  | lscan (f : EFields)
  /-- LMASK (R187). Sets a new empty mask from R. -/
  | lmask (f : EFields)
  /-- LPACK (R188). Packs elements densely into full tokens. -/
  | lpack (f : EFields)
  /-- PWL (R190). Evaluates a piecewise-linear table entry. -/
  | pwl (f : EFields)
  /-- RRED (R191). Splits an argument for an EXP2 or LOG2 cascade. -/
  | rred (f : EFields)
  /-- RCOMB (R192). Recombines a cascade result with special cases. -/
  | rcomb (f : EFields)
  /-- NULLIF (R194). Sends a null if the predicate is true, else L. -/
  | nullif (f : EFields)
  /-- DROP (R194). Discards L if the predicate is true. -/
  | drop (f : EFields)
  /-- COUNT (R194). Counts tokens or lanes and emits the count on a tail. -/
  | count (f : EFields)
  /-- STEER (R195). Sends data to one target and a null to the other by predicate. -/
  | steer (f : EFields)
  /-- MERGE (R196). Passes the one data token of a data and null pair; two data tokens fault with 0x250. -/
  | merge (f : EFields)
  /-- CARRY (R197). Sends the initial value from L after a START, then recirculated values from R. -/
  | carry (f : EFields)
  /-- GATE (R198). Passes L once a permit token is at P. -/
  | gate (f : EFields)
  /-- SPLIT (R199). Sends a units to TGTA and then b units to TGTB. -/
  | split (f : EFields)
  /-- OMERGE (R199). Takes a units from L and then b units from R, in order. -/
  | omerge (f : EFields)
  /-- JOIN (R200). Joins the lanes of L and R into one token. -/
  | join (f : EFields)
  /-- MLDB (R207). Loads one B-tile token into the loading half. -/
  | mldb (f : EFields)
  /-- MSCL (R208). Sets the scale of the loading half. -/
  | mscl (f : EFields)
  /-- MMA (R210). Issues a row firing of the A row against the active tile into an accumulator row. -/
  | mma (f : EFields)
  /-- ACCRD (R217). Emits an accumulator row, exact or saturated, as tokens. -/
  | accrd (f : EFields)
  /-- ACCWR (R219). Writes a raw row into the accumulator. -/
  | accwr (f : EFields)
  /-- ACCSV (R220). Emits rows, fold bits and carry records as one block. -/
  | accsv (f : EFields)
  /-- ACCLD (R221). Loads an ACCSV block back into the accumulator. -/
  | accld (f : EFields)
  /-- CFOLD (R218). Folds the carry counts of a row into its high row. -/
  | cfold (f : EFields)
  /-- ACCZ (R219). Zeroes accumulator rows and frees their records. -/
  | accz (f : EFields)
  /-- LD (R231). Sends a global sector read request. -/
  | ld (f : EFields)
  /-- ST (R232). Sends a global sector store, a release when S is nonzero. -/
  | st (f : EFields)
  /-- LDL (R231). Reads a local bank sector. -/
  | ldl (f : EFields)
  /-- STL (R232). Writes a local bank sector on its firing edge. -/
  | stl (f : EFields)
  /-- ATOM (R233). Lane-wise atomic on a global sector at its home. -/
  | atom (f : EFields)
  /-- CAS (R234). Lane-wise compare-and-swap on a global sector. -/
  | cas (f : EFields)
  /-- MCST (R232). Stores to all four copies of a replica sector. -/
  | mcst (f : EFields)
  /-- RLD (R235). Reads several copies of a sector and reduces them in the switch. -/
  | rld (f : EFields)
  /-- PREF (R237). Prefetches a translation. -/
  | pref (f : EFields)
  /-- QPUSH (R238). Appends a token to the cell's queue. -/
  | qpush (f : EFields)
  /-- QPOP (R238). Removes the queue's head and sends it. -/
  | qpop (f : EFields)
  /-- SEND (R239). Reads a bank sector and streams it to its RECV. -/
  | send (f : EFields)
  /-- RECV (R239). Writes a received sector to its bank and sends a completion token. -/
  | recv (f : EFields)
  /-- RDCP (R236). Sends a sequence-numbered reduction contribution to a destination sector. -/
  | rdcp (f : EFields)
  /-- LAND (R240). Forwards a copy's landing token. -/
  | land (f : EFields)
  /-- MFENCE (R241). Applies a fence to the cell's program order and forwards its trigger. -/
  | mfence (f : EFields)
  /-- SIGST (R242). Writes an 8-byte signal word as a release. -/
  | sigst (f : EFields)
  /-- SIGLD (R243). Waits until a signal word reaches a threshold, with acquires. -/
  | sigld (f : EFields)
  /-- CNT (R246). Runs a counter chain, emitting iteration tokens. -/
  | cnt (f : EFields)
  /-- AFF (R247). Emits base + stride x index. -/
  | aff (f : EFields)
  /-- IDX (R248). Sums selected lanes into lane 0. -/
  | idx (f : EFields)
  /-- LAST (R248). Tests the last-iteration bits of a token. -/
  | last (f : EFields)
  /-- BND (R248). Empties lanes at or above a bound. -/
  | bnd (f : EFields)
  /-- RNGP (R249). Sends a pull to the range server. -/
  | rngp (f : EFields)
  /-- RNGX (R250). Asks the range server to raise the group count. -/
  | rngx (f : EFields)
  /-- GATH (R247). Emits a burst of sector addresses for each index lane. -/
  | gath (f : EFields)
  /-- CSEQ (R28). On START, runs its children in sequence for the count. -/
  | cseq (f : EFields)
  /-- CPIPE (R28). On START, runs its children as a double-buffered pipeline. -/
  | cpipe (f : EFields)
  /-- CSTRM (R28). On START, starts all children together for each iteration. -/
  | cstrm (f : EFields)
  /-- CBAR (R29). Consumes one pending pulse from each of n lines and pulses line D. -/
  | cbar (f : EFields)
  /-- RCFG (R30). On START, requests a partial-reconfiguration section and pulses D once it is applied. -/
  | rcfg (f : EFields)
  /-- POWER_ON_RESET (R409). The security processor runs the start-up steps in order. -/
  | powerOnReset (found : StartIn) (detail : Nat)
  /-- NODE_CHILD_DONE (R28). A tree node takes a child's DONE, starts further children or raises its own DONE; an unstarted child faults with 0x251. -/
  | nodeChildDone (r cell slot child : Nat)
  /-- LEAF_DONE (R25). A done source raises DONE once the last-iteration token has been consumed and the leaf's stores are performed. -/
  | leafDone (r cell slot : Nat)
  /-- RESULT_LAND (R18). A result lands at its reserved position, or waits in the output stage until the position is free. -/
  | resultLand (r cell slot : Nat)
  /-- HALYARD_PULSE_DELIVER (R23). A pulse is delivered once every listener can accept it; a pulse on h1 retires a START run. -/
  | halyardPulseDeliver (r line : Nat)
  /-- GLOBAL_RESPONSE (R226). A memory cell's global access response returns and lands in firing order. -/
  | globalResponse (id : Reply)
  /-- RELEASE_COMPLETION_TOKEN (R89). A release store sends its completion token once the store is performed at its scope. -/
  | releaseCompletionToken (id : Nat)
  /-- MFENCE_COMPLETE (R241). A fence completes when the accesses it orders are performed, and sends its trigger. -/
  | mfenceComplete (id : Nat)
  /-- SEQ_LOAD_RESPONSE (R254). A sequencer load's value arrives and the load retires in class order. -/
  | seqLoadResponse (id : Reply)
  /-- SEQ_STORE_RETIRE (R254). A sequencer store is performed at its scope and retires in class order. -/
  | seqStoreRetire (id : Nat)
  /-- HOME_WRITE_APPLY (R94). The home memory controller applies a write or atomic, fixing the coherence order. -/
  | homeWriteApply (id : Nat)
  /-- CROSS_DIE_WRITE_VISIBLE (R95, R96). A die makes a received write visible once every write its vector clock covers has been applied. -/
  | crossDieWriteVisible (die : Sight) (id : Nat)
  /-- LINK_RELEASE_RECEIVE (R97). A SYS-scope release message arrives over the Gulkin links and is applied. -/
  | linkReleaseReceive (dev part : Nat) (va : BitVec 64) (val : LinkData) (add : Bool) (ref : BitVec 32) (agent : Nat)
  /-- TILE_SWAP (R212). The CIM halves swap after a B tail, as HOLD permits, and the new tile and scale become active. -/
  | tileSwap (r cell : Nat)
  /-- RAMP_START (R118). An MX cell begins a slew ramp at a step boundary, at most two per step. -/
  | rampStart (r cell : Nat)
  /-- MMA_COMMIT (R210). A row firing commits its partials into the accumulator row and updates carry counts. -/
  | mmaCommit (r cell : Nat)
  /-- CCB_SPILL (R214). A held commit spills one CCB record to the spill log in 8 island cycles. -/
  | ccbSpill (r cell : Nat)
  /-- FILLER_STEP (R118). An idle, ramped MX engine runs one filler step of decreasing duty. -/
  | fillerStep (r cell : Nat)
  /-- MX_REPLAY (R215). A withheld row firing reissues from the row buffer. -/
  | mxReplay (r cell : Nat) (parity : Bool)
  /-- DROOP_WINDOW (R119). A sector's monitor detects a droop, swallows edges and marks row firings in progress suspect. -/
  | droopWindow (die sec sag : Nat)
  /-- ENGINE_POP (R100). An engine takes a request from a stream in order and writes an engine-pop pennant. -/
  | enginePop (eng agent : Nat)
  /-- COPY_SECTOR (R101). A copy engine reads and writes one 64-byte sector, combining it when the copy reduces. -/
  | copySector (id n : Nat) (bad : Bool)
  /-- LAND_TOKEN_EMIT (R80). An engine emits a landing token once a tile is wholly in the bank. -/
  | landTokenEmit (id : Nat)
  /-- COPY_STAMP (R102). A copy writes its stamp as a release, sets its tag and retires from the copy counter. -/
  | copyStamp (id : Nat)
  /-- RDCP_COMBINE (R236). The home combines a contribution in sequence order and the completion token is sent. -/
  | rdcpCombine (id : Nat)
  /-- COLLECTIVE_COMPLETE (R407). A matched collective finishes its rank-ordered reduction and performs its completion release. -/
  | collectiveComplete (id : Nat)
  /-- RANGE_SERVER_PULL (R34). The range server answers a pull with an index or the final token. -/
  | rangeServerPull (r : Nat)
  /-- RANGE_SERVER_RAISE (R34). The range server applies or refuses a raise of the group count. -/
  | rangeServerRaise (r : Nat)
  /-- SLOT_TAKE (R122). The CP takes a queue's next slot once its header is visible, clears the header and advances RD_INDEX. -/
  | slotTake (q : Nat)
  /-- LAUNCH (R124). Issues a LAUNCH packet: binds windows, requests a region and loads the image. -/
  | launch (q : Nat)
  /-- COPY_PACKET (R124). Issues a COPY packet to hub copy engine q mod 16. -/
  | copyPacket (q : Nat)
  /-- COLL_PACKET (R124). Issues a collective packet to the collective engine. -/
  | collPacket (q : Nat)
  /-- SIGNAL_PACKET (R124). Stores or adds a value to a signal word at its scope. -/
  | signalPacket (q : Nat)
  /-- WAITSIG (R130). Blocks later packets until a word satisfies the comparison. -/
  | waitsig (q : Nat)
  /-- COND (R129). Reads a word with an acquire and continues at NEXT or ELSE. -/
  | cond (q : Nat)
  /-- REARM (R296). Marks itself done, re-arms NODES graph nodes from ROOT, and continues at ROOT. -/
  | rearm (q : Nat)
  /-- HRING (R297). Reads LEN bytes and appends them as records to a host ring. -/
  | hring (q : Nat)
  /-- END (R127). Flushes the named rings and performs its signal. -/
  | endPacket (q : Nat)
  /-- PACKET_COMPLETE (R127). A packet completes as a PKG release, performs its SIGOP and may let a barrier issue. -/
  | packetComplete (q id : Nat)
  /-- WAITSIG_REEVALUATE (R130). The CP re-evaluates a WAITSIG after its monitor sees a write to ADDR. -/
  | waitsigReevaluate (q : Nat)
  /-- WR_INDEX_MONITOR (R348). The CP re-reads WR_INDEX after a write to its sector is applied. -/
  | wrIndexMonitor (q : Nat)
  /-- WR_INDEX_POLL (R348). Every 10 us the CP re-reads every armed WR_INDEX. -/
  | wrIndexPoll
  /-- RING_APPEND (R133). The hub appends records to a host ring once it has room, writing them to host memory. -/
  | ringAppend (id : Nat)
  /-- RING_COAL_TIMER (R298). The ring timer reaches COAL_T and causes a flush. -/
  | ringCoalTimer (ring : Nat)
  /-- EVENT_INTERRUPT (R349). Coalesced events are sent on a function's MSI-X vector when the count or time is reached. -/
  | eventInterrupt (fn : Nat)
  /-- REGION_ALLOCATE (R350). The allocator grants a free rectangle of quads to a waiting LAUNCH. -/
  | regionAllocate (q : Nat)
  /-- IMAGE_LOAD (R309). The loader checks and writes a configuration image and releases its sequencers. -/
  | imageLoad (r : Nat)
  /-- SECTION_APPLY (R313). The loader checks a section and marks the producers of the stages it rewrites. -/
  | sectionApply (r : Nat)
  /-- STAGE_SWITCH (R315). A stage switches to its new word once every used input has presented a reconfiguration token. -/
  | stageSwitch (r cell slot : Nat)
  /-- RATE_SOLVE (R112). The solver computes island fractions and the granted rate on a trigger. -/
  | rateSolve (r : Nat)
  /-- SWITCH_CYCLE (R114). Islands adopt new patterns together, ISL_GRANT updates and waiting sequencers are released. -/
  | switchCycle (r : Nat)
  /-- RAIL_HOLD_EXPIRE (R116). After a 50 us hold, the rail begins to fall to the next-highest vote. -/
  | railHoldExpire (quad : Nat)
  /-- RAIL_SETTLE (R116). A rising rail reaches its target vote. -/
  | railSettle (quad : Nat)
  /-- CLOCK_GATE (R117). A sector clock-gates after 64 idle island cycles. -/
  | clockGate (sec : Nat)
  /-- POWER_GATE (R117). A sector power-gates after 20 us idle. -/
  | powerGate (sec : Nat)
  /-- SECTOR_WAKE (R117). The in-rush arbiter completes the power-up of a queued sector. -/
  | sectorWake (sec : Nat)
  /-- REGION_RELEASE (R35). The region returns to the allocator once the root pulses h1 and every sequencer has halted. -/
  | regionRelease (r : Nat)
  /-- HALT_ACCEPT (R355). The hub accepts a partition's halt and stops its agents within the bound. -/
  | haltAccept (part : Nat)
  /-- WATCHDOG_T1 (R361). The queue watchdog reaches T1 and pre-empts the running LAUNCH or writes a record. -/
  | watchdogT1 (q : Nat)
  /-- WATCHDOG_T2 (R361). The queue watchdog reaches T1 + T2 and halts the partition with 0x3F2. -/
  | watchdogT2 (q : Nat)
  /-- PREEMPT_DECISION (R351). For a waiting LAUNCH, chooses a victim, spends tokens and starts its pre-emption. -/
  | preemptDecision (q : Nat)
  /-- KILL (R363). Ends a task without saving it, with cause 0x3F0. -/
  | kill (r : Nat)
  /-- CHECKPOINT (R364). Halts the task's regions at grid cycle G and begins saving their full state. -/
  | checkpoint (r : Nat)
  /-- CHECKPOINT_SAVE_COMPLETE (R365). The save completes once requests have returned and bank writes have reached sector boundaries. -/
  | checkpointSaveComplete (r : Nat)
  /-- DRAIN_PREEMPT (R281). Sets PEND in every sequencer of the region that has not halted. -/
  | drainPreempt (r : Nat)
  /-- DRAIN_COMPLETE (R293). Once all sequencers are READY or halted, retires their operations, saves them and releases the quads. -/
  | drainComplete (r : Nat)
  /-- RESTORE (R369). Places a saved task on new quads, writes back its state and resumes it. -/
  | restore (q : Nat)
  /-- HOIST_WALK (R393). Walks pennant references back from a step mark and writes a hoist record. -/
  | hoistWalk (part : Nat)
  /-- DEBUG_STOP (R398). Checkpoints the task on the first quiescent edge at the armed version. -/
  | debugStop (part : Nat)
  /-- PRIO_TOKEN_REFILL (R345). Every 1 ms, TOKENS rises by TOKRATE up to TOKMAX. -/
  | prioTokenRefill (part : Nat)
  /-- ENERGY_METER_UPDATE (R383). Every 1 ms updates partition energy and, after two intervals above CAP, triggers a scaled re-solve. -/
  | energyMeterUpdate (part uj credit : Nat)
  /-- TEMP_SAMPLE (R416). Every 1 ms updates die temperatures and MAX. -/
  | tempSample (die : Nat) (temp : BitVec 16)
  /-- FLIT_RECEIVE (R403). A link receives a flit, corrects it by FEC, checks its CRC and accepts or refuses it. -/
  | flitReceive (link : Nat) (flit : FlitIn) (corrected crcOk : Bool)
  /-- LINK_TRAINING_DONE (R403). Training or retraining completes and the link goes up or is marked miswired. -/
  | linkTrainingDone (link peer far : Nat) (ok : Bool)
  /-- TIME_SYNC_EXCHANGE (R404). Every 1 us links exchange timestamps and the time counter is steered. -/
  | timeSyncExchange (link : Nat) (found : Sync)
  /-- PAGE_WALK (R376). A TLB miss walk completes, filling TLBs or faulting. -/
  | pageWalk (id : Nat)
  /-- FQ_REPLY_RETRY (R379). A RETRY reply repeats the walk for every joined agent. -/
  | fqReplyRetry (die idx : Nat)
  /-- FQ_REPLY_ABORT (R379). An ABORT reply faults every joined agent with its unresolvable code. -/
  | fqReplyAbort (die idx : Nat)
  /-- TLB_INVALIDATE (R380). A TLB_INV write starts removing the named entries from every TLB. -/
  | tlbInvalidate (v : BitVec 64)
  /-- TLB_INV_COMPLETE (R381). BUSY falls once accesses through removed entries have been performed. -/
  | tlbInvComplete
  /-- HOST_BAR2_ACCESS (R340). A host access through BAR2 reaches device memory at SYS scope. -/
  | hostBar2Access (fn kind size : Nat) (addr v cmp : BitVec 64)
  /-- ERROR_DETECT (R418). A detected error starts a targeted test of the structure that reported it. -/
  | errorDetect (kind part die unit : Nat) (addr : BitVec 64)
  /-- BANK_ROW_BIST (R419). A row BIST completes, keeping the row or leaving it remapped. -/
  | bankRowBist (id : Nat) (pass : Bool)
  /-- SECTOR_SCAN (R418). Scans a sector once no region holds its quad, keeping or fencing it. -/
  | sectorScan (sec : Nat) (pass : Bool)
  /-- PARTITION_CREATE (R344). Writing PART_CTL.EN = 1 creates the partition. -/
  | partitionCreate (n : Nat) (v : BitVec 64)
  /-- PARTITION_DISABLE (R344). Writing PART_CTL.EN = 0 kills every task and halts with 0x3F3. -/
  | partitionDisable (n : Nat) (v : BitVec 64)
  /-- QUEUE_ENABLE (R347). Writing Q_CFG.EN = 1 reads the descriptor and arms the monitor. -/
  | queueEnable (fn q : Nat) (v : BitVec 64)
  /-- QUEUE_DISABLE (R347). Writing Q_CFG.EN = 0 stops taking slots after the packet in issue. -/
  | queueDisable (fn q : Nat) (v : BitVec 64)
  /-- REQ_COUNTER_CLEAR (R343). A REQCLR bit of DEV_CFG clears a die's request counters. -/
  | reqCounterClear (v : BitVec 64)
  /-- LINK_ENABLE (R402). Writing LINK_CTL.EN = 1 starts link training. -/
  | linkEnable (link : Nat) (v : BitVec 64)
  /-- LINK_DISABLE (R402). Writing LINK_CTL.EN = 0 takes the link down after the flit in hand. -/
  | linkDisable (link : Nat) (v : BitVec 64)
  /-- ATTESTATION_QUOTE (R415). Writing ATT_CTL.BUSY = 1 reads a nonce and writes a signed quote of the measurements. -/
  | attestationQuote (v : BitVec 64)
  /-- MEASUREMENT_EXTEND (R414). A MEAS_EXT write extends M4 to M7 by a digest in memory. -/
  | measurementExtend (v : BitVec 64)
  /-- FW_SLOT_WRITE (R423). FW_CTL.GO verifies an image and writes it into the inactive slot. -/
  | fwSlotWrite (v : BitVec 64)
  /-- FW_NEXT_SELECT (R423). Writing FW_CTL.NEXT selects the firmware slot for the next start. -/
  | fwNextSelect (v : BitVec 64)
  /-- BOOT_STAT_CLEAR (R411). Writing BOOT_STAT.CLR erases failed-step records at the next start. -/
  | bootStatClear (v : BitVec 64)
  /-- SLEEP_EXPIRY (R265). Global time has advanced by t nanoseconds since a SLEEP issued, and the sequencer continues. -/
  | sleepExpiry (quad : Nat)
  /-- BACK_PRESSURE_THRESHOLD (R113). A back-pressure counter has stayed past its threshold for 100 us, and the resource manager triggers a re-solve. -/
  | backPressureThreshold (r : Nat)
  /-- DRAIN_TIMEOUT (R361). A drain that has not completed T2 after it began is carried on as a checkpoint. -/
  | drainTimeout (r : Nat)
  /-- RAIL_FALL_END (R116). A falling rail reaches the next-highest vote and becomes steady. -/
  | railFallEnd (quad : Nat)
  /-- DROOP_WINDOW_END (R119). The supply recovers, the droop window closes and the sector's kept edges are island edges again. -/
  | droopWindowEnd (die sec : Nat)
  /-- POWER_LOSS (R423). Power to the device is lost, ending all activity and interrupting any flash write in progress. -/
  | powerLoss
  /-- DRAM_RETRAIN (R348). A die's DRAM begins retraining or its controller is reset, and the CP's monitors on that die are disarmed. -/
  | dramRetrain (die : Nat)
  /-- DRAM_RETRAIN_END (R348). The DRAM retrain or controller reset ends, and the CP re-arms and re-reads every affected WR_INDEX once. -/
  | dramRetrainEnd (die : Nat)
  /-- HOIST_FETCH_TIMEOUT (R393). A hoist walk's fetch of a remote pennant gets no answer within 10 us, and the hop counts as stale. -/
  | hoistFetchTimeout (part : Nat)
  /-- QMASK_WRITE (R346). Sets or clears quad bits, refusing held quads and deferring clears of running quads. -/
  | qmaskWrite (n i : Nat) (v : BitVec 64)
  /-- PKG_PLIM_WRITE (R382). Writes the package limit and triggers re-solves of every running region. -/
  | pkgPlimWrite (v : BitVec 64)
  /-- PART_PCAP_WRITE (R384). Writes a partition cap and triggers re-solves of its regions. -/
  | partPcapWrite (n : Nat) (v : BitVec 64)
  /-- PART_ENERGY_WRITE (R383). Any write sets the partition's energy count to 0. -/
  | partEnergyWrite (n : Nat) (v : BitVec 64)
  /-- PART_CREDIT_WRITE (R383). Any write sets the partition's energy credit to 0. -/
  | partCreditWrite (n : Nat) (v : BitVec 64)
  /-- RAIL_CFG_WRITE (R385). Writes droop threshold, power gating and TRIM, which re-votes every rail of the die. -/
  | railCfgWrite (die : Nat) (v : BitVec 64)
  /-- INRUSH_STAT_WRITE (R385). Any write clears MAXWAIT. -/
  | inrushStatWrite (die : Nat) (v : BitVec 64)
  /-- SLEW_TAB_WRITE (R387). Loads a ramp table when its entries do not decrease, or discards the write whole. -/
  | slewTabWrite (quad : Nat) (v : BitVec 64)
  /-- QUAD_COUNTER_WRITE (R388). Any write sets a quad's SPILLCYC, FILLERS, DROOPS or REPLAYS count to 0. -/
  | quadCounterWrite (quad k : Nat) (v : BitVec 64)
  /-- PART_STOP_WRITE (R359). Writes the stop area and clears OVF, FULL and COUNT. -/
  | partStopWrite (n : Nat) (v : BitVec 64)
  /-- ERR_LOG_WRITE (R420). Writes the error area and clears its flags and count. -/
  | errLogWrite (v : BitVec 64)
  /-- PART_TRACE_WRITE (R399). Writes the trace area and clears its flags and count. -/
  | partTraceWrite (n : Nat) (v : BitVec 64)
  /-- PART_HOIST_WRITE (R399). Writes the hoist area and clears its flags and count. -/
  | partHoistWrite (n : Nat) (v : BitVec 64)
  /-- PART_DBG_WRITE (R399). Arms a debug stop, sets sampling, and clears HIT or MISS. -/
  | partDbgWrite (n : Nat) (v : BitVec 64)
  /-- PMC_WRITE (R400). Writes a performance count unless its event is not countable. -/
  | pmcWrite (quad i : Nat) (v : BitVec 64)
  /-- TEMP_WRITE (R416). Writes TLIM and sets MAX to TEMP. -/
  | tempWrite (die : Nat) (v : BitVec 64)
  /-- DEV_LOC_WRITE (R402). Sets torus sizes, device id and time master while all links are down, or discards the write. -/
  | devLocWrite (v : BitVec 64)
  /-- LINK_ERR_WRITE (R402). Any write clears the link's CORR and REPLAY counts. -/
  | linkErrWrite (link : Nat) (v : BitVec 64)
  /-- REGISTER_WRITE (R341). An aligned 8-byte write to a register that has no row of its own. -/
  | registerWrite (fn size off : Nat) (v : BitVec 64)
deriving DecidableEq, Repr, Inhabited

/-- The three groups of rows. -/
inductive Instr.Kind where
  /-- a sequencer word -/
  | seq
  /-- an element, switch or controller word -/
  | elem
  /-- a device event -/
  | event
deriving DecidableEq, Repr

/-- Which group an instruction belongs to. -/
def Instr.kind : Instr → Instr.Kind
  | .add _ _ _ => .seq
  | .sub _ _ _ => .seq
  | .mul _ _ _ => .seq
  | .mulh _ _ _ => .seq
  | .div _ _ _ => .seq
  | .rem _ _ _ => .seq
  | .and _ _ _ => .seq
  | .or _ _ _ => .seq
  | .xor _ _ _ => .seq
  | .shl _ _ _ => .seq
  | .shr _ _ _ => .seq
  | .sar _ _ _ => .seq
  | .slt _ _ _ => .seq
  | .sltu _ _ _ => .seq
  | .min _ _ _ => .seq
  | .max _ _ _ => .seq
  | .addi _ _ _ => .seq
  | .andi _ _ _ => .seq
  | .ori _ _ _ => .seq
  | .xori _ _ _ => .seq
  | .shli _ _ _ => .seq
  | .shri _ _ _ => .seq
  | .sari _ _ _ => .seq
  | .slti _ _ _ => .seq
  | .lih _ _ => .seq
  | .sext _ _ _ => .seq
  | .ldb _ _ _ _ => .seq
  | .ldh _ _ _ _ => .seq
  | .ldw _ _ _ _ => .seq
  | .ldd _ _ _ _ => .seq
  | .stb _ _ _ _ => .seq
  | .sth _ _ _ _ => .seq
  | .stw _ _ _ _ => .seq
  | .std _ _ _ _ => .seq
  | .prd _ _ _ => .seq
  | .plen _ _ => .seq
  | .amo _ _ _ _ _ _ => .seq
  | .acas _ _ _ _ _ => .seq
  | .beq _ _ _ => .seq
  | .bne _ _ _ => .seq
  | .blt _ _ _ => .seq
  | .bge _ _ _ => .seq
  | .bltu _ _ _ => .seq
  | .bgeu _ _ _ => .seq
  | .jal _ _ => .seq
  | .jalr _ _ _ => .seq
  | .fence _ _ => .seq
  | .waitc _ _ _ _ => .seq
  | .wany _ _ => .seq
  | .wall _ _ => .seq
  | .tfirst _ _ => .seq
  | .tclr _ => .seq
  | .mwait _ _ _ _ => .seq
  | .sleep _ _ => .seq
  | .copy _ _ _ _ _ => .seq
  | .copyx _ _ _ _ _ => .seq
  | .coll _ _ _ _ _ => .seq
  | .qapp _ _ _ => .seq
  | .signal _ _ _ _ _ => .seq
  | .hpost _ _ _ _ => .seq
  | .start => .seq
  | .wdone => .seq
  | .reconf _ => .seq
  | .rate _ => .seq
  | .graise _ _ => .seq
  | .step _ _ => .seq
  | .pnrd _ _ _ => .seq
  | .csrr _ _ => .seq
  | .csrw _ _ _ => .seq
  | .csrs _ _ _ => .seq
  | .trap _ => .seq
  | .eret => .seq
  | .yield => .seq
  | .halt => .seq
  | .nop => .seq
  | .time _ => .seq
  | .inj _ _ _ _ _ => .seq
  | .take _ _ _ => .seq
  | .pass _ => .elem
  | .vcAdd _ => .elem
  | .vcSub _ => .elem
  | .adds _ => .elem
  | .subs _ => .elem
  | .vcMul _ => .elem
  | .vcMulh _ => .elem
  | .mad _ => .elem
  | .vcMin _ => .elem
  | .vcMax _ => .elem
  | .abs _ => .elem
  | .vcAnd _ => .elem
  | .vcOr _ => .elem
  | .vcXor _ => .elem
  | .andn _ => .elem
  | .vcShl _ => .elem
  | .vcShr _ => .elem
  | .vcSar _ => .elem
  | .rol _ => .elem
  | .clz _ => .elem
  | .popc _ => .elem
  | .cmp _ => .elem
  | .sel _ => .elem
  | .clamp _ => .elem
  | .narrow _ => .elem
  | .widen _ => .elem
  | .bfx _ => .elem
  | .bfi _ => .elem
  | .fadd _ => .elem
  | .fsub _ => .elem
  | .fmul _ => .elem
  | .fma _ => .elem
  | .fms _ => .elem
  | .fnma _ => .elem
  | .fmin _ => .elem
  | .fmax _ => .elem
  | .fabs _ => .elem
  | .fneg _ => .elem
  | .fcmp _ => .elem
  | .fclass _ => .elem
  | .rcp _ => .elem
  | .rsq _ => .elem
  | .fscale _ => .elem
  | .frint _ => .elem
  | .fcvt _ => .elem
  | .ftoi _ => .elem
  | .itof _ => .elem
  | .qnt _ => .elem
  | .qnt4 _ => .elem
  | .dqnt _ => .elem
  | .amax _ => .elem
  | .lshup _ => .elem
  | .lshdn _ => .elem
  | .lbcst _ => .elem
  | .lperm _ => .elem
  | .lradd _ => .elem
  | .lrmax _ => .elem
  | .lrmin _ => .elem
  | .lscan _ => .elem
  | .lmask _ => .elem
  | .lpack _ => .elem
  | .pwl _ => .elem
  | .rred _ => .elem
  | .rcomb _ => .elem
  | .nullif _ => .elem
  | .drop _ => .elem
  | .count _ => .elem
  | .steer _ => .elem
  | .merge _ => .elem
  | .carry _ => .elem
  | .gate _ => .elem
  | .split _ => .elem
  | .omerge _ => .elem
  | .join _ => .elem
  | .mldb _ => .elem
  | .mscl _ => .elem
  | .mma _ => .elem
  | .accrd _ => .elem
  | .accwr _ => .elem
  | .accsv _ => .elem
  | .accld _ => .elem
  | .cfold _ => .elem
  | .accz _ => .elem
  | .ld _ => .elem
  | .st _ => .elem
  | .ldl _ => .elem
  | .stl _ => .elem
  | .atom _ => .elem
  | .cas _ => .elem
  | .mcst _ => .elem
  | .rld _ => .elem
  | .pref _ => .elem
  | .qpush _ => .elem
  | .qpop _ => .elem
  | .send _ => .elem
  | .recv _ => .elem
  | .rdcp _ => .elem
  | .land _ => .elem
  | .mfence _ => .elem
  | .sigst _ => .elem
  | .sigld _ => .elem
  | .cnt _ => .elem
  | .aff _ => .elem
  | .idx _ => .elem
  | .last _ => .elem
  | .bnd _ => .elem
  | .rngp _ => .elem
  | .rngx _ => .elem
  | .gath _ => .elem
  | .cseq _ => .elem
  | .cpipe _ => .elem
  | .cstrm _ => .elem
  | .cbar _ => .elem
  | .rcfg _ => .elem
  | .powerOnReset _ _ => .event
  | .nodeChildDone _ _ _ _ => .event
  | .leafDone _ _ _ => .event
  | .resultLand _ _ _ => .event
  | .halyardPulseDeliver _ _ => .event
  | .globalResponse _ => .event
  | .releaseCompletionToken _ => .event
  | .mfenceComplete _ => .event
  | .seqLoadResponse _ => .event
  | .seqStoreRetire _ => .event
  | .homeWriteApply _ => .event
  | .crossDieWriteVisible _ _ => .event
  | .linkReleaseReceive _ _ _ _ _ _ _ => .event
  | .tileSwap _ _ => .event
  | .rampStart _ _ => .event
  | .mmaCommit _ _ => .event
  | .ccbSpill _ _ => .event
  | .fillerStep _ _ => .event
  | .mxReplay _ _ _ => .event
  | .droopWindow _ _ _ => .event
  | .enginePop _ _ => .event
  | .copySector _ _ _ => .event
  | .landTokenEmit _ => .event
  | .copyStamp _ => .event
  | .rdcpCombine _ => .event
  | .collectiveComplete _ => .event
  | .rangeServerPull _ => .event
  | .rangeServerRaise _ => .event
  | .slotTake _ => .event
  | .launch _ => .event
  | .copyPacket _ => .event
  | .collPacket _ => .event
  | .signalPacket _ => .event
  | .waitsig _ => .event
  | .cond _ => .event
  | .rearm _ => .event
  | .hring _ => .event
  | .endPacket _ => .event
  | .packetComplete _ _ => .event
  | .waitsigReevaluate _ => .event
  | .wrIndexMonitor _ => .event
  | .wrIndexPoll => .event
  | .ringAppend _ => .event
  | .ringCoalTimer _ => .event
  | .eventInterrupt _ => .event
  | .regionAllocate _ => .event
  | .imageLoad _ => .event
  | .sectionApply _ => .event
  | .stageSwitch _ _ _ => .event
  | .rateSolve _ => .event
  | .switchCycle _ => .event
  | .railHoldExpire _ => .event
  | .railSettle _ => .event
  | .clockGate _ => .event
  | .powerGate _ => .event
  | .sectorWake _ => .event
  | .regionRelease _ => .event
  | .haltAccept _ => .event
  | .watchdogT1 _ => .event
  | .watchdogT2 _ => .event
  | .preemptDecision _ => .event
  | .kill _ => .event
  | .checkpoint _ => .event
  | .checkpointSaveComplete _ => .event
  | .drainPreempt _ => .event
  | .drainComplete _ => .event
  | .restore _ => .event
  | .hoistWalk _ => .event
  | .debugStop _ => .event
  | .prioTokenRefill _ => .event
  | .energyMeterUpdate _ _ _ => .event
  | .tempSample _ _ => .event
  | .flitReceive _ _ _ _ => .event
  | .linkTrainingDone _ _ _ _ => .event
  | .timeSyncExchange _ _ => .event
  | .pageWalk _ => .event
  | .fqReplyRetry _ _ => .event
  | .fqReplyAbort _ _ => .event
  | .tlbInvalidate _ => .event
  | .tlbInvComplete => .event
  | .hostBar2Access _ _ _ _ _ _ => .event
  | .errorDetect _ _ _ _ _ => .event
  | .bankRowBist _ _ => .event
  | .sectorScan _ _ => .event
  | .partitionCreate _ _ => .event
  | .partitionDisable _ _ => .event
  | .queueEnable _ _ _ => .event
  | .queueDisable _ _ _ => .event
  | .reqCounterClear _ => .event
  | .linkEnable _ _ => .event
  | .linkDisable _ _ => .event
  | .attestationQuote _ => .event
  | .measurementExtend _ => .event
  | .fwSlotWrite _ => .event
  | .fwNextSelect _ => .event
  | .bootStatClear _ => .event
  | .sleepExpiry _ => .event
  | .backPressureThreshold _ => .event
  | .drainTimeout _ => .event
  | .railFallEnd _ => .event
  | .droopWindowEnd _ _ => .event
  | .powerLoss => .event
  | .dramRetrain _ => .event
  | .dramRetrainEnd _ => .event
  | .hoistFetchTimeout _ => .event
  | .qmaskWrite _ _ _ => .event
  | .pkgPlimWrite _ => .event
  | .partPcapWrite _ _ => .event
  | .partEnergyWrite _ _ => .event
  | .partCreditWrite _ _ => .event
  | .railCfgWrite _ _ => .event
  | .inrushStatWrite _ _ => .event
  | .slewTabWrite _ _ => .event
  | .quadCounterWrite _ _ _ => .event
  | .partStopWrite _ _ => .event
  | .errLogWrite _ => .event
  | .partTraceWrite _ _ => .event
  | .partHoistWrite _ _ => .event
  | .partDbgWrite _ _ => .event
  | .pmcWrite _ _ _ => .event
  | .tempWrite _ _ => .event
  | .devLocWrite _ => .event
  | .linkErrWrite _ _ => .event
  | .registerWrite _ _ _ _ => .event

end Sys2Proof
end

