-- ==== Sys2Proof/Machine/Flags.lean ====
section
/-! DEFINITION. Sys2Proof/Machine/Flags.lean: the seven sticky flags (03_numbers.md R58, R59). -/

namespace Sys2Proof.Machine

/-- A set of flags, in the bit order of SQ_FLAGS (R59). -/
abbrev Flags := BitVec 7

namespace Flags
def none : Flags := 0
def nv : Flags := 0x01
def dz : Flags := 0x02
def of : Flags := 0x04
def uf : Flags := 0x08
def nx : Flags := 0x10
def sat : Flags := 0x20
def cry : Flags := 0x40
/-- f when c holds. -/
def when (c : Bool) (f : Flags) : Flags := if c then f else 0
end Flags

end Sys2Proof.Machine
end

