-- ==== Sys2Proof/WellFormed.lean ====
section
/-! DEFINITION. Sys2Proof/WellFormed.lean: which field values and targets an instruction may have, from the
instruction chapters' own limits and from 09_encoding.md R144 to R152. A value refused here is one the loader refuses with
condition 1 (a field) or condition 6 (a target) of R153. -/

namespace Sys2Proof

/-- A target of R145: bits [19] V, [18:17] POS, [16:3] CELL, [2:0] PORT. -/
structure Target where
  pos  : Nat
  cell : Nat
  port : Nat
deriving DecidableEq, Repr, Inhabited

/-- The target that 20 bits name, if V = 1 (R145). -/
def Target.ofBits (t : BitVec 20) : Option Target :=
  if t.getLsbD 19 then some { pos := field t 18 17, cell := field t 16 3, port := field t 2 0 } else none

/-- The checks of R145 on one target's own bits: an unused target is all zero, and a halyard target has PORT 0. -/
def targetOk (t : BitVec 20) : Bool :=
  match Target.ofBits t with
  | none => t == 0
  | some g => g.pos != 3 || g.port == 0

namespace EFields

/-- FMT is one of the listed values. -/
def fmtIn (f : EFields) (l : List Nat) : Bool := l.contains f.fmt.toNat
/-- The integer formats (R146). -/
def intFmt (f : EFields) : Bool := f.fmtIn [6, 7, 8, 9, 10, 11, 12]
/-- F32, BF16 and F16. -/
def fpFmt (f : EFields) : Bool := f.fmtIn [0, 1, 2]
def mod0 (f : EFields) : Bool := f.mod == 0
def imm0 (f : EFields) : Bool := f.imm == 0
/-- MOD read as RND (R147). -/
def rnd (f : EFields) : Bool := decide (f.mod.toNat ≤ 5)
/-- MOD read as ORD, with X = 0 (R147). -/
def ord (f : EFields) : Bool := decide (f.mod.toNat ≤ 5)
def lo4 (f : EFields) : Nat := f.imm.toNat % 16
def hi4 (f : EFields) : Nat := f.imm.toNat / 16
/-- Both targets pass R145, a used TGTB needs a used TGTA, and the two differ. -/
def targets (f : EFields) : Bool :=
  targetOk f.ta && targetOk f.tb && ((Target.ofBits f.tb).isNone || ((Target.ofBits f.ta).isSome && f.ta != f.tb))
/-- No target, for an opcode that emits nothing (R145). -/
def noTargets (f : EFields) : Bool := f.ta == 0 && f.tb == 0

end EFields

/-- Elements per lane of a format (R146); 0 for Q4 and the reserved codes. -/
def perLane : Nat → Nat
  | 0 => 1 | 1 => 2 | 2 => 2 | 3 => 4 | 4 => 4 | 6 => 1 | 7 => 2 | 8 => 4 | 9 => 1 | 10 => 2 | 11 => 4 | 12 => 8
  | _ => 0

/-- Width of an element of a format, in bits. -/
def fmtWidth (f : Nat) : Nat := if perLane f = 0 then 0 else 32 / perLane f

/-- The part h that R178 allows for a source and a destination format. -/
def partOk (src dst h : Nat) : Bool :=
  if perLane src ≤ perLane dst then h == 0 else decide (h < perLane src / perLane dst)

/-- The CSR numbers of R285. -/
def csrNumbers : List Nat :=
  [0x000, 0x001, 0x002, 0x003, 0x004, 0x005, 0x006, 0x007, 0x008, 0x010, 0x011, 0x012, 0x013, 0x020, 0x021, 0x022,
   0x030, 0x031]

/-- The field limits that do not depend on another word or frame (condition 1 of R153). -/
def fieldsOk : Instr → Bool
  | .add _ _ _ => true
  | .sub _ _ _ => true
  | .mul _ _ _ => true
  | .mulh _ _ _ => true
  | .div _ _ _ => true
  | .rem _ _ _ => true
  | .and _ _ _ => true
  | .or _ _ _ => true
  | .xor _ _ _ => true
  | .shl _ _ _ => true
  | .shr _ _ _ => true
  | .sar _ _ _ => true
  | .slt _ _ _ => true
  | .sltu _ _ _ => true
  | .min _ _ _ => true
  | .max _ _ _ => true
  | .addi _ _ _ => true
  | .andi _ _ _ => true
  | .ori _ _ _ => true
  | .xori _ _ _ => true
  | .shli _ _ i => decide (i.toNat ≤ 63)
  | .shri _ _ i => decide (i.toNat ≤ 63)
  | .sari _ _ i => decide (i.toNat ≤ 63)
  | .slti _ _ _ => true
  | .lih _ _ => true
  | .sext _ _ n => decide (1 ≤ n.toNat ∧ n.toNat ≤ 64)
  | .ldb _ _ s _ => decide (s.toNat ≤ 5)
  | .ldh _ _ s _ => decide (s.toNat ≤ 5)
  | .ldw _ _ s _ => decide (s.toNat ≤ 5)
  | .ldd _ _ s _ => decide (s.toNat ≤ 5)
  | .stb _ _ s _ => decide (s.toNat ≤ 5)
  | .sth _ _ s _ => decide (s.toNat ≤ 5)
  | .stw _ _ s _ => decide (s.toNat ≤ 5)
  | .std _ _ s _ => decide (s.toNat ≤ 5)
  | .prd _ n o => decide (n.toNat ≤ 7) && decide (o.toNat < 2 ^ 14) && o.toNat % 8 == 0
  | .plen _ n => decide (n.toNat ≤ 7)
  | .amo _ _ _ s _ f => decide (s.toNat ≤ 5) && decide (f.toNat ≤ 8)
  | .acas _ _ _ s _ => decide (s.toNat ≤ 5)
  | .beq _ _ _ => true
  | .bne _ _ _ => true
  | .blt _ _ _ => true
  | .bge _ _ _ => true
  | .bltu _ _ _ => true
  | .bgeu _ _ _ => true
  | .jal _ _ => true
  | .jalr _ _ _ => true
  | .fence s k => decide (1 ≤ k.toNat) && decide (1 ≤ s.toNat ∧ s.toNat ≤ 5)
  | .waitc _ _ _ _ => true
  | .wany _ _ => true
  | .wall _ _ => true
  | .tfirst _ _ => true
  | .tclr _ => true
  | .mwait _ _ s _ => decide (1 ≤ s.toNat ∧ s.toNat ≤ 5)
  | .sleep _ _ => true
  | .copy _ _ _ _ _ => true
  | .copyx _ _ _ _ _ => true
  | .coll _ _ _ _ _ => true
  | .qapp _ _ _ => true
  | .signal _ _ s _ _ => decide (1 ≤ s.toNat ∧ s.toNat ≤ 5)
  | .hpost _ _ _ n => decide (1 ≤ n.toNat ∧ n.toNat ≤ 256)
  | .start => true
  | .wdone => true
  | .reconf i => decide (i.toNat ≤ 255)
  | .rate _ => true
  | .graise _ _ => true
  | .step _ _ => true
  | .pnrd _ _ _ => true
  | .csrr _ c => csrNumbers.contains c.toNat
  | .csrw _ _ c => csrNumbers.contains c.toNat
  | .csrs _ _ c => csrNumbers.contains c.toNat
  | .trap n => decide (n.toNat ≤ 15)
  | .eret => true
  | .yield => true
  | .halt => true
  | .nop => true
  | .time _ => true
  | .inj _ _ _ _ _ => true
  | .take _ _ _ => true
  | .pass f => f.intFmt && f.mod0 && f.imm0
  | .vcAdd f => f.intFmt && f.mod0 && f.imm0
  | .vcSub f => f.intFmt && f.mod0 && f.imm0
  | .adds f => f.intFmt && f.mod0 && f.imm0
  | .subs f => f.intFmt && f.mod0 && f.imm0
  | .vcMul f => f.intFmt && f.mod0 && f.imm0
  | .vcMulh f => f.intFmt && f.mod0 && f.imm0
  | .mad f => f.intFmt && f.mod0 && f.imm0
  | .vcMin f => f.intFmt && f.mod0 && f.imm0
  | .vcMax f => f.intFmt && f.mod0 && f.imm0
  | .abs f => f.intFmt && f.mod0 && f.imm0
  | .vcAnd f => f.intFmt && f.mod0 && f.imm0
  | .vcOr f => f.intFmt && f.mod0 && f.imm0
  | .vcXor f => f.intFmt && f.mod0 && f.imm0
  | .andn f => f.intFmt && f.mod0 && f.imm0
  | .vcShl f => f.intFmt && f.mod0 && f.imm0
  | .vcShr f => f.intFmt && f.mod0 && f.imm0
  | .vcSar f => f.intFmt && f.mod0 && f.imm0
  | .rol f => f.intFmt && f.mod0 && f.imm0
  | .clz f => f.intFmt && f.mod0 && f.imm0
  | .popc f => f.intFmt && f.mod0 && f.imm0
  | .cmp f => f.intFmt && decide (f.mod.toNat ≤ 9) && f.imm0
  | .sel f => f.intFmt && f.mod0 && f.imm0
  | .clamp f => f.intFmt && f.mod0 && f.imm0
  | .narrow f => f.intFmt && f.mod0 && [6, 7, 8, 9, 10, 11, 12].contains f.lo4 && f.hi4 == 0 && decide (perLane f.lo4 < perLane f.fmt.toNat)
  | .widen f => f.intFmt && f.mod0 && [6, 7, 8, 9, 10, 11, 12].contains f.lo4 && decide (perLane f.fmt.toNat < perLane f.lo4) && decide (f.hi4 < perLane f.lo4 / perLane f.fmt.toNat)
  | .bfx f => f.intFmt && f.mod0 && decide (f.imm.toNat < fmtWidth f.fmt.toNat)
  | .bfi f => f.intFmt && f.mod0 && decide (f.imm.toNat < fmtWidth f.fmt.toNat)
  | .fadd f => f.fpFmt && f.rnd && f.imm0
  | .fsub f => f.fpFmt && f.rnd && f.imm0
  | .fmul f => f.fpFmt && f.rnd && f.imm0
  | .fma f => f.fpFmt && f.rnd && f.imm0
  | .fms f => f.fpFmt && f.rnd && f.imm0
  | .fnma f => f.fpFmt && f.rnd && f.imm0
  | .fmin f => f.fpFmt && f.mod0 && f.imm0
  | .fmax f => f.fpFmt && f.mod0 && f.imm0
  | .fabs f => f.fpFmt && f.mod0 && f.imm0
  | .fneg f => f.fpFmt && f.mod0 && f.imm0
  | .fcmp f => f.fpFmt && [0, 1, 2, 3, 4, 5, 10, 11].contains f.mod.toNat && f.imm0
  | .fclass f => f.fpFmt && f.mod0 && f.imm0
  | .rcp f => f.fpFmt && f.rnd && f.imm0
  | .rsq f => f.fpFmt && f.rnd && f.imm0
  | .fscale f => f.fpFmt && f.rnd && f.imm0
  | .frint f => f.fpFmt && f.rnd && f.imm0
  | .fcvt f => f.fmtIn [0, 1, 2, 3, 4] && f.rnd && decide (f.lo4 ≤ 4) && f.lo4 != f.fmt.toNat && partOk f.lo4 f.fmt.toNat f.hi4
  | .ftoi f => f.intFmt && f.rnd && decide (f.lo4 ≤ 4) && partOk f.lo4 f.fmt.toNat f.hi4
  | .itof f => f.fmtIn [0, 1, 2, 3, 4] && f.rnd && [6, 7, 8, 9, 10, 11, 12].contains f.lo4 && partOk f.lo4 f.fmt.toNat f.hi4
  | .qnt f => f.fmtIn [3, 4, 8] && f.rnd && decide (f.lo4 ≤ 2) && f.hi4 == 0
  | .qnt4 f => f.fmtIn [5] && f.rnd && decide (f.lo4 ≤ 2) && f.hi4 == 0
  | .dqnt f => f.fpFmt && f.rnd && ((f.lo4 == 5 && f.hi4 == 0) || ([3, 4, 8].contains f.lo4 && partOk f.lo4 f.fmt.toNat f.hi4))
  | .amax f => f.fpFmt && f.mod0 && f.imm0
  | .lshup f => f.fmt != 5 && decide (f.fmt.toNat ≤ 12) && f.mod0 && decide (1 ≤ f.imm.toNat ∧ f.imm.toNat ≤ 15)
  | .lshdn f => f.fmt != 5 && decide (f.fmt.toNat ≤ 12) && f.mod0 && decide (1 ≤ f.imm.toNat ∧ f.imm.toNat ≤ 15)
  | .lbcst f => f.fmt != 5 && decide (f.fmt.toNat ≤ 12) && f.mod0 && decide (f.imm.toNat ≤ 15)
  | .lperm f => f.fmt != 5 && decide (f.fmt.toNat ≤ 12) && f.mod0 && decide (f.imm.toNat ≤ 1)
  | .lradd f => f.imm0 && ((f.fpFmt && decide (f.mod.toNat ≤ 4)) || (f.intFmt && f.mod0))
  | .lrmax f => f.imm0 && (f.fpFmt || f.intFmt) && f.mod0
  | .lrmin f => f.imm0 && (f.fpFmt || f.intFmt) && f.mod0
  | .lscan f => f.imm0 && ((f.fpFmt && decide (f.mod.toNat ≤ 4)) || (f.intFmt && f.mod0))
  | .lmask f => f.fmt != 5 && decide (f.fmt.toNat ≤ 12) && f.mod0 && decide (f.imm.toNat ≤ 3)
  | .lpack f => f.fmt != 5 && decide (f.fmt.toNat ≤ 12) && f.mod0 && decide (1 ≤ f.imm.toNat ∧ f.imm.toNat ≤ perLane f.fmt.toNat)
  | .pwl f => f.fpFmt && f.rnd && decide (f.imm.toNat ≤ 3)
  | .rred f => f.fpFmt && f.rnd && decide (f.imm.toNat ≤ 1)
  | .rcomb f => f.fpFmt && f.rnd && decide (f.imm.toNat ≤ 1)
  | .nullif f => f.fmt == 0 && f.mod0 && decide (f.imm.toNat ≤ 1)
  | .drop f => f.fmt == 0 && f.mod0 && decide (f.imm.toNat ≤ 1)
  | .count f => f.fmt == 0 && f.mod0 && decide (f.imm.toNat ≤ 1)
  | .steer f => f.fmt == 0 && f.mod0 && f.imm0
  | .merge f => f.fmt == 0 && f.mod0 && f.imm0
  | .carry f => f.fmt == 0 && f.mod0 && f.imm0
  | .gate f => f.fmt == 0 && f.mod0 && f.imm0
  | .split f => f.fmt == 0 && f.mod0 && f.lo4 != 0 && f.hi4 != 0
  | .omerge f => f.fmt == 0 && f.mod0 && f.lo4 != 0 && f.hi4 != 0
  | .join f => f.fmt == 0 && f.mod0 && decide (1 ≤ f.imm.toNat ∧ f.imm.toNat ≤ 15)
  | .mldb f => f.fmtIn [1, 3, 5, 8] && f.mod0 && f.imm0
  | .mscl f => f.fmt == 0 && f.mod0 && f.imm0
  | .mma f => f.fmtIn [1, 3, 5, 8] && (f.mod.getLsbD 0 != f.mod.getLsbD 1) && (!f.mod.getLsbD 2 || f.mod.getLsbD 1)
  | .accrd f => f.fmtIn [0, 1, 6] && decide (f.mod.toNat ≤ 1) && (f.fmt == 6 || f.mod0)
  | .accwr f => f.fmt == 0 && f.mod0
  | .accsv f => f.fmt == 0 && f.mod0
  | .accld f => f.fmt == 0 && f.mod0
  | .cfold f => f.fmt == 0 && f.mod0 && f.imm.toNat % 2 == 0
  | .accz f => f.fmt == 0 && f.mod0
  | .ld f => decide (f.fmt.toNat ≤ 12) && f.ord && f.imm0
  | .st f => decide (f.fmt.toNat ≤ 12) && f.ord && f.imm0
  | .ldl f => decide (f.fmt.toNat ≤ 12) && f.mod0 && f.imm0
  | .stl f => decide (f.fmt.toNat ≤ 12) && f.mod0 && f.imm0
  | .atom f => f.fmtIn [0, 6, 9] && f.ord && decide (f.imm.toNat ≤ 6) && !(f.fmt == 0 && [3, 4, 5].contains f.imm.toNat)
  | .cas f => f.fmtIn [0, 6, 9] && f.ord && f.imm0
  | .mcst f => decide (f.fmt.toNat ≤ 12) && decide (f.mod.toNat % 8 ≤ 5) && f.imm0
  | .rld f => f.fmtIn [0, 1, 2, 6, 9] && f.ord && decide (f.imm.toNat % 8 ≤ 2)
  | .pref f => f.fmt == 0 && f.mod0 && f.imm0
  | .qpush f => f.fmt == 0 && f.mod0 && f.imm0
  | .qpop f => f.fmt == 0 && f.mod0 && f.imm0
  | .send f => f.fmt == 0 && f.mod0 && f.imm0
  | .recv f => f.fmt == 0 && f.mod0 && f.imm0
  | .rdcp f => f.fmtIn [0, 1, 2, 6, 9] && f.mod0 && decide (f.imm.toNat ≤ 2)
  | .land f => f.fmt == 0 && f.mod0 && f.imm0
  | .mfence f => f.fmt == 0 && f.ord && f.mod != 0 && decide (1 ≤ f.imm.toNat ∧ f.imm.toNat ≤ 3)
  | .sigst f => f.fmt == 0 && f.ord && f.mod != 0 && f.imm0
  | .sigld f => f.fmt == 0 && f.ord && f.mod != 0 && f.imm0
  | .cnt f => f.fmt == 0 && f.mod0 && decide (f.imm.toNat ≤ 3)
  | .aff f => f.fmt == 0 && f.mod0 && f.imm0
  | .idx f => f.fmt == 0 && f.mod0 && decide (1 ≤ f.imm.toNat ∧ f.imm.toNat ≤ 31)
  | .last f => f.fmt == 0 && f.mod0 && decide (1 ≤ f.imm.toNat ∧ f.imm.toNat ≤ 15)
  | .bnd f => f.fmt == 0 && f.mod0 && f.imm0
  | .rngp f => f.fmt == 0 && f.mod0 && f.imm0
  | .rngx f => f.fmt == 0 && f.mod0 && f.imm0
  | .gath f => f.fmt == 0 && f.mod0 && decide (6 ≤ f.imm.toNat ∧ f.imm.toNat ≤ 12)
  | .cseq f => f.fmt == 0 && decide (f.mod.toNat ≤ 7) && f.imm0
  | .cpipe f => f.fmt == 0 && decide (f.mod.toNat ≤ 7) && f.imm0
  | .cstrm f => f.fmt == 0 && decide (f.mod.toNat ≤ 7) && f.imm0
  | .cbar f => f.fmt == 0 && f.mod0 && decide (1 ≤ f.imm.toNat ∧ f.imm.toNat ≤ 16)
  | .rcfg f => f.fmt == 0 && f.mod0
  | .powerOnReset _ _ => true
  | .nodeChildDone _ _ _ _ => true
  | .leafDone _ _ _ => true
  | .resultLand _ _ _ => true
  | .halyardPulseDeliver _ _ => true
  | .globalResponse _ => true
  | .releaseCompletionToken _ => true
  | .mfenceComplete _ => true
  | .seqLoadResponse _ => true
  | .seqStoreRetire _ => true
  | .homeWriteApply _ => true
  | .crossDieWriteVisible _ _ => true
  | .linkReleaseReceive _ _ _ _ _ _ _ => true
  | .tileSwap _ _ => true
  | .rampStart _ _ => true
  | .mmaCommit _ _ => true
  | .ccbSpill _ _ => true
  | .fillerStep _ _ => true
  | .mxReplay _ _ _ => true
  | .droopWindow _ _ _ => true
  | .enginePop _ _ => true
  | .copySector _ _ _ => true
  | .landTokenEmit _ => true
  | .copyStamp _ => true
  | .rdcpCombine _ => true
  | .collectiveComplete _ => true
  | .rangeServerPull _ => true
  | .rangeServerRaise _ => true
  | .slotTake _ => true
  | .launch _ => true
  | .copyPacket _ => true
  | .collPacket _ => true
  | .signalPacket _ => true
  | .waitsig _ => true
  | .cond _ => true
  | .rearm _ => true
  | .hring _ => true
  | .endPacket _ => true
  | .packetComplete _ _ => true
  | .waitsigReevaluate _ => true
  | .wrIndexMonitor _ => true
  | .wrIndexPoll => true
  | .ringAppend _ => true
  | .ringCoalTimer _ => true
  | .eventInterrupt _ => true
  | .regionAllocate _ => true
  | .imageLoad _ => true
  | .sectionApply _ => true
  | .stageSwitch _ _ _ => true
  | .rateSolve _ => true
  | .switchCycle _ => true
  | .railHoldExpire _ => true
  | .railSettle _ => true
  | .clockGate _ => true
  | .powerGate _ => true
  | .sectorWake _ => true
  | .regionRelease _ => true
  | .haltAccept _ => true
  | .watchdogT1 _ => true
  | .watchdogT2 _ => true
  | .preemptDecision _ => true
  | .kill _ => true
  | .checkpoint _ => true
  | .checkpointSaveComplete _ => true
  | .drainPreempt _ => true
  | .drainComplete _ => true
  | .restore _ => true
  | .hoistWalk _ => true
  | .debugStop _ => true
  | .prioTokenRefill _ => true
  | .energyMeterUpdate _ _ _ => true
  | .tempSample _ _ => true
  | .flitReceive _ _ _ _ => true
  | .linkTrainingDone _ _ _ _ => true
  | .timeSyncExchange _ _ => true
  | .pageWalk _ => true
  | .fqReplyRetry _ _ => true
  | .fqReplyAbort _ _ => true
  | .tlbInvalidate _ => true
  | .tlbInvComplete => true
  | .hostBar2Access _ _ _ _ _ _ => true
  | .errorDetect _ _ _ _ _ => true
  | .bankRowBist _ _ => true
  | .sectorScan _ _ => true
  | .partitionCreate _ _ => true
  | .partitionDisable _ _ => true
  | .queueEnable _ _ _ => true
  | .queueDisable _ _ _ => true
  | .reqCounterClear _ => true
  | .linkEnable _ _ => true
  | .linkDisable _ _ => true
  | .attestationQuote _ => true
  | .measurementExtend _ => true
  | .fwSlotWrite _ => true
  | .fwNextSelect _ => true
  | .bootStatClear _ => true
  | .sleepExpiry _ => true
  | .backPressureThreshold _ => true
  | .drainTimeout _ => true
  | .railFallEnd _ => true
  | .droopWindowEnd _ _ => true
  | .powerLoss => true
  | .dramRetrain _ => true
  | .dramRetrainEnd _ => true
  | .hoistFetchTimeout _ => true
  | .qmaskWrite _ _ _ => true
  | .pkgPlimWrite _ => true
  | .partPcapWrite _ _ => true
  | .partEnergyWrite _ _ => true
  | .partCreditWrite _ _ => true
  | .railCfgWrite _ _ => true
  | .inrushStatWrite _ _ => true
  | .slewTabWrite _ _ => true
  | .quadCounterWrite _ _ _ => true
  | .partStopWrite _ _ => true
  | .errLogWrite _ => true
  | .partTraceWrite _ _ => true
  | .partHoistWrite _ _ => true
  | .partDbgWrite _ _ => true
  | .pmcWrite _ _ _ => true
  | .tempWrite _ _ => true
  | .devLocWrite _ => true
  | .linkErrWrite _ _ => true
  | .registerWrite _ _ _ _ => true

/-- A target that names a halyard line, with PORT 0 (R27). -/
def isLine (t : BitVec 20) : Bool :=
  match Target.ofBits t with
  | some g => g.pos == 3 && g.port == 0
  | none => false
/-- A target that names an odd halyard line (R27). -/
def lineOdd (t : BitVec 20) : Bool := isLine t && t.getLsbD 3
/-- A target that names an even halyard line (R27). -/
def lineEven (t : BitVec 20) : Bool := isLine t && !t.getLsbD 3

/-- The checks on an instruction's own targets (R27, R145, R177, R239). -/
def targetsOk : Instr → Bool
  | .add _ _ _ => true
  | .sub _ _ _ => true
  | .mul _ _ _ => true
  | .mulh _ _ _ => true
  | .div _ _ _ => true
  | .rem _ _ _ => true
  | .and _ _ _ => true
  | .or _ _ _ => true
  | .xor _ _ _ => true
  | .shl _ _ _ => true
  | .shr _ _ _ => true
  | .sar _ _ _ => true
  | .slt _ _ _ => true
  | .sltu _ _ _ => true
  | .min _ _ _ => true
  | .max _ _ _ => true
  | .addi _ _ _ => true
  | .andi _ _ _ => true
  | .ori _ _ _ => true
  | .xori _ _ _ => true
  | .shli _ _ _ => true
  | .shri _ _ _ => true
  | .sari _ _ _ => true
  | .slti _ _ _ => true
  | .lih _ _ => true
  | .sext _ _ _ => true
  | .ldb _ _ _ _ => true
  | .ldh _ _ _ _ => true
  | .ldw _ _ _ _ => true
  | .ldd _ _ _ _ => true
  | .stb _ _ _ _ => true
  | .sth _ _ _ _ => true
  | .stw _ _ _ _ => true
  | .std _ _ _ _ => true
  | .prd _ _ _ => true
  | .plen _ _ => true
  | .amo _ _ _ _ _ _ => true
  | .acas _ _ _ _ _ => true
  | .beq _ _ _ => true
  | .bne _ _ _ => true
  | .blt _ _ _ => true
  | .bge _ _ _ => true
  | .bltu _ _ _ => true
  | .bgeu _ _ _ => true
  | .jal _ _ => true
  | .jalr _ _ _ => true
  | .fence _ _ => true
  | .waitc _ _ _ _ => true
  | .wany _ _ => true
  | .wall _ _ => true
  | .tfirst _ _ => true
  | .tclr _ => true
  | .mwait _ _ _ _ => true
  | .sleep _ _ => true
  | .copy _ _ _ _ _ => true
  | .copyx _ _ _ _ _ => true
  | .coll _ _ _ _ _ => true
  | .qapp _ _ _ => true
  | .signal _ _ _ _ _ => true
  | .hpost _ _ _ _ => true
  | .start => true
  | .wdone => true
  | .reconf _ => true
  | .rate _ => true
  | .graise _ _ => true
  | .step _ _ => true
  | .pnrd _ _ _ => true
  | .csrr _ _ => true
  | .csrw _ _ _ => true
  | .csrs _ _ _ => true
  | .trap _ => true
  | .eret => true
  | .yield => true
  | .halt => true
  | .nop => true
  | .time _ => true
  | .inj _ _ _ _ _ => true
  | .take _ _ _ => true
  | .pass f => f.targets
  | .vcAdd f => f.targets
  | .vcSub f => f.targets
  | .adds f => f.targets
  | .subs f => f.targets
  | .vcMul f => f.targets
  | .vcMulh f => f.targets
  | .mad f => f.targets
  | .vcMin f => f.targets
  | .vcMax f => f.targets
  | .abs f => f.targets
  | .vcAnd f => f.targets
  | .vcOr f => f.targets
  | .vcXor f => f.targets
  | .andn f => f.targets
  | .vcShl f => f.targets
  | .vcShr f => f.targets
  | .vcSar f => f.targets
  | .rol f => f.targets
  | .clz f => f.targets
  | .popc f => f.targets
  | .cmp f => f.targets
  | .sel f => f.targets
  | .clamp f => f.targets
  | .narrow f => f.targets
  | .widen f => f.targets
  | .bfx f => f.targets
  | .bfi f => f.targets
  | .fadd f => f.targets
  | .fsub f => f.targets
  | .fmul f => f.targets
  | .fma f => f.targets
  | .fms f => f.targets
  | .fnma f => f.targets
  | .fmin f => f.targets
  | .fmax f => f.targets
  | .fabs f => f.targets
  | .fneg f => f.targets
  | .fcmp f => f.targets
  | .fclass f => f.targets
  | .rcp f => f.targets
  | .rsq f => f.targets
  | .fscale f => f.targets
  | .frint f => f.targets
  | .fcvt f => f.targets
  | .ftoi f => f.targets
  | .itof f => f.targets
  | .qnt f => f.targets
  | .qnt4 f => f.targets
  | .dqnt f => f.targets
  | .amax f => f.targets
  | .lshup f => f.targets
  | .lshdn f => f.targets
  | .lbcst f => f.targets
  | .lperm f => f.targets
  | .lradd f => f.targets
  | .lrmax f => f.targets
  | .lrmin f => f.targets
  | .lscan f => f.targets
  | .lmask f => f.targets
  | .lpack f => f.targets
  | .pwl f => f.targets
  | .rred f => f.targets
  | .rcomb f => f.targets
  | .nullif f => f.targets
  | .drop f => f.targets
  | .count f => f.targets
  | .steer f => f.targets && (Target.ofBits f.ta).isSome && (Target.ofBits f.tb).isSome
  | .merge f => f.targets
  | .carry f => f.targets
  | .gate f => f.targets
  | .split f => f.targets && (Target.ofBits f.ta).isSome && (Target.ofBits f.tb).isSome
  | .omerge f => f.targets
  | .join f => f.targets
  | .mldb f => f.noTargets
  | .mscl f => f.noTargets
  | .mma f => f.noTargets
  | .accrd f => f.targets
  | .accwr f => f.targets
  | .accsv f => f.targets
  | .accld f => f.targets
  | .cfold f => f.targets
  | .accz f => f.targets
  | .ld f => f.targets
  | .st f => f.targets && (f.mod.toNat % 8 != 0 || f.noTargets)
  | .ldl f => f.targets
  | .stl f => f.noTargets
  | .atom f => f.targets
  | .cas f => f.targets
  | .mcst f => f.targets && (f.mod.toNat % 8 != 0 || f.noTargets)
  | .rld f => f.targets
  | .pref f => f.noTargets
  | .qpush f => f.noTargets
  | .qpop f => f.targets
  | .send f => f.targets && f.tb == 0 && (match Target.ofBits f.ta with | some g => g.pos == 1 | none => false)
  | .recv f => f.targets
  | .rdcp f => f.targets
  | .land f => f.targets
  | .mfence f => f.targets
  | .sigst f => f.targets
  | .sigld f => f.targets
  | .cnt f => f.targets
  | .aff f => f.targets
  | .idx f => f.targets
  | .last f => f.targets
  | .bnd f => f.targets
  | .rngp f => f.targets
  | .rngx f => f.targets
  | .gath f => f.targets
  | .cseq f => lineOdd f.ta && lineEven f.tb
  | .cpipe f => lineOdd f.ta && lineEven f.tb
  | .cstrm f => lineOdd f.ta && lineEven f.tb
  | .cbar f => lineOdd f.ta && isLine f.tb
  | .rcfg f => lineOdd f.ta && f.tb == 0
  | .powerOnReset _ _ => true
  | .nodeChildDone _ _ _ _ => true
  | .leafDone _ _ _ => true
  | .resultLand _ _ _ => true
  | .halyardPulseDeliver _ _ => true
  | .globalResponse _ => true
  | .releaseCompletionToken _ => true
  | .mfenceComplete _ => true
  | .seqLoadResponse _ => true
  | .seqStoreRetire _ => true
  | .homeWriteApply _ => true
  | .crossDieWriteVisible _ _ => true
  | .linkReleaseReceive _ _ _ _ _ _ _ => true
  | .tileSwap _ _ => true
  | .rampStart _ _ => true
  | .mmaCommit _ _ => true
  | .ccbSpill _ _ => true
  | .fillerStep _ _ => true
  | .mxReplay _ _ _ => true
  | .droopWindow _ _ _ => true
  | .enginePop _ _ => true
  | .copySector _ _ _ => true
  | .landTokenEmit _ => true
  | .copyStamp _ => true
  | .rdcpCombine _ => true
  | .collectiveComplete _ => true
  | .rangeServerPull _ => true
  | .rangeServerRaise _ => true
  | .slotTake _ => true
  | .launch _ => true
  | .copyPacket _ => true
  | .collPacket _ => true
  | .signalPacket _ => true
  | .waitsig _ => true
  | .cond _ => true
  | .rearm _ => true
  | .hring _ => true
  | .endPacket _ => true
  | .packetComplete _ _ => true
  | .waitsigReevaluate _ => true
  | .wrIndexMonitor _ => true
  | .wrIndexPoll => true
  | .ringAppend _ => true
  | .ringCoalTimer _ => true
  | .eventInterrupt _ => true
  | .regionAllocate _ => true
  | .imageLoad _ => true
  | .sectionApply _ => true
  | .stageSwitch _ _ _ => true
  | .rateSolve _ => true
  | .switchCycle _ => true
  | .railHoldExpire _ => true
  | .railSettle _ => true
  | .clockGate _ => true
  | .powerGate _ => true
  | .sectorWake _ => true
  | .regionRelease _ => true
  | .haltAccept _ => true
  | .watchdogT1 _ => true
  | .watchdogT2 _ => true
  | .preemptDecision _ => true
  | .kill _ => true
  | .checkpoint _ => true
  | .checkpointSaveComplete _ => true
  | .drainPreempt _ => true
  | .drainComplete _ => true
  | .restore _ => true
  | .hoistWalk _ => true
  | .debugStop _ => true
  | .prioTokenRefill _ => true
  | .energyMeterUpdate _ _ _ => true
  | .tempSample _ _ => true
  | .flitReceive _ _ _ _ => true
  | .linkTrainingDone _ _ _ _ => true
  | .timeSyncExchange _ _ => true
  | .pageWalk _ => true
  | .fqReplyRetry _ _ => true
  | .fqReplyAbort _ _ => true
  | .tlbInvalidate _ => true
  | .tlbInvComplete => true
  | .hostBar2Access _ _ _ _ _ _ => true
  | .errorDetect _ _ _ _ _ => true
  | .bankRowBist _ _ => true
  | .sectorScan _ _ => true
  | .partitionCreate _ _ => true
  | .partitionDisable _ _ => true
  | .queueEnable _ _ _ => true
  | .queueDisable _ _ _ => true
  | .reqCounterClear _ => true
  | .linkEnable _ _ => true
  | .linkDisable _ _ => true
  | .attestationQuote _ => true
  | .measurementExtend _ => true
  | .fwSlotWrite _ => true
  | .fwNextSelect _ => true
  | .bootStatClear _ => true
  | .sleepExpiry _ => true
  | .backPressureThreshold _ => true
  | .drainTimeout _ => true
  | .railFallEnd _ => true
  | .droopWindowEnd _ _ => true
  | .powerLoss => true
  | .dramRetrain _ => true
  | .dramRetrainEnd _ => true
  | .hoistFetchTimeout _ => true
  | .qmaskWrite _ _ _ => true
  | .pkgPlimWrite _ => true
  | .partPcapWrite _ _ => true
  | .partEnergyWrite _ _ => true
  | .partCreditWrite _ _ => true
  | .railCfgWrite _ _ => true
  | .inrushStatWrite _ _ => true
  | .slewTabWrite _ _ => true
  | .quadCounterWrite _ _ _ => true
  | .partStopWrite _ _ => true
  | .errLogWrite _ => true
  | .partTraceWrite _ _ => true
  | .partHoistWrite _ _ => true
  | .partDbgWrite _ _ => true
  | .pmcWrite _ _ _ => true
  | .tempWrite _ _ => true
  | .devLocWrite _ => true
  | .linkErrWrite _ _ => true
  | .registerWrite _ _ _ _ => true

/-- An instruction whose own fields and targets the loader accepts. -/
def WellFormed (i : Instr) : Bool := fieldsOk i && targetsOk i

end Sys2Proof
end

