-- ==== Sys2Proof/Machine/Numbers.lean ====
section
/-! DEFINITION. Sys2Proof/Machine/Numbers.lean: the number formats, exact values and rounding (03_numbers.md R40 to R50, R63). -/

namespace Sys2Proof.Machine

/-- A floating-point layout: exponent bits, mantissa bits, bias, and whether it has infinities (R40). -/
structure Fmt where
  eb   : Nat
  mb   : Nat
  bias : Nat
  inf  : Bool
deriving DecidableEq, Repr, Inhabited

/-- F32, BF16, F16, E4M3 and E5M2 by FMT code (R40, R146); every other code reads as F32. -/
def Fmt.ofCode : Nat → Fmt
  | 1 => ⟨8, 7, 127, true⟩
  | 2 => ⟨5, 10, 15, true⟩
  | 3 => ⟨4, 3, 7, false⟩
  | 4 => ⟨5, 2, 15, true⟩
  | _ => ⟨8, 23, 127, true⟩

namespace Fmt
/-- Total width in bits. -/
def width (f : Fmt) : Nat := 1 + f.eb + f.mb
/-- Code of the largest finite magnitude (R40). -/
def maxCode (f : Fmt) : Nat := if f.inf then (2 ^ f.eb - 1) * 2 ^ f.mb - 1 else 2 ^ (f.eb + f.mb) - 2
/-- Code of infinity, or of the largest finite magnitude where the format has no infinity (R46). -/
def infCode (f : Fmt) : Nat := if f.inf then (2 ^ f.eb - 1) * 2 ^ f.mb else f.maxCode
/-- The canonical NaN (R40). -/
def nan (f : Fmt) : Nat := if f.inf then (2 ^ f.eb - 1) * 2 ^ f.mb + 2 ^ (f.mb - 1) else 2 ^ (f.eb + f.mb) - 1
/-- The sign bit. -/
def signBit (f : Fmt) (neg : Bool) : Nat := if neg then 2 ^ (f.eb + f.mb) else 0
end Fmt

/-- An exact real value: sign, and magnitude num / den (den is never 0). -/
structure Ex where
  neg : Bool
  num : Nat
  den : Nat
deriving DecidableEq, Repr, Inhabited

namespace Ex
/-- The integer v. -/
def ofInt (v : Int) : Ex := ⟨decide (v < 0), v.natAbs, 1⟩
/-- m × 2^e with a sign. -/
def scaled (neg : Bool) (m : Nat) (e : Int) : Ex :=
  if 0 ≤ e then ⟨neg, m * 2 ^ e.toNat, 1⟩ else ⟨neg, m, 2 ^ (-e).toNat⟩
def mul (a b : Ex) : Ex := ⟨a.neg != b.neg, a.num * b.num, a.den * b.den⟩
def negate (a : Ex) : Ex := { a with neg := !a.neg }
/-- The signed numerator over the product of the denominators. -/
def add (a b : Ex) : Ex :=
  let x : Int := (if a.neg then -(a.num : Int) else a.num) * b.den
  let y : Int := (if b.neg then -(b.num : Int) else b.num) * a.den
  ⟨decide (x + y < 0), (x + y).natAbs, a.den * b.den⟩
/-- a ≤ b in magnitude. -/
def magLe (a b : Ex) : Bool := decide (a.num * b.den ≤ b.num * a.den)
def magLt (a b : Ex) : Bool := decide (a.num * b.den < b.num * a.den)
/-- a < b as signed values; zeros are equal. -/
def lt (a b : Ex) : Bool :=
  decide ((if a.neg then -(a.num : Int) else a.num) * b.den < (if b.neg then -(b.num : Int) else b.num) * a.den)
def eqv (a b : Ex) : Bool := !lt a b && !lt b a
def isZero (a : Ex) : Bool := a.num == 0
/-- floor(log2 |a|) of a nonzero value. -/
def log2 (a : Ex) : Int :=
  let e : Int := (Nat.log2 a.num : Int) - (Nat.log2 a.den : Int)
  let low : Bool := if 0 ≤ e then decide (a.num < a.den * 2 ^ e.toNat) else decide (a.num * 2 ^ (-e).toNat < a.den)
  if low then e - 1 else e
/-- floor(|a| / 2^q), and the remainder as a fraction of 2^q: (quotient, remainder numerator, denominator). -/
def divPow (a : Ex) (q : Int) : Nat × Nat × Nat :=
  let n := if 0 ≤ q then a.num else a.num * 2 ^ (-q).toNat
  let d := if 0 ≤ q then a.den * 2 ^ q.toNat else a.den
  (n / d, n % d, d)
/-- floor of the signed value. -/
def floor (a : Ex) : Int :=
  if a.neg then -(((a.num + a.den - 1) / a.den : Nat) : Int) else ((a.num / a.den : Nat) : Int)
end Ex

/-- Whether the magnitude rounds up from its lower neighbour lo, by mode (R45); s is the LFSR's low 16 bits (R47). -/
def roundsUp (mode : Nat) (neg : Bool) (lo rem den s : Nat) : Bool :=
  if rem = 0 then false
  else match mode with
    | 0 => decide (den < 2 * rem) || (decide (2 * rem = den) && lo % 2 == 1)
    | 1 => false
    | 2 => neg
    | 3 => !neg
    | 4 => decide (den ≤ 2 * rem)
    | _ => decide (2 ^ 16 ≤ rem * 2 ^ 16 / den + s)

/-- round(x, F, mode) of R45 to R47 for a nonzero or zero exact value, as the code with its sign, and the flags. DESIGN CHOICE: under SR past M, where the value after
lo is infinity and R47's f has no stated value, f is taken in x's own binade, as if the exponent had no upper bound (log 29). -/
def roundTo (f : Fmt) (mode s : Nat) (x : Ex) : Nat × Flags :=
  if x.num = 0 then (f.signBit x.neg, Flags.none)
  else
    let emin : Int := 1 - (f.bias : Int)
    let e := x.log2
    let q : Int := (if e < emin then emin else e) - (f.mb : Int)
    let (lo, rem, den) := x.divPow q
    let up := roundsUp mode x.neg lo rem den s
    let sig := if up then lo + 1 else lo
    let code := (q - (emin - (f.mb : Int))).toNat * 2 ^ f.mb + sig
    let inexact := decide (rem ≠ 0)
    let (ulo, urem, uden) := x.divPow (e - (f.mb : Int))
    let usig := if roundsUp mode x.neg ulo urem uden s then ulo + 1 else ulo
    let tiny := decide (e < emin - 1) || (decide (e = emin - 1) && decide (usig < 2 ^ (f.mb + 1)))
    if code > f.maxCode then
      let toInf : Bool := match mode with
        | 0 => true
        | 1 => false
        | 2 => x.neg
        | 3 => !x.neg
        | 4 => true
        | _ => up
      (f.signBit x.neg + (if toInf then f.infCode else f.maxCode), Flags.of ||| Flags.nx)
    else
      (f.signBit x.neg + code, (Flags.when inexact Flags.nx) ||| (Flags.when (tiny && inexact) Flags.uf))

/-- A floating-point datum: a NaN (signalling or not), an infinity, or a number (a zero keeps its sign). -/
inductive Fv where
  | nan (signalling : Bool)
  | inf (neg : Bool)
  | num (x : Ex)
deriving DecidableEq, Repr, Inhabited

namespace Fv

/-- The datum that a code holds (R40, R41). -/
def ofCode (f : Fmt) (c : Nat) : Fv :=
  let neg := c / 2 ^ (f.eb + f.mb) % 2 == 1
  let e := c / 2 ^ f.mb % 2 ^ f.eb
  let m := c % 2 ^ f.mb
  if f.inf && e == 2 ^ f.eb - 1 then
    if m == 0 then .inf neg else .nan (decide (m < 2 ^ (f.mb - 1)))
  else if !f.inf && e == 2 ^ f.eb - 1 && m == 2 ^ f.mb - 1 then .nan false
  else if e == 0 then .num (Ex.scaled neg m (1 - (f.bias : Int) - (f.mb : Int)))
  else .num (Ex.scaled neg (2 ^ f.mb + m) ((e : Int) - (f.bias : Int) - (f.mb : Int)))

def isNan : Fv → Bool
  | .nan _ => true
  | _ => false
def isSig : Fv → Bool
  | .nan s => s
  | _ => false
def isZero : Fv → Bool
  | .num x => x.isZero
  | _ => false
def neg : Fv → Bool
  | .nan _ => false
  | .inf n => n
  | .num x => x.neg
def negate : Fv → Fv
  | .nan s => .nan s
  | .inf n => .inf (!n)
  | .num x => .num x.negate
/-- |x|. -/
def abs : Fv → Fv
  | .nan s => .nan s
  | .inf _ => .inf false
  | .num x => .num { x with neg := false }

/-- a × b, and whether it is the invalid 0 × ∞ (R41, R165). -/
def mul (a b : Fv) : Fv × Bool :=
  match a, b with
  | .nan s, .nan t => (.nan (s || t), false)
  | .nan s, _ => (.nan s, false)
  | _, .nan t => (.nan t, false)
  | .inf n, .inf m => (.inf (n != m), false)
  | .inf n, .num y => if y.isZero then (.nan false, true) else (.inf (n != y.neg), false)
  | .num x, .inf m => if x.isZero then (.nan false, true) else (.inf (x.neg != m), false)
  | .num x, .num y => (.num (x.mul y), false)

/-- a + b with the zero signs of R165 (rdn: the mode is RDN), and whether it is the invalid ∞ − ∞. -/
def add (rdn : Bool) (a b : Fv) : Fv × Bool :=
  match a, b with
  | .nan s, .nan t => (.nan (s || t), false)
  | .nan s, _ => (.nan s, false)
  | _, .nan t => (.nan t, false)
  | .inf n, .inf m => if n == m then (.inf n, false) else (.nan false, true)
  | .inf n, .num _ => (.inf n, false)
  | .num _, .inf m => (.inf m, false)
  | .num x, .num y =>
    if x.isZero && y.isZero then (.num ⟨if x.neg == y.neg then x.neg else rdn, 0, 1⟩, false)
    else
      let z := x.add y
      if z.isZero then (.num ⟨rdn, 0, 1⟩, false) else (.num z, false)

/-- Round a datum to a format: NaN to the canonical NaN, infinity to infinity (no flag), a number by R45. -/
def round (f : Fmt) (mode s : Nat) : Fv → Nat × Flags
  | .nan _ => (f.nan, Flags.none)
  | .inf n => (f.signBit n + f.infCode, Flags.none)
  | .num x => roundTo f mode s x

/-- The order of the numbers and infinities; false with a NaN. −0 and +0 are equal. -/
def lt : Fv → Fv → Bool
  | .nan _, _ => false
  | _, .nan _ => false
  | .inf n, .inf m => n && !m
  | .inf n, .num _ => n
  | .num _, .inf m => !m
  | .num x, .num y => x.lt y
def eqv : Fv → Fv → Bool
  | .nan _, _ => false
  | _, .nan _ => false
  | a, b => !lt a b && !lt b a

end Fv

/-- lfsr_step of R47. -/
def lfsrStep (s : W32) : W32 :=
  let b := (s.getLsbD 31).xor ((s.getLsbD 21).xor ((s.getLsbD 1).xor (s.getLsbD 0)))
  (s <<< 1) ||| (if b then 1 else 0)

/-- The LFSR state that a constant word loads (R47). -/
def lfsrSeed (k : W32) : W32 := if k = 0 then 1 else k

/-- The value of a w-bit element in an integer format: the I formats are signed (R44). -/
def intVal (fmt w x : Nat) : Int :=
  if [6, 7, 8, 12].contains fmt then (if 2 ^ (w - 1) ≤ x then (x : Int) - 2 ^ w else x) else x

/-- The bounds of an integer format (R44). -/
def intLo (fmt w : Nat) : Int := if [6, 7, 8, 12].contains fmt then -(2 ^ (w - 1)) else 0
def intHi (fmt w : Nat) : Int := if [6, 7, 8, 12].contains fmt then 2 ^ (w - 1) - 1 else 2 ^ w - 1

/-- wrap(v): the low w bits of the exact integer (ch. 10). -/
def wrapInt (w : Nat) (v : Int) : Nat := (v % (2 ^ w : Int)).toNat

/-- sat(v) of ch. 10: the clamped element and SAT when it clamps. -/
def satInt (fmt w : Nat) (v : Int) : Nat × Flags :=
  if v < intLo fmt w then (wrapInt w (intLo fmt w), Flags.sat)
  else if intHi fmt w < v then (wrapInt w (intHi fmt w), Flags.sat)
  else (wrapInt w v, Flags.none)

/-- sext(v, w) of R44. -/
def sextNat (w x : Nat) : Int := if 2 ^ (w - 1) ≤ x then (x : Int) - 2 ^ w else x

/-- Round an exact value to an integer under a mode (R45 read over the integers), and whether it was inexact. -/
def roundInt (mode s : Nat) (x : Ex) : Int × Bool :=
  let (lo, rem, den) := x.divPow 0
  let m := if roundsUp mode x.neg lo rem den s then lo + 1 else lo
  (if x.neg then -(m : Int) else m, decide (rem ≠ 0))

/-- FTOI of R49 for one element. -/
def ftoi (src : Fmt) (dst w mode s c : Nat) : Nat × Flags :=
  match Fv.ofCode src c with
  | .nan _ => (0, Flags.nv)
  | .inf n => (wrapInt w (if n then intLo dst w else intHi dst w), Flags.nv)
  | .num x =>
    let (v, inexact) := roundInt mode s x
    if v < intLo dst w then (wrapInt w (intLo dst w), Flags.nv)
    else if intHi dst w < v then (wrapInt w (intHi dst w), Flags.nv)
    else (wrapInt w v, Flags.when inexact Flags.nx)

/-- FCVT of R48 for one element. -/
def fcvt (src dst : Fmt) (mode s c : Nat) : Nat × Flags :=
  let v := Fv.ofCode src c
  let (r, fl) := v.round dst mode s
  (r, fl ||| Flags.when v.isSig Flags.nv)

/-- An arithmetic result rounded once, with NV for an invalid operation or a signalling operand (R41, R165). -/
def finish (f : Fmt) (mode s : Nat) (r : Fv × Bool) (sig : Bool) : Nat × Flags :=
  let (c, fl) := r.1.round f mode s
  (c, fl ||| Flags.when (r.2 || sig) Flags.nv)

/-- a × b + c with one rounding (R166); the product is not rounded. -/
def fmaF (f : Fmt) (mode s : Nat) (negProd negC : Bool) (a b c : Nat) : Nat × Flags :=
  let x := Fv.ofCode f a; let y := Fv.ofCode f b; let z := Fv.ofCode f c
  let (p, inv) := x.mul y
  let p := if negProd then p.negate else p
  let z' := if negC then z.negate else z
  let (r, inv2) := Fv.add (mode == 2) p z'
  finish f mode s (if inv then .nan false else r, inv || inv2) (x.isSig || y.isSig || z.isSig)

def faddF (f : Fmt) (mode s : Nat) (negB : Bool) (a b : Nat) : Nat × Flags :=
  let x := Fv.ofCode f a; let y := Fv.ofCode f b
  finish f mode s (Fv.add (mode == 2) x (if negB then y.negate else y)) (x.isSig || y.isSig)

def fmulF (f : Fmt) (mode s : Nat) (a b : Nat) : Nat × Flags :=
  let x := Fv.ofCode f a; let y := Fv.ofCode f b
  finish f mode s (x.mul y) (x.isSig || y.isSig)

/-- FMIN (max = false) and FMAX of R167. -/
def fminmax (f : Fmt) (max : Bool) (a b : Nat) : Nat × Flags :=
  let x := Fv.ofCode f a; let y := Fv.ofCode f b
  let fl := Flags.when (x.isSig || y.isSig) Flags.nv
  if x.isNan && y.isNan then (f.nan, fl)
  else if x.isNan then (b, fl)
  else if y.isNan then (a, fl)
  else
    let aLess := Fv.lt x y || (Fv.eqv x y && x.neg && !y.neg)
    (if aLess != max then a else b, fl)

/-- FCMP of R169 under a CND code. -/
def fcmp (f : Fmt) (cnd a b : Nat) : Nat × Flags :=
  let x := Fv.ofCode f a; let y := Fv.ofCode f b
  let un := x.isNan || y.isNan
  let r : Bool := match cnd with
    | 0 => Fv.eqv x y
    | 1 => !Fv.eqv x y
    | 2 => Fv.lt x y
    | 3 => !un && !Fv.lt y x
    | 4 => Fv.lt y x
    | 5 => !un && !Fv.lt x y
    | 10 => un
    | _ => !un
  let quietOnly := decide (2 ≤ cnd ∧ cnd ≤ 5)
  (if r then 1 else 0, Flags.when (if quietOnly then un else x.isSig || y.isSig) Flags.nv)

/-- FCLASS of R170. -/
def fclass (f : Fmt) (a : Nat) : Nat :=
  match Fv.ofCode f a with
  | .nan s => if s then 2 ^ 8 else 2 ^ 9
  | .inf n => if n then 1 else 2 ^ 7
  | .num x =>
    let sub := a / 2 ^ f.mb % 2 ^ f.eb == 0
    if x.isZero then (if x.neg then 2 ^ 3 else 2 ^ 4)
    else if x.neg then (if sub then 2 ^ 2 else 2 ^ 1)
    else (if sub then 2 ^ 5 else 2 ^ 6)

/-- FSCALE of R172: a × 2^t. -/
def fscale (f : Fmt) (mode s a t : Nat) : Nat × Flags :=
  match Fv.ofCode f a with
  | .nan sg => (f.nan, Flags.when sg Flags.nv)
  | .inf n => (f.signBit n + f.infCode, Flags.none)
  | .num x =>
    if x.isZero then (f.signBit x.neg, Flags.none)
    else
      let k := sextNat f.width t
      -- beyond every exponent of the format the result no longer depends on k
      let k := if k < -1024 then -1024 else if 1024 < k then 1024 else k
      roundTo f mode s (if 0 ≤ k then { x with num := x.num * 2 ^ k.toNat } else { x with den := x.den * 2 ^ (-k).toNat })

/-- FRINT of R173. -/
def frint (f : Fmt) (mode s a : Nat) : Nat × Flags :=
  match Fv.ofCode f a with
  | .nan sg => (f.nan, Flags.when sg Flags.nv)
  | .inf n => (f.signBit n + f.infCode, Flags.none)
  | .num x =>
    let (v, inexact) := roundInt mode s x
    let (c, _) := roundTo f 0 0 ⟨x.neg, v.natAbs, 1⟩
    (c, Flags.when inexact Flags.nx)

/-- The exact square root test: n = m² for a power of two m. -/
def isPow2 (n : Nat) : Bool := n != 0 && 2 ^ Nat.log2 n == n

/-- A value whose relative error from x is err / 2^60, with |err| limited to lim: with lim ≤ 2^46 the error is at most
2^−14. err is a free value (R63; log 9). -/
def approx (x : Ex) (err lim : Int) : Ex :=
  let e : Int := if err < -lim then -lim else if lim < err then lim else err
  { x with num := x.num * (2 ^ 60 + e).toNat, den := x.den * 2 ^ 60 }

/-- RCP of R63 and R171 for one element; every approximate result raises NX. -/
def rcp (fmt mode s a : Nat) : Nat × Flags :=
  let f := Fmt.ofCode fmt
  match Fv.ofCode f a with
  | .nan sg => (f.nan, Flags.when sg Flags.nv)
  | .inf n => (f.signBit n, Flags.none)
  | .num x =>
    if a / 2 ^ f.mb % 2 ^ f.eb == 0 then (f.signBit x.neg + f.infCode, Flags.dz)
    else
      let y : Ex := ⟨x.neg, x.den, x.num⟩
      let emin : Int := 1 - (f.bias : Int)
      if y.magLt (Ex.scaled false 1 emin) then (f.signBit x.neg, Flags.uf ||| Flags.nx)
      else if isPow2 x.num && isPow2 x.den then roundTo f mode s y
      else
        let (c, fl) := roundTo f mode s (approx y (Config.rcpError fmt a) (2 ^ 46))
        (c, fl ||| Flags.nx)

/-- The square root of a normal operand, low by less than one part in 2^100. -/
def sqrtEx (x : Ex) : Ex := ⟨false, Nat.sqrt (x.num * 2 ^ 400 / x.den), 2 ^ 200⟩

/-- RSQ of R63 and R171 for one element. -/
def rsq (fmt mode s a : Nat) : Nat × Flags :=
  let f := Fmt.ofCode fmt
  match Fv.ofCode f a with
  | .nan sg => (f.nan, Flags.when sg Flags.nv)
  | .inf n => if n then (f.nan, Flags.nv) else (0, Flags.none)
  | .num x =>
    if a / 2 ^ f.mb % 2 ^ f.eb == 0 then (f.signBit x.neg + f.infCode, Flags.dz)
    else if x.neg then (f.nan, Flags.nv)
    else if isPow2 x.num && isPow2 x.den && x.log2 % 2 == 0 then roundTo f mode s (Ex.scaled false 1 (-(x.log2 / 2)))
    else
      let r := sqrtEx x
      let (c, fl) := roundTo f mode s (approx ⟨false, r.den, r.num⟩ (Config.rsqError fmt a) (2 ^ 46 - 1))
      (c, fl ||| Flags.nx)

/-- The value of a UE5M3 scale, none for the NaN code 0xFF (R43). -/
def ue5m3 (c : Nat) : Option Ex :=
  if c = 255 then none
  else if c / 8 = 0 then some (Ex.scaled false (c % 8) (-17))
  else some (Ex.scaled false (8 + c % 8) ((c / 8 : Nat) - 18 : Int))

/-- The value of an E2M1 element (R42). -/
def e2m1 (c : Nat) : Ex :=
  let m := match c % 8 with | 0 => 0 | 1 => 1 | 2 => 2 | 3 => 3 | 4 => 4 | 5 => 6 | 6 => 8 | _ => 12
  ⟨decide (8 ≤ c % 16), m, 2⟩

/-- |v| rounded over the E2M1 values of R42 as if it were a format of 2 exponent and 1 mantissa bits (bias 1), the
magnitude limited to 6: the code and the flags of R181. -/
def toE2m1 (mode s : Nat) (x : Ex) : Nat × Flags :=
  let sg := if x.neg then 8 else 0
  if x.num = 0 then (sg, Flags.none)
  else if decide (6 * x.den < x.num) then (sg + 7, Flags.of ||| Flags.nx)
  else
    let e := x.log2
    let q : Int := (if e < 0 then 0 else e) - 1
    let (lo, rem, den) := x.divPow q
    let sig := if roundsUp mode x.neg lo rem den s then lo + 1 else lo
    let code := (q + 1).toNat * 2 + sig
    (sg + min code 7, Flags.when (decide (rem ≠ 0)) Flags.nx)

end Sys2Proof.Machine
end

