-- ==== Sys2Proof/Decode.lean ====
section
/-! DEFINITION. Sys2Proof/Decode.lean: the decoder, total on any bytes and rejecting by name, and after it the encoder,
both written from 09_encoding.md (R144 to R152). -/

namespace Sys2Proof

/-- Why a word is no instruction (R153). -/
inductive Reject where
  /-- OPC is reserved: condition 0 -/
  | reservedOpcode (opc : Nat)
  /-- a field is reserved, out of range, or not zero where the form does not use it: condition 1 -/
  | badField (opc : Nat)
  /-- a target breaks R145: condition 6 -/
  | badTarget (opc : Nat)
  /-- fewer bytes than one instruction word -/
  | tooShort
deriving DecidableEq, Repr

/-- The sequencer instruction that OPC and the fields of w name, the unused fields not looked at (R150, R152). -/
def rawSeq (w : W32) : Option Instr :=
  match (w.extractLsb' 0 7).toNat with
  | 0x1 => some (.add (w.extractLsb' 7 5) (w.extractLsb' 12 5) (w.extractLsb' 17 5))
  | 0x2 => some (.sub (w.extractLsb' 7 5) (w.extractLsb' 12 5) (w.extractLsb' 17 5))
  | 0x3 => some (.mul (w.extractLsb' 7 5) (w.extractLsb' 12 5) (w.extractLsb' 17 5))
  | 0x4 => some (.mulh (w.extractLsb' 7 5) (w.extractLsb' 12 5) (w.extractLsb' 17 5))
  | 0x5 => some (.div (w.extractLsb' 7 5) (w.extractLsb' 12 5) (w.extractLsb' 17 5))
  | 0x6 => some (.rem (w.extractLsb' 7 5) (w.extractLsb' 12 5) (w.extractLsb' 17 5))
  | 0x7 => some (.and (w.extractLsb' 7 5) (w.extractLsb' 12 5) (w.extractLsb' 17 5))
  | 0x8 => some (.or (w.extractLsb' 7 5) (w.extractLsb' 12 5) (w.extractLsb' 17 5))
  | 0x9 => some (.xor (w.extractLsb' 7 5) (w.extractLsb' 12 5) (w.extractLsb' 17 5))
  | 0xa => some (.shl (w.extractLsb' 7 5) (w.extractLsb' 12 5) (w.extractLsb' 17 5))
  | 0xb => some (.shr (w.extractLsb' 7 5) (w.extractLsb' 12 5) (w.extractLsb' 17 5))
  | 0xc => some (.sar (w.extractLsb' 7 5) (w.extractLsb' 12 5) (w.extractLsb' 17 5))
  | 0xd => some (.slt (w.extractLsb' 7 5) (w.extractLsb' 12 5) (w.extractLsb' 17 5))
  | 0xe => some (.sltu (w.extractLsb' 7 5) (w.extractLsb' 12 5) (w.extractLsb' 17 5))
  | 0xf => some (.min (w.extractLsb' 7 5) (w.extractLsb' 12 5) (w.extractLsb' 17 5))
  | 0x10 => some (.max (w.extractLsb' 7 5) (w.extractLsb' 12 5) (w.extractLsb' 17 5))
  | 0x11 => some (.addi (w.extractLsb' 7 5) (w.extractLsb' 12 5) (w.extractLsb' 17 15))
  | 0x12 => some (.andi (w.extractLsb' 7 5) (w.extractLsb' 12 5) (w.extractLsb' 17 15))
  | 0x13 => some (.ori (w.extractLsb' 7 5) (w.extractLsb' 12 5) (w.extractLsb' 17 15))
  | 0x14 => some (.xori (w.extractLsb' 7 5) (w.extractLsb' 12 5) (w.extractLsb' 17 15))
  | 0x15 => some (.shli (w.extractLsb' 7 5) (w.extractLsb' 12 5) (w.extractLsb' 17 15))
  | 0x16 => some (.shri (w.extractLsb' 7 5) (w.extractLsb' 12 5) (w.extractLsb' 17 15))
  | 0x17 => some (.sari (w.extractLsb' 7 5) (w.extractLsb' 12 5) (w.extractLsb' 17 15))
  | 0x18 => some (.slti (w.extractLsb' 7 5) (w.extractLsb' 12 5) (w.extractLsb' 17 15))
  | 0x19 => some (.lih (w.extractLsb' 7 5) (w.extractLsb' 12 20))
  | 0x1a => some (.sext (w.extractLsb' 7 5) (w.extractLsb' 12 5) (w.extractLsb' 17 15))
  | 0x1b => some (.ldb (w.extractLsb' 7 5) (w.extractLsb' 12 5) (w.extractLsb' 17 3) (w.extractLsb' 20 12))
  | 0x1c => some (.ldh (w.extractLsb' 7 5) (w.extractLsb' 12 5) (w.extractLsb' 17 3) (w.extractLsb' 20 12))
  | 0x1d => some (.ldw (w.extractLsb' 7 5) (w.extractLsb' 12 5) (w.extractLsb' 17 3) (w.extractLsb' 20 12))
  | 0x1e => some (.ldd (w.extractLsb' 7 5) (w.extractLsb' 12 5) (w.extractLsb' 17 3) (w.extractLsb' 20 12))
  | 0x1f => some (.stb (w.extractLsb' 7 5) (w.extractLsb' 12 5) (w.extractLsb' 17 3) (w.extractLsb' 20 12))
  | 0x20 => some (.sth (w.extractLsb' 7 5) (w.extractLsb' 12 5) (w.extractLsb' 17 3) (w.extractLsb' 20 12))
  | 0x21 => some (.stw (w.extractLsb' 7 5) (w.extractLsb' 12 5) (w.extractLsb' 17 3) (w.extractLsb' 20 12))
  | 0x22 => some (.std (w.extractLsb' 7 5) (w.extractLsb' 12 5) (w.extractLsb' 17 3) (w.extractLsb' 20 12))
  | 0x23 => some (.prd (w.extractLsb' 7 5) (w.extractLsb' 12 5) (w.extractLsb' 17 15))
  | 0x24 => some (.plen (w.extractLsb' 7 5) (w.extractLsb' 12 5))
  | 0x25 => some (.amo (w.extractLsb' 7 5) (w.extractLsb' 12 5) (w.extractLsb' 17 5) (w.extractLsb' 22 3) (w.extractLsb' 25 1) (w.extractLsb' 28 4))
  | 0x26 => some (.acas (w.extractLsb' 7 5) (w.extractLsb' 12 5) (w.extractLsb' 17 5) (w.extractLsb' 22 3) (w.extractLsb' 25 1))
  | 0x27 => some (.beq (w.extractLsb' 7 5) (w.extractLsb' 12 5) (w.extractLsb' 17 15))
  | 0x28 => some (.bne (w.extractLsb' 7 5) (w.extractLsb' 12 5) (w.extractLsb' 17 15))
  | 0x29 => some (.blt (w.extractLsb' 7 5) (w.extractLsb' 12 5) (w.extractLsb' 17 15))
  | 0x2a => some (.bge (w.extractLsb' 7 5) (w.extractLsb' 12 5) (w.extractLsb' 17 15))
  | 0x2b => some (.bltu (w.extractLsb' 7 5) (w.extractLsb' 12 5) (w.extractLsb' 17 15))
  | 0x2c => some (.bgeu (w.extractLsb' 7 5) (w.extractLsb' 12 5) (w.extractLsb' 17 15))
  | 0x2d => some (.jal (w.extractLsb' 7 5) (w.extractLsb' 12 20))
  | 0x2e => some (.jalr (w.extractLsb' 7 5) (w.extractLsb' 12 5) (w.extractLsb' 17 15))
  | 0x2f => some (.fence (w.extractLsb' 22 3) (w.extractLsb' 25 2))
  | 0x30 => some (.waitc (w.extractLsb' 7 5) (w.extractLsb' 12 5) (w.extractLsb' 17 5) (w.extractLsb' 22 5))
  | 0x31 => some (.wany (w.extractLsb' 7 5) (w.extractLsb' 12 5))
  | 0x32 => some (.wall (w.extractLsb' 7 5) (w.extractLsb' 12 5))
  | 0x33 => some (.tfirst (w.extractLsb' 7 5) (w.extractLsb' 12 5))
  | 0x34 => some (.tclr (w.extractLsb' 12 5))
  | 0x35 => some (.mwait (w.extractLsb' 7 5) (w.extractLsb' 12 5) (w.extractLsb' 17 3) (w.extractLsb' 20 12))
  | 0x36 => some (.sleep (w.extractLsb' 12 5) (w.extractLsb' 17 15))
  | 0x37 => some (.copy (w.extractLsb' 7 5) (w.extractLsb' 12 5) (w.extractLsb' 17 5) (w.extractLsb' 22 6) (w.extractLsb' 28 1))
  | 0x38 => some (.copyx (w.extractLsb' 7 5) (w.extractLsb' 12 5) (w.extractLsb' 17 5) (w.extractLsb' 22 6) (w.extractLsb' 28 1))
  | 0x39 => some (.coll (w.extractLsb' 7 5) (w.extractLsb' 12 5) (w.extractLsb' 17 5) (w.extractLsb' 22 6) (w.extractLsb' 28 1))
  | 0x3a => some (.qapp (w.extractLsb' 7 5) (w.extractLsb' 12 5) (w.extractLsb' 17 5))
  | 0x3b => some (.signal (w.extractLsb' 7 5) (w.extractLsb' 12 5) (w.extractLsb' 17 3) (w.extractLsb' 20 11) (w.extractLsb' 31 1))
  | 0x3c => some (.hpost (w.extractLsb' 7 5) (w.extractLsb' 12 5) (w.extractLsb' 17 5) (w.extractLsb' 22 10))
  | 0x3d => some (.start)
  | 0x3e => some (.wdone)
  | 0x3f => some (.reconf (w.extractLsb' 17 15))
  | 0x40 => some (.rate (w.extractLsb' 12 5))
  | 0x41 => some (.graise (w.extractLsb' 7 5) (w.extractLsb' 12 5))
  | 0x42 => some (.step (w.extractLsb' 7 5) (w.extractLsb' 12 5))
  | 0x43 => some (.pnrd (w.extractLsb' 7 5) (w.extractLsb' 12 5) (w.extractLsb' 17 5))
  | 0x44 => some (.csrr (w.extractLsb' 7 5) (w.extractLsb' 17 15))
  | 0x45 => some (.csrw (w.extractLsb' 7 5) (w.extractLsb' 12 5) (w.extractLsb' 17 15))
  | 0x46 => some (.csrs (w.extractLsb' 7 5) (w.extractLsb' 12 5) (w.extractLsb' 17 15))
  | 0x47 => some (.trap (w.extractLsb' 12 20))
  | 0x48 => some (.eret)
  | 0x49 => some (.yield)
  | 0x4a => some (.halt)
  | 0x4b => some (.nop)
  | 0x4c => some (.time (w.extractLsb' 7 5))
  | 0x4d => some (.inj (w.extractLsb' 12 5) (w.extractLsb' 17 5) (w.extractLsb' 28 1) (w.extractLsb' 29 1) (w.extractLsb' 30 1))
  | 0x4e => some (.take (w.extractLsb' 7 5) (w.extractLsb' 12 5) (w.extractLsb' 17 5))
  | _ => none

/-- The word of a sequencer instruction (R150): the fields of its format, high to low, then OPC. -/
def encodeSeq : Instr → W32
  | .add d a b => 0#10 ++ b ++ a ++ d ++ 0x1#7
  | .sub d a b => 0#10 ++ b ++ a ++ d ++ 0x2#7
  | .mul d a b => 0#10 ++ b ++ a ++ d ++ 0x3#7
  | .mulh d a b => 0#10 ++ b ++ a ++ d ++ 0x4#7
  | .div d a b => 0#10 ++ b ++ a ++ d ++ 0x5#7
  | .rem d a b => 0#10 ++ b ++ a ++ d ++ 0x6#7
  | .and d a b => 0#10 ++ b ++ a ++ d ++ 0x7#7
  | .or d a b => 0#10 ++ b ++ a ++ d ++ 0x8#7
  | .xor d a b => 0#10 ++ b ++ a ++ d ++ 0x9#7
  | .shl d a b => 0#10 ++ b ++ a ++ d ++ 0xa#7
  | .shr d a b => 0#10 ++ b ++ a ++ d ++ 0xb#7
  | .sar d a b => 0#10 ++ b ++ a ++ d ++ 0xc#7
  | .slt d a b => 0#10 ++ b ++ a ++ d ++ 0xd#7
  | .sltu d a b => 0#10 ++ b ++ a ++ d ++ 0xe#7
  | .min d a b => 0#10 ++ b ++ a ++ d ++ 0xf#7
  | .max d a b => 0#10 ++ b ++ a ++ d ++ 0x10#7
  | .addi d a i => i ++ a ++ d ++ 0x11#7
  | .andi d a i => i ++ a ++ d ++ 0x12#7
  | .ori d a i => i ++ a ++ d ++ 0x13#7
  | .xori d a i => i ++ a ++ d ++ 0x14#7
  | .shli d a i => i ++ a ++ d ++ 0x15#7
  | .shri d a i => i ++ a ++ d ++ 0x16#7
  | .sari d a i => i ++ a ++ d ++ 0x17#7
  | .slti d a i => i ++ a ++ d ++ 0x18#7
  | .lih d i => i ++ d ++ 0x19#7
  | .sext d a n => n ++ a ++ d ++ 0x1a#7
  | .ldb d a s o => o ++ s ++ a ++ d ++ 0x1b#7
  | .ldh d a s o => o ++ s ++ a ++ d ++ 0x1c#7
  | .ldw d a s o => o ++ s ++ a ++ d ++ 0x1d#7
  | .ldd d a s o => o ++ s ++ a ++ d ++ 0x1e#7
  | .stb d a s o => o ++ s ++ a ++ d ++ 0x1f#7
  | .sth d a s o => o ++ s ++ a ++ d ++ 0x20#7
  | .stw d a s o => o ++ s ++ a ++ d ++ 0x21#7
  | .std d a s o => o ++ s ++ a ++ d ++ 0x22#7
  | .prd d n o => o ++ n ++ d ++ 0x23#7
  | .plen d n => 0#15 ++ n ++ d ++ 0x24#7
  | .amo d a b s z f => f ++ 0#2 ++ z ++ s ++ b ++ a ++ d ++ 0x25#7
  | .acas d a b s z => 0#6 ++ z ++ s ++ b ++ a ++ d ++ 0x26#7
  | .beq a b o => o ++ b ++ a ++ 0x27#7
  | .bne a b o => o ++ b ++ a ++ 0x28#7
  | .blt a b o => o ++ b ++ a ++ 0x29#7
  | .bge a b o => o ++ b ++ a ++ 0x2a#7
  | .bltu a b o => o ++ b ++ a ++ 0x2b#7
  | .bgeu a b o => o ++ b ++ a ++ 0x2c#7
  | .jal d o => o ++ d ++ 0x2d#7
  | .jalr d a i => i ++ a ++ d ++ 0x2e#7
  | .fence s k => 0#5 ++ k ++ s ++ 0#15 ++ 0x2f#7
  | .waitc l s c t => 0#5 ++ t ++ c ++ s ++ l ++ 0x30#7
  | .wany d a => 0#15 ++ a ++ d ++ 0x31#7
  | .wall d a => 0#15 ++ a ++ d ++ 0x32#7
  | .tfirst d a => 0#15 ++ a ++ d ++ 0x33#7
  | .tclr a => 0#15 ++ a ++ 0#5 ++ 0x34#7
  | .mwait d a s o => o ++ s ++ a ++ d ++ 0x35#7
  | .sleep a i => i ++ a ++ 0#5 ++ 0x36#7
  | .copy d a b t r => 0#3 ++ r ++ t ++ b ++ a ++ d ++ 0x37#7
  | .copyx d a b t r => 0#3 ++ r ++ t ++ b ++ a ++ d ++ 0x38#7
  | .coll d a b t r => 0#3 ++ r ++ t ++ b ++ a ++ d ++ 0x39#7
  | .qapp d a b => 0#10 ++ b ++ a ++ d ++ 0x3a#7
  | .signal d a s o x => x ++ o ++ s ++ a ++ d ++ 0x3b#7
  | .hpost d a b n => n ++ b ++ a ++ d ++ 0x3c#7
  | .start => 0#25 ++ 0x3d#7
  | .wdone => 0#25 ++ 0x3e#7
  | .reconf i => i ++ 0#10 ++ 0x3f#7
  | .rate a => 0#15 ++ a ++ 0#5 ++ 0x40#7
  | .graise d a => 0#15 ++ a ++ d ++ 0x41#7
  | .step d a => 0#15 ++ a ++ d ++ 0x42#7
  | .pnrd d a b => 0#10 ++ b ++ a ++ d ++ 0x43#7
  | .csrr d c => c ++ 0#5 ++ d ++ 0x44#7
  | .csrw d a c => c ++ a ++ d ++ 0x45#7
  | .csrs d a c => c ++ a ++ d ++ 0x46#7
  | .trap n => n ++ 0#5 ++ 0x47#7
  | .eret => 0#25 ++ 0x48#7
  | .yield => 0#25 ++ 0x49#7
  | .halt => 0#25 ++ 0x4a#7
  | .nop => 0#25 ++ 0x4b#7
  | .time d => 0#20 ++ d ++ 0x4c#7
  | .inj a b n h t => 0#1 ++ t ++ h ++ n ++ 0#6 ++ b ++ a ++ 0#5 ++ 0x4d#7
  | .take d a b => 0#10 ++ b ++ a ++ d ++ 0x4e#7
  | .pass _ => 0
  | .vcAdd _ => 0
  | .vcSub _ => 0
  | .adds _ => 0
  | .subs _ => 0
  | .vcMul _ => 0
  | .vcMulh _ => 0
  | .mad _ => 0
  | .vcMin _ => 0
  | .vcMax _ => 0
  | .abs _ => 0
  | .vcAnd _ => 0
  | .vcOr _ => 0
  | .vcXor _ => 0
  | .andn _ => 0
  | .vcShl _ => 0
  | .vcShr _ => 0
  | .vcSar _ => 0
  | .rol _ => 0
  | .clz _ => 0
  | .popc _ => 0
  | .cmp _ => 0
  | .sel _ => 0
  | .clamp _ => 0
  | .narrow _ => 0
  | .widen _ => 0
  | .bfx _ => 0
  | .bfi _ => 0
  | .fadd _ => 0
  | .fsub _ => 0
  | .fmul _ => 0
  | .fma _ => 0
  | .fms _ => 0
  | .fnma _ => 0
  | .fmin _ => 0
  | .fmax _ => 0
  | .fabs _ => 0
  | .fneg _ => 0
  | .fcmp _ => 0
  | .fclass _ => 0
  | .rcp _ => 0
  | .rsq _ => 0
  | .fscale _ => 0
  | .frint _ => 0
  | .fcvt _ => 0
  | .ftoi _ => 0
  | .itof _ => 0
  | .qnt _ => 0
  | .qnt4 _ => 0
  | .dqnt _ => 0
  | .amax _ => 0
  | .lshup _ => 0
  | .lshdn _ => 0
  | .lbcst _ => 0
  | .lperm _ => 0
  | .lradd _ => 0
  | .lrmax _ => 0
  | .lrmin _ => 0
  | .lscan _ => 0
  | .lmask _ => 0
  | .lpack _ => 0
  | .pwl _ => 0
  | .rred _ => 0
  | .rcomb _ => 0
  | .nullif _ => 0
  | .drop _ => 0
  | .count _ => 0
  | .steer _ => 0
  | .merge _ => 0
  | .carry _ => 0
  | .gate _ => 0
  | .split _ => 0
  | .omerge _ => 0
  | .join _ => 0
  | .mldb _ => 0
  | .mscl _ => 0
  | .mma _ => 0
  | .accrd _ => 0
  | .accwr _ => 0
  | .accsv _ => 0
  | .accld _ => 0
  | .cfold _ => 0
  | .accz _ => 0
  | .ld _ => 0
  | .st _ => 0
  | .ldl _ => 0
  | .stl _ => 0
  | .atom _ => 0
  | .cas _ => 0
  | .mcst _ => 0
  | .rld _ => 0
  | .pref _ => 0
  | .qpush _ => 0
  | .qpop _ => 0
  | .send _ => 0
  | .recv _ => 0
  | .rdcp _ => 0
  | .land _ => 0
  | .mfence _ => 0
  | .sigst _ => 0
  | .sigld _ => 0
  | .cnt _ => 0
  | .aff _ => 0
  | .idx _ => 0
  | .last _ => 0
  | .bnd _ => 0
  | .rngp _ => 0
  | .rngx _ => 0
  | .gath _ => 0
  | .cseq _ => 0
  | .cpipe _ => 0
  | .cstrm _ => 0
  | .cbar _ => 0
  | .rcfg _ => 0
  | .powerOnReset _ _ => 0
  | .nodeChildDone _ _ _ _ => 0
  | .leafDone _ _ _ => 0
  | .resultLand _ _ _ => 0
  | .halyardPulseDeliver _ _ => 0
  | .globalResponse _ => 0
  | .releaseCompletionToken _ => 0
  | .mfenceComplete _ => 0
  | .seqLoadResponse _ => 0
  | .seqStoreRetire _ => 0
  | .homeWriteApply _ => 0
  | .crossDieWriteVisible _ _ => 0
  | .linkReleaseReceive _ _ _ _ _ _ _ => 0
  | .tileSwap _ _ => 0
  | .rampStart _ _ => 0
  | .mmaCommit _ _ => 0
  | .ccbSpill _ _ => 0
  | .fillerStep _ _ => 0
  | .mxReplay _ _ _ => 0
  | .droopWindow _ _ _ => 0
  | .enginePop _ _ => 0
  | .copySector _ _ _ => 0
  | .landTokenEmit _ => 0
  | .copyStamp _ => 0
  | .rdcpCombine _ => 0
  | .collectiveComplete _ => 0
  | .rangeServerPull _ => 0
  | .rangeServerRaise _ => 0
  | .slotTake _ => 0
  | .launch _ => 0
  | .copyPacket _ => 0
  | .collPacket _ => 0
  | .signalPacket _ => 0
  | .waitsig _ => 0
  | .cond _ => 0
  | .rearm _ => 0
  | .hring _ => 0
  | .endPacket _ => 0
  | .packetComplete _ _ => 0
  | .waitsigReevaluate _ => 0
  | .wrIndexMonitor _ => 0
  | .wrIndexPoll => 0
  | .ringAppend _ => 0
  | .ringCoalTimer _ => 0
  | .eventInterrupt _ => 0
  | .regionAllocate _ => 0
  | .imageLoad _ => 0
  | .sectionApply _ => 0
  | .stageSwitch _ _ _ => 0
  | .rateSolve _ => 0
  | .switchCycle _ => 0
  | .railHoldExpire _ => 0
  | .railSettle _ => 0
  | .clockGate _ => 0
  | .powerGate _ => 0
  | .sectorWake _ => 0
  | .regionRelease _ => 0
  | .haltAccept _ => 0
  | .watchdogT1 _ => 0
  | .watchdogT2 _ => 0
  | .preemptDecision _ => 0
  | .kill _ => 0
  | .checkpoint _ => 0
  | .checkpointSaveComplete _ => 0
  | .drainPreempt _ => 0
  | .drainComplete _ => 0
  | .restore _ => 0
  | .hoistWalk _ => 0
  | .debugStop _ => 0
  | .prioTokenRefill _ => 0
  | .energyMeterUpdate _ _ _ => 0
  | .tempSample _ _ => 0
  | .flitReceive _ _ _ _ => 0
  | .linkTrainingDone _ _ _ _ => 0
  | .timeSyncExchange _ _ => 0
  | .pageWalk _ => 0
  | .fqReplyRetry _ _ => 0
  | .fqReplyAbort _ _ => 0
  | .tlbInvalidate _ => 0
  | .tlbInvComplete => 0
  | .hostBar2Access _ _ _ _ _ _ => 0
  | .errorDetect _ _ _ _ _ => 0
  | .bankRowBist _ _ => 0
  | .sectorScan _ _ => 0
  | .partitionCreate _ _ => 0
  | .partitionDisable _ _ => 0
  | .queueEnable _ _ _ => 0
  | .queueDisable _ _ _ => 0
  | .reqCounterClear _ => 0
  | .linkEnable _ _ => 0
  | .linkDisable _ _ => 0
  | .attestationQuote _ => 0
  | .measurementExtend _ => 0
  | .fwSlotWrite _ => 0
  | .fwNextSelect _ => 0
  | .bootStatClear _ => 0
  | .sleepExpiry _ => 0
  | .backPressureThreshold _ => 0
  | .drainTimeout _ => 0
  | .railFallEnd _ => 0
  | .droopWindowEnd _ _ => 0
  | .powerLoss => 0
  | .dramRetrain _ => 0
  | .dramRetrainEnd _ => 0
  | .hoistFetchTimeout _ => 0
  | .qmaskWrite _ _ _ => 0
  | .pkgPlimWrite _ => 0
  | .partPcapWrite _ _ => 0
  | .partEnergyWrite _ _ => 0
  | .partCreditWrite _ _ => 0
  | .railCfgWrite _ _ => 0
  | .inrushStatWrite _ _ => 0
  | .slewTabWrite _ _ => 0
  | .quadCounterWrite _ _ _ => 0
  | .partStopWrite _ _ => 0
  | .errLogWrite _ => 0
  | .partTraceWrite _ _ => 0
  | .partHoistWrite _ _ => 0
  | .partDbgWrite _ _ => 0
  | .pmcWrite _ _ _ => 0
  | .tempWrite _ _ => 0
  | .devLocWrite _ => 0
  | .linkErrWrite _ _ => 0
  | .registerWrite _ _ _ _ => 0

/-- The fields of an element word (R144). -/
def elemFields (w : W64) : EFields :=
  { fmt := w.extractLsb' 52 4, mod := w.extractLsb' 48 4, imm := w.extractLsb' 40 8, tb := w.extractLsb' 20 20,
    ta := w.extractLsb' 0 20 }

/-- The element, switch or controller instruction that OPC and fields name (R148). -/
def rawElem (opc : Nat) (f : EFields) : Option Instr :=
  match opc with
  | 0x1 => some (.pass f)
  | 0x2 => some (.vcAdd f)
  | 0x3 => some (.vcSub f)
  | 0x4 => some (.adds f)
  | 0x5 => some (.subs f)
  | 0x6 => some (.vcMul f)
  | 0x7 => some (.vcMulh f)
  | 0x8 => some (.mad f)
  | 0x9 => some (.vcMin f)
  | 0xa => some (.vcMax f)
  | 0xb => some (.abs f)
  | 0xc => some (.vcAnd f)
  | 0xd => some (.vcOr f)
  | 0xe => some (.vcXor f)
  | 0xf => some (.andn f)
  | 0x10 => some (.vcShl f)
  | 0x11 => some (.vcShr f)
  | 0x12 => some (.vcSar f)
  | 0x13 => some (.rol f)
  | 0x14 => some (.clz f)
  | 0x15 => some (.popc f)
  | 0x16 => some (.cmp f)
  | 0x17 => some (.sel f)
  | 0x18 => some (.clamp f)
  | 0x19 => some (.narrow f)
  | 0x1a => some (.widen f)
  | 0x1b => some (.bfx f)
  | 0x1c => some (.bfi f)
  | 0x20 => some (.fadd f)
  | 0x21 => some (.fsub f)
  | 0x22 => some (.fmul f)
  | 0x23 => some (.fma f)
  | 0x24 => some (.fms f)
  | 0x25 => some (.fnma f)
  | 0x26 => some (.fmin f)
  | 0x27 => some (.fmax f)
  | 0x28 => some (.fabs f)
  | 0x29 => some (.fneg f)
  | 0x2a => some (.fcmp f)
  | 0x2b => some (.fclass f)
  | 0x2c => some (.rcp f)
  | 0x2d => some (.rsq f)
  | 0x2e => some (.fscale f)
  | 0x2f => some (.frint f)
  | 0x30 => some (.fcvt f)
  | 0x31 => some (.ftoi f)
  | 0x32 => some (.itof f)
  | 0x33 => some (.qnt f)
  | 0x34 => some (.qnt4 f)
  | 0x35 => some (.dqnt f)
  | 0x36 => some (.amax f)
  | 0x40 => some (.lshup f)
  | 0x41 => some (.lshdn f)
  | 0x42 => some (.lbcst f)
  | 0x47 => some (.lperm f)
  | 0x43 => some (.lradd f)
  | 0x44 => some (.lrmax f)
  | 0x45 => some (.lrmin f)
  | 0x46 => some (.lscan f)
  | 0x48 => some (.lmask f)
  | 0x49 => some (.lpack f)
  | 0x50 => some (.pwl f)
  | 0x51 => some (.rred f)
  | 0x52 => some (.rcomb f)
  | 0x58 => some (.nullif f)
  | 0x59 => some (.drop f)
  | 0x5a => some (.count f)
  | 0x60 => some (.steer f)
  | 0x61 => some (.merge f)
  | 0x62 => some (.carry f)
  | 0x63 => some (.gate f)
  | 0x64 => some (.split f)
  | 0x65 => some (.omerge f)
  | 0x66 => some (.join f)
  | 0x70 => some (.mldb f)
  | 0x72 => some (.mscl f)
  | 0x71 => some (.mma f)
  | 0x73 => some (.accrd f)
  | 0x74 => some (.accwr f)
  | 0x75 => some (.accsv f)
  | 0x76 => some (.accld f)
  | 0x77 => some (.cfold f)
  | 0x78 => some (.accz f)
  | 0x80 => some (.ld f)
  | 0x81 => some (.st f)
  | 0x82 => some (.ldl f)
  | 0x83 => some (.stl f)
  | 0x84 => some (.atom f)
  | 0x85 => some (.cas f)
  | 0x86 => some (.mcst f)
  | 0x87 => some (.rld f)
  | 0x88 => some (.pref f)
  | 0x89 => some (.qpush f)
  | 0x8a => some (.qpop f)
  | 0x8b => some (.send f)
  | 0x8c => some (.recv f)
  | 0x8d => some (.rdcp f)
  | 0x8e => some (.land f)
  | 0x8f => some (.mfence f)
  | 0x90 => some (.sigst f)
  | 0x91 => some (.sigld f)
  | 0xa0 => some (.cnt f)
  | 0xa1 => some (.aff f)
  | 0xa2 => some (.idx f)
  | 0xa3 => some (.last f)
  | 0xa4 => some (.bnd f)
  | 0xa5 => some (.rngp f)
  | 0xa6 => some (.rngx f)
  | 0xa7 => some (.gath f)
  | 0xb0 => some (.cseq f)
  | 0xb1 => some (.cpipe f)
  | 0xb2 => some (.cstrm f)
  | 0xb3 => some (.cbar f)
  | 0xb4 => some (.rcfg f)
  | _ => none

/-- The opcode and the fields of an element, switch or controller instruction (R148). -/
def elemParts : Instr → Option (BitVec 8 × EFields)
  | .add _ _ _ => none
  | .sub _ _ _ => none
  | .mul _ _ _ => none
  | .mulh _ _ _ => none
  | .div _ _ _ => none
  | .rem _ _ _ => none
  | .and _ _ _ => none
  | .or _ _ _ => none
  | .xor _ _ _ => none
  | .shl _ _ _ => none
  | .shr _ _ _ => none
  | .sar _ _ _ => none
  | .slt _ _ _ => none
  | .sltu _ _ _ => none
  | .min _ _ _ => none
  | .max _ _ _ => none
  | .addi _ _ _ => none
  | .andi _ _ _ => none
  | .ori _ _ _ => none
  | .xori _ _ _ => none
  | .shli _ _ _ => none
  | .shri _ _ _ => none
  | .sari _ _ _ => none
  | .slti _ _ _ => none
  | .lih _ _ => none
  | .sext _ _ _ => none
  | .ldb _ _ _ _ => none
  | .ldh _ _ _ _ => none
  | .ldw _ _ _ _ => none
  | .ldd _ _ _ _ => none
  | .stb _ _ _ _ => none
  | .sth _ _ _ _ => none
  | .stw _ _ _ _ => none
  | .std _ _ _ _ => none
  | .prd _ _ _ => none
  | .plen _ _ => none
  | .amo _ _ _ _ _ _ => none
  | .acas _ _ _ _ _ => none
  | .beq _ _ _ => none
  | .bne _ _ _ => none
  | .blt _ _ _ => none
  | .bge _ _ _ => none
  | .bltu _ _ _ => none
  | .bgeu _ _ _ => none
  | .jal _ _ => none
  | .jalr _ _ _ => none
  | .fence _ _ => none
  | .waitc _ _ _ _ => none
  | .wany _ _ => none
  | .wall _ _ => none
  | .tfirst _ _ => none
  | .tclr _ => none
  | .mwait _ _ _ _ => none
  | .sleep _ _ => none
  | .copy _ _ _ _ _ => none
  | .copyx _ _ _ _ _ => none
  | .coll _ _ _ _ _ => none
  | .qapp _ _ _ => none
  | .signal _ _ _ _ _ => none
  | .hpost _ _ _ _ => none
  | .start => none
  | .wdone => none
  | .reconf _ => none
  | .rate _ => none
  | .graise _ _ => none
  | .step _ _ => none
  | .pnrd _ _ _ => none
  | .csrr _ _ => none
  | .csrw _ _ _ => none
  | .csrs _ _ _ => none
  | .trap _ => none
  | .eret => none
  | .yield => none
  | .halt => none
  | .nop => none
  | .time _ => none
  | .inj _ _ _ _ _ => none
  | .take _ _ _ => none
  | .pass f => some (0x1#8, f)
  | .vcAdd f => some (0x2#8, f)
  | .vcSub f => some (0x3#8, f)
  | .adds f => some (0x4#8, f)
  | .subs f => some (0x5#8, f)
  | .vcMul f => some (0x6#8, f)
  | .vcMulh f => some (0x7#8, f)
  | .mad f => some (0x8#8, f)
  | .vcMin f => some (0x9#8, f)
  | .vcMax f => some (0xa#8, f)
  | .abs f => some (0xb#8, f)
  | .vcAnd f => some (0xc#8, f)
  | .vcOr f => some (0xd#8, f)
  | .vcXor f => some (0xe#8, f)
  | .andn f => some (0xf#8, f)
  | .vcShl f => some (0x10#8, f)
  | .vcShr f => some (0x11#8, f)
  | .vcSar f => some (0x12#8, f)
  | .rol f => some (0x13#8, f)
  | .clz f => some (0x14#8, f)
  | .popc f => some (0x15#8, f)
  | .cmp f => some (0x16#8, f)
  | .sel f => some (0x17#8, f)
  | .clamp f => some (0x18#8, f)
  | .narrow f => some (0x19#8, f)
  | .widen f => some (0x1a#8, f)
  | .bfx f => some (0x1b#8, f)
  | .bfi f => some (0x1c#8, f)
  | .fadd f => some (0x20#8, f)
  | .fsub f => some (0x21#8, f)
  | .fmul f => some (0x22#8, f)
  | .fma f => some (0x23#8, f)
  | .fms f => some (0x24#8, f)
  | .fnma f => some (0x25#8, f)
  | .fmin f => some (0x26#8, f)
  | .fmax f => some (0x27#8, f)
  | .fabs f => some (0x28#8, f)
  | .fneg f => some (0x29#8, f)
  | .fcmp f => some (0x2a#8, f)
  | .fclass f => some (0x2b#8, f)
  | .rcp f => some (0x2c#8, f)
  | .rsq f => some (0x2d#8, f)
  | .fscale f => some (0x2e#8, f)
  | .frint f => some (0x2f#8, f)
  | .fcvt f => some (0x30#8, f)
  | .ftoi f => some (0x31#8, f)
  | .itof f => some (0x32#8, f)
  | .qnt f => some (0x33#8, f)
  | .qnt4 f => some (0x34#8, f)
  | .dqnt f => some (0x35#8, f)
  | .amax f => some (0x36#8, f)
  | .lshup f => some (0x40#8, f)
  | .lshdn f => some (0x41#8, f)
  | .lbcst f => some (0x42#8, f)
  | .lperm f => some (0x47#8, f)
  | .lradd f => some (0x43#8, f)
  | .lrmax f => some (0x44#8, f)
  | .lrmin f => some (0x45#8, f)
  | .lscan f => some (0x46#8, f)
  | .lmask f => some (0x48#8, f)
  | .lpack f => some (0x49#8, f)
  | .pwl f => some (0x50#8, f)
  | .rred f => some (0x51#8, f)
  | .rcomb f => some (0x52#8, f)
  | .nullif f => some (0x58#8, f)
  | .drop f => some (0x59#8, f)
  | .count f => some (0x5a#8, f)
  | .steer f => some (0x60#8, f)
  | .merge f => some (0x61#8, f)
  | .carry f => some (0x62#8, f)
  | .gate f => some (0x63#8, f)
  | .split f => some (0x64#8, f)
  | .omerge f => some (0x65#8, f)
  | .join f => some (0x66#8, f)
  | .mldb f => some (0x70#8, f)
  | .mscl f => some (0x72#8, f)
  | .mma f => some (0x71#8, f)
  | .accrd f => some (0x73#8, f)
  | .accwr f => some (0x74#8, f)
  | .accsv f => some (0x75#8, f)
  | .accld f => some (0x76#8, f)
  | .cfold f => some (0x77#8, f)
  | .accz f => some (0x78#8, f)
  | .ld f => some (0x80#8, f)
  | .st f => some (0x81#8, f)
  | .ldl f => some (0x82#8, f)
  | .stl f => some (0x83#8, f)
  | .atom f => some (0x84#8, f)
  | .cas f => some (0x85#8, f)
  | .mcst f => some (0x86#8, f)
  | .rld f => some (0x87#8, f)
  | .pref f => some (0x88#8, f)
  | .qpush f => some (0x89#8, f)
  | .qpop f => some (0x8a#8, f)
  | .send f => some (0x8b#8, f)
  | .recv f => some (0x8c#8, f)
  | .rdcp f => some (0x8d#8, f)
  | .land f => some (0x8e#8, f)
  | .mfence f => some (0x8f#8, f)
  | .sigst f => some (0x90#8, f)
  | .sigld f => some (0x91#8, f)
  | .cnt f => some (0xa0#8, f)
  | .aff f => some (0xa1#8, f)
  | .idx f => some (0xa2#8, f)
  | .last f => some (0xa3#8, f)
  | .bnd f => some (0xa4#8, f)
  | .rngp f => some (0xa5#8, f)
  | .rngx f => some (0xa6#8, f)
  | .gath f => some (0xa7#8, f)
  | .cseq f => some (0xb0#8, f)
  | .cpipe f => some (0xb1#8, f)
  | .cstrm f => some (0xb2#8, f)
  | .cbar f => some (0xb3#8, f)
  | .rcfg f => some (0xb4#8, f)
  | .powerOnReset _ _ => none
  | .nodeChildDone _ _ _ _ => none
  | .leafDone _ _ _ => none
  | .resultLand _ _ _ => none
  | .halyardPulseDeliver _ _ => none
  | .globalResponse _ => none
  | .releaseCompletionToken _ => none
  | .mfenceComplete _ => none
  | .seqLoadResponse _ => none
  | .seqStoreRetire _ => none
  | .homeWriteApply _ => none
  | .crossDieWriteVisible _ _ => none
  | .linkReleaseReceive _ _ _ _ _ _ _ => none
  | .tileSwap _ _ => none
  | .rampStart _ _ => none
  | .mmaCommit _ _ => none
  | .ccbSpill _ _ => none
  | .fillerStep _ _ => none
  | .mxReplay _ _ _ => none
  | .droopWindow _ _ _ => none
  | .enginePop _ _ => none
  | .copySector _ _ _ => none
  | .landTokenEmit _ => none
  | .copyStamp _ => none
  | .rdcpCombine _ => none
  | .collectiveComplete _ => none
  | .rangeServerPull _ => none
  | .rangeServerRaise _ => none
  | .slotTake _ => none
  | .launch _ => none
  | .copyPacket _ => none
  | .collPacket _ => none
  | .signalPacket _ => none
  | .waitsig _ => none
  | .cond _ => none
  | .rearm _ => none
  | .hring _ => none
  | .endPacket _ => none
  | .packetComplete _ _ => none
  | .waitsigReevaluate _ => none
  | .wrIndexMonitor _ => none
  | .wrIndexPoll => none
  | .ringAppend _ => none
  | .ringCoalTimer _ => none
  | .eventInterrupt _ => none
  | .regionAllocate _ => none
  | .imageLoad _ => none
  | .sectionApply _ => none
  | .stageSwitch _ _ _ => none
  | .rateSolve _ => none
  | .switchCycle _ => none
  | .railHoldExpire _ => none
  | .railSettle _ => none
  | .clockGate _ => none
  | .powerGate _ => none
  | .sectorWake _ => none
  | .regionRelease _ => none
  | .haltAccept _ => none
  | .watchdogT1 _ => none
  | .watchdogT2 _ => none
  | .preemptDecision _ => none
  | .kill _ => none
  | .checkpoint _ => none
  | .checkpointSaveComplete _ => none
  | .drainPreempt _ => none
  | .drainComplete _ => none
  | .restore _ => none
  | .hoistWalk _ => none
  | .debugStop _ => none
  | .prioTokenRefill _ => none
  | .energyMeterUpdate _ _ _ => none
  | .tempSample _ _ => none
  | .flitReceive _ _ _ _ => none
  | .linkTrainingDone _ _ _ _ => none
  | .timeSyncExchange _ _ => none
  | .pageWalk _ => none
  | .fqReplyRetry _ _ => none
  | .fqReplyAbort _ _ => none
  | .tlbInvalidate _ => none
  | .tlbInvComplete => none
  | .hostBar2Access _ _ _ _ _ _ => none
  | .errorDetect _ _ _ _ _ => none
  | .bankRowBist _ _ => none
  | .sectorScan _ _ => none
  | .partitionCreate _ _ => none
  | .partitionDisable _ _ => none
  | .queueEnable _ _ _ => none
  | .queueDisable _ _ _ => none
  | .reqCounterClear _ => none
  | .linkEnable _ _ => none
  | .linkDisable _ _ => none
  | .attestationQuote _ => none
  | .measurementExtend _ => none
  | .fwSlotWrite _ => none
  | .fwNextSelect _ => none
  | .bootStatClear _ => none
  | .sleepExpiry _ => none
  | .backPressureThreshold _ => none
  | .drainTimeout _ => none
  | .railFallEnd _ => none
  | .droopWindowEnd _ _ => none
  | .powerLoss => none
  | .dramRetrain _ => none
  | .dramRetrainEnd _ => none
  | .hoistFetchTimeout _ => none
  | .qmaskWrite _ _ _ => none
  | .pkgPlimWrite _ => none
  | .partPcapWrite _ _ => none
  | .partEnergyWrite _ _ => none
  | .partCreditWrite _ _ => none
  | .railCfgWrite _ _ => none
  | .inrushStatWrite _ _ => none
  | .slewTabWrite _ _ => none
  | .quadCounterWrite _ _ _ => none
  | .partStopWrite _ _ => none
  | .errLogWrite _ => none
  | .partTraceWrite _ _ => none
  | .partHoistWrite _ _ => none
  | .partDbgWrite _ _ => none
  | .pmcWrite _ _ _ => none
  | .tempWrite _ _ => none
  | .devLocWrite _ => none
  | .linkErrWrite _ _ => none
  | .registerWrite _ _ _ _ => none

/-- The word of an element, switch or controller instruction (R144). -/
def encodeElem (i : Instr) : W64 :=
  match elemParts i with
  | some (opc, f) => opc ++ f.fmt ++ f.mod ++ f.imm ++ f.tb ++ f.ta
  | none => 0

/-- Decode one sequencer word. A field that the form does not use must be zero (R150), which is exactly that the
instruction's own word is w. -/
def decodeSeq (w : W32) : Except Reject Instr :=
  match rawSeq w with
  | none => .error (.reservedOpcode (field w 6 0))
  | some i => if encodeSeq i == w && fieldsOk i then .ok i else .error (.badField (field w 6 0))

/-- Decode one element, switch or controller word (R144 to R148). The all-zero word is IDLE, which is no row of the
opcode table: it is rejected here as opcode 0, and a slot that holds it holds no element (R144). -/
def decodeElem (w : W64) : Except Reject Instr :=
  match rawElem (field w 63 56) (elemFields w) with
  | none => .error (.reservedOpcode (field w 63 56))
  | some i =>
    if fieldsOk i then
      if targetsOk i then .ok i else .error (.badTarget (field w 63 56))
    else .error (.badField (field w 63 56))

/-- n bytes, the first least significant (R38, R134). -/
def leNat : List Byte → Nat
  | [] => 0
  | b :: bs => b.toNat + 256 * leNat bs

/-- The low n bytes of x, least significant first. -/
def leBytes : Nat → Nat → List Byte
  | 0, _ => []
  | n + 1, x => BitVec.ofNat 8 x :: leBytes n (x / 256)

/-- Decode a sequencer instruction from bytes, the lowest address first, with the bytes that follow it. -/
def decodeSeqBytes (bs : List Byte) : Except Reject (Instr × List Byte) :=
  if bs.length < 4 then .error .tooShort
  else match decodeSeq (BitVec.ofNat 32 (leNat (bs.take 4))) with
    | .ok i => .ok (i, bs.drop 4)
    | .error e => .error e

/-- Decode an element, switch or controller instruction from bytes, with the bytes that follow it. -/
def decodeElemBytes (bs : List Byte) : Except Reject (Instr × List Byte) :=
  if bs.length < 8 then .error .tooShort
  else match decodeElem (BitVec.ofNat 64 (leNat (bs.take 8))) with
    | .ok i => .ok (i, bs.drop 8)
    | .error e => .error e

/-- The words of an instruction: one of 32 bits for a sequencer instruction, one of 64 bits for an element, switch or
controller instruction, and none for a device event, which has no encoding. -/
def encode (i : Instr) : List Byte :=
  match i.kind with
  | .seq => leBytes 4 (encodeSeq i).toNat
  | .elem => leBytes 8 (encodeElem i).toNat
  | .event => []

/-- The instruction that the decoder reads from the nbits-bit word w of the opcode table. -/
def decodeTableWord (nbits w : Nat) : Option Instr :=
  if nbits ≤ 32 then
    match decodeSeqBytes (leBytes 4 w) with
    | .ok (i, _) => some i
    | .error _ => none
  else
    match decodeElemBytes (leBytes 8 w) with
    | .ok (i, _) => some i
    | .error _ => none

end Sys2Proof
end

