-- ==== Sys2Proof/Machine/Tbl.lean ====
section
/-! DEFINITION. Sys2Proof/Machine/Tbl.lean: sparse tables by a natural-number key, and byte memory in its one canonical form. -/

namespace Sys2Proof.Machine

/-- A table: pairs of a key and a value, the keys rising. -/
abbrev Tbl (α : Type) := List (Nat × α)

/-- The entry of a key. -/
def tget {α : Type} : Tbl α → Nat → Option α
  | [], _ => none
  | (j, v) :: t, k => if j = k then some v else tget t k

/-- The entry of a key, or d. -/
def tgetD {α : Type} (t : Tbl α) (k : Nat) (d : α) : α := (tget t k).getD d

/-- Set the entry of a key. -/
def tput {α : Type} : Tbl α → Nat → α → Tbl α
  | [], k, v => [(k, v)]
  | (j, w) :: t, k, v =>
    if k < j then (k, v) :: (j, w) :: t
    else if k = j then (k, v) :: t
    else (j, w) :: tput t k v

/-- Remove what stands under a key. -/
def tdel {α : Type} : Tbl α → Nat → Tbl α
  | [], _ => []
  | (j, w) :: t, k => if j = k then tdel t k else (j, w) :: tdel t k

/-- Change the entry of a key, if there is one. -/
def tmod {α : Type} (t : Tbl α) (k : Nat) (f : α → α) : Tbl α :=
  match tget t k with
  | some v => tput t k (f v)
  | none => t

/-- Byte memory: the addresses rise, and no entry is the byte an unlisted address reads as. -/
abbrev Memory := List Host.Cell

/-- What an unlisted address reads as: 0 (R428 leaves DRAM unspecified, log 1; banks and scratch are zeroed, R68, R70). -/
def unlisted : Byte := 0

/-- Read one byte. -/
def memRead : Memory → Nat → Byte
  | [], _ => unlisted
  | (j, b) :: m, a => if j = a then b else memRead m a

/-- Write one byte, keeping the canonical form: writing what an unlisted address reads as removes the entry. -/
def memWrite : Memory → Nat → Byte → Memory
  | [], a, b => if b = unlisted then [] else [(a, b)]
  | (j, c) :: m, a, b =>
    if a < j then (if b = unlisted then (j, c) :: m else (a, b) :: (j, c) :: m)
    else if a = j then (if b = unlisted then m else (a, b) :: m)
    else (j, c) :: memWrite m a b

/-- The canonical form from a lower bound on: every address is at least lo, the addresses rise, no entry is unlisted's byte. -/
def memWfFrom : Nat → Memory → Bool
  | _, [] => true
  | lo, (a, b) :: m => decide (lo ≤ a) && b != unlisted && memWfFrom (a + 1) m

/-- The canonical form of a memory. -/
def Memory.wf (m : Memory) : Bool := memWfFrom 0 m

/-- Read n bytes upward from a. -/
def memBytes (m : Memory) (a : Nat) : Nat → List Byte
  | 0 => []
  | n + 1 => memRead m a :: memBytes m (a + 1) n

/-- Write bytes upward from a. -/
def memPut (m : Memory) (a : Nat) : List Byte → Memory
  | [] => m
  | b :: bs => memPut (memWrite m a b) (a + 1) bs

end Sys2Proof.Machine
end

