-- ==== Sys2Proof/Machine/State.lean ====
section
/-! DEFINITION. Sys2Proof/Machine/State.lean: what the machine holds, as plain data, and the state after reset.
INVENTORY.md lists every piece with the rule that names it. -/

namespace Sys2Proof.Machine

/-- Why the model stops with a fault. The fatal cause codes of R353 are no such stop: a partition's halt is a state the
machine goes on from (R355). -/
inductive Fault where
  /-- raised by exec when the turn's agent (m.cur) is not one that can execute the instruction, or names no sequencer
  or element of the state; step never causes it. Safe: nothing is claimed of such a call. -/
  | noAgent
deriving DecidableEq, Repr

/-- Why the model refuses. -/
inductive Refusal where
  /-- raised by exec for an instruction that has no meaning yet. Safe. -/
  | notModelled (mnemonic : String)
  /-- raised by step when a control-store word or a slot's word is no instruction; the loader writes no such word
  (R153). Safe. -/
  | undecodable (word : Nat)
deriving DecidableEq, Repr

/-- What a write is causally after (R96): its five counts, by source die; the numbers of the writes that are before it for the agents of its
own die, and for those of its region, by edges that hold only at DIE and at REGION scope (R93). -/
structure Cov where
  vec   : List Nat := []
  near  : List Nat := []
  close : List Nat := []
deriving DecidableEq, Repr, Inhabited

/-- A release: its scope (1 CELL to 5 SYS; 0: no release), the releasing agent's id, its latest pennant reference (R92), its
region's key + 1 (0: none), and the STEP_NO[7:0] it carries (R390). A copy's stamp counts as its issuing agent's for the scopes (R102). -/
structure Rel where
  scope : Nat := 0
  agent : Nat := 0
  ref   : W32 := 0
  reg   : Nat := 0
  step  : Nat := 0
  /-- one more than the number under which the releaser's program order is kept (0: none) -/
  who   : Nat := 0
  /-- one more than the die of the agent that the scope is counted from (0: the die of the agent's id) -/
  die   : Nat := 0
  /-- in a token: what it covers, which an acquire obtains (R87, R90) -/
  cov   : Cov := {}
deriving DecidableEq, Repr, Inhabited

/-- A sampled token's log (R396): birth in ns and in grid cycles, hops of (element, arrival, departure) in grid cycles. -/
structure HopLog where
  birth   : Nat := 0
  bornG   : Nat := 0
  version : Nat := 0
  region  : Nat := 0
  source  : Nat := 0
  seq     : Nat := 0
  hops    : List (Nat × Nat × Nat) := []
  ovf     : Bool := false
  /-- the grid cycle on which the token that carries it landed last (0: nowhere yet) -/
  arr     : Nat := 0
deriving DecidableEq, Repr, Inhabited

/-- A token (R16), or a reconfiguration token (R314). -/
structure Token where
  data   : W512 := 0
  empty  : BitVec 16 := 0
  null   : Bool := false
  head   : Bool := false
  tail   : Bool := false
  last   : Bool := false
  rel    : Option Rel := none
  reconf : Bool := false
  /-- the grid cycle on which it landed -/
  landed : Nat := 0
  /-- the global time of that cycle, in ns -/
  landedNs : Nat := 0
  log    : Option HopLog := none
deriving DecidableEq, Repr, Inhabited

/-- A result in flight or in the output stage (R18, R19): the island edge it is due on, the request whose response it
waits for, the tokens for TGTA and TGTB, and its flags. -/
structure Flight where
  due   : Nat := 0
  req   : Option Nat := none
  a     : Option Token := none
  b     : Option Token := none
  flags : Flags := 0
  /-- the word under which it was sent, when its stage has switched since (R315) -/
  via   : Option W64 := none
deriving DecidableEq, Repr, Inhabited

/-- A run of a CNT (R246), or of GATH over one token. -/
structure Run where
  /-- counter positions n_c, ..., n_t, or the address number of GATH -/
  pos    : List Nat := []
  bounds : List Nat := []
  index  : W32 := 0
  /-- the token the run reads (GATH's L, CNT's P) -/
  tok    : Token := {}
  mark   : Bool := false
  first  : Bool := true
deriving DecidableEq, Repr, Inhabited

/-- What a SIGLD that has fired holds (R243). -/
structure SigWait where
  va    : W64 := 0
  thr   : Nat := 0
  first : Nat := 0
  reads : Nat := 0
  req   : Option Nat := none
deriving DecidableEq, Repr, Inhabited

/-- An element slot or a switch slot (R137, R138, R141, R144). -/
structure Elem where
  word    : W64 := 0
  k       : W32 := 0
  /-- EMPTY: 0 FORWARD, 1 ABSORB, 2 CONST -/
  empty   : Nat := 0
  done    : Bool := false
  clone   : Bool := false
  /-- positions that a target names: bit 0 L, bit 1 R, bit 2 P -/
  named   : Nat := 0
  inL     : Option Token := none
  inR     : Option Token := none
  inP     : Option Token := none
  flights : List Flight := []
  /-- 32-bit LFSR state (R47) -/
  lfsr    : W32 := 0
  /-- COUNT's count; the unit position of SPLIT and OMERGE -/
  count   : W32 := 0
  /-- a burst is open (R78, R199) -/
  opened  : Bool := false
  /-- tokens of the burst being collected -/
  buf     : List Token := []
  /-- LPACK's buffered elements -/
  pack    : List Nat := []
  /-- LPACK: the next token emitted carries the head mark -/
  headDue : Bool := true
  /-- CARRY, AFF, GATH, RNGP, RDCP: armed by a START (R427) -/
  armed   : Bool := true
  /-- AFF, GATH: the base held, none when it is no base, and the release mark of the token that it came from (R90) -/
  base    : Option W64 := some 0
  baseRel : Option Rel := none
  run     : Option Run := none
  /-- RNGP: pulls outstanding -/
  pulls   : Nat := 0
  /-- RNGP: a final answer has arrived; CNT with P named: no P token until the next START -/
  ended   : Bool := false
  /-- RDCP's sequence number; a source's token number (R396) -/
  seqNo   : Nat := 0
  /-- by position (0 L, 1 R, 2 P): the first time, in ns, at which all of the firing condition held but for a token there (R425) -/
  heldAt  : Tbl Nat := []
  /-- RNGP: the island edge, and the time in ns, from which its output stage has stood empty with a pull outstanding -/
  dryAt   : Option (Nat × Nat) := none
  sig     : Option SigWait := none
  /-- the grid cycle from which it may fire again, and from which its emptied positions may take a token (R17) -/
  nextG   : Nat := 0
  /-- this done source has consumed its leaf's last-iteration mark (R25) -/
  lastSeen : Bool := false
  /-- a done source: the latest pennant its leaf has written since its START, else the reference the START carried (R31) -/
  leafRef : W32 := 0
  /-- configuration version under which it fires (R316) -/
  version : W32 := 1
  /-- with copies (R36): the package quads of its copies, its own first, the copy that takes the next record, and what the SPLIT and the OMERGE
  around them add to its latency -/
  copies  : List Nat := []
  turn    : Nat := 0
  pass    : Nat := 0
  /-- the frame 4 that it counts by, once its stage has switched and its cell's others have not all (R315) -/
  f4      : Option (BitVec 192) := none
deriving DecidableEq, Repr, Inhabited

/-- A pulse on a halyard line (R23). -/
structure Pulse where
  ref    : W32 := 0
  agent  : Nat := 0
  /-- the grid cycle, and the time in ns, on which it landed; while its driver holds it, on which it was sent -/
  landed : Nat := 0
  landedNs : Nat := 0
  /-- the grid cycle from which it can land (R302) -/
  lands  : Nat := 0
  /-- what it releases: a START the sequencer's earlier accesses, a DONE what its subtree's agents have done and seen (R25, R88) -/
  cov    : Cov := {}
deriving DecidableEq, Repr, Inhabited

/-- A halyard line: its listeners, pulses the driver holds, and each listener's pending pulse (R23). -/
structure Line where
  listeners : List Nat := []
  held : List Pulse := []
  pend : Tbl Pulse := []
deriving DecidableEq, Repr, Inhabited

/-- A controller node's state (R28 to R31): its count, each child's finished iterations and whether it runs, the START's edge and its latest
reference, and the DONE pulse that arrived last: on which grid cycle, from which child, with what. -/
structure Node where
  running  : Bool := false
  n        : Nat := 0
  fin      : List Nat := []
  busy     : List Bool := []
  startNs  : Nat := 0
  latest   : W32 := 0
  lastG    : Nat := 0
  lastChild : Nat := 0
  lastNs   : Nat := 0
  lastRef  : W32 := 0
  lastAgent : Nat := 0
  /-- what the START and the DONE pulses of this run have released to it (R25, R88) -/
  cov      : Cov := {}
deriving DecidableEq, Repr, Inhabited

/-- A carry record (R213): row, column and count, and for the CCB the age is the list order. -/
structure CRec where
  row   : Nat := 0
  col   : Nat := 0
  count : Int := 0
deriving DecidableEq, Repr, Inhabited

/-- A row firing between issue and commit (R210, R215): its MMA slot, format, empty policy and constant word, the A row, the
tile it fires on, its scale and the flags of that product, and the island edges on which the engine frees and it may commit. -/
structure Firing where
  slot    : Nat := 0
  fmt     : Nat := 0
  empty   : Nat := 0
  gamma   : W32 := 0
  zero    : Bool := false
  fade    : Bool := false
  row     : Nat := 0
  tokens  : List Token := []
  tile    : List W512 := []
  scale   : W32 := 0
  flags   : Flags := 0
  frees   : Nat := 0
  commit  : Nat := 0
  /-- withheld: to be replayed (R119, R215) -/
  suspect : Bool := false
  /-- it was withheld for a parity error -/
  parity  : Bool := false
deriving DecidableEq, Repr, Inhabited

/-- A slew ramp (R118): the island edge and the grid cycle it started on, its entry offset, the table that stood then, the
row-firing cycles spent since, and whether it was a resumption. -/
structure Ramp where
  start  : Nat := 0
  grid   : Nat := 0
  entry  : Nat := 0
  table  : Nat := 0
  spent  : Nat := 0
  resume : Bool := false
deriving DecidableEq, Repr, Inhabited

/-- The state of a matrix cell (R202), with the slew limiter's state of the cell (R118). -/
structure Mx where
  /-- the resident tile's tokens, empty elements as zero -/
  active  : Option (List W512) := none
  loading : List W512 := []
  loadOpen : Bool := false
  /-- a tail has been taken and the swap is to come: the grid cycle on which it was taken, and the one on which it landed -/
  swapDue : Option (Nat × Nat) := none
  scaleA  : W32 := 0x3F800000
  scaleL  : W32 := 0x3F800000
  /-- a scale that MSCL has taken after a tail, for the tile after it (R208) -/
  scaleN  : Option W32 := none
  rowBuf  : List Token := []
  rowOpen : Bool := false
  rows    : List (List Token) := []
  firings : List Firing := []
  acc     : Tbl W32 := []
  fold    : Tbl Bool := []
  ccb     : List CRec := []
  spill   : List CRec := []
  ramp    : Option Ramp := none
  /-- the island edge on which the last firing or filler ended, or the ramp started -/
  idleAt  : Nat := 0
  /-- filler steps begun since the last row, and the edge on which the one in progress ends -/
  filler  : Nat := 0
  fillEnd : Nat := 0
  /-- island edge until which a held commit spills (R214) -/
  holdTo  : Nat := 0
  /-- the grid cycles on which the row to fire next became the next whole row, and on which the tile became active (R303) -/
  rowsAt  : Nat := 0
  tileAt  : Nat := 0
  /-- CCB records created so far (R401) -/
  made    : Nat := 0
  /-- by slot: a drain or write instruction that has fired and waits for earlier row firings (R206): the grid cycle of its firing, its row offset and its rows -/
  hands   : Tbl (Nat × Nat × List Nat) := []
deriving DecidableEq, Repr, Inhabited

/-- An island (R109, R110): fraction, edges kept before the pattern, the pattern's first grid cycle, vote in mV, flags. -/
structure Island where
  p     : Nat := 0
  q     : Nat := 1
  edges : Nat := 0
  since : Nat := 0
  vote  : Nat := 0
  flags : Flags := 0
deriving DecidableEq, Repr, Inhabited

/-- A cell's frames 3 and 4, its queue, and what it keeps as an agent (R83, R138 to R140, R238, R241). -/
structure Cell where
  f3     : BitVec 192 := 0
  f4     : BitVec 192 := 0
  latest : W32 := 0
  /-- one more than the grid cycle on which it last wrote a pennant (R92) -/
  pennAt : Nat := 0
  queue  : List Token := []
  /-- one more than the last sequencer cycle on which a sequencer's INJ or TAKE had its turn there, and the last one's agent id (R278) -/
  seqAt   : Nat := 0
  seqBy   : Nat := 0
  /-- entries popped so far, modulo QCAP: the queue's head entry in its bank range -/
  qhead  : Nat := 0
  /-- the START pulse that a head AG's CNT has accepted and not used -/
  start  : Option Pulse := none
  /-- the slot whose global access waits for its translation (R228) -/
  hold   : Option Nat := none
  /-- one more than the grid cycle of the last bank read, bank write and global access, and that access's slot (R83, R84) -/
  readAt  : Nat := 0
  writeAt : Nat := 0
  /-- the island edge up to which the second sector of a Q4 row keeps the bank's read or write slot (R66) -/
  readTo  : Nat := 0
  writeTo : Nat := 0
  globAt  : Nat := 0
  globBy  : Nat := 0
deriving DecidableEq, Repr, Inhabited

/-- What the range server has been asked and has not answered (R34): a pull of an element, or a raise by an element or a sequencer, with
the amount and the reference and STEP_NO[7:0] it carries. -/
structure Ask where
  raise : Bool := false
  bySeq : Bool := false
  /-- element key, or package quad -/
  who   : Nat := 0
  n     : Nat := 0
  ref   : W32 := 0
  step  : Nat := 0
deriving DecidableEq, Repr, Inhabited

/-- The range server's record of a running LAUNCH (R34): the first index, the number handed out, the group count, and what it has been asked. -/
structure Range where
  first  : Nat := 0
  given  : Nat := 0
  count  : Nat := 0
  final  : Bool := false
  asks   : List Ask := []
  latest : W32 := 0
deriving DecidableEq, Repr, Inhabited

/-- A frame of an image (R134). -/
structure Frame where
  cell : Nat := 0
  kind : Nat := 0
  fnum : Nat := 0
  lver : Nat := 0
  crc  : W32 := 0
  body : BitVec 192 := 0
  /-- its index in the image (R308) -/
  num  : Nat := 0
deriving DecidableEq, Repr, Inhabited

/-- A section asked for: by an RCFG's element key, or by the sequencer of a quad (R30, R274); the grid cycle on which the request reached the loader, the
requester's agent id (R312), and the reference that it carries (R92, R311). -/
structure SecReq where
  sec    : Nat := 0
  byElem : Bool := false
  who    : Nat := 0
  out    : Nat := 0
  at'    : Nat := 0
  agent  : Nat := 0
  ref    : W32 := 0
deriving DecidableEq, Repr, Inhabited

/-- Where a region stands in its life (R309, R289, R355, R364, R293). -/
inductive Phase where
  | allocated
  | unsolved
  | running
  | stopped
  | saving (drain : Bool) (since : Nat)
  | done
deriving DecidableEq, Repr, Inhabited

/-- What an agent has seen (R87, R96): the writes that its loads returned, its own stores, and what is ordered before its later accesses. -/
structure Know where
  loads  : Cov := {}
  stores : Cov := {}
  ord    : Cov := {}
  /-- the last release that a load without an acquire has read: a fence acquires it (R88, R92) -/
  heard  : Option Rel := none
deriving DecidableEq, Repr, Inhabited

/-- The four classes of outstanding operations (R254). -/
inductive Cls where
  | loads
  | stores
  | copies
  | tiles
deriving DecidableEq, Repr, Inhabited

/-- An outstanding operation of a sequencer (R254), with what its completion carried. -/
structure Out where
  id    : Nat := 0
  cls   : Cls := .loads
  done  : Bool := false
  reg   : Nat := 0
  /-- the completing agent, its reference, and the time, for the pennant of a wait (R283) -/
  agent : Nat := 0
  ref   : W32 := 0
  doneNs : Nat := 0
  /-- what observing the completion obtains: a copy's payload, a START run's work (R102, R25) -/
  cov   : Cov := {}
deriving DecidableEq, Repr, Inhabited

/-- What a waiting sequencer has already done of its instruction (R283). -/
structure SeqWait where
  start : Nat := 0
  /-- stage of an instruction of several steps: QAPP's claimed index, HPOST's append, a load in flight -/
  stage : Nat := 0
  num   : W64 := 0
  req   : Option Nat := none
  /-- producer agent, reference and arrival of the event that ends the wait -/
  agent : Nat := 0
  ref   : W32 := 0
  arr   : Nat := 0
  /-- the wait's event has come -/
  ready : Bool := false
  /-- WAITC: the counts that end it, by class -/
  limits : List Nat := []
  /-- WDONE: no START run outstanding ends it -/
  runs  : Bool := false
  /-- MWAIT: reads made -/
  reads : Nat := 0
deriving DecidableEq, Repr, Inhabited

/-- A sequencer (R253, R285). -/
structure Seq where
  regs    : Tbl W64 := []
  pc      : W64 := 0
  store   : Tbl W32 := []
  scratch : Memory := []
  /-- SQ_STATUS[3:0]: PEND, INH, HE, PWOOB -/
  status  : BitVec 4 := 0
  cause   : W64 := 0
  epc     : BitVec 12 := 0
  hvec    : BitVec 12 := 0
  tags    : W64 := 0
  tagBy   : Tbl Out := []
  stampb  : W64 := 0
  ready   : Bool := false
  stepNo  : W32 := 0
  latest  : W32 := 0
  released : Bool := false
  halted  : Bool := false
  part    : Nat := 0
  region  : Nat := 0
  rquad   : Nat := 0
  outs    : List Out := []
  /-- one more than the sequencer cycle on which it last wrote a pennant (R92) -/
  pennAt  : Nat := 0
  /-- the agent, reference and time of the last retirement of a copy or tile operation that carried a reference and that no acquire has taken (R92, R262),
  and what such retirements release (R102, R25) -/
  ret     : Option (Nat × W32 × Nat) := none
  got     : Cov := {}
  /-- the same of the START runs that retired (R273) -/
  retRun  : Option (Nat × W32 × Nat) := none
  gotRun  : Cov := {}
  regAt   : Tbl Nat := []
  /-- the grid cycle from which it may issue, and by register the one from which a result can be read (R255) -/
  nextAt  : Nat := 0
  readyAt : Tbl Nat := []
  wait    : Option SeqWait := none
  copySeq : Nat := 0
  /-- the number of the last copy-class request before the last FENCE.REL or FENCE.AR, by the fence's scope (R103) -/
  fenced  : Tbl Nat := []
  /-- one more than the last sequencer cycle on which completions set tags, and the completions by tag (R263) -/
  tagsAt  : Nat × Tbl Out := (0, [])
  /-- the widest such fence since the previous INJ, and since the previous START (R88, R278) -/
  injScope : Nat := 0
  startScope : Nat := 0
deriving DecidableEq, Repr, Inhabited

/-- A region of quads and the graph configured on it (R14). -/
structure Region where
  part    : Nat := 0
  die     : Nat := 0
  qx      : Nat := 0
  qy      : Nat := 0
  qw      : Nat := 1
  qh      : Nat := 1
  queue   : Nat := 0
  level   : Nat := 0
  est     : Nat := 0
  issued  : Nat := 0
  image   : W64 := 0
  phase   : Phase := .allocated
  version : W32 := 1
  frames  : List Frame := []
  ints    : List (Nat × Nat × Nat) := []
  secQ    : List SecReq := []
  applying : Option SecReq := none
  /-- the section being applied: its frames, the intervals that then hold, and the stages still to switch, with the positions that were
  named when their producers were marked (R314, R315) -/
  secFrames : List Frame := []
  secInts : List (Nat × Nat × Nat) := []
  secLeft : Tbl Nat := []
  isl     : Tbl Island := []
  secIsl  : Tbl Nat := []
  elems   : Tbl Elem := []
  nodes   : Tbl Node := []
  lines   : Tbl Line := []
  /-- leaves with a done source that have taken a START and not raised DONE, by start line -/
  leafBusy : Tbl Bool := []
  cells   : Tbl Cell := []
  banks   : Tbl Memory := []
  mxs     : Tbl Mx := []
  tables  : Tbl W64 := []
  sink    : Nat := 0
  rate    : Nat := 0
  granted : Nat := 0
  lower   : Bool := false
  solveNo : Nat := 0
  /-- a trigger of R113 is held -/
  trigger : Bool := false
  /-- the back-pressure counter, and since when, in ns, it has stood past its threshold (R113; log 83) -/
  press   : Nat := 0
  pressedAt : Option Nat := none
  /-- the grid cycle on which the solve of `pending` completed (R114) -/
  solvedAt : Nat := 0
  /-- spare package quads that hold copies of its operators (R36) -/
  spare   : List Nat := []
  /-- a solve's result that waits for its switch cycle: (island, p, q), granted rate, LOWER, the estimate in µW -/
  pending : Option (List (Nat × Nat × Nat) × Nat × Bool × Nat) := none
  windows : Tbl (W64 × W32) := []
  /-- what its agents see from their release on: what the window binding acquired (R72), and of a restored task what it had done and seen -/
  cov     : Cov := {}
  range   : Range := {}
  ccbEsc  : W64 := 0
  rootDone : Bool := false
  /-- the reference the slot-taken pennant gave this LAUNCH (R131), its packet's job and step -/
  popRef  : W32 := 0
  job     : Nat := 0
  jobStep : Nat := 0
  /-- estimated power of the present grant, in µW, by R426 and without the scale of R384, and the latter of the solve that waits for its switch cycle -/
  power   : Nat := 0
  plain   : Nat := 0
  plainNext : Nat := 0
  /-- a pre-emption that has begun: 0 drain, 1 checkpoint, 2 kill, and the grid cycle of its acceptance (R351, R361, R364) -/
  preempt : Option (Nat × Nat) := none
  /-- a drained task that resumes here once its image is loaded: its sequencers by region quad, and the declared rate (R293) -/
  resume  : Option (Tbl Seq × Nat) := none
deriving DecidableEq, Repr, Inhabited

/-- Who made a request, and where its answer goes. -/
inductive Src where
  | seq (quad : Nat) (reg : Nat)
  | elem (region cell slot : Nat)
  /-- engine id: 0 to 31 die copy engines, 32 to 47 hub copy engines, 48 the collective engine, 49 the loader, 50 the host, 51 no one: a request whose sender has gone -/
  | engine (id : Nat)
  | cp (queue : Nat)
  /-- the sequencer of region-relative quad k of a saved task -/
  | task (part entry k : Nat)
deriving DecidableEq, Repr, Inhabited

/-- What a request does. -/
inductive ReqKind where
  | read
  | write
  /-- an atomic on words of `size` bytes, with its operation number -/
  | atomic (op : Nat)
  | cas
  | mcst (seq : Bool)
  | rld (op comm : Nat)
  | rdcp (op seq : Nat)
  | mfence (kind : Nat)
  /-- a release that writes nothing (R91) -/
  | empty
  /-- a PNRD: it reads a pennant ring (R277) -/
  | pnrd
deriving DecidableEq, Repr, Inhabited

/-- One sector-sized part of a request: the location key of its first byte, its offset in the request, its length. -/
structure Piece where
  key : Nat := 0
  off : Nat := 0
  len : Nat := 0
deriving DecidableEq, Repr, Inhabited

/-- A request sent and not yet performed (R87). -/
structure Req where
  id    : Nat := 0
  /-- agent id, and the die it issues from -/
  agent : Nat := 0
  die   : Nat := 0
  part  : Nat := 0
  src   : Src := .engine 0
  kind  : ReqKind := .read
  va    : W64 := 0
  place : Nat := 0
  /-- its sectors, or its copies (R76) -/
  pieces : List Piece := []
  /-- pieces already read or applied, by index -/
  did   : List Nat := []
  size  : Nat := 64
  fmt   : Nat := 0
  /-- store or operand bytes, and the compare or swap operand -/
  data  : BitVec 768 := 0
  data2 : BitVec 768 := 0
  /-- bytes written: bit b for byte b of the request -/
  mask  : Nat := 0
  /-- by piece: what was read there -/
  vals  : Tbl W512 := []
  scope : Nat := 0
  acq   : Bool := false
  rel   : Bool := false
  ref   : W32 := 0
  flags : Flags := 0
  /-- ids of its writes in the unseen list, the newest first -/
  writes : List Nat := []
  /-- TLB entries it translated through (R381) -/
  xlate : List Nat := []
  /-- writes that its read has seen at the home and its die has not: the response waits for them (R96) -/
  after : List Nat := []
  /-- an atomic that acquires: the release it has obtained -/
  got   : Option (Rel × Nat × Nat) := none
  /-- STEP_NO[7:0] of the sending quad (R390) -/
  step  : Nat := 0
  /-- PEER device of an RLD over a communicator: the slot (R235) -/
  comm  : Nat := 0
  /-- an AMO or ACAS: its old value has been returned -/
  answered : Bool := false
  /-- what its write will be causally after (R96) -/
  cov   : Cov := {}
  /-- it waits on its word: each write that the home applies to the sector asks for one further read (R305), and these are due -/
  watch : Bool := false
  due   : List Nat := []
  /-- the copy or collective whose sector it writes -/
  owner : Nat := 0
  /-- its sender has gone: the sender's agent id, and its region's key + 1 (0: none) -/
  gone  : Option (Nat × Nat) := none
deriving DecidableEq, Repr, Inhabited

/-- A write applied at its home that some agents of a die do not see yet (R95, R96). -/
structure Unseen where
  id   : Nat := 0
  die  : Nat := 0
  key  : Nat := 0
  mask : W64 := 0
  /-- the sector before it, and the releases that had written its words -/
  old  : W512 := 0
  rels : Tbl (Rel × Nat × Nat) := []
  /-- sending die, its number, the sender and its region's key + 1, and what the write is causally after; it is a release at SYS scope -/
  src  : Nat := 0
  sys  : Bool := false
  num  : Nat := 0
  agent : Nat := 0
  reg  : Nat := 0
  /-- the die from which its scopes are counted: the sender's, or a stamp's issuing agent's (R102) -/
  side : Nat := 0
  cov  : Cov := {}
  /-- the agents of the die that see it already: agents by their numbers, whole regions as 2^50 + key -/
  seers : List Nat := []
deriving DecidableEq, Repr, Inhabited

/-- The fabric's memory requests and visibility (05, 06). -/
structure Bus where
  reqs   : List Req := []
  unseen : List Unseen := []
  /-- writes of die d so far -/
  sent   : Tbl Nat := []
  /-- what each agent has seen, by its number -/
  know   : Tbl Know := []
  /-- by home: one more than the last cycle on which it applied a write, and the highest requester's id on that cycle (R94) -/
  tie    : Tbl (Nat × Nat) := []
  /-- by word key: the release that wrote it last (scope 0: not a release), when in ns, and the serial number of the write -/
  rels   : Tbl (Rel × Nat × Nat) := []
  /-- by word key: when, in ns, the last write to it became visible at the hub (R131) -/
  shown  : Tbl Nat := []
  /-- sectors of DRAM in which an uncorrectable error has been detected, until they are written whole (R354, R420) -/
  bad    : List Nat := []
  /-- one more than the last cycle on which requests were counted, and how many by counter (R343) -/
  counted : Nat × Tbl Nat := (0, [])
deriving DecidableEq, Repr, Inhabited

/-- A translation in a TLB (R375): which unit holds it, partition (16 the PF), the page and the leaf entry. -/
structure TlbE where
  id   : Nat := 0
  unit : Nat := 0
  part : Nat := 0
  va   : Nat := 0
  size : Nat := 0
  leaf : W64 := 0
deriving DecidableEq, Repr, Inhabited

/-- A walk in flight, or a fault waiting for its reply (R375 to R379). -/
structure Walk where
  id     : Nat := 0
  part   : Nat := 0
  va     : W64 := 0
  die    : Nat := 0
  access : Nat := 0
  agents : List Nat := []
  /-- 1 MC, 0xE sequencer (as 14), 0xF engine-side units: the unit digit of the XLATE code -/
  unit   : Nat := 0
  pre    : Bool := false
  /-- queued in a fault queue as this entry -/
  entry  : Option Nat := none
  /-- waiting for a reply -/
  held   : Bool := false
  srcs   : List Src := []
  /-- PREFs that have joined it: their TLBs are filled too (R237, R375) -/
  prefs  : List Src := []
deriving DecidableEq, Repr, Inhabited

/-- Translation (25_translation.md). -/
structure Mmu where
  tlb   : List TlbE := []
  walks : List Walk := []
  /-- request ids that the invalidation in progress waits for, and the writes, by their numbers, that it waits to be performed (R381) -/
  inv   : List Nat := []
  writes : List Nat := []
deriving DecidableEq, Repr, Inhabited

/-- A copy (R101, R102, R267, R268; R124 COPY). -/
structure Copy where
  id     : Nat := 0
  part   : Nat := 0
  eng    : Nat := 0
  agent  : Nat := 0
  src    : Src := .engine 0
  region : Nat := 0
  step   : Nat := 0
  dst    : W64 := 0
  from'  : W64 := 0
  len    : Nat := 0
  rows   : Nat := 1
  sstr   : Nat := 0
  dstr   : Nat := 0
  redop  : Nat := 0
  fmt    : Nat := 0
  ord    : Bool := false
  tag    : Nat := 0
  stamp  : W64 := 0
  num    : Nat := 0
  landen : Bool := false
  lcell  : Nat := 0
  lslot  : Nat := 0
  /-- fences order it after the requests of its stream up to these numbers, by the fences' scopes (R103) -/
  fence  : Tbl Nat := []
  /-- pieces written, LAND tokens emitted -/
  done   : List Nat := []
  landed : Nat := 0
  /-- the part of each source sector that it copies, once it has been read (R101), by row × 2^36 + the sector's number in the row -/
  reads  : Tbl W512 := []
  popped : Bool := false
  popRef : W32 := 0
  ref    : W32 := 0
  writes : List Nat := []
  /-- the narrowest scope so far of its destinations' homes: REGION while it has written banks only (R102) -/
  scope  : Nat := 2
  /-- the grid cycle on which it was presented to its engine (R100) -/
  sent   : Nat := 0
  /-- the slot of the destination's cell whose engine-fed RECV takes its data (R239; log 81) -/
  feed   : Option Nat := none
  /-- its stamp has been written and is to be performed: the stamp's writes (R102, R254) -/
  ends   : Option (List Nat) := none
deriving DecidableEq, Repr, Inhabited

/-- A collective at this rank (R407, R408). -/
structure Coll where
  id     : Nat := 0
  part   : Nat := 0
  agent  : Nat := 0
  src    : Src := .engine 0
  region : Nat := 0
  step   : Nat := 0
  send   : W64 := 0
  recv   : W64 := 0
  count  : Nat := 0
  sig    : W64 := 0
  sigval : W64 := 0
  ctl    : W64 := 0
  tag    : Nat := 0
  stamp  : W64 := 0
  num    : Nat := 0
  ord    : Bool := false
  /-- its number on the communicator slot, the slot's NRANKS and MYRANK -/
  k      : Nat := 0
  ranks  : Nat := 1
  me     : Nat := 0
  fence  : Tbl Nat := []
  /-- pieces of RECV written, and the writes' ids -/
  done   : List Nat := []
  writes : List Nat := []
  /-- the piece in hand, and the sectors of SEND read for it, by their numbers in SEND -/
  piece  : Option Nat := none
  reads  : Tbl W512 := []
  popped : Bool := false
  popRef : W32 := 0
  ref    : W32 := 0
  sent   : Nat := 0
  feed   : Option Nat := none
  /-- its completion has been written and is to be performed: the writes (R104, R254) -/
  ends   : Option (List Nat) := none
deriving DecidableEq, Repr, Inhabited

/-- A completed copy-class request whose stamp may still be to be performed (R103): its stream and number, its scope, the issuing agent and its region's
key + 1, and the stamp's writes. -/
structure Stamped where
  src   : Src := .engine 0
  num   : Nat := 0
  scope : Nat := 0
  agent : Nat := 0
  reg   : Nat := 0
  ids   : List Nat := []
deriving DecidableEq, Repr, Inhabited

/-- An append to a host ring that the hub has queued (R133); an HRING's has still to read its len bytes at from' (R297). -/
structure Append where
  id    : Nat := 0
  part  : Nat := 0
  ring  : W64 := 0
  recs  : List Byte := []
  from' : W64 := 0
  len   : Nat := 0
  src   : Src := .engine 0
  start : Nat := 0
  waited : Bool := false
  step  : Nat := 0
deriving DecidableEq, Repr, Inhabited

/-- A host ring's pending records and timer (R133). -/
structure HRing where
  part    : Nat := 0
  pending : Nat := 0
  since   : Nat := 0
  /-- one more than the hub cycle of its last flush, and of the last that sent an interrupt (R298) -/
  flushed : Nat := 0
  sentAt  : Nat := 0
deriving DecidableEq, Repr, Inhabited

/-- A packet in issue (R127). -/
structure Job where
  id     : Nat := 0
  typ    : Nat := 0
  sigop  : Nat := 0
  sig    : W64 := 0
  sigval : W64 := 0
  node   : W64 := 0
  done   : Bool := false
  /-- whose completion ended it, its reference, when in ns, and the STEP_NO[7:0] it carries -/
  agent  : Nat := 0
  ref    : W32 := 0
  doneNs : Nat := 0
  step   : Nat := 0
  /-- its LAUNCH was killed: it performs no SIGOP (R363) -/
  killed : Bool := false
  /-- a WAITSIG's comparison (its ADDR and VALUE stand in sig and sigval), and when a packet that waits was issued -/
  cmp    : Nat := 0
  startNs : Nat := 0
  /-- a SIGNAL's writes, which complete it once performed at its scope (R127) -/
  writes : List Nat := []
  scope  : Nat := 0
deriving DecidableEq, Repr, Inhabited

/-- A packet that the CP has reached: its 64 bytes, its address in a graph (0: a slot); of a slot, who wrote its header, with what, when it was
seen, and since when the slot had been the queue's head (R131). -/
structure Packet where
  bytes : List Byte := []
  va    : W64 := 0
  agent : Nat := 0
  ref   : W32 := 0
  step  : Nat := 0
  head  : Nat := 0
  seen  : Nat := 0
deriving DecidableEq, Repr, Inhabited

/-- A LAUNCH that waits for quads: one just issued, or a saved task (R350, R369). -/
structure Launch where
  job    : Nat := 0
  level  : Nat := 0
  est    : Nat := 0
  issued : Nat := 0
  image  : W64 := 0
  qw     : Nat := 1
  qh     : Nat := 1
  windows : Tbl (W64 × W32) := []
  first  : Nat := 0
  count  : Nat := 0
  popRef : W32 := 0
  step   : Nat := 0
  saved  : Option Nat := none
  /-- what its window binding has acquired (R72), and of a saved task what its agents have done and seen -/
  cov    : Cov := {}
  /-- since when it waits (R128), and the region pre-empted for it (R351) -/
  waits  : Nat := 0
  victim : Option Nat := none
deriving DecidableEq, Repr, Inhabited

/-- A user-mode queue as its CP holds it (08): the descriptor's VA, the ring, the next slot's index, and WR_INDEX as last read. -/
structure Queue where
  base   : W64 := 0
  slotBase : W64 := 0
  slots  : Nat := 1
  rd     : Nat := 0
  wr     : Nat := 0
  /-- the monitor on WR_INDEX is armed (R348) -/
  armed  : Bool := false
  /-- the CP serves it: EN = 1 and its descriptor read -/
  on     : Bool := false
  /-- since when the next slot has been the queue's head -/
  head   : Option Nat := none
  cur    : Option Packet := none
  /-- the graph node to reach next -/
  next   : W64 := 0
  jobs   : List Job := []
  /-- the job that holds up later packets: a WAITSIG, an HRING or a LAUNCH that waits -/
  hold   : Option Nat := none
  /-- since when a barrier has waited -/
  barred : Option Nat := none
  /-- the last completion: agent, reference, time, step -/
  last   : Nat × W32 × Nat × Nat := (0, 0, 0, 0)
  /-- the CP's latest pennant reference for the queue, and the step that its last slot carried -/
  ref    : W32 := 0
  /-- one more than the hub cycle on which the CP last wrote a pennant for the queue (R92) -/
  pennAt : Nat := 0
  step   : Nat := 0
  /-- time of the last issue (R128) -/
  since  : Nat := 0
  /-- watchdog (R360, R361): when its timer last restarted, what stood on it when a LAUNCH began to wait, and the restart whose T1 has been acted on -/
  progress : Nat := 0
  paused : Option Nat := none
  t1     : Option Nat := none
  /-- rings written since the last END -/
  rings  : List Nat := []
  launches : List Launch := []
  /-- EN was written 0: no further slot (R347, R356) -/
  stopping : Bool := false
deriving DecidableEq, Repr, Inhabited

/-- A halt that an agent has asked for (R355, R357, R358). -/
structure Halt where
  code   : Nat := 0
  agent  : Nat := 0
  time   : Nat := 0
  region : Nat := 0xFF
  element : Nat := 0
  latest : W32 := 0
  version : W32 := 0
  va     : W64 := 0
  tok    : Option Token := none
deriving DecidableEq, Repr, Inhabited

/-- A pennant as written in a ring (R390): its 32 bytes, the wrap and the partition (R391). -/
structure PEnt where
  bytes : BitVec 256 := 0
  wrap  : Nat := 0
  part  : Nat := 0
deriving DecidableEq, Repr, Inhabited

/-- A pennant ring (R391). -/
structure PRing where
  ents : Tbl PEnt := []
  next : Nat := 0
  wrap : Nat := 0
  /-- one more than the grid cycle of the latest entry, and the highest waiter of that cycle -/
  lastAt : Nat := 0
  lastBy : Nat := 0
deriving DecidableEq, Repr, Inhabited

/-- A hoist walk (R393). -/
structure Hoist where
  step   : W32 := 0
  mark   : W32 := 0
  time   : Nat := 0
  region : Nat := 0
  version : W32 := 0
  hops   : List (BitVec 256 × W32 × Bool × Bool) := []
  ref    : W32 := 0
  started : Bool := false
  trunc  : Bool := false
  limit  : Bool := false
  ended  : Bool := false
deriving DecidableEq, Repr, Inhabited

/-- A saved task: the state that R364 or R293 keeps and R368 leaves private (log 18). -/
structure Saved where
  region : Region := {}
  seqs   : Tbl Seq := []
  rings  : Tbl PRing := []
  drain  : Bool := false
  version : Nat := 0x00040101
  /-- the address of its task image -/
  base   : W64 := 0
  stopped : Bool := false
  /-- the waits of MWAITs and SIGLDs whose reads have found their words too low: they read again where the task runs on (R365) -/
  watches : List Req := []
deriving DecidableEq, Repr, Inhabited

/-- A partition (R14, R355, R367, R393, R384). -/
structure Part where
  flags  : Flags := 0
  /-- one more than the last sequencer cycle on which flags arrived, and those flags (R62) -/
  flagsAt : Nat × Flags := (0, 0)
  halts  : List Halt := []
  halted : Bool := false
  cause  : Nat := 0
  saved  : Tbl Saved := []
  /-- no task of it has run since SQ_FLAGS were put into the flag word of its context area (R367) -/
  parked : Bool := false
  /-- quads whose mask bits a write has cleared while a region runs there (R346) -/
  clears : List Nat := []
  hoists : List Hoist := []
  /-- whole milliseconds of global time already refilled (R345) and metered (R383) -/
  refills : Nat := 0
  /-- one more than the last hub cycle of a refill, and the balance before it (R345) -/
  refilled : Nat × Nat := (0, 0)
  meters : Nat := 0
  /-- intervals in a row above CAP, the energy of the last one in µJ, and the mean of its estimate in µW (R384) -/
  overCap : Nat := 0
  lastUj : Nat := 0
  lastEst : Nat := 0
  /-- what the present interval's estimates have come to since its start, in µW·ns, when that was and until when it is counted -/
  estSum : Nat := 0
  estFrom : Nat := 0
  estAt  : Nat := 0
  /-- the measured-power scale (R384) -/
  scaleN : Nat := 1
  scaleD : Nat := 1
deriving DecidableEq, Repr, Inhabited

/-- A quad's rail (R116): mV × 1000 precision is not needed, the ends of a hold or fall are times in ns. -/
structure Rail where
  mv     : Nat := 540
  target : Nat := 0
  st     : Nat := 0
  since  : Nat := 0
deriving DecidableEq, Repr, Inhabited

/-- Gating of a sector (R117) and its droop window (R119), fencing and scan (R411, R418). -/
structure Sector where
  /-- 0 awake, 1 clock-gated, 2 power-gated, 3 wake requested -/
  gate   : Nat := 0
  /-- island edge and global time of the last firing or arrival -/
  lastEdge : Nat := 0
  lastNs : Nat := 0
  wakeNs : Nat := 0
  /-- when, in ns, the arbiter began to power it up, and the island edge from which it acts after a wake in its hold (R117) -/
  upNs   : Option Nat := none
  wakeEdge : Nat := 0
  droop  : Bool := false
  /-- the grid cycle on which its droop window opened -/
  droopG : Nat := 0
  fenced : Bool := false
  scan   : Bool := false
deriving DecidableEq, Repr, Inhabited

/-- A Gulkin link beside its registers (R403). -/
structure Link where
  expect : Nat := 0
  fails  : Nat := 0
  /-- the number of the next flit to send, and what has been sent and not acknowledged, the oldest first: each the write that is its message -/
  next   : Nat := 0
  buf    : List Nat := []
  /-- what the last timestamp exchange found (R404): the latency, and whether the far end is nearer the time master -/
  lat    : Nat := 0
  nearer : Bool := false
  /-- the device has disabled it (R418) -/
  bad    : Bool := false
deriving DecidableEq, Repr, Inhabited

/-- A failed-step record (R410). -/
structure FailRec where
  step   : Nat := 0
  die    : Nat := 0
  bitmap : Nat := 0
  alter  : Bool := false
  time   : Nat := 0
  detail : Nat := 0
deriving DecidableEq, Repr, Inhabited

/-- A slot of signed flash (R412): the image that this machine has written into it, or none: the one with which the device came; and a write of it was cut short (R423). -/
structure Slot where
  image : Option (List Byte) := none
  torn  : Bool := false
deriving DecidableEq, Repr, Inhabited

/-- Flash, start-up and measurements (29, 30 R423). -/
structure Boot where
  recs   : List FailRec := []
  /-- the firmware slots, the one that runs, and NEXT -/
  slots  : Tbl Slot := [(0, {}), (1, {})]
  active : Nat := 0
  next   : Nat := 0
  /-- the configuration slots, and the one in use while no alteration of step 4 is in force -/
  cfgs   : Tbl Slot := [(0, {}), (1, {})]
  cfg    : Nat := 0
  /-- the minimum security version of the configuration record verified last -/
  minVer : Nat := 0
  /-- in flash: the PUF's helper data, and the vendor's certificate for the identity key (R413) -/
  helper : List Byte := []
  cert   : List Byte := []
  /-- the seed that step 2 has rebuilt, held by the security processor -/
  seed   : Option (List Byte) := none
  meas   : Tbl W512 := []
  clear  : Bool := false
  /-- the step of start-up that comes next; 0: no start is in progress -/
  stage  : Nat := 1
  /-- a flash write in progress: the slot, and what it will hold -/
  writing : Option (Nat × Slot) := none
  /-- start-up has stopped, or power is off -/
  stopped : Bool := false
deriving DecidableEq, Repr, Inhabited

/-- An error whose classification is not complete (R418, R420). -/
structure ErrTest where
  id   : Nat := 0
  kind : Nat := 0
  part : Nat := 0xFF
  die  : Nat := 0
  unit : Nat := 0
  addr : W64 := 0
  time : Nat := 0
  /-- it waits for a scan of its sector -/
  scan : Bool := false
deriving DecidableEq, Repr, Inhabited

/-- Pending events of a function for one of its two vectors (R349). -/
structure Fn where
  pending : Nat := 0
  since   : Nat := 0
deriving DecidableEq, Repr, Inhabited

/-- A sector that a hub agent's long read has read (R297, R311): its bytes, the reference its acquire obtained, its location, and what is before the read. -/
structure Held where
  data : W512 := 0
  ref  : W32 := 0
  /-- the serial number of the release that the reference comes from -/
  num  : Nat := 0
  key  : Nat := 0
  cov  : Cov := {}
deriving DecidableEq, Repr, Inhabited

/-- The hub's engines and rings. -/
structure Hub where
  /-- requests not yet popped, in order, by engine -/
  copies  : List Copy := []
  colls   : List Coll := []
  collNo  : Tbl Nat := []
  stamped : List Stamped := []
  appends : List Append := []
  rings   : Tbl HRing := []
  /-- records written to an area and not yet counted in its register (R359, R397): the register, the area's size, the writes -/
  areas   : List (Nat × Nat × List Nat) := []
  /-- interrupts sent: (function, vector) -/
  irqs    : List (Nat × Nat) := []
  /-- by 2 × function, + 1 for FLTVEC -/
  fns     : Tbl Fn := []
  /-- by reader (a region's loader, 2^20 + an append's number) and sector of its address space: what a long read has read so far -/
  memo    : Tbl (Tbl Held) := []
  /-- how many more sectors the long reads may read before they pause: the model's own (log 82) -/
  burst   : Nat := 1
  /-- the loader's latest pennant reference (R92, R309) -/
  loadRef : W32 := 0
  /-- what the loader reads, by region, or 2^20 + a queue for the header that its LAUNCH reads: the partition, the address and the length, and of a list of
  frames the index of the first (R310) -/
  loading : Tbl (Nat × W64 × Nat × Option Nat) := []
  /-- by die: when, in ns, each of the four places of its in-rush arbiter is free (R117) -/
  inrush  : Tbl (List Nat) := []
  rrQueue : Nat := 0
  /-- by quad counter: the latest grid cycle on which it counted, and how much on it (R388) -/
  counted : Tbl (Nat × Nat) := []
  /-- dies whose DRAM is being retrained, or its controller reset (R348) -/
  retrain : List Nat := []
  coolNs  : Option Nat := none
  throttle : Bool := false
  /-- regions still to be re-solved for a change of the package limit, in their order (R382) -/
  solves  : List Nat := []
  tests   : List ErrTest := []
  spares  : Tbl Nat := []
  steer   : Int := 0
  /-- by direction: messages sent that no link of it carries any more, the oldest first (R403) -/
  adrift  : Tbl (List Nat) := []
deriving DecidableEq, Repr, Inhabited

/-- Whose turn it is. -/
inductive Actor where
  | hub
  | seq (quad : Nat)
  | elem (region cell slot : Nat)
deriving DecidableEq, Repr, Inhabited

/-- What a turn does: a sequencer's or an element's next instruction, or a device event. -/
inductive Act where
  | seq (quad : Nat)
  | elem (region cell slot : Nat)
  | ev (i : Instr)
deriving DecidableEq, Repr, Inhabited

/-- A turn: the grid cycles that pass before it, and what it does (log 3). -/
structure Turn where
  dt  : Nat := 0
  act : Act := .seq 0
deriving DecidableEq, Repr, Inhabited

/-- Time and the turns to come: grid cycles since reset, global time in millionths of a grid cycle (R404 steers its rate), the turns, and
the free turns drawn so far. -/
structure Clk where
  now    : Nat := 0
  gtime  : Nat := 0
  agenda : List Turn := []
  turns  : Nat := 0
deriving DecidableEq, Repr, Inhabited

/-- Everything but time, the turns and global memory. -/
structure Mach where
  cur     : Actor := .hub
  draw    : Nat := 0
  nextId  : Nat := 0
  seqs    : Tbl Seq := []
  regions : Tbl Region := []
  parts   : Tbl Part := []
  queues  : Tbl Queue := []
  bus     : Bus := {}
  mmu     : Mmu := {}
  hub     : Hub := {}
  bar     : Tbl W64 := []
  rings   : Tbl PRing := []
  rails   : Tbl Rail := []
  sectors : Tbl Sector := []
  links   : Tbl Link := []
  boot    : Boot := {}
deriving DecidableEq, Repr, Inhabited

/-- The state of the machine. -/
structure State where
  clk : Clk := {}
  mem : Memory := []
  m   : Mach := {}
deriving DecidableEq, Repr, Inhabited

/-- The machine right after reset: every register at its reset value, no partition, no region and no queue, memory with
nothing listed, and the power-on start-up (R409) as the one turn to come (log 3, log 4). -/
def State.reset : State :=
  { clk := { agenda := List.replicate 12 { dt := 0, act := .ev (.powerOnReset {} 0) } } }

end Sys2Proof.Machine
end

