-- ==== Sys2Proof/Machine/Bar.lean ====
section
/-! DEFINITION. Sys2Proof/Machine/Bar.lean: the registers of PF BAR0 (23_host_and_command_processor.md R341 and the register
maps of the driver chapters): their offsets, their reset values, and the one home of each. -/

namespace Sys2Proof.Machine

namespace Bar
def devCfg : Nat := 0x00000
def lreq (d : Nat) : Nat := 0x00100 + 0x40 * d
def rreqo (d : Nat) : Nat := lreq d + 8
def rreqi (d : Nat) : Nat := lreq d + 0x10
def partCtl (n : Nat) : Nat := 0x10000 + 0x40 * n
def partTok (n : Nat) : Nat := partCtl n + 8
def partQmask (n i : Nat) : Nat := partCtl n + 0x10 + 8 * i
def partStop (n : Nat) : Nat := partCtl n + 0x28
def partCtxb (n : Nat) : Nat := partCtl n + 0x30
def partWdog (n : Nat) : Nat := partCtl n + 0x38
def qCfg (q : Nat) : Nat := 0x20000 + 8 * q
def fnIrq (f : Nat) : Nat := 0x40000 + 8 * f
def partPtb (n : Nat) : Nat := 0x50000 + 8 * n
def pfPtb : Nat := 0x50080
def fqCfg (d : Nat) : Nat := 0x60000 + 0x40 * d
def fqPtr (d : Nat) : Nat := fqCfg d + 8
def fqReply (d : Nat) : Nat := fqCfg d + 0x10
def tlbInv : Nat := 0x61000
def pkgPlim : Nat := 0x70000
def partPcap (n : Nat) : Nat := 0x70100 + 0x20 * n
def partEnergy (n : Nat) : Nat := partPcap n + 8
def partCredit (n : Nat) : Nat := partPcap n + 0x10
def railCfg (d : Nat) : Nat := 0x70400 + 0x40 * d
def inrushStat (d : Nat) : Nat := railCfg d + 8
def slewTab (q : Nat) : Nat := 0x71000 + 8 * q
/-- Counter k of quad q: 0 SPILLCYC, 1 FILLERS, 2 DROOPS, 3 REPLAYS (R388). -/
def quadCounter (q k : Nat) : Nat := 0x72000 + 0x20 * q + 8 * k
def railStat (q : Nat) : Nat := 0x74000 + 8 * q
def partTrace (n : Nat) : Nat := 0x80000 + 0x20 * n
def partHoist (n : Nat) : Nat := partTrace n + 8
def partDbg (n : Nat) : Nat := partTrace n + 0x10
def pmsel (q : Nat) : Nat := 0x90000 + 0x80 * q
def pmc (q i : Nat) : Nat := pmsel q + 8 + 8 * i
def devLoc : Nat := 0xA0000
def linkCtl (l : Nat) : Nat := 0xA0100 + 0x20 * l
def linkErr (l : Nat) : Nat := linkCtl l + 8
def partComm (n : Nat) : Nat := 0xB0000 + 8 * n
def bootStat : Nat := 0xC0000
def attCtl : Nat := 0xC0100
def measExt : Nat := 0xC0108
def health : Nat := 0xD0000
def temp (d : Nat) : Nat := 0xD0100 + 8 * d
def errLog : Nat := 0xD0200
def fwCtl : Nat := 0xD0300

/-- off = base + stride × i for an i below count: the i. -/
def index (off base stride count : Nat) : Option Nat :=
  if base ≤ off ∧ (off - base) % stride = 0 ∧ (off - base) / stride < count then some ((off - base) / stride) else none

/-- The value of a register at reset, from the "At reset" columns of the maps; 0 for every other offset. -/
def resetValue (off : Nat) : W64 :=
  if off = devCfg then 0x000000C8000001F4
  else if (index off 0x10000 0x40 16).isSome then 0x0000000000380000
  else if (index off 0x10038 0x40 16).isSome then 0x00000000006403E8
  else if (index off 0x20000 8 1024).isSome then 1
  else if (index off 0x40000 8 16).isSome then 0x0001000000000000
  else if off = pkgPlim then 2400
  else if (index off 0x70400 0x40 4).isSome then 0x4100
  else if (index off 0x71000 8 160).isSome then 0xFFE4
  else if (index off 0x74000 8 160).isSome then 0x0000021C00000000
  else if (index off 0xD0100 8 5).isSome then 0x0000034800000000
  else 0

end Bar

/-- Read a register's home. -/
def barGet (t : Tbl W64) (off : Nat) : W64 := tgetD t off (Bar.resetValue off)
/-- Write a register's home. -/
def barPut (t : Tbl W64) (off : Nat) (v : W64) : Tbl W64 := tput t off v

end Sys2Proof.Machine
end

