-- ==== Sys2Proof/Machine/Ops.lean ====
section
/-! DEFINITION. Sys2Proof/Machine/Ops.lean: the named operations that the meanings share: the working state of one
instruction, time, registers, raising a cause, taking an exception and returning from it, pennants, translation, and
requests to global memory. -/

namespace Sys2Proof.Machine

/-! ## The working state of one instruction -/

/-- What one instruction works on: time (read only), memory as it stood before, the bytes written so far (the newest
first), and the rest of the machine. -/
structure W where
  clk  : Clk
  base : Memory
  log  : List Host.Cell
  m    : Mach

/-- The working state at the start of an instruction. -/
def W.of (s : State) : W := { clk := s.clk, base := s.mem, log := [], m := s.m }

/-- The bytes of a log written into a memory, the oldest first. -/
def applyLog (mem : Memory) : List Host.Cell → Memory
  | [] => mem
  | c :: cs => memWrite (applyLog mem cs) c.1 c.2

/-- The state after an instruction: its writes applied to memory, and the rest of the machine. Time and the turns to
come are not an instruction's to change. -/
def W.commit (s : State) (w : W) : State := { s with mem := applyLog s.mem w.log, m := w.m }

/-- What exec answers for every meaning. -/
abbrev Res := Host.Outcome State Fault Refusal

/-- A meaning that always has an effect. -/
def run (s : State) (f : W → W) : Res := .next ((f (W.of s)).commit s)

/-- A sequencer instruction: executed by the sequencer whose turn it is (R83). -/
def runSeq (s : State) (f : Nat → Seq → W → W) : Res :=
  match s.m.cur with
  | .seq q =>
    match tget s.m.seqs q with
    | some sq => run s (f q sq)
    | none => .fault .noAgent
  | _ => .fault .noAgent

/-- Which element a turn belongs to. -/
structure ERef where
  r    : Nat
  cell : Nat
  slot : Nat
deriving DecidableEq, Repr, Inhabited

/-- The key of a slot within its region: cell × 8 + slot (R141, R358). -/
def ekey (cell slot : Nat) : Nat := cell * 8 + slot
def ERef.key (e : ERef) : Nat := ekey e.cell e.slot

/-- An element instruction: executed by the element whose turn it is. -/
def runElem (s : State) (f : ERef → W → W) : Res :=
  match s.m.cur with
  | .elem r cell slot =>
    match tget s.m.regions r with
    | some g =>
      match tget g.elems (ekey cell slot) with
      | some _ => run s (f ⟨r, cell, slot⟩)
      | none => .fault .noAgent
    | none => .fault .noAgent
  | _ => .fault .noAgent

/-- f when c holds, else nothing happens: an event that is not enabled, an element whose firing condition fails. -/
def W.guard (w : W) (c : Bool) (f : W → W) : W := if c then f w else w

namespace W

/-! ## Time -/

/-- Grid cycles since reset. -/
def now (w : W) : Nat := w.clk.now
/-- Global time in nanoseconds: 5 grid cycles to the nanosecond (R2), counted in millionths of a grid cycle. -/
def ns (w : W) : Nat := w.clk.gtime / 5000000

/-! ## Free values and numbers -/

/-- A fresh number for a request, a copy, a walk. -/
def fresh (w : W) : W × Nat := ({ w with m := { w.m with nextId := w.m.nextId + 1 } }, w.m.nextId + 1)
/-- A free number below n (0 when n = 0); the counter advances. -/
def freeBelow (w : W) (n : Nat) : W × Nat :=
  ({ w with m := { w.m with draw := w.m.draw + 1 } }, Config.freeNat w.m.draw % n)

/-! ## Memory, at location keys -/

/-- The byte at a location key: the newest of this instruction's writes, else memory. -/
def read (w : W) (a : Nat) : Byte :=
  match w.log.find? (fun c => c.1 == a) with
  | some c => c.2
  | none => memRead w.base a
def write (w : W) (a : Nat) (b : Byte) : W := { w with log := (a, b) :: w.log }
def bytes (w : W) (a : Nat) : Nat → List Byte
  | 0 => []
  | n + 1 => w.read a :: w.bytes (a + 1) n
def putBytes (w : W) (a : Nat) : List Byte → W
  | [] => w
  | b :: bs => (w.write a b).putBytes (a + 1) bs

/-! ## Parts of the machine -/

def setM (w : W) (f : Mach → Mach) : W := { w with m := f w.m }
def seq (w : W) (q : Nat) : Seq := tgetD w.m.seqs q {}
def setSeq (w : W) (q : Nat) (f : Seq → Seq) : W := { w with m := { w.m with seqs := tmod w.m.seqs q f } }
def region (w : W) (r : Nat) : Region := tgetD w.m.regions r {}
def setRegion (w : W) (r : Nat) (f : Region → Region) : W := { w with m := { w.m with regions := tmod w.m.regions r f } }
def part (w : W) (n : Nat) : Part := tgetD w.m.parts n {}
/-- Partition n's record, made when it is first used. -/
def setPart (w : W) (n : Nat) (f : Part → Part) : W := { w with m := { w.m with parts := tput w.m.parts n (f (w.part n)) } }
def queue (w : W) (q : Nat) : Queue := tgetD w.m.queues q {}
def setQueue (w : W) (q : Nat) (f : Queue → Queue) : W :=
  { w with m := { w.m with queues := tput w.m.queues q (f (w.queue q)) } }
def setHub (w : W) (f : Hub → Hub) : W := { w with m := { w.m with hub := f w.m.hub } }
def setBus (w : W) (f : Bus → Bus) : W := { w with m := { w.m with bus := f w.m.bus } }
def setMmu (w : W) (f : Mmu → Mmu) : W := { w with m := { w.m with mmu := f w.m.mmu } }
def setBoot (w : W) (f : Boot → Boot) : W := { w with m := { w.m with boot := f w.m.boot } }
def sector (w : W) (s : Nat) : Sector := tgetD w.m.sectors s {}
def setSector (w : W) (s : Nat) (f : Sector → Sector) : W :=
  { w with m := { w.m with sectors := tput w.m.sectors s (f (w.sector s)) } }
def rail (w : W) (q : Nat) : Rail := tgetD w.m.rails q {}
def setRail (w : W) (q : Nat) (f : Rail → Rail) : W := { w with m := { w.m with rails := tput w.m.rails q (f (w.rail q)) } }
def bar (w : W) (off : Nat) : W64 := barGet w.m.bar off
def setBar (w : W) (off : Nat) (v : W64) : W := { w with m := { w.m with bar := barPut w.m.bar off v } }
/-- A field of a register (R6). -/
def fld (w : W) (off hi lo : Nat) : Nat := field (w.bar off) hi lo
def setFld (w : W) (off hi lo v : Nat) : W := w.setBar off (setField (w.bar off) hi lo v)

/-! ## Elements, cells and their places -/

def elem (w : W) (e : ERef) : Elem := tgetD (w.region e.r).elems e.key {}
def setElem (w : W) (e : ERef) (f : Elem → Elem) : W := w.setRegion e.r fun g => { g with elems := tmod g.elems e.key f }
def cell (w : W) (r c : Nat) : Cell := tgetD (w.region r).cells c {}
def setCell (w : W) (r c : Nat) (f : Cell → Cell) : W :=
  w.setRegion r fun g => { g with cells := tput g.cells c (f (tgetD g.cells c {})) }
def mx (w : W) (r c : Nat) : Mx := tgetD (w.region r).mxs c {}
def setMx (w : W) (r c : Nat) (f : Mx → Mx) : W :=
  w.setRegion r fun g => { g with mxs := tput g.mxs c (f (tgetD g.mxs c {})) }
def bank (w : W) (r c : Nat) : Memory := tgetD (w.region r).banks c []
def setBank (w : W) (r c : Nat) (f : Memory → Memory) : W :=
  w.setRegion r fun g => { g with banks := tput g.banks c (f (tgetD g.banks c [])) }
def node (w : W) (e : ERef) : Node := tgetD (w.region e.r).nodes e.key {}
def setNode (w : W) (e : ERef) (f : Node → Node) : W :=
  w.setRegion e.r fun g => { g with nodes := tput g.nodes e.key (f (tgetD g.nodes e.key {})) }
def line (w : W) (r h : Nat) : Line := tgetD (w.region r).lines h {}
def setLine (w : W) (r h : Nat) (f : Line → Line) : W :=
  w.setRegion r fun g => { g with lines := tput g.lines h (f (tgetD g.lines h {})) }

end W

/-- Site coordinates of a region-relative cell number: x = cell mod 128, y = cell / 128 (R10). -/
def siteX (cell : Nat) : Nat := cell % 128
def siteY (cell : Nat) : Nat := cell / 128

/-- The kind of the cell at a site: 0 VC, 1 MX, 2 MC, 3 AG, 4 FC (R134, R135). -/
def siteKind (cell : Nat) : Nat :=
  let row : List Nat := match siteY cell % 4 with
    | 0 => [2, 3, 0, 0, 0, 2, 4, 2]
    | 1 => [3, 2, 0, 2, 2, 1, 2, 3]
    | 2 => [2, 3, 0, 1, 2, 2, 4, 4]
    | _ => [3, 2, 2, 0, 2, 1, 2, 3]
  row.getD (siteX cell % 8) 2

/-- The package quad of a region's site (R346). -/
def siteQuad (g : Region) (cell : Nat) : Nat := g.die * 40 + 8 * (g.qy + siteY cell / 16) + (g.qx + siteX cell / 16)
/-- The package-wide number of the sector of a region's site: 4 × quad + place in the quad. -/
def siteSector (g : Region) (cell : Nat) : Nat := 4 * siteQuad g cell + 2 * (siteY cell / 8 % 2) + siteX cell / 8 % 2
/-- The region-relative sector number, 16 × sy + sx (R307). -/
def regionSector (cell : Nat) : Nat := 16 * (siteY cell / 8) + siteX cell / 8
/-- A site inside the region (R145). -/
def siteIn (g : Region) (cell : Nat) : Bool :=
  decide (cell < 128 * 80) && decide (siteX cell < 16 * g.qw) && decide (siteY cell < 16 * g.qh)
/-- The package quad of region-relative quad k (R142): k counts along the region's rows. -/
def regionQuad (g : Region) (k : Nat) : Nat := g.die * 40 + 8 * (g.qy + k / g.qw) + (g.qx + k % g.qw)
/-- The package quads of a region. -/
def regionQuads (g : Region) : List Nat := (List.range (g.qw * g.qh)).map (regionQuad g)
/-- The key of a region is the package quad of its region quad 0 (R358). -/
def regionKey (g : Region) : Nat := regionQuad g 0

/-- A switch slot is slot 6 or 7 (R141). -/
def isSwitchSlot (slot : Nat) : Bool := decide (6 ≤ slot)

/-! ## Agent ids (R131, R244, R283, R390) -/

/-- The id of an agent of this device. -/
def W.agentId (w : W) (die kind index : Nat) : Nat := (w.fld Bar.devLoc 12 0) * 2 ^ 19 + die * 2 ^ 16 + kind * 2 ^ 12 + index
/-- A sequencer's id, by package quad. -/
def W.seqAgent (w : W) (q : Nat) : Nat := w.agentId (q / 40) 6 (q % 40)
/-- The CP serving queue q; index 0xFFF is the host. -/
def W.cpAgent (w : W) (q : Nat) : Nat := w.agentId 4 7 q
def W.hostAgent (w : W) : Nat := w.agentId 4 7 0xFFF
def W.rangeAgent (w : W) : Nat := w.agentId 4 7 0x400
def W.loaderAgent (w : W) : Nat := w.agentId 4 7 0x401
def W.collAgent (w : W) : Nat := w.agentId 4 7 0x420
def W.homeAgent (w : W) (die : Nat) : Nat := w.agentId die 7 0x800
/-- An engine: 0 to 31 die copy engines (8 × die + e), 32 to 47 hub copy engines, 48 the collective engine, 49 the loader, 50 the host's BAR2. -/
def W.engAgent (w : W) (eng : Nat) : Nat :=
  if eng < 32 then w.agentId (eng / 8) 7 (eng % 8) else if eng < 48 then w.agentId 4 7 (0x410 + (eng - 32))
  else if eng = 48 then w.collAgent else if eng = 49 then w.loaderAgent else w.hostAgent
/-- The quad of an element as an agent: that of the copy that takes the record (R36). -/
def W.penQuad (w : W) (e : ERef) : Nat := let x := w.elem e; x.copies.getD x.turn (siteQuad (w.region e.r) e.cell)
/-- A cell element's id: kind the cell kind (5 for a switch slot), index 8 × q + s (R244). -/
def W.elemAgent (w : W) (e : ERef) : Nat :=
  w.agentId (w.penQuad e / 40) (if isSwitchSlot e.slot then 5 else siteKind e.cell)
    (8 * (16 * (siteY e.cell % 16) + siteX e.cell % 16) + if isSwitchSlot e.slot then e.slot - 6 else e.slot)
/-- What the reference 0xFFFF_FFFF stands for as a producer: a write that is not a release (R243). -/
def noAgentId : Nat := 0xFFFFFFFF

/-! ## Performance counters (R400, R401) -/

/-- The modulus of a count (R400). -/
def pmcMod : Nat := 0xFFFFFFFFFFFFFFF0
/-- Whether stepping A1 counts an event code (R401). -/
def pmcCountable (ev : Nat) : Bool := decide (ev ≤ 15)
/-- Add n to every counter of a quad that counts an event. -/
def pmcAdd (t : Tbl W64) (quad ev n : Nat) : Tbl W64 :=
  if barGet t (Bar.pmsel quad) = 0 then t
  else (List.range 8).foldl (fun t i =>
    if field (barGet t (Bar.pmsel quad)) (8 * i + 7) (8 * i) = ev ∧ ev ≠ 0 then
      barPut t (Bar.pmc quad i) (BitVec.ofNat 64 (((barGet t (Bar.pmc quad i)).toNat + n) % pmcMod))
    else t) t
/-- What PMCi reads: of an event that the stepping does not count 0xFFFF_FFFF_FFFF_FFF0 (R400); code 0 counts nothing, and its count stands. -/
def W.pmcRead (w : W) (quad i : Nat) : W64 :=
  if pmcCountable (w.fld (Bar.pmsel quad) (8 * i + 7) (8 * i)) then w.bar (Bar.pmc quad i) else 0xFFFFFFFFFFFFFFF0
def W.pmc (w : W) (quad ev n : Nat) : W := { w with m := { w.m with bar := pmcAdd w.m.bar quad ev n } }

/-- What a quad counter has counted on a grid cycle. -/
def Hub.countedOn (h : Hub) (off now : Nat) : Nat := match tget h.counted off with | some (t, n) => if t = now then n else 0 | none => 0
/-- Events of a quad counter on a grid cycle (R388). -/
def Mach.countQuad (m : Mach) (quad k now n : Nat) : Mach :=
  let off := Bar.quadCounter quad k
  { m with
    bar := barPut m.bar off (barGet m.bar off + BitVec.ofNat 64 n)
    hub := { m.hub with counted := tput m.hub.counted off (now, m.hub.countedOn off now + n) } }
def W.countQuad (w : W) (quad k n : Nat) : W := { w with m := w.m.countQuad quad k w.now n }
/-- A write of a quad counter sets it to 0, and an event of the same cycle counts after the write (R388). -/
def W.clearQuad (w : W) (quad k : Nat) : W :=
  w.setBar (Bar.quadCounter quad k) (BitVec.ofNat 64 (w.m.hub.countedOn (Bar.quadCounter quad k) w.now))

/-! ## Pennants (R390, R391) -/

/-- Little-endian fields of (width in bits, value), the first lowest. -/
def packFields : List (Nat × Nat) → Nat
  | [] => 0
  | (n, v) :: t => v % 2 ^ n + 2 ^ n * packFields t

/-- The 32 bytes of a pennant (R390); times in ns. -/
def pennantBytes (waiter producer : Nat) (pref : W32) (ws arr we kind step : Nat) : BitVec 256 :=
  BitVec.ofNat 256 (packFields [(32, waiter), (32, producer), (32, pref.toNat), (48, ws), (48, arr), (48, we), (8, kind), (8, step)])

/-- What a pennant says. -/
structure Pennant where
  waiter   : Nat
  producer : Nat
  pref     : W32
  start    : Nat
  arrival  : Nat
  stop     : Nat
  kind     : Nat
  step     : Nat

/-- Write a pennant into a ring at NEXT, and give its reference (R391). The ring of package quad 0 on device 0 passes over
entry 0 while its wrap is 0, because reference 0 means none. -/
def W.pennant (w : W) (ring part : Nat) (p : Pennant) : W × W32 :=
  let rg := tgetD w.m.rings ring {}
  let dev := w.fld Bar.devLoc 12 0
  let skip := decide (dev = 0 ∧ ring = 0 ∧ rg.next = 0 ∧ rg.wrap = 0)
  let e := if skip then 1 else rg.next
  let ref : W32 := BitVec.ofNat 32 (dev * 2 ^ 19 + ring * 2 ^ 11 + e * 2 ^ 3 + rg.wrap)
  let ent : PEnt := { bytes := pennantBytes p.waiter p.producer p.pref p.start p.arrival p.stop p.kind p.step, wrap := rg.wrap, part := part }
  let rg' : PRing := {
    ents := tput rg.ents e ent, next := (e + 1) % 256
    wrap := if e = 255 then (rg.wrap + 1) % 8 else rg.wrap
    lastAt := w.now + 1
    lastBy := if rg.lastAt = w.now + 1 then max rg.lastBy p.waiter else p.waiter }
  let w := { w with m := { w.m with rings := tput w.m.rings ring rg' } }
  (if ring < 160 then w.pmc ring 11 1 else w, ref)

/-- An agent may still write a ring on this cycle: no agent of a higher id has, for the entries of one cycle are taken in ascending waiter id (R391). -/
def W.ringOpen (w : W) (ring agent : Nat) : Bool :=
  let rg := tgetD w.m.rings ring {}
  decide (rg.lastAt ≠ w.now + 1 ∨ rg.lastBy ≤ agent)

/-- A reference that resolves for a partition in a ring of this device (R392). -/
def W.resolve (w : W) (ref : W32) (part : Nat) : Option PEnt :=
  if field ref 31 19 ≠ w.fld Bar.devLoc 12 0 then none
  else
    match tget (tgetD w.m.rings (field ref 18 11) {}).ents (field ref 10 3) with
    | some e => if e.wrap = field ref 2 0 ∧ e.part = part then some e else none
    | none => none

/-! ## Raising a cause (R355, R357) -/

/-- Two halts are the same agent's: of one id, and of an element, whose ids repeat in every quad, of one place (R244, R357, R358). -/
def Halt.same (x h : Halt) : Bool :=
  x.agent == h.agent && (decide (6 ≤ h.agent / 2 ^ 12 % 16) || (x.region == h.region && x.element == h.element))
/-- Raise a fatal cause: the partition's halt line carries it to the hub, which accepts it in HALT_ACCEPT. Nothing is
raised in a partition that has already halted, and an agent raises once (R357). -/
def W.raise (w : W) (part : Nat) (h : Halt) : W :=
  if (w.part part).halted || (w.part part).halts.any (fun x => x.same h) then w
  else w.setPart part fun p => { p with halts := p.halts ++ [{ h with time := w.ns }] }

/-- A fatal cause of a sequencer: the stop record's element is its PC (R284, R358). -/
def W.raiseSeq (w : W) (q code : Nat) (va : W64 := 0) : W :=
  let sq := w.seq q
  w.raise sq.part {
    code := code, agent := w.seqAgent q, region := sq.region, element := sq.pc.toNat % 2 ^ 32,
    latest := sq.latest, version := (w.region sq.region).version, va := va }

/-- A fatal cause of an element: the token in hand goes into its stop record (R358). -/
def W.raiseElem (w : W) (e : ERef) (code : Nat) (va : W64 := 0) (tok : Option Token := none) : W :=
  let g := w.region e.r
  w.raise g.part {
    code := code, agent := w.elemAgent e, region := e.r, element := e.key, latest := (w.cell e.r e.cell).latest,
    version := (w.elem e).version, va := va, tok := tok }

/-- A fatal cause of the hub, an engine or a CP. -/
def W.raiseHub (w : W) (part code agent : Nat) (element : Nat := 0) (va : W64 := 0) (latest : W32 := 0) : W :=
  w.raise part { code := code, agent := agent, element := element, va := va, latest := latest }

/-- OR flags into a partition's SQ_FLAGS (R60, R61); those of one sequencer cycle are kept, for a CSRW of that cycle comes before them (R62). -/
def W.orFlags (w : W) (part : Nat) (f : Flags) : W :=
  if f = 0 then w else w.setPart part fun p => { p with
    flags := p.flags ||| f, flagsAt := (w.now / 4 + 1, if p.flagsAt.1 = w.now / 4 + 1 then p.flagsAt.2 ||| f else f) }

/-! ## What is before a write (R96) -/

/-- The numbers of the writes of dies 0 to 4. -/
def maxVec (a b : List Nat) : List Nat := (List.range 5).map fun d => max (a.getD d 0) (b.getD d 0)
def Cov.join (a b : Cov) : Cov :=
  if a = {} then b else if b = {} then a else
  { vec := maxVec a.vec b.vec, near := (a.near ++ b.near).eraseDups, close := (a.close ++ b.close).eraseDups }

/-! ## Sequencer registers, the handler, and the return from it -/

/-- s[r]: s0 reads zero (R253). -/
def Seq.reg (sq : Seq) (r : BitVec 5) : W64 := if r = 0 then 0 else tgetD sq.regs r.toNat 0
/-- s[r] ← v: a write to s0 is discarded (R253). -/
def Seq.setReg (sq : Seq) (r : BitVec 5) (v : W64) : Seq := if r = 0 then sq else { sq with regs := tput sq.regs r.toNat v }

/-- SQ_STATUS bits (R285). -/
def Seq.pend (sq : Seq) : Bool := sq.status.getLsbD 3
def Seq.inh (sq : Seq) : Bool := sq.status.getLsbD 2
def Seq.he (sq : Seq) : Bool := sq.status.getLsbD 1
def Seq.pwoob (sq : Seq) : Bool := sq.status.getLsbD 0
def Seq.withStatus (sq : Seq) (pend inh he pwoob : Bool) : Seq :=
  { sq with status := BitVec.ofBool pend ++ BitVec.ofBool inh ++ BitVec.ofBool he ++ BitVec.ofBool pwoob }

/-- SQ_CAUSE of an event bit and a code (R285). -/
def causeWord (event : Bool) (code : Nat) : W64 := BitVec.ofNat 64 ((if event then 2 ^ 63 else 0) + code)

/-- Taking an exception (R280): SQ_EPC ← PC + 1, SQ_CAUSE ← (EVENT, CODE), INH ← 1, PC ← SQ_HVEC; PEND is cleared by a
pre-emption's entry. SQ_EPC keeps 12 bits (R285; log 19). -/
def Seq.enterHandler (sq : Seq) (event : Bool) (code : Nat) : Seq :=
  let sq := sq.withStatus (sq.pend && !event) true sq.he sq.pwoob
  { sq with epc := (sq.pc + 1).truncate 12, cause := causeWord event code, pc := sq.hvec.zeroExtend 64 }

/-- The return from the handler (R280): PC ← SQ_EPC, INH ← 0. -/
def Seq.leaveHandler (sq : Seq) : Seq :=
  { sq.withStatus sq.pend false sq.he sq.pwoob with pc := sq.epc.zeroExtend 64 }

/-- PC ← PC + 1. -/
def Seq.next (sq : Seq) : Seq := { sq with pc := sq.pc + 1 }

/-- Outstanding operations of a class (R254). -/
def Seq.count (sq : Seq) (c : Cls) : Nat := (sq.outs.filter fun o => o.cls == c).length

/-- SQ_CNT (R285): the four counts. -/
def Seq.counts (sq : Seq) : Nat := packFields [(8, sq.count .loads), (8, sq.count .stores), (8, sq.count .copies), (8, sq.count .tiles)]

/-- Retire what can retire: within each class, only from the oldest (R254). -/
def retire : List Out → List Out
  | outs =>
    let drop (c : Cls) (l : List Out) : List Out :=
      -- remove the leading done entries of class c
      let rec go : List Out → List Out
        | [] => []
        | o :: t => if o.cls == c then (if o.done then go t else o :: t) else o :: go t
      go l
    drop .tiles (drop .copies (drop .stores (drop .loads outs)))

/-- What a WAITC or a WDONE waits for holds: no class above its limit, no START run outstanding. -/
def SeqWait.met (x : SeqWait) (sq : Seq) : Bool :=
  (match x.limits with
    | [l, s, c, t] => decide (sq.count .loads ≤ l ∧ sq.count .stores ≤ s ∧ sq.count .copies ≤ c ∧ sq.count .tiles ≤ t)
    | _ => x.runs) &&
  (!x.runs || !sq.outs.any fun o => o.cls == .tiles && o.reg == 0)

/-- The last of a list of retired operations that carried a reference, else what stood before. -/
def lastRef (old : Option (Nat × W32 × Nat)) (gone : List Out) : Option (Nat × W32 × Nat) :=
  gone.foldl (fun r o => if o.ref = 0 then r else some (o.agent, o.ref, o.doneNs)) old
/-- Mark an outstanding operation done and retire (R254); the retirement that ends a count wait is the one its pennant names (R283). What copies and tile
operations carried is kept for the WAITC, and that of START runs for the WDONE, that acquires it when they retire (R92, R102, R262, R273); a load has acquired
at its own scope when its value came. -/
def Seq.finish (sq : Seq) (id agent : Nat) (ref : W32) (ns : Nat) (cov : Cov := {}) : Seq :=
  let all : List Out := sq.outs.map fun o => if o.id == id then { o with done := true, agent := agent, ref := ref, doneNs := ns, cov := cov } else o
  let outs := retire all
  let gone : List Out := all.filter fun o => !outs.any (fun x => x.id == o.id) && (o.cls == .copies || o.cls == .tiles)
  let runs := gone.filter fun o => o.cls == .tiles && o.reg == 0
  let sq' : Seq := { sq with
    outs := outs, ret := lastRef sq.ret gone, retRun := lastRef sq.retRun runs
    got := gone.foldl (fun c o => c.join o.cov) sq.got, gotRun := runs.foldl (fun c o => c.join o.cov) sq.gotRun }
  { sq' with wait := sq'.wait.map fun x =>
      if !x.ready && (x.runs || !x.limits.isEmpty) && x.met sq' then { x with ready := true, agent := agent, ref := ref, arr := ns } else x }

/-- The latest pennant reference after an acquire that carried one; 0 carries none (R92). -/
def newer (old ref : W32) : W32 := if ref = 0 then old else ref
/-- A sequencer obtains a carried reference in sequencer cycle c: on a cycle on which it writes a pennant, the pennant is its latest (R92). -/
def Seq.obtain (sq : Seq) (c : Nat) (ref : W32) : Seq := if sq.pennAt = c + 1 then sq else { sq with latest := newer sq.latest ref }

/-- A rise of a queue's progress counter resets its watchdog's timer to zero, also what stands on it while a LAUNCH waits for quads (R360). -/
def Queue.rise (u : Queue) (ns : Nat) : Queue := { u with progress := ns, paused := u.paused.map fun _ => 0 }

/-- STEP_NO[7:0] of a quad's sequencer, which every request of the quad carries (R390). -/
def W.stepOf (w : W) (quad : Nat) : Nat := (w.seq quad).stepNo.toNat % 256

/-! ## Placement (R73 to R76) -/

/-- XOR of the bits of n at positions lo, lo + 2, … up to 51. -/
def xorBits (n : Nat) : Nat → Nat → Bool
  | 0, _ => false
  | k + 1, i => (n.testBit i).xor (xorBits n k (i + 2))

/-- The home die of an interleaved PA: 2 × h1 + h0 (R74). -/
def homeDie (pa : Nat) : Nat :=
  (if xorBits pa 20 13 then 2 else 0) + (if xorBits pa 20 12 then 1 else 0)

/-- The die offset of an interleaved PA (R74). -/
def dieOffset (pa : Nat) : Nat := pa / 2 ^ 14 * 2 ^ 12 + pa % 2 ^ 12

/-- Location keys: die d offset o; a host bus address; a peer's interleaved address. -/
def keyDie (d o : Nat) : Nat := d * 2 ^ 40 + o
def keyHost (a : Nat) : Nat := 2 ^ 60 + a
def keyPeer (dev a : Nat) : Nat := 2 ^ 61 + dev * 2 ^ 42 + a
/-- The home of a location: dies 0 to 3, or 5 for the host and peers. -/
def keyHome (k : Nat) : Nat := if k < 2 ^ 60 then k / 2 ^ 40 else 5

/-- Limits of R73. -/
def maxInterleave : Nat := 0xC000000000
def maxDie : Nat := 0x3000000000

/-- A page-table leaf read as a place (R372, R73): none when a reserved field is set, PLACE is reserved, the PA is
misaligned, or the page leaves its valid range. -/
structure Leaf where
  place : Nat
  die   : Nat
  dev   : Nat
  pa    : Nat
deriving DecidableEq, Repr, Inhabited

def leafOf (e : W64) (sizeBits : Nat) : Option Leaf :=
  let place := field e 8 6
  let die := field e 10 9
  let peer := decide (place = 4)
  let pa := if peer then field e 50 16 * 2 ^ 16 else field e 51 12 * 2 ^ 12
  let resOk := field e 15 11 = 0 ∧ (peer ∨ field e 63 52 = 0) ∧ (place = 1 ∨ die = 0) ∧ (¬ peer ∨ field e 15 12 = 0)
  let size := 2 ^ sizeBits
  let lim := match place with | 0 => maxInterleave | 1 => maxDie | 2 => maxDie | 3 => 2 ^ 52 | _ => maxInterleave
  if resOk ∧ place ≤ 4 ∧ pa % size = 0 ∧ pa + size ≤ lim then
    some { place := place, die := die, dev := if peer then field e 63 51 else 0, pa := pa }
  else none

/-- The location keys of a physical address: one, or the four copies of a REPLICA page in die order (R73, R76). -/
def leafKeys (l : Leaf) (off : Nat) : List Nat :=
  let pa := l.pa + off
  match l.place with
  | 0 => [keyDie (homeDie pa) (dieOffset pa)]
  | 1 => [keyDie l.die pa]
  | 2 => [keyDie 0 pa, keyDie 1 pa, keyDie 2 pa, keyDie 3 pa]
  | 3 => [keyHost pa]
  | _ => [keyPeer l.dev pa]

/-- The home copy of a REPLICA offset: R74's hash of the die offset (R76). -/
def replicaHome (off : Nat) : Nat := homeDie off

/-! ## Translation (25_translation.md) -/

/-- The partition number of the PF's tables (R378). -/
def pfPart : Nat := 16

/-- The scratch window (R70). -/
def scratchBase : Nat := 0xFFFFFFFFFFC000
def inScratch (va : W64) : Bool := decide (scratchBase ≤ va.toNat ∧ va.toNat < 2 ^ 56)

/-- The kinds of access of R373. -/
inductive Access where
  | read
  | write
  | atomic
  | image
  | none
deriving DecidableEq, Repr, Inhabited

/-- The access code of a fault-queue entry (R378). -/
def Access.code : Access → Nat
  | .read => 0
  | .write => 1
  | .atomic => 2
  | .image => 3
  | .none => 0

/-- Whether a leaf's R, W, A, X bits permit an access (R373). -/
def permits (e : W64) (a : Access) : Bool :=
  let r := e.getLsbD 2; let wr := e.getLsbD 3; let at' := e.getLsbD 4; let x := e.getLsbD 5
  match a with
  | .read => r
  | .write => wr
  | .atomic => r && wr && at'
  | .image => r && x
  | .none => true

/-- What a translation gives. -/
inductive Xl where
  /-- a place for the address, with the TLB entry used -/
  | ok (l : Leaf) (off : Nat) (entry : Nat)
  /-- no TLB holds it: a walk is needed -/
  | miss
  /-- a missing permission -/
  | denied
  /-- a reserved PLACE or a bad PA -/
  | bad
deriving DecidableEq, Repr, Inhabited

/-- Whether a TLB entry covers an address for a partition. -/
def TlbE.hits (t : TlbE) (part : Nat) (va : W64) : Bool :=
  t.part == part && decide (t.va * 2 ^ t.size ≤ va.toNat ∧ va.toNat < (t.va + 1) * 2 ^ t.size)

/-- The unit numbers of the TLBs (R375): 0 to 3 the dies, 4 the hub, 0x1000 + s the sectors, 0x10000 + key the
micro-TLBs of memory cells (region × 2^14 + cell). -/
def unitSector (s : Nat) : Nat := 0x1000 + s
def unitMicro (r cell : Nat) : Nat := 0x10000 + r * 2 ^ 14 + cell
/-- The capacity of a TLB (R375). -/
def unitCap (u : Nat) : Nat := if u < 4 then 16384 else if u = 4 then 4096 else if u < 0x10000 then 512 else 16

/-- Put an entry into one TLB; when it is full a free value says which entry goes (log 10). -/
def W.tlbFill (w : W) (u : Nat) (t : TlbE) : W :=
  let mine := w.m.mmu.tlb.filter fun x => x.unit == u
  if mine.any fun x => x.part == t.part && x.va == t.va && x.size == t.size then w
  else
    let (w, victim) :=
      if mine.length < unitCap u then (w, none)
      else
        let (w, i) := w.freeBelow mine.length
        (w, (mine.drop i).head?)
    w.setMmu fun x => { x with tlb := (match victim with | some v => x.tlb.filter (· != v) | none => x.tlb) ++ [{ t with unit := u }] }

/-- The pages of a partition, or of the PF (R374). -/
def ptbOf (part : Nat) : Nat := if part = pfPart then Bar.pfPtb else Bar.partPtb part
/-- Look an address up in the TLBs of a unit list, the nearest first (R375); no entry is used for a scratch address (R70), nor while translation is off (R374). -/
def W.lookup (w : W) (units : List Nat) (part : Nat) (va : W64) (a : Access) : Xl :=
  if scratchBase ≤ va.toNat ∨ !(w.bar (ptbOf part)).getLsbD 0 then .miss else
  match units.findSome? fun u => w.m.mmu.tlb.find? fun t => t.unit == u && t.hits part va with
  | none => .miss
  | some t =>
    match leafOf t.leaf t.size with
    | none => .bad
    | some l => if permits t.leaf a then .ok l (va.toNat % 2 ^ t.size) t.id else .denied

/-- The units that an agent's accesses look in: a memory cell's micro, sector and die TLBs; a die's; the hub's. -/
def W.unitsOf (w : W) : Src → List Nat
  | .seq q _ => [q / 40]
  | .elem r c _ => [unitMicro r c, unitSector (siteSector (w.region r) c), (w.region r).die]
  | .engine id => if id < 32 then [id / 8] else [4]
  | _ => [4]

/-- The die an agent is on; 4 is the hub. -/
def W.dieOf (w : W) : Src → Nat
  | .seq q _ => q / 40
  | .elem r _ _ => (w.region r).die
  | .engine id => if id < 32 then id / 8 else 4
  | _ => 4

/-- A miss joins a walk in flight for the same partition and 64 KiB range (R375); of a PREF only its TLBs are filled (R237). -/
def Walk.join (k : Walk) (src : Src) (agent unit access : Nat) (pre : Bool) : Walk :=
  if pre then { k with prefs := (k.prefs ++ [src]).eraseDups }
  else if k.srcs.contains src then k
  else if k.pre then { k with pre := false, srcs := [src], agents := [agent], unit := unit, access := access }
  else { k with srcs := k.srcs ++ [src], agents := k.agents ++ [agent] }

/-- Ask for a walk, unless one is already in flight or held for this agent (R375). unit is the unit digit of the code its failure is reported
with: 0xA MC, 0xE sequencer, 0xF the rest. -/
def W.addWalk (w : W) (src : Src) (agent part : Nat) (va : W64) (a : Access) (unit : Nat) (pre : Bool := false) : W :=
  let same := fun (k : Walk) => k.part == part && decide (k.va.toNat / 2 ^ 16 = va.toNat / 2 ^ 16)
  if w.m.mmu.walks.any fun k => same k && k.held && k.srcs.contains src then w
  else if w.m.mmu.walks.any fun k => same k && !k.held then
    w.setMmu fun x => { x with walks := x.walks.map fun k => if same k && !k.held then k.join src agent unit a.code pre else k }
  else
    let (w, id) := w.fresh
    w.setMmu fun x => { x with walks := x.walks ++ [{
      id := id, part := part, va := va, die := w.dieOf src, access := a.code, agents := if pre then [] else [agent], unit := unit, pre := pre
      srcs := if pre then [] else [src], prefs := if pre then [src] else [] }] }

/-! ## Agents of requests -/

/-- The agent id of a request's sender (R390). -/
def W.srcAgent (w : W) : Src → Nat
  | .seq q _ => w.seqAgent q
  | .elem r c s => w.elemAgent ⟨r, c, s⟩
  | .engine id => w.engAgent id
  | .cp q => w.cpAgent q
  | .task _ _ _ => w.hostAgent
/-- The number under which an agent's program order is kept: all elements of a memory cell together are one agent (R83). -/
def W.orderOf (w : W) : Src → Nat
  | .elem r c _ => 2 ^ 40 + r * 2 ^ 20 + c
  | s => w.srcAgent s
/-- The region of a sender, its key + 1. -/
def W.srcRegion (w : W) : Src → Nat
  | .seq q _ => (w.seq q).region + 1
  | .elem r _ _ => r + 1
  | _ => 0
/-- The quad whose counters and STEP_NO a sender uses. -/
def W.srcQuad (w : W) : Src → Option Nat
  | .seq q _ => some q
  | .elem r c _ => some (siteQuad (w.region r) c)
  | _ => none
def W.srcStep (w : W) (s : Src) : Nat := match w.srcQuad s with | some q => w.stepOf q | none => 0

/-- Translate for the hub's own reads and writes (CP, loader, records): the hub TLB. -/
def W.hubLookup (w : W) (part : Nat) (va : W64) (a : Access) : Xl := w.lookup [4] part va a

/-! ## Visibility and the homes (05, 06) -/

/-- The dies within a scope of an agent of a die (R93): 5 stands for the host and the peers. -/
def scopeDies (scope die : Nat) : List Nat :=
  if scope ≤ 3 then [die] else if scope = 4 then [0, 1, 2, 3, 4] else [0, 1, 2, 3, 4, 5]

/-- The base key of a location's 64-byte sector. -/
def sectorKey (k : Nat) : Nat := k - k % 64

/-- Who observes: its die and region (its key + 1, 0: none), the number under which its program order is kept, and its agent id. -/
structure Eye where
  die   : Nat := 0
  agent : Nat := 0
  reg   : Nat := 0
  id    : Nat := 0
deriving DecidableEq, Repr, Inhabited

/-- A hub agent, by its id: each sees writes in an order of its own (R95). -/
def hubAgent (id : Nat) : Eye := { die := 4, agent := id, id := id }
/-- The hub itself, where it reads and writes for no CP and no engine. -/
def W.hubEye (w : W) : Eye := hubAgent w.hostAgent
/-- A sequencer. -/
def W.seqEye (w : W) (q : Nat) : Eye := { die := q / 40, agent := w.seqAgent q, reg := (w.seq q).region + 1, id := w.seqAgent q }
/-- A sender as an observer. -/
def W.eyeOf (w : W) (s : Src) : Eye := { die := w.dieOf s, agent := w.orderOf s, reg := w.srcRegion s, id := w.srcAgent s }
/-- The agent of a request as an observer: also of one whose sender has gone. -/
def W.reqEye (w : W) (r : Req) : Eye :=
  { die := r.die, agent := r.agent, reg := match r.gone with | some g => g.2 | none => w.srcRegion r.src
    id := match r.gone with | some g => g.1 | none => w.srcAgent r.src }
/-- The code under which a whole region sees a write. -/
def regionSeer (reg : Nat) : Nat := 2 ^ 50 + reg

/-- An applied write is hidden from an observer: its die has not made it visible to all, nor to the observer or its region (R95, R96). -/
def Unseen.hides (u : Unseen) (e : Eye) : Bool :=
  u.die == e.die && !u.seers.contains e.agent && (e.reg == 0 || !u.seers.contains (regionSeer e.reg))
/-- It is hidden from some agent within a scope of an observer (R93). -/
def Unseen.outside (u : Unseen) (scope : Nat) (e : Eye) : Bool :=
  if scope ≤ 1 then u.hides e
  else if scope = 2 then u.die == e.die && (e.reg == 0 || !u.seers.contains (regionSeer e.reg))
  else (scopeDies scope e.die).contains u.die

/-- Of the writes that touch one place, in coherence order, the first that an observer does not see after the last that it sees: what stood before
it is what the observer reads there, and never what is coherence-before a write that it sees (R86). -/
def firstHidden (e : Eye) (us : List Unseen) : Option Unseen := us.foldl (fun m u => if u.hides e then m.or (some u) else none) none
/-- The same at a byte. -/
def W.hiddenAt (w : W) (e : Eye) (key : Nat) : Option Unseen :=
  firstHidden e (w.m.bus.unseen.filter fun u => u.die == e.die && u.key == sectorKey key && u.mask.getLsbD (key % 64))
/-- What an observer reads at a location. -/
def W.view (w : W) (e : Eye) (key : Nat) : Byte :=
  match w.hiddenAt e key with
  | some u => u.old.extractLsb' (8 * (key % 64)) 8
  | none => w.read key
def W.viewBytes (w : W) (e : Eye) (key : Nat) : Nat → List Byte
  | 0 => []
  | n + 1 => w.view e key :: w.viewBytes e (key + 1) n

/-- The release that wrote the word (by its key / 8) that an observer reads, when, and the serial number of the write. -/
def W.relAt (w : W) (e : Eye) (word : Nat) : Option (Rel × Nat × Nat) :=
  match firstHidden e (w.m.bus.unseen.filter fun u =>
      u.die == e.die && u.key == sectorKey (8 * word) && field u.mask (word % 8 * 8 + 7) (word % 8 * 8) != 0) with
  | some u => tget u.rels word
  | none => tget w.m.bus.rels word

/-! ### Causal order (R96) -/

/-- What an ordering at a scope passes on: at PKG and wider the counts, at DIE what binds the agents of the die, at REGION those of the region. -/
def Cov.narrow (c : Cov) (scope : Nat) : Cov :=
  { vec := if 4 ≤ scope then c.vec else [], near := if 3 ≤ scope then c.near else [], close := if 2 ≤ scope then c.close else [] }
/-- A write is among what is before; causal order does not cross the device's boundary (R97). -/
def Cov.covers (c : Cov) (u : Unseen) : Bool :=
  c.near.contains u.id || c.close.contains u.id || (decide (u.src < 5) && decide (u.num ≤ c.vec.getD u.src 0))
/-- It is so by edges that hold at DIE scope and wider: for every agent of the sender's die (R96). -/
def Cov.binds (c : Cov) (u : Unseen) : Bool := c.near.contains u.id || (decide (u.src < 5) && decide (u.num ≤ c.vec.getD u.src 0))
/-- The writes, by their numbers, that counts cover and that some agent does not see. -/
def W.coveredIds (w : W) (vec : List Nat) : List Nat :=
  ((w.m.bus.unseen.filter fun v => decide (v.src < 5) && decide (v.num ≤ vec.getD v.src 0)).map (·.id)).eraseDups

/-- The narrowest scope that contains a releaser and an observer (R93): CELL is the agent itself. -/
def W.commonScope (w : W) (r : Rel) (e : Eye) : Nat :=
  if r.who = e.agent + 1 then 1
  else if r.reg ≠ 0 ∧ r.reg = e.reg then 2
  else if r.agent / 2 ^ 19 ≠ w.fld Bar.devLoc 12 0 ∨ r.agent = w.hostAgent then 5
  else if e.die < 4 ∧ (if r.die = 0 then r.agent / 2 ^ 16 % 8 else r.die - 1) = e.die then 3 else 4

/-- The same of a write's sender. -/
def Unseen.common (u : Unseen) (e : Eye) : Nat :=
  if u.agent = e.agent then 1 else if u.reg ≠ 0 ∧ u.reg = e.reg then 2 else if 4 < u.src then 5 else if e.die < 4 ∧ u.side = e.die then 3 else 4

/-- What is before an observer that has read a write's value: the write, and what the write is after for it. -/
def W.through (w : W) (e : Eye) (u : Unseen) : Cov :=
  let far := w.coveredIds u.cov.vec
  let near := u.id :: (far ++ if u.side = e.die then u.cov.near else [])
  { vec := if u.src < 5 then maxVec u.cov.vec ((List.range 5).map fun d => if d = u.src then u.num else 0) else u.cov.vec
    near := near
    close := if u.reg ≠ 0 ∧ u.reg = e.reg then near ++ u.cov.near ++ u.cov.close else near }

/-- The writes, not yet seen by every agent, whose values a read of a sector's part returns: the visible ones, or with `home` all of them (R94). -/
def W.sources (w : W) (e : Eye) (home : Bool) (p : Piece) : List Unseen :=
  let us := (w.m.bus.unseen.filter fun u => u.key == sectorKey p.key).foldl (fun l u => if l.any fun v => v.id == u.id then l else l ++ [u]) []
  let hid (u : Unseen) : Bool := !home && w.m.bus.unseen.any fun v => v.id == u.id && v.hides e
  let span : W64 := BitVec.ofNat 64 ((2 ^ p.len - 1) * 2 ^ (p.key % 64))
  (us.reverse.foldl (fun (acc : List Unseen × W64) u =>
    if hid u || u.mask &&& acc.2 == 0 then acc else (u :: acc.1, acc.2 &&& ~~~u.mask)) ([], span)).1

/-- What is before an observer that has read a list of writes. -/
def W.throughAll (w : W) (e : Eye) (us : List Unseen) : Cov := us.foldl (fun (c : Cov) u => c.join (w.through e u)) {}
/-- What an acquire at a scope that has read these writes obtains and its agent does not see yet: from those whose senders its scope contains (R87, R93, R96);
from outside the device a SYS release covers its sender's earlier writes (R97). -/
def W.owed (w : W) (e : Eye) (scope : Nat) (us : List Unseen) : List Nat :=
  let c := w.throughAll e (us.filter fun u => u.common e ≤ scope)
  let out := us.flatMap fun u => if scope = 5 ∧ u.src = 5 then u.cov.near else []
  (w.m.bus.unseen.filter fun v => v.hides e && ((c.narrow scope).covers v || out.contains v.id)).map (·.id)

/-- The requests that an agent has sent after one of its own. -/
def laterReqs (id agent : Nat) (f : Req → Req) : List Req → List Req
  | [] => []
  | r :: t => if r.id = id then r :: t.map fun q => if q.agent = agent then f q else q else r :: laterReqs id agent f t

/-- An access of an agent, of a request or of none (0), adds to what the agent has seen (c); of it, an acquire orders a part (o) before every later access, and
a later release covers it at its own scope (R87). -/
def Bus.learn (b : Bus) (e : Eye) (id : Nat) (load : Bool) (c o : Cov) : Bus :=
  let k := tgetD b.know e.agent {}
  let k := if load then { k with loads := k.loads.join c, ord := k.ord.join o } else { k with stores := k.stores.join c }
  { b with
    know := tput b.know e.agent k
    reqs := laterReqs id e.agent (fun q => { q with cov := q.cov.join (o.join (c.narrow (if q.rel then q.scope else 0))) }) b.reqs }
/-- The same for a read, of the writes whose values it returns; an acquire at a scope (0: none) orders those whose senders its scope contains (R93). -/
def W.learn (w : W) (e : Eye) (id acq : Nat) (us : List Unseen) : W :=
  if us.isEmpty then w else w.setBus fun b => b.learn e id true (w.throughAll e us) ((w.throughAll e (us.filter fun u => u.common e ≤ acq)).narrow acq)
/-- What an acquire that reads no location obtains: of a token, a pulse, a tag or a retirement (R90, R102, R25). -/
def W.gain (w : W) (e : Eye) (c : Cov) : W := if c = {} then w else w.setBus fun b => b.learn e 0 true c c
/-- The same of a release mark, at its scope, when that contains its consumer (R90, R93). -/
def W.gainRel (w : W) (e : Eye) (r : Rel) : W := if w.commonScope r e ≤ r.scope then w.gain e (r.cov.narrow r.scope) else w

/-- What a write that an agent issues now is causally after; a release covers all that the agent has seen, at its scope. -/
def W.coverOf (w : W) (e : Eye) (rel : Bool) (scope : Nat) : Cov :=
  let k := tgetD w.m.bus.know e.agent {}
  if rel then k.ord.join ((k.loads.join k.stores).narrow scope) else k.ord
/-- What a release at a scope that is no store covers: START, a DONE, a token of INJ (R88). -/
def W.releases (w : W) (e : Eye) (scope : Nat) : Cov := (w.coverOf e true scope).narrow scope
/-- Some writes, by their numbers, as what a release covers: while an agent is still to see them. -/
def W.coverIds (w : W) (ids : List Nat) : Cov :=
  let us := w.m.bus.unseen.filter fun u => ids.contains u.id
  { vec := us.foldl (fun v u => maxVec v ((List.range 5).map fun d => if d = u.src then u.num else 0)) [], near := (us.map (·.id)).eraseDups
    close := (us.map (·.id)).eraseDups }

/-! ### The way to another device (R402, R403) -/

def W.link (w : W) (l : Nat) : Link := tgetD w.m.links l {}
def W.setLink (w : W) (l : Nat) (f : Link → Link) : W := { w with m := { w.m with links := tput w.m.links l (f (w.link l)) } }
/-- STATE of a link: 0 down, 1 training, 2 up, 3 retraining, 4 miswired. -/
def W.linkState (w : W) (l : Nat) : Nat := w.fld (Bar.linkCtl l) 62 60

/-- The sizes of the torus, and a device's place on it. -/
def W.torus (w : W) : Nat × Nat × Nat := (w.fld Bar.devLoc 20 16 + 1, w.fld Bar.devLoc 28 24 + 1, w.fld Bar.devLoc 36 32 + 1)
def placeOn (t : Nat × Nat × Nat) (id : Nat) : Nat × Nat × Nat := (id % t.1, id / t.1 % t.2.1, id / (t.1 * t.2.1))
/-- Along one dimension: none when it needs no correction, else whether the way goes up: the shorter one, and of two equal ones the positive. -/
def wayUp (here there size : Nat) : Option Bool :=
  if here = there then none else some (decide (2 * ((there + size - here) % size) ≤ size))
/-- The direction in which a message to a device leaves: x is corrected first, then y, then z; none for this device, and for one that the torus does not have. -/
def W.route (w : W) (dev : Nat) : Option Nat :=
  let t := w.torus
  let a := placeOn t (w.fld Bar.devLoc 12 0)
  let b := placeOn t dev
  if t.1 * t.2.1 * t.2.2 ≤ dev then none
  else match wayUp a.1 b.1 t.1, wayUp a.2.1 b.2.1 t.2.1, wayUp a.2.2 b.2.2 t.2.2 with
    | some up, _, _ => some (if up then 0 else 1)
    | none, some up, _ => some (if up then 2 else 3)
    | none, none, some up => some (if up then 4 else 5)
    | none, none, none => none

/-- The link of a direction that takes the next flit: of those that are up and have room in their buffer of 512 flits the one with the fewest to acknowledge. -/
def W.dirLink (w : W) (d : Nat) : Option Nat :=
  let ls := [3 * d, 3 * d + 1, 3 * d + 2].filter fun l => w.linkState l == 2 && decide ((w.link l).buf.length < 512)
  ls.foldl (fun m l => match m with
    | none => some l
    | some k => if (w.link l).buf.length < (w.link k).buf.length then some l else some k) none
/-- The device of a peer's key. -/
def keyDev (key : Nat) : Nat := (key - 2 ^ 61) / 2 ^ 42
/-- A message about a key may leave: to another device only in its direction, while a link of it is up and no earlier message waits there (R403; log 98). -/
def W.wayOpen (w : W) (key : Nat) : Bool :=
  decide (key < 2 ^ 61 ∨ keyDev key = w.fld Bar.devLoc 12 0) || match w.route (keyDev key) with
  | some d => (tgetD w.m.hub.adrift d []).isEmpty && (w.dirLink d).isSome
  | none => false
/-- A message takes its place in the buffer of a link. -/
def W.sendOn (w : W) (l n : Nat) : W := w.setLink l fun x => { x with next := (x.next + 1) % 4096, buf := x.buf ++ [n] }
/-- A write is the message of one flit to the device whose page it writes (log 98). -/
def W.sendPeer (w : W) (key n : Nat) : W :=
  if key < 2 ^ 61 ∨ keyDev key = w.fld Bar.devLoc 12 0 then w
  else match (w.route (keyDev key)).bind w.dirLink with
    | some l => w.sendOn l n
    | none => w
/-- A write is not yet acknowledged by the device to which it went (R97). -/
def Mach.unacked (m : Mach) (n : Nat) : Bool := m.links.any (fun l => l.2.buf.contains n) || m.hub.adrift.any fun d => d.2.contains n

/-! ### Writes at the home (R94) -/

/-- On one cycle a home applies writes in ascending requester id: none of a higher id has been applied on this cycle; and a write can go to its home (R403). -/
def W.homeOpen (w : W) (e : Eye) (key : Nat) : Bool :=
  w.wayOpen key && match tget w.m.bus.tie (keyHome key) with
  | some (c, a) => c != w.now + 1 || decide (a ≤ e.id)
  | none => true

/-- Apply a write of bytes at one sector at its home: memory changes, the writer sees it, and every other agent comes to see it by
CROSS_DIE_WRITE_VISIBLE; a request that waits on the sector reads once more for it (R305). bs lists (offset in the sector, byte); `id` is the request
that writes, if any. Gives the write's number. -/
def W.applyWrite (w : W) (e : Eye) (sec : Nat) (bs : List (Nat × Byte)) (rel : Rel) (cov : Cov := {}) (id : Nat := 0) : W × Nat :=
  let (w, n) := w.fresh
  let mask : W64 := bs.foldl (fun m (o, _) => m ||| (1#64 <<< o)) 0
  let old : W512 := BitVec.ofNat 512 (leNat (w.bytes sec 64))
  let num := tgetD w.m.bus.sent e.die 0 + 1
  let words := (bs.map fun (o, _) => (sec + o) / 8).eraseDups
  let was := words.foldl (fun t k => match tget w.m.bus.rels k with | some x => tput t k x | none => t) []
  let dies := (List.range 6).filter fun d => !(d == e.die && d == 5)
  let new := dies.map fun d => ({
    id := n, die := d, key := sec, mask := mask, old := old, rels := was, src := e.die, sys := rel.scope == 5, num := num, agent := e.agent, reg := if rel.scope = 0 then e.reg else rel.reg, side := if rel.die = 0 then e.die else rel.die - 1, cov := cov
    seers := if d = e.die then [e.agent] else [] } : Unseen)
  let own : Cov := { vec := if e.die < 5 then (List.range 5).map fun d => if d = e.die then num else 0 else [], near := [n], close := [n] }
  let w := w.setBus fun b =>
    let b := b.learn e id false own {}
    { b with
      sent := tput b.sent e.die num
      bad := if mask = BitVec.allOnes 64 then b.bad.filter (· != sec) else b.bad
      -- the outside sees its own writes at once, over whatever it had still to see there
      unseen := (if e.die = 5 then b.unseen.map fun u => if u.die == e.die && u.key == sec then { u with mask := u.mask &&& ~~~mask } else u else b.unseen) ++ new
      rels := words.foldl (fun t k => tput t k (rel, w.ns, n)) b.rels
      tie := tput b.tie (keyHome sec) (w.now + 1, match tget b.tie (keyHome sec) with
        | some (c, a) => if c = w.now + 1 then max a e.id else e.id
        | none => e.id)
      reqs := b.reqs.map fun r => if r.watch && r.pieces.any (fun p => sectorKey p.key == sec) then { r with due := r.due ++ [n] } else r }
  ((bs.foldl (fun w (o, v) => w.write (sec + o) v) w).sendPeer sec n, n)

/-- A write of consecutive bytes that may cross sectors, by the hub or an engine, each sector one write; with the writes' numbers. -/
def W.applyAll (w : W) (e : Eye) (rel : Rel) (key : Nat) (bs : List Byte) : W × List Nat :=
  let cells := (List.range bs.length).zip bs |>.map fun (i, b) => (key + i, b)
  let secs := (cells.map fun c => sectorKey c.1).eraseDups
  let cov := w.coverOf e (rel.scope != 0) rel.scope
  secs.foldl (fun acc sec =>
    let (w, n) := acc.1.applyWrite e sec ((cells.filter fun c => sectorKey c.1 == sec).map fun c => (c.1 - sec, c.2)) rel cov
    (w, n :: acc.2)) (w, [])
def W.applyBytes (w : W) (e : Eye) (rel : Rel) (key : Nat) (bs : List Byte) : W := (w.applyAll e rel key bs).1

/-- Writes, and what is before them, have been performed at a scope of an agent: no agent within it has still to see one (R87). -/
def W.performed (w : W) (e : Eye) (scope : Nat) (ids : List Nat) (c : Cov) : Bool :=
  w.m.bus.unseen.all fun u => !((ids.contains u.id || c.covers u) && u.outside scope e)
/-- An agent sees the writes of a list. -/
def W.seesAll (w : W) (e : Eye) (ids : List Nat) : Bool := w.m.bus.unseen.all fun u => !(ids.contains u.id && u.hides e)

/-- How many requests a counter has counted on this cycle (R343). -/
def W.countedNow (w : W) (off : Nat) : Nat := if w.m.bus.counted.1 = w.now + 1 then tgetD w.m.bus.counted.2 off 0 else 0
/-- Add 1 to a request counter. -/
def W.countAt (w : W) (off : Nat) : W :=
  (w.setBus fun b => { b with counted := (w.now + 1, tput (if b.counted.1 = w.now + 1 then b.counted.2 else []) off (w.countedNow off + 1)) }).setBar off
    (w.bar off + 1)
/-- Count one request of a die to DRAM at a serving die when it is sent (R81): LREQ, or RREQO; a hub agent (4) counts neither. Requests to hosts
and peers are not counted. -/
def W.countOut (w : W) (die home : Nat) : W :=
  if 4 ≤ home then w else if die = home then w.countAt (Bar.lreq die) else if die < 4 then w.countAt (Bar.rreqo die) else w
/-- Count it when the serving die's controller accepts it: RREQI. -/
def W.countIn (w : W) (die home : Nat) : W := if 4 ≤ home ∨ die = home then w else w.countAt (Bar.rreqi home)

/-- Count a request's sectors as it is sent, for the PMC of a quad, too (R401 code 10). -/
def W.countSent (w : W) (die : Nat) (quad : Option Nat) (keys : List Nat) : W :=
  let w := keys.foldl (fun w k => w.countOut die (keyHome k)) w
  match quad with
  | some q => w.pmc q 10 keys.length
  | none => w
/-- The same, each accepted as it is sent. -/
def W.countReqs (w : W) (die : Nat) (quad : Option Nat) (keys : List Nat) : W :=
  keys.foldl (fun w k => w.countIn die (keyHome k)) (w.countSent die quad keys)

/-- The base page of a Req's address range, to tell overlap. -/
def Req.overlaps (a b : Req) : Bool :=
  a.pieces.any fun p => b.pieces.any fun q => sectorKey p.key == sectorKey q.key

/-- Whether a request of an agent may be performed, given the requests the agent sent before it (R86, R87): none of them
is an unperformed acquire or touches the same sector, and a release has none before it at all. A mark at CELL scope orders the agent's accesses only
as the agent itself observes them. -/
def mayPerform (reqs : List Req) (r : Req) : Bool :=
  (reqs.takeWhile fun x => x.id != r.id).all fun e =>
    e.agent != r.agent || (!(r.rel && r.scope != 1) && !(e.acq && e.scope != 1) && !e.overlaps r)

/-- Every request an agent has sent and that is not performed. -/
def W.agentReqs (w : W) (agent : Nat) : List Req := w.m.bus.reqs.filter fun r => r.agent == agent

/-- An access that an agent makes at once may be performed (R86, R87): none of its requests is an unperformed acquire, or touches one of the sectors. -/
def W.mayNow (w : W) (agent : Nat) (secs : List Nat) : Bool :=
  (w.agentReqs agent).all fun r => !(r.acq && r.scope != 1) && !(r.pieces.any fun p => secs.contains (sectorKey p.key))

/-- Earlier accesses of an agent are performed at a scope: none is in flight, and none of its writes, nor of the writes that it has observed,
is still to be seen by an agent of the scope (R87). At CELL scope the agent observes its own accesses in order in any case. -/
def W.agentPerformed (w : W) (e : Eye) (scope : Nat) : Bool :=
  decide (scope ≤ 1) || ((w.agentReqs e.agent).isEmpty && w.m.bus.unseen.all fun u =>
    !((u.agent == e.agent || (w.coverOf e true scope).covers u) && u.outside scope e))

/-- Earlier loads of an agent are performed. -/
def W.agentLoadsDone (w : W) (agent : Nat) : Bool :=
  (w.agentReqs agent).all fun r => match r.kind with
    | .read => false
    | .rld _ _ => false
    | .atomic _ => false
    | .cas => false
    | .pnrd => false
    | _ => true
/-- A FENCE.ACQ at a scope is complete: the agent's earlier loads are performed, and it sees what they are after (R87). -/
def W.loadsOrdered (w : W) (e : Eye) (scope : Nat) : Bool :=
  decide (scope ≤ 1) || (w.agentLoadsDone e.agent && w.m.bus.unseen.all fun u =>
    !(((tgetD w.m.bus.know e.agent {}).loads.narrow scope).covers u && u.hides e))
/-- A fence of an acquiring kind at a scope obtains the last release that a load without an acquire has read (R88, R93). -/
def W.hears (w : W) (e : Eye) (kind scope : Nat) : Option Rel :=
  match (tgetD w.m.bus.know e.agent {}).heard with
  | some k => if kind ≠ 2 ∧ w.commonScope k e ≤ k.scope ∧ w.commonScope k e ≤ scope then some k else none
  | none => none
/-- A completed fence orders what it names before the agent's later accesses: kind 1 its loads, 2 and 3 all. A release that it has not obtained is left to a
later fence. -/
def W.fenced (w : W) (e : Eye) (kind scope : Nat) : W :=
  w.setBus fun b => match tget b.know e.agent with
    | none => b
    | some k => { b with know := tput b.know e.agent { k with
        ord := k.ord.join ((if kind = 1 then k.loads else k.loads.join k.stores).narrow scope), heard := if (w.hears e kind scope).isSome then none else k.heard } }

/-- Send a request. -/
def W.send (w : W) (r : Req) : W := w.setBus fun b => { b with reqs := b.reqs ++ [r] }
def W.req (w : W) (id : Nat) : Option Req := w.m.bus.reqs.find? fun r => r.id == id
def W.setReq (w : W) (id : Nat) (f : Req → Req) : W := w.setBus fun b => { b with reqs := b.reqs.map fun r => if r.id == id then f r else r }
def W.dropReq (w : W) (id : Nat) : W := w.setBus fun b => { b with reqs := b.reqs.filter fun r => r.id != id }

/-- The copy that a hub agent reads: the home's of a REPLICA page (R76). -/
def hubKey (l : Leaf) (off : Nat) : Nat :=
  if l.place = 2 then keyDie (replicaHome (l.pa + off)) (l.pa + off) else (leafKeys l off).headD 0
/-- The copies that it stores: all of a REPLICA page, the home's first. -/
def hubCopies (l : Leaf) (off : Nat) : List Nat := hubKey l off :: (leafKeys l off).filter (· != hubKey l off)

/-! ## Interrupts of functions (R340, R349) -/

/-- The enabled bit of a partition (R344). -/
def W.enabled (w : W) (n : Nat) : Bool := (w.bar (Bar.partCtl n)).getLsbD 0

/-- The host's register writes take effect: start-up is complete (R409; log 12). -/
def W.ready (w : W) : Bool := (w.bar Bar.bootStat).getLsbD 0

/-- A function's MSI-X vector fires: of the PF, or of a VF that an enabled partition is bound to (R340). -/
def W.fireMsg (w : W) (fn vec : Nat) : W :=
  if fn = 0 || (List.range 16).any fun n => w.enabled n && w.fld (Bar.partCtl n) 31 28 == fn then
    w.setHub fun h => { h with irqs := h.irqs ++ [(fn, vec)] }
  else w
/-- The vector of a function's events of a kind, 0 EVTVEC or 1 FLTVEC, fires, and none of them is pending any more (R349). -/
def W.fireEvents (w : W) (fn kind : Nat) : W :=
  (w.fireMsg fn (if kind = 1 then w.fld (Bar.fnIrq fn) 31 16 else w.fld (Bar.fnIrq fn) 15 0)).setHub fun h => { h with
    fns := tput h.fns (2 * fn + kind) { tgetD h.fns (2 * fn + kind) {} with pending := 0 } }
/-- An event of a function: it is sent at once with COAL_T = 0, or with those pending when COAL_N are (R349, R133). -/
def W.fnEvent (w : W) (fn kind : Nat) : W :=
  let x := tgetD w.m.hub.fns (2 * fn + kind) {}
  let w := w.setHub fun h => { h with fns := tput h.fns (2 * fn + kind) { x with pending := x.pending + 1, since := if x.pending = 0 then w.ns else x.since } }
  if w.fld (Bar.fnIrq fn) 47 32 = 0 ∨ w.fld (Bar.fnIrq fn) 55 48 ≤ x.pending + 1 then w.fireEvents fn kind else w
/-- An event of a partition for FN_IRQ: to the function of the VF that it is bound to, and to the PF (R349, R340). -/
def W.event (w : W) (part kind : Nat) : W :=
  let vf := w.fld (Bar.partCtl part) 31 28
  (if vf = 0 || !w.enabled part then w else w.fnEvent vf kind).fnEvent 0 kind

/-! ## Walking (R371, R372) -/

/-- How a walk ends. -/
inductive WalkEnd where
  /-- at a leaf entry that maps a page of 2^size bytes -/
  | leaf (e : W64) (size : Nat)
  /-- at an entry with V = 0: the level -/
  | absent (level : Nat)
  /-- at an entry that breaks R372 -/
  | broken
deriving DecidableEq, Repr

/-- The VA bits that index each level's table, and whether a leaf may stand there (R371). -/
def walkLevels : List (Nat × Nat × Nat × Bool) :=
  [(0, 55, 48, false), (1, 47, 39, false), (2, 38, 30, true), (3, 29, 21, true), (4, 20, 16, true)]

/-- The 8 bytes of a page-table entry, at its home. -/
def W.ptEntry (w : W) (pa : Nat) : W64 := BitVec.ofNat 64 (leNat (w.bytes (keyDie (homeDie pa) (dieOffset pa)) 8))

/-- A pointer entry keeps R372: no permission, no place but INTERLEAVE, no die, zeros in the reserved fields, a table in INTERLEAVE space. Bits 15 to 12 are
its PA's, for a table is 4 KiB-aligned (R371; log 27). -/
def pointerOk (e : W64) : Bool := field e 11 2 == 0 && field e 63 52 == 0 && decide (field e 51 12 * 2 ^ 12 + 4096 ≤ maxInterleave)

/-- The levels of a walk, from the table at a physical address. -/
def W.walkFrom (w : W) (va : W64) : List (Nat × Nat × Nat × Bool) → Nat → WalkEnd
  | [], _ => .broken
  | (level, hi, lo, leafOk) :: rest, table =>
    let e := w.ptEntry (table + 8 * field va hi lo)
    if !e.getLsbD 0 then .absent level
    else if e.getLsbD 1 then
      if leafOk && (leafOf e lo).isSome then .leaf e lo else .broken
    else if level = 4 || !pointerOk e then .broken
    else w.walkFrom va rest (field e 51 12 * 2 ^ 12)

/-- Walk an address of a partition: with translation off, V = 0 at level 0 (R374); the scratch window is never walked (R70); a root table outside
INTERLEAVE space is a PA outside its range (R371, R372). -/
def W.walk (w : W) (part : Nat) (va : W64) : WalkEnd :=
  if !(w.bar (ptbOf part)).getLsbD 0 || decide (scratchBase ≤ va.toNat) then .absent 0
  else if maxInterleave < w.fld (ptbOf part) 51 12 * 2 ^ 12 + 4096 then .broken
  else w.walkFrom va walkLevels (w.fld (ptbOf part) 51 12 * 2 ^ 12)

/-! ### Fault queues (R376 to R379) -/

/-- The entries that die d's queue holds. -/
def W.fqSize (w : W) (d : Nat) : Nat := 2 ^ w.fld (Bar.fqCfg d) 63 60 * 256

/-- Append one entry to the fault queue of a die, with its interrupt event: its index. -/
def W.fqAppend (w : W) (die part : Nat) (va : W64) (agent access level : Nat) : W × Nat :=
  let head := w.fld (Bar.fqPtr die) 31 0
  let pa := w.fld (Bar.fqCfg die) 51 12 * 2 ^ 12 + 32 * (head % w.fqSize die)
  let ent := packFields [(64, va.toNat), (32, agent), (8, part), (8, access), (8, level), (8, 0), (64, w.ns), (64, 0)]
  let e : Eye := { die := min die 4, agent := 2 ^ 41 + 2 ^ 14 + die, id := if die < 4 then w.homeAgent die else w.hostAgent }
  let w := w.applyBytes e {} (keyDie (homeDie pa) (dieOffset pa)) (leBytes 32 ent)
  ((w.setFld (Bar.fqPtr die) 31 0 (head + 1)).event part 1, head)

/-- Faults of a partition are queued at a die: EN = 1 and the partition is not stopped (R378). -/
def W.fqOn (w : W) (die part : Nat) : Bool := (w.bar (Bar.fqCfg die)).getLsbD 0 && !(w.part part).halted
/-- A die's queue is full. -/
def W.fqFull (w : W) (die : Nat) : Bool :=
  decide (w.fqSize die ≤ (w.fld (Bar.fqPtr die) 31 0 + 2 ^ 32 - w.fld (Bar.fqPtr die) 63 32) % 2 ^ 32)
/-- A walk that has met V = 0 at a level is queued as one entry, which names its first agent, and waits for the reply (R376). -/
def W.fqHold (w : W) (k : Walk) (level : Nat) : W :=
  let (w, i) := w.fqAppend k.die k.part k.va (k.agents.headD w.hostAgent) k.access level
  let w := match (k.srcs.filterMap w.srcQuad).head? with | some q => w.pmc q 9 1 | none => w
  w.setMmu fun x => { x with walks := x.walks.map fun y => if y.id == k.id then { y with held := true, entry := some i, prefs := [] } else y }

/-- A walk of the hub for an access of its own: it joins one in flight, which ends with it, or one that waits for its reply (R375, R376). An absent entry is queued
for it, and the access is not made; it waits for no reply. -/
def W.hubWalk (w : W) (part : Nat) (va : W64) (a : Access) : W × WalkEnd :=
  let same (k : Walk) : Bool := k.die == 4 && k.part == part && decide (k.va.toNat / 2 ^ 16 = va.toNat / 2 ^ 16)
  match w.walk part va with
  | .leaf e size =>
    let (w, n) := w.fresh
    let w := w.tlbFill 4 { id := n, part := part, va := va.toNat / 2 ^ size, size := size, leaf := e }
    (w.setMmu fun x => { x with walks := x.walks.filter fun k => !(same k && !k.held) }, .leaf e size)
  | .absent level =>
    if !w.fqOn 4 part || w.m.mmu.walks.any (fun k => same k && k.held) || w.fqFull 4 then (w, .absent level)
    else match w.m.mmu.walks.find? same with
      | some k => (if k.pre then w else w.fqHold k level, .absent level)
      | none =>
        let (w, id) := w.fresh
        let k : Walk := { id := id, part := part, va := va, die := 4, access := a.code, unit := 0xF, pre := true }
        ((w.setMmu fun x => { x with walks := x.walks ++ [k] }).fqHold k level, .absent level)
  | .broken => (w, .broken)

/-- Where the hub finds an address of a partition: in its TLB, or by a walk that fills it; else the code of the fault, 0 for V = 0. -/
def W.hubXlate (w : W) (part : Nat) (va : W64) (a : Access) : W × Except Nat (Leaf × Nat) :=
  match w.hubLookup part va a with
  | .ok l off _ => (w, .ok (l, off))
  | .denied => (w, .error 0x1F1)
  | .bad => (w, .error 0x1F2)
  | .miss => match w.hubWalk part va a with
    | (w, .leaf e size) =>
      match leafOf e size with
      | some l => if permits e a then (w, .ok (l, va.toNat % 2 ^ size)) else (w, .error 0x1F1)
      | none => (w, .error 0x1F2)
    | (w, .absent _) => (w, .error 0)
    | (w, .broken) => (w, .error 0x1F2)
/-- The same for the hub's own accesses for a partition: a missing permission and a broken table are the partition's fatal faults (R372, R373); none when the
access is not made. -/
def W.hubFind (w : W) (part : Nat) (va : W64) (a : Access) : W × Option (Leaf × Nat) :=
  match w.hubXlate part va a with
  | (w, .ok x) => (w, some x)
  | (w, .error code) => (if code = 0 then w else w.raiseHub part code w.hostAgent 0 va, none)
/-- The keys of the sectors that n bytes from a key touch. -/
def sectorKeys (key n : Nat) : List Nat := (List.range ((key % 64 + n + 63) / 64)).map fun i => sectorKey key + 64 * i
/-- A write that a hub agent sends to the other copies of a REPLICA page, of which each is written at its own time (R76, R99), for a copy or collective that
waits for it, or for none. -/
def W.issueOwned (w : W) (e : Eye) (owner : Nat) (r : Req) : W :=
  let (w, id) := w.fresh
  (w.countSent e.die none (r.pieces.map (·.key))).send { r with id := id, agent := e.agent, die := e.die, src := .engine 51, owner := owner, gone := some (e.id, e.reg) }
/-- Bytes that an agent writes at the copies of a location, the first of which is written now, and each other at its own time (R99); with the writes' numbers. -/
def W.spread (w : W) (e : Eye) (owner part : Nat) (rel : Rel) (keys : List Nat) (bs : List Byte) : W × List Nat :=
  match keys with
  | [] => (w, [])
  | k :: ks =>
    let (w, ids) := (w.countReqs e.die none (sectorKeys k bs.length)).applyAll e rel k bs
    (ks.foldl (fun w k =>
      let secs := sectorKeys k bs.length
      w.issueOwned e owner {
        part := part, kind := .write, size := bs.length, data := BitVec.ofNat 768 (leNat bs), mask := 2 ^ bs.length - 1, rel := rel.scope != 0, scope := rel.scope, ref := rel.ref
        step := rel.step, cov := w.coverOf e (rel.scope != 0) rel.scope
        pieces := secs.map fun s => let a := max s k; { key := a, off := a - k, len := min (s + 64) (k + bs.length) - a } }) w, ids)
/-- The hub's own store of bytes at the copies of a leaf, its sectors counted (R81). The id of the hub is above those of the device's other agents, so on its cycle
it comes after their writes, and they wait for the next one (R94; log 3). -/
def W.hubWrite (w : W) (rel : Rel) (l : Leaf) (off : Nat) (bs : List Byte) : W × List Nat := w.spread w.hubEye 0 pfPart rel (hubCopies l off) bs
def W.hubStore (w : W) (rel : Rel) (l : Leaf) (off : Nat) (bs : List Byte) : W := (w.hubWrite rel l off bs).1
/-- The hub writes a few bytes for a partition; a write that its tables refuse is dropped. -/
def W.hubForce (w : W) (part : Nat) (va : W64) (bs : List Byte) : W :=
  match w.hubFind part va .write with
  | (w, some (l, off)) => w.hubStore {} l off bs
  | (w, none) => w
/-! ### The context area's flag word (R61, R367) -/

/-- The VA of a byte of a partition's context area. -/
def W.ctxAt (w : W) (part off : Nat) : W64 := BitVec.ofNat 64 (w.fld (Bar.partCtxb part) 55 12 * 2 ^ 12 + off)
/-- Some task of the partition runs. -/
def W.anyRunning (w : W) (part : Nat) : Bool := w.m.regions.any fun g => g.2.part == part
/-- The flag word of a partition's context area holds its SQ_FLAGS while no task of it runs; where its tables do not allow the write, the hub keeps them. -/
def W.parkFlags (w : W) (part : Nat) : W :=
  if w.anyRunning part then w
  else match w.hubFind part (w.ctxAt part 8) .write with
    | (w, some (l, off)) => (w.hubStore {} l off (leBytes 8 (w.part part).flags.toNat)).setPart part fun p => { p with parked := true }
    | (w, none) => w

/-- What the hub would read there, if its tables allow it. -/
def W.hubPeek (w : W) (part : Nat) (va : W64) (n : Nat) : Option (List Byte) :=
  match w.hubFind part va .read with
  | (w, some (l, off)) => some (w.viewBytes w.hubEye (hubKey l off) n)
  | (_, none) => none
/-- The same as an access: the translation it needs is made, and its sectors are counted. -/
def W.hubTake (w : W) (part : Nat) (va : W64) (n : Nat) : W × Option (List Byte) :=
  match w.hubFind part va .read with
  | (w, some (l, off)) => (w.countReqs 4 none (sectorKeys (hubKey l off) n), some (w.viewBytes w.hubEye (hubKey l off) n))
  | (w, none) => (w, none)

/-- PART_CTXB.SAVED falls once no task entry has STATE ≠ 0 (R367). -/
def W.syncSaved (w : W) (part : Nat) : W :=
  let held (e : Nat) : Bool := match w.hubFind part (w.ctxAt part (64 + 64 * e + 12)) .read with
    | (w, some (l, off)) => w.read (hubKey l off) != 0
    | (_, none) => false
  if (w.bar (Bar.partCtxb part)).getLsbD 0 && !(List.range 16).any held then w.setFld (Bar.partCtxb part) 0 0 0 else w

/-- Flags of an asynchronous operation reach its partition; while it is switched out they are ORed into the flag word of its context area (R61, R367). -/
def W.lateFlags (w : W) (part : Nat) (f : Flags) : W :=
  if f = 0 then w
  else if w.anyRunning part || !(w.part part).parked then (w.orFlags part f).parkFlags part
  else match w.hubTake part (w.ctxAt part 8) 8 with
    | (w, some bs) => (w.setPart part fun p => { p with flags := BitVec.ofNat 7 (leNat bs) ||| f }).parkFlags part
    | (w, none) => w.orFlags part f

end Sys2Proof.Machine
end

