-- ==== Sys2Proof/Machine/Operands.lean ====
section
/-! DEFINITION. Sys2Proof/Machine/Operands.lean: operand forms. Tokens as lanes and packed elements (03_numbers.md R38), the empty
policies (R22), constant-fed positions (R12), address operands (R225), and the marks a result carries (R156). -/

namespace Sys2Proof.Machine

/-! ## Lanes and elements -/

/-- Lane l of a token. -/
def Token.lane (t : Token) (l : Nat) : W32 := t.data.extractLsb' (32 * l) 32
/-- Lane l is empty. -/
def Token.emptyAt (t : Token) (l : Nat) : Bool := t.empty.getLsbD l

/-- Elements of width w packed from element 0 up. -/
def packElems (w : Nat) : List Nat → Nat
  | [] => 0
  | x :: xs => x % 2 ^ w + 2 ^ w * packElems w xs

/-- The 64 bytes whose lane l is f l. -/
def lanes (f : Nat → Nat) : W512 := BitVec.ofNat 512 (packElems 32 ((List.range 16).map f))
/-- A mask of 16 bits. -/
def mask16 (f : Nat → Bool) : BitVec 16 := BitVec.ofNat 16 (packElems 1 ((List.range 16).map fun l => if f l then 1 else 0))

/-- Element i of width w (R38). -/
def elemAt (w : Nat) (d : W512) (i : Nat) : Nat := (d.extractLsb' (w * i) w).toNat

/-- A data token with every lane of a constant word (R12). -/
def constToken (k : W32) : Token := { data := lanes fun _ => k.toNat }
/-- A data token with the given low lanes and zeros above. -/
def lowLanes (l : List Nat) : Token := { data := BitVec.ofNat 512 (packElems 32 l) }
/-- The low 64 bits: lanes 1 : 0. -/
def Token.low64 (t : Token) : W64 := t.data.truncate 64

/-- CONST: every empty lane becomes the constant word and is full (R22). -/
def Token.fill (t : Token) (k : W32) : Token :=
  { t with data := lanes fun l => if t.emptyAt l then k.toNat else (t.lane l).toNat, empty := 0 }

/-- The token as an element with an empty policy reads it: only CONST changes it. -/
def Token.policy (t : Token) (empty : Nat) (k : W32) : Token := if empty = 2 then t.fill k else t

/-- A token that lands at a position, or in a queue, on a grid cycle and at a time in ns. -/
def Token.land (t : Token) (now ns : Nat) : Token := { t with landed := now, landedNs := ns, log := t.log.map fun l => { l with arr := now } }
/-- A null token. -/
def nullToken : Token := { null := true }

/-! ## The inputs of a firing -/

/-- The tokens a firing consumes, with which of them are real (not constant-fed). -/
structure Ins where
  l  : Token := {}
  r  : Token := {}
  p  : Token := {}
  lT : Bool := false
  rT : Bool := false
  pT : Bool := false

/-- The real tokens, in the order L, R, P. -/
def Ins.toks (i : Ins) : List Token :=
  (if i.lT then [i.l] else []) ++ (if i.rT then [i.r] else []) ++ (if i.pT then [i.p] else [])

/-- A null stands at a used position. -/
def Ins.anyNull (i : Ins) : Bool := i.toks.any (·.null)

/-- The release mark of a result (R156): the widest scope, and the reference of the marked input that landed last, P before
R before L on one edge; it covers what any of them covers (R90). -/
def relOf (ts : List Token) : Option Rel :=
  ts.foldl (fun acc t =>
    match t.rel, acc with
    | none, a => a
    | some r, none => some { r with scope := r.scope }
    | some r, some a => some { (if decide (lastLand ≤ t.landed) then r else a) with scope := max r.scope a.scope, cov := a.cov.join r.cov }) none
where
  /-- the latest landing among the marked tokens -/
  lastLand : Nat := (ts.filter fun t => t.rel.isSome).foldl (fun m t => max m t.landed) 0

def Ins.rel (i : Ins) : Option Rel := relOf i.toks
def Ins.last (i : Ins) : Bool := i.toks.any (·.last)
/-- The log a result carries: that of the first sampled input in the order L, R, P (R396). -/
def Ins.log (i : Ins) : Option HopLog := i.toks.findSome? (·.log)

/-- A result token with the marks of R156 and R26: head and tail of a real L, the release mark and the last-iteration mark of
any input. -/
def Ins.mark (i : Ins) (t : Token) : Token :=
  { t with head := i.lT && i.l.head, tail := i.lT && i.l.tail, rel := i.rel, last := i.last, log := i.log }

/-- The same without the head and tail marks. -/
def Ins.markOnly (i : Ins) (t : Token) : Token := { t with rel := i.rel, last := i.last, log := i.log }

/-- The null that a null input makes (R21): R156 gives head and tail marks to data results alone, R90 the release mark to every
token derived from a marked input (log 21). -/
def Ins.nullOut (i : Ins) : Token := i.markOnly nullToken

/-! ## Lane-wise work with flags and an LFSR -/

/-- What an element-wise operation gives for one element: the bits and the flags, from the operands and the LFSR's low 16
bits. -/
abbrev ElemOp := List Nat → Nat → Nat × Flags

/-- Accumulated work: elements so far (the newest first), flags, LFSR. -/
structure Acc where
  out   : List Nat := []
  flags : Flags := 0
  lfsr  : W32 := 0

/-- One element position: the LFSR steps when the mode is SR, empty or not (R47). DESIGN CHOICE: the data bits of an empty lane are 0 (log 88). -/
def Acc.step (a : Acc) (sr : Bool) (empty : Bool) (args : List Nat) (op : ElemOp) : Acc :=
  let s := if sr then lfsrStep a.lfsr else a.lfsr
  if empty then { a with out := 0 :: a.out, lfsr := s }
  else
    let (v, f) := op args (s.toNat % 2 ^ 16)
    { out := v :: a.out, flags := a.flags ||| f, lfsr := s }

/-- A lane-wise operation over tokens whose policy has been applied (R155): a lane empty in any operand is empty in the
result. -/
def laneWise (w : Nat) (sr : Bool) (lfsr : W32) (ts : List Token) (op : ElemOp) : Token × Flags × W32 :=
  let n := 32 / w
  let emptyLane := fun l => ts.any (·.emptyAt l)
  let a := (List.range (16 * n)).foldl (fun (a : Acc) i =>
    a.step sr (emptyLane (i / n)) (ts.map fun t => elemAt w t.data i) op) { lfsr := lfsr }
  ({ data := BitVec.ofNat 512 (packElems w a.out.reverse), empty := mask16 emptyLane }, a.flags, a.lfsr)

/-- A conversion (R163, R178): source elements to destination positions of the same lane; the positions beyond are zero and
full. -/
def laneConvert (ws wd h : Nat) (sr : Bool) (lfsr : W32) (t : Token) (empty : Nat → Bool) (op : ElemOp) : Token × Flags × W32 :=
  let ns := 32 / ws
  let nd := 32 / wd
  let a := (List.range (16 * nd)).foldl (fun (a : Acc) i =>
    let l := i / nd
    let j := i % nd
    if j < ns then a.step sr (empty l) [elemAt ws t.data (l * ns + (if ns ≤ nd then j else h * nd + j))] op
    else a.step sr true [] op) { lfsr := lfsr }
  ({ data := BitVec.ofNat 512 (packElems wd a.out.reverse), empty := mask16 empty }, a.flags, a.lfsr)

/-! ## Address operands (R225) -/

/-- The bank offset in lane 0; none when lane 0 is empty or the token is a null. -/
def Token.bankOff (t : Token) : Option Nat := if t.null || t.emptyAt 0 then none else some (t.lane 0).toNat
/-- The global virtual address in lanes 1 : 0; none when either is empty or the token is a null. -/
def Token.va (t : Token) : Option W64 := if t.null || t.emptyAt 0 || t.emptyAt 1 then none else some t.low64

/-- A whole-token predicate (R193): lane 0 of P is nonzero; an empty lane 0 reads as zero. -/
def Token.predicate (t : Token) : Bool := !t.emptyAt 0 && t.lane 0 != 0

end Sys2Proof.Machine
end

