-- ==== Sys2Proof/Machine/Fabric.lean ====
section
/-! DEFINITION. Sys2Proof/Machine/Fabric.lean: firing, reservations, results in flight and landing (02_execution_model.md R16 to R22,
07_islands_and_rates.md R110, R117, R119), shared by every element instruction. -/

namespace Sys2Proof.Machine

/-! ## Edges of an island (R110) -/

/-- The island of a site. -/
def Region.islandOf (g : Region) (cell : Nat) : Island := tgetD g.isl (tgetD g.secIsl (regionSector cell) 0) {}
/-- Grid cycle now is kept by the island's pattern: floor((n+1)·p/q) > floor(n·p/q), n counted from the switch (R110). -/
def Island.kept (i : Island) (now : Nat) : Bool :=
  let n := now - i.since
  decide (i.since ≤ now ∧ n * i.p / i.q < (n + 1) * i.p / i.q)
/-- The number of edges the island has kept up to and including now. -/
def Island.edge (i : Island) (now : Nat) : Nat := i.edges + (now + 1 - i.since) * i.p / i.q

/-- The sector of a site is awake and in no droop window, so that its kept edges are island edges (R117, R119). -/
def W.awake (w : W) (g : Region) (cell : Nat) : Bool :=
  let s := w.sector (siteSector g cell)
  decide (s.gate ≤ 1) && !s.droop

/-- The region's agents run: also while a drain goes on (R293). -/
def Region.runs (g : Region) : Bool := match g.phase with
  | .running => true
  | .saving drain _ => drain
  | _ => false

/-- The halt grid cycle of a checkpoint (R364): the first multiple of 64 grid cycles at least 256 after its acceptance. -/
def haltCycle (t : Nat) : Nat := (t + 256 + 63) / 64 * 64
/-- The grid cycle from which no island of a running region keeps an edge, once a checkpoint of its task has been accepted. -/
def Region.haltAt (g : Region) : Option Nat :=
  match g.preempt with
  | some (1, t) => if g.phase == .running then some (haltCycle t) else none
  | _ => none
/-- The region's agents run on a grid cycle. -/
def Region.runsAt (g : Region) (now : Nat) : Bool := g.runs && match g.haltAt with | some h => decide (now < h) | none => true
/-- The last grid cycle up to now on which its islands may keep an edge. -/
def Region.lastCycle (g : Region) (now : Nat) : Nat := match g.haltAt with | some h => min now (h - 1) | none => now
/-- No token stands in a position, an output stage or a response buffer; queues may hold tokens (R398). -/
def Region.quiescent (g : Region) : Bool :=
  g.elems.all fun x => x.2.inL.isNone && x.2.inR.isNone && x.2.inP.isNone && x.2.flights.isEmpty
/-- A debug stop is armed for a region and its conditions hold: it lands, and nothing fires there any more (R398). -/
def W.stopDue (w : W) (g : Region) : Bool :=
  let off := Bar.partDbg g.part
  (w.bar off).getLsbD 0 && w.fld off 47 40 == regionKey g && g.phase == .running && g.preempt.isNone && decide (w.fld off 39 8 ≤ g.version.toNat) &&
  g.applying.isNone && g.quiescent
def W.edgeOf (w : W) (g : Region) (cell : Nat) : Nat := (g.islandOf cell).edge (g.lastCycle w.now)
/-- The site's island keeps this grid cycle, the region runs and no debug stop has come, and the sector has had the cost of its last wake (R117). -/
def W.onEdge (w : W) (g : Region) (cell : Nat) : Bool :=
  g.runsAt w.now && !w.stopDue g && (g.islandOf cell).kept w.now && w.awake g cell && decide ((w.sector (siteSector g cell)).wakeEdge ≤ w.edgeOf g cell) && !(w.part g.part).halted

/-! ## Words and targets of a slot -/

/-- The fields of the word in a slot. -/
def Elem.fields (x : Elem) : EFields := elemFields x.word
def Elem.opc (x : Elem) : Nat := field x.word 63 56
def Elem.targetA (x : Elem) : Option Target := Target.ofBits x.fields.ta
def Elem.targetB (x : Elem) : Option Target := Target.ofBits x.fields.tb

/-- The token at a position: 0 L, 1 R, 2 P. -/
def Elem.inAt (x : Elem) (pos : Nat) : Option Token := if pos = 0 then x.inL else if pos = 1 then x.inR else x.inP
def Elem.setIn (x : Elem) (pos : Nat) (t : Option Token) : Elem :=
  if pos = 0 then { x with inL := t } else if pos = 1 then { x with inR := t } else { x with inP := t }
/-- A target of the image names a position. -/
def Elem.names (x : Elem) (pos : Nat) : Bool := x.named.testBit pos

/-- The slot that a target of POS 0 to 2 names: PORT 0 to 5 a cell slot, 6 and 7 a switch slot (R145). -/
def erefOf (t : Target) (r : Nat) : ERef := ⟨r, t.cell, t.port⟩

/-! ## What an instruction uses -/

/-- The positions an opcode uses: `uses` waits for a token unless constant-fed; `opt` is read only if named (R224). -/
structure Uses where
  l  : Bool := true
  r  : Bool := false
  p  : Bool := false
  /-- read only if a target names it -/
  ro : Bool := false
  po : Bool := false

/-- The token that a position gives: a real token, the constant, or nothing yet. A reconfiguration token is consumed by no
firing (R314). -/
def Elem.take (x : Elem) (pos : Nat) : Option (Token × Bool) :=
  if x.names pos then
    match x.inAt pos with
    | some t => if t.reconf then none else some (t, true)
    | none => none
  else some (constToken x.k, false)

/-- The inputs of a firing, when every used position has one (R17). -/
def Elem.inputs (x : Elem) (u : Uses) : Option Ins :=
  let none' : Option (Token × Bool) := some ({}, false)
  match (if u.l then x.take 0 else none'), (if u.r || (u.ro && x.names 1) then x.take 1 else none'),
      (if u.p || (u.po && x.names 2) then x.take 2 else none') with
  | some l, some r, some p => some { l := l.1, r := r.1, p := p.1, lT := l.2, rT := r.2, pT := p.2 }
  | _, _, _ => none

/-- A stage that holds a reconfiguration token on an input does not fire (R315). -/
def Elem.stalled (x : Elem) : Bool :=
  (match x.inL with | some t => t.reconf | none => false) || (match x.inR with | some t => t.reconf | none => false) ||
  (match x.inP with | some t => t.reconf | none => false)

/-- The output stage holds a result that was due and has not landed (R18). -/
def Elem.overdue (x : Elem) (edge : Nat) : Bool := x.flights.any fun f => f.req.isNone && decide (f.due ≤ edge)
/-- No result is due on one of n edges from an edge on: a position holds no other reservation for a landing edge (R18). -/
def Elem.unreserved (x : Elem) (edge n : Nat) : Bool := x.flights.all fun f => f.req.isSome || decide (f.due < edge ∨ edge + n ≤ f.due)
@[simp] theorem Elem.unreserved_zero (x : Elem) (edge : Nat) : x.unreserved edge 0 = true := by
  simp only [Elem.unreserved, List.all_eq_true, Bool.or_eq_true, decide_eq_true_eq]
  omega

/-- A target's position is empty, as a reservation needs (R18); a halyard target needs none (R301). -/
def W.grants (w : W) (r : Nat) (t : Option Target) : Bool :=
  match t with
  | none => true
  | some g =>
    if g.pos = 3 then true
    else match (w.elem (erefOf g r)).inAt g.pos with
      | some _ => false
      | none => true

/-- Both targets grant. -/
def W.grantBoth (w : W) (e : ERef) : Bool := w.grants e.r (w.elem e).targetA && w.grants e.r (w.elem e).targetB

/-- An element, by its place, has raised a fatal cause: it does nothing more (R355). -/
def W.elemFaulted (w : W) (e : ERef) : Bool :=
  (w.part (w.region e.r).part).halts.any fun h => decide (h.agent / 2 ^ 12 % 16 < 6) && h.region == e.r && h.element == e.key
/-- An element may act on this edge: an edge of its island, one firing per edge. -/
def W.onOwnEdge (w : W) (e : ERef) : Bool := w.onEdge (w.region e.r) e.cell && decide ((w.elem e).nextG ≤ w.now) && !w.elemFaulted e
/-- The same, and it does not stall. -/
def W.onTurn (w : W) (e : ERef) : Bool := w.onOwnEdge e && !(w.elem e).stalled
/-- The latency of an opcode, in island edges (R19, R158, R187, R231). -/
def opLatency (opc : Nat) : Nat :=
  if opc = 0x2C ∨ opc = 0x2D ∨ opc = 0x82 ∨ opc = 0x8A ∨ opc = 0x8B then 4
  else if (0x20 ≤ opc ∧ opc ≤ 0x25) ∨ (0x2E ≤ opc ∧ opc ≤ 0x35) ∨ opc = 0x52 then 3
  else if opc = 0x36 ∨ (0x43 ≤ opc ∧ opc ≤ 0x46) ∨ opc = 0x50 ∨ opc = 0x51 then 2
  else 1
/-- No result that the element sent under an earlier word of its stage has reserved the edge on which a firing now would land (R18, R315). -/
def Elem.clear (x : Elem) (edge : Nat) : Bool :=
  x.flights.all fun f => f.via.isNone || f.req.isSome || f.due != edge + opLatency x.opc + x.pass
/-- The common part of the firing condition: also, no result of its output stage is overdue, and none of an earlier word is in the way (R18). -/
def W.mayFire (w : W) (e : ERef) : Bool :=
  let edge := w.edgeOf (w.region e.r) e.cell
  w.onTurn e && !(w.elem e).overdue edge && (w.elem e).clear edge

/-! ## Consuming -/

/-- Trace record (R397): written to the partition's trace area when a sampled token retires or is dropped. -/
def traceBytes (l : HopLog) (retire : Nat) (null dropped : Bool) : List Byte :=
  let hop (h : Nat × Nat × Nat) : Nat :=
    packFields [(17, h.1), (7, 0), (24, min (h.2.1 - l.bornG) 0xFFFFFF), (16, min (h.2.2 - h.2.1) 0xFFFF)]
  leBytes 128 (packFields [(64, l.birth), (32, l.version), (8, l.region), (8, l.hops.length),
    (8, (if l.ovf then 1 else 0) + (if null then 2 else 0) + (if dropped then 4 else 0)), (8, 0), (32, l.source), (32, l.seq),
    (64, retire), (96 * 8, packFields (l.hops.map fun h => (64, hop h)))])

/-- Append one record of `size` bytes to an area of `unit` × 2^SZ records named by a register with the fields SZ, OVF, FULL,
BASE, COUNT of R359, through the hub in the partition's space; a full area or a failed translation drops it and sets OVF. The record is counted once it has been
performed at SYS scope (R359, R397): until then it stands in hub.areas. -/
def W.areaAppend (w : W) (off part unit size : Nat) (bs : List Byte) : W :=
  let sz := w.fld off 63 60
  let cap := 2 ^ sz * unit
  let full := w.fld off 58 58 = 1
  let n := if full then cap else w.fld off 11 0 + (w.m.hub.areas.filter fun a => a.1 == off).length
  if full ∨ cap ≤ n then w.setFld off 59 59 1
  else
    match w.hubXlate part (BitVec.ofNat 64 (w.fld off 55 12 * 2 ^ 12 + size * n)) .write with
    | (w, .ok (l, o)) =>
      let (w, ids) := w.hubWrite {} l o bs
      w.setHub fun h => { h with areas := h.areas ++ [(off, cap, ids)] }
    | (w, .error _) => w.setFld off 59 59 1

/-- A consumed sampled token gains a hop at the element that it has reached (R396); at its source it has reached none. -/
def hopOf (w : W) (key : Nat) (t : Token) : Token :=
  match t.log with
  | none => t
  | some l =>
    if l.arr = 0 then t
    else if 12 ≤ l.hops.length then { t with log := some { l with ovf := true } }
    else { t with log := some { l with hops := l.hops ++ [(key, l.arr, w.now)] } }

/-- A sampled token retires or is dropped: its trace record (R396, R397). -/
def W.trace (w : W) (e : ERef) (t : Token) (dropped : Bool) : W :=
  match t.log with
  | none => w
  | some l => w.areaAppend (Bar.partTrace (w.region e.r).part) (w.region e.r).part 32 128 (traceBytes l w.ns t.null dropped)

/-- A source's token may be sampled: number 2^N − 1, 2 × 2^N − 1, … (R396). -/
def W.birth (w : W) (e : ERef) (t : Token) : W × Token :=
  let g := w.region e.r
  let n := w.fld (Bar.partDbg g.part) 7 3
  let k := (w.elem e).seqNo
  let w := w.setElem e fun x => { x with seqNo := x.seqNo + 1 }
  if n ≠ 0 ∧ (k + 1) % 2 ^ n = 0 then
    (w.pmc (siteQuad g e.cell) 12 1, { t with log := some {
      birth := w.ns, bornG := w.now, version := (w.elem e).version.toNat, region := e.r, source := e.key, seq := k } })
  else (w, t)

/-- Sector activity: a firing or an arrival restarts the idle counts, and clock gating ends; where the sector was on its way to being power-gated, a wake costs
2 island cycles (R117). -/
def W.stir (w : W) (g : Region) (cell : Nat) : W :=
  w.setSector (siteSector g cell) fun s =>
    { s with
      lastEdge := w.edgeOf g cell, lastNs := w.ns, gate := if s.gate = 1 then 0 else s.gate
      wakeEdge := if s.gate = 1 && (w.bar (Bar.railCfg g.die)).getLsbD 8 then w.edgeOf g cell + 2 else s.wakeEdge }

/-- An element waits for a target on this edge: it is counted (R401), also for the region's back-pressure counter (R113; log 83). -/
def W.blocked (w : W) (r cell : Nat) : W :=
  (w.pmc (siteQuad (w.region r) cell) 3 1).setRegion r fun g => { g with
    press := g.press + 1, pressedAt := if g.pressedAt.isNone ∧ Config.pressThreshold < g.press + 1 then some w.ns else g.pressedAt }

/-! ## Leaves (R24 to R26, R139, R427) -/

/-- The start line of a head AG's cell; none when it is no head (R139). -/
def Region.startLine (g : Region) (cell : Nat) : Option Nat :=
  let c := tgetD g.cells cell {}
  if siteKind cell = 3 ∧ c.f3.getLsbD 78 then some (field c.f3 77 64) else none

/-- Where an element's results go: its targets of POS 0 to 2, and from a QPUSH the QPOP of its cell (R427). -/
def Region.succs (g : Region) (key : Nat) : List Nat :=
  let x := tgetD g.elems key {}
  let slotOf (t : Option Target) : List Nat := match t with
    | some t => if t.pos = 3 then [] else [ekey t.cell t.port]
    | none => []
  slotOf x.targetA ++ slotOf x.targetB ++
    (if x.opc = 0x89 then (List.range 6).filterMap fun s =>
      let k := ekey (key / 8) s
      if (tgetD g.elems k {}).opc = 0x8A then some k else none
    else [])

/-- What is reached from a list of elements, in at most `fuel` steps. -/
def Region.reach (g : Region) : Nat → List Nat → List Nat → List Nat
  | 0, _, seen => seen
  | fuel + 1, front, seen =>
    let next := ((front.flatMap g.succs).eraseDups).filter fun k => !seen.contains k
    if next.isEmpty then seen else g.reach fuel next (seen ++ next)

/-- The elements of the leaf started on a line (R427). -/
def Region.leaf (g : Region) (line : Nat) : List Nat :=
  let heads := ((g.elems.map (·.1)).filter fun k => g.startLine (k / 8) == some line && decide (k % 8 < 6))
  g.reach g.elems.length heads heads

/-- The start lines of the region's leaves. -/
def Region.leafLines (g : Region) : List Nat := (g.cells.filterMap fun c => g.startLine c.1).eraseDups
/-- The leaves an element belongs to. -/
def Region.leavesOf (g : Region) (key : Nat) : List Nat := g.leafLines.filter fun h => (g.leaf h).contains key

/-- The line that a done source drives (R138). -/
def Region.doneLine (g : Region) (cell : Nat) : Nat := field (tgetD g.cells cell {}).f3 61 48
/-- The done sources of the leaf started on a line: they drive the line above it (R24). -/
def Region.doneOf (g : Region) (line : Nat) : List Nat :=
  (g.elems.filter fun x => x.2.done && g.doneLine (x.1 / 8) == line + 1).map (·.1)

/-- A pennant that an element of a leaf writes is the one its leaf's DONE carries, until the next (R31). -/
def W.leafPennant (w : W) (e : ERef) (ref : W32) : W :=
  let g := w.region e.r
  let ks := (g.leavesOf e.key).flatMap g.doneOf
  w.setRegion e.r fun g => { g with elems := ks.foldl (fun t k => tmod t k fun x => { x with leafRef := ref }) g.elems }

/-- A memory cell obtains a reference that an acquire carried; on an edge on which it writes a pennant, the pennant is its latest (R92). -/
def W.cellRef (w : W) (r cell : Nat) (ref : W32) : W :=
  w.setCell r cell fun c => if c.pennAt = w.now + 1 then c else { c with latest := newer c.latest ref }
/-- An element of a memory cell writes a pennant to its quad's ring, which becomes its cell's latest and its leaf's (R92, R31). -/
def W.cellPennant (w : W) (e : ERef) (producer : Nat) (pref : W32) (start arrival kind : Nat) : W :=
  let g := w.region e.r
  let q := w.penQuad e
  let (w, ref) := w.pennant q g.part {
    waiter := w.elemAgent e, producer := producer, pref := pref, start := start, arrival := arrival, stop := w.ns, kind := kind, step := w.stepOf (siteQuad g e.cell) }
  (w.setCell e.r e.cell fun c => { c with latest := ref, pennAt := w.now + 1 }).leafPennant e ref

/-- The position of the release-marked token that landed last; P before R before L on one edge (R156, R425). -/
def Ins.lastMarked (i : Ins) : Nat :=
  let at' (k : Bool) (t : Token) : Nat := if k && t.rel.isSome then t.landed + 1 else 0
  let p := at' i.pT i.p
  let r := at' i.rT i.r
  let l := at' i.lT i.l
  if 0 < p ∧ r ≤ p ∧ l ≤ p then 2 else if 0 < r ∧ l ≤ r then 1 else 0

/-- A memory cell acquires a release mark it consumes: the carried reference becomes its latest, and an element that was held by the marked token
writes a pennant of KIND 0x0C, but for SIGLD and RNGP, whose waits have kinds of their own (R90, R92, R425). Other cells only forward. -/
def W.acquireBy (w : W) (e : ERef) (i : Ins) : W :=
  match i.rel with
  | none => w
  | some r =>
    if siteKind e.cell ≠ 2 ∨ isSwitchSlot e.slot then w
    else
      let lands := (i.toks.filter fun t => t.rel.isSome).foldl (fun m t => max m t.landedNs) 0
      let w := (w.cellRef e.r e.cell r.ref).gainRel (w.eyeOf (.elem e.r e.cell e.slot)) r
      match tget (w.elem e).heldAt i.lastMarked with
      | none => w
      | some h => if (w.elem e).opc = 0x91 ∨ (w.elem e).opc = 0xA5 then w else w.cellPennant e r.agent r.ref h lands 0x0C

/-- Consume the inputs of a firing on this edge (R17): the real tokens leave their positions, the last-iteration mark is seen by
a done source, the sink's firing is progress, and acquires are performed. -/
def W.consume (w : W) (e : ERef) (i : Ins) : W :=
  let g := w.region e.r
  let q := siteQuad g e.cell
  let nulls := (i.toks.filter (·.null)).length
  let empties := i.toks.foldl (fun n t => n + ((List.range 16).filter fun l => t.emptyAt l).length) 0
  let w := w.acquireBy e i
  let w := w.setElem e fun x =>
    { x with
      inL := if i.lT then none else x.inL, inR := if i.rT then none else x.inR, inP := if i.pT then none else x.inP,
      nextG := w.now + 1, heldAt := [], lastSeen := x.lastSeen || (x.done && i.last), turn := (x.turn + 1) % max x.copies.length 1 }
  let w := w.stir g e.cell
  let w := ((w.pmc q 2 1).pmc q 4 nulls).pmc q 5 empties
  let w := if g.sink = e.key ∧ i.lT then w.setQueue g.queue fun u => u.rise w.ns else w
  let x := w.elem e
  if x.targetA.isNone then i.toks.foldl (fun w t => w.trace e (hopOf w e.key t) false) w else w

/-- Reserve and send: a result for each target, due `lat` island edges from now (R17, R19). -/
def W.fly (w : W) (e : ERef) (lat : Nat) (a b : Option Token) (flags : Flags) : W :=
  let edge := w.edgeOf (w.region e.r) e.cell
  let hop := Option.map (hopOf w e.key)
  w.setElem e fun x => { x with flights := x.flights ++ [{ due := edge + lat + x.pass, a := hop a, b := hop b, flags := flags }] }

/-- The same result to both targets. -/
def W.flyBoth (w : W) (e : ERef) (lat : Nat) (t : Token) (flags : Flags) : W := w.fly e lat (some t) (some t) flags

/-- A burst of results on successive island edges; head and tail marks on the first and the last, the last-iteration mark on the
last alone (R26, R216). -/
def W.flyBurst (w : W) (e : ERef) (lat : Nat) (ts : List Token) (flags : Flags) : W :=
  let n := ts.length
  ((List.range n).zip ts).foldl (fun w (i, t) =>
    let t := { t with head := decide (i = 0), tail := decide (i + 1 = n), last := t.last && decide (i + 1 = n) }
    w.fly e (lat + i) (some t) (some t) (if i = 0 then flags else 0)) w

/-- Note the first time at which everything but one missing token held: every other used position held a token, and both targets would grant (R425). -/
def W.noteHeld (w : W) (e : ERef) (u : Uses) : W :=
  let x := w.elem e
  let missing := (if u.l && (x.take 0).isNone then [0] else []) ++ (if (u.r || (u.ro && x.names 1)) && (x.take 1).isNone then [1] else []) ++
    (if (u.p || (u.po && x.names 2)) && (x.take 2).isNone then [2] else [])
  match missing with
  | [p] =>
    if w.grantBoth e ∧ (tget x.heldAt p).isNone ∧ siteKind e.cell = 2 ∧ ¬ isSwitchSlot e.slot then
      w.setElem e fun x => { x with heldAt := tput x.heldAt p w.ns }
    else w
  | _ => w

/-- A firing whatever the tokens: when the element may fire, every used position has its token and both targets grant, it consumes
them, and `f` says what it sends. An element that does not send one result a firing, always as late, names which edges it needs: so many of them from so many
edges on (R18). -/
def W.fireAny (w : W) (e : ERef) (u : Uses) (f : Elem → Ins → W → W) (need : Elem → Ins → Nat × Nat := fun _ _ => (0, 0)) : W :=
  if w.mayFire e then
    let x := w.elem e
    match x.inputs u with
    | none => w.noteHeld e u
    | some i =>
      if w.grantBoth e && x.unreserved (w.edgeOf (w.region e.r) e.cell + (need x i).2 + x.pass) (need x i).1 then f x i (w.consume e i)
      else w.blocked e.r e.cell
  else w

/-- The firing of an ordinary element: a null at a used position sends a null to each target (R21), and otherwise `f` gives the
result, its latency and flags. -/
def W.fire (w : W) (e : ERef) (u : Uses) (lat : Nat) (f : Elem → Ins → W → W) : W :=
  w.fireAny e u fun x i w => if i.anyNull then w.flyBoth e lat i.nullOut 0 else f x i w

/-! ## Landing -/

/-- The position a target names can take a token: empty, and not emptied on this very edge (R17); across islands the edge is one
that both patterns keep (R111); and its sector is awake (R117). A halyard line can when every listener can (R23, R301). -/
def W.canLand (w : W) (r : Nat) (t : Option Target) : Bool :=
  match t with
  | none => true
  | some g =>
    if g.pos = 3 then
      let l := w.line r g.cell
      l.held.isEmpty && l.listeners.all fun k => (tget l.pend k).isNone
    else
      let rg := w.region r
      let x := w.elem (erefOf g r)
      (x.inAt g.pos).isNone && decide (x.nextG ≤ w.now) && (rg.islandOf g.cell).kept w.now && w.awake rg g.cell

/-- Deliver a result at its target: a token at the position, or a pulse held by the line's driver, which lands on this very edge and carries the result's
reference or else the latest of the element's agent; a switch operator is part of none (R18, R83, R301). -/
def W.deliver (w : W) (e : ERef) (t : Option Target) (tok : Option Token) : W :=
  match t, tok with
  | some g, some tok =>
    if g.pos = 3 then
      let own := if isSwitchSlot e.slot then 0 else (w.cell e.r e.cell).latest
      let p : Pulse := { ref := (match tok.rel with | some r => r.ref | none => own), agent := w.elemAgent e
                         landed := w.now, landedNs := w.ns, lands := w.now
                         cov := match tok.rel with | some r => r.cov | none => {} }
      w.setLine e.r g.cell fun l => { l with held := l.held ++ [p] }
    else
      let w := w.stir (w.region e.r) g.cell
      w.setElem (erefOf g e.r) fun x => x.setIn g.pos (some (tok.land w.now w.ns))
  | _, _ => w

/-- The sectors that wait for a place of a die's in-rush arbiter. -/
def W.wakesWaiting (w : W) (die : Nat) : List Nat := (w.m.sectors.filter fun s => s.2.gate == 3 && s.2.upNs.isNone && s.1 / 160 == die).map (·.1)
/-- INRUSH_STAT.QUEUED follows them (R385). -/
def W.countWakes (w : W) (die : Nat) : W := w.setFld (Bar.inrushStat die) 7 0 (w.wakesWaiting die).length
/-- Ask for power at the sector of a site, if it is gated off (R117). -/
def W.wakeAt (w : W) (r cell : Nat) : W :=
  let s := siteSector (w.region r) cell
  if (w.sector s).gate = 2 then (w.setSector s fun x => { x with gate := 3, wakeNs := w.ns }).countWakes (s / 160) else w
/-- Ask for power at a gated sector that a token has reached: the token waits (R117). -/
def W.askWake (w : W) (r : Nat) (t : Option Target) : W :=
  match t with
  | some g => if g.pos = 3 then w else w.wakeAt r g.cell
  | none => w

/-- The flags of a landing result reach the island's word and the partition's SQ_FLAGS (R60). -/
def W.landFlags (w : W) (e : ERef) (f : Flags) : W :=
  if f = 0 then w
  else
    let g := w.region e.r
    let i := tgetD g.secIsl (regionSector e.cell) 0
    (w.setRegion e.r fun g => { g with isl := tmod g.isl i fun x => { x with flags := x.flags ||| f } }).orFlags g.part f

/-- The targets of a result: those of the word under which it was sent. -/
def Elem.flightA (x : Elem) (f : Flight) : Option Target := Target.ofBits (elemFields (f.via.getD x.word)).ta
def Elem.flightB (x : Elem) (f : Flight) : Option Target := Target.ofBits (elemFields (f.via.getD x.word)).tb

/-- RESULT_LAND (R18): the oldest result of an element, or the reconfiguration token behind its results (R314), lands once its edge has come and
both targets can take it. -/
def W.resultLand (w : W) (e : ERef) : W :=
  let g := w.region e.r
  let x := w.elem e
  if !w.onEdge g e.cell then w
  else
    match x.flights with
    | f :: rest =>
      if f.req.isNone && decide (f.due ≤ w.edgeOf g e.cell) then
        let ta := x.flightA f
        let tb := x.flightB f
        if (f.a.isNone || w.canLand e.r ta) && (f.b.isNone || w.canLand e.r tb) then
          let w := w.setElem e fun x => { x with flights := rest }
          let w := w.landFlags e f.flags
          let w := w.deliver e ta f.a
          w.deliver e tb f.b
        else (w.askWake e.r ta).askWake e.r tb
      else w
    | [] => w

/-! ## Requests to the loader (R312) -/

/-- A request joins those that wait, in the order in which they reached the loader, those of one cycle in ascending agent id. -/
def secInsert (x : SecReq) : List SecReq → List SecReq
  | [] => [x]
  | y :: t => if y.at' < x.at' ∨ (y.at' = x.at' ∧ y.agent ≤ x.agent) then y :: secInsert x t else x :: y :: t
/-- Ask the loader for a section. -/
def W.askSection (w : W) (r : Nat) (x : SecReq) : W := w.setRegion r fun g => { g with secQ := secInsert { x with at' := w.now } g.secQ }

end Sys2Proof.Machine
end

