-- ==== Sys2Proof/Machine/Halyard.lean ====
section
/-! DEFINITION. Sys2Proof/Machine/Halyard.lean: halyard lines, the STARTs of leaves and what they arm (02_execution_model.md R23 to R26,
R427; R301, R302). -/

namespace Sys2Proof.Machine

/-! ## Listeners (R23, R24)

A node listens under its element key, the counter chain of a head AG under its cell's slot 0, the region's primary sequencer on h1
under a key that no element has. -/

def seqListener : Nat := 999999
def headListener (cell : Nat) : Nat := ekey cell 0

/-- A pulse can be sent on a line: its driver holds none and every listener can take one. -/
def W.canPulse (w : W) (r h : Nat) : Bool :=
  let l := w.line r h
  l.held.isEmpty && l.listeners.all fun k => (tget l.pend k).isNone
/-- The driver of a line sends a pulse, with what it releases; it holds it until the line delivers it. -/
def W.pulse (w : W) (r h : Nat) (ref : W32) (agent : Nat) (cov : Cov := {}) : W :=
  w.setLine r h fun l => { l with held := l.held ++ [{ ref := ref, agent := agent, landed := w.now, landedNs := w.ns, lands := w.now + 1, cov := cov }] }
/-- The cell whose island is the region's controller island: the root's, which listens on h0 (R302; log 34). -/
def Region.ctlCell (g : Region) : Nat := ((tgetD g.lines 0 {}).listeners.headD 0) / 8
/-- The pulse that a listener can take on this edge: one that has landed (R302). -/
def W.pendingOn (w : W) (r h k : Nat) : Option Pulse := tget (w.line r h).pend k
/-- The pulse that a driver holds lands on this cycle: on an edge of the controller island after the one on which it was sent (R302); that of an element's result
lands as its result does (R301). -/
def W.pulseLands (w : W) (g : Region) (p : Pulse) : Bool :=
  decide (p.lands ≤ w.now) && (p.lands == p.landed || (g.islandOf g.ctlCell).kept w.now)
def W.takePulse (w : W) (r h k : Nat) : W := w.setLine r h fun l => { l with pend := tdel l.pend k }

/-! ## A START of a leaf -/

/-- The head AGs of the leaf started on a line, by cell. -/
def Region.heads (g : Region) (line : Nat) : List Nat := (g.cells.filter fun c => g.startLine c.1 == some line).map (·.1)
/-- The CNT slots of a cell. -/
def Region.cnts (g : Region) (cell : Nat) : List Nat := (List.range 6).filter fun s => (tgetD g.elems (ekey cell s) {}).opc == 0xA0
/-- The last-iteration CNT of a leaf (R26). -/
def Region.lastCnt (g : Region) (line : Nat) : Option Nat :=
  match g.heads line with
  | c :: _ => ((g.cnts c).head?).map (ekey c)
  | [] => none

/-- The memory cells of a leaf, which are its agents (R83). -/
def Region.leafCells (g : Region) (line : Nat) : List Nat := (((g.leaf line).map (· / 8)).filter fun c => siteKind c == 2).eraseDups
/-- A chain can take a START: no run in progress and, with P unnamed, no earlier START that it has not used (R246). -/
def Elem.idleCnt (x : Elem) : Bool := x.run.isNone && (!x.armed || x.names 2)

/-- What a START re-arms in an element of its leaf: CARRY, the base of AFF and GATH, RNGP's pulls and RDCP's count (R427), and a CNT. -/
def Elem.rearm (x : Elem) : Elem :=
  { x with armed := true, ended := false, seqNo := if x.opc = 0x8D then 0 else x.seqNo, count := if x.opc = 0xA5 then 0 else x.count, dryAt := none }

/-- The head AGs of a leaf take its START together: when each has the pulse, the leaf is not running, and every chain of theirs is idle, the
leaf's elements are armed and its done source knows the START's reference (R31). -/
def W.leafStart (w : W) (r line : Nat) : W :=
  let g := w.region r
  let heads := g.heads line
  let ps := heads.map fun c => w.pendingOn r line (headListener c)
  let ready := ps.all (·.isSome) && !tgetD g.leafBusy line false &&
    heads.all fun c => (g.cnts c).all fun s => (tgetD g.elems (ekey c s) {}).idleCnt
  if heads.isEmpty || !ready then w
  else
    let ref := match ps.head? with | some (some p) => p.ref | _ => 0
    let w := heads.foldl (fun w c => w.takePulse r line (headListener c)) w
    let leaf := g.leaf line
    -- the work of the leaf's agents is derived from the START (R88)
    let cov := ps.foldl (fun (c : Cov) p => match p with | some p => c.join p.cov | none => c) {}
    let w := (g.leafCells line).foldl (fun w c => w.gain (w.eyeOf (.elem r c 0)) cov) w
    let dones := g.doneOf line
    w.setRegion r fun g => { g with
      leafBusy := if dones.isEmpty then g.leafBusy else tput g.leafBusy line true
      elems := dones.foldl (fun t k => tmod t k fun x => { x with leafRef := ref, lastSeen := false })
        (leaf.foldl (fun t k => tmod t k Elem.rearm) g.elems) }

end Sys2Proof.Machine
end

