-- ==== Sys2Proof/Machine/Vector.lean ====
section
/-! DEFINITION. Sys2Proof/Machine/Vector.lean: the vector-cell instructions 0x01 to 0x36 (10_vector_elements.md R154 to R173,
11_lanes_functions_switches.md R178 to R183). -/

namespace Sys2Proof.Machine

/-- The positions of R154 and R174. -/
def useL : Uses := {}
def useLR : Uses := { r := true }
def useLP : Uses := { p := true }
def useLRP : Uses := { r := true, p := true }

/-- A lane-wise element instruction (R155): its format's width, whether its mode is SR, its latency, and the operation on the
packed elements; the result carries the marks of R156. -/
def vecOp (s : State) (fmt mode : Nat) (sr : Bool) (u : Uses) (lat : Nat) (op : Nat → ElemOp) : Res :=
  runElem s fun e w => w.fire e u lat fun x i w =>
    let w' := fmtWidth fmt
    let ts := ([i.l] ++ (if u.r then [i.r] else []) ++ (if u.p then [i.p] else [])).map fun t => t.policy x.empty x.k
    let (t, fl, lf) := laneWise w' (sr && mode == 5) x.lfsr ts (op w')
    (w.setElem e fun x => { x with lfsr := lf }).flyBoth e lat (i.mark t) fl

/-- An integer operation on one, two or three elements without flags (R159, R160). -/
def intOp (s : State) (f : EFields) (u : Uses) (op : Nat → List Nat → Nat) : Res :=
  vecOp s f.fmt.toNat 0 false u 1 fun w args _ => (op w args, 0)

/-- A saturating integer operation: the exact value, clamped (R44). -/
def satOp (s : State) (f : EFields) (op : Nat → Nat → List Nat → Int) : Res :=
  vecOp s f.fmt.toNat 0 false useLR 1 fun w args _ => satInt f.fmt.toNat w (op f.fmt.toNat w args)

/-- Operands a, b, c of a list. -/
def argA (l : List Nat) : Nat := l.getD 0 0
def argB (l : List Nat) : Nat := l.getD 1 0
def argC (l : List Nat) : Nat := l.getD 2 0

def execPass (f : EFields) (s : State) : Res := intOp s f useL fun _ l => argA l
def execVcAdd (f : EFields) (s : State) : Res := intOp s f useLR fun w l => wrapInt w ((argA l : Int) + argB l)
def execVcSub (f : EFields) (s : State) : Res := intOp s f useLR fun w l => wrapInt w ((argA l : Int) - argB l)
def execAdds (f : EFields) (s : State) : Res := satOp s f fun t w l => intVal t w (argA l) + intVal t w (argB l)
def execSubs (f : EFields) (s : State) : Res := satOp s f fun t w l => intVal t w (argA l) - intVal t w (argB l)
def execVcMul (f : EFields) (s : State) : Res :=
  intOp s f useLR fun w l => wrapInt w (intVal f.fmt.toNat w (argA l) * intVal f.fmt.toNat w (argB l))
def execVcMulh (f : EFields) (s : State) : Res :=
  intOp s f useLR fun w l => wrapInt w (intVal f.fmt.toNat w (argA l) * intVal f.fmt.toNat w (argB l) / 2 ^ w)
def execMad (f : EFields) (s : State) : Res :=
  intOp s f useLRP fun w l => wrapInt w (intVal f.fmt.toNat w (argA l) * intVal f.fmt.toNat w (argB l) + intVal f.fmt.toNat w (argC l))
/-- MIN and MAX by val (R159). -/
def minVal (fmt w a b : Nat) : Nat := if intVal fmt w b < intVal fmt w a then b else a
def maxVal (fmt w a b : Nat) : Nat := if intVal fmt w a < intVal fmt w b then b else a
def execVcMin (f : EFields) (s : State) : Res := intOp s f useLR fun w l => minVal f.fmt.toNat w (argA l) (argB l)
def execVcMax (f : EFields) (s : State) : Res := intOp s f useLR fun w l => maxVal f.fmt.toNat w (argA l) (argB l)
def execAbs (f : EFields) (s : State) : Res := intOp s f useL fun w l => wrapInt w (Int.natAbs (intVal f.fmt.toNat w (argA l)))
def execVcAnd (f : EFields) (s : State) : Res := intOp s f useLR fun _ l => argA l &&& argB l
def execVcOr (f : EFields) (s : State) : Res := intOp s f useLR fun _ l => argA l ||| argB l
def execVcXor (f : EFields) (s : State) : Res := intOp s f useLR fun _ l => argA l ^^^ argB l
def execAndn (f : EFields) (s : State) : Res := intOp s f useLR fun w l => argA l &&& (argB l ^^^ (2 ^ w - 1))

/-! Shifts and counts (R160): the count is u(b). -/

def execVcShl (f : EFields) (s : State) : Res := intOp s f useLR fun w l => if w ≤ argB l then 0 else argA l <<< argB l
def execVcShr (f : EFields) (s : State) : Res := intOp s f useLR fun w l => if w ≤ argB l then 0 else argA l >>> argB l
def execVcSar (f : EFields) (s : State) : Res :=
  intOp s f useLR fun w l => wrapInt w (sextNat w (argA l) / 2 ^ min (argB l) w)
def execRol (f : EFields) (s : State) : Res :=
  intOp s f useLR fun w l => (argA l <<< (argB l % w)) ||| (argA l >>> (w - argB l % w))
def clz (w a : Nat) : Nat := if a = 0 then w else w - 1 - Nat.log2 a
def popCount (w a : Nat) : Nat := ((List.range w).filter fun i => a.testBit i).length
def execClz (f : EFields) (s : State) : Res := intOp s f useL fun w l => clz w (argA l)
def execPopc (f : EFields) (s : State) : Res := intOp s f useL fun w l => popCount w (argA l)

/-- The CND comparison of two integer elements (R161). -/
def cmpInt (cnd w a b : Nat) : Bool :=
  let x := sextNat w a; let y := sextNat w b
  match cnd with
  | 0 => a == b
  | 1 => a != b
  | 2 => decide (x < y)
  | 3 => decide (x ≤ y)
  | 4 => decide (y < x)
  | 5 => decide (y ≤ x)
  | 6 => decide (a < b)
  | 7 => decide (a ≤ b)
  | 8 => decide (b < a)
  | _ => decide (b ≤ a)
def execCmp (f : EFields) (s : State) : Res :=
  intOp s f useLR fun w l => if cmpInt f.mod.toNat w (argA l) (argB l) then 1 else 0
def execSel (f : EFields) (s : State) : Res := intOp s f useLRP fun _ l => if argC l ≠ 0 then argA l else argB l
def execClamp (f : EFields) (s : State) : Res :=
  intOp s f useLRP fun w l => minVal f.fmt.toNat w (maxVal f.fmt.toNat w (argA l) (argB l)) (argC l)

/-- A conversion element (R163, R178). -/
def convOp (s : State) (src dst h mode : Nat) (sr : Bool) (lat : Nat) (op : ElemOp) : Res :=
  runElem s fun e w => w.fire e useL lat fun x i w =>
    let t := i.l.policy x.empty x.k
    let (r, fl, lf) := laneConvert (fmtWidth src) (fmtWidth dst) h (sr && mode == 5) x.lfsr t t.emptyAt op
    (w.setElem e fun x => { x with lfsr := lf }).flyBoth e lat (i.mark r) fl

def execNarrow (f : EFields) (s : State) : Res :=
  convOp s f.lo4 f.fmt.toNat 0 0 false 1 fun l _ =>
    satInt f.fmt.toNat (fmtWidth f.fmt.toNat) (intVal f.lo4 (fmtWidth f.lo4) (argA l))
def execWiden (f : EFields) (s : State) : Res :=
  convOp s f.lo4 f.fmt.toNat f.hi4 0 false 1 fun l _ =>
    satInt f.fmt.toNat (fmtWidth f.fmt.toNat) (intVal f.lo4 (fmtWidth f.lo4) (argA l))

/-- Bit-field extract (R164). -/
def bfx (fmt w p a width : Nat) : Nat :=
  let m := min width (w - p)
  if m = 0 then 0 else wrapInt w (intVal fmt m (a >>> p % 2 ^ m))
/-- Bit-field insert (R164). -/
def bfi (w p a b width : Nat) : Nat :=
  let m := min width (w - p)
  a - (a >>> p % 2 ^ m) <<< p + (b % 2 ^ m) <<< p
def execBfx (f : EFields) (s : State) : Res := intOp s f useLR fun w l => bfx f.fmt.toNat w f.imm.toNat (argA l) (argB l)
def execBfi (f : EFields) (s : State) : Res := intOp s f useLRP fun w l => bfi w f.imm.toNat (argA l) (argB l) (argC l)

/-! Floating point (R165 to R173). -/

/-- A floating-point element instruction: format, mode and latency. -/
def fpOp (s : State) (f : EFields) (u : Uses) (lat : Nat) (rnd : Bool) (op : Fmt → Nat → ElemOp) : Res :=
  vecOp s f.fmt.toNat f.mod.toNat rnd u lat fun _ => op (Fmt.ofCode f.fmt.toNat) f.mod.toNat

def execFadd (f : EFields) (s : State) : Res := fpOp s f useLR 3 true fun t m l r => faddF t m r false (argA l) (argB l)
def execFsub (f : EFields) (s : State) : Res := fpOp s f useLR 3 true fun t m l r => faddF t m r true (argA l) (argB l)
def execFmul (f : EFields) (s : State) : Res := fpOp s f useLR 3 true fun t m l r => fmulF t m r (argA l) (argB l)
def execFma (f : EFields) (s : State) : Res :=
  fpOp s f useLRP 3 true fun t m l r => fmaF t m r false false (argA l) (argB l) (argC l)
def execFms (f : EFields) (s : State) : Res :=
  fpOp s f useLRP 3 true fun t m l r => fmaF t m r false true (argA l) (argB l) (argC l)
def execFnma (f : EFields) (s : State) : Res :=
  fpOp s f useLRP 3 true fun t m l r => fmaF t m r true false (argA l) (argB l) (argC l)
def execFmin (f : EFields) (s : State) : Res := fpOp s f useLR 1 false fun t _ l _ => fminmax t false (argA l) (argB l)
def execFmax (f : EFields) (s : State) : Res := fpOp s f useLR 1 false fun t _ l _ => fminmax t true (argA l) (argB l)
/-- FABS and FNEG (R168): a NaN gives the canonical NaN. -/
def signOp (t : Fmt) (a : Nat) (g : Nat → Nat) : Nat × Flags :=
  match Fv.ofCode t a with
  | .nan sg => (t.nan, Flags.when sg Flags.nv)
  | _ => (g a, 0)
def execFabs (f : EFields) (s : State) : Res :=
  fpOp s f useL 1 false fun t _ l _ => signOp t (argA l) fun a => a % 2 ^ (t.eb + t.mb)
def execFneg (f : EFields) (s : State) : Res :=
  fpOp s f useL 1 false fun t _ l _ => signOp t (argA l) fun a => a ^^^ 2 ^ (t.eb + t.mb)
def execFcmp (f : EFields) (s : State) : Res := fpOp s f useLR 1 false fun t m l _ => fcmp t m (argA l) (argB l)
def execFclass (f : EFields) (s : State) : Res := fpOp s f useL 1 false fun t _ l _ => (fclass t (argA l), 0)
def execRcp (f : EFields) (s : State) : Res := fpOp s f useL 4 true fun _ m l r => rcp f.fmt.toNat m r (argA l)
def execRsq (f : EFields) (s : State) : Res := fpOp s f useL 4 true fun _ m l r => rsq f.fmt.toNat m r (argA l)
def execFscale (f : EFields) (s : State) : Res := fpOp s f useLR 3 true fun t m l r => fscale t m r (argA l) (argB l)
def execFrint (f : EFields) (s : State) : Res := fpOp s f useL 3 true fun t m l r => frint t m r (argA l)

/-! Conversions and quantisation (R178 to R183). -/

def execFcvt (f : EFields) (s : State) : Res :=
  convOp s f.lo4 f.fmt.toNat f.hi4 f.mod.toNat true 3 fun l r =>
    fcvt (Fmt.ofCode f.lo4) (Fmt.ofCode f.fmt.toNat) f.mod.toNat r (argA l)
def execFtoi (f : EFields) (s : State) : Res :=
  convOp s f.lo4 f.fmt.toNat f.hi4 f.mod.toNat true 3 fun l r =>
    ftoi (Fmt.ofCode f.lo4) f.fmt.toNat (fmtWidth f.fmt.toNat) f.mod.toNat r (argA l)
def execItof (f : EFields) (s : State) : Res :=
  convOp s f.lo4 f.fmt.toNat f.hi4 f.mod.toNat true 3 fun l r =>
    roundTo (Fmt.ofCode f.fmt.toNat) f.mod.toNat r (Ex.ofInt (intVal f.lo4 (fmtWidth f.lo4) (argA l)))

/-- QNT of R180 for one element: a × s to E4M3, E5M2 or I8 without overflow. -/
def qnt (src dst mode r : Nat) (scale : W32) (a : Nat) : Nat × Flags :=
  let x := Fv.ofCode (Fmt.ofCode src) a
  let y := Fv.ofCode (Fmt.ofCode 0) scale.toNat
  let (p, inv) := x.mul y
  let nv := Flags.when (inv || x.isSig || y.isSig) Flags.nv
  if dst = 8 then
    match p with
    | .nan _ => (0, Flags.nv)
    | .inf n => (wrapInt 8 (if n then -128 else 127), Flags.sat)
    | .num v =>
      let (k, inexact) := roundInt mode r v
      if k < -128 then (wrapInt 8 (-128), Flags.sat)
      else if 127 < k then (127, Flags.sat)
      else (wrapInt 8 k, Flags.when inexact Flags.nx)
  else
    let d := Fmt.ofCode dst
    match p with
    | .nan _ => (d.nan, nv)
    | .inf n => (d.signBit n + d.maxCode, 0)
    | .num v =>
      let (c, fl) := roundTo d mode r v
      if fl &&& Flags.of = 0 then (c, fl) else (d.signBit v.neg + d.maxCode, fl)

/-- The F32 scale in lane 0 of R for QNT and DQNT; none when it is empty under FORWARD or ABSORB (R180). -/
def scaleLane (x : Elem) (r : Token) : Option W32 :=
  let t := r.policy x.empty x.k
  if t.emptyAt 0 then none else some (t.lane 0)

def execQnt (f : EFields) (s : State) : Res :=
  runElem s fun e w => w.fire e useLR 3 fun x i w =>
    let t := i.l.policy x.empty x.k
    let sc := scaleLane x i.r
    let (r, fl, lf) := laneConvert (fmtWidth f.lo4) (fmtWidth f.fmt.toNat) 0 (f.mod == 5) x.lfsr t
      (fun l => sc.isNone || t.emptyAt l) fun l r => qnt f.lo4 f.fmt.toNat f.mod.toNat r (sc.getD 0) (argA l)
    (w.setElem e fun x => { x with lfsr := lf }).flyBoth e 3 (i.mark r) fl

/-- DQNT of one element by an exact factor (a block scale, or 1) and the F32 scale, rounded once (R182). -/
def dqnt (dst mode r : Nat) (x : Fv) (blk : Ex) (scale : W32) : Nat × Flags :=
  let y := Fv.ofCode (Fmt.ofCode 0) scale.toNat
  let (p, inv) := (match x with | .num v => (Fv.num (v.mul blk)) | o => o).mul y
  finish (Fmt.ofCode dst) mode r (p, inv) (x.isSig || y.isSig)

/-- The next state of a burst (R78): the tokens collected, whether it is complete, or a break. -/
inductive Burst where
  | more (ts : List Token)
  | whole (ts : List Token)
  | broken
deriving Repr

/-- Take one token into a burst of n tokens (R78). -/
def burstTake (opened : Bool) (buf : List Token) (n : Nat) (t : Token) : Burst :=
  if t.head == opened then .broken
  else
    let ts := (if t.head then [] else buf) ++ [t]
    if t.tail then (if ts.length = n then .whole ts else .broken)
    else if n ≤ ts.length then .broken
    else .more ts

/-- The 96 bytes of a Q4 row from its two tokens, and which bytes stand in an empty lane (R39). -/
def q4Bytes (h t : Token) : Nat :=
  h.data.toNat % 2 ^ 504 + 2 ^ 504 * (t.data.toNat % 2 ^ 264)
def q4ByteEmpty (h t : Token) (b : Nat) : Bool := if b < 63 then h.emptyAt (b / 4) else t.emptyAt ((b - 63) / 4)
/-- Block b of a row: its 24 bits, and whether it is empty (R39). -/
def q4Block (h t : Token) (b : Nat) : Nat := q4Bytes h t / 2 ^ (24 * b) % 2 ^ 24
def q4Empty (h t : Token) (b : Nat) : Bool := q4ByteEmpty h t (3 * b) || q4ByteEmpty h t (3 * b + 1) || q4ByteEmpty h t (3 * b + 2)
/-- The two tokens of a row given by its blocks; lanes that hold a bit of an empty block are empty. -/
def q4Tokens (blocks : List Nat) (empty : Nat → Bool) : Token × Token :=
  let row := packElems 24 blocks
  let laneEmpty (first n l : Nat) : Bool := (List.range 4).any fun k => decide (4 * l + k < n) && empty ((first + 4 * l + k) / 3)
  ({ data := BitVec.ofNat 512 (row % 2 ^ 504), empty := mask16 (laneEmpty 0 63) },
   { data := BitVec.ofNat 512 (row / 2 ^ 504), empty := mask16 (laneEmpty 63 33) })

/-- What a burst consumer does with the token at its L: the burst's own tokens stand in the buffer, behind the token of R that its first token took, if it uses R. -/
def Elem.burst (x : Elem) (useR : Bool) (n : Nat) (t : Token) : Burst := burstTake x.opened (if useR then x.buf.drop 1 else x.buf) n t

/-- A consumer of bursts at L in a VC (QNT4, DQNT.Q4): collects a burst of n tokens, then emits `outs` results; a break raises 0x201 (R177, R201). DESIGN CHOICE:
R181 and R182 give no latency for the null that a null makes: it is 1 island cycle, also inside an open burst, which stays open (R176; log 21); and DQNT takes its one
token of R a row with the row's first token (log 84). -/
def burstOp (s : State) (useR : Bool) (n outs lat : Nat) (emit : Elem → Token → List Token → List Token × Flags × W32) : Res :=
  runElem s fun e w =>
    w.fireAny e { l := true, r := useR && !(w.elem e).opened } (fun x i w =>
      let r := if x.opened then x.buf.headD {} else i.r
      let held := if useR then [r] else []
      if i.anyNull then w.flyBoth e 1 i.nullOut 0
      else match x.burst useR n i.l with
        | .broken => w.raiseElem e 0x201 0 (some i.l)
        | .more ts => w.setElem e fun x => { x with opened := true, buf := held ++ ts }
        | .whole ts =>
          let (out, fl, lf) := emit x r ts
          -- of tokens that landed on one edge R comes before L (R156)
          let all := ts ++ if useR && (x.opened || i.rT) then held else []
          (w.setElem e fun x => { x with opened := false, buf := [], lfsr := lf }).flyBurst e lat
            (out.map fun t => { t with rel := relOf all, last := all.any (·.last), log := all.findSome? (·.log) }) fl)
      fun x i => if i.anyNull then (1, 1) else match x.burst useR n i.l with | .whole _ => (outs, lat) | _ => (0, 0)

/-- The smallest finite UE5M3 code whose value S has 6 × S ≥ amax, or 0xFE (R181). -/
def q4Scale (amax : Ex) : Nat :=
  ((List.range 255).find? fun c => match ue5m3 c with
    | some v => amax.magLe { v with num := 6 * v.num }
    | none => false).getD 0xFE

/-- One block of QNT4 (R181): elements as data, none for one that is left out; the 24 bits and the flags. -/
def q4Encode (mode : Nat) (xs : List (Option Fv × Nat)) : Nat × Flags :=
  let vs := xs.filterMap (·.1)
  if vs.any (·.isNan) then (0xFF, Flags.when (vs.any (·.isSig)) Flags.nv)
  else
    let inf := vs.any fun v => match v with | .inf _ => true | _ => false
    let amax : Ex := vs.foldl (fun m v => match v with | .num y => if m.magLt y then { y with neg := false } else m | _ => m) ⟨false, 0, 1⟩
    if amax.isZero && !inf then
      (packFields [(8, 0), (16, packElems 4 (xs.map fun x => match x.1 with | some v => if v.neg then 8 else 0 | none => 0))], 0)
    else
      let c := if inf then 0xFE else q4Scale amax
      let sc := (ue5m3 c).getD ⟨false, 1, 1⟩
      let codes := xs.map fun x => match x.1 with
        | some (.inf n) => ((if n then 15 else 7), (0 : Flags))
        | some (.num y) => toE2m1 mode x.2 ⟨y.neg, y.num * sc.den, y.den * sc.num⟩
        | _ => (0, 0)
      (packFields [(8, c), (16, packElems 4 (codes.map (·.1)))], codes.foldl (fun f x => f ||| x.2) 0)

/-- LFSR low halves for n steps, and the state after them. -/
def lfsrRun (sr : Bool) : Nat → W32 → List Nat × W32
  | 0, s => ([], s)
  | n + 1, s =>
    let s' := if sr then lfsrStep s else s
    let (l, z) := lfsrRun sr n s'
    (s'.toNat % 2 ^ 16 :: l, z)

/-- QNT4 (R181). -/
def execQnt4 (f : EFields) (s : State) : Res :=
  let src := f.lo4
  let n := perLane src
  burstOp s false (8 / n) 2 4 fun x _ ts =>
    let ts := ts.map fun t => t.policy x.empty x.k
    let (rs, lf) := lfsrRun (f.mod == 5) 128 x.lfsr
    let el (i : Nat) : Token × Nat := (ts.getD (i / (16 * n)) {}, i % (16 * n))
    let isE (i : Nat) : Bool := (el i).1.emptyAt ((el i).2 / n)
    let val (i : Nat) : Option Fv × Nat :=
      (if isE i then none else some (Fv.ofCode (Fmt.ofCode src) (elemAt (32 / n) (el i).1.data (el i).2)), rs.getD i 0)
    let blk (b : Nat) : Bool := if x.empty = 1 then (List.range 4).all fun j => isE (4 * b + j) else (List.range 4).any fun j => isE (4 * b + j)
    let enc := (List.range 32).map fun b =>
      if blk b then (0, (0 : Flags)) else q4Encode f.mod.toNat ((List.range 4).map fun j => val (4 * b + j))
    let (h, t) := q4Tokens (enc.map (·.1)) blk
    ([h, t], enc.foldl (fun a y => a ||| y.2) 0, lf)

/-- DQNT (R182): the 8-bit sources lane by lane, and a Q4 row as a burst. -/
def execDqnt (f : EFields) (s : State) : Res :=
  let one : Ex := ⟨false, 1, 1⟩
  if f.lo4 ≠ 5 then
    runElem s fun e w => w.fire e useLR 3 fun x i w =>
      let t := i.l.policy x.empty x.k
      let sc := scaleLane x i.r
      let v (a : Nat) : Fv := if f.lo4 = 8 then .num (Ex.ofInt (sextNat 8 a)) else Fv.ofCode (Fmt.ofCode f.lo4) a
      let (r, fl, lf) := laneConvert (fmtWidth f.lo4) (fmtWidth f.fmt.toNat) f.hi4 (f.mod == 5) x.lfsr t
        (fun l => sc.isNone || t.emptyAt l) fun l r => dqnt f.fmt.toNat f.mod.toNat r (v (argA l)) one (sc.getD 0)
      (w.setElem e fun x => { x with lfsr := lf }).flyBoth e 3 (i.mark r) fl
  else
    let n := perLane f.fmt.toNat
    burstOp s true 2 (8 / n) 3 fun x r ts =>
      let h := ts.getD 0 {}
      let t := ts.getD 1 {}
      let sc := scaleLane x r
      let (rs, lf) := lfsrRun (f.mod == 5) 128 x.lfsr
      let el (j : Nat) : Bool × Nat × Flags :=
        let b := j / 4
        if q4Empty h t b then
          if x.empty = 2 then (false, elemAt (32 / n) (constToken x.k).data (j % (16 * n)), 0) else (true, 0, 0)
        else match sc, ue5m3 (q4Block h t b % 256) with
          | none, _ => (true, 0, 0)
          | some _, none => (false, (Fmt.ofCode f.fmt.toNat).nan, 0)
          | some z, some v =>
            let (c, fl) := dqnt f.fmt.toNat f.mod.toNat (rs.getD j 0) (.num (e2m1 (q4Block h t b / 2 ^ (8 + 4 * (j % 4)) % 16))) v z
            (false, c, fl)
      let all := (List.range 128).map el
      let tok (k : Nat) : Token :=
        let mine := (all.drop (16 * n * k)).take (16 * n)
        { data := BitVec.ofNat 512 (packElems (32 / n) (mine.map (·.2.1))),
          empty := mask16 fun l => ((mine.drop (n * l)).take n).any (·.1) }
      ((List.range (8 / n)).map tok, all.foldl (fun a y => a ||| y.2.2) 0, lf)

/-- AMAX (R183): the largest magnitude over the contributing lanes, in every element. -/
def execAmax (f : EFields) (s : State) : Res :=
  runElem s fun e w => w.fire e useL 2 fun x i w =>
    let t := i.l.policy x.empty x.k
    let fm := Fmt.ofCode f.fmt.toNat
    let n := perLane f.fmt.toNat
    let lanesIn := (List.range 16).filter fun l => !t.emptyAt l
    let els := (lanesIn.flatMap fun l => (List.range n).map fun j => elemAt (32 / n) t.data (l * n + j)).map fun c => (c, Fv.ofCode fm c)
    let sg := els.any (·.2.isSig)
    let best := els.foldl (fun m y => if Fv.lt (Fv.ofCode fm m) y.2.abs then y.1 % 2 ^ (fm.eb + fm.mb) else m) 0
    let v := if els.any (·.2.isNan) then fm.nan else best
    let emptyAll := lanesIn.isEmpty || (x.empty = 0 && t.empty != 0)
    let r : Token := { data := BitVec.ofNat 512 (packElems (32 / n) (List.replicate (16 * n) (if emptyAll then 0 else v))),
                       empty := mask16 fun _ => emptyAll }
    w.flyBoth e 2 (i.mark r) (Flags.when (sg && !emptyAll) Flags.nv)

end Sys2Proof.Machine
end

