-- ==== Sys2Proof/Machine/Lanes.lean ====
section
/-! DEFINITION. Sys2Proof/Machine/Lanes.lean: the cross-lane group, the function cells, token control and the switch operators
(11_lanes_functions_switches.md R184 to R200). -/

namespace Sys2Proof.Machine

/-! ## Cross-lane instructions -/

/-- A token whose lane l is f l: none for an empty lane. -/
def laneToken (f : Nat → Option Nat) : Token :=
  { data := lanes fun l => (f l).getD 0, empty := mask16 fun l => (f l).isNone }

/-- Lane l of a token, none when it is empty. -/
def Token.laneOpt (t : Token) (l : Nat) : Option Nat := if t.emptyAt l then none else some (t.lane l).toNat

/-- A lane mover: the result lanes from L, R (policy applied) and the constant word; no flag (R184). -/
def moveOp (s : State) (u : Uses) (g : Nat → Token → Token → Nat → Option Nat) : Res :=
  runElem s fun e w => w.fire e u 1 fun x i w =>
    w.flyBoth e 1 (i.mark (laneToken (g x.k.toNat (i.l.policy x.empty x.k) (i.r.policy x.empty x.k)))) 0

def execLshup (f : EFields) (s : State) : Res :=
  moveOp s useL fun k l _ j => if j < f.imm.toNat then some k else l.laneOpt (j - f.imm.toNat)
def execLshdn (f : EFields) (s : State) : Res :=
  moveOp s useL fun k l _ j => if 15 - f.imm.toNat < j then some k else l.laneOpt (j + f.imm.toNat)
def execLbcst (f : EFields) (s : State) : Res := moveOp s useL fun _ l _ _ => l.laneOpt (f.imm.toNat % 16)
def execLperm (f : EFields) (s : State) : Res :=
  moveOp s useLR fun k l r j =>
    match r.laneOpt j with
    | none => none
    | some v => if v % 32 < 16 then l.laneOpt (v % 32) else if f.imm = 0 then none else some k

/-- combine of R185 and R186 for sums: round(a + b) under MOD, or wrap. -/
def sumStep (f : EFields) (a b : Nat) : Nat × Flags :=
  let t := f.fmt.toNat
  if t ≤ 2 then faddF (Fmt.ofCode t) f.mod.toNat 0 false a b else ((a + b) % 2 ^ fmtWidth t, 0)
/-- combine of R185 for LRMAX and LRMIN. -/
def pickStep (f : EFields) (max : Bool) (a b : Nat) : Nat × Flags :=
  let t := f.fmt.toNat
  if t ≤ 2 then fminmax (Fmt.ofCode t) max a b
  else (if max then maxVal t (fmtWidth t) a b else minVal t (fmtWidth t) a b, 0)

/-- One level of R185's tree; an absent leaf contributes nothing. -/
def treeLevel (op : Nat → Nat → Nat × Flags) : List (Option Nat) → List (Option Nat) × Flags
  | a :: b :: t =>
    let (rest, fl) := treeLevel op t
    match a, b with
    | some x, some y => let (v, g) := op x y; (some v :: rest, fl ||| g)
    | some x, none => (some x :: rest, fl)
    | none, y => (y :: rest, fl)
  | l => (l, 0)

/-- n levels. -/
def treeFold (op : Nat → Nat → Nat × Flags) : Nat → List (Option Nat) → List (Option Nat) × Flags
  | 0, l => (l, 0)
  | n + 1, l =>
    let (l, a) := treeLevel op l
    let (l, b) := treeFold op n l
    (l, a ||| b)

/-- The packed elements of a token in index order, none for one of an empty lane (R38). -/
def Token.elems (t : Token) (w : Nat) : List (Option Nat) :=
  (List.range (16 * (32 / w))).map fun i => if t.emptyAt (i / (32 / w)) then none else some (elemAt w t.data i)

/-- A reduction (R185): FORWARD empties the result if a lane is empty; ABSORB leaves empty lanes out, with 0 in their place where
the identity is 0, and gives an empty result when no lane is full (R22). -/
def reduceOp (s : State) (f : EFields) (zero : Bool) (op : Nat → Nat → Nat × Flags) : Res :=
  runElem s fun e w => w.fire e useL 2 fun x i w =>
    let t := i.l.policy x.empty x.k
    let wd := fmtWidth f.fmt.toNat
    let gone := t.empty == 0xFFFF || (x.empty == 0 && t.empty != 0)
    let ls := (t.elems wd).map fun o => if zero then some (o.getD 0) else o
    let (r, fl) := treeFold op (Nat.log2 ls.length) ls
    let v := (r.headD none).getD 0
    let out : Token := if gone then { empty := 0xFFFF } else { data := BitVec.ofNat 512 (packElems wd (List.replicate ls.length v)) }
    w.flyBoth e 2 (i.mark out) (if gone then 0 else fl)

def execLradd (f : EFields) (s : State) : Res := reduceOp s f true (sumStep f)
def execLrmax (f : EFields) (s : State) : Res := reduceOp s f false (pickStep f true)
def execLrmin (f : EFields) (s : State) : Res := reduceOp s f false (pickStep f false)

/-- LSCAN's doubling steps with distance d, fuel levels of them; `full i` says whether element i's result lane is full, and only
those raise flags. -/
def scanSteps (op : Nat → Nat → Nat × Flags) (full : Nat → Bool) : Nat → Nat → List Nat → List Nat × Flags
  | 0, _, l => (l, 0)
  | n + 1, d, l =>
    let st := (List.range l.length).map fun i =>
      if i < d then (l.getD i 0, (0 : Flags))
      else
        let (v, g) := op (l.getD i 0) (l.getD (i - d) 0)
        (v, if full i then g else 0)
    let (r, fl) := scanSteps op full n (2 * d) (st.map (·.1))
    (r, st.foldl (fun a y => a ||| y.2) fl)

/-- LSCAN (R186). -/
def execLscan (f : EFields) (s : State) : Res :=
  runElem s fun e w => w.fire e useL 2 fun x i w =>
    let t := i.l.policy x.empty x.k
    let wd := fmtWidth f.fmt.toNat
    let n := 32 / wd
    let hole (l : Nat) : Bool :=
      if x.empty = 0 then (List.range (l + 1)).any fun j => t.emptyAt j else (List.range (l + 1)).all fun j => t.emptyAt j
    let ls := (t.elems wd).map (·.getD 0)
    let (r, fl) := scanSteps (sumStep f) (fun j => !hole (j / n)) (Nat.log2 ls.length) 1 ls
    let d := BitVec.ofNat 512 (packElems wd r)
    let raw : Token := { data := d, empty := mask16 hole }
    w.flyBoth e 2 (i.mark (laneToken raw.laneOpt)) fl

/-- LMASK (R187). -/
def execLmask (f : EFields) (s : State) : Res :=
  runElem s fun e w => w.fire e useLR 1 fun _ i w =>
    let sel (l : Nat) : Bool := (!i.r.emptyAt l && i.r.lane l != 0) != f.imm.getLsbD 0
    let out (l : Nat) : Option Nat :=
      if !sel l then none else if f.imm.getLsbD 1 then some ((i.l.laneOpt l).getD 0) else i.l.laneOpt l
    w.flyBoth e 1 (i.mark (laneToken out)) 0

/-- Only what a token's marks say: what LPACK and COUNT keep of a token whose content they have taken in. -/
def Token.marksOnly (t : Token) : Token := { rel := t.rel, last := t.last, log := t.log, landed := t.landed, landedNs := t.landedNs }
/-- The marks kept so far and those of a token. -/
def keepMarks (buf : List Token) (t : Token) : List Token :=
  buf ++ (if t.rel.isSome || t.last || t.log.isSome then [t.marksOnly] else [])
/-- A result with the marks of every token it was made from (R26, R156). -/
def Token.withMarks (t : Token) (ms : List Token) : Token :=
  { t with rel := relOf ms, last := ms.any (·.last), log := ms.findSome? (·.log) }

/-- What LPACK makes of a data token: the results that it sends, without marks, and what stays in its buffer: it appends the low g elements of each full lane, sends
each full buffer, and flushes at a tail. -/
def Elem.lpack (x : Elem) (f : EFields) (l : Token) : List Token × List Nat :=
  let t := l.policy x.empty x.k
  let wd := fmtWidth f.fmt.toNat
  let n := 32 / wd
  let cap := 16 * n
  let got := (List.range 16).flatMap fun l =>
    if t.emptyAt l then [] else (List.range (min f.imm.toNat n)).map fun j => elemAt wd t.data (l * n + j)
  let all := x.pack ++ got
  let mk (l : List Nat) : Token := { data := BitVec.ofNat 512 (packElems wd l), empty := mask16 fun j => decide (l.length ≤ n * j) }
  let full := if cap ≤ all.length then [mk (all.take cap)] else []
  let rest := if cap ≤ all.length then all.drop cap else all
  (if l.tail then (if rest ≠ [] then full ++ [mk rest] else if full ≠ [] then full else [mk []]) else full, rest)

/-- LPACK (R188). What stays in the buffer after a full one has been sent is the last token's, and so are its marks (R90). -/
def execLpack (f : EFields) (s : State) : Res :=
  runElem s fun e w => w.fireAny e useL (fun x i w =>
    if i.l.null then w.flyBoth e 1 i.nullOut 0
    else
      let (outs, rest) := x.lpack f i.l
      let ms := keepMarks x.buf i.l
      let k := outs.length
      let outs := ((List.range k).zip outs).map fun (j, o) =>
        let o := o.withMarks ms
        { o with head := x.headDue && j == 0, tail := i.l.tail && j + 1 == k, last := o.last && j + 1 == k }
      let w := w.setElem e fun x =>
        { x with
          pack := if i.l.tail then [] else rest, headDue := i.l.tail || (x.headDue && k == 0),
          buf := if k = 0 then ms else if i.l.tail || rest.isEmpty then [] else (keepMarks [] i.l).map fun m => { m with last := false } }
      ((List.range k).zip outs).foldl (fun w (j, o) => w.fly e (1 + j) (some o) (some o) 0) w)
    fun x i => (if i.l.null then 1 else (x.lpack f i.l).1.length, 1)

/-! ## Function cells -/

/-- Entry i of table T of an FC's table store (R139, R189): slope and intercept. -/
def tableKey (cell t i : Nat) : Nat := cell * 512 + t * 256 + i
def W.pwlEntry (w : W) (e : ERef) (t i : Nat) : Nat × Nat :=
  let v := tgetD (w.region e.r).tables (tableKey e.cell t i) 0
  (field v 31 0, field v 63 32)

/-- The table index of PWL (R189). -/
def pwlIndex (mode : Nat) (k : W32) (x : Fv) : Nat :=
  match mode with
  | 0 =>
    let e0 := sextNat 8 (field k 7 0)
    let sg := if x.neg then 128 else 0
    match x with
    | .num v =>
      if v.magLt (Ex.scaled false 1 e0) then sg
      else
        let d := (v.log2 - e0).toNat
        let code := (roundTo (Fmt.ofCode 0) 0 0 v).1
        sg + 8 * min d 15 + (if 15 < d then 7 else code / 2 ^ 20 % 8)
    | _ => sg + 8 * 15 + 7
  | _ =>
    match x with
    | .num v =>
      let n := Ex.floor { v with num := v.num * 256 }
      if n < 0 then 0 else min n.toNat 255
    | .inf n => if n then 0 else 255
    | .nan _ => 0

/-- PWL (R190) for one element. -/
def pwl (f : EFields) (k : W32) (entry : Nat → Nat × Nat) (a r : Nat) : Nat × Flags :=
  let t := Fmt.ofCode f.fmt.toNat
  let x := Fv.ofCode t a
  let (sl, ic) := entry (pwlIndex (field f.imm 2 1) k x)
  let sl := Fv.ofCode (Fmt.ofCode 0) sl
  let ic := Fv.ofCode (Fmt.ofCode 0) ic
  match x with
  | .nan sg => (t.nan, Flags.when sg Flags.nv)
  | .inf n =>
    if sl.isZero then ((ic.round t f.mod.toNat r).1, 0)
    else if sl.isNan then (t.nan, 0)
    else (t.signBit (n != sl.neg) + t.infCode, 0)
  | .num _ =>
    let (p, inv) := sl.mul x
    let (z, inv2) := Fv.add (f.mod == 2) p ic
    finish t f.mod.toNat r (if inv then .nan false else z, inv || inv2) (sl.isSig || ic.isSig)

def execPwl (f : EFields) (s : State) : Res :=
  runElem s fun e w => w.fire e useL 2 fun x i w =>
    let entry := w.pwlEntry e (f.imm.toNat % 2)
    let (t, fl, lf) := laneWise (fmtWidth f.fmt.toNat) (f.mod == 5) x.lfsr [i.l.policy x.empty x.k]
      fun l r => pwl f x.k entry (argA l) r
    (w.setElem e fun x => { x with lfsr := lf }).flyBoth e 2 (i.mark t) fl

/-- RRED (R191) for one element: f and n. -/
def rred (fmt kind a : Nat) : Nat × Nat :=
  let t := Fmt.ofCode fmt
  let wd := fmtWidth fmt
  match Fv.ofCode t a with
  | .num v =>
    if kind = 0 then
      let n := v.floor
      let fr := v.add (Ex.ofInt (-n))
      let (c, fl) := roundTo t 0 0 { fr with neg := false }
      (if fl &&& Flags.nx = 0 then c else Config.rredFrac fmt a % 2 ^ wd, (satInt (if wd = 32 then 6 else 7) wd n).1)
    else if v.isZero || v.neg then (0, 0)
    else
      let n := v.log2
      let m := v.mul (Ex.scaled false 1 (-n))
      ((roundTo t 0 0 (m.add (Ex.ofInt (-1)))).1 % 2 ^ (wd - 1), wrapInt wd n)
  | _ => (0, 0)

def execRred (f : EFields) (s : State) : Res :=
  runElem s fun e w => w.fire e useL 2 fun x i w =>
    let t := i.l.policy x.empty x.k
    let wd := fmtWidth f.fmt.toNat
    let kind := f.imm.toNat % 2
    let (a, _, lf) := laneWise wd (f.mod == 5) x.lfsr [t] fun l _ => ((rred f.fmt.toNat kind (argA l)).1, 0)
    let (b, _, _) := laneWise wd false x.lfsr [t] fun l _ => ((rred f.fmt.toNat kind (argA l)).2, 0)
    (w.setElem e fun x => { x with lfsr := lf }).fly e 2 (some (i.mark a)) (some (i.mark b)) 0

/-- RCOMB (R192) for one element: y, n and x. -/
def rcomb (fmt kind mode r y n x : Nat) : Nat × Flags :=
  let t := Fmt.ofCode fmt
  let wd := fmtWidth fmt
  let yv := Fv.ofCode t y
  let k := sextNat wd n
  let xv := Fv.ofCode t x
  match xv with
  | .nan sg => (t.nan, Flags.when sg Flags.nv)
  | .inf neg => if kind = 0 then (if neg then 0 else t.infCode, 0) else if neg then (t.nan, Flags.nv) else (t.infCode, 0)
  | .num v =>
    if kind = 0 then
      let k := if k < -1024 then -1024 else if 1024 < k then 1024 else k
      finish t mode r (yv.mul (.num (Ex.scaled false 1 k))) yv.isSig
    else if v.isZero then (t.signBit true + t.infCode, Flags.dz)
    else if v.neg then (t.nan, Flags.nv)
    else finish t mode r (Fv.add (mode == 2) (.num (Ex.ofInt k)) yv) yv.isSig

def execRcomb (f : EFields) (s : State) : Res :=
  vecOp s f.fmt.toNat f.mod.toNat true useLRP 3 fun _ l r =>
    rcomb f.fmt.toNat (f.imm.toNat % 2) f.mod.toNat r (argA l) (argB l) (argC l)

/-! ## Token control (R193, R194) -/

/-- NULLIF: a null when the predicate holds, else L with its marks. -/
def execNullif (f : EFields) (s : State) : Res :=
  runElem s fun e w => w.fire e useLP 1 fun _ i w =>
    w.flyBoth e 1 (if i.p.predicate != f.imm.getLsbD 0 then i.nullOut else i.mark i.l) 0

/-- DROP: nothing when the predicate holds. -/
def execDrop (f : EFields) (s : State) : Res :=
  runElem s fun e w => w.fire e useLP 1 fun _ i w =>
    if i.p.predicate != f.imm.getLsbD 0 then i.toks.foldl (fun w t => w.trace e (hopOf w e.key t) true) w
    else w.flyBoth e 1 (i.mark i.l) 0

/-- COUNT: counts tokens or, under the empty policy (R22), full lanes, and sends the count on a tail. -/
def execCount (f : EFields) (s : State) : Res :=
  runElem s fun e w => w.fireAny e useL fun x i w =>
    if i.l.null then w.flyBoth e 1 i.nullOut 0
    else
      let n := if f.imm.getLsbD 0 then ((List.range 16).filter fun l => !(i.l.policy x.empty x.k).emptyAt l).length else 1
      let c : W32 := x.count + BitVec.ofNat 32 n
      let ms := keepMarks x.buf i.l
      if i.l.tail then
        let out := (lowLanes [c.toNat]).withMarks ms
        (w.setElem e fun x => { x with count := 0, buf := [] }).flyBoth e 1 { out with head := true, tail := true } 0
      else w.setElem e fun x => { x with count := c, buf := ms }

/-! ## Switch operators (R195 to R200) -/

/-- STEER: the data to one target, a null with its release mark to the other. -/
def execSteer (_f : EFields) (s : State) : Res :=
  runElem s fun e w => w.fire e useLP 1 fun _ i w =>
    let d := i.mark i.l
    let n : Token := { null := true, rel := d.rel, last := d.last }
    if i.p.predicate then w.fly e 1 (some d) (some n) 0 else w.fly e 1 (some n) (some d) 0

/-- MERGE: the one data token of L and R; two data tokens raise 0x250. -/
def execMerge (_f : EFields) (s : State) : Res :=
  runElem s fun e w => w.fireAny e useLR fun _ i w =>
    if !i.l.null && !i.r.null then w.raiseElem e 0x250 0 (some i.l)
    else if i.l.null && i.r.null then w.flyBoth e 1 i.nullOut 0
    else
      let d := if i.l.null then i.r else i.l
      w.flyBoth e 1 { i.markOnly d with head := d.head, tail := d.tail } 0

/-- CARRY: L on the first firing after an arming, R on every other; the token goes on unchanged (R33, R197). -/
def execCarry (_f : EFields) (s : State) : Res :=
  runElem s fun e w =>
    let a := (w.elem e).armed
    w.fireAny e { l := a, r := !a } fun _ i w =>
      let t := if a then i.l else i.r
      (w.setElem e fun x => { x with armed := false }).flyBoth e 1 t 0

/-- GATE: the L token, once a permit has come. -/
def execGate (_f : EFields) (s : State) : Res :=
  runElem s fun e w => w.fire e useLP 1 fun _ i w => w.flyBoth e 1 (i.mark i.l) 0

/-- The unit count of SPLIT and OMERGE after a token: the position in the pattern of a + b units, and whether a burst is open
(R199). -/
def unitStep (a b : Nat) (count : Nat) (opened : Bool) (t : Token) : Nat × Bool :=
  let one := (count + 1) % (a + b)
  if t.null then (if opened then (count, true) else (one, false))
  else if t.tail then (one, false)
  else if t.head then (count, true)
  else if opened then (count, true)
  else (one, false)

/-- SPLIT: a units to TGTA, then b to TGTB. -/
def execSplit (f : EFields) (s : State) : Res :=
  runElem s fun e w => w.fireAny e useL fun x i w =>
    let (c, o) := unitStep f.lo4 f.hi4 x.count.toNat x.opened i.l
    let w := w.setElem e fun x => { x with count := BitVec.ofNat 32 c, opened := o }
    if x.count.toNat < f.lo4 then w.fly e 1 (some i.l) none 0 else w.fly e 1 none (some i.l) 0

/-- OMERGE: a units from L, then b from R; the other input waits. -/
def execOmerge (f : EFields) (s : State) : Res :=
  runElem s fun e w =>
    let left := decide ((w.elem e).count.toNat < f.lo4)
    w.fireAny e { l := left, r := !left } fun x i w =>
      let t := if left then i.l else i.r
      let (c, o) := unitStep f.lo4 f.hi4 x.count.toNat x.opened t
      (w.setElem e fun x => { x with count := BitVec.ofNat 32 c, opened := o }).flyBoth e 1 t 0

/-- JOIN: lanes 0 to m − 1 of L, then the low lanes of R. -/
def execJoin (f : EFields) (s : State) : Res :=
  runElem s fun e w => w.fire e useLR 1 fun _ i w =>
    let m := f.lo4
    w.flyBoth e 1 (i.mark (laneToken fun l => if l < m then i.l.laneOpt l else i.r.laneOpt (l - m))) 0

end Sys2Proof.Machine
end

