-- ==== Sys2Proof/Machine/Matrix.lean ====
section
/-! DEFINITION. Sys2Proof/Machine/Matrix.lean: the matrix cell (12_matrix_cells.md R202 to R221, 03_numbers.md R51 to R56, 07_islands_and_rates.md
R118): tiles, row firings, the accumulator store, carry capture, the drain instructions and the slew limiter. -/

namespace Sys2Proof.Machine

/-! ## The cell's frame (R139) -/

/-- AFMT: 0 F32, 1 INT24. -/
def Cell.afmt (c : Cell) : Nat := field c.f3 64 64
/-- CCBMODE is TRAP. -/
def Cell.trap (c : Cell) : Bool := c.f3.getLsbD 65
def Cell.scaled (c : Cell) : Bool := c.f3.getLsbD 66
def Cell.cvrnd (c : Cell) : Nat := field c.f3 69 67
def Cell.spillBase (c : Cell) : Nat := field c.f3 89 72
/-- Rows of the accumulator store (R202). -/
def Cell.rowCount (c : Cell) : Nat := if c.afmt = 0 then 192 else 256
/-- Tokens of a raw row (R203). -/
def Cell.rawTokens (c : Cell) : Nat := if c.afmt = 0 then 8 else 6

/-! ## The accumulator store (R203, R204) -/

def accKey (row col : Nat) : Nat := row * 128 + col
/-- The bits of an accumulator element. -/
def Mx.at' (x : Mx) (row col : Nat) : W32 := tgetD x.acc (accKey row col) 0
def Mx.put (x : Mx) (row col : Nat) (v : Nat) : Mx := { x with acc := tput x.acc (accKey row col) (BitVec.ofNat 32 v) }
/-- Column values written into a row. -/
def Mx.putRow (x : Mx) (row : Nat) (vs : List Nat) : Mx :=
  ((List.range vs.length).zip vs).foldl (fun x (c, v) => x.put row c v) x
/-- sext(acc24, 24). -/
def Mx.int24 (x : Mx) (row col : Nat) : Int := sextNat 24 ((x.at' row col).toNat % 2 ^ 24)
/-- The fold bit of a row's pair. -/
def Mx.folded (x : Mx) (row : Nat) : Bool := tgetD x.fold (row / 2) false
def Mx.setFold (x : Mx) (pair : Nat) (b : Bool) : Mx := { x with fold := if b then tput x.fold pair true else tdel x.fold pair }
/-- The high row of a folded pair. -/
def Mx.isHigh (x : Mx) (row : Nat) : Bool := row % 2 == 1 && x.folded row
/-- The count of an element: its CCB count and its spilled counts (R204). -/
def Mx.countOf (x : Mx) (row col : Nat) : Int :=
  (x.ccb ++ x.spill).foldl (fun n r => if r.row = row ∧ r.col = col then n + r.count else n) 0
/-- v(row, col) of R204. -/
def Mx.exact (x : Mx) (row col : Nat) : Int :=
  let h := if row % 2 == 0 && x.folded row then x.int24 (row + 1) col else 0
  x.int24 row col + 2 ^ 24 * (h + x.countOf row col)
/-- The raw bytes of a row (R203). -/
def Mx.rawRow (x : Mx) (afmt row : Nat) : List Byte :=
  (List.range 128).flatMap fun c => leBytes (if afmt = 0 then 4 else 3) (x.at' row c).toNat
/-- A row from its raw bytes. -/
def Mx.setRaw (x : Mx) (afmt row : Nat) (bs : List Byte) : Mx :=
  let n := if afmt = 0 then 4 else 3
  x.putRow row ((List.range 128).map fun c => leNat ((bs.drop (n * c)).take n))
/-- Free every record of the rows (R213). -/
def Mx.freeRows (x : Mx) (p : Nat → Bool) : Mx :=
  { x with ccb := x.ccb.filter fun r => !p r.row, spill := x.spill.filter fun r => !p r.row }
/-- Island cycles of a pass over the spill log (R213). -/
def Mx.pass (x : Mx) : Nat := (x.spill.length + 15) / 16
/-- The pass that a freeing takes: none when the log holds no record of the rows. -/
def Mx.freePass (x : Mx) (p : Nat → Bool) : Nat := if x.spill.any fun r => p r.row then x.pass else 0
/-- A 32-bit record (R213). -/
def CRec.word (r : CRec) : Nat := packFields [(8, r.col), (8, r.row), (8, 0), (8, wrapInt 8 r.count)]

/-- Change a cell, and write its spill log into the bank at SPILLBASE (R213); CCB records made on the way are counted (R401). -/
def W.setMatrix (w : W) (e : ERef) (x : Mx) : W :=
  let c := w.cell e.r e.cell
  let w := w.pmc (siteQuad (w.region e.r) e.cell) 8 (x.made - (w.mx e.r e.cell).made)
  let w := w.setMx e.r e.cell fun _ => x
  if c.afmt = 1 ∧ ¬ c.trap ∧ x.spill ≠ [] then
    w.setBank e.r e.cell fun b => memPut b c.spillBase (x.spill.flatMap fun r => leBytes 4 r.word)
  else w

/-! ## Count changes under the full-CCB rules (R55, R214) -/

/-- The count of an element's CCB record. -/
def ccbGet (l : List CRec) (row col : Nat) : Option Int := (l.find? fun r => r.row == row && r.col == col).map (·.count)
/-- Add to an element's record, made with value 0 when it is first needed (R55). -/
def ccbAdd (l : List CRec) (row col : Nat) (d : Int) : List CRec :=
  if (ccbGet l row col).isSome then l.map fun r => if r.row == row && r.col == col then { r with count := r.count + d } else r
  else l ++ [{ row := row, col := col, count := d }]
/-- A count change carries a record past ±127. -/
def passes (l : List CRec) (row : Nat) (d : Nat × Int) : Bool :=
  match ccbGet l row d.1 with
  | some n => decide (127 < (n + d.2).natAbs)
  | none => false
/-- What a commit's count changes need: records past ±127, and new records beyond the 64 (R214). -/
def ccbFits (l : List CRec) (row : Nat) (ds : List (Nat × Int)) : Bool :=
  !ds.any (passes l row) && decide (l.length + (ds.filter fun d => (ccbGet l row d.1).isNone).length ≤ 64)

/-- One spill (R214): a record whose count would pass ±127 first, which restarts at 0; else the oldest record. -/
def Mx.spillOne (x : Mx) (row : Nat) (ds : List (Nat × Int)) : Mx :=
  match ds.find? (passes x.ccb row) with
  | some d =>
    { x with
      spill := x.spill ++ [{ row := row, col := d.1, count := (ccbGet x.ccb row d.1).getD 0 }],
      ccb := x.ccb.map fun r => if r.row == row && r.col == d.1 then { r with count := 0 } else r }
  | none =>
    match x.ccb with
    | r :: t => { x with spill := x.spill ++ [r], ccb := t }
    | [] => x

/-- Apply count changes to a CCB with room for them; those beyond 64 go straight to the log, in ascending column order. Gives the
number written there. -/
def Mx.addCounts (x : Mx) (row : Nat) (ds : List (Nat × Int)) : Mx × Nat :=
  let old := ds.filter fun d => (ccbGet x.ccb row d.1).isSome
  let new := ds.filter fun d => (ccbGet x.ccb row d.1).isNone
  let room := 64 - x.ccb.length
  let ccb := (old ++ new.take room).foldl (fun l d => ccbAdd l row d.1 d.2) x.ccb
  let rest := (new.drop room).map fun d => ({ row := row, col := d.1, count := d.2 } : CRec)
  ({ x with ccb := ccb, spill := x.spill ++ rest, made := x.made + (new.take room).length }, rest.length)

/-! ## Partials (R51 to R54) -/

/-- Element k of an A row whose elements are `wd` bits wide; none when it is empty. -/
def rowElem (wd : Nat) (ts : List Token) (k : Nat) : Option Nat :=
  let n := 512 / wd
  let t := ts.getD (k / n) {}
  if t.emptyAt (k % n / (32 / wd)) then none else some (elemAt wd t.data (k % n))
/-- B[k][c] of a tile of `wd`-bit elements (R207). -/
def tileElem (wd : Nat) (tile : List W512) (k c : Nat) : Nat :=
  let n := 512 / wd
  elemAt wd (tile.getD ((128 * k + c) / n) 0) ((128 * k + c) % n)
/-- Block b of row k of a Q4 tile. -/
def tileBlock (tile : List W512) (k b : Nat) : Nat :=
  q4Block { data := tile.getD (2 * k) 0 } { data := tile.getD (2 * k + 1) 0 } b

/-- The data tokens of a row: without the scale head of a scaled row (R79). -/
def dataTokens (scaled : Bool) (ts : List Token) : List Token := if scaled then ts.drop 1 else ts

/-- Whether an A row has an empty element (R211). -/
def rowEmpty (fmt : Nat) (ts : List Token) : Bool :=
  if fmt = 5 then (List.range 32).any fun b => q4Empty (ts.getD 0 {}) (ts.getD 1 {}) b
  else (List.range 128).any fun k => (rowElem (if fmt = 1 then 16 else 8) ts k).isNone

/-- The exact sum of a column over I8 operands (R54). -/
def partInt (ts : List Token) (tile : List W512) (c : Nat) : Int :=
  (List.range 128).foldl (fun n k =>
    match rowElem 8 ts k with
    | some a => n + sextNat 8 a * sextNat 8 (tileElem 8 tile k c)
    | none => n) 0

/-- p32 of FP8 (R51) as a code, with its flags. -/
def partFp8 (ts : List Token) (tile : List W512) (c : Nat) : Nat × Flags :=
  let f := Fmt.ofCode 3
  let s := (List.range 128).foldl (fun (acc : Option Ex) k =>
    match acc, rowElem 8 ts k with
    | some n, some a =>
      match Fv.ofCode f a, Fv.ofCode f (tileElem 8 tile k c) with
      | .num x, .num y => some (n.add (x.mul y))
      | _, _ => none
    | some n, none => (match Fv.ofCode f (tileElem 8 tile k c) with | .num _ => some n | _ => none)
    | none, _ => none) (some ⟨false, 0, 1⟩)
  match s with
  | some v => roundTo (Fmt.ofCode 0) 0 0 (if v.isZero then ⟨false, 0, 1⟩ else v)
  | none => ((Fmt.ofCode 0).nan, 0)

/-- The significand and the exponent of a UE5M3 scale (R52): (σ, e'). -/
def scaleParts (c : Nat) : Nat × Int := (if c / 8 = 0 then c % 8 else 8 + c % 8, (max (c / 8) 1 : Nat) - 18)
/-- Twice an E2M1 value, an integer. -/
def e2m1x2 (c : Nat) : Int := let v := e2m1 c; if v.neg then -(v.num : Int) else v.num

/-- One block pair of R52: its integer n × σ and exponent E; none for a NaN scale. Where the column's four B elements stand in blocks of different scales R52 names no
one scale, and the scale's code is a free value (log 23). -/
def q4Contribution (a : Option Nat) (bs : List Nat) (c4 : Nat) : Option (Int × Int) :=
  let bScales := bs.map (· % 256)
  let bElems := bs.map fun b => b / 2 ^ (8 + 4 * c4) % 16
  match a with
  | none => if bScales.contains 255 then none else some (0, 0)
  | some a =>
    if a % 256 = 255 ∨ bScales.contains 255 then none
    else
      let b := if bScales.all (· == bScales.headD 0) then bScales.headD 0 else Config.q4Scale a bElems bScales % 255
      let (sa, ea) := scaleParts (a % 256)
      let (sb, eb) := scaleParts b
      let n := (List.range 4).foldl (fun (n : Int) i => n + e2m1x2 (a / 2 ^ (8 + 4 * i) % 16) * e2m1x2 (bElems.getD i 0)) 0
      some (n * (sa * sb : Nat), ea + eb - 2)

/-- p32 of Q4 (R52): the 64-bit window, truncated toward zero at 2^L. -/
def partQ4 (ts : List Token) (tile : List W512) (c : Nat) : Nat × Flags :=
  let h := ts.getD 0 {}
  let t := ts.getD 1 {}
  let prs := (List.range 32).map fun g =>
    q4Contribution (if q4Empty h t g then none else some (q4Block h t g)) ((List.range 4).map fun i => tileBlock tile (4 * g + i) (c / 4)) (c % 4)
  if prs.any (·.isNone) then ((Fmt.ofCode 0).nan, 0)
  else
    let ps := prs.filterMap id
    let l := (ps.foldl (fun (m : Option Int) p => match m with | none => some p.2 | some x => some (max x p.2)) none).getD 0 - 41
    let terms := ps.map fun p =>
      if l ≤ p.2 then (p.1 * 2 ^ (p.2 - l).toNat, false)
      else
        let d : Nat := 2 ^ (l - p.2).toNat
        (Int.tdiv p.1 d, decide (Int.tmod p.1 d ≠ 0))
    let w := terms.foldl (fun (n : Int) t => n + t.1) 0
    let (code, fl) := roundTo (Fmt.ofCode 0) 0 0 (Ex.scaled (decide (w < 0)) w.natAbs l)
    (code, fl ||| Flags.when (terms.any (·.2)) Flags.nx)

/-- t_0 of BF16 (R53): rounded leaves, then the fixed tree. -/
def partBf16 (ts : List Token) (tile : List W512) (c : Nat) : Nat × Flags :=
  let f := Fmt.ofCode 0
  let leaves := (List.range 128).map fun k =>
    match rowElem 16 ts k with
    | some a => fmulF f 0 0 (a * 2 ^ 16) (tileElem 16 tile k c * 2 ^ 16)
    | none => (0, 0)
  let (r, fl) := treeFold (faddF f 0 0 false) 7 (leaves.map fun l => some l.1)
  ((r.headD none).getD 0, leaves.foldl (fun a l => a ||| l.2) fl)

/-- The F32 accumulator step (R51, R53, R210): one rounding of γ × acc + p32 × s; without an acc term for ZERO. -/
def accStep (gamma : Option Nat) (acc : Option Nat) (p s : Nat) : Nat × Flags :=
  let f := Fmt.ofCode 0
  let pv := Fv.ofCode f p
  let sv := Fv.ofCode f s
  let (x, i1) := pv.mul sv
  match acc with
  | none => finish f 0 0 (x, i1) (pv.isSig || sv.isSig)
  | some a =>
    let av := Fv.ofCode f a
    let (y, i2, sg) : Fv × Bool × Bool := match gamma with
      | some g => let gv := Fv.ofCode f g; let (z, i) := gv.mul av; (z, i, gv.isSig)
      | none => (av, false, false)
    let (z, i3) := Fv.add false y x
    finish f 0 0 (if i1 || i2 then .nan false else z, i1 || i2 || i3) (pv.isSig || sv.isSig || av.isSig || sg)

/-- p32 of a column and the scale it is multiplied by: 1.0 for BF16. -/
def Firing.partial' (r : Firing) (scaled : Bool) (c : Nat) : Nat × Flags :=
  let ts := dataTokens scaled r.tokens
  if r.fmt = 1 then partBf16 ts r.tile c else if r.fmt = 5 then partQ4 ts r.tile c else partFp8 ts r.tile c

/-- The new row of an INT24 commit (R54, R55): values as 24 bits, and the count changes by column. -/
def Firing.intRow (r : Firing) (x : Mx) : List Nat × List (Nat × Int) :=
  let cols := (List.range 128).map fun c =>
    let p := partInt r.tokens r.tile c
    let t := if r.zero then p else x.int24 r.row c + p
    (c, wrapInt 24 t, if 2 ^ 23 - 1 < t then (1 : Int) else if t < -(2 ^ 23) then -1 else 0)
  (cols.map (·.2.1), (cols.filter fun y => y.2.2 ≠ 0).map fun y => (y.1, y.2.2))

/-- A row with an empty element commits nothing under FORWARD (R211); so does a scale head whose lane 0 is empty (R22). -/
def Firing.void (r : Firing) (scaled : Bool) : Bool :=
  r.empty == 0 && (rowEmpty r.fmt (dataTokens scaled r.tokens) || (scaled && (r.tokens.getD 0 {}).emptyAt 0))

/-- The count changes that a commit makes. -/
def Firing.changes (r : Firing) (c : Cell) (x : Mx) : List (Nat × Int) :=
  if c.afmt = 0 || r.void c.scaled then [] else (r.intRow x).2

/-- ZERO frees the row's records and clears the fold bit of an even row (R210). -/
def Mx.zeroRow (x : Mx) (row : Nat) : Mx :=
  let x := x.freeRows (· == row)
  if row % 2 = 0 then x.setFold (row / 2) false else x

/-- The oldest firing is due and the CCB cannot take its count changes (R214). -/
def Mx.held (x : Mx) (c : Cell) (edge : Nat) : Bool :=
  match x.firings with
  | [] => false
  | f :: _ =>
    let ds := f.changes c x
    decide (f.commit ≤ edge) && !f.suspect && !(decide (64 < ds.length) && x.ccb.isEmpty) && !ccbFits x.ccb f.row ds

/-- MMA_COMMIT (R210): the oldest firing commits 4 island cycles after its engine freed, when nothing withholds it and the CCB can
take its count changes (R214). -/
def execMmaCommit (r cell : Nat) (s : State) : Res :=
  run s fun w =>
    let g := w.region r
    let x := w.mx r cell
    let c := w.cell r cell
    let edge := w.edgeOf g cell
    match x.firings with
    | [] => w
    | f :: rest =>
      let e : ERef := ⟨r, cell, f.slot⟩
      if !(w.onEdge g cell && !f.suspect && decide (f.commit ≤ edge ∧ x.holdTo ≤ edge) && (c.trap || !x.held c edge)) then w
      else
        let done := { x with firings := rest }
        let w := w.pmc (siteQuad g cell) 7 1
        if f.void c.scaled then w.setMatrix e done
        else if c.afmt = 0 then
          let y := if f.zero then done.zeroRow f.row else done
          let cols := (List.range 128).map fun k =>
            let (p, fl) := f.partial' c.scaled k
            let one := if f.fmt = 1 then 0x3F800000 else f.scale.toNat
            let (v, fl2) := accStep (if f.fade then some f.gamma.toNat else none)
              (if f.zero then none else some (x.at' f.row k).toNat) p one
            (v, fl ||| fl2)
          let fl := cols.foldl (fun a v => a ||| v.2) (if f.fmt = 1 then 0 else f.flags)
          (w.setMatrix e (y.putRow f.row (cols.map (·.1)))).landFlags e fl
        else
          let y := if f.zero then done.zeroRow f.row else done
          let (vs, ds) := f.intRow x
          let direct := decide (64 < ds.length) && y.ccb.isEmpty
          if !direct && !ccbFits y.ccb f.row ds then (w.setMatrix e done).raiseElem e 0x290
          else
            let (z, n) := y.addCounts f.row ds
            if 4096 < z.spill.length then (w.setMatrix e done).raiseElem e 0x291
            else if 0 < n ∧ c.trap then (w.setMatrix e done).raiseElem e 0x290
            else
              let w := w.setMatrix e { z.putRow f.row vs with holdTo := if n = 0 then x.holdTo else edge + 8 * n }
              let w := if n = 0 then w else w.countQuad (siteQuad g cell) 0 1
              let w := w.setRegion r fun g => { g with ccbEsc := g.ccbEsc + BitVec.ofNat 64 ds.length }
              w.landFlags e (Flags.when (!ds.isEmpty) Flags.cry)

/-- CCB_SPILL (R214): a held commit under STALL spills one record, in 8 island cycles, the first of which counts here and the others as they pass. -/
def execCcbSpill (r cell : Nat) (s : State) : Res :=
  run s fun w =>
    let g := w.region r
    let x := w.mx r cell
    let c := w.cell r cell
    let edge := w.edgeOf g cell
    match x.firings with
    | [] => w
    | f :: rest =>
      let e : ERef := ⟨r, cell, f.slot⟩
      if !(w.onEdge g cell && x.held c edge && !c.trap && decide (x.holdTo ≤ edge)) then w
      else if 4096 ≤ x.spill.length then (w.setMatrix e { x with firings := rest }).raiseElem e 0x291
      else
        (w.countQuad (siteQuad g cell) 0 1).setMatrix e { x.spillOne f.row (f.changes c x) with holdTo := edge + 8 }

/-! ## MLDB, MSCL and the swap (R69, R207, R208, R212) -/

/-- The slot of a cell that holds an opcode (R149). -/
def Region.slotOf (g : Region) (cell opc : Nat) : Option Elem :=
  ((List.range 6).filterMap fun s => tget g.elems (ekey cell s)).find? fun x => x.opc == opc
/-- HOLD of the cell's MMA. -/
def Region.hold (g : Region) (cell : Nat) : Bool :=
  match g.slotOf cell 0x71 with
  | some x => x.fields.mod.getLsbD 3
  | none => false
/-- The cell's tiles are BF16: the halves hold one tile (R69). -/
def Region.oneTile (g : Region) (cell : Nat) : Bool :=
  match g.slotOf cell 0x70 with
  | some x => x.fields.fmt == 1
  | none => false
/-- The engine is free: no firing still occupies it. -/
def Mx.free (x : Mx) (edge : Nat) : Bool := x.firings.all fun f => decide (f.frees ≤ edge) && !f.suspect
/-- A data token waits at MMA's L that landed before a grid cycle. -/
def Region.earlyRow (g : Region) (cell since : Nat) : Bool :=
  match g.slotOf cell 0x71 with
  | some x => (match x.inL with | some t => !t.null && !t.reconf && decide (t.landed < since) | none => false)
  | none => false
/-- Engine cycles of a firing (R210). -/
def busyOf (fmt : Nat) : Nat := match fmt with | 1 => 16 | 5 => 4 | _ => 8

/-- Lane l of a token of a Q4 tile, the row's second token or its first: the bytes of a block that counts as empty are zero, its scale too (R39, R207). -/
def q4Lane (second : Bool) (t : Token) (l : Nat) : Nat :=
  let first := if second then 63 else 0
  let gone (b : Nat) : Bool := if second then q4Empty {} t ((first + b) / 3) else decide (b < 63) && q4Empty t {} (b / 3)
  packElems 8 ((List.range 4).map fun k => if gone (4 * l + k) then 0 else (t.data.toNat / 2 ^ (8 * (4 * l + k))) % 256)

/-- MLDB: one token of a B tile; an empty element is zero, and of a Q4 tile an empty block. -/
def execMldb (f : EFields) (s : State) : Res :=
  runElem s fun e w =>
    if !w.mayFire e then w
    else
      let g := w.region e.r
      let x := w.elem e
      let m := w.mx e.r e.cell
      match x.inputs useL with
      | none => w
      | some i =>
        let bf := decide (f.fmt = 1)
        let headWaits := bf && i.l.head && !i.l.null && !m.loadOpen &&
          (!m.free (w.edgeOf g e.cell) || !m.rows.isEmpty ||
            (g.hold e.cell && (m.rowOpen || g.earlyRow e.cell (w.now + 1))))
        if m.swapDue.isSome || headWaits then w
        else
          let w := w.consume e i
          if i.l.null then (if m.loadOpen then w.raiseElem e 0x210 0 (some i.l) else w)
          else if i.l.head == m.loadOpen then w.raiseElem e 0x210 0 (some i.l)
          else
            let data := lanes fun l =>
              if f.fmt = 5 then q4Lane (m.loading.length % 2 == 1) i.l l else if i.l.emptyAt l then 0 else (i.l.lane l).toNat
            let ts := m.loading ++ [data]
            if i.l.tail != decide (ts.length = if bf then 512 else 256) then w.raiseElem e 0x210 0 (some i.l)
            else
              w.setMx e.r e.cell fun m =>
                { m with
                  active := if bf && i.l.head then none else m.active, loading := ts, loadOpen := !i.l.tail,
                  swapDue := if i.l.tail then some (w.now, i.l.landed) else none }

/-- MSCL: the scale of the loading half. -/
def execMscl (_f : EFields) (s : State) : Res :=
  runElem s fun e w => w.fireAny e useL fun _ i w =>
    if i.l.null || i.l.emptyAt 0 then w
    else
      w.setMx e.r e.cell fun m =>
        match m.swapDue with
        | some (t, _) => if t < w.now then { m with scaleN := some (i.l.lane 0) } else { m with scaleL := i.l.lane 0 }
        | none => { m with scaleL := i.l.lane 0 }

/-- TILE_SWAP (R69, R212): from the island cycle after the tail; with HOLD = 1 once the engine is free and no row that began to land
before the tail is left. -/
def execTileSwap (r cell : Nat) (s : State) : Res :=
  run s fun w =>
    let g := w.region r
    let m := w.mx r cell
    match m.swapDue with
    | none => w
    | some (taken, landed) =>
      let ready := !g.hold cell || g.oneTile cell ||
        (m.free (w.edgeOf g cell) && m.rows.isEmpty && !m.rowOpen && !g.earlyRow cell landed)
      w.guard (w.onEdge g cell && decide (taken < w.now) && ready) fun w => w.setMx r cell fun m =>
        { m with
          active := some m.loading, tileAt := w.now, loading := [], swapDue := none, scaleA := m.scaleL,
          scaleL := m.scaleN.getD 0x3F800000, scaleN := none }

/-! ## The slew limiter (R118, R303) -/

/-- Entry i of a ramp table (R387): the duty in quarters. -/
def dutyOf (tab i : Nat) : Nat := tab / 4 ^ (min i 7) % 4 + 1
/-- Four times A(t): the allowance of ramp cycles below t. -/
def allowance (tab entry : Nat) : Nat → Nat
  | 0 => 0
  | t + 1 => allowance tab entry t + dutyOf tab (entry + t / 4)
/-- The duty the ramp has reached. -/
def Ramp.duty (p : Ramp) (edge : Nat) : Nat := dutyOf p.table (p.entry + (edge - p.start) / 4)
/-- A firing of c cycles may begin on this edge. -/
def Ramp.admits (p : Ramp) (edge c : Nat) : Bool :=
  decide (p.start ≤ edge ∧ 4 * (p.spent + c) ≤ allowance p.table p.entry (edge - p.start + c))
/-- The entry from which a ramp resumes after a filler step of duty j (R118). -/
def resumeEntry (tab j : Nat) : Nat :=
  ((List.range 8).find? fun i => dutyOf tab i == j).getD (((List.range 8).find? fun i => decide (j < dutyOf tab i)).getD 7)
/-- The duty of filler step k = 1, 2, 3. -/
def fillerDuty (k : Nat) : Nat := 4 - k

/-- A row could issue but for the slew limiter: a withheld one (R215), or conditions 1 to 3 of R210. -/
def W.rowReady (w : W) (r cell : Nat) : Bool :=
  let m := w.mx r cell
  m.firings.any (·.suspect) || match (w.region r).slotOf cell 0x71 with
  | some x => !m.rows.isEmpty && m.active.isSome && (!x.names 1 || (match x.inR with | some t => !t.reconf && !t.null | none => false))
  | none => false
/-- The grid cycle on which the conditions of `rowReady` came to hold: for a row, the latest of its tail, the tile and the token at R; for a withheld firing,
they hold as it is. -/
def W.readyCycle (w : W) (r cell : Nat) : Nat :=
  let m := w.mx r cell
  if m.firings.any (·.suspect) then 0
  else max (max m.rowsAt m.tileAt) (match (w.region r).slotOf cell 0x71 with
    | some x => if x.names 1 then (match x.inR with | some t => t.landed | none => 0) else 0
    | none => 0)
/-- The cell must start a ramp before its next row: no firing and no filler for 32 island cycles, but for the row for which one has started. -/
def Mx.needsRamp (m : Mx) (edge : Nat) : Bool := match m.ramp with
  | none => true
  | some p => decide (0 < p.spent ∧ m.idleAt + 32 ≤ edge)
/-- A row that became ready on an island edge resumes the ramp from entry 0: its three filler steps are over, and the last filler cycle is less than 32 back. -/
def Mx.resumes (m : Mx) (edge ready : Nat) : Bool := decide (m.filler = 3 ∧ m.fillEnd ≤ edge ∧ ready < m.idleAt + 32)
/-- The slew limiter lets the cell begin a row firing of c cycles on this edge: no ramp to start first, no filler in the engine, and an allowance. -/
def Mx.slewAdmits (m : Mx) (edge c : Nat) : Bool := match m.ramp with
  | none => false
  | some p => !m.needsRamp edge && decide (m.filler = 0 ∧ m.fillEnd ≤ edge) && p.admits edge c
/-- A row firing of c cycles begins: its cycles are spent, and the idle count starts at its end. -/
def Mx.spend (m : Mx) (edge c : Nat) : Mx := { m with ramp := m.ramp.map fun p => { p with spent := p.spent + c }, idleAt := edge + c }

/-- The matrix cells of a region that lie in a package quad. -/
def Region.mxCells (g : Region) (q : Nat) : List Nat := (g.mxs.map (·.1)).filter fun c => siteQuad g c == q
/-- The fastest island among a quad's matrix cells. -/
def Region.fastest (g : Region) (q : Nat) : Island :=
  (g.mxCells q).foldl (fun i c => let j := g.islandOf c; if i.p * j.q < j.p * i.q then j else i) { p := 0, q := 1 }
/-- The grid cycle of the pattern edge numbered j (from 0) since the switch cycle. -/
def Island.gridOf (i : Island) (j : Nat) : Nat := if i.p = 0 then i.since else i.since + ((j + 1) * i.q + i.p - 1) / i.p - 1
/-- The grid cycle of the last step boundary at or before now: every 4 edges of the fastest island. -/
def Region.boundary (g : Region) (q now : Nat) : Nat :=
  let f := g.fastest q
  let n := f.edge now - f.edges
  f.gridOf ((n - 1) / 4 * 4)

/-- The grid cycle of the first step boundary at or after now. -/
def Region.nextBoundary (g : Region) (q now : Nat) : Nat :=
  let b := g.boundary q now
  let f := g.fastest q
  if now ≤ b then b else f.gridOf ((f.edge now - f.edges - 1) / 4 * 4 + 4)

/-- RAMP_START (R118, R303): on the cell's first edge at or after a step boundary, a cell that was ready at the boundary starts a ramp, at most two of a quad in a
step, the lower cell numbers first; a row that became ready within 32 island cycles of the last filler resumes from entry 0, outside that limit. -/
def execRampStart (r cell : Nat) (s : State) : Res :=
  run s fun w =>
    let g := w.region r
    let m := w.mx r cell
    let q := siteQuad g cell
    let i := g.islandOf cell
    let edge := w.edgeOf g cell
    let b := g.boundary q w.now
    let waits (c : Nat) : Bool := w.rowReady r c && decide (w.readyCycle r c ≤ b)
    let resumes (c : Nat) : Bool := (w.mx r c).resumes (w.edgeOf g c) ((g.islandOf c).edge (w.readyCycle r c))
    let resume := resumes cell
    let first := decide (i.edge w.now = (if b ≤ i.since then i.edges else i.edge (b - 1)) + 1)
    let started := ((g.mxCells q).filter fun c =>
      match (w.mx r c).ramp with | some p => decide (b ≤ p.grid) && !p.resume | none => false).length
    let waiting := ((g.mxCells q).filter fun c => decide (c < cell) && waits c && !resumes c && (w.mx r c).needsRamp (w.edgeOf g c)).length
    w.guard (w.onEdge g cell && first && waits cell &&
        (resume || (m.needsRamp edge && decide (started + waiting < 2)))) fun w =>
      let tab := match m.ramp with
        | some p => if resume then p.table else w.fld (Bar.slewTab q) 15 0
        | none => w.fld (Bar.slewTab q) 15 0
      w.setMx r cell fun m =>
        { m with ramp := some { start := edge, grid := w.now, table := tab, resume := resume }, filler := 0, idleAt := edge }

/-- FILLER_STEP (R118): a cell at full duty whose engine frees with no row ready runs one of its three filler steps. DESIGN CHOICE: the last filler cycle, from which
the 32 island cycles count, is the step's last busy cycle (log 85). -/
def execFillerStep (r cell : Nat) (s : State) : Res :=
  run s fun w =>
    let g := w.region r
    let m := w.mx r cell
    let edge := w.edgeOf g cell
    let q := siteQuad g cell
    match m.ramp with
    | none => w
    | some p =>
      let begins := if m.filler = 0 then m.free edge && decide (p.start ≤ edge ∧ p.duty edge = 4 ∧ 0 < p.spent) && decide (edge < m.idleAt + 32)
        else decide (m.filler < 3 ∧ m.fillEnd ≤ edge)
      w.guard (w.onEdge g cell && begins && !w.rowReady r cell) fun w =>
        let w := w.countQuad q 1 1
        w.setMx r cell fun m =>
          { m with filler := m.filler + 1, fillEnd := edge + 4, idleAt := edge + fillerDuty (m.filler + 1) }

/-! ## MMA (R205, R206, R210 to R212, R215) -/

/-- A value that an empty lane leaves open (log 24). -/
def W.laneOrFree (w : W) (t : Token) : W × Nat := if t.emptyAt 0 then w.freeBelow (2 ^ 32) else (w, (t.lane 0).toNat)

/-- From this grid cycle on, tokens that would begin a row are refused (R212, R69); none: they are taken. -/
def W.rowShut (w : W) (r cell : Nat) : Option Nat :=
  let g := w.region r
  let m := w.mx r cell
  if !g.hold cell then none
  else if g.oneTile cell then (if m.loadOpen || m.swapDue.isSome then some 0 else none)
  else match m.swapDue with
    | some (_, landed) => some landed
    | none =>
      match g.slotOf cell 0x70 with
      | some x => (match x.inL with | some t => if t.tail && !t.null then some t.landed else none | none => none)
      | none => none

/-- Taking a token of an A row into the row buffer. -/
def W.rowIntake (w : W) (e : ERef) (f : EFields) : W :=
  let g := w.region e.r
  let x := w.elem e
  let m := w.mx e.r e.cell
  let scaled := (w.cell e.r e.cell).scaled
  match x.inputs useL with
  | none => w
  | some i =>
    let n := if f.fmt = 1 then 4 else if f.fmt = 3 && scaled then 3 else 2
    let busy := if m.free (w.edgeOf g e.cell) then 0 else 1
    let shut := match w.rowShut e.r e.cell with | some t => decide (t ≤ i.l.landed) | none => false
    if !m.rowOpen && !i.l.null && (decide (2 ≤ m.rows.length + busy) || shut) then w
    else
      let w := w.consume e { i with l := { i.l with last := i.l.last && i.l.null } }
      if i.l.null then (if m.rowOpen then w.raiseElem e 0x210 0 (some i.l) else w)
      else if i.l.head == m.rowOpen then w.raiseElem e 0x210 0 (some i.l)
      else
        let ts := m.rowBuf ++ [i.l]
        if i.l.tail != decide (ts.length = n) then w.raiseElem e (if f.fmt = 3 then 0x211 else 0x210) 0 (some i.l)
        else if i.l.tail then w.setMx e.r e.cell fun m =>
          { m with rowBuf := [], rowOpen := false, rows := m.rows ++ [ts], rowsAt := if m.rows.isEmpty then w.now else m.rowsAt }
        else w.setMx e.r e.cell fun m => { m with rowBuf := ts, rowOpen := true }

/-- A row that becomes ready during a filler step resumes the ramp on the cell's first edge at or after the next step boundary of the quad's grid (R118). -/
def W.resumeFiller (w : W) (r cell : Nat) : W :=
  let g := w.region r
  let m := w.mx r cell
  let edge := w.edgeOf g cell
  match m.ramp with
  | some p =>
    if w.rowReady r cell ∧ 0 < m.filler ∧ (edge < m.fillEnd ∨ m.filler < 3) then
      let start := (g.islandOf cell).edge (g.nextBoundary (siteQuad g cell) (w.readyCycle r cell) - 1) + 1
      w.setMx r cell fun m =>
        { m with ramp := some { start := start, grid := w.now, entry := resumeEntry p.table (fillerDuty m.filler), table := p.table, resume := true },
                 filler := 0, fillEnd := m.fillEnd + fillerDuty m.filler - 4, idleAt := start }
    else w
  | none => w

/-- The swap of a tile without HOLD is due, and rows wait for it: a row that issues after the tail's edge uses the new tile (R212). -/
def W.swapFirst (w : W) (r cell : Nat) : Bool :=
  !(w.region r).hold cell && match (w.mx r cell).swapDue with
  | some (taken, _) => decide (taken < w.now)
  | none => false

/-! ### The order of accesses to a row (R206) -/

/-- The row offset of R205: lane 0 of R; of an instruction that waits with its rows in hand, as it was read. -/
def W.rowOff (w : W) (e : ERef) (i : Ins) : W × Nat :=
  match tget (w.mx e.r e.cell).hands e.slot with
  | some h => (w, h.2.1)
  | none => if i.rT then w.laneOrFree i.r else (w, 0)

/-- The header of an ACCSV block: first row, rows, AFMT, records, and the fold bit of a pair (R220). -/
def blkLane (data : List Token) (l : Nat) : Nat := ((data.getD 0 {}).lane l).toNat
def blkFold (data : List Token) (p : Nat) : Bool := decide (p < 128) && (blkLane data (4 + p / 32)).testBit (p % 32)

/-- ACCLD's checks (R221): the rows it writes. -/
def accldRows (c : Cell) (d : Nat) (data : List Token) : Except Nat (List Nat) :=
  let r := blkLane data 0
  let n := blkLane data 1
  let oddFold := d % 2 == 1 && (List.range 128).any fun p => blkFold data p && decide (r ≤ 2 * p ∧ 2 * p + 1 < r + n)
  if blkLane data 2 ≠ c.afmt ∨ data.length ≠ 1 + n * c.rawTokens + (blkLane data 3 + 15) / 16 ∨
      data.any (fun t => t.empty != 0) ∨ oddFold then .error 0x212
  else .ok ((List.range n).map fun k => r + d + k)

/-- Drain and write instructions: ACCRD, ACCWR, ACCSV, ACCLD, CFOLD, ACCZ; those that take a burst. -/
def isDrain (opc : Nat) : Bool := decide (0x73 ≤ opc ∧ opc ≤ 0x78)
def isBlock (opc : Nat) : Bool := [0x74, 0x76].contains opc
/-- The rows of such an instruction from the row of R205, and for ACCLD the block. -/
def drainSpan (c : Cell) (x : Elem) (r : Nat) (data : List Token) : List Nat :=
  match x.opc with
  | 0x75 | 0x78 => (List.range x.k.toNat).map (r + ·)
  | 0x76 => match accldRows c r data with | .ok rows => rows | .error _ => []
  | 0x77 => if r % 2 = 1 then [r] else [r, r + 1]
  | _ => [r]
/-- The rows of a drain or write instruction that could fire on this edge but for R206; none when it could not. -/
def W.drainRows (w : W) (e : ERef) : List Nat :=
  let x := w.elem e
  if !isDrain x.opc || !w.mayFire e || !x.flights.isEmpty || !w.grantBoth e then []
  else match x.inputs { ro := true } with
    | none => []
    | some i =>
      if i.anyNull || (isBlock x.opc && (i.l.head == x.opened || !i.l.tail)) then []
      else drainSpan (w.cell e.r e.cell) x (x.fields.imm.toNat + (w.rowOff e i).2) (x.buf ++ [i.l])
/-- A drain or write instruction of a lower slot could fire for one of the rows on this edge: it comes first. -/
def W.drainFirst (w : W) (e : ERef) (rows : List Nat) : Bool :=
  (List.range e.slot).any fun s => (w.drainRows ⟨e.r, e.cell, s⟩).any rows.contains

/-- A drain or write instruction has a row in hand: since an earlier edge, or from this one on in a lower slot (R206). -/
def W.inHand (w : W) (e : ERef) (row : Nat) : Bool :=
  (w.mx e.r e.cell).hands.any fun h => h.2.2.2.contains row && decide (h.2.1 < w.now ∨ h.1 < e.slot)
/-- The row of the firing that an MMA would issue on this edge: conditions 1 to 4 and 6 of R210, and condition 5: no drain or write instruction has it in hand. -/
def W.issueRow (w : W) (e : ERef) : Option Nat :=
  let x := w.elem e
  let m := w.mx e.r e.cell
  let edge := w.edgeOf (w.region e.r) e.cell
  match m.rows, x.inputs { l := false, ro := true } with
  | _ :: _, some i =>
    if w.rowReady e.r e.cell && !(i.rT && i.r.null) && !w.swapFirst e.r e.cell && m.free edge && decide (m.holdTo ≤ edge) && !m.held (w.cell e.r e.cell) edge &&
        m.slewAdmits edge (busyOf x.fields.fmt.toNat) then
      let r := x.fields.imm.toNat + (if i.rT then (w.laneOrFree i.r).2 else 0)
      if w.inHand e r || w.drainFirst e [r] then none else some r
    else none
  | _, _ => none
/-- An MMA of a lower slot could issue a firing into one of the rows on this edge: it comes first. -/
def W.mmaFirst (w : W) (e : ERef) (rows : List Nat) : Bool :=
  (List.range e.slot).any fun s =>
    let m : ERef := ⟨e.r, e.cell, s⟩
    (w.elem m).opc == 0x71 && w.mayFire m && (match w.issueRow m with | some r => rows.contains r | none => false)

/-- Issuing the oldest whole row (R210); a null at R drops it. -/
def W.rowIssue (w : W) (e : ERef) (f : EFields) : W :=
  let x := w.elem e
  let m := w.mx e.r e.cell
  let c := w.cell e.r e.cell
  let edge := w.edgeOf (w.region e.r) e.cell
  match m.rows, x.inputs { l := false, ro := true } with
  | row :: rest, some i =>
    let marks := row.any (·.last)
    let drop (w : W) : W :=
      let w := w.consume e { i with pT := false }
      let w := w.setElem e fun x => { x with lastSeen := x.lastSeen || (x.done && marks) }
      w.setMx e.r e.cell fun m => { m with rows := rest, rowsAt := w.now }
    if i.rT && i.r.null then drop w
    else match w.issueRow e with
      | none => w
      | some r =>
        let w := if i.rT then (w.laneOrFree i.r).1 else w
        let hand := some (if i.rT then i.r else row.getLastD {})
        if c.rowCount ≤ r then w.raiseElem e 0x110 0 hand
        else if m.isHigh r then w.raiseElem e 0x111 0 hand
        else
          let n := busyOf f.fmt.toNat
          let w := drop w
          let (w, sa) := if f.fmt = 3 ∧ c.scaled then w.laneOrFree (row.getD 0 {}) else (w, 0x3F800000)
          let (sc, fl) := fmulF (Fmt.ofCode 0) 0 0 sa m.scaleA.toNat
          w.setMx e.r e.cell fun m =>
            { m.spend edge n with
              firings := m.firings ++ [{
                slot := e.slot, fmt := f.fmt.toNat, empty := x.empty, gamma := x.k, zero := f.mod.getLsbD 0, fade := f.mod.getLsbD 2,
                row := r, tokens := row, tile := m.active.getD [], scale := BitVec.ofNat 32 sc, flags := fl,
                frees := edge + n, commit := edge + n + 4 }] }
  | _, _ => w

/-- MMA: takes row tokens, and issues a row firing when R210 holds. -/
def execMma (f : EFields) (s : State) : Res :=
  runElem s fun e w =>
    if !w.mayFire e then w
    else
      let w := w.rowIntake e f
      let w := w.resumeFiller e.r e.cell
      w.rowIssue e f

/-- MX_REPLAY (R215): a withheld firing reissues ahead of every later one, with a fresh busy period, when the slew limiter admits it (R118); with `parity`, a parity
error withholds the firing in the engine, and one that recurs on its replay is cause 0x310. -/
def execMxReplay (r cell : Nat) (parity : Bool) (s : State) : Res :=
  run s fun w =>
    let g := w.region r
    let m := w.mx r cell
    let edge := w.edgeOf g cell
    let q := siteQuad g cell
    w.guard (w.onEdge g cell) fun w =>
      if parity then
        match m.firings.reverse with
        | f :: rest =>
          if f.suspect then w
          else if f.parity then (w.setMx r cell fun m => { m with firings := rest.reverse }).raiseElem ⟨r, cell, f.slot⟩ 0x310
          else w.setMx r cell fun m => { m with firings := rest.reverse ++ [{ f with suspect := true, parity := true }] }
        | [] => w
      else
        let w := w.resumeFiller r cell
        match m.firings.find? (·.suspect) with
        | none => w
        | some f =>
          let n := busyOf f.fmt
          let busy := m.firings.any fun f => !f.suspect && decide (edge < f.frees)
          if busy || m.held (w.cell r cell) edge || decide (edge < m.holdTo) || !(w.mx r cell).slewAdmits edge n then w
          else
            let pre := m.firings.takeWhile fun f => !f.suspect
            let post := m.firings.drop (pre.length + 1)
            let w := w.countQuad q 3 1
            w.setMx r cell fun m =>
              { m.spend edge n with firings := pre ++ [{ f with suspect := false, frees := edge + n, commit := edge + n + 4 }] ++ post }

/-! ## Drains and writes (R205, R206, R216 to R221) -/

/-- R206 for a drain or a write of rows: every firing into them that has issued has committed or is withheld. -/
def Mx.clear (m : Mx) (rows : List Nat) : Bool := m.firings.all fun f => f.suspect || !rows.contains f.row

/-- What a drain does once R206 allows: a fatal code, or the cell after it, the tokens of its result, its latency and flags. -/
inductive Drain where
  | fault (code : Nat)
  | done (m : Mx) (out : List Token) (lat : Nat) (flags : Flags) (lfsr : W32)

/-- The completion token of R218: lane 0 holds a row. -/
def rowToken (r : Nat) : List Token := [lowLanes [r]]

/-- Another drain or write instruction has one of the rows in hand since an edge before this one's firing, or since that edge from a lower slot (R206). -/
def W.handFirst (w : W) (e : ERef) (fired : Nat) (rows : List Nat) : Bool :=
  (w.mx e.r e.cell).hands.any fun h => h.1 != e.slot && h.2.2.2.any rows.contains && decide (h.2.1 < fired ∨ (h.2.1 = fired ∧ h.1 < e.slot))

/-- It is an instruction's turn at its rows: earlier row firings into them have committed, no instruction that fired before it has them in hand, and of what fires on
this edge no lower slot that comes first is left (R206). -/
def W.drainTurn (w : W) (e : ERef) (rows : List Nat) : Bool :=
  let m := w.mx e.r e.cell
  let fired := match tget m.hands e.slot with | some h => h.1 | none => w.now
  m.clear rows && !w.handFirst e fired rows && (decide (fired < w.now) || (!w.drainFirst e rows && !w.mmaFirst e rows))

/-- Perform a drain on inputs, at the row offset `off`: it waits, with its rows in hand, until R206 allows it, then consumes the inputs and acts. -/
def W.drain (w : W) (e : ERef) (i : Ins) (off : Nat) (data : List Token) (rows : List Nat) (act : Cell → Elem → Mx → Drain) : W :=
  let m := w.mx e.r e.cell
  let c := w.cell e.r e.cell
  let x := w.elem e
  if !w.drainTurn e rows then
    if (tget m.hands e.slot).isSome then w else w.setMx e.r e.cell fun m => { m with hands := tput m.hands e.slot (w.now, off, rows) }
  else
    let w := w.consume e i
    let w := w.setElem e fun x => { x with opened := false, buf := [] }
    let hand := data.getLast?.or (some i.l)
    if rows.any fun r => decide (c.rowCount ≤ r) then w.raiseElem e 0x110 0 hand
    else match act c x { m with hands := tdel m.hands e.slot } with
      | .fault code => w.raiseElem e code 0 hand
      | .done m out lat fl lf =>
        let ms := data ++ i.toks
        let out := out.map fun t => { t with rel := relOf ms, last := ms.any (·.last), log := ms.findSome? (·.log) }
        ((w.setMatrix e m).setElem e fun x => { x with lfsr := lf }).flyBurst e lat out fl

/-- A drain started by a trigger: it accepts one once its last result token has been sent (R217); a null does nothing and sends
nulls (R216). -/
def triggerOp (s : State) (f : EFields) (act : Nat → Cell → Elem → Mx → Drain) : Res :=
  runElem s fun e w =>
    if !w.mayFire e || !(w.elem e).flights.isEmpty then w
    else
      let x := w.elem e
      match x.inputs { ro := true } with
      | none => w.noteHeld e { ro := true }
      | some i =>
        if !w.grantBoth e then w.blocked e.r e.cell
        else if i.anyNull then (w.consume e i).flyBoth e 1 i.nullOut 0
        else
          let (w, off) := w.rowOff e i
          let r := f.imm.toNat + off
          w.drain e i off [] (drainSpan (w.cell e.r e.cell) x r []) (act r)

/-- A write started by a burst at L: the tokens are collected until the tail; a break of R78 raises `bad`. -/
def blockOp (s : State) (f : EFields) (bad : Nat) (rowsOf : Cell → Nat → List Token → Except Nat (List Nat))
    (act : Nat → List Token → Cell → Elem → Mx → Drain) : Res :=
  runElem s fun e w =>
    if !w.mayFire e || !(w.elem e).flights.isEmpty then w
    else
      let x := w.elem e
      match x.inputs useL with
      | none => w
      | some i =>
        if i.l.null && !x.opened then
          match x.inputs { ro := true } with
          | none => w
          | some i => if w.grantBoth e then (w.consume e i).flyBoth e 1 i.nullOut 0 else w.blocked e.r e.cell
        else if i.l.null || i.l.head == x.opened then (w.consume e i).raiseElem e bad 0 (some i.l)
        else
          let data := x.buf ++ [i.l]
          if !i.l.tail then (w.consume e i).setElem e fun x => { x with opened := true, buf := data }
          else match x.inputs { ro := true } with
            | none => w
            | some i =>
              if !w.grantBoth e then w.blocked e.r e.cell
              else if i.rT && i.r.null then
                -- the marks of the whole burst go with the null (R26, R156)
                let ms := x.buf ++ i.toks
                let out := { i.nullOut with rel := relOf ms, last := ms.any (·.last), log := ms.findSome? (·.log) }
                ((w.consume e i).setElem e fun x => { x with opened := false, buf := [] }).flyBoth e 1 out 0
              else
                let (w, off) := w.rowOff e i
                let r := f.imm.toNat + off
                match rowsOf (w.cell e.r e.cell) r data with
                | .error code => (w.consume e i).raiseElem e code 0 (some i.l)
                | .ok rows => w.drain e i off data rows (act r data)

/-- 16 words to a token, the last token filled with zeros. -/
def wordTokens (ws : List Nat) : List Token :=
  (List.range ((ws.length + 15) / 16)).map fun i => lowLanes ((ws.drop (16 * i)).take 16)
/-- 64 bytes to a token. -/
def byteTokens (bs : List Byte) : List Token :=
  (List.range ((bs.length + 63) / 64)).map fun i => { data := BitVec.ofNat 512 (leNat ((bs.drop (64 * i)).take 64)) }

/-- sat_I32 of R44. -/
def satI32 (v : Int) : Nat × Flags := satInt 6 32 v

/-- ACCRD (R217). -/
def execAccrd (f : EFields) (s : State) : Res :=
  triggerOp s f fun r c x m =>
    if m.isHigh r then .fault 0x111
    else if c.afmt = 1 then
      let vs := (List.range 128).map fun k => m.exact r k
      let lat := 1 + m.pass
      if f.mod = 1 then .done m (wordTokens (vs.flatMap fun v => [wrapInt 32 v, wrapInt 32 (v / 2 ^ 32)])) lat 0 x.lfsr
      else
        let ws := vs.map satI32
        .done m (wordTokens (ws.map (·.1))) lat (ws.foldl (fun a v => a ||| v.2) 0) x.lfsr
    else if f.fmt = 0 then .done m (wordTokens ((List.range 128).map fun k => (m.at' r k).toNat)) 1 0 x.lfsr
    else
      let (rs, lf) := lfsrRun (c.cvrnd == 5) 128 x.lfsr
      let es := (List.range 128).map fun k => fcvt (Fmt.ofCode 0) (Fmt.ofCode 1) c.cvrnd (rs.getD k 0) (m.at' r k).toNat
      .done m (wordTokens ((List.range 64).map fun k => (es.getD (2 * k) (0, 0)).1 + 2 ^ 16 * (es.getD (2 * k + 1) (0, 0)).1)) 1
        (es.foldl (fun a v => a ||| v.2) 0) lf

/-- CFOLD (R218). -/
def execCfold (f : EFields) (s : State) : Res :=
  triggerOp s f fun r _ x m =>
    if r % 2 = 1 then .fault 0x111
    else
      let first := !m.folded r
      let ts := (List.range 128).map fun k => (if first then 0 else m.int24 (r + 1) k) + m.countOf r k
      if ts.any fun t => decide (t < -(2 ^ 23) ∨ 2 ^ 23 - 1 < t) then .fault 0x292
      else
        let m' := m.putRow (r + 1) (ts.map (wrapInt 24))
        let m' := m'.freeRows fun k => k == r || (first && k == r + 1)
        .done (m'.setFold (r / 2) true) (rowToken r) (1 + m.pass) 0 x.lfsr

/-- ACCZ (R219). -/
def execAccz (f : EFields) (s : State) : Res :=
  triggerOp s f fun r _ x m =>
    let rows := (List.range x.k.toNat).map (r + ·)
    if m.isHigh r then .fault 0x111
    else
      let m' := rows.foldl (fun m k => let m := m.putRow k (List.replicate 128 0); if k % 2 = 0 then m.setFold (k / 2) false else m) m
      .done (m'.freeRows rows.contains) (rowToken r) (max 1 (rows.length + m.freePass rows.contains)) 0 x.lfsr

/-- The raw bytes of a row after a write of it: those of the full lanes (R219). -/
def accwrBytes (old : List Byte) (data : List Token) : List Byte :=
  (List.range old.length).map fun b =>
    let t := data.getD (b / 64) {}
    if t.emptyAt (b % 64 / 4) then old.getD b 0 else t.data.extractLsb' (8 * (b % 64)) 8

/-- ACCWR (R219). -/
def execAccwr (f : EFields) (s : State) : Res :=
  blockOp s f 0x210 (fun c r data => if data.length = c.rawTokens then .ok [r] else .error 0x210) fun r data c x m =>
    if m.isHigh r then .fault 0x111
    else .done ((m.setRaw c.afmt r (accwrBytes (m.rawRow c.afmt r) data)).zeroRow r) (rowToken r) (1 + m.freePass (· == r)) 0 x.lfsr

/-- ACCSV (R220). -/
def execAccsv (f : EFields) (s : State) : Res :=
  triggerOp s f fun r c x m =>
    let n := x.k.toNat
    let inRange (k : Nat) : Bool := decide (r ≤ k ∧ k < r + n)
    let order (l : List CRec) : List CRec := l.mergeSort fun a b => decide (a.row * 128 + a.col ≤ b.row * 128 + b.col)
    let recs := (m.spill.filter fun k => inRange k.row) ++ order (m.ccb.filter fun k => inRange k.row)
    let recs := recs.filter fun k => k.count ≠ 0
    let fold := (List.range 4).map fun j => packElems 1 ((List.range 32).map fun b => if tgetD m.fold (32 * j + b) false then 1 else 0)
    let head := lowLanes ([r, n, c.afmt, recs.length] ++ fold)
    let raw := (List.range n).flatMap fun k => byteTokens (m.rawRow c.afmt (r + k))
    .done m ([head] ++ raw ++ wordTokens (recs.map CRec.word)) (1 + (if c.afmt = 1 then m.pass else 0)) 0 x.lfsr

/-- One record's count added to its element under the full-CCB rules (R221); none when it does not fit, with the code. -/
def addRecord (trap : Bool) (x : Mx) (row col : Nat) (d : Int) : Except Nat (Mx × Nat) :=
  let rec go : Nat → Mx → Nat → Except Nat (Mx × Nat)
    | 0, x, n => .ok ((x.addCounts row [(col, d)]).1, n)
    | k + 1, x, n =>
      if ccbFits x.ccb row [(col, d)] then .ok ((x.addCounts row [(col, d)]).1, n)
      else if trap then .error 0x290
      else if 4096 ≤ x.spill.length then .error 0x291
      else go k (x.spillOne row [(col, d)]) (n + 1)
  go 2 x 0

/-- What a block writes before its records: its raw rows, the fold bits of the pairs that it covers, and no record of its rows left (R221). -/
def accldMatrix (c : Cell) (m : Mx) (d : Nat) (data : List Token) : Mx :=
  let r := blkLane data 0
  let n := blkLane data 1
  let rows := (List.range n).map fun k => r + d + k
  let raw := c.rawTokens
  let bytesOf (k : Nat) : List Byte := ((data.drop (1 + k * raw)).take raw).flatMap fun t => leBytes 64 t.data.toNat
  let m1 := ((List.range n).foldl (fun m k => m.setRaw c.afmt (r + d + k) (bytesOf k)) m).freeRows rows.contains
  let pairs := (List.range 128).filter fun p => rows.contains (2 * p) && rows.contains (2 * p + 1)
  pairs.foldl (fun m p => m.setFold p (d % 2 == 0 && decide (d / 2 ≤ p) && blkFold data (p - d / 2))) m1

/-- The records of a block. -/
def accldRecords (c : Cell) (data : List Token) : List Nat :=
  ((data.drop (1 + blkLane data 1 * c.rawTokens)).flatMap fun t => (List.range 16).map fun l => (t.lane l).toNat).take (blkLane data 3)

/-- ACCLD (R221). -/
def execAccld (f : EFields) (s : State) : Res :=
  blockOp s f 0x212 accldRows fun d data c x m =>
    let r := blkLane data 0
    let rows := (List.range (blkLane data 1)).map fun k => r + d + k
    let res := (accldRecords c data).foldl (fun (a : Except Nat (Mx × Nat)) v =>
      match a with
      | .error k => .error k
      | .ok (m, k) =>
        let n := sextNat 8 (v / 2 ^ 24)
        if n = 0 then .ok (m, k)
        else match addRecord c.trap m (v / 2 ^ 8 % 256 + d) (v % 128) n with
          | .ok (m, j) => .ok (m, k + j)
          | .error k => .error k) (.ok (accldMatrix c m d data, 0))
    match res with
    | .error code => .fault code
    | .ok (m', k) => .done m' (rowToken (r + d)) (1 + m.freePass rows.contains + 8 * k) 0 x.lfsr

end Sys2Proof.Machine
end

