-- ==== Sys2Proof/Machine/AddrGen.lean ====
section
/-! DEFINITION. Sys2Proof/Machine/AddrGen.lean: the address-generator instructions 0xA0 to 0xA7 and the range server's events
(13_memory_and_address_cells.md R245 to R250, 02_execution_model.md R34). -/

namespace Sys2Proof.Machine

/-! ## Counters (R140) -/

structure Counter where
  start : Nat
  step  : Int
  en    : Bool
  chain : Bool

def Cell.counter (c : Cell) (i : Nat) : Counter :=
  let d := field c.f4 (48 * i + 47) (48 * i)
  { start := d / 2 ^ 16 % 2 ^ 32, step := sextNat 8 (d / 2 ^ 8 % 2 ^ 8), en := d.testBit 7, chain := d.testBit 6 }

/-- The counters of the chain that starts at counter c, upward (R246). -/
def Cell.chainFrom (c : Cell) : Nat → Nat → List Nat
  | 0, _ => []
  | n + 1, i =>
    i :: (if i + 1 < 4 ∧ (c.counter (i + 1)).en ∧ (c.counter (i + 1)).chain then c.chainFrom n (i + 1) else [])

/-! ## CNT (R246) -/

/-- One step of the positions of a chain, the first fastest; none when the run is over. -/
def stepPos : List Nat → List Nat → Option (List Nat)
  | n :: ns, b :: bs =>
    if n + 1 < b then some ((n + 1) :: ns)
    else match stepPos ns bs with
      | some ns' => some (0 :: ns')
      | none => none
  | _, _ => none

/-- The iteration token at a run's position. -/
def iterToken (c : Cell) (chain pos bounds : List Nat) (index : W32) : Token :=
  let at' (j : Nat) : Option (Nat × Nat) := ((chain.zip (pos.zip bounds)).find? fun x => x.1 == j).map (·.2)
  { data := lanes fun l =>
      if l < 4 then
        match at' l with
        | some (n, _) => (((c.counter l).start : Int) + (n : Int) * (c.counter l).step) % 2 ^ 32 |>.toNat
        | none => 0
      else if l = 4 then index.toNat
      else if l = 15 then
        packElems 1 ((List.range 4).map fun j => match at' j with | some (n, b) => if n + 1 = b then 1 else 0 | none => 0)
      else 0 }

/-- Bounds of a run from L; a lane that is empty after the empty policy leaves its bound open (log 24). -/
def W.bounds (w : W) (l : Token) (chain : List Nat) : W × List Nat :=
  chain.foldl (fun (acc : W × List Nat) j =>
    if l.emptyAt j then let (w, n) := acc.1.freeBelow (2 ^ 32); (w, acc.2 ++ [n]) else (acc.1, acc.2 ++ [(l.lane j).toNat])) (w, [])

/-- The token a run sends at its position, with its marks: the head on the first, the tail on the last, the last-iteration mark on the last. -/
def Run.token (c : Cell) (chain : List Nat) (u : Run) : Token × Option Run :=
  let t := iterToken c chain u.pos u.bounds u.index
  let next := stepPos u.pos u.bounds
  let done := next.isNone
  ({ t with head := u.first, tail := done, last := (u.mark || u.tok.last) && done, rel := u.tok.rel, log := u.tok.log },
   next.map fun p => { u with pos := p, first := false })

/-- One null of a CNT: the run's marks, and the last-iteration mark where R246 gives it. -/
def cntNull (i : Ins) (mark : Bool) : Token := { i.nullOut with last := i.last || mark }

/-- CNT (R246): it takes its leaf's START where its cell is a head, begins a run when it is armed and its tokens stand, and sends one token on
an edge. -/
def execCnt (f : EFields) (s : State) : Res :=
  runElem s fun e w =>
    if !w.mayFire e then w
    else
      let w := match (w.region e.r).startLine e.cell with
        | some h => w.leafStart e.r h
        | none => w
      let g := w.region e.r
      let x := w.elem e
      let c := { w.cell e.r e.cell with f4 := x.f4.getD (w.cell e.r e.cell).f4 }
      let chain := c.chainFrom 4 (f.imm.toNat % 4)
      let isLast := (g.startLine e.cell).any fun h => g.lastCnt h == some e.key
      let send (w : W) (u : Run) : W :=
        let (t, next) := u.token c chain
        let (w, t) := w.birth e t
        (w.setElem e fun x => { x with run := next, nextG := w.now + 1 }).flyBoth e 1 t 0
      let begin' (w : W) (i : Ins) (index : W32) (mark : Bool) : W :=
        let w := w.consume e i
        if i.anyNull then w.flyBoth e 1 (cntNull i mark) 0
        else
          let l := i.l.policy x.empty x.k
          let (w, bs) := w.bounds l chain
          if bs.any (· == 0) then w.flyBoth e 1 (cntNull i mark) 0
          else send w { pos := bs.map fun _ => 0, bounds := bs, index := index, tok := i.markOnly {}, mark := mark }
      if !w.grantBoth e then
        let waits := x.run.isSome || (x.armed && (if x.names 2 then (x.take 2).isSome else (x.inputs {}).isSome))
        if waits then w.blocked e.r e.cell else w
      else match x.run with
        | some u => send ((w.stir g e.cell).pmc (siteQuad g e.cell) 2 1) u
        | none =>
          if !x.armed then w
          else if x.names 2 then
            match x.take 2 with
            | none => w
            | some (p, _) =>
              if !p.null && p.tail && !p.emptyAt 1 && p.lane 1 == 1 then
                let i : Ins := { p := p, pT := true }
                let w := (w.consume e i).setElem e fun x => { x with armed := false }
                w.flyBoth e 1 (cntNull i isLast) 0
              else
                match x.inputs { p := true } with
                | none => w
                | some i =>
                  let p := i.p.policy x.empty x.k
                  let (w, n) := if i.anyNull then (w, 0) else w.laneOrFree p
                  begin' w i (BitVec.ofNat 32 n) false
          else
            match x.inputs {} with
            | none => w
            | some i => begin' (w.setElem e fun x => { x with armed := false }) i 0 isLast

/-! ## Addresses -/

/-- An address token: lanes 1 : 0, the rest zero. -/
def addrToken (a : Nat) : Token := { data := BitVec.ofNat 512 (a % 2 ^ 64) }

/-- R of AFF and GATH is used by the first firing after each arming, if a target names it (R247). -/
def Elem.baseDue (x : Elem) : Bool := x.armed && x.names 1
/-- The base after a firing: lanes 1 : 0 of R when it was taken, none when that is no address (R225, R247). -/
def Elem.newBase (x : Elem) (i : Ins) : Option W64 := if x.baseDue then i.r.va else x.base

/-- The release mark that goes with the base after a firing (R90). -/
def Elem.newBaseRel (x : Elem) (i : Ins) : Option Rel := if x.baseDue then i.r.rel else x.baseRel
/-- The inputs of a firing whose result derives also from a base that an earlier one took: the base's release mark, which landed before them, is among them (R90). -/
def Ins.withBase (i : Ins) (x : Elem) : Ins := if x.baseDue then i else { i with r := { rel := x.baseRel }, rT := true }

/-- AFF (R247): base + stride × index. -/
def execAff (_f : EFields) (s : State) : Res :=
  runElem s fun e w =>
    let due := (w.elem e).baseDue
    w.fireAny e { r := due } fun x i w =>
      let b := x.newBase i
      let w := w.setElem e fun x => { x with base := b, baseRel := x.newBaseRel i, armed := if due then false else x.armed }
      let i := i.withBase x
      match b with
      | none => w.flyBoth e 1 i.nullOut 0
      | some b =>
        if i.l.null then w.flyBoth e 1 i.nullOut 0
        else
          let l := i.l.policy x.empty x.k
          if l.emptyAt 0 then w.flyBoth e 1 (i.mark { empty := 3 }) 0
          else
            let a := ((b.toNat : Int) + sextNat 32 x.k.toNat * ((l.lane 0).toNat : Int)) % 2 ^ 64
            w.flyBoth e 1 (i.mark (addrToken a.toNat)) 0

/-- The addresses that GATH sends for a token: for each full lane, in order, 2^(s−6) of them (R247). -/
def gathAddrs (l : Token) (b : W64) (sz : Nat) : List (Nat × Bool × Bool) :=
  let n := 2 ^ (sz - 6)
  ((List.range 16).filter fun i => !l.emptyAt i).flatMap fun i =>
    (List.range n).map fun j => ((b.toNat + (l.lane i).toNat * 2 ^ sz + 64 * j) % 2 ^ 64, decide (j = 0), decide (j + 1 = n))

/-- GATH (R247): one address on an edge, L consumed with the last. -/
def execGath (f : EFields) (s : State) : Res :=
  runElem s fun e w =>
    let sz := f.imm.toNat
    let x0 := w.elem e
    let due := x0.run.isNone && x0.baseDue
    if !w.mayFire e then w
    else if !w.grantBoth e then (if (x0.inputs { r := due }).isSome then w.blocked e.r e.cell else w)
    else match x0.inputs { r := due } with
      | none => w
      | some i =>
        -- the base is taken with the burst's first token, L with its last
        let b := if x0.run.isNone then x0.newBase i else x0.base
        let u : Run := match x0.run with
          | some u => u
          | none => { pos := [0], tok := { (i.withBase x0).markOnly {} with data := 0 } }
        let w := if due then w.consume e { i with lT := false } else w
        let w := w.setElem e fun x => { x with
          base := b, baseRel := if due then i.r.rel else x.baseRel, armed := if due then false else x.armed, nextG := w.now + 1 }
        let marks := fun (t : Token) => { t with rel := u.tok.rel, log := u.tok.log }
        let i' : Ins := { i with r := {}, rT := false }
        match b with
        | none => (w.consume e i').flyBoth e 1 { marks nullToken with last := i.last } 0
        | some b =>
          if i.l.null then (w.consume e i').flyBoth e 1 { marks nullToken with last := i.last } 0
          else
            let as := gathAddrs (i.l.policy x0.empty x0.k) b sz
            let k := u.pos.headD 0
            match as[k]? with
            | none => (w.consume e i').setElem e fun x => { x with run := none }
            | some (a, h, t) =>
              let last := decide (k + 1 = as.length)
              let w := if last then (w.consume e i').setElem e fun x => { x with run := none }
                else w.setElem e fun x => { x with run := some { u with pos := [k + 1] } }
              w.flyBoth e 1 { marks (addrToken a) with head := h, tail := t, last := last && u.tok.last } 0

/-- A result of one lane that depends on some lanes of L (R22): empty under FORWARD when one of them is empty, under ABSORB when all are. -/
def oneLane (empty : Nat) (l : Token) (ls : List Nat) (v : List Nat → Nat) : Token :=
  let full := ls.filter fun j => !l.emptyAt j
  let bad := if empty = 1 then full.isEmpty else decide (full.length ≠ ls.length)
  if bad then { empty := 1 } else lowLanes [v full]

/-- IDX (R248): the sum of the lanes that m selects. -/
def execIdx (f : EFields) (s : State) : Res :=
  runElem s fun e w =>
    w.fire e {} 1 fun x i w =>
      let l := i.l.policy x.empty x.k
      let ls := (List.range 5).filter fun j => f.imm.getLsbD j
      w.flyBoth e 1 (i.mark (oneLane x.empty l ls fun full => (full.foldl (fun n j => n + (l.lane j).toNat) 0) % 2 ^ 32)) 0

/-- LAST (R248): 1 when lane 15 has every bit of m set. -/
def execLast (f : EFields) (s : State) : Res :=
  runElem s fun e w =>
    w.fire e {} 1 fun x i w =>
      let l := i.l.policy x.empty x.k
      w.flyBoth e 1 (i.mark (oneLane x.empty l [15] fun _ =>
        if (List.range 4).all fun j => !f.imm.getLsbD j || (l.lane 15).getLsbD j then 1 else 0)) 0

/-- BND (R248): the lanes at or above the bound become empty; lanes of L that are empty stay empty under every policy. -/
def execBnd (_f : EFields) (s : State) : Res :=
  runElem s fun e w =>
    w.fire e { r := true } 1 fun x i w =>
      let l := i.l
      let r := i.r.policy x.empty x.k
      w.flyBoth e 1 (i.mark { l with empty := mask16 fun j => l.emptyAt j || r.emptyAt 0 || decide ((r.lane 0).toNat ≤ (l.lane j).toNat) }) 0

/-! ## The range (R34, R249, R250) -/

/-- An element has fewer than 16 answers outstanding or buffered (R226). -/
def Elem.mayAsk (x : Elem) : Bool := decide (x.flights.length < 16)
/-- An element asks the range server; its answer's flight waits, with the marks of the L token of a raise (R226). -/
def W.askRange (w : W) (e : ERef) (i : Ins) (raise : Bool) (n : Nat) : W :=
  let q := siteQuad (w.region e.r) e.cell
  let ref := match i.rel with | some r => r.ref | none => (w.cell e.r e.cell).latest
  let ask : Ask := { raise := raise, who := e.key, n := n, ref := ref, step := w.stepOf q }
  let w := w.setRegion e.r fun g => { g with range := { g.range with asks := g.range.asks ++ [ask] } }
  let t := hopOf w e.key (if raise then i.mark {} else i.markOnly {})
  w.setElem e fun x => { x with flights := x.flights ++ [{ req := some 0, a := some t, b := some t }] }
/-- An answer of the range server with the marks that its element took with the L token: its own release, which landed last, joined with theirs (R90, R156), the mark
of the last iteration and the log. The release is at PKG scope, which the spec does not state. DESIGN CHOICE (log 89). -/
def answerWith (rel : Rel) (t : Token) (k : Token) : Token :=
  { t with
    rel := some (match k.rel with | some r => { rel with scope := max rel.scope r.scope, cov := rel.cov.join r.cov } | none => rel)
    last := t.last || k.last, log := k.log <|> t.log }

/-- RNGP (R249): one pull for each L token, at most 8 outstanding, and at most 16 answers outstanding or buffered (R226). -/
def execRngp (_f : EFields) (s : State) : Res :=
  runElem s fun e w =>
    let x := w.elem e
    w.guard (w.onTurn e && !x.ended && decide (x.pulls < 8) && x.mayAsk) fun w =>
      match x.inputs {} with
      | none => w
      | some i =>
        let w := w.consume e i
        if i.l.null then w.flyBoth e 1 i.nullOut 0
        else
          let edge := w.edgeOf (w.region e.r) e.cell
          let dry := !x.flights.any fun f => f.req.isNone
          (w.askRange e i false 0).setElem e fun x => { x with
            pulls := x.pulls + 1, dryAt := if dry && x.dryAt.isNone then some (edge, w.ns) else x.dryAt }

/-- RNGX (R250): asks for a raise by lane 0 of L, with at most 16 answers outstanding or buffered (R226). -/
def execRngx (_f : EFields) (s : State) : Res :=
  runElem s fun e w =>
    w.guard (w.onTurn e && (w.elem e).mayAsk) fun w =>
      let x := w.elem e
      match x.inputs {} with
      | none => w
      | some i =>
        let w := w.consume e i
        if i.l.null then w.flyBoth e 1 i.nullOut 0
        else
          let (w, n) := w.laneOrFree (i.l.policy x.empty x.k)
          w.askRange e i true n

/-- The first waiting flight of an element takes its answer; none: it is dropped. -/
def answerAsk (due : Nat) (t : Option (Token → Token)) : List Flight → List Flight
  | [] => []
  | f :: fs =>
    if f.req == some 0 then
      match t with
      | some g => { f with req := none, due := due, a := f.a.map g, b := f.b.map g } :: fs
      | none => fs
    else f :: answerAsk due t fs

/-- RANGE_SERVER_PULL (R34, R249): the oldest ask, a pull, is answered: the next index, or the final answer. Each answer is a release from the range
server with the reference of its latest pennant, and with the marks of the token that asked. -/
def execRangeServerPull (r : Nat) (s : State) : Res :=
  run s fun w =>
    let g := w.region r
    match g.range.asks with
    | a :: rest =>
      if a.raise || !g.runsAt w.now then w
      else
        let e : ERef := ⟨r, a.who / 8, a.who % 8⟩
        let x := w.elem e
        let edge := w.edgeOf g e.cell
        let final := decide (g.range.count ≤ g.range.given)
        let idx := (g.range.first + g.range.given) % 2 ^ 32
        let rel : Rel := { scope := 4, agent := w.rangeAgent, ref := g.range.latest }
        let rg : Range := { g.range with asks := rest, final := g.range.final || final, given := if final then g.range.given else g.range.given + 1 }
        let w := w.setRegion r fun g => { g with range := rg }
        if x.ended && final then w.setElem e fun x => { x with
          pulls := x.pulls - 1, flights := answerAsk edge none x.flights, dryAt := if x.pulls ≤ 1 then none else x.dryAt }
        else
          let t : Token := { lowLanes [if final then 0 else idx, if final then 1 else 0] with tail := final }
          let (w, t) := w.birth e t
          -- the output stage stands empty no more; the wait ends when the answer lands (R249)
          let dry := match x.dryAt with | some (d, t0) => if d < edge then some (d, t0) else none | none => none
          w.setElem e fun x => { x with
            pulls := x.pulls - 1, ended := x.ended || final, dryAt := dry, flights := answerAsk edge (some (answerWith rel t)) x.flights }
    | [] => w

/-- A sequencer's GRAISE gets its answer (R275); a raise past 2^32 − 1 faults with 0x2E0. -/
def W.answerRaise (w : W) (quad : Nat) (ref : W32) (v : W64) (code : Nat) : W :=
  if code ≠ 0 then w.raiseSeq quad code
  else w.setSeq quad fun q => { q with wait := q.wait.map fun x =>
    { x with ready := true, num := v, agent := w.rangeAgent, ref := ref, arr := w.ns } }

/-- RANGE_SERVER_RAISE (R34, R250, R275): the oldest ask, a raise, is answered. It is refused after the range's final answer, but for an RNGX's of 0, and past
2^32 − 1, which also faults in the raising unit; an applied raise writes a pennant of the range server's ring, and one of 0 changes nothing. -/
def execRangeServerRaise (r : Nat) (s : State) : Res :=
  run s fun w =>
    let g := w.region r
    match g.range.asks with
    | a :: rest =>
      if !a.raise || !g.runsAt w.now then w
      else
        let w := w.setRegion r fun g => { g with range := { g.range with asks := rest } }
        let past := decide (2 ^ 32 - 1 < g.range.count + a.n)
        let refused := past || (g.range.final && (a.bySeq || a.n != 0))
        let producer := if a.bySeq then w.seqAgent a.who else w.elemAgent ⟨r, a.who / 8, a.who % 8⟩
        let (w, ref) :=
          if refused || a.n == 0 then (w, g.range.latest)
          else w.pennant 0xF1 g.part {
            waiter := w.rangeAgent, producer := producer, pref := a.ref, start := w.ns, arrival := w.ns, stop := w.ns, kind := 0x24, step := a.step }
        let w := if refused || a.n == 0 then w
          else w.setRegion r fun g => { g with range := { g.range with count := g.range.count + a.n, latest := ref } }
        let first := (g.range.first + g.range.count) % 2 ^ 32
        if a.bySeq then
          w.answerRaise a.who ref (if refused then 0 else BitVec.ofNat 64 (a.n % 2 ^ 32 * 2 ^ 32 + first)) (if past then 0x2E0 else 0)
        else
          let e : ERef := ⟨r, a.who / 8, a.who % 8⟩
          let edge := w.edgeOf g e.cell
          let rel : Rel := { scope := 4, agent := w.rangeAgent, ref := ref }
          if past then w.raiseElem e 0x2B0
          else
            let t (k : Token) : Token := if refused then nullToken else { lowLanes [first, a.n] with head := k.head, tail := k.tail }
            let put : Token → Token := fun k => answerWith rel (t k) k
            w.setElem e fun x => { x with flights := answerAsk edge (some put) x.flights }
    | [] => w

end Sys2Proof.Machine
end

