-- ==== Sys2Proof/Machine/Keccak.lean ====
section
/-! DEFINITION. Sys2Proof/Machine/Keccak.lean: SHAKE256 (29_boot_and_security.md R412, R414), as FIPS 202 defines it. -/

namespace Sys2Proof.Machine

/-- The lane at (x, y) of the state, 25 words in the order x + 5 × y. -/
def lane5 (a : List W64) (x y : Nat) : W64 := a.getD (x % 5 + 5 * (y % 5)) 0
/-- A state of 25 lanes, each given by its place. -/
def lanes25 (f : Nat → Nat → W64) : List W64 := (List.range 25).map fun i => f (i % 5) (i / 5)

/-- The rotation of each lane in ρ. -/
def rhoOffsets : List Nat := [0, 1, 62, 28, 27, 36, 44, 6, 55, 20, 3, 10, 43, 25, 39, 41, 45, 15, 21, 8, 18, 2, 61, 56, 14]
/-- The constants of ι. -/
def iotaConstants : List W64 :=
  [0x0000000000000001, 0x0000000000008082, 0x800000000000808A, 0x8000000080008000, 0x000000000000808B, 0x0000000080000001, 0x8000000080008081,
   0x8000000000008009, 0x000000000000008A, 0x0000000000000088, 0x0000000080008009, 0x000000008000000A, 0x000000008000808B, 0x800000000000008B,
   0x8000000000008089, 0x8000000000008003, 0x8000000000008002, 0x8000000000000080, 0x000000000000800A, 0x800000008000000A, 0x8000000080008081,
   0x8000000000008080, 0x0000000080000001, 0x8000000080008008]

/-- θ: each lane with the parities of two columns. -/
def theta (a : List W64) : List W64 :=
  let c := (List.range 5).map fun x => (List.range 5).foldl (fun v y => v ^^^ lane5 a x y) 0
  lanes25 fun x y => lane5 a x y ^^^ c.getD ((x + 4) % 5) 0 ^^^ (c.getD ((x + 1) % 5) 0).rotateLeft 1
/-- ρ and π: the lanes rotated, and in new places. -/
def rhoPi (a : List W64) : List W64 :=
  lanes25 fun x y => (lane5 a (x + 3 * y) x).rotateLeft (rhoOffsets.getD ((x + 3 * y) % 5 + 5 * x) 0)
/-- χ: each lane with the two after it in its row. -/
def chi (a : List W64) : List W64 := lanes25 fun x y => lane5 a x y ^^^ (~~~lane5 a (x + 1) y &&& lane5 a (x + 2) y)
/-- One round. -/
def keccakRound (a : List W64) (rc : W64) : List W64 :=
  let b := chi (rhoPi (theta a))
  b.set 0 (b.getD 0 0 ^^^ rc)
/-- Keccak-f[1600]. -/
def keccakF (a : List W64) : List W64 := iotaConstants.foldl keccakRound a

/-- The message padded for SHAKE to whole blocks of 136 bytes. -/
def shakePad (bs : List Byte) : List Byte :=
  let n := 136 - bs.length % 136
  bs ++ if n = 1 then [0x9F] else 0x1F :: List.replicate (n - 2) 0 ++ [0x80]
/-- Eight bytes as a lane, the first lowest. -/
def laneOf (bs : List Byte) : W64 := bs.foldr (fun b v => v <<< 8 ||| b.zeroExtend 64) 0
/-- A block is absorbed. -/
def absorb (a : List W64) (block : List Byte) : List W64 :=
  keccakF ((List.range 25).map fun i => a.getD i 0 ^^^ if i < 17 then laneOf ((block.drop (8 * i)).take 8) else 0)
/-- SHAKE256 with an output of n bytes, at most one block of 136. -/
def shake256 (n : Nat) (bs : List Byte) : List Byte :=
  let p := shakePad bs
  let a := (List.range (p.length / 136)).foldl (fun a i => absorb a ((p.drop (136 * i)).take 136)) (List.replicate 25 0)
  (a.flatMap fun v => (List.range 8).map fun k => v.extractLsb' (8 * k) 8).take n

end Sys2Proof.Machine
end

