-- ==== Sys2Proof/Machine/Memory.lean ====
section
/-! DEFINITION. Sys2Proof/Machine/Memory.lean: requests to global memory: placing an access on its sectors (R73 to R76, R373), issuing it, and
the events that perform it: the home's application, visibility at the other dies, a release's acquire
(05_ordering_local.md, 06_ordering_wide.md, R233 to R236). -/

namespace Sys2Proof.Machine

/-! ## Placing an access -/

/-- Which copies an access touches (R76): the copy an agent of a die reads or stores, the home copy, or all four, the home copy
first. -/
inductive Touch where
  | near (die : Nat)
  | home
  | copies
  | dies
deriving DecidableEq, Repr

/-- The location keys that an access touches at an offset of a page. -/
def Touch.keys (t : Touch) (l : Leaf) (off : Nat) : List Nat :=
  if l.place = 2 then
    let h := replicaHome (l.pa + off)
    match t with
    | .near d => [keyDie (if d < 4 then d else h) (l.pa + off)]
    | .home => [keyDie h (l.pa + off)]
    | .copies => keyDie h (l.pa + off) :: ((List.range 4).filter (· != h)).map fun d => keyDie d (l.pa + off)
    | .dies => leafKeys l off
  else leafKeys l off

/-- The parts of [va, va + len) in its 64-byte sectors: address, offset in the access, length. -/
def sectorsOf (va len : Nat) : List (Nat × Nat × Nat) :=
  let n := (va + len - 1) / 64 - va / 64 + 1
  (List.range n).map fun i =>
    let a := if i = 0 then va else (va / 64 + i) * 64
    let e := min (va + len) ((va / 64 + i + 1) * 64)
    (a, a - va, e - a)

/-- What an access's placement gives: its leaves, its pieces and the TLB entries used; or why it has none. -/
abbrev Placed := Except Xl (List Leaf × List Piece × List Nat)

/-- Place an access of a sender (R375): each sector is looked up in the sender's TLBs, a miss asks for a walk, and a hit in an outer
TLB fills the inner ones. -/
def W.placed (w : W) (src : Src) (part : Nat) (va : W64) (len : Nat) (a : Access) (t : Touch) (unit : Nat) : W × Placed :=
  let units := w.unitsOf src
  (sectorsOf va.toNat len).foldl (fun (acc : W × Placed) s =>
    let (w, r) := acc
    match r with
    | .error x => (w, .error x)
    | .ok (ls, ps, ts) =>
      match w.lookup units part (BitVec.ofNat 64 s.1) a with
      | .ok l off id =>
        let w := match w.m.mmu.tlb.find? (fun x => x.id == id) with
          | some x => ((units.filter (4 < ·)).filter fun u => !w.m.mmu.tlb.any fun y => y.id == id && y.unit == u).foldl (fun w u => w.tlbFill u x) w
          | none => w
        (w, .ok (ls ++ [l], ps ++ (t.keys l off).map fun k => { key := k, off := s.2.1, len := s.2.2 }, ts ++ [id]))
      | .miss => (w.addWalk src (w.srcAgent src) part (BitVec.ofNat 64 s.1) a unit, .error .miss)
      | x => (w, .error x)) (w, .ok ([], [], []))

/-- The cause code of a failed translation by the accessing unit: 0xA memory cell, 0xE sequencer, 0xF the rest (R229, R284, R372). -/
def xlateCode (unit : Nat) : Xl → Nat
  | .denied => 0x101 + 16 * unit
  | _ => 0x102 + 16 * unit

/-- Send a placed request: it takes its number, its sectors are counted (R81), and it joins the requests in issue order; what its write is causally
after is fixed now, but for the earlier accesses that are still to be performed (R96). -/
def W.issue (w : W) (r : Req) : W × Nat :=
  let (w, id) := w.fresh
  let w := w.countSent r.die (w.srcQuad r.src) (r.pieces.map (·.key))
  let cov := w.coverOf (w.eyeOf r.src) r.rel r.scope
  (w.send { r with id := id, agent := w.orderOf r.src, step := w.srcStep r.src, cov := cov }, id)

/-! ## Releases and acquires (R87, R88, R93) -/

/-- The release that a request is. -/
def W.relMark (w : W) (r : Req) : Rel :=
  let (agent, reg) := r.gone.getD (w.srcAgent r.src, w.srcRegion r.src)
  if r.rel then { scope := r.scope, agent := agent, ref := r.ref, reg := reg, step := r.step, who := r.agent + 1 } else {}

/-- What an acquire of an observer at a scope obtains from the writes that it reads: of the releases among them whose scope and its own contain both agents (R93),
the newest: the release, its time and its serial number. -/
def W.obtained (w : W) (e : Eye) (scope : Nat) (l : List (Rel × Nat × Nat)) : Option (Rel × Nat × Nat) :=
  (l.filter fun x => decide (x.1.scope ≠ 0 ∧ w.commonScope x.1 e ≤ x.1.scope ∧ w.commonScope x.1 e ≤ scope)).foldl (fun m c =>
    match m with | none => some c | some b => if b.2.2 < c.2.2 then some c else some b) none
/-- The words, by key / 8, of a location. -/
def wordsOf (key len : Nat) : List Nat := (List.range ((key % 8 + len + 7) / 8)).map fun i => key / 8 + i
/-- What it obtains by reading a location as it sees it; and, of an atomic, as it stands at the home (R94). -/
def W.acquired (w : W) (e : Eye) (scope key len : Nat) : Option (Rel × Nat × Nat) := w.obtained e scope ((wordsOf key len).filterMap (w.relAt e))
def W.acquiredHome (w : W) (e : Eye) (scope key len : Nat) : Option (Rel × Nat × Nat) :=
  w.obtained e scope ((wordsOf key len).filterMap (tget w.m.bus.rels))

/-! ## Element operations at the home (R233 to R236, R258) -/

/-- One reduction step of R235, R236 and R405: op 0 ADD, 1 MIN, 2 MAX. -/
def redElem (fmt op x y : Nat) : Nat × Flags :=
  let w := fmtWidth fmt
  if fmt ≤ 2 then (if op = 0 then faddF (Fmt.ofCode fmt) 0 0 false x y else fminmax (Fmt.ofCode fmt) (op == 2) x y)
  else if op = 0 then ((x + y) % 2 ^ w, 0)
  else
    let less := decide (intVal fmt w y < intVal fmt w x)
    (if op = 1 then (if less then y else x) else if decide (intVal fmt w x < intVal fmt w y) then y else x, 0)

/-- Reduce two byte strings element by element, as numbers. -/
def redBits (fmt op bits x y : Nat) : Nat × Flags :=
  let w := fmtWidth fmt
  let r := (List.range (bits / w)).map fun i => redElem fmt op (x / 2 ^ (w * i) % 2 ^ w) (y / 2 ^ (w * i) % 2 ^ w)
  (packElems w (r.map (·.1)), r.foldl (fun a v => a ||| v.2) 0)

/-- ATOM's operation on a 32-bit word (R233). -/
def atomWord (fmt op x y : Nat) : Nat × Flags :=
  match op with
  | 0 => redElem fmt 0 x y
  | 1 => redElem fmt 1 x y
  | 2 => redElem fmt 2 x y
  | 3 => (x &&& y, 0)
  | 4 => (x ||| y, 0)
  | 5 => (x ^^^ y, 0)
  | _ => (y, 0)

/-- AMO's operation in a word's width (R258). -/
def amoWord (w op x y : Nat) : Nat :=
  match op with
  | 0 => (x + y) % 2 ^ w
  | 1 => if sextNat w y < sextNat w x then y else x
  | 2 => if sextNat w x < sextNat w y then y else x
  | 3 => min x y
  | 4 => max x y
  | 5 => x &&& y
  | 6 => x ||| y
  | 7 => x ^^^ y
  | _ => y

/-- The words of an atomic at the home: the new words and the flags, of `n` words of `w` bits, those in the mask only. -/
def atomicStep (kind : ReqKind) (fmt n w : Nat) (mask : Nat) (old d d2 : Nat) : Nat × Flags :=
  let r := (List.range n).map fun i =>
    let x := old / 2 ^ (w * i) % 2 ^ w
    let y := d / 2 ^ (w * i) % 2 ^ w
    let z := d2 / 2 ^ (w * i) % 2 ^ w
    if !mask.testBit (w / 8 * i) then (x, (0 : Flags))
    else match kind with
      | .atomic op => if 16 ≤ op then (amoWord w (op - 16) x y, 0) else atomWord fmt op x y
      | .cas => (if x = y then z else x, 0)
      | _ => (x, 0)
  (packElems w (r.map (·.1)), r.foldl (fun a v => a ||| v.2) 0)

/-! ## Performing -/

/-- The bytes of a request that fall in a piece, by offset in the sector. -/
def Req.pieceBytes (r : Req) (p : Piece) : List (Nat × Byte) :=
  ((List.range p.len).filter fun i => r.mask.testBit (p.off + i)).map fun i => (p.key % 64 + i, r.data.extractLsb' (8 * (p.off + i)) 8)

/-- A piece read as the sender sees it. -/
def W.readPiece (w : W) (e : Eye) (p : Piece) : Nat := leNat (w.viewBytes e p.key p.len)
/-- The read of a piece by a request: its controller accepts it (R81), and its agent has seen the writes whose values it returns; a release that it reads
without an acquire is left to a later fence (R88). -/
def W.readBy (w : W) (r : Req) (p : Piece) : W :=
  let e := w.reqEye r
  let got := (w.obtained e 5 ((wordsOf p.key p.len).filterMap (w.relAt e))).map (·.1)
  let w := (w.countIn r.die (keyHome p.key)).learn e r.id (if r.acq then r.scope else 0) (w.sources e false p)
  match got with
  | some k => if r.acq then w else w.setBus fun b => { b with know := tput b.know e.agent { tgetD b.know e.agent {} with heard := some k } }
  | none => w
/-- What an acquiring request obtains by its read of a piece and its agent does not see yet. -/
def W.owedBy (w : W) (r : Req) (p : Piece) : List Nat :=
  if r.acq then w.owed (w.reqEye r) r.scope (w.sources (w.reqEye r) false p) else []
/-- A request may read a piece: the way to another device is open (R403), its agent's earlier accesses allow it, and what an acquire obtains its agent sees (R87, R96). -/
def W.mayRead (w : W) (r : Req) (p : Piece) : Bool := w.wayOpen p.key && mayPerform w.m.bus.reqs r && w.seesAll (w.reqEye r) (w.owedBy r p)
/-- The reference that a fence of an acquiring kind obtains at a scope; 0 for none (R88, R92). -/
def W.heardRef (w : W) (e : Eye) (kind scope : Nat) : W32 := match w.hears e kind scope with | some k => k.ref | none => 0

/-- Perform piece i of a request at its home, in one step (R94). -/
def W.applyPiece (w : W) (r : Req) (i : Nat) : W :=
  let p := r.pieces.getD i {}
  let sec := sectorKey p.key
  let e := w.reqEye r
  let put (w : W) (bs : List (Nat × Byte)) (vals : Tbl W512) (fl : Flags) (cov : Cov) : W :=
    -- the home's controller accepts it, whether or not it writes a byte (R81)
    let w := w.countIn r.die (keyHome p.key)
    let (w, ids) := if bs.isEmpty then (w, [0]) else
      let (w, id) := w.applyWrite e sec bs (w.relMark r) cov r.id
      -- an invalidation in progress that waits for the request waits for its writes too (R381)
      (if w.m.mmu.inv.contains r.id then w.setMmu fun x => { x with writes := id :: x.writes } else w, [id])
    w.setReq r.id fun q => { q with did := q.did ++ [i], vals := vals, flags := q.flags ||| fl, writes := ids ++ q.writes }
  let cov := r.cov
  match r.kind with
  | .write => put w (r.pieceBytes p) r.vals 0 cov
  | .mcst _ => put w (r.pieceBytes p) r.vals 0 cov
  | .rdcp op _ =>
    let old := leNat (w.bytes p.key p.len)
    let d := r.data.toNat / 2 ^ (8 * p.off)
    let ws := (List.range (p.len / 4)).map fun l =>
      let x := old / 2 ^ (32 * l) % 2 ^ 32
      if r.mask.testBit (p.off + 4 * l) then redBits r.fmt op 32 x (d / 2 ^ (32 * l) % 2 ^ 32) else (x, 0)
    let new := packElems 32 (ws.map (·.1))
    let bs := ((List.range p.len).filter fun b => r.mask.testBit (p.off + b)).map fun b => (p.key % 64 + b, BitVec.ofNat 8 (new / 2 ^ (8 * b)))
    (put w bs r.vals 0 cov).lateFlags r.part (ws.foldl (fun a v => a ||| v.2) 0)
  | k =>
    let width := match k with | .atomic op => if 16 ≤ op then 8 * r.size else 32 | _ => if r.size = 64 then 32 else 8 * r.size
    let old := leNat (w.bytes p.key p.len)
    -- it reads what it replaces, at the home: its write is after that, and its response waits until its agent sees what that is after
    let us := w.sources e true p
    let got := if r.acq then w.acquiredHome e r.scope p.key p.len else none
    let after := w.owed e (max 4 (if r.acq then r.scope else 0)) us
    let read := cov.join (w.throughAll e us)
    let w := (w.learn e r.id (if r.acq then r.scope else 0) us).setReq r.id fun q => { q with got := got, after := q.after ++ after }
    let (new, fl) := atomicStep k r.fmt (8 * p.len / width) width r.mask old r.data.toNat r.data2.toNat
    -- a compare that fails writes nothing (R234)
    let bs := ((List.range p.len).filter fun b => r.mask.testBit (b / (width / 8) * (width / 8)) &&
        swaps k width (b / (width / 8)) old r.data.toNat).map fun b =>
      (p.key % 64 + b, BitVec.ofNat 8 (new / 2 ^ (8 * b)))
    put w bs (tput r.vals i (BitVec.ofNat 512 old)) fl read
where
  /-- word n of an atomic's words is written -/
  swaps (k : ReqKind) (width n old d : Nat) : Bool := match k with
    | .cas => old / 2 ^ (width * n) % 2 ^ width == d / 2 ^ (width * n) % 2 ^ width
    | _ => true

/-- A request writes at its home: HOME_WRITE_APPLY's kinds. -/
def ReqKind.writes : ReqKind → Bool
  | .write => true
  | .atomic _ => true
  | .cas => true
  | .mcst _ => true
  | _ => false

/-- Every piece has been read or applied. -/
def Req.allDone (r : Req) : Bool := decide (r.pieces.length ≤ r.did.length)

/-- Pieces not yet performed. -/
def Req.left (r : Req) : List Nat := (List.range r.pieces.length).filter fun i => !r.did.contains i

/-- A later copy of an MCST.SEQ waits for the MCST.SEQ writes whose home copy of the same sector was written before its own (R99): their copies of that
sector, and of this piece's place in it, come first. -/
def W.seqOrder (w : W) (r : Req) (i : Nat) : Bool :=
  let p := r.pieces.getD i {}
  let at' := sectorKey p.key
  -- the number of the write of a request's home copy of a die offset
  let first (q : Req) (off : Nat) : Option Nat :=
    let n := ((List.range q.pieces.length).find? fun j => sectorKey (q.pieces.getD j {}).key % 2 ^ 40 == off % 2 ^ 40).getD 0
    if q.did.contains n then
      -- writes stand newest first, in the order of did
      q.writes.reverse[(q.did.findIdx fun j => j == n)]?
    else none
  w.m.bus.reqs.all fun q =>
    match q.kind, first q at', first r at' with
    | .mcst true, some a, some b => decide (b ≤ a) || !(q.left.any fun j => sectorKey (q.pieces.getD j {}).key == at')
    | _, _, _ => true

/-- The piece to apply next: in list order, the home copy first; any copy of a plain MCST (R76). -/
def W.nextPiece (w : W) (r : Req) : W × Option Nat :=
  match r.kind with
  | .mcst false =>
    let (w, k) := w.freeBelow r.left.length
    (w, (r.left.drop k).head?)
  | .mcst true =>
    match r.left.head? with
    | some i => (w, if w.seqOrder r i then some i else none)
    | none => (w, none)
  | _ => (w, r.left.head?)

/-- The release's message is sent once earlier accesses of its agent are performed: at SYS scope, everywhere (R97). -/
def W.relReady (w : W) (r : Req) : Bool :=
  !(r.rel && decide (r.scope = 5)) || (w.m.bus.unseen.all fun u => !(u.agent == r.agent || r.cov.covers u))

/-- The writes of a copy or a collective gain those of a request of its engine. -/
def W.ownerWrote (w : W) (owner : Nat) (ids : List Nat) : W :=
  w.setHub fun h => { h with
    copies := h.copies.map fun c => if c.id == owner then { c with writes := ids ++ c.writes } else c
    colls := h.colls.map fun c => if c.id == owner then { c with writes := ids ++ c.writes } else c }

/-- HOME_WRITE_APPLY (R94): the home applies the next part of a write or atomic, in coherence order, and of several that reach it on one cycle in
ascending requester id; a plain store of an element is then performed. -/
def execHomeWriteApply (id : Nat) (s : State) : Res :=
  run s fun w =>
    match w.req id with
    | none => w
    | some r =>
      if r.kind.writes && mayPerform w.m.bus.reqs r && w.relReady r then
        match w.nextPiece r with
        | (w, none) => w
        | (w, some i) =>
          if !w.homeOpen (w.reqEye r) (r.pieces.getD i {}).key then w else
          let w := w.applyPiece r i
          match w.req id, r.src, r.kind with
          | some q, .engine 51, _ => if q.allDone then (w.ownerWrote q.owner q.writes).dropReq id else w
          | some q, .elem _ _ _, .write => if q.allDone && !q.rel then w.dropReq id else w
          | some q, .elem _ _ _, .mcst _ => if q.allDone && !q.rel then w.dropReq id else w
          | some q, .engine _, .write => if q.allDone && !q.rel then w.dropReq id else w
          | _, _, _ => w
      else w

/-- A write, u, may become visible to an observer, or to a whole die: at another die of the package only when every write that its counts cover is
visible there (R96); at its own die to an agent once that agent sees what binds the die's agents, and to the whole die after what binds those of a region too.
Outside the package no causal order holds, but a release at SYS scope comes after what it covers, and a peer acknowledges what it is sent (R97). -/
def W.mayShow (w : W) (u : Unseen) (sees : Unseen → Bool) (whole : Bool) : Bool :=
  (u.die != 5 || !w.m.unacked u.id) && w.m.bus.unseen.all fun v => v.id == u.id || sees v || v.die != u.die || !(
    if u.die = u.src then (if whole then u.cov.covers v else u.cov.binds v)
    else if u.die = 5 then u.sys && u.cov.covers v
    else decide (v.src < 5 ∧ v.num ≤ u.cov.vec.getD v.src 0))

/-- A record that has been performed at SYS scope is counted, in its area's order (R359, R397). -/
def W.countArea (w : W) (a : Nat × Nat × List Nat) : W :=
  let n := if w.fld a.1 58 58 = 1 then a.2.1 else w.fld a.1 11 0
  let w := w.setFld a.1 11 0 (min (n + 1) 4095)
  if n + 1 = a.2.1 then w.setFld a.1 58 58 1 else w
def W.countAreas (w : W) : W :=
  let out (a : Nat × Nat × List Nat) : Bool := w.m.bus.unseen.any fun u => a.2.2.contains u.id
  -- of each area the leading records that every agent sees
  let due := w.m.hub.areas.filter fun a => !out a && (w.m.hub.areas.takeWhile fun b => b != a).all fun b => b.1 != a.1 || !out b
  due.foldl (fun w a => (w.countArea a).setHub fun h => { h with areas := h.areas.erase a }) w

/-- CROSS_DIE_WRITE_VISIBLE (R95, R96): a die makes a write visible: to all its agents (who = 0), to one agent (its number + 1), or to a region of its
own (2^50 + the region's key + 1, as a number + 1). What is visible to all has been written over what stood before. -/
def execCrossDieWriteVisible (d : Sight) (id : Nat) (s : State) : Res :=
  run s fun w =>
    match w.m.bus.unseen.find? fun u => u.die == d.die && u.id == id with
    | none => w
    | some u =>
      if d.who = 0 then
        w.guard (w.mayShow u (fun _ => false) true) fun w => W.countAreas <| w.setBus fun b => { b with
          unseen := settle u b.unseen
          shown := if d.die = 4 && u.seers.all (· == u.agent) then shows w.ns u b.shown else b.shown
          know := b.know.map fun k => (k.1, { k.2 with loads := keep b k.2.loads, stores := keep b k.2.stores, ord := keep b k.2.ord }) }
      else
        let sees (v : Unseen) : Bool := v.seers.contains (d.who - 1)
        w.guard (w.mayShow u sees false) fun w => w.setBus fun b => { b with
          unseen := b.unseen.map fun v => if v.die == d.die && v.id == id then { v with seers := v.seers ++ [d.who - 1] } else v
          shown := if d.die = 4 then shows w.ns u b.shown else b.shown }
where
  /-- the hub, or an agent of it, has come to see the words of a write (R131) -/
  shows (ns : Nat) (u : Unseen) (t : Tbl Nat) : Tbl Nat :=
    ((List.range 8).filter fun i => field u.mask (8 * i + 7) (8 * i) != 0).foldl (fun t i => tput t (u.key / 8 + i) ns) t
  /-- the list without a write that its die sees, which hides no byte any more from that die -/
  settle (u : Unseen) : List Unseen → List Unseen
    | [] => []
    | v :: t =>
      if v.die == u.die && v.id == u.id then t
      else (if v.die == u.die && v.key == u.key then { v with mask := v.mask &&& ~~~u.mask } else v) :: settle u t
  /-- numbers of writes that are still to be seen by some agent -/
  keep (b : Bus) (c : Cov) : Cov :=
    let out (n : Nat) : Bool := b.unseen.any fun v => v.id == n
    { c with near := c.near.filter out, close := c.close.filter out }

/-- The bytes that a release received from a peer writes: those of a store of 1, 2, 4 or 8 bytes, or of a sector of 64, or the sum of an 8-byte add. -/
def releaseBytes (len : Nat) (add : Bool) (old : List Byte) (val : W512) : List Byte :=
  leBytes len (if add then (leNat old + val.toNat % 2 ^ 64) % 2 ^ 64 else val.toNat % 2 ^ (8 * len))

/-- LINK_RELEASE_RECEIVE (R97): a SYS-scope release of a peer arrives: 1, 2, 4, 8 or 64 bytes are written, or a word is added to, at its interleaved address
here with the sender's reference, also while the receiving partition is switched out; the acquire takes place when a wait reads it. -/
def execLinkReleaseReceive (dev _part : Nat) (va : BitVec 64) (x : LinkData) (add : Bool) (ref : BitVec 32) (agent : Nat) (s : State) : Res :=
  run s fun w =>
    let pa := va.toNat - va.toNat % max x.len 1
    w.guard ([1, 2, 4, 8, 64].contains x.len && (!add || x.len == 8) && decide (pa + x.len ≤ maxInterleave ∧ dev ≠ w.fld Bar.devLoc 12 0)) fun w =>
      let key := keyDie (homeDie pa) (dieOffset pa)
      let e : Eye := { die := 5, agent := 2 ^ 41 + dev, id := agent % 2 ^ 19 + dev % 2 ^ 13 * 2 ^ 19 }
      -- the sender's earlier writes have been performed here before it (R97)
      let before := ((w.m.bus.unseen.filter fun u => u.agent == e.agent).map (·.id)).eraseDups
      -- on one cycle the home takes it in its id's turn (R94)
      if !w.homeOpen e key then w else (w.applyWrite e (sectorKey key) ((List.range x.len).zip (releaseBytes x.len add (w.bytes key x.len) x.val) |>.map fun (i, b) => (key % 64 + i, b))
        { scope := 5, agent := e.id, ref := ref } { near := before }).1

end Sys2Proof.Machine
end

