-- ==== Sys2Proof/Machine/MemCell.lean ====
section
/-! DEFINITION. Sys2Proof/Machine/MemCell.lean: the memory-cell instructions 0x80 to 0x91 (13_memory_and_address_cells.md R224 to R244) and the
events that answer their requests. -/

namespace Sys2Proof.Machine

/-! ## The cell's queue (R139, R238) -/

def Cell.qbase (c : Cell) : Nat := field c.f3 81 64
def Cell.qcap (c : Cell) : Nat := field c.f3 93 82
/-- An offset in the reserved range of the queue (R67, R139). -/
def Cell.reserved (c : Cell) (off : Nat) : Bool :=
  let s := off / 64 * 64
  decide (c.qbase ≤ s ∧ s < c.qbase + 64 * c.qcap)

/-! ## What holds a cell's accesses back -/

/-- An access may not be made yet: a fence that orders it has not completed (R241), a SIGLD waits (R243), or, for a bank access, an earlier
acquire has not been performed (R87). `store` says that it writes, `bank` that it is a bank access. -/
def W.cellHolds (w : W) (e : ERef) (store bank : Bool) : Bool :=
  let a := w.orderOf (.elem e.r e.cell e.slot)
  (w.m.bus.reqs.any fun q => q.agent == a && (match q.kind with
    | .mfence k => k != 2 || store
    | _ => bank && q.acq)) ||
  (List.range 6).any fun s => (w.elem ⟨e.r, e.cell, s⟩).sig.isSome

/-- The requests of an element that are outstanding, and those whose results stand in its response buffer: of a row's two tokens the tail counts (R226). -/
def W.outstanding (w : W) (e : ERef) : Nat :=
  (w.m.bus.reqs.filter fun q => q.src == .elem e.r e.cell e.slot).length +
  ((w.elem e).flights.filter fun f => f.req.isNone && !(match f.a with | some t => t.head && !t.tail && (w.elem e).fields.fmt == 5 | none => false)).length

/-- An element may make a global access on this edge: its turn, the cell's program order (R83, R228), nothing that holds it, and fewer than 16
requests outstanding or buffered (R226). -/
def W.globalTurn (w : W) (e : ERef) (store : Bool) : Bool :=
  let c := w.cell e.r e.cell
  w.onTurn e && !w.cellHolds e store false && decide (w.outstanding e < 16) &&
  (match c.hold with | some s => s == e.slot | none => true) &&
  !(c.globAt == w.now + 1 && decide (e.slot ≤ c.globBy))

/-- A result that waits for a response: the marks of its token now, its lanes later. -/
def W.awaitResult (w : W) (e : ERef) (id : Nat) (t : Token) : W :=
  let t := hopOf w e.key t
  w.setElem e fun x => { x with flights := x.flights ++ [{ req := some id, a := some t, b := some t }] }

/-- The answer of a request: its flights take their lanes and are due now. -/
def answerFlights (id due : Nat) (fl : Flags) : List Flight → List (W512 × BitVec 16) → List Flight
  | [], _ => []
  | f :: fs, ts =>
    if f.req == some id then
      match ts with
      | t :: ts' =>
        let put := Option.map fun (k : Token) => { k with data := t.1, empty := t.2 }
        { f with req := none, due := due, a := put f.a, b := put f.b, flags := fl } :: answerFlights id due fl fs ts'
      | [] => { f with req := none, due := due, flags := fl } :: answerFlights id due fl fs []
    else f :: answerFlights id due fl fs ts

def W.answer (w : W) (e : ERef) (id : Nat) (ts : List (W512 × BitVec 16)) (fl : Flags) : W :=
  let edge := w.edgeOf (w.region e.r) e.cell
  w.setElem e fun x => { x with flights := answerFlights id edge fl x.flights ts }

/-- What a global access of a cell is: its address, length, alignment, permission, copies, whether its leaves' placements are allowed, and
the request it makes from the state in which its tokens are consumed. -/
structure GlobalOp where
  va    : W64
  len   : Nat := 64
  align : Nat := 1
  access : Access := .read
  touch : Touch := .home
  placed : List Leaf → Bool := fun _ => true
  req   : W → Req

/-- Make a global access (R226, R228, R229): its address is checked, a translation that no TLB holds stops the cell's later global accesses and
leaves the tokens where they are, a refused access consumes them and raises its code, and otherwise the tokens are consumed, the request
is sent, and `f` says what is to come of it. -/
def W.globalAccess (w : W) (e : ERef) (i : Ins) (o : GlobalOp) (f : Nat → W → W) : W :=
  let g := w.region e.r
  let src : Src := .elem e.r e.cell e.slot
  let die := g.die
  let refuse (w : W) (code : Nat) : W := (w.consume e i).raiseElem e code o.va (some i.l)
  if o.va.toNat % o.align ≠ 0 then refuse w 0x122
  else if o.va.toNat / 2 ^ 56 ≠ 0 ∨ inScratch o.va then refuse w 0x123
  else
    match w.placed src g.part o.va o.len o.access o.touch 0xA with
    | (w, .error .miss) => w.setCell e.r e.cell fun c => { c with hold := some e.slot }
    | (w, .error x) => refuse w (xlateCode 0xA x)
    | (w, .ok (ls, ps, ts)) =>
      if !o.placed ls then refuse w 0x124
      else
        let w := w.consume e i
        let w := w.setCell e.r e.cell fun c => { c with globAt := w.now + 1, globBy := e.slot, hold := none }
        let r := o.req w
        let (w, id) := w.issue { r with
          die := die, part := g.part, src := src, va := o.va, pieces := ps, xlate := ts, place := (ls.map (·.place)).headD 0 }
        f id w

/-- The firing of a global access: its turn has come and its positions hold tokens; a null there sends a null as a result (R21, R225). -/
def W.globalFire (w : W) (e : ERef) (u : Uses) (store : Bool) (null : Ins → Bool) (f : Elem → Ins → W → W) : W :=
  if w.globalTurn e store then
    let x := w.elem e
    match x.inputs u with
    | none => w.noteHeld e u
    | some i => if null i then (w.consume e i).flyBoth e 1 i.nullOut 0 else f x i w
  else w

/-- The sector that an address token names (R225). -/
def sectorOf (va : W64) : W64 := BitVec.ofNat 64 (va.toNat / 64 * 64)

/-- Address, length and alignment of an access: a sector, or a Q4 row (R225, R227). -/
def rowOp (q4 : Bool) (va : W64) : W64 × Nat × Nat := if q4 then (va, 96, 32) else (sectorOf va, 64, 1)

/-- The scope S of a word (R147). -/
def scopeOf (f : EFields) : Nat := f.mod.toNat % 8

/-- Byte mask of the full lanes of a token as a store writes them (R22, R232). -/
def storeMask (t : Token) : Nat := packElems 4 ((List.range 16).map fun l => if t.emptyAt l then 0 else 15)
/-- The same for a row of two Q4 tokens: the bytes of the blocks that are not empty (R39). -/
def q4Mask (h t : Token) : Nat := packElems 3 ((List.range 32).map fun b => if q4Empty h t b then 0 else 7)

/-- A row read as two tokens (R39). -/
def q4Halves (row : Nat) : List (W512 × BitVec 16) := [(BitVec.ofNat 512 (row % 2 ^ 504), 0), (BitVec.ofNat 512 (row / 2 ^ 504 % 2 ^ 264), 0)]

/-- The result tokens of a row: head and tail marks, and the last-iteration mark on the tail alone (R227, R26). -/
def q4Marks (i : Ins) (n : Nat) (k : Nat) : Token :=
  let t := i.markOnly {}
  { t with head := decide (k = 0), tail := decide (k + 1 = n), last := t.last && decide (k + 1 = n) }

/-! ## Loads -/

/-- LD (R231): the sector, or the Q4 row as two tokens; with a scope an acquire. -/
def execLd (f : EFields) (s : State) : Res :=
  runElem s fun e w =>
    w.globalFire e {} false (fun i => i.l.va.isNone) fun _ i w =>
      let q4 := f.fmt.toNat == 5
      let (va, len, al) := rowOp q4 (i.l.va.getD 0)
      w.globalAccess e i {
          va := va, len := len, align := al, access := .read, touch := .near (w.region e.r).die
          req := fun _ => { kind := .read, size := len, acq := decide (scopeOf f ≠ 0), scope := scopeOf f, fmt := f.fmt.toNat } }
        fun id w =>
          if q4 then (w.awaitResult e id (q4Marks i 2 0)).awaitResult e id (q4Marks i 2 1)
          else w.awaitResult e id (i.mark {})

/-- RLD (R235): the four copies of a REPLICA sector in die order; over a communicator, the same sector of each of its devices in rank order, of which other
devices' are no state of this machine (log 12). -/
def execRld (f : EFields) (s : State) : Res :=
  runElem s fun e w =>
    w.globalFire e {} false (fun i => i.l.va.isNone) fun _ i w =>
      let comm := f.imm.toNat / 8
      w.globalAccess e i {
          va := sectorOf (i.l.va.getD 0), access := .read, touch := if comm = 0 then .dies else .home
          placed := fun ls => decide (comm ≠ 0) || ls.all fun l => l.place == 2
          req := fun _ => { kind := .rld (f.imm.toNat % 8) comm, acq := decide (scopeOf f ≠ 0), scope := scopeOf f, fmt := f.fmt.toNat, comm := comm } }
        fun id w => w.awaitResult e id (i.mark {})

/-- PREF (R237): fills the cell's TLBs, and a fault of any kind cancels it silently. -/
def execPref (_f : EFields) (s : State) : Res :=
  runElem s fun e w =>
    if w.onTurn e then
      match (w.elem e).inputs {} with
      | none => w.noteHeld e {}
      | some i =>
        let w := w.consume e i
        match i.l.va with
        | none => w
        | some va =>
          if va.toNat / 2 ^ 56 ≠ 0 ∨ inScratch va then w
          else
            let src : Src := .elem e.r e.cell e.slot
            let part := (w.region e.r).part
            match w.lookup (w.unitsOf src) part va .none with
            | .miss => w.addWalk src (w.elemAgent e) part va .none 0xA true
            | .ok _ _ _ => (w.placed src part va 1 .none .home 0xA).1
            | _ => w
    else w

/-! ## Stores and releases -/

/-- The release that a cell's access of scope S makes: the cell's latest reference (R92). -/
def W.cellRel (w : W) (e : ERef) (scope : Nat) : Rel :=
  { scope := scope, agent := w.elemAgent e, ref := (w.cell e.r e.cell).latest, reg := e.r + 1,
    step := w.stepOf (siteQuad (w.region e.r) e.cell), who := w.orderOf (.elem e.r e.cell e.slot) + 1 }

/-- A completion token: a token with a release mark at scope S, or the wider scope of a mark it carries (R90, R232). -/
def completion (t : Token) (i : Ins) (r : Rel) : Token :=
  let scope := match i.rel with | some k => max r.scope k.scope | none => r.scope
  { t with rel := some { r with scope := scope, cov := match i.rel with | some k => k.cov | none => {} }, last := i.last, log := i.log }

/-- A release that writes nothing (R91): it orders the cell's earlier accesses as any release, and sends `t` when they are performed. -/
def W.emptyRelease (w : W) (e : ERef) (i : Ins) (scope : Nat) (t : Token) : W :=
  let w := w.consume e i
  let w := w.setCell e.r e.cell fun c => { c with globAt := w.now + 1, globBy := e.slot }
  let g := w.region e.r
  let r := w.cellRel e scope
  let (w, id) := w.issue { die := g.die, part := g.part, src := .elem e.r e.cell e.slot, kind := .empty, rel := true, scope := scope, ref := r.ref }
  w.awaitResult e id (completion t i r)

/-- A row store's second operand: R is a burst of two tokens, the first kept until the second comes (R227). -/
inductive RowIn where
  | keep (t : Token)
  | row (h t : Token)
  | null
  | broken

def rowIn (buf : List Token) (t : Token) : RowIn :=
  match buf with
  | [] => if t.null then .null else if t.head && !t.tail then .keep t else .broken
  | h :: _ => if t.null || t.head || !t.tail then .broken else .row h t

/-- The inputs of a row's second firing with the marks of the burst's first token among them (R26, R90). -/
def Ins.withFirst (i : Ins) (h : Token) : Ins :=
  { i with r := { i.r with rel := relOf [h, i.r], last := h.last || i.r.last, log := h.log <|> i.r.log } }

/-- A Q4 store takes its burst at R: the first token is consumed alone; `f` has the whole row, or none for a null (R227), and the inputs with the marks of
both its tokens. -/
def W.rowStore (w : W) (e : ERef) (x : Elem) (i : Ins) (f : Ins → Option (Token × Token) → W → W) : W :=
  match rowIn x.buf i.r with
  | .keep t => (w.consume e { i with lT := false, pT := false }).setElem e fun x => { x with buf := [t], opened := true }
  | .null => f i none w
  | .broken => (w.consume e i).raiseElem e 0x220 0 (some i.r)
  | .row h t => (f (i.withFirst h) (some (h, t)) w).setElem e fun x => if x.inR.isNone then { x with buf := [], opened := false } else x

/-- ST and MCST (R232): the full lanes of R, or a Q4 row, to the sector, or to every copy of a REPLICA page. -/
def storeOp (f : EFields) (kind : ReqKind) (touch : Nat → Touch) (replica : Bool) (s : State) : Res :=
  runElem s fun e w =>
    let scope := scopeOf f
    let rel := decide (scope ≠ 0)
    let q4 := f.fmt.toNat == 5
    if w.globalTurn e true then
      let x := w.elem e
      match x.inputs { r := true } with
      | none => w.noteHeld e { r := true }
      | some i =>
        let nothing (i : Ins) (w : W) : W :=
          if rel then w.emptyRelease e i scope nullToken else w.consume e i
        let go (i : Ins) (len mask data : Nat) (w : W) : W :=
          let (va, _, al) := rowOp q4 (i.l.va.getD 0)
          w.globalAccess e i {
              va := va, len := len, align := al, access := .write, touch := touch (w.region e.r).die
              placed := fun ls => !replica || ls.all fun l => l.place == 2
              req := fun w => { kind := kind, size := len, fmt := f.fmt.toNat, data := BitVec.ofNat 768 data, mask := mask,
                                rel := rel, scope := scope, ref := (w.cell e.r e.cell).latest } }
            fun id w => if rel then w.awaitResult e id (completion i.l i (w.cellRel e scope)) else w
        if q4 then
          w.rowStore e x i fun i row w =>
            match row with
            | none => nothing i w
            | some (h, t) =>
              if i.l.va.isNone then nothing i w
              else
                let h := h.policy x.empty x.k
                let t := t.policy x.empty x.k
                go i 96 (q4Mask h t) (q4Bytes h t) w
        else if i.r.null || i.l.va.isNone then nothing i w
        else
          let r := i.r.policy x.empty x.k
          go i 64 (storeMask r) r.data.toNat w
    else w

def execSt (f : EFields) (s : State) : Res := storeOp f .write .near false s
def execMcst (f : EFields) (s : State) : Res := storeOp f (.mcst (f.mod.getLsbD 3)) (fun _ => .copies) true s

/-- SIGST (R242): lanes 1 : 0 of R to an aligned 8-byte word, a release; a null at L or R, or a lane that its empty policy leaves empty, writes nothing and still
releases. -/
def execSigst (f : EFields) (s : State) : Res :=
  runElem s fun e w =>
    w.globalFire e { r := true } true (fun _ => false) fun x i w =>
      let scope := scopeOf f
      let r := i.r.policy x.empty x.k
      if i.l.va.isNone || i.r.null then w.emptyRelease e i scope nullToken
      else if r.emptyAt 0 || r.emptyAt 1 then w.emptyRelease e i scope i.l
      else
        w.globalAccess e i {
            va := i.l.va.getD 0, len := 8, align := 8, access := .write, touch := .near (w.region e.r).die
            placed := fun ls => ls.all fun l => decide (l.place < 3 ∨ scope = 5)
            req := fun w => { kind := .write, size := 8, data := BitVec.ofNat 768 r.low64.toNat, mask := 0xFF, rel := true, scope := scope,
                              ref := (w.cell e.r e.cell).latest } }
          fun id w => w.awaitResult e id (completion i.l i (w.cellRel e scope))

/-! ## Atomics and port reductions -/

/-- The lanes an atomic takes part in, after the empty policy: full in every operand (R233, R234). -/
def atomLanes (ts : List Token) : List Nat := (List.range 16).filter fun l => ts.all fun t => !t.emptyAt l

/-- ATOM and CAS (R233, R234): one indivisible step on the sector's words at the home; with a scope an acquire and a release. `host` says which
forms a HOST page carries. -/
def atomOp (f : EFields) (u : Uses) (kind : ReqKind) (host : Bool) (s : State) : Res :=
  runElem s fun e w =>
    w.globalFire e u true (fun i => i.l.va.isNone || i.r.null || (u.p && i.p.null)) fun x i w =>
      let r := i.r.policy x.empty x.k
      let p := i.p.policy x.empty x.k
      let full := atomLanes (if u.p then [r, p] else [r])
      let mask := packElems 4 ((List.range 16).map fun l => if full.contains l then 15 else 0)
      w.globalAccess e i {
          va := sectorOf (i.l.va.getD 0), access := .atomic, touch := .home
          placed := fun ls => ls.all fun l => l.place != 3 || (host && full.length == 1)
          req := fun w => { kind := kind, fmt := f.fmt.toNat, data := r.data.zeroExtend 768, data2 := p.data.zeroExtend 768, mask := mask,
                            acq := decide (scopeOf f ≠ 0), rel := decide (scopeOf f ≠ 0), scope := scopeOf f, ref := (w.cell e.r e.cell).latest } }
        fun id w => w.awaitResult e id (i.mark {})

def execAtom (f : EFields) (s : State) : Res :=
  atomOp f { r := true } (.atomic f.imm.toNat) (f.imm == 6 || (f.imm == 0 && f.fmt != 0)) s
def execCas (f : EFields) (s : State) : Res := atomOp f { r := true, p := true } .cas true s

/-- RDCP (R236): the full lanes of R as a contribution to the destination sector, with its sequence number. -/
def execRdcp (f : EFields) (s : State) : Res :=
  runElem s fun e w =>
    w.globalFire e { r := true } true (fun i => i.l.va.isNone || i.r.null) fun x i w =>
      let r := i.r.policy x.empty x.k
      w.globalAccess e i {
          va := sectorOf (i.l.va.getD 0), access := .atomic, touch := .home
          placed := fun ls => ls.all fun l => l.place != 3
          req := fun w => { kind := .rdcp (f.imm.toNat % 4) x.seqNo, fmt := f.fmt.toNat, data := r.data.zeroExtend 768, mask := storeMask r,
                            ref := (w.cell e.r e.cell).latest } }
        fun id w =>
          let w := w.setElem e fun x => { x with seqNo := x.seqNo + 1 }
          w.awaitResult e id (completion i.l i (w.cellRel e 0))

/-! ## Bank accesses -/

/-- Inputs of a RECV: R engine-fed when no target names it (R224, R239). -/
def Elem.recvInputs (x : Elem) : Option Ins :=
  if x.names 1 then x.inputs { r := true }
  else match x.take 0, x.inR with
    | some l, some r => some { l := l.1, r := r, lT := l.2, rT := true }
    | _, _ => none

/-- Note the first time at which an element with an engine-fed position waited for that position alone, or only for its other one (R425). -/
def W.noteFed (w : W) (e : ERef) (pos : Nat) (fed other : Bool) : W :=
  let p := if fed then pos else 1 - pos
  if fed != other ∧ w.grantBoth e ∧ (tget (w.elem e).heldAt p).isNone then w.setElem e fun x => { x with heldAt := tput x.heldAt p w.ns } else w

/-- A bank element writes: STL, QPUSH, RECV; it reads: LDL, QPOP, SEND (R84). -/
def bankWrites (opc : Nat) : Bool := [0x83, 0x89, 0x8C].contains opc
def bankReads (opc : Nat) : Bool := [0x82, 0x8A, 0x8B].contains opc

/-- The inputs with which a bank element could fire. -/
def W.bankInputs (w : W) (e : ERef) : Option Ins :=
  let x := w.elem e
  let c := w.cell e.r e.cell
  match x.opc with
  | 0x83 => x.inputs { r := true }
  | 0x89 => if c.queue.length < c.qcap then x.inputs {} else none
  | 0x8A => match c.queue with
    | t :: _ => if t.landed < w.now then some {} else none
    | [] => none
  | 0x8C => x.recvInputs
  | _ => x.inputs {}

/-- Everything of a bank element's firing but the bank's slot. -/
def W.bankReady (w : W) (e : ERef) : Bool :=
  w.mayFire e && !w.cellHolds e (bankWrites (w.elem e).opc) true && (w.bankInputs e).isSome && w.grantBoth e

/-- The bank's slot is an element's on this edge: it is free, and no lower element of the cell that needs it could fire; a read comes before
the edge's write (R84). -/
def W.bankSlot (w : W) (e : ERef) (write : Bool) : Bool :=
  let c := w.cell e.r e.cell
  let same := if write then bankWrites else bankReads
  (if write then c.writeAt != w.now + 1 else c.readAt != w.now + 1 && c.writeAt != w.now + 1) &&
  decide ((if write then c.writeTo else c.readTo) < max (w.edgeOf (w.region e.r) e.cell) 1) &&
  (List.range e.slot).all fun s => !(same (w.elem ⟨e.r, e.cell, s⟩).opc && w.bankReady ⟨e.r, e.cell, s⟩)

/-- A Q4 row keeps its bank's slot on the next island edge too, for its second sector (R66; log 51). -/
def W.bankRow (w : W) (e : ERef) (write : Bool) : W :=
  let upTo := w.edgeOf (w.region e.r) e.cell + 1
  w.setCell e.r e.cell fun c => if write then { c with writeTo := upTo } else { c with readTo := upTo }

/-- The firing of a bank element; `n` results of it, from 4 edges on, reserve their landing edges (R18). -/
def W.bankFire (w : W) (e : ERef) (write : Bool) (f : Elem → Ins → W → W) (n : Nat := 0) : W :=
  if w.bankReady e && w.bankSlot e write && (w.elem e).unreserved (w.edgeOf (w.region e.r) e.cell + 4 + (w.elem e).pass) n then
    match w.bankInputs e with
    | none => w
    | some i =>
      let x := w.elem e
      let w := w.consume e i
      f x i (w.setCell e.r e.cell fun c => if write then { c with writeAt := w.now + 1 } else { c with readAt := w.now + 1 })
  else if w.mayFire e && (w.bankInputs e).isSome && !w.grantBoth e then w.blocked e.r e.cell
  else if w.mayFire e && (w.bankInputs e).isNone then
    if (w.elem e).opc = 0x8A then
      -- its queue stands for its position L
      if w.grantBoth e && (tget (w.elem e).heldAt 0).isNone then w.setElem e fun x => { x with heldAt := tput x.heldAt 0 w.ns } else w
    else if (w.elem e).opc = 0x8C ∧ ¬ (w.elem e).names 1 then w.noteFed e 1 (w.elem e).inR.isNone ((w.elem e).take 0).isNone
    else w.noteHeld e { r := decide ((w.elem e).opc = 0x83 ∨ (w.elem e).opc = 0x8C) }
  else w

/-- A bank offset checked (R66, R67, R227): the first byte accessed, or the code it faults with. -/
def bankAddr (c : Cell) (off len : Nat) : Except Nat Nat :=
  if 0x40000 ≤ off then .error 0x120
  else if len = 96 then
    if off % 32 ≠ 0 then .error 0x122
    else if 0x40000 < off + 96 then .error 0x120
    else if c.reserved off || c.reserved (off + 95) then .error 0x121
    else .ok off
  else if c.reserved off then .error 0x121
  else .ok (off / 64 * 64)

/-- Write the bytes of a mask into a bank. -/
def bankPut (m : Memory) (at' data mask n : Nat) : Memory :=
  (List.range n).foldl (fun m b => if mask.testBit b then memWrite m (at' + b) (BitVec.ofNat 8 (data / 2 ^ (8 * b))) else m) m

/-- LDL (R231): the bank's sector, 4 island cycles later, or a Q4 row as two tokens, whose second sector keeps the read slot for one more edge. -/
def execLdl (f : EFields) (s : State) : Res :=
  runElem s fun e w =>
    w.bankFire e false (n := if f.fmt = 5 then 2 else 0) fun _ i w =>
      match i.l.bankOff with
      | none => w.flyBoth e 4 i.nullOut 0
      | some off =>
        let len := if f.fmt = 5 then 96 else 64
        match bankAddr (w.cell e.r e.cell) off len with
        | .error c => w.raiseElem e c (BitVec.ofNat 64 off) (some i.l)
        | .ok a =>
          let row := leNat (memBytes (w.bank e.r e.cell) a len)
          if f.fmt = 5 then
            (w.bankRow e false).flyBurst e 4 ((q4Halves row).map fun t => { i.markOnly {} with data := t.1, empty := t.2 }) 0
          else w.flyBoth e 4 (i.mark { data := BitVec.ofNat 512 row }) 0

/-- STL (R232): the full lanes of R into the bank on the firing edge, or a Q4 row. -/
def execStl (f : EFields) (s : State) : Res :=
  runElem s fun e w =>
    let x := w.elem e
    if f.fmt = 5 then
      match w.bankInputs e with
      | some i =>
        if w.bankReady e && w.bankSlot e true then
          w.rowStore e x i fun _ row w =>
            w.bankFire e true fun x i w =>
              match i.l.bankOff, row with
              | some off, some (h, t) =>
                match bankAddr (w.cell e.r e.cell) off 96 with
                | .error c => w.raiseElem e c (BitVec.ofNat 64 off) (some i.l)
                | .ok a =>
                  let h := h.policy x.empty x.k
                  let t := t.policy x.empty x.k
                  (w.bankRow e true).setBank e.r e.cell fun m => bankPut m a (q4Bytes h t) (q4Mask h t) 96
              | _, _ => w
        else w
      | none => w.guard (w.mayFire e) fun w => w.noteHeld e { r := true }
    else
      w.bankFire e true fun x i w =>
        match i.l.bankOff with
        | none => w
        | some off =>
          if i.r.null then w
          else
            match bankAddr (w.cell e.r e.cell) off 64 with
            | .error c => w.raiseElem e c (BitVec.ofNat 64 off) (some i.l)
            | .ok a =>
              let r := i.r.policy x.empty x.k
              w.setBank e.r e.cell fun m => bankPut m a r.data.toNat (storeMask r) 64

/-- A token appended to a cell's queue, and its bytes to the queue's range (R238). -/
def W.queuePush (w : W) (r cell : Nat) (t : Token) : W :=
  let c := w.cell r cell
  let slot := (c.qhead + c.queue.length) % max c.qcap 1
  let w := w.setBank r cell fun m => memPut m (c.qbase + 64 * slot) (leBytes 64 t.data.toNat)
  w.setCell r cell fun c => { c with queue := c.queue ++ [t.land w.now w.ns] }
/-- The head of a cell's queue removed. -/
def W.queuePop (w : W) (r cell : Nat) : W :=
  w.setCell r cell fun c => { c with queue := c.queue.tail, qhead := (c.qhead + 1) % max c.qcap 1 }

/-- QPUSH (R238): L whole into the cell's queue. -/
def execQpush (_f : EFields) (s : State) : Res :=
  runElem s fun e w => w.bankFire e true fun _ i w => w.queuePush e.r e.cell i.l

/-- The queue of a cell that only INJ feeds: no QPUSH stands in the cell (R278); its QPOP is a source (R396). -/
def Region.injFed (g : Region) (cell : Nat) : Bool := (List.range 6).all fun s => (tgetD g.elems (ekey cell s) {}).opc != 0x89
/-- QPOP (R238): the queue's head to the targets; a release mark on it is acquired (R90), and a done source has seen the mark of the last iteration (R26). -/
def execQpop (_f : EFields) (s : State) : Res :=
  runElem s fun e w =>
    w.bankFire e false fun _ _ w =>
      match (w.cell e.r e.cell).queue with
      | [] => w
      | t :: _ =>
        let w := ((w.acquireBy e { l := t, lT := true }).queuePop e.r e.cell).setElem e fun x => { x with lastSeen := x.lastSeen || (x.done && t.last), heldAt := [] }
        let (w, t) := if (w.region e.r).injFed e.cell then w.birth e t else (w, t)
        w.flyBoth e 4 t 0

/-- SEND (R239): the bank's sector to its partner's R. -/
def execSend (_f : EFields) (s : State) : Res :=
  runElem s fun e w =>
    w.bankFire e false fun _ i w =>
      match i.l.bankOff with
      | none => w.flyBoth e 4 i.nullOut 0
      | some off =>
        match bankAddr (w.cell e.r e.cell) off 64 with
        | .error c => w.raiseElem e c (BitVec.ofNat 64 off) (some i.l)
        | .ok a => w.flyBoth e 4 (i.mark { data := BitVec.ofNat 512 (leNat (memBytes (w.bank e.r e.cell) a 64)) }) 0

/-- RECV (R239): the full lanes of R into its own bank, and its L token one island cycle later. -/
def execRecv (_f : EFields) (s : State) : Res :=
  runElem s fun e w =>
    w.bankFire e true fun x i w =>
      match i.l.bankOff with
      | none => w.flyBoth e 1 i.nullOut 0
      | some off =>
        if i.r.null then w.flyBoth e 1 i.nullOut 0
        else
          match bankAddr (w.cell e.r e.cell) off 64 with
          | .error c => w.raiseElem e c (BitVec.ofNat 64 off) (some i.l)
          | .ok a =>
            let r := i.r.policy x.empty x.k
            let w := w.setBank e.r e.cell fun m => bankPut m a r.data.toNat (storeMask r) 64
            let t : Token := { i.l with rel := i.rel, last := i.last, log := i.log }
            -- one whose R an engine feeds is a source (R396)
            let (w, t) := if x.names 1 then (w, t) else w.birth e t
            w.flyBoth e 1 t 0

/-- LAND (R240): forwards each landing token that the engine feeds, unchanged. -/
def execLand (_f : EFields) (s : State) : Res :=
  runElem s fun e w =>
    w.guard (w.mayFire e) fun w =>
      match (w.elem e).inL with
      | none => if w.grantBoth e then w.noteFed e 0 true false else w
      | some t =>
        if !w.grantBoth e then w.blocked e.r e.cell
        else
        let (w, t) := (w.consume e { l := t, lT := true }).birth e t
        w.flyBoth e 1 t 0

/-! ## Fences and signal waits -/

/-- MFENCE (R241): its kind at scope S takes its place in the cell's program order; the trigger goes on when it has completed. -/
def execMfence (f : EFields) (s : State) : Res :=
  runElem s fun e w =>
    if w.globalTurn e true then
      match (w.elem e).inputs {} with
      | none => w.noteHeld e {}
      | some i =>
        let w := w.consume e i
        let w := w.setCell e.r e.cell fun c => { c with globAt := w.now + 1, globBy := e.slot }
        let g := w.region e.r
        let (w, id) := w.issue {
          die := g.die, part := g.part, src := .elem e.r e.cell e.slot, kind := .mfence f.imm.toNat, scope := scopeOf f, place := w.edgeOf g e.cell }
        w.awaitResult e id { i.l with rel := i.rel, last := i.last, log := i.log }
    else w

/-- SIGLD (R243): it reads the word as an acquire, and again after each write to its sector, until it is at least the threshold. -/
def execSigld (f : EFields) (s : State) : Res :=
  runElem s fun e w =>
    w.globalFire e { r := true } false (fun i => i.l.va.isNone || i.r.null) fun _ i w =>
      let scope := scopeOf f
      w.globalAccess e i {
          va := i.l.va.getD 0, len := 8, align := 8, access := .read, touch := .near (w.region e.r).die
          placed := fun ls => ls.all fun l => decide (l.place < 3 ∨ scope = 5)
          req := fun _ => { kind := .read, size := 8, acq := true, scope := scope, watch := true } }
        fun id w =>
          let wait : SigWait := { va := i.l.va.getD 0, thr := if i.r.emptyAt 0 then 0 else (i.r.lane 0).toNat, first := w.ns, req := some id }
          (w.awaitResult e id (i.mark {})).setElem e fun x => { x with sig := some wait }

/-! ## Responses -/

/-- A cell acquires what the newest release to the words read carries (R87, R92). -/
def W.cellAcquire (w : W) (e : ERef) (r : Req) (len : Nat) : W :=
  match w.acquired (w.reqEye r) r.scope ((r.pieces.headD {}).key) len with
  | some (k, _, _) => w.cellRef e.r e.cell k.ref
  | none => w

/-- The values of a request's pieces, put together by their offsets. -/
def Req.gather (r : Req) : Nat :=
  ((List.range r.pieces.length).zip r.pieces).foldl (fun n (i, p) => n ||| ((tgetD r.vals i 0).toNat <<< (8 * p.off))) 0

/-- The copies of an RLD reduced in die order (R235). -/
def Req.reduce (r : Req) (op : Nat) : Nat × Flags :=
  match (List.range r.pieces.length).map fun i => (tgetD r.vals i 0).toNat with
  | [] => (0, 0)
  | v :: vs => vs.foldl (fun (a : Nat × Flags) y => let (n, fl) := redBits r.fmt op 512 a.1 y; (n, a.2 ||| fl)) (v, 0)

/-- What the word that a waiting read has found says of its writer (R243, R283): the releasing agent, the reference it carried, and when the home applied it. -/
def W.wordFrom (w : W) (r : Req) (p : Piece) : Nat × W32 × Nat :=
  match w.relAt (w.reqEye r) (p.key / 8) with
  | some (k, t, _) => if k.scope ≠ 0 then (k.agent, k.ref, t) else (noAgentId, 0, t)
  | none => (noAgentId, 0, w.ns)
/-- A waiting request may read its word: its first read, or one more for a write that the home has applied and its agent sees (R305). -/
def W.mayReread (w : W) (r : Req) (reads : Nat) : Bool :=
  w.mayRead r (r.pieces.headD {}) && (reads == 0 || match r.due with | [] => false | n :: _ => w.seesAll (w.reqEye r) [n])
/-- The reread is a request of its own (R81), and the write that it answers is no longer due. -/
def W.countAgain (w : W) (r : Req) (reads : Nat) : W :=
  if reads = 0 then w else (w.countSent r.die (w.srcQuad r.src) [(r.pieces.headD {}).key]).setReq r.id fun q => { q with due := q.due.tail }
def W.reread (w : W) (r : Req) (reads : Nat) : W := (w.readBy r (r.pieces.headD {})).countAgain r reads

/-- A SIGLD's read (R243): it ends when the word is at least the threshold, and writes a pennant when that was not its first read. -/
def W.sigRead (w : W) (e : ERef) (r : Req) (g : SigWait) : W :=
  w.guard (w.mayReread r g.reads) fun w =>
    let p := r.pieces.headD {}
    let v := w.readPiece (w.reqEye r) p
    let (pr, rf, at') := w.wordFrom r p
    let w' := w.reread r g.reads
    if v < g.thr then
      w'.setElem e fun x => { x with sig := some { g with reads := g.reads + 1, first := if g.reads = 0 then w.ns else g.first } }
    else
      let w' := if g.reads = 0 then w'.cellAcquire e r 8 else w'.cellPennant e pr rf g.first at' 0x0A
      let w' := (w'.dropReq r.id).setElem e fun x => { x with sig := none }
      w'.answer e r.id [(BitVec.ofNat 512 v, 0)] 0

/-- An uncorrectable DRAM error in the data that a cell reads: 0x320; the access goes, and its element sends nothing (R229). -/
def W.cellBad (w : W) (e : ERef) (r : Req) : W :=
  let home := match r.left.head? with | some i => keyHome (r.pieces.getD i {}).key | none => r.die
  ((w.countIn r.die home).dropReq r.id).raiseElem e 0x320 r.va
/-- The lanes that an RLD over a communicator obtains: this device's sector reduced, in rank order, with the free lanes of the other ranks (R235, log 12). -/
def W.rldRanks (w : W) (r : Req) (op : Nat) : W × W512 × Flags :=
  let va := BitVec.ofNat 64 (w.fld (Bar.partComm r.part) 55 11 * 2 ^ 11 + 64 * r.comm)
  let mine := w.readPiece (w.reqEye r) (r.pieces.headD {})
  let draw := w.m.draw
  match ({ w with m := { w.m with draw := draw + 1 } } : W).hubTake r.part va 64 with
  | (w, some bs) =>
    let ranks := min (leNat (bs.take 2)) 8192
    let me := leNat ((bs.drop 2).take 2)
    let v (k : Nat) : Nat := if k = me then mine else (Config.peerSector r.part r.comm draw k).toNat
    let (x, fl) := (List.range (ranks - 1)).foldl (fun (a : Nat × Flags) k =>
      let (n, g) := redBits r.fmt op 512 a.1 (v (k + 1)); (n, a.2 ||| g)) (v 0, 0)
    (w, BitVec.ofNat 512 x, fl)
  -- the table itself is not mapped: the spec states no result
  | (w, none) => (w, Config.freeWord draw, 0)

/-- GLOBAL_RESPONSE (R226): the next part of a cell's read is performed, or the answer of its atomic returns; with the last, the result is due. `bad` says
that DRAM returned an uncorrectable error. -/
def execGlobalResponse (a : Reply) (s : State) : Res :=
  run s fun w =>
    match w.req a.id with
    | none => w
    | some r =>
      match r.src with
      | .elem rr c sl =>
        let e : ERef := ⟨rr, c, sl⟩
        let p := match r.left.head? with | some i => r.pieces.getD i {} | none => {}
        let readNext (w : W) (r : Req) : W × Req :=
          match r.left.head? with
          | none => (w, r)
          | some i =>
            let w' := w.readBy r (r.pieces.getD i {})
            let r' := { r with did := r.did ++ [i], vals := tput r.vals i (BitVec.ofNat 512 (w.readPiece (w.reqEye r) (r.pieces.getD i {}))) }
            (w'.setReq a.id fun _ => r', r')
        match r.kind with
        | .read =>
          w.guard (mayPerform w.m.bus.reqs r) fun w =>
            match (w.elem e).sig with
            | some g =>
              if g.req ≠ some a.id then w
              -- an error ends only a read that is made (R305)
              else if a.bad then w.guard (w.mayReread r g.reads) fun w => ((w.countAgain r g.reads).cellBad e r).setElem e fun x => { x with sig := none }
              else w.sigRead e r g
            | none =>
              w.guard (w.mayRead r p) fun w =>
                if a.bad then w.cellBad e r else
                let (w', r) := readNext w r
                if !r.allDone then w'
                else
                  let w' := if r.acq then w'.cellAcquire e r r.size else w'
                  (w'.dropReq a.id).answer e a.id (if r.size = 96 then q4Halves r.gather else [(BitVec.ofNat 512 r.gather, 0)]) 0
        | .rld op comm =>
          w.guard (w.mayRead r p) fun w =>
            if a.bad then w.cellBad e r
            else if comm ≠ 0 then
              let (w', d, fl) := w.rldRanks r op
              let w' := w'.readBy r p
              let w' := if r.acq then w'.cellAcquire e r 64 else w'
              ((w'.lateFlags r.part fl).dropReq a.id).answer e a.id [(d, 0)] 0
            else
              let (w', r) := readNext w r
              if !r.allDone then w'
              else
                let (v, fl) := r.reduce op
                let w' := if r.acq then w'.cellAcquire e r 64 else w'
                ((w'.lateFlags r.part fl).dropReq a.id).answer e a.id [(BitVec.ofNat 512 v, 0)] 0
        | .atomic _ | .cas =>
          -- DRAM's error in what an atomic reads faults it at its home, and nothing is accessed (R229, R353)
          if a.bad then w.guard (r.did.isEmpty && mayPerform w.m.bus.reqs r && w.relReady r) fun w => w.cellBad e r else
          w.guard (r.allDone && w.seesAll (w.reqEye r) r.after && (!r.rel || w.performed (w.reqEye r) r.scope r.writes r.cov)) fun w =>
            if a.bad then w
            else
              let w := match r.got with
                | some (k, _, _) => w.cellRef rr c k.ref
                | none => w
              let full := fun l => r.mask.testBit (4 * l)
              let old := (tgetD r.vals 0 0).toNat
              (w.dropReq a.id).answer e a.id [(lanes fun l => if full l then old / 2 ^ (32 * l) % 2 ^ 32 else 0, mask16 fun l => !full l)] r.flags
        | .rdcp _ _ => w.guard (a.bad && r.did.isEmpty && mayPerform w.m.bus.reqs r) fun w => w.cellBad e r
        | _ => w
      | _ => w

/-- A release of a cell is performed: its writes, and all that they cover, are seen within its scope; a release that writes nothing when the cell's earlier
accesses are performed there (R87, R91). -/
def W.releaseDone (w : W) (r : Req) : Bool :=
  let e := w.reqEye r
  match r.kind with
  | .empty => mayPerform w.m.bus.reqs r && w.m.bus.unseen.all fun u => !((u.agent == r.agent || r.cov.covers u) && u.outside r.scope e)
  | _ => r.allDone && w.performed e r.scope r.writes r.cov

/-- RELEASE_COMPLETION_TOKEN (R89, R232, R236): a performed release, or a performed contribution, sends its completion token. -/
def execReleaseCompletionToken (id : Nat) (s : State) : Res :=
  run s fun w =>
    match w.req id with
    | none => w
    | some r =>
      match r.src with
      | .elem rr c sl =>
        let e : ERef := ⟨rr, c, sl⟩
        let land (w : W) (scope : Nat) : W :=
          let edge := w.edgeOf (w.region rr) c
          -- it covers what it wrote, and what was before that (R87, R90)
          let cov := (r.cov.join (w.coverIds r.writes)).narrow scope
          let mark := Option.map fun (t : Token) => { t with rel := t.rel.map fun k => { k with scope := max k.scope scope, cov := k.cov.join cov } }
          let send := fun (f : Flight) => if f.req == some id then { f with req := none, due := edge, a := mark f.a, b := mark f.b } else f
          (w.dropReq id).setElem e fun x => { x with flights := x.flights.map send }
        match r.kind with
        | .rdcp _ _ =>
          let home := keyHome ((r.pieces.headD {}).key)
          let scope := if 4 < home then 5 else if home = r.die then 3 else 4
          w.guard (r.allDone && w.performed (w.reqEye r) scope r.writes {}) fun w => land w scope
        | .write | .mcst _ | .empty => w.guard (r.rel && w.releaseDone r) fun w => land w r.scope
        | _ => w
      | _ => w

/-- MFENCE_COMPLETE (R241): every earlier access that the fence orders has been performed at its scope, and the trigger goes on, one island cycle or more
after the firing (R251). -/
def execMfenceComplete (id : Nat) (s : State) : Res :=
  run s fun w =>
    match w.req id with
    | none => w
    | some r =>
      match r.src, r.kind with
      | .elem rr c sl, .mfence k =>
        let before := (w.m.bus.reqs.takeWhile fun q => q.id != id).filter fun q => q.agent == r.agent
        let isLoad (q : Req) : Bool := match q.kind with
          | .read => true
          | .rld _ _ => true
          | .atomic _ => true
          | .cas => true
          | _ => false
        let me := w.reqEye r
        let seen := tgetD w.m.bus.know r.agent {}
        let loads := before.all (fun q => !isLoad q) && w.m.bus.unseen.all fun u => !((seen.loads.narrow r.scope).covers u && u.hides me)
        let all := before.isEmpty && w.m.bus.unseen.all fun u => !((u.agent == r.agent || (w.coverOf me true r.scope).covers u) && u.outside r.scope me)
        w.guard (decide (r.scope = 1) || if k = 1 then loads else all) fun w =>
          let edge := max (w.edgeOf (w.region rr) c) (r.place + 1)
          let send := fun (f : Flight) => if f.req == some id then { f with req := none, due := edge } else f
          let w := (w.cellRef rr c (w.heardRef me k r.scope)).fenced me k r.scope
          (w.dropReq id).setElem ⟨rr, c, sl⟩ fun x => { x with flights := x.flights.map send }
      | _, _ => w

/-- RDCP_COMBINE (R104, R236): the home combines a contribution into its sector in one step, an element's contributions to one sector in
sequence. -/
def execRdcpCombine (id : Nat) (s : State) : Res :=
  run s fun w =>
    match w.req id with
    | none => w
    | some r =>
      match r.kind with
      | .rdcp _ _ =>
        -- an element sends its contributions in sequence, run after run (R236, R427)
        let earlier := (w.m.bus.reqs.takeWhile fun q => q.id != id).any fun q => match q.kind with
          | .rdcp _ _ => q.src == r.src && q.agent == r.agent && !q.allDone && q.overlaps r
          | _ => false
        w.guard (!r.allDone && mayPerform w.m.bus.reqs r && w.homeOpen (w.reqEye r) (r.pieces.headD {}).key && !earlier) fun w =>
          let w := w.applyPiece r 0
          match r.src, w.req id with
          | .engine 51, some q => if q.allDone then w.dropReq id else w
          | _, _ => w
      | _ => w

end Sys2Proof.Machine
end

