-- ==== Sys2Proof/Machine/Image.lean ====
section
/-! DEFINITION. Sys2Proof/Machine/Image.lean: the configuration image: its container, frames, and the layout of slots that a list of frames
gives (09_encoding.md R134 to R145, 20_configuration_image.md R306 to R308). -/

namespace Sys2Proof.Machine

/-! ## Bytes -/

/-- A little-endian field of n bytes at an offset. -/
def byteField (bs : List Byte) (off n : Nat) : Nat := leNat ((bs.drop off).take n)
/-- Bits [hi:lo] of a number. -/
def natBits (x hi lo : Nat) : Nat := x / 2 ^ lo % 2 ^ (hi - lo + 1)

/-! ## The container (R306 to R308) -/

/-- The 64-byte header. -/
structure Header where
  (magic lver qw qh : Nat)
  (nisl nsect nint nfrm : Nat)
  (rate sinkCell sinkSlot : Nat)
  (tab frm sec hcrc : Nat)
  /-- its reserved bytes and bits are zero -/
  zero : Bool
deriving Repr, Inhabited

def headerOf (bs : List Byte) : Header :=
  let r := byteField bs 24 8
  { magic := byteField bs 0 4, lver := byteField bs 4 1, qw := byteField bs 5 1, qh := byteField bs 6 1
    nisl := byteField bs 8 2, nsect := byteField bs 10 2, nint := byteField bs 12 4, nfrm := byteField bs 16 4
    rate := natBits r 39 0, sinkCell := natBits r 53 40, sinkSlot := natBits r 56 54
    tab := byteField bs 32 4, frm := byteField bs 36 4, sec := byteField bs 40 4, hcrc := byteField bs 44 4
    zero := byteField bs 7 1 == 0 && byteField bs 20 4 == 0 && natBits r 63 57 == 0 && byteField bs 48 16 == 0 }

/-- The values of R306: failure of any is condition 1 of R309. -/
def Header.valuesOk (h : Header) : Bool :=
  h.magic == 0x4E474B34 && h.lver == 1 && decide (1 ≤ h.qw ∧ h.qw ≤ 8 ∧ 1 ≤ h.qh ∧ h.qh ≤ 5) &&
  decide (1 ≤ h.nisl ∧ h.nisl ≤ 160 ∧ h.nsect ≤ 256 ∧ h.nint ≤ 65535 ∧ 1 ≤ h.nfrm ∧ h.nfrm ≤ 2 ^ 24) &&
  h.zero && (h.nsect != 0 || h.sec == 0)

/-- The offsets of R306 are aligned, and the image itself is (condition 2). -/
def Header.aligned (h : Header) (va : Nat) : Bool := va % 64 == 0 && h.tab % 64 == 0 && h.frm % 64 == 0 && h.sec % 64 == 0

/-- An interval entry (R307). -/
structure IntEntry where
  key   : Nat
  sec   : Nat
  insec : Bool
  lo    : Nat
  hi    : Nat
  zero  : Bool
deriving DecidableEq, Repr, Inhabited

def intEntryOf (bs : List Byte) : IntEntry :=
  let v := leNat bs
  { key := ekey (natBits v 13 0) (natBits v 16 14), sec := natBits v 24 17, insec := natBits v 25 25 == 1, lo := natBits v 47 32
    hi := natBits v 63 48, zero := natBits v 31 26 == 0 }

/-- What an entry's own fields ask (R307). -/
def IntEntry.ok (x : IntEntry) : Bool := x.zero && decide (x.lo ≤ x.hi ∧ 1 ≤ x.hi) && (x.insec || x.sec == 0)

/-- Pieces of n bytes. -/
def chunks (n count : Nat) (bs : List Byte) : List (List Byte) := (List.range count).map fun i => (bs.drop (n * i)).take n

/-- The region's sectors (R307). -/
def regionSectors (qw qh : Nat) : List Nat := (List.range (2 * qh)).flatMap fun y => (List.range (2 * qw)).map fun x => 16 * y + x

/-- The island table: the island of each sector; none when it breaks R307 (condition 9). -/
def islandTable (qw qh nisl : Nat) (bs : List Byte) : Option (Tbl Nat) :=
  let es := chunks 32 nisl bs
  let maps := es.map fun e => byteField e 0 20
  let secs := regionSectors qw qh
  let owner (n : Nat) : List Nat := (List.range nisl).filter fun i => (maps.getD i 0).testBit n
  let ok := es.all (fun e => byteField e 20 12 == 0) && maps.all (fun m => m != 0) &&
    (List.range 160).all (fun n => if secs.contains n then (owner n).length == 1 else (owner n).isEmpty)
  if ok then some (secs.foldl (fun t n => tput t n ((owner n).headD 0)) []) else none

/-! ## Frames (R134, R136) -/

/-- A frame from its 32 bytes. -/
def frameOf (bs : List Byte) : Frame :=
  let h := byteField bs 0 8
  { cell := natBits h 63 48, kind := natBits h 47 44, fnum := natBits h 43 40, lver := natBits h 39 32, crc := BitVec.ofNat 32 h
    body := BitVec.ofNat 192 (byteField bs 8 24) }

def Frame.crcOk (f : Frame) : Bool := crc32 (leBytes 24 f.body.toNat) == f.crc
/-- Word j of a frame of element words. -/
def Frame.word (f : Frame) (j : Nat) : W64 := f.body.extractLsb' (64 * j) 64
/-- The slots whose words a frame gives, with the words: of an element frame 0 or 1, an SW or a CTL frame. -/
def Frame.slots (f : Frame) : List (Nat × W64) :=
  if f.kind ≤ 4 ∧ f.fnum ≤ 1 then (List.range 3).map fun j => (ekey f.cell (3 * f.fnum + j), f.word j)
  else if f.kind = 5 ∨ f.kind = 6 then [(ekey f.cell (6 + f.fnum), f.word 0)]
  else []

/-- The unit that a frame's failure is reported in (R153). -/
def Frame.unit (f : Frame) : Nat :=
  if f.kind ≤ 4 then f.kind else if f.kind ≤ 6 then 5 else if f.kind = 7 then 6 else if f.kind = 8 then siteKind f.cell else 7

/-- The first control-store word of a SEQ-code frame, its quad, and its words: those after the last nonzero one are not written (R142). DESIGN CHOICE: a frame of
zeros alone writes no word, and loads its quad's sequencer all the same (log 96). -/
def Frame.codeQuad (f : Frame) : Nat := f.cell / 1024
def Frame.codeBase (f : Frame) : Nat := 6 * (f.cell % 1024)
def Frame.codeWords (f : Frame) : List W32 :=
  let n := if f.cell % 1024 = 682 then 4 else 6
  let ws := (List.range n).map fun i => f.body.extractLsb' (32 * i) 32
  ws.take (n - (ws.reverse.takeWhile fun x => x == 0).length)

/-- A frame of the later list replaces a frame of the earlier: one kind, number and cell, or the two kinds that give one switch slot (R141). -/
def Frame.replaces (f g : Frame) : Bool :=
  f.cell == g.cell && f.fnum == g.fnum && (f.kind == g.kind || ([5, 6].contains f.kind && [5, 6].contains g.kind))

/-! ## The layout of slots -/

/-- What a list of frames configures: words, constant words and their frames' indexes by element key; frames 3 and 4 by cell; bank bytes; and
sequencer words by region quad. -/
structure Layout where
  words  : Tbl W64 := []
  consts : Tbl W32 := []
  f3     : Tbl (BitVec 192) := []
  f4     : Tbl (BitVec 192) := []
  data   : List (Nat × Nat × List Byte) := []
  code   : Tbl (Tbl W32) := []
deriving Repr, Inhabited

namespace Layout

def add (l : Layout) (f : Frame) : Layout :=
  let l := { l with words := f.slots.foldl (fun t x => if x.2 = 0 then tdel t x.1 else tput t x.1 x.2) l.words }
  match f.kind with
  | 5 => { l with consts := tput l.consts (ekey f.cell (6 + f.fnum)) (f.body.extractLsb' 64 32) }
  | 6 => { l with consts := tput l.consts (ekey f.cell (6 + f.fnum)) (f.body.extractLsb' 64 32) }
  | 7 =>
    let t := tgetD l.code f.codeQuad []
    let ws := f.codeWords
    { l with code := tput l.code f.codeQuad (((List.range ws.length).zip ws).foldl (fun t x => tput t (f.codeBase + x.1) x.2) t) }
  | 8 =>
    let off := natBits f.body.toNat 191 160
    let count := natBits f.body.toNat 159 128
    { l with data := l.data ++ [(f.cell, off, leBytes (min count 16) f.body.toNat)] }
  | _ =>
    match f.fnum with
    | 2 => { l with consts := (List.range 6).foldl (fun t s => tput t (ekey f.cell s) (f.body.extractLsb' (32 * s) 32)) l.consts }
    | 3 => { l with f3 := tput l.f3 f.cell f.body }
    | 4 => { l with f4 := tput l.f4 f.cell f.body }
    | _ => l

def of (fs : List Frame) : Layout := fs.foldl add {}

def word (l : Layout) (k : Nat) : W64 := tgetD l.words k 0
def opc (l : Layout) (k : Nat) : Nat := field (l.word k) 63 56
def fields (l : Layout) (k : Nat) : EFields := elemFields (l.word k)
def const (l : Layout) (k : Nat) : W32 := tgetD l.consts k 0
def cell3 (l : Layout) (c : Nat) : BitVec 192 := tgetD l.f3 c 0
def cell4 (l : Layout) (c : Nat) : BitVec 192 := tgetD l.f4 c 0
/-- The keys of the slots that hold a word, in ascending order. -/
def keys (l : Layout) : List Nat := l.words.map (·.1)
/-- The slots of a cell that hold an opcode. -/
def slotsOf (l : Layout) (c o : Nat) : List Nat := ((List.range 8).map (ekey c)).filter fun k => l.opc k == o
/-- The slot control byte of a slot (R138); 0 for a switch slot. -/
def control (l : Layout) (k : Nat) : Nat := if k % 8 < 6 then field (l.cell3 (k / 8)) (8 * (k % 8) + 7) (8 * (k % 8)) else 0

/-- Fields of frame 3 (R138, R139). -/
def doneLine (l : Layout) (c : Nat) : Nat := field (l.cell3 c) 61 48
def afmt (l : Layout) (c : Nat) : Bool := (l.cell3 c).getLsbD 64
def scaled (l : Layout) (c : Nat) : Bool := (l.cell3 c).getLsbD 66
def qbase (l : Layout) (c : Nat) : Nat := field (l.cell3 c) 81 64
def qcap (l : Layout) (c : Nat) : Nat := field (l.cell3 c) 93 82
def qmax (l : Layout) (c : Nat) : Nat := field (l.cell3 c) 105 94
def qinit (l : Layout) (c : Nat) : Nat := field (l.cell3 c) 117 106
def startLine (l : Layout) (c : Nat) : Nat := field (l.cell3 c) 77 64
def head (l : Layout) (c : Nat) : Bool := siteKind c == 3 && (l.cell3 c).getLsbD 78
/-- Rows of an accumulator store (R139). -/
def rows (l : Layout) (c : Nat) : Nat := if l.afmt c then 256 else 192

/-- Counter i of a cell: EN and CHAIN (R140). -/
def counterEn (l : Layout) (c i : Nat) : Bool := (l.cell4 c).getLsbD (48 * i + 7)
def counterChain (l : Layout) (c i : Nat) : Bool := (l.cell4 c).getLsbD (48 * i + 6)

/-- A word's targets of POS 0 to 2, each with its number (0 TGTA, 1 TGTB); none of a controller word. -/
def targets (l : Layout) (k : Nat) : List (Nat × Target) :=
  if 0xB0 ≤ l.opc k then []
  else
    let f := l.fields k
    let one (i : Nat) (t : BitVec 20) : List (Nat × Target) := match Target.ofBits t with
      | some g => if g.pos = 3 then [] else [(i, g)]
      | none => []
    one 0 f.ta ++ one 1 f.tb
/-- The halyard lines that a word's targets name (R301). -/
def lineTargets (l : Layout) (k : Nat) : List Nat :=
  if 0xB0 ≤ l.opc k then []
  else
    let f := l.fields k
    let one (t : BitVec 20) : List Nat := match Target.ofBits t with
      | some g => if g.pos = 3 then [g.cell] else []
      | none => []
    one f.ta ++ one f.tb

/-- The slot that a target names. -/
def slot (g : Target) : Nat := ekey g.cell g.port

/-- Every direct link: the source's key, the target's number, the target. -/
def links (l : Layout) : List (Nat × Nat × Target) := l.keys.flatMap fun k => (l.targets k).map fun x => (k, x.1, x.2)
/-- The positions that targets name: bit 0 L, bit 1 R, bit 2 P. -/
def named (l : Layout) (k : Nat) : Nat :=
  l.links.foldl (fun n x => if slot x.2.2 = k then n ||| 2 ^ x.2.2.pos else n) 0
def names (l : Layout) (k pos : Nat) : Bool := l.links.any fun x => slot x.2.2 == k && x.2.2.pos == pos

/-- The queue pairs: the QPUSH and the QPOP of one cell. -/
def queuePairs (l : Layout) : List (Nat × Nat) :=
  (l.keys.filter fun k => l.opc k == 0x89).filterMap fun k => ((l.slotsOf (k / 8) 0x8A).head?).map fun p => (k, p)

/-- Direct links as pairs, and with the queue pairs too (R26, R427). -/
def edges (l : Layout) : List (Nat × Nat) := l.links.map fun x => (x.1, slot x.2.2)
def allEdges (l : Layout) : List (Nat × Nat) := l.edges ++ l.queuePairs

end Layout

/-- What is reached along edges from a list, in at most `fuel` rounds. -/
def reachAlong (es : List (Nat × Nat)) : Nat → List Nat → List Nat → List Nat
  | 0, _, seen => seen
  | fuel + 1, front, seen =>
    let next := ((es.filterMap fun e => if front.contains e.1 then some e.2 else none).eraseDups).filter fun k => !seen.contains k
    if next.isEmpty then seen else reachAlong es fuel next (seen ++ next)
def reachFrom (es : List (Nat × Nat)) (ks : List Nat) : List Nat := reachAlong es (es.length + 1) ks ks

/-! ## What an opcode uses -/

/-- The positions an opcode may use: bit 0 L, bit 1 R, bit 2 P; an engine-fed position that no target may name is not among them (R224). -/
def posMask (opc : Nat) : Nat :=
  if [0x8A, 0x8E, 0xB3, 0xB4].contains opc ∨ opc = 0 then 0
  else if [0x08, 0x17, 0x18, 0x1C, 0x23, 0x24, 0x25, 0x52, 0x85].contains opc then 7
  else if [0x58, 0x59, 0x60, 0x63, 0xA0].contains opc then 5
  else if [0x01, 0x0B, 0x14, 0x15, 0x19, 0x1A, 0x28, 0x29, 0x2B, 0x2C, 0x2D, 0x2F, 0x30, 0x31, 0x32, 0x34, 0x36, 0x40, 0x41, 0x42, 0x43, 0x44,
      0x45, 0x46, 0x49, 0x50, 0x51, 0x5A, 0x64, 0x70, 0x72, 0x80, 0x82, 0x87, 0x88, 0x89, 0x8B, 0x8F, 0xA2, 0xA3, 0xA5, 0xA6,
      0xB0, 0xB1, 0xB2].contains opc then 1
  else 3
def usesPos (opc pos : Nat) : Bool := (posMask opc).testBit pos

/-- The kinds of slot that accept an opcode: 0 VC, 1 MX, 2 MC, 3 AG, 4 FC, 5 SW, 6 CTL (R148). -/
def acceptsKind (opc kind : Nat) : Bool :=
  if opc ≤ 0x4F then kind == 0
  else if opc ≤ 0x57 then kind == 4
  else if opc ≤ 0x5F then [0, 1, 4].contains kind
  else if opc ≤ 0x6F then kind == 5
  else if opc ≤ 0x7F then kind == 1
  else if opc ≤ 0x9F then kind == 2
  else if opc ≤ 0xAF then kind == 3
  else kind == 6

end Sys2Proof.Machine
end

