-- ==== Sys2Proof/Machine/Solver.lean ====
section
/-! DEFINITION. Sys2Proof/Machine/Solver.lean: the rate solver's arithmetic, in exact fractions: balance equations, demand, fractions, links and
power (07_islands_and_rates.md R105 to R112, R426; R201, R223, R251). -/

namespace Sys2Proof.Machine

/-- What a solve reads of a configuration: its layout, the rate intervals (element key, lo, hi), the sink's key, the island of each sector, and
the number of islands. -/
structure Graph where
  l      : Layout := {}
  ints   : List (Nat × Nat × Nat) := []
  sink   : Nat := 0
  secIsl : Tbl Nat := []
  nisl   : Nat := 1

namespace Graph

/-- hi of an element's interval; 1 when it carries none. -/
def hi (g : Graph) (k : Nat) : Nat := match g.ints.find? fun x => x.1 == k with | some x => x.2.2 | none => 1
/-- The elements of the equations: every word but the controllers'. -/
def elems (g : Graph) : List Nat := g.l.keys.filter fun k => decide (g.l.opc k < 0xB0)
def island (g : Graph) (k : Nat) : Nat := tgetD g.secIsl (regionSector (k / 8)) 0

/-- Counters of the chain that a CNT runs (R246). -/
def chain (g : Graph) (k : Nat) : Nat :=
  let c := k / 8
  let b := (g.l.fields k).imm.toNat % 4
  let up := ((List.range 3).map (b + 1 + ·)).takeWhile fun i => decide (i < 4) && g.l.counterEn c i && g.l.counterChain c i
  1 + up.length

/-- Tokens that an element sends to target i per firing (R107, R201, R223, R251). -/
def out (g : Graph) (k i : Nat) : Rat :=
  let f := g.l.fields k
  match g.l.opc k with
  | 0x64 => (if i = 0 then (f.lo4 : Rat) else f.hi4) / (f.lo4 + f.hi4 : Nat)
  | 0x49 | 0x59 | 0x5A | 0x75 | 0xA7 => g.hi k
  | 0xA0 => if g.l.names k 0 then (g.hi k : Rat) else (((g.l.const k).toNat ^ g.chain k : Nat) : Rat)
  | 0x73 => if f.fmt = 1 then 4 else if f.fmt = 6 ∧ f.mod = 1 then 16 else 8
  | 0x80 | 0x82 => if f.fmt = 5 then 2 else 1
  | 0x34 => 2
  | 0x35 => if f.lo4 = 5 then (if f.fmt = 0 then 8 else 4) else 1
  | _ => 1

/-- Tokens that an element consumes at a position per firing. -/
def inn (g : Graph) (k pos : Nat) : Rat :=
  let f := g.l.fields k
  let c := k / 8
  match g.l.opc k with
  | 0x65 => (if pos = 0 then (f.lo4 : Rat) else f.hi4) / (f.lo4 + f.hi4 : Nat)
  | 0x81 | 0x83 | 0x86 => if pos = 1 ∧ f.fmt = 5 then 2 else 1
  | o =>
    if pos ≠ 0 then 1
    else match o with
      | 0x70 => if f.fmt = 1 then 512 else 256
      | 0x71 => if f.fmt = 1 then 4 else if f.fmt = 3 ∧ g.l.scaled c then 3 else 2
      | 0x74 => if g.l.afmt c then 6 else 8
      | 0x76 => g.hi k
      | 0x34 => if f.lo4 = 0 then 8 else 4
      | 0x35 => if f.lo4 = 5 then 2 else 1
      | _ => 1

/-! ## Recirculation loops (R32, R107) -/

/-- A loop: its CARRYs, its trip count, its elements. -/
structure Loop where
  carries : List Nat
  trip : Nat
  set  : List Nat

/-- The elements on the cycles that a queue pair closes: along direct targets, or when it closes none along the other pairs too. -/
def cycle (g : Graph) (p : Nat × Nat) : List Nat :=
  let on (es : List (Nat × Nat)) : List Nat :=
    let back := reachFrom (es.map fun e => (e.2, e.1)) [p.1]
    (reachFrom es [p.2]).filter fun k => back.contains k
  let direct := on g.l.edges
  if direct.isEmpty then on (g.l.edges ++ g.l.queuePairs.filter fun x => x != p) else direct

/-- The CARRY of the loop that a queue pair closes: of the loop's elements, the one that the pair feeds at R, through no other CARRY. -/
def carryOf (g : Graph) (p : Nat × Nat) : Option Nat :=
  let fed := reachFrom (g.l.edges.filter fun e => g.l.opc e.1 != 0x62) [p.2]
  let loop := g.cycle p
  (g.l.links.filter fun x => x.2.2.pos == 1 && g.l.opc (Layout.slot x.2.2) == 0x62 && fed.contains x.1 && loop.contains (Layout.slot x.2.2)).head?.map
    fun x => Layout.slot x.2.2

/-- Whether loop b's entry lies inside loop a: the CARRY of b takes its L from an element of a. -/
def inside (g : Graph) (b a : Loop) : Bool :=
  g.l.links.any fun x => b.carries.contains (Layout.slot x.2.2) && x.2.2.pos == 0 && a.set.contains x.1

/-- The loops: queue pairs that share elements, neither inside the other, close one loop; a loop holds the loops inside it. -/
def loops (g : Graph) : List Loop :=
  let base : List Loop := g.l.queuePairs.filterMap fun p =>
    let s := g.cycle p
    if s.isEmpty then none
    else
      let c := g.carryOf p
      some { carries := c.toList, trip := match c with | some k => g.hi k | none => 1, set := s }
  let same (a b : Loop) : Bool := a.set == b.set || (a.set.any (fun k => b.set.contains k) && !g.inside a b && !g.inside b a)
  let n := base.length
  let first (i : Nat) : Bool := (List.range i).all fun j => !same (base.getD j ⟨[], 1, []⟩) (base.getD i ⟨[], 1, []⟩)
  ((List.range n).filter first).map fun i =>
    let a := base.getD i ⟨[], 1, []⟩
    let all := base.filter fun b => same a b
    let own := (all.flatMap (·.set)).eraseDups
    let inner := base.filter fun b => !same a b && g.inside b { a with set := own }
    { carries := (all.flatMap (·.carries)).eraseDups, trip := a.trip, set := (own ++ inner.flatMap (·.set)).eraseDups }

/-! ## Balance (R107) -/

/-- A link: source, target's number, target, tokens per firing of the source, and r(target) / r(source). -/
structure Link where
  u : Nat
  v : Nat
  out : Rat
  ratio : Rat

/-- A QPOP that only INJ feeds, a QPUSH that only TAKE drains, and a LAND: outside the equations (R107, R251, R278). -/
def outside (g : Graph) (k : Nat) : Bool :=
  g.l.opc k == 0x8E || ((g.l.opc k == 0x89 || g.l.opc k == 0x8A) && !g.l.queuePairs.any fun p => p.1 == k || p.2 == k)

/-- The direct links. Every element of a loop has the count of its loop, so that a link inside one, and at its far end a link that enters or leaves it,
carries as many tokens as R107 says whatever the elements send and take by themselves. -/
def directLinks (g : Graph) : List Link :=
  let ls := g.loops
  (g.l.links.filter fun x => decide (g.l.opc (Layout.slot x.2.2) < 0xB0)).map fun x =>
    let v := Layout.slot x.2.2
    let leave := ls.filter fun a => a.set.contains x.1 && !a.set.contains v
    let enter := ls.filter fun a => a.set.contains v && !a.set.contains x.1
    let first := enter.filter fun a => a.carries.contains v && x.2.2.pos == 0
    let common := ls.any fun a => a.set.contains x.1 && a.set.contains v
    let o : Rat := if common || !leave.isEmpty then leave.foldl (fun (p : Rat) a => p / a.trip) 1 else g.out x.1 x.2.1
    let n : Rat := if common || !enter.isEmpty then 1 else g.inn v x.2.2.pos
    { u := x.1, v := v, out := o, ratio := first.foldl (fun (p : Rat) a => p * a.trip) (o / n) }
/-- The links of the equations. -/
def balanceLinks (g : Graph) : List Link := g.directLinks.filter fun x => !g.outside x.u && !g.outside x.v

/-- The equations both ways: (u, v, r(v) / r(u)). -/
def equations (g : Graph) : List (Nat × Nat × Rat) :=
  (g.balanceLinks.flatMap fun x => [(x.u, x.v, x.ratio), (x.v, x.u, 1 / x.ratio)]) ++
  g.l.queuePairs.flatMap fun p => [(p.1, p.2, 1), (p.2, p.1, 1)]

/-- Follow equations from what is known. -/
def spread (es : List (Nat × Nat × Rat)) : Nat → Tbl Rat → Tbl Rat
  | 0, r => r
  | n + 1, r =>
    let r' := es.foldl (fun r e => match tget r e.1, tget r e.2.1 with
      | some a, none => tput r e.2.1 (a * e.2.2)
      | _, _ => r) r
    if r'.length = r.length then r else spread es n r'

/-- Scale positive fractions to the smallest positive integers. -/
def smallest (t : Tbl Rat) : Tbl Rat :=
  let d := t.foldl (fun d x => Nat.lcm d x.2.den) 1
  let c := t.foldl (fun c x => Nat.gcd c (x.2 * (d : Rat)).num.natAbs) 0
  t.map fun x => (x.1, x.2 * (d : Rat) / ((max c 1 : Nat) : Rat))

/-- The repetition vector (R107), or the lowest-numbered element of an equation that has no solution. -/
def repetition (g : Graph) : Except Nat (Tbl Rat) :=
  let es := g.equations
  let ks := g.elems
  let r := ks.foldl (fun (r : Tbl Rat) k =>
    match tget r k with
    | some _ => r
    | none => (smallest (spread es ks.length [(k, 1)])).foldl (fun r x => tput r x.1 x.2) r) []
  match (es.filter fun e => tgetD r e.2.1 1 != tgetD r e.1 1 * e.2.2).map fun e => min e.1 e.2.1 with
  | [] => .ok r
  | k :: t => .error (t.foldl min k)

/-! ## Demand and fractions (R108, R109) -/

/-- The firing rate of an element at a rate (R108); the raises of RNGX elements add to that of RNGP elements (R250). -/
def firingRate (g : Graph) (r : Tbl Rat) (rate : Nat) (k : Nat) : Rat :=
  let f (k : Nat) : Rat := (rate : Rat) * tgetD r k 1 / (tgetD r g.sink 1 * g.inn g.sink 0)
  if g.l.opc k = 0xA5 then (g.elems.filter fun j => g.l.opc j == 0xA6).foldl (fun (s : Rat) j => s + g.hi j * f j) (f k) else f k

/-- An island's cycle demand (R108); a LAND is no part of the solve (R251). -/
def demand (g : Graph) (r : Tbl Rat) (rate isl : Nat) : Rat :=
  let ks := g.elems.filter fun k => g.island k == isl && g.l.opc k != 0x8E
  let f := g.firingRate r rate
  let one (k : Nat) : Rat :=
    if g.l.opc k = 0x71 then
      let fmt := (g.l.fields k).fmt
      f k * (if fmt = 5 then 4 else if fmt = 1 then 16 else 8)
    else f k
  let bank (c : Nat) (is : Nat → Bool) : Rat := (ks.filter fun k => k / 8 == c && decide (k % 8 < 6) && is (g.l.opc k)).foldl (fun (s : Rat) k => s + f k) 0
  let cells := (ks.map (· / 8)).eraseDups
  cells.foldl (fun (m : Rat) c => max m (max (bank c bankWrites) (bank c bankReads))) (ks.foldl (fun (m : Rat) k => max m (one k)) 0)

/-- The edge grid, in Hz (R109). -/
def grid : Nat := 5000000000

/-- The candidate fraction of a demand (R109). -/
def candidate (d : Rat) : Rat :=
  if d = 0 then 1 / 64
  else
    let x := d / grid
    if 1 / 2 < x then 1 / 2
    else (List.range 63).foldl (fun (m : Rat) i => min m (((x * ((i + 2 : Nat) : Rat)).ceil : Rat) / ((i + 2 : Nat) : Rat))) (x.ceil : Rat)

/-- The rate lowered so that no island needs more than 1/2 (R109). -/
def lowered (g : Graph) (r : Tbl Rat) (rate : Nat) : Nat :=
  let short := (List.range g.nisl).foldl (fun (m : Rat) i => max m (g.demand r rate i / grid * 2)) 1
  ((rate : Rat) / short).floor.toNat

/-! ## Links between islands (R111, R112) -/

/-- A grid cycle kept by a pattern (R110). -/
def keeps (n : Nat) (x : Rat) : Bool := decide (n * x.num.toNat / x.den < (n + 1) * x.num.toNat / x.den)
/-- The coincident edges over the hyperperiod are as many as the link requires (R111). -/
def linkOk (f x y : Rat) : Bool :=
  let h := Nat.lcm x.den y.den
  decide ((f * h / grid).ceil.toNat ≤ ((List.range h).filter fun n => keeps n x && keeps n y).length)

/-- The links between islands at a rate: the two islands and the tokens per second, by the end that the equations know (R108). -/
def islandLinks (g : Graph) (r : Tbl Rat) (rate : Nat) : List (Nat × Nat × Rat) :=
  (g.directLinks.filter fun x => g.island x.u != g.island x.v && !(g.outside x.u && g.outside x.v)).map fun x =>
    (g.island x.u, g.island x.v, if g.outside x.u then g.firingRate r rate x.v * x.out / x.ratio else g.firingRate r rate x.u * x.out)

/-- Check the links of a list of islands, raising both ends of one that fails to the larger fraction, and recheck what was raised (R112). DESIGN CHOICE: a link
between islands of equal fractions passes whatever its rate, for raising could not help it (log 57). -/
def raiseLinks (links : List (Nat × Nat × Rat)) : Nat → List Nat → Tbl Rat → Tbl Rat
  | 0, _, fr => fr
  | _, [], fr => fr
  | n + 1, k :: work, fr =>
    let (fr, more) := links.foldl (fun (s : Tbl Rat × List Nat) x =>
      if x.1 = k ∨ x.2.1 = k then
        match tget s.1 x.1, tget s.1 x.2.1 with
        | some a, some b =>
          if a = b ∨ linkOk x.2.2 a b then s
          else
            let m := max a b
            (tput (tput s.1 x.1 m) x.2.1 m, s.2 ++ (if a < m then [x.1] else []) ++ (if b < m then [x.2.1] else []))
        | _, _ => s
      else s) (fr, [])
    raiseLinks links n (work ++ more) fr

/-- Steps 1 to 5 of R112 at a rate: the fraction of each island. -/
def fractions (g : Graph) (r : Tbl Rat) (rate : Nat) : Tbl Rat :=
  let links := g.islandLinks r rate
  (List.range g.nisl).foldl (fun fr i => raiseLinks links (64 * (g.nisl + 1) * (g.nisl + 1)) [i] (tput fr i (candidate (g.demand r rate i)))) []

/-! ## Votes and power (R110, R426) -/

/-- An island's vote, in mV (R110). -/
def voteOf (p q : Nat) : Nat := match q / max p 1 with | 2 => 780 | 3 => 660 | 4 => 600 | 5 => 560 | _ => 540

/-- c_kind in mW per GHz per V² and l_kind in mW per V, by the kind of the site (R426). -/
def coefficients : Nat → Nat × Nat
  | 0 => (102, 10)
  | 1 => (281, 20)
  | 2 => (30, 5)
  | 3 => (10, 2)
  | _ => (50, 5)

/-- The estimated power of a region in µW, from the fractions, the die's TRIM and the measured-power scale (R426). -/
def power (g : Graph) (fr : Tbl Rat) (trim : Nat) (scale : Rat) : Nat :=
  let sites := (g.l.keys.map (· / 8)).eraseDups
  let p := sites.foldl (fun (s : Rat) c =>
    let x := tgetD fr (tgetD g.secIsl (regionSector c) 0) 0
    let mv : Rat := ((voteOf x.num.toNat x.den + 10 * trim : Nat) : Rat)
    let k := coefficients (siteKind c)
    s + (k.1 : Rat) * mv * mv * (5 * x) / 1000 + (k.2 : Rat) * mv) 0
  (scale * p).ceil.toNat

/-- What a solve grants: each island's p and q, the rate, and the estimate, with the scale of R384 and without it. -/
structure Grant where
  fr    : Tbl Rat
  rate  : Nat
  power : Nat
  plain : Nat

/-- R112 in full: the first of the rates Rate × m/16, m from 16 down, whose estimate fits. DESIGN CHOICE: Rate × m/16 is rounded down to an integer, and the
candidates are worked from the rounded rate (log 57). -/
def solve (g : Graph) (rate trim : Nat) (scale : Rat) (fits : Nat → Bool) : Option Grant :=
  match g.repetition with
  | .error _ => none
  | .ok r =>
    let low := g.lowered r rate
    (List.range 16).findSome? fun i =>
      let x := low * (16 - i) / 16
      if x = 0 then none
      else
        let fr := g.fractions r x
        let p := g.power fr trim scale
        if fits p then some { fr := fr, rate := x, power := p, plain := g.power fr trim 1 } else none

end Graph
end Sys2Proof.Machine
end

