-- ==== Sys2Proof/Machine/Power.lean ====
section
/-! DEFINITION. Sys2Proof/Machine/Power.lean: rails, gating, droop windows, the energy meter, and what triggers a re-solve
(07_islands_and_rates.md R113, R116, R117, R119; 26_power_control.md R382 to R388). -/

namespace Sys2Proof.Machine

/-! ## Rails (R116, R386) -/

/-- A site of a region-relative sector. -/
def sectorSite (n : Nat) : Nat := 1024 * (n / 16) + 8 * (n % 16)

/-- TRIM of a quad's die, in mV (R385). -/
def W.trim (w : W) (quad : Nat) : Nat := 10 * w.fld (Bar.railCfg (quad / 40)) 1 0

/-- The highest vote of the islands with a sector on a quad, with TRIM; 0 with no island (R386). -/
def W.quadVote (w : W) (quad : Nat) : Nat :=
  let v := w.m.regions.foldl (fun v r =>
    (r.2.secIsl.filter fun s => siteQuad r.2 (sectorSite s.1) == quad).foldl (fun v s => max v (tgetD r.2.isl s.2 {}).vote) v) 0
  if v = 0 then 0 else v + w.trim quad

/-- The rail's voltage at a time in ns: it rises at 10 mV/µs and falls at 5 mV/µs. -/
def Rail.volt (r : Rail) (ns : Nat) : Nat :=
  match r.st with
  | 1 => min r.target (r.mv + (ns - r.since) / 100)
  | 3 => max r.target (r.mv - (ns - r.since) / 200)
  | _ => r.mv

/-- The voltage that a rail without votes falls to: that of reset (R386). -/
def railFloor : Nat := 540

/-- A rail after a change of its votes (R116): a vote above the voltage starts a rise; one at it stands; with none above, the rail holds before it
falls to the next-highest vote, and a hold or fall in progress goes on. DESIGN CHOICE: so it does also where a vote falls by a switch or a TRIM write, of which R116
gives no hold (log 57). -/
def Rail.revote (r : Rail) (vote ns : Nat) : Rail :=
  let top := max vote railFloor
  let v := r.volt ns
  if v < top then (if r.st = 1 ∧ r.target = top then r else { mv := v, target := top, st := 1, since := ns })
  else if v = top then { mv := v, target := top, st := 0, since := ns }
  else if r.st = 2 ∨ r.st = 3 then { r with target := top }
  else { mv := v, target := top, st := 2, since := ns }

def W.revote (w : W) (quad : Nat) : W := w.setRail quad fun r => r.revote (w.quadVote quad) w.ns
def W.revoteAll (w : W) (quads : List Nat) : W := quads.foldl (fun w q => w.revote q) w

/-- RAIL_HOLD_EXPIRE: after its 50 µs hold the rail begins to fall. -/
def execRailHoldExpire (quad : Nat) (s : State) : Res :=
  run s fun w =>
    let r := w.rail quad
    w.guard (r.st == 2 && decide (r.since + 50000 ≤ w.ns)) fun w => w.setRail quad fun r => { r with st := 3, since := r.since + 50000 }
/-- RAIL_SETTLE: a rise reaches its target. -/
def execRailSettle (quad : Nat) (s : State) : Res :=
  run s fun w =>
    let r := w.rail quad
    w.guard (r.st == 1 && r.volt w.ns == r.target) fun w => w.setRail quad fun r => { r with mv := r.target, st := 0, since := w.ns }
/-- RAIL_FALL_END: a fall reaches the next-highest vote. -/
def execRailFallEnd (quad : Nat) (s : State) : Res :=
  run s fun w =>
    let r := w.rail quad
    w.guard (r.st == 3 && r.volt w.ns == r.target) fun w => w.setRail quad fun r => { r with mv := r.target, st := 0, since := w.ns }

/-- What RAIL_STAT reads (R386). -/
def W.railStat (w : W) (quad : Nat) : W64 :=
  let r := w.rail quad
  BitVec.ofNat 64 (packFields [(2, r.st), (14, 0), (16, w.quadVote quad), (16, r.volt w.ns)])

/-! ## Gating (R117, R385) -/

/-- The region that holds a sector, by key. -/
def W.sectorRegion (w : W) (sec : Nat) : Option (Nat × Region) :=
  w.m.regions.find? fun r => r.2.secIsl.any fun s => siteSector r.2 (sectorSite s.1) == sec
/-- A cell of the region lies in the sector. -/
def Region.inSector (g : Region) (sec cell : Nat) : Bool := siteSector g cell == sec

/-- Nothing of an element is under way that would need its sector's clock before a token or a pulse comes. -/
def Elem.quiet (x : Elem) : Bool :=
  x.inL.isNone && x.inR.isNone && x.inP.isNone && x.flights.isEmpty && x.run.isNone && x.pulls == 0 && x.sig.isNone &&
  !x.lastSeen && x.buf.isEmpty && !(x.opc == 0xA0 && x.armed && !x.names 2)
/-- The same of a sector: its elements, queues, matrix cells and pending pulses. -/
def Region.quietSector (g : Region) (sec : Nat) : Bool :=
  (g.elems.all fun x => !g.inSector sec (x.1 / 8) || x.2.quiet) &&
  (g.cells.all fun c => !g.inSector sec c.1 || (c.2.queue.isEmpty && c.2.hold.isNone)) &&
  (g.mxs.all fun x => !g.inSector sec x.1 || (x.2.rows.isEmpty && x.2.firings.isEmpty && x.2.swapDue.isNone)) &&
  (g.lines.all fun l => l.2.pend.all fun p => p.1 == 999999 || !g.inSector sec (p.1 / 8))

/-- Every sequencer of a region has halted; one that was not released counts as halted (R289). -/
def W.allHalted (w : W) (g : Region) : Bool :=
  (regionQuads g).all fun q => match tget w.m.seqs q with | some sq => !sq.released || sq.halted | none => true
/-- The islands of a region whose graph has run out exit, one by one, as each is found drained, and their votes are withdrawn (R116; log 57). -/
def W.islandExits (w : W) (r : Nat) : W :=
  let g := w.region r
  if !g.rootDone || !w.allHalted g then w
  else
    let out (i : Nat) : Bool := g.secIsl.all fun s => s.2 != i || g.quietSector (siteSector g (sectorSite s.1))
    (w.setRegion r fun g => { g with isl := g.isl.map fun i => if out i.1 then (i.1, { i.2 with vote := 0 }) else i }).revoteAll (regionQuads g)

/-- A site of a sector within a region. -/
def Region.siteOfSector (g : Region) (sec : Nat) : Nat := ((g.secIsl.map fun s => sectorSite s.1).find? fun c => g.inSector sec c).getD 0
/-- The edges of a sector's island so far; 0 in no region. -/
def W.sectorEdge (w : W) (sec : Nat) : Nat := match w.sectorRegion sec with | some (_, g) => w.edgeOf g (g.siteOfSector sec) | none => 0

/-- CLOCK_GATE: 64 island cycles with no firing and no arrival; edges that a droop window swallows are none (R119). -/
def execClockGate (sec : Nat) (s : State) : Res :=
  run s fun w =>
    match w.sectorRegion sec, w.sector sec with
    | some (r, g), x =>
      w.guard (g.runsAt w.now && x.gate == 0 && !x.droop && decide (x.lastEdge + 64 ≤ w.sectorEdge sec)) fun w =>
        (w.setSector sec fun x => { x with gate := 1 }).islandExits r
    | none, _ => w

/-- POWER_GATE: 20 µs idle, with power gating enabled on the die. -/
def execPowerGate (sec : Nat) (s : State) : Res :=
  run s fun w =>
    let x := w.sector sec
    let idle := match w.sectorRegion sec with
      | some (_, g) => g.quietSector sec
      | none => true
    w.guard ((w.bar (Bar.railCfg (sec / 160))).getLsbD 8 && decide (x.gate ≤ 1 ∧ x.lastNs + 20000 ≤ w.ns) && !x.droop && idle) fun w =>
      w.setSector sec fun x => { x with gate := 2 }

/-- The priority of a sector's owner: its partition's MAXPRIO. -/
def W.sectorPrio (w : W) (sec : Nat) : Nat := match w.sectorRegion sec with | some (_, g) => w.fld (Bar.partCtl g.part) 21 19 | none => 0

/-- The arbiter's next service, if its time has come: the first free place takes, of the requests made by then, that of the highest priority, the oldest first, and
holds it for 200 ns (R117). -/
def W.serveWake (w : W) (die : Nat) : W :=
  let places := tgetD w.m.hub.inrush die [0, 0, 0, 0]
  let wait := w.wakesWaiting die
  let free := places.foldl min (places.headD 0)
  let oldest := wait.foldl (fun n s => min n (w.sector s).wakeNs) (w.ns + 1)
  let t := max free oldest
  let better (a b : Nat) : Bool :=
    decide (w.sectorPrio b < w.sectorPrio a ∨ (w.sectorPrio a = w.sectorPrio b ∧
      ((w.sector a).wakeNs < (w.sector b).wakeNs ∨ ((w.sector a).wakeNs = (w.sector b).wakeNs ∧ a < b))))
  match wait.filter fun s => decide ((w.sector s).wakeNs ≤ t) with
  | [] => w
  | s :: rest =>
    if w.ns < t then w
    else
      let pick := rest.foldl (fun m x => if better x m then x else m) s
      let k := places.findIdx (· == free)
      (w.setSector pick fun x => { x with upNs := some t }).setHub fun h => { h with inrush := tput h.inrush die (places.set k (t + 200)) }
/-- The arbiter's services up to now; a die has 160 sectors. -/
def W.serveWakes (w : W) (die : Nat) : W := ((List.range 160).foldl (fun w _ => w.serveWake die) w).countWakes die

/-- SECTOR_WAKE: a request that the arbiter has served has had its 200 ns and 50 ns, and the sector wakes. -/
def execSectorWake (sec : Nat) (s : State) : Res :=
  run s fun w =>
    let die := sec / 160
    let w := w.serveWakes die
    let x := w.sector sec
    w.guard (x.gate == 3 && match x.upNs with | some t => decide (t + 250 ≤ w.ns) | none => false) fun w =>
      let edge := w.sectorEdge sec
      let reg := Bar.inrushStat die
      let w := w.setFld reg 47 16 (max (w.fld reg 47 16) (min (w.ns - x.wakeNs) 0xFFFFFFFF))
      w.setSector sec fun x => { x with gate := 0, lastNs := w.ns, lastEdge := edge, upNs := none }

/-! ## Droop (R119, R388) -/

/-- DROOP_WINDOW: a sag of at least DTHR opens a window: the sector's kept edges are swallowed, and its row firings in progress are suspect. -/
def execDroopWindow (die sec sag : Nat) (s : State) : Res :=
  run s fun w =>
    let n := 160 * die + sec
    w.guard (decide (10 * w.fld (Bar.railCfg die) 15 12 ≤ sag ∧ die < 4 ∧ sec < 160) && !(w.sector n).droop) fun w =>
      let w := (w.countQuad (n / 4) 2 1).setSector n fun x => { x with droop := true, droopG := w.now }
      match w.sectorRegion n with
      | some (r, _) =>
        let doubt (m : Mx) : Mx := { m with firings := m.firings.map fun f => { f with suspect := true } }
        w.setRegion r fun g => { g with mxs := g.mxs.map fun m => if g.inSector n m.1 then (m.1, doubt m.2) else m }
      | none => w

/-- What is due by island edges, put off by the edges that a window has swallowed. -/
def Elem.delay (x : Elem) (k : Nat) : Elem :=
  { x with flights := x.flights.map (fun f => { f with due := f.due + k }), dryAt := x.dryAt.map fun d => (d.1 + k, d.2) }
def Cell.delay (c : Cell) (k : Nat) : Cell := { c with readTo := c.readTo + k, writeTo := c.writeTo + k }
def Mx.delay (m : Mx) (k : Nat) : Mx :=
  { m with
    firings := m.firings.map fun f => { f with frees := f.frees + k, commit := f.commit + k }
    ramp := m.ramp.map fun r => { r with start := r.start + k }
    idleAt := m.idleAt + k, fillEnd := m.fillEnd + k, holdTo := m.holdTo + k }

/-- DROOP_WINDOW_END: the supply recovers, and what was in flight in the sector takes as many more island edges as the window swallowed. -/
def execDroopWindowEnd (die sec : Nat) (s : State) : Res :=
  run s fun w =>
    let n := 160 * die + sec
    let x := w.sector n
    w.guard x.droop fun w =>
      let w := w.setSector n fun x => { x with droop := false }
      match w.sectorRegion n with
      | some (r, g) =>
        let k := w.sectorEdge n - (g.islandOf (g.siteOfSector n)).edge (x.droopG - 1)
        (w.setSector n fun x => { x with lastEdge := x.lastEdge + k, wakeEdge := x.wakeEdge + k }).setRegion r fun g => { g with
          elems := g.elems.map fun e => if g.inSector n (e.1 / 8) then (e.1, e.2.delay k) else e
          cells := g.cells.map fun c => if g.inSector n c.1 then (c.1, c.2.delay k) else c
          mxs := g.mxs.map fun m => if g.inSector n m.1 then (m.1, m.2.delay k) else m }
      | none => w

/-! ## Triggers of a re-solve (R113) -/

/-- Trigger a re-solve of the regions that a test picks out. -/
def W.triggerSolve (w : W) (p : Nat → Region → Bool) : W :=
  { w with m := { w.m with regions := w.m.regions.map fun r => if p r.1 r.2 then (r.1, { r.2 with trigger := true }) else r } }

/-- The measured-power scales end (R384). -/
def W.endScales (w : W) : W := { w with m := { w.m with parts := w.m.parts.map fun p => (p.1, { p.2 with scaleN := 1, scaleD := 1, overCap := 0 }) } }

/-- A change of the package limit: every running region is re-solved, in ascending partition number and then in ascending region quad 0; a region for
which no rate fitted is tried again (R112, R382). The scales of R384 end. -/
def W.limitChanged (w : W) : W :=
  let w := w.triggerSolve fun _ g => g.runs || g.phase == .unsolved
  let run := (w.m.regions.filter fun r => r.2.runs)
  let order := (List.range 16).flatMap fun n => (run.filter fun r => r.2.part == n).map (·.1)
  (w.setHub fun h => { h with solves := order }).endScales

/-- BACK_PRESSURE_THRESHOLD: the back-pressure counter of a running region has stayed past its threshold for 100 µs, and the resource manager triggers a
re-solve; the counter starts afresh (log 83). -/
def execBackPressureThreshold (r : Nat) (s : State) : Res :=
  run s fun w =>
    let g := w.region r
    w.guard (g.runs && match g.pressedAt with | some t => decide (t + 100000 ≤ w.ns) | none => false) fun w =>
      (w.triggerSolve fun k _ => k == r).setRegion r fun g => { g with press := 0, pressedAt := none }

/-- A partition's cap in W: CAP, at most LIMIT; none for 0 (R383). -/
def W.capOf (w : W) (part : Nat) : Option Nat :=
  let c := w.fld (Bar.partPcap part) 11 0
  if c = 0 then none else some (min c (w.fld Bar.pkgPlim 11 0))

/-- The estimates of a partition's running regions, in µW. -/
def W.estimateOf (w : W) (p : Nat → Region → Bool) : Nat := (w.m.regions.filter fun r => r.2.runs && p r.1 r.2).foldl (fun n r => n + r.2.power) 0
/-- The same without the scale. -/
def W.plainOf (w : W) (part : Nat) : Nat := (w.m.regions.filter fun r => r.2.runs && r.2.part == part).foldl (fun n r => n + r.2.plain) 0
/-- What a partition's estimates come to in the present interval is brought up to now: its grants or its regions are about to change. -/
def W.noteEstimate (w : W) (part : Nat) : W :=
  let e := w.plainOf part
  w.setPart part fun p => { p with estSum := p.estSum + e * (w.ns - p.estAt), estAt := w.ns }
/-- The mean of the present interval's estimate, in µW; the next interval begins. -/
def W.closeEstimate (w : W) (part : Nat) : W × Nat :=
  let e := w.plainOf part
  let w := w.noteEstimate part
  let p := w.part part
  (w.setPart part fun p => { p with estSum := 0, estFrom := w.ns }, if w.ns = p.estFrom then e else p.estSum / (w.ns - p.estFrom))

/-- ENERGY_METER_UPDATE (R383, R384): the energy of one more millisecond, the credit already subtracted; the second interval in a row above CAP triggers a
re-solve with estimates scaled by measured over estimated power of the two intervals, never below 1. The estimated power is that of R426 itself, on which the scale
is set. -/
def execEnergyMeterUpdate (part uj credit : Nat) (s : State) : Res :=
  run s fun w =>
    let p := w.part part
    w.guard (decide (p.meters < w.ns / 1000000 ∧ part < 16)) fun w =>
      let w := w.setBar (Bar.partEnergy part) (w.bar (Bar.partEnergy part) + BitVec.ofNat 64 uj)
      let w := w.setBar (Bar.partCredit part) (w.bar (Bar.partCredit part) + BitVec.ofNat 64 credit)
      let above := match w.capOf part with | some c => decide (1000 * c < uj) | none => false
      let n := if above then p.overCap + 1 else 0
      let (w, mean) := w.closeEstimate part
      let w := w.setPart part fun p => { p with meters := p.meters + 1, overCap := if 2 ≤ n then 0 else n, lastUj := uj, lastEst := mean }
      if n < 2 then w
      else
        -- two intervals of 1 ms: 1 µJ measured in one is 1,000 µW
        let meas := 1000 * (p.lastUj + uj)
        let est := max 1 (p.lastEst + mean)
        let w := w.setPart part fun p => if est < meas then { p with scaleN := meas, scaleD := est } else { p with scaleN := 1, scaleD := 1 }
        w.triggerSolve fun _ g => g.part == part && g.runs

end Sys2Proof.Machine
end

