-- ==== Sys2Proof/Machine/Links.lean ====
section
/-! DEFINITION. Sys2Proof/Machine/Links.lean: the Gulkin links, time steering, telemetry, errors and their tests, and HEALTH
(28_links_and_collectives.md R402 to R404, 30_fleet_operation.md R416 to R421). -/

namespace Sys2Proof.Machine

def W.setLinkState (w : W) (l n : Nat) : W := w.setFld (Bar.linkCtl l) 62 60 n

/-! ## Health and error records (R418 to R421) -/

/-- What HEALTH reads (R421). -/
def W.healthNow (w : W) : W64 :=
  let bit (b : Bool) : Nat := if b then 1 else 0
  let spares := w.m.hub.spares.foldl (fun n x => n + x.2) 0
  let fenced := (w.m.sectors.filter fun s => s.2.fenced).length
  let full := w.m.hub.spares.any fun x => decide (8 ≤ x.2)
  let reasons := [decide (0 < fenced), w.fld Bar.bootStat 47 32 != 0, w.m.links.any fun l => l.2.bad, full, w.m.hub.throttle]
  let st := if w.fld Bar.bootStat 55 48 ≠ 0 then 3 else if w.fld Bar.bootStat 0 0 = 0 then 0 else if reasons.any id then 2 else 1
  BitVec.ofNat 64 (packFields ([(3, st), (5, 0)] ++ reasons.map (fun b => (1, bit b)) ++ [(3, 0), (10, fenced), (6, 0), (19, spares), (13, 0)]))
/-- HEALTH follows what it reports. -/
def W.syncHealth (w : W) : W := w.setBar Bar.health w.healthNow

/-- Write an error record (R420) to its area, whose BASE is an INTERLEAVE PA. -/
def W.errorRecord (w : W) (t : ErrTest) (result : Nat) : W :=
  let off := Bar.errLog
  let cap := 2 ^ w.fld off 63 60 * 32
  let full := w.fld off 58 58 = 1
  let n := if full then cap else w.fld off 11 0
  let pa := w.fld off 55 12 * 2 ^ 12 + 32 * n
  if full ∨ cap ≤ n ∨ maxInterleave < pa + 32 then w.setFld off 59 59 1
  else
    let bs := leBytes 32 (packFields [(64, t.time), (8, t.kind), (8, result), (8, t.part), (8, t.die), (32, t.unit), (64, t.addr.toNat), (64, 0)])
    let key := keyDie (homeDie pa) (dieOffset pa)
    let w := (w.countReqs 4 none (sectorKeys key 32)).applyBytes (hubAgent w.hostAgent) {} key bs
    let w := w.setFld off 11 0 (min (n + 1) 4095)
    if n + 1 = cap then w.setFld off 58 58 1 else w

/-- The package-wide sector of a die's cell, and the key of its bank. -/
def dieSector (die cell : Nat) : Nat := 4 * (die * 40 + 8 * (siteY cell / 16) + siteX cell / 16) + 2 * (siteY cell / 8 % 2) + siteX cell / 8 % 2
def bankKey (die cell : Nat) : Nat := die * 2 ^ 14 + cell

def W.addTest (w : W) (t : ErrTest) : W :=
  let (w, id) := w.fresh
  w.setHub fun h => { h with tests := h.tests ++ [{ t with id := id }] }
def W.dropTest (w : W) (id : Nat) : W := w.setHub fun h => { h with tests := h.tests.filter fun t => t.id != id }
/-- A sector is to be scanned: its quad is withheld. -/
def W.wantScan (w : W) (t : ErrTest) : W :=
  (w.setSector (dieSector t.die t.unit) fun s => { s with scan := true }).addTest { t with scan := true }

/-- The messages that wait for a direction leave over its links, as these have room, in their order. -/
def W.setOut (w : W) (d : Nat) : W :=
  (tgetD w.m.hub.adrift d []).foldl (fun w n =>
    match w.dirLink d, tgetD w.m.hub.adrift d [] with
    | some l, m :: rest => if m = n then (w.sendOn l n).setHub fun h => { h with adrift := tput h.adrift d rest } else w
    | _, _ => w) w
/-- A link carries no more: what it has sent and not had acknowledged goes over the other links of its direction, before what already waits (R403). -/
def W.handOver (w : W) (l : Nat) : W :=
  let d := l / 3
  let w := w.setHub fun h => { h with adrift := tput h.adrift d ((w.link l).buf ++ tgetD h.adrift d []) }
  (w.setLink l fun x => { x with buf := [] }).setOut d

/-- Eight failures of one flit: the link retrains with a pattern check (R403, R418). -/
def W.linkFails (w : W) (l : Nat) : W :=
  (((w.setLinkState l 3).handOver l).setLink l fun x => { x with fails := 0 }).addTest { kind := 3, die := 4, unit := l, time := w.ns }

/-- The sector of DRAM that an error names. DESIGN CHOICE: its PA is an INTERLEAVE PA where that has its home on the die, else the offset in the die's DRAM (log 99). -/
def dramKey (die pa : Nat) : Nat := sectorKey (if pa < maxInterleave ∧ homeDie pa = die then keyDie die (dieOffset pa) else keyDie die pa)

/-- ERROR_DETECT (R418 to R420): kind 1 a bank word, tested by a BIST of its row that holds the row in a spare, or by a scan when no spare is free; 2 MX parity or
sector logic, by a scan; 3 a link, by retraining; 4 and 5 a DRAM sector, recorded at once. -/
def execErrorDetect (kind part die unit : Nat) (addr : BitVec 64) (s : State) : Res :=
  run s fun w =>
    let t : ErrTest := { kind := kind, part := part, die := die, unit := unit, addr := addr, time := w.ns }
    match kind with
    | 1 =>
      let k := bankKey die unit
      let n := tgetD w.m.hub.spares k 0
      if 8 ≤ n then w.wantScan t
      else ((w.setHub fun h => { h with spares := tput h.spares k (n + 1) }).addTest t).syncHealth
    | 2 => w.wantScan t
    | 3 => w.guard (decide (unit < 18) && w.linkState unit == 2) fun w => w.linkFails unit
    | 4 => w.errorRecord t 0
    | 5 => (w.setBus fun b => { b with bad := (b.bad ++ [dramKey die addr.toNat]).eraseDups }).errorRecord t 0
    | _ => w

/-- BANK_ROW_BIST (R419): a row that passes returns to its place and frees its spare; one that fails stays in the spare. -/
def execBankRowBist (id : Nat) (pass : Bool) (s : State) : Res :=
  run s fun w =>
    match w.m.hub.tests.find? fun t => t.id == id && t.kind == 1 && !t.scan with
    | none => w
    | some t =>
      let k := bankKey t.die t.unit
      let w := if pass then w.setHub fun h => { h with spares := tput h.spares k (tgetD h.spares k 1 - 1) } else w
      ((w.dropTest id).errorRecord t (if pass then 1 else 2)).syncHealth

/-- SECTOR_SCAN (R418): once no region holds its quad; a sector that fails is fenced, across starts too by a failed-step record of step 8. -/
def execSectorScan (sec : Nat) (pass : Bool) (s : State) : Res :=
  run s fun w =>
    let quad := sec / 4
    let held := w.m.regions.any fun g => (regionQuads g.2).contains quad || g.2.spare.contains quad
    w.guard ((w.sector sec).scan && !held) fun w =>
      let mine := w.m.hub.tests.filter fun t => t.scan && dieSector t.die t.unit == sec
      let w := w.setSector sec fun x => { x with scan := false, fenced := x.fenced || !pass }
      let w := if pass then w else w.setBoot fun b => { b with recs := b.recs ++ [{ step := 8, die := sec / 160, bitmap := sec, time := w.ns }] }
      (mine.foldl (fun w t => (w.dropTest t.id).errorRecord t (if pass then 1 else 3)) w).syncHealth

/-! ## Links (R402, R403) -/

/-- The neighbour of this device in a direction: 0 +x, 1 −x, 2 +y, 3 −y, 4 +z, 5 −z. -/
def W.neighbour (w : W) (dir : Nat) : Nat :=
  let (xs, ys, zs) := w.torus
  let (x, y, z) := placeOn (xs, ys, zs) (w.fld Bar.devLoc 12 0)
  let turn (n size : Nat) (up : Bool) : Nat := if up then (n + 1) % size else (n + size - 1) % size
  let x := if dir / 2 = 0 then turn x xs (dir == 0) else x
  let y := if dir / 2 = 1 then turn y ys (dir == 2) else y
  let z := if dir / 2 = 2 then turn z zs (dir == 4) else z
  x + xs * (y + ys * z)

/-- A write to LINK_CTL (R402): EN = 1 starts training of a link that was not enabled, EN = 0 takes it down. -/
def W.writeLinkCtl (w : W) (l : Nat) (v : W64) : W :=
  let en := w.fld (Bar.linkCtl l) 63 63 = 1
  if v.getLsbD 63 then
    if en then w else (((w.setFld (Bar.linkCtl l) 63 63 1).setLinkState l 1).setLink l fun x => { x with bad := false, fails := 0, expect := 0, next := 0, buf := [] }).syncHealth
  else ((w.setFld (Bar.linkCtl l) 63 63 0).setLinkState l 0).handOver l
/-- LINK_ENABLE, LINK_DISABLE. -/
def execLinkEnable (link : Nat) (v : BitVec 64) (s : State) : Res :=
  run s fun w => w.guard (w.ready && decide (link < 18) && v.getLsbD 63) fun w => w.writeLinkCtl link v
def execLinkDisable (link : Nat) (v : BitVec 64) (s : State) : Res :=
  run s fun w => w.guard (w.ready && decide (link < 18) && !v.getLsbD 63) fun w => w.writeLinkCtl link v

/-- LINK_TRAINING_DONE (R403, R418): training ends, with what the far end reports, its device id and its direction. A link that matches goes up, one that does
not is miswired; one whose retraining fails is disabled. -/
def execLinkTrainingDone (link peer far : Nat) (ok : Bool) (s : State) : Res :=
  run s fun w =>
    let st := w.linkState link
    w.guard (decide (link < 18) && (st == 1 || st == 3)) fun w =>
      let tests := w.m.hub.tests.filter fun t => t.kind == 3 && t.unit == link
      let close (w : W) (result : Nat) : W := tests.foldl (fun w t => (w.dropTest t.id).errorRecord t result) w
      let dir := link / 3
      let opposite := if dir % 2 = 0 then dir + 1 else dir - 1
      if ok then
        let w := if far = opposite ∧ peer = w.neighbour dir then
            (((w.setLinkState link 2).setFld (Bar.linkCtl link) 59 47 peer).setLink link fun x => { x with fails := 0 }).setOut dir
          else w.setLinkState link 4
        close w 1
      else if st = 3 then
        (close (((w.setFld (Bar.linkCtl link) 63 63 0).setLinkState link 0).setLink link fun x => { x with bad := true }) 4).syncHealth
      else w

/-- Add to a 32-bit field that saturates. -/
def W.satAdd (w : W) (off hi lo n : Nat) : W := w.setFld off hi lo (min (w.fld off hi lo + n) 0xFFFFFFFF)

/-- What a flit says of those that this end has sent: up to its acknowledged number they have arrived and leave the buffer; when the far end has refused the next one, all
that are left are replayed, and counted (R402, R403; log 98). -/
def W.acked (w : W) (l : Nat) (f : FlitIn) : W :=
  let x := w.link l
  let n := (f.ack + 1 + x.buf.length + 4096 - x.next % 4096) % 4096
  let n := if n ≤ x.buf.length then n else 0
  let w := w.setLink l fun x => { x with buf := x.buf.drop n }
  if f.again then w.satAdd (Bar.linkErr l) 31 0 (w.link l).buf.length else w

/-- FLIT_RECEIVE (R403): a flit that fails its CRC is refused; eight failures in a row retrain the link; the flit awaited is accepted, and what it acknowledges of this
end's own leaves the sender's buffer. -/
def execFlitReceive (link : Nat) (flit : FlitIn) (corrected crcOk : Bool) (s : State) : Res :=
  run s fun w =>
    w.guard (decide (link < 18) && w.linkState link == 2) fun w =>
      let w := if corrected then w.satAdd (Bar.linkErr link) 63 32 1 else w
      let x := w.link link
      if crcOk then
        let w := w.acked link flit
        let w := if flit.seq = x.expect then w.setLink link fun x => { x with expect := (x.expect + 1) % 4096, fails := 0 } else w
        w.setOut (link / 3)
      else
        let w := w.setLink link fun x => { x with fails := x.fails + 1 }
        if 8 ≤ x.fails + 1 then w.linkFails link else w

/-- The link toward which the time counter steers: of those that are up and whose far end is nearer the time master the one of the lowest latency (R404). -/
def W.steerLink (w : W) : Option Nat :=
  ((List.range 18).filter fun l => w.linkState l == 2 && (w.link l).nearer).foldl (fun m l => match m with
    | none => some l
    | some k => if (w.link l).lat < (w.link k).lat then some l else some k) none

/-- TIME_SYNC_EXCHANGE (R404): a device that is not the time master steers its counter's rate toward that link, never back. -/
def execTimeSyncExchange (link : Nat) (found : Sync) (s : State) : Res :=
  run s fun w => w.guard (decide (link < 18) && w.linkState link == 2) fun w =>
    let w := w.setLink link fun x => { x with lat := found.latency, nearer := found.nearer }
    w.guard (!(w.bar Bar.devLoc).getLsbD 40 && w.steerLink == some link) fun w => w.setHub fun h => { h with steer := max found.ppm (-1000000) }

/-! ## Temperatures (R416, R417) -/

/-- A 16-bit field as a signed number. -/
def s16 (n : Nat) : Int := if 2 ^ 15 ≤ n then (n : Int) - 2 ^ 16 else n
/-- TEMP of a die, and its limit, in 1/8 °C. -/
def W.temp (w : W) (d : Nat) : Int := s16 (w.fld (Bar.temp d) 15 0)
def W.tlim (w : W) (d : Nat) : Int := s16 (w.fld (Bar.temp d) 47 32)
/-- The package enters or leaves throttle: a trigger for every running region. -/
def W.setThrottle (w : W) (b : Bool) : W :=
  ((w.setHub fun h => { h with throttle := b }).triggerSolve fun _ g => g.runs || g.phase == .unsolved).syncHealth

/-- TEMP_SAMPLE: a die's temperature and MAX; a die above its limit puts the package into throttle, and 10 ms with every die 5 °C below takes it out. -/
def execTempSample (die : Nat) (temp : BitVec 16) (s : State) : Res :=
  run s fun w =>
    w.guard (decide (die < 5)) fun w =>
      let off := Bar.temp die
      let w := w.setFld off 15 0 temp.toNat
      let w := if s16 (w.fld off 31 16) < w.temp die then w.setFld off 31 16 temp.toNat else w
      let cool := (List.range 5).all fun d => decide (w.temp d < w.tlim d - 40)
      let w := w.setHub fun h => { h with coolNs := if cool then some (h.coolNs.getD w.ns) else none }
      if w.tlim die < w.temp die then (if w.m.hub.throttle then w else w.setThrottle true)
      else match w.m.hub.coolNs with
        | some t => if w.m.hub.throttle ∧ t + 10000000 ≤ w.ns then w.setThrottle false else w
        | none => w

end Sys2Proof.Machine
end

