-- ==== Sys2Proof/Machine/Boot.lean ====
section
/-! DEFINITION. Sys2Proof/Machine/Boot.lean: start-up and its records, measurements and quotes, the firmware slots, and the loss of power
(29_boot_and_security.md, 30_fleet_operation.md R423). -/

namespace Sys2Proof.Machine

/-! ## The slots of flash (R412) -/

/-- The parts of a slot image: the public key, the security version, the body, and the signature over the version and the body (log 16). -/
def imageKey (bs : List Byte) : List Byte := bs.take 1952
def imageVersion (bs : List Byte) : Nat := leNat ((bs.drop 1952).take 4)
def imageBody (bs : List Byte) : List Byte := (bs.drop 1956).take (bs.length - 5265)
/-- Its key's digest matches the ROM, and its signature verifies against that key. -/
def imageSigned (bs : List Byte) : Bool :=
  decide (5265 ≤ bs.length) && shake256 32 (imageKey bs) == Config.romKeyDigest &&
  Config.verifies (imageKey bs) ((bs.drop 1952).take (bs.length - 5261)) (bs.drop (bs.length - 3309))

/-- A slot verifies: the image that the device came with has version 0, and is signed (log 16). -/
def Slot.ok (x : Slot) (minVer : Nat) : Bool := !x.torn && match x.image with
  | some bs => imageSigned bs && decide (minVer ≤ imageVersion bs)
  | none => minVer == 0
def Slot.body (x : Slot) (shipped : List Byte) : List Byte := match x.image with | some bs => imageBody bs | none => shipped
/-- A firmware slot verifies. -/
def Boot.slotOk (b : Boot) (i : Nat) : Bool := (tgetD b.slots i {}).ok b.minVer
/-- A record of a step stands in flash: its alteration is in force, or the step is skipped. -/
def Boot.recorded (b : Boot) (n : Nat) : Bool := b.recs.any fun r => r.step == n
/-- The configuration slot in use: the second one with the alteration of step 4. -/
def Boot.cfgSlot (b : Boot) : Nat := if b.recorded 4 then 1 - b.cfg else b.cfg
/-- The configuration body in use, and the minimum security version that it holds. -/
def Boot.cfgBody (b : Boot) : List Byte := (tgetD b.cfgs b.cfgSlot {}).body (Config.configBody b.cfgSlot)
def Boot.cfgMin (b : Boot) : Nat := match (tgetD b.cfgs b.cfgSlot {}).image with | some bs => Config.minVersion (imageBody bs) | none => 0

/-! ## Start-up (R409, R410) -/

/-- Steps with an alteration, and the optional ones. -/
def stepAlters (n : Nat) : Bool := [3, 4, 6, 7, 8].contains n
def stepOptional (n : Nat) : Bool := n == 10 || n == 11
/-- Steps whose failures and alterations are those of a die, or of a sector. -/
def stepUnits (n : Nat) : Bool := n == 6 || n == 7 || n == 8
/-- A sector is fenced by the record of a step. -/
def Boot.fences (b : Boot) (sec : Nat) : Bool := b.recs.any fun r => (r.step == 7 || r.step == 8) && r.bitmap == sec

/-- What fails in a step: of dies and sectors those that are not fenced, each once; of another step one failure, where the turn finds one or what the step verifies does
not verify (R412, R413). -/
def Boot.failing (b : Boot) (n : Nat) (found : StartIn) : List Nat :=
  if n = 6 then found.units.eraseDups
  else if n = 7 ∨ n = 8 then found.units.eraseDups.filter fun u => !b.fences u
  else
    let bad := (n == 2 && !found.pufOk) || (n == 3 && !b.slotOk b.next) || (n == 4 && !(tgetD b.cfgs b.cfgSlot {}).ok b.minVer)
    if found.units.isEmpty && !bad then [] else [0]

/-- The alteration of a step is in force, for the die that fails; a fenced sector does not fail. DEDUCED: so a die or sector that fails for the first time has its own alteration
to come, also where the step has run with that of another (log 100). -/
def Boot.altered (b : Boot) (n u : Nat) : Bool := b.recs.any fun r => r.step == n && (n != 6 || r.die == u) && n != 7 && n != 8

/-- The failed-step record of step n. -/
def failRec (b : Boot) (n u time detail : Nat) : FailRec :=
  let sec := n == 7 || n == 8
  { step := n, die := if n = 6 then u else if sec then u / 160 else 0, bitmap := if sec then u else 0, alter := stepAlters n && b.altered n u, time := time
    detail := detail % 2 ^ 16 }

/-- The 32 bytes of a record, its fields in R410's order. -/
def FailRec.bytes (r : FailRec) : List Byte :=
  leBytes 32 (packFields [(8, r.step), (8, r.die), (16, r.bitmap), (8, if r.alter then 1 else 0), (64, r.time), (16, r.detail)])

/-- M[i] extended by a 64-byte digest (R414). -/
def W.extend (w : W) (i : Nat) (h : W512) : W :=
  w.setBoot fun b => { b with meas := tput b.meas i (BitVec.ofNat 512 (leNat (shake256 64 (leBytes 64 (tgetD b.meas i 0).toNat ++ leBytes 64 h.toNat)))) }
/-- M[i] extended by the digest of bytes. -/
def W.measure (w : W) (i : Nat) (bs : List Byte) : W := w.extend i (BitVec.ofNat 512 (leNat (shake256 64 bs)))

/-- A start begins: the machine at reset, with its flash; a clear that was asked for, and a configuration update that verifies, take effect: the records are erased. The update
stands in the slot that is not in use, which is used from now on (log 16). -/
def W.beginStart (w : W) (update : Option (List Byte)) : W :=
  let b := w.m.boot
  let fresh := match update with | some bs => imageSigned bs && decide (b.minVer ≤ imageVersion bs) | none => false
  let slot := 1 - b.cfgSlot
  let b := if fresh then { b with cfgs := tput b.cfgs slot { image := update }, cfg := slot } else b
  let b := if fresh || b.clear then { b with recs := [] } else b
  w.setM fun m => {
    draw := m.draw, nextId := m.nextId
    boot := { b with clear := false, meas := [], writing := none, seed := none, stage := 1, stopped := false } }

/-- Step 12: the measurements of R414, the sectors of the records fenced (R411), the firmware slot that runs, and READY. -/
def W.finalise (w : W) : W :=
  let b := w.m.boot
  let w := (w.setBoot fun b => { b with active := b.next, stage := 0 }).setFld Bar.bootStat 0 0 1
  let w := (w.setFld Bar.fwCtl 3 3 b.next).setFld Bar.fwCtl 4 4 b.next
  let w := (b.recs.filter fun r => r.step == 7 || r.step == 8).foldl (fun w r => w.setSector r.bitmap fun c => { c with fenced := true }) w
  let w := ((w.measure 0 Config.rom).measure 1 ((tgetD b.slots b.next {}).body (Config.firmwareBody b.next))).measure 2 b.cfgBody
  b.recs.foldl (fun w r => w.measure 3 r.bytes) w

/-- A step completes: what it leaves. -/
def W.stepDone (w : W) (n : Nat) (found : StartIn) : W :=
  let w := w.setFld Bar.bootStat 15 8 n
  let w := w.setBoot fun b => { b with
    stage := n + 1
    seed := if n = 2 then some (Config.seedOf b.helper found.puf) else b.seed
    minVer := if n = 4 then b.cfgMin else b.minVer }
  if n = 12 then w.finalise else w

/-- One step of a start (R409, R410): an optional step that has a record is skipped. A failure is recorded, one record a failing die or sector; an optional step is then passed
over; a step without an alteration, or with it in force for what fails, stops the device; any other resets it, and the next start runs the step with its alteration. -/
def W.startStep (w : W) (n : Nat) (found : StartIn) (detail : Nat) : W :=
  let b := w.m.boot
  if stepOptional n && b.recorded n then (w.setFld Bar.bootStat (16 + n) (16 + n) 1).setBoot fun b => { b with stage := n + 1 }
  else
    let w := if stepAlters n && b.recorded n then w.setFld Bar.bootStat (32 + n) (32 + n) 1 else w
    match b.failing n found with
    | [] => w.stepDone n found
    | us =>
      let w := w.setBoot fun b => { b with recs := b.recs ++ us.map fun u => failRec b n u w.ns detail }
      if stepOptional n then w.setBoot fun b => { b with stage := n + 1 }
      else if !stepAlters n || us.any (b.altered n) then
        (w.setFld Bar.bootStat 55 48 n).setBoot fun b => { b with stage := 0, stopped := true }
      else (w.setBoot fun b => { b with next := if n = 3 then 1 - b.next else b.next }).beginStart none

/-- POWER_ON_RESET (R409 to R411, R414): a turn of start-up. With no start in progress the device is reset and one begins; else its next step is run. A device that has stopped
on a failed step stays so until its power is off. -/
def execPowerOnReset (found : StartIn) (detail : Nat) (s : State) : Res :=
  run s fun w =>
    w.guard (w.fld Bar.bootStat 55 48 == 0) fun w =>
      (if w.m.boot.stage = 0 then w.beginStart found.update else w.startStep w.m.boot.stage found detail).syncHealth

/-- POWER_LOSS (R423): all activity ends; flash stays, and a slot being written does not verify. -/
def execPowerLoss (s : State) : Res :=
  run s fun w => w.setM fun m => {
    draw := m.draw, nextId := m.nextId, boot := { m.boot with meas := [], seed := none, writing := none, stage := 0, stopped := true } }

/-- BOOT_STAT can be written: the device answers on PCIe, after step 9 (R409); also one that has stopped after it. -/
def W.answers (w : W) : Bool := decide (9 ≤ w.fld Bar.bootStat 15 8)
/-- A write to BOOT_STAT (R411). -/
def W.writeBootStat (w : W) (v : W64) : W :=
  w.guard (v.getLsbD 63) fun w => (w.setBoot fun b => { b with clear := true }).setFld Bar.bootStat 63 63 1
/-- BOOT_STAT_CLEAR: every failed-step record is erased at the next start. -/
def execBootStatClear (v : BitVec 64) (s : State) : Res := run s fun w => w.guard w.answers fun w => w.writeBootStat v

/-! ## Measurements and quotes (R414, R415) -/

/-- n pages at an address of the PF's tables, read one after another; none where the tables refuse. -/
def W.pfBytes (w : W) (va : Nat) : Nat → W × Option (List Byte)
  | 0 => (w, some [])
  | n + 1 =>
    match w.hubTake pfPart (BitVec.ofNat 64 va) 4096 with
    | (w, some a) => match w.pfBytes (va + 4096) n with
      | (w, some b) => (w, some (a ++ b))
      | x => x
    | x => x

/-- A write to MEAS_EXT: M(4 + IDX) is extended by the digest at ADDR; one that cannot be read sets ERR. -/
def W.writeMeasExt (w : W) (v : W64) : W :=
  let w := w.setFld Bar.measExt 55 6 (field v 55 6)
  match w.hubTake pfPart (BitVec.ofNat 64 (field v 55 6 * 64)) 64 with
  | (w, some bs) => w.extend (4 + field v 1 0) (BitVec.ofNat 512 (leNat bs))
  | (w, none) => w.setFld Bar.attCtl 1 1 1
/-- MEASUREMENT_EXTEND. -/
def execMeasurementExtend (v : BitVec 64) (s : State) : Res := run s fun w => w.guard w.ready fun w => w.writeMeasExt v

/-- The first 560 bytes of a quote (R415). -/
def W.quoteBody (w : W) (nonce : List Byte) : List Byte :=
  nonce ++ leBytes 2 (w.fld Bar.devLoc 12 0) ++ leBytes 2 Config.regVersion.toNat ++ leBytes 8 (w.bar Bar.bootStat).toNat ++
  (List.range 8).flatMap (fun i => leBytes 64 (tgetD w.m.boot.meas i 0).toNat) ++ leBytes 4 0
/-- The 3,309 bytes of its signature, by the identity key of the seed (R413). -/
def W.signature3309 (w : W) (bs : List Byte) : List Byte :=
  (Config.signature (Config.identityKey (w.m.boot.seed.getD [])) bs ++ List.replicate 3309 0).take 3309

/-- A write to ATT_CTL: BUF while no quote is made, and with BUSY a quote; one that cannot be written sets ERR. A quote is made at once (log 12). -/
def W.writeAttCtl (w : W) (v : W64) : W :=
  if (w.bar Bar.attCtl).getLsbD 0 then w
  else
    let w := w.setFld Bar.attCtl 55 12 (field v 55 12)
    if !v.getLsbD 0 then w
    else
      let va := BitVec.ofNat 64 (field v 55 12 * 2 ^ 12)
      let w := w.setFld Bar.attCtl 1 1 0
      match w.hubTake pfPart va 32 with
      | (w, none) => w.setFld Bar.attCtl 1 1 1
      | (w, some nonce) => match w.hubFind pfPart va .write with
        | (w, some (l, off)) => let body := w.quoteBody nonce; w.hubStore {} l off (body ++ w.signature3309 body)
        | (w, none) => w.setFld Bar.attCtl 1 1 1
/-- ATTESTATION_QUOTE. -/
def execAttestationQuote (v : BitVec 64) (s : State) : Res := run s fun w => w.guard (w.ready && v.getLsbD 0) fun w => w.writeAttCtl v

/-! ## The firmware slots (R412, R423) -/

/-- The flash write of an image in the PF's space begins, into the slot that is not ACTIVE, if the image verifies; else ERR is set. -/
def W.fwGo (w : W) : W :=
  let w := w.setFld Bar.fwCtl 2 2 0
  let va := w.fld Bar.fwCtl 55 12 * 2 ^ 12
  let image : W × Option (List Byte) := match w.pfBytes va 1 with
    | (w, some first) =>
      let n := Config.slotLength first
      if 5265 ≤ n then match w.pfBytes (va + 4096) (n / 4096) with
        | (w, some rest) => (w, some ((first ++ rest).take n))
        | x => x
      else (w, none)
    | x => x
  match image with
  | (w, some bs) =>
    if ({ image := some bs } : Slot).ok w.m.boot.minVer then
      let slot := 1 - w.m.boot.active
      let w := w.setBoot fun b => { b with
        writing := some (slot, { image := some bs }), slots := tput b.slots slot { tgetD b.slots slot {} with torn := true } }
      w.setFld Bar.fwCtl 0 0 1
    else w.setFld Bar.fwCtl 2 2 1
  | (w, none) => w.setFld Bar.fwCtl 2 2 1

/-- A write to FW_CTL: NEXT selects a slot that verifies, BUF is written while BUSY = 0, and GO starts a write then. -/
def W.writeFwCtl (w : W) (v : W64) : W :=
  let next := field v 4 4
  let w := if w.m.boot.slotOk next then (w.setBoot fun b => { b with next := next }).setFld Bar.fwCtl 4 4 next else w
  if (w.bar Bar.fwCtl).getLsbD 0 then w
  else
    let w := w.setFld Bar.fwCtl 55 12 (field v 55 12)
    if v.getLsbD 1 then w.fwGo else w

/-- FW_SLOT_WRITE: with GO the write of FW_CTL that begins it; without, the end of the flash write in progress, after which the slot is NEXT (log 12). -/
def execFwSlotWrite (v : BitVec 64) (s : State) : Res :=
  run s fun w => w.guard w.ready fun w =>
    if v.getLsbD 1 then w.writeFwCtl v
    else match w.m.boot.writing with
      | some (i, x) =>
        let w := w.setBoot fun b => { b with writing := none, slots := tput b.slots i x, next := i }
        (w.setFld Bar.fwCtl 4 4 i).setFld Bar.fwCtl 0 0 0
      | none => w

/-- FW_NEXT_SELECT: a write of FW_CTL without GO. -/
def execFwNextSelect (v : BitVec 64) (s : State) : Res := run s fun w => w.guard (w.ready && !v.getLsbD 1) fun w => w.writeFwCtl v

end Sys2Proof.Machine
end

