-- ==== Sys2Proof/Machine/Control.lean ====
section
/-! DEFINITION. Sys2Proof/Machine/Control.lean: the controller nodes 0xB0 to 0xB4, and the fabric's events: a child's DONE, a leaf's DONE, a
pulse's delivery, a result's landing (02_execution_model.md R23 to R31, R301, R302). -/

namespace Sys2Proof.Machine

/-- The line D of a node, and its base line (R27). -/
def nodeLine (f : EFields) : Nat := field f.ta 16 3
def nodeBase (f : EFields) : Nat := field f.tb 16 3

/-- A node's pennant (R29, R31), which becomes its latest reference. -/
def W.nodePennant (w : W) (e : ERef) (producer : Nat) (pref : W32) (start arrival kind : Nat) : W × W32 :=
  let g := w.region e.r
  let q := siteQuad g e.cell
  let (w, ref) := w.pennant q g.part {
    waiter := w.elemAgent e, producer := producer, pref := pref, start := start, arrival := arrival, stop := w.ns, kind := kind, step := w.stepOf q }
  (w.setNode e fun n => { n with latest := ref }, ref)

/-- An idle node takes the START on its line, with its count token (R28): the count from lane 0 of L, a null 0. -/
def W.nodeStart (w : W) (e : ERef) (f : EFields) (children : Nat) : W :=
  let n := w.node e
  if n.running then w
  else
    match w.pendingOn e.r (nodeLine f - 1) e.key, (w.elem e).inputs {} with
    | some p, some i =>
      let (w, count) := if i.l.null then (w, 0) else if i.l.emptyAt 0 then w.freeBelow (2 ^ 32) else (w, (i.l.lane 0).toNat)
      let w := (w.consume e i).takePulse e.r (nodeLine f - 1) e.key
      w.setNode e fun n =>
        { n with running := true, n := count, fin := List.replicate children 0, busy := List.replicate children false
                 startNs := w.ns, latest := newer n.latest p.ref, lastRef := p.ref, cov := p.cov, lastG := 0, lastNs := 0, lastAgent := 0, lastChild := 0 }
    | _, _ => w

/-- The children that a CSEQ, a CSTRM or a CPIPE may start now (R28); none: its run is over. -/
def seqNext (n c : Nat) (fin : List Nat) : Option (List Nat) :=
  let done := fin.foldl (· + ·) 0
  if done < n * c then some [done % c] else none
def strmNext (n c : Nat) (fin : List Nat) (busy : List Bool) : Option (List Nat) :=
  if busy.any id then some [] else if fin.headD 0 < n then some (List.range c) else none
def pipeNext (n c : Nat) (fin : List Nat) (busy : List Bool) : Option (List Nat) :=
  if fin.getD (c - 1) 0 < n then
    some ((List.range c).filter fun i =>
      !busy.getD i false && decide (fin.getD i 0 < n) && (i == 0 || decide (fin.getD i 0 + 1 ≤ fin.getD (i - 1) 0)) &&
      (i + 1 == c || decide (fin.getD i 0 ≤ fin.getD (i + 1) 0 + 1)))
  else none

/-- A tree node (R28, R31): it takes its START, starts the children that it may, and when its run is over writes its pennant and pulses its
line. `next` says which children it may start. A reconfiguration token at its L holds up its next run only: it switches when it is idle (R315). -/
def treeNode (f : EFields) (next : Nat → Nat → List Nat → List Bool → Option (List Nat)) (s : State) : Res :=
  runElem s fun e w =>
    if !w.onOwnEdge e then w
    else
      let c := f.mod.toNat + 1
      let w := w.nodeStart e f c
      let n := w.node e
      if !n.running then w
      else
        let finish (w : W) (ref : W32) : W :=
          (w.pulse e.r (nodeLine f) ref (w.elemAgent e) n.cov).setNode e fun n => { n with running := false }
        match next n.n c n.fin n.busy with
        | none =>
          if !w.canPulse e.r (nodeLine f) then w
          else if n.n = 0 then finish w n.lastRef
          else
            let (w, ref) := w.nodePennant e n.lastAgent n.lastRef n.startNs n.lastNs 0x10
            finish w ref
        | some cs =>
          if cs.all fun k => w.canPulse e.r (nodeBase f + 2 * k) then
            let w := cs.foldl (fun w k => w.pulse e.r (nodeBase f + 2 * k) n.latest (w.elemAgent e) n.cov) w
            w.setNode e fun n => { n with busy := (List.range c).map fun k => n.busy.getD k false || cs.contains k }
          else w

/-- CSEQ: the children in turn, iteration by iteration, one at a time. -/
def execCseq (f : EFields) (s : State) : Res :=
  treeNode f (fun n c fin busy => if busy.any id then some [] else seqNext n c fin) s
/-- CPIPE: each child whose neighbours let it go on. -/
def execCpipe (f : EFields) (s : State) : Res := treeNode f pipeNext s
/-- CSTRM: all children together, iteration by iteration. -/
def execCstrm (f : EFields) (s : State) : Res := treeNode f strmNext s

/-- CBAR (R29): the pulses of n lines, all on one edge; its pennant names the one that arrived last. -/
def execCbar (f : EFields) (s : State) : Res :=
  runElem s fun e w =>
    if !w.onTurn e then w
    else
      let ls := (List.range f.imm.toNat).map (nodeBase f + ·)
      let ps := ls.filterMap fun h => w.pendingOn e.r h e.key
      if ps.length ≠ ls.length ∨ ps = [] ∨ !w.canPulse e.r (nodeLine f) then w
      else
        let last := ps.foldl (fun (a : Pulse) p => if a.landed < p.landed then p else a) (ps.headD {})
        let first := ps.foldl (fun a p => min a p.landedNs) last.landedNs
        let w := ls.foldl (fun w h => w.takePulse e.r h e.key) w
        let (w, ref) := w.nodePennant e last.agent last.ref first last.landedNs 0x11
        w.pulse e.r (nodeLine f) ref (w.elemAgent e) (ps.foldl (fun (c : Cov) p => c.join p.cov) {})

/-- RCFG (R30): on START it asks the loader for its section; the loader pulses its line when the section has been applied. -/
def execRcfg (f : EFields) (s : State) : Res :=
  runElem s fun e w =>
    let n := w.node e
    w.guard (w.onTurn e && !n.running) fun w =>
      match w.pendingOn e.r (nodeLine f - 1) e.key with
      | none => w
      | some p =>
        let n0 := w.node e
        let w := w.takePulse e.r (nodeLine f - 1) e.key
        let w := w.setNode e fun n => { n with running := true, startNs := w.ns, latest := newer n.latest p.ref, lastRef := p.ref, cov := p.cov }
        w.askSection e.r { sec := f.imm.toNat, byElem := true, who := e.key, agent := w.elemAgent e, ref := newer n0.latest p.ref }

/-- NODE_CHILD_DONE (R28, R31, R302): a tree node takes a child's DONE pulse; a DONE of a child that it has not started faults with 0x251. -/
def execNodeChildDone (r cell slot child : Nat) (s : State) : Res :=
  run s fun w =>
    let e : ERef := ⟨r, cell, slot⟩
    let x := w.elem e
    let f := x.fields
    let line := nodeBase f + 2 * child + 1
    w.guard (w.onOwnEdge e && [0xB0, 0xB1, 0xB2].contains x.opc && decide (child ≤ f.mod.toNat)) fun w =>
      match w.pendingOn r line e.key with
      | none => w
      | some p =>
        let n := w.node e
        let w := w.takePulse r line e.key
        if !n.running || !n.busy.getD child false then w.raiseElem e 0x251
        else
          let later := decide (n.lastG < p.landed) || (n.lastG == p.landed && decide (child ≤ n.lastChild))
          w.setNode e fun n =>
            let n := { n with busy := n.busy.set child false, fin := n.fin.set child (n.fin.getD child 0 + 1), latest := newer n.latest p.ref, cov := n.cov.join p.cov }
            if later then { n with lastG := p.landed, lastChild := child, lastNs := p.landedNs, lastRef := p.ref, lastAgent := p.agent } else n

/-- The stores and flags of a leaf, and its row firings, are performed, the stores at REGION scope (R25, R60, R302). -/
def W.leafDone (w : W) (r line : Nat) : Bool :=
  let g := w.region r
  let leaf := g.leaf line
  let storing (q : Req) : Bool := match q.kind with
    | .read | .mfence _ | .empty | .pnrd => false
    | .rld _ _ | .atomic _ | .cas => true
    | .write | .mcst _ | .rdcp _ _ => !q.allDone
  (w.m.bus.reqs.all fun q => match q.src with
    | .elem r' c s => !(r' == r && leaf.contains (ekey c s) && storing q)
    | _ => true) &&
  ((g.leafCells line).all fun c =>
    let e := w.eyeOf (.elem r c 0)
    w.m.bus.unseen.all fun u => !(u.agent == e.agent && u.outside 2 e)) &&
  leaf.all fun k =>
    let x := tgetD g.elems k {}
    (x.flights.all fun f => f.flags == 0) && (x.opc != 0x71 || (tgetD g.mxs (k / 8) {}).firings.isEmpty)

/-- LEAF_DONE (R24, R25, R31): a done source that has consumed its leaf's last-iteration mark pulses its line once the leaf's stores, flags and
row firings are performed; the pulse carries the latest reference that the leaf has written since its START, else the START's. -/
def execLeafDone (r cell slot : Nat) (s : State) : Res :=
  run s fun w =>
    let e : ERef := ⟨r, cell, slot⟩
    let x := w.elem e
    let g := w.region r
    let d := g.doneLine cell
    w.guard (w.onEdge (w.region r) cell && x.done && x.lastSeen && w.leafDone r (d - 1) && w.canPulse r d) fun w =>
      let w := w.setElem e fun x => { x with lastSeen := false }
      let w := w.setRegion r fun g => { g with leafBusy := tdel g.leafBusy (d - 1) }
      let cov := (g.leafCells (d - 1)).foldl (fun (c : Cov) k => c.join (w.releases (w.eyeOf (.elem r k 0)) 2)) {}
      w.pulse r d x.leafRef (w.elemAgent e) cov

/-- RESULT_LAND (R18, R19): a result reaches its targets, or a marked producer's reconfiguration token its target. -/
def execResultLand (r cell slot : Nat) (s : State) : Res :=
  run s fun w =>
    let e : ERef := ⟨r, cell, slot⟩
    let w' := w.resultLand e
    let x := w.elem e
    let x' := w'.elem e
    -- the landing of an answer ends an RNGP's wait for it, with a pennant (R249)
    let w' := match x.opc == 0xA5 && decide (x'.flights.length < x.flights.length), x.dryAt, x.flights with
      | true, some (_, t0), f :: _ =>
        let g := w.region r
        let q := siteQuad g cell
        let pref := match f.a.bind (·.rel) with | some k => k.ref | none => 0
        let (w', ref) := w'.pennant q g.part {
          waiter := w.elemAgent e, producer := w.rangeAgent, pref := pref, start := t0, arrival := w.ns, stop := w.ns, kind := 0x0B, step := w.stepOf q }
        (w'.setElem e fun x => { x with dryAt := none }).leafPennant e ref
      | _, _, _ => w'
    -- an RNGP whose output stage has become empty with a pull outstanding (R249)
    if x.opc = 0xA5 ∧ x'.flights.length < x.flights.length ∧ 0 < x'.pulls ∧ ¬ x'.flights.any (·.req.isNone) then
      w'.setElem e fun x => { x with dryAt := some (w.edgeOf (w.region r) cell, w.ns) }
    else w'

/-- HALYARD_PULSE_DELIVER (R23): the pulse that a line's driver holds reaches every listener, when every one of them can take it; the root's DONE
on h1 retires the sequencer's oldest START run (R273). -/
def execHalyardPulseDeliver (r line : Nat) (s : State) : Res :=
  run s fun w =>
    let g := w.region r
    let l := w.line r line
    match l.held with
    | p :: rest =>
      w.guard (g.runsAt w.now && !w.stopDue g && !(w.part g.part).halted && w.pulseLands g p && l.listeners.all fun k => (tget l.pend k).isNone) fun w =>
        let p' := { p with landed := w.now, landedNs := w.ns }
        let pend := l.listeners.foldl (fun t k => tput t k p') l.pend
        let w := w.setLine r line fun l => { l with held := rest, pend := pend }
        let w := l.listeners.foldl (fun w k => if k = seqListener then w else w.wakeAt r (k / 8)) w
        if line ≠ 1 then w
        else
          let quad := regionQuad g 0
          let w := w.setRegion r fun g => { g with rootDone := true }
          match (w.seq quad).outs.find? fun o => o.cls == .tiles && o.reg == 0 && !o.done with
          | some o => w.setSeq quad fun q => q.finish o.id p.agent p.ref w.ns p.cov
          | none => w
    | [] => w

end Sys2Proof.Machine
end

