-- ==== Sys2Proof/Machine/Check.lean ====
section
/-! DEFINITION. Sys2Proof/Machine/Check.lean: what the loader checks of an image, in its order (09_encoding.md R153, 20_configuration_image.md R309,
and the chapters' own lists R157, R177, R222, R252). -/

namespace Sys2Proof.Machine

/-- A load failure: the condition of R153, the unit (0 VC, 1 MX, 2 MC, 3 AG, 4 FC, 5 SW, 6 SQ, 7 EN), and the frame's index. -/
structure LoadFail where
  cond  : Nat
  unit  : Nat
  frame : Nat
deriving DecidableEq, Repr

/-- The frame index of a failure of the image as a whole. -/
def wholeIndex : Nat := 0xFFFFFFFF
/-- The cause code: class ENCODE. -/
def LoadFail.code (f : LoadFail) : Nat := 0x080 + 16 * f.unit + f.cond

/-- The unit of the lowest-numbered of some elements, EN when there is none (R153). -/
def unitOf : List Nat → Nat
  | [] => 7
  | k :: t =>
    let m := t.foldl min k
    if 6 ≤ m % 8 then 5 else siteKind (m / 8)

/-! ## Frame by frame -/

/-- Lines of a region (R23). -/
def lineCount (qw qh : Nat) : Nat := 256 * qw * qh
def siteOk (qw qh cell : Nat) : Bool := decide (cell < 128 * 80 ∧ siteX cell < 16 * qw ∧ siteY cell < 16 * qh)

/-- A halyard target of a controller word (R27). -/
def lineTarget (t : BitVec 20) : Option Nat :=
  match Target.ofBits t with
  | some g => if g.pos = 3 ∧ g.port = 0 then some g.cell else none
  | none => none

/-- The targets of a word, as far as the word alone shows (R145, R27); the parity of controllers' lines is a matter of the graph. -/
def wordTargetsOk (qw qh opc : Nat) (i : Instr) (f : EFields) : Bool :=
  let n := lineCount qw qh
  if 0xB0 ≤ opc then
    match lineTarget f.ta, lineTarget f.tb with
    | some d, b =>
      decide (d < n) && (if opc = 0xB4 then f.tb == 0 else match b with
        | some b => decide (b + (if opc = 0xB3 then f.imm.toNat else 2 * (f.mod.toNat + 1)) ≤ n)
        | none => false)
    | none, _ => false
  else
    targetsOk i && [f.ta, f.tb].all fun t => match Target.ofBits t with
      | some g => if g.pos = 3 then decide (g.cell < n) else siteOk qw qh g.cell
      | none => true

/-- The check of an element, switch or controller word in a slot of a kind: opcode, acceptance, fields, targets, in that order. DESIGN CHOICE: a word with OPC 0x00 and
other bits, which R144 rejects without a condition, is condition 0 (log 95). -/
def wordCond (qw qh kind : Nat) (w : W64) : Option Nat :=
  let opc := field w 63 56
  let f := elemFields w
  if w = 0 then none
  else match rawElem opc f with
    | none => some 0
    | some i =>
      if !acceptsKind opc kind then some 3
      else if !fieldsOk i then some 1
      else if !wordTargetsOk qw qh opc i f then some 6 else none

/-- The first failure of a list. -/
def firstCond (l : List (Option Nat)) : Option Nat := l.findSome? id

/-- The check of frame 3 of a cell of a kind (R138, R139, R211): reserved values and limits, then alignments. -/
def frame3Cond (n kind : Nat) (b : BitVec 192) : Option Nat :=
  let f (hi lo : Nat) : Nat := field b hi lo
  let ctl (s : Nat) : Nat := f (8 * s + 7) (8 * s)
  let slots := List.range 6
  let done := slots.any fun s => (ctl s).testBit 2
  let common := slots.all (fun s => ctl s % 4 != 3 && ctl s / 16 == 0 && (kind != 1 || ctl s % 4 != 2)) && f 63 62 == 0 &&
    (done || f 61 48 == 0) && decide (f 61 48 < n)
  let own : Bool := match kind with
    | 0 => f 191 64 == 0
    | 1 =>
      let sp := f 89 72
      f 71 70 == 0 && f 191 90 == 0 && decide (f 69 67 ≤ 5) && (sp == 0 || f 65 64 == 1) && decide (sp + 0x4000 ≤ 0x40000)
    | 2 =>
      let cap := f 93 82
      f 191 118 == 0 && (decide (f 105 94 = 0) == decide (cap = 0)) && decide (f 117 106 ≤ cap) && decide (f 81 64 + 64 * cap ≤ 0x40000)
    | 3 => f 191 79 == 0 && (f 78 78 == 1 || f 77 64 == 0) && decide (f 77 64 < n)
    | _ => f 191 102 == 0
  let aligned : Bool := match kind with
    | 1 => f 89 72 % 64 == 0
    | 2 => f 81 64 % 64 == 0
    | 4 => f 81 64 % 2048 == 0 && f 99 82 % 2048 == 0
    | _ => true
  if !common || !own then some 1 else if !aligned then some 2 else none

/-- The check of a counter chain (R140). -/
def frame4Cond (b : BitVec 192) : Option Nat :=
  if (List.range 4).all fun c =>
    let d := field b (48 * c + 47) (48 * c)
    d % 64 == 0 && (!d.testBit 7 || natBits d 15 8 != 0) && (c != 0 || !d.testBit 6)
  then none else some 1

/-- The check of a sequencer word (R150). -/
def seqCond (w : W32) : Option Nat :=
  match decodeSeq w with
  | .ok _ => none
  | .error (.reservedOpcode _) => some 0
  | .error _ => some 1

/-- The header of a frame is valid, given the frames before it (R134 to R136, R141, R142); a section holds no code and no bank bytes (R308). -/
def headerOk (qw qh : Nat) (sec : Bool) (before : List Frame) (f : Frame) : Bool :=
  let place : Bool :=
    if f.kind = 7 then decide (f.codeQuad < qw * qh ∧ f.cell % 1024 ≤ 682 ∧ f.fnum = 0)
    else siteOk qw qh f.cell && decide (f.fnum ≤ (if f.kind ≤ 4 then 4 else if f.kind = 8 then 0 else 1)) && (decide (4 < f.kind) || siteKind f.cell == f.kind)
  place && !(sec && decide (7 ≤ f.kind)) && (f.kind == 8 || !before.any fun g => f.replaces g)

/-- The check of one frame by itself: CRC, header, then its words in slot order. -/
def frameCond (qw qh : Nat) (sec : Bool) (before : List Frame) (f : Frame) : Option Nat :=
  let n := lineCount qw qh
  if !f.crcOk then some 4
  else if 8 < f.kind ∨ f.lver ≠ 1 then some 1
  else if !headerOk qw qh sec before f then some 5
  else match f.kind with
    | 5 => if field f.body 191 96 ≠ 0 then some 1 else wordCond qw qh 5 (f.word 0)
    | 6 => if field f.body 191 96 ≠ 0 then some 1 else wordCond qw qh 6 (f.word 0)
    | 7 => if f.cell % 1024 = 682 ∧ field f.body 191 128 ≠ 0 then some 1 else firstCond (f.codeWords.map seqCond)
    | 8 =>
      let off := field f.body 191 160
      let count := field f.body 159 128
      if off ≥ 0x40000 ∨ count = 0 ∨ 16 < count ∨ natBits f.body.toNat 127 0 / 2 ^ (8 * count) ≠ 0 then some 1
      else if off % 16 ≠ 0 then some 2 else none
    | kind =>
      match f.fnum with
      | 2 => none
      | 3 => frame3Cond n kind f.body
      | 4 => frame4Cond f.body
      | _ => firstCond ((List.range 3).map fun j =>
          let opc := field (f.word j) 63 56
          let twice := kind == 1 && decide (0x70 ≤ opc) && (List.range j).any fun i => field (f.word i) 63 56 == opc
          match wordCond qw qh kind (f.word j) with
          | some 0 => some 0
          | c => if twice then some 3 else c)

/-- The first frame that fails by itself. DESIGN CHOICE: a frame of KIND 9 to 15, which names no kind, is reported by unit EN (log 97). -/
def framesFail (qw qh : Nat) (sec : Bool) : List Frame → List (Nat × Frame) → Option LoadFail
  | _, [] => none
  | before, (i, f) :: t =>
    match frameCond qw qh sec before f with
    | some c => some { cond := c, unit := if f.kind ≤ 8 then f.unit else 7, frame := i }
    | none => framesFail qw qh sec (f :: before) t

/-! ## Checks that consult another frame (R145, R149, R177, R205, R222, R252) -/

def slotCond (l : Layout) (k : Nat) : Option Nat :=
  let o := l.opc k
  let c := k / 8
  let f := l.fields k
  let mx := decide (0x70 ≤ o ∧ o ≤ 0x78 ∧ k % 8 < 6)
  let n := (l.const k).toNat
  if mx && (l.slotsOf c o).any fun x => decide (x < k) then some 3
  else if (o == 0x48 && l.control k % 4 != 0) || (mx && o != 0x70 && o != 0x72 && decide (l.rows c ≤ f.imm.toNat)) ||
      ((o == 0x75 || o == 0x78) && !decide (1 ≤ n ∧ n + f.imm.toNat ≤ l.rows c)) then some 1
  else if (l.targets k).any fun x =>
      let t := l.opc (Layout.slot x.2)
      !usesPos t x.2.pos || (o == 0x8B && t != 0x8C) then some 6
  else none

/-- The first frame, in order, with a word that fails against the layout of all the frames. -/
def crossFail (l : Layout) (fs : List (Nat × Frame)) : Option LoadFail :=
  fs.findSome? fun x => (firstCond (x.2.slots.map fun s => if s.2 = 0 then none else slotCond l s.1)).map fun c =>
    { cond := c, unit := x.2.unit, frame := x.1 }

/-! ## The image as a whole -/

/-- What the whole-image checks read: the layout, dimensions, the intervals of this configuration, the sections' numbers, the rate. -/
structure Whole where
  qw : Nat
  qh : Nat
  g  : Graph
  rate : Nat
  secs : List Nat
  /-- the section that gives this configuration, with the slots it rewrites -/
  own : Option (Nat × List Nat) := none
  /-- the slots whose RCFG words before the section name that section (R313) -/
  was : List Nat := []
  /-- faulty interval entries: the element each names, if any -/
  bad : List (Option Nat) := []

namespace Whole

def firstUnit (ks : List Nat) (p : Nat → Bool) : Option Nat := (ks.find? p).map fun k => unitOf [k]

/-- An opcode whose MOD is read as RND (R148). -/
def roundsMod (o : Nat) : Bool := (0x20 ≤ o && o ≤ 0x25) || (0x2C ≤ o && o ≤ 0x35) || [0x43, 0x46, 0x50, 0x51, 0x52].contains o
/-- A slot that keeps state between records and may not be marked clonable (R336). -/
def keepsState (l : Layout) (k : Nat) : Bool :=
  let o := l.opc k
  (roundsMod o && (l.fields k).mod == 5) || [0x62, 0x64, 0x65, 0x5A, 0x49, 0x89, 0x8A, 0xA0, 0xA5, 0xA6, 0x91].contains o ||
  decide (0x70 ≤ o ∧ o ≤ 0x78) || decide (0xB0 ≤ o)

/-- Condition 9: inconsistency across words or frames. -/
def cond9 (x : Whole) : Option Nat :=
  let l := x.g.l
  firstUnit l.keys fun k =>
    let o := l.opc k
    let c := k / 8
    let f := l.fields k
    let mldb := (l.slotsOf c 0x70).map fun k => (l.fields k).fmt.toNat
    let other := (l.slotsOf c (0x70 + (0x71 - o))).map fun k => (l.fields k).fmt.toNat
    let bank := (l.const k).toNat / 64 * 64
    ((l.control k).testBit 3 && keepsState l k) ||
    ((o == 0x70 || o == 0x71) && (other.any (fun m => m != f.fmt.toNat) || (f.fmt == 8) != l.afmt c)) ||
    (o == 0x71 && ((f.mod.getLsbD 2 && l.afmt c) || (l.scaled c && f.fmt != 3))) ||
    (o == 0x72 && !mldb.any (fun m => [3, 5].contains m)) ||
    (o == 0x73 && (f.fmt == 6) != l.afmt c) ||
    (o == 0x77 && !l.afmt c) ||
    (o == 0xA0 && (l.counterChain c f.imm.toNat || (l.slotsOf c 0xA0).any fun j => j != k && (l.fields j).imm == f.imm)) ||
    ((o == 0x82 || o == 0x83) && !l.names k 0 && decide (l.qbase c ≤ bank ∧ bank < l.qbase c + 64 * l.qcap c))

/-- Condition 10: a missing referent. -/
def cond10 (x : Whole) : Option Nat :=
  let l := x.g.l
  let word := firstUnit l.keys fun k =>
    let o := l.opc k
    let c := k / 8
    let f := l.fields k
    (o == 0xA0 && !l.counterEn c f.imm.toNat) || (o == 0x71 && (l.slotsOf c 0x70).isEmpty) ||
    (o == 0x50 && !(l.cell3 c).getLsbD (100 + f.imm.toNat % 2)) || ((o == 0x89 || o == 0x8A) && l.qcap c == 0) ||
    (o == 0xB4 && !x.secs.contains f.imm.toNat)
  let chain := firstUnit (l.f4.map fun c => 8 * c.1) fun k => [1, 2, 3].any fun i => l.counterChain (k / 8) i && !l.counterEn (k / 8) (i - 1)
  let heads := firstUnit (l.f3.map fun c => 8 * c.1) fun k => l.head (k / 8) && (l.slotsOf (k / 8) 0xA0).isEmpty
  let code := l.code.findSome? fun q => q.2.findSome? fun w => match decodeSeq w.2 with
    | .ok (.reconf i) => if x.secs.contains i.toNat then none else some 6
    | _ => none
  word <|> chain <|> heads <|> code

/-- Who drives each halyard line, and who listens (R20, R23, R24, R27, R29, R138, R139, R301); 0 is driven by START. -/
def lineDrivers (l : Layout) : List (Nat × Nat) :=
  (l.keys.flatMap fun k =>
    let o := l.opc k
    let f := l.fields k
    (l.lineTargets k).map (·, k) ++
    (if 0xB0 ≤ o then [((lineTarget f.ta).getD 0, k)] else []) ++
    (if 0xB0 ≤ o ∧ o ≤ 0xB2 then (List.range (f.mod.toNat + 1)).map fun i => ((lineTarget f.tb).getD 0 + 2 * i, k) else [])) ++
  (l.f3.flatMap fun c => ((List.range 6).filter fun s => (l.control (ekey c.1 s)).testBit 2).map fun s => (l.doneLine c.1, ekey c.1 s))

/-- Lines that a controller listens on. -/
def nodeListens (l : Layout) : List (Nat × Nat) :=
  l.keys.flatMap fun k =>
    let o := l.opc k
    let f := l.fields k
    let d := (lineTarget f.ta).getD 0
    let b := (lineTarget f.tb).getD 0
    if o < 0xB0 then []
    else if o = 0xB3 then (List.range f.imm.toNat).map fun i => (b + i, k)
    else (d - 1, k) :: (if o = 0xB4 then [] else (List.range (f.mod.toNat + 1)).map fun i => (b + 2 * i + 1, k))

/-- Lines that head AGs listen on. -/
def headListens (l : Layout) : List (Nat × Nat) := (l.f3.filter fun c => l.head c.1).map fun c => (l.startLine c.1, ekey c.1 0)

/-- A key's level in the controller tree, the root's being 1, up to a bound. -/
def level (l : Layout) : Nat → Nat → Nat
  | 0, _ => 1
  | fuel + 1, k =>
    let line := (lineTarget (l.fields k).ta).getD 0 - 1
    match l.keys.find? fun p => decide (0xB0 ≤ l.opc p ∧ l.opc p ≤ 0xB2) &&
        (List.range ((l.fields p).mod.toNat + 1)).any fun i => (lineTarget (l.fields p).tb).getD 0 + 2 * i == line with
    | some p => 1 + level l fuel p
    | none => 1

/-- What is left of a graph when elements that nothing left feeds are taken away again and again: empty when it is acyclic (R32). -/
def cyclic (es : List (Nat × Nat)) : Nat → List Nat → List Nat
  | 0, ks => ks
  | n + 1, ks =>
    let ks' := ks.filter fun k => es.any fun e => e.2 == k && ks.contains e.1
    if ks'.length = ks.length then ks else cyclic es n ks'
/-- Of some elements those that lie on a cycle themselves. -/
def onCycle (es : List (Nat × Nat)) (ks : List Nat) : List Nat :=
  ks.filter fun k => (reachFrom es ((es.filter fun e => e.1 == k).map (·.2))).contains k

/-- The pairs of a list that share a first component. -/
def clash (l : List (Nat × Nat)) : Option (List Nat) :=
  l.findSome? fun x =>
    let same := l.filter fun y => y.1 == x.1
    if 1 < same.length then some (same.map (·.2)) else none

/-- Condition 7: the structure of the graph. -/
def cond7 (x : Whole) : Option Nat :=
  let l := x.g.l
  let cells := l.f3.map (·.1)
  let drivers := lineDrivers l
  let nodes := nodeListens l
  let heads := headListens l
  let doneCells := firstUnit (cells.map (8 * ·)) fun k =>
    decide (1 < ((List.range 6).filter fun s => (l.control (k + s)).testBit 2).length)
  let queues := firstUnit (cells.map (8 * ·)) fun k => siteKind (k / 8) == 2 && decide (l.qcap (k / 8) < l.qmax (k / 8))
  let twoDrivers := (clash (l.links.map fun t => (4 * Layout.slot t.2.2 + t.2.2.pos, t.1))).map unitOf
  let twoLines := (clash (drivers.map fun d => d)).map unitOf <|>
    ((drivers.filter fun d => d.1 == 0).head?).map fun d => unitOf [d.2]
  let parity := firstUnit l.keys (fun k =>
      let o := l.opc k
      let f := l.fields k
      decide (0xB0 ≤ o) && ((lineTarget f.ta).getD 0 % 2 == 0 || (decide (o ≤ 0xB2) && (lineTarget f.tb).getD 0 % 2 == 1))) <|>
    firstUnit (cells.map (8 * ·)) fun k =>
      let c := k / 8
      ((List.range 6).any (fun s => (l.control (k + s)).testBit 2) && l.doneLine c % 2 == 0) || (l.head c && l.startLine c % 2 == 1)
  let listeners := ((nodes ++ heads).map (·.1)).eraseDups.findSome? fun n =>
    let ks := ((nodes ++ heads).filter fun y => y.1 == n).map (·.2)
    if 16 < ks.length then some (unitOf ks) else none
  let deep := firstUnit l.keys fun k => decide (0xB0 ≤ l.opc k ∧ l.opc k ≤ 0xB2) && decide (16 < level l 17 k)
  let cycles := match cyclic l.edges (l.keys.length + 1) l.keys with
    | [] => none
    | ks => some (unitOf (onCycle l.edges ks))
  -- R26
  let undriven := (nodes.filter fun y => l.opc y.2 != 0xB4 && y.1 != 0 && !drivers.any fun d => d.1 == y.1).head?.map fun y => unitOf [y.2]
  let dones := cells.findSome? fun c => (List.range 6).findSome? fun s =>
    if !(l.control (ekey c s)).testBit 2 then none
    else
      let hs := (heads.filter fun h => h.1 + 1 == l.doneLine c).map (·.2)
      match hs with
      | [] => some (unitOf [ekey c s])
      | h :: t =>
        match (l.slotsOf ((t.foldl min h) / 8) 0xA0).head? with
        | some k => if (reachFrom l.allEdges [k]).contains (ekey c s) then none else some (unitOf [ekey c s])
        | none => some (unitOf [ekey c s])
  -- R216, R225, R246, R250, R252
  let unnamed := firstUnit l.keys fun k =>
    let o := l.opc k
    (((decide (0x70 ≤ o ∧ o ≤ 0x78) && decide (k % 8 < 6)) || [0x80, 0x81, 0x84, 0x85, 0x86, 0x87, 0x88, 0x8D, 0x90, 0x91, 0xA6].contains o) && !l.names k 0) ||
    ([0x89, 0x8A, 0x8E].contains o && (l.slotsOf (k / 8) o).any fun j => decide (j < k)) ||
    (o == 0xA0 && !l.head (k / 8) && !l.names k 2)
  let own := match x.own with
    | some (s, ks) => firstUnit ks fun k => x.was.contains k || (l.opc k == 0xB4 && (l.fields k).imm.toNat == s)
    | none => none
  doneCells <|> queues <|> twoDrivers <|> twoLines <|> parity <|> listeners <|> deep <|> cycles <|> undriven <|> dones <|> unnamed <|> own

/-- An element that must carry a rate interval (R106, R177, R220, R221, R252). -/
def needsInt (l : Layout) (k : Nat) : Bool :=
  let o := l.opc k
  [0x49, 0x59, 0x5A, 0x75, 0x76, 0xA6, 0xA7].contains o || (o == 0xA0 && l.names k 0) ||
  (o == 0x62 && (reachFrom l.allEdges ((l.allEdges.filter fun e => e.1 == k).map (·.2))).contains k)

/-- Condition 8: the rate declaration, the intervals, of which every recirculation loop carries one at its CARRY (R106), and the balance equations. -/
def cond8 (x : Whole) : Option Nat :=
  let l := x.g.l
  let declared := if x.rate = 0 ∨ l.word x.g.sink = 0 ∨ 0xB0 ≤ l.opc x.g.sink then some 7 else none
  let bad := x.bad.head?.map fun k => match k with | some k => if l.word k = 0 then 7 else unitOf [k] | none => 7
  let missing := firstUnit l.keys fun k => needsInt l k && !x.g.ints.any fun y => y.1 == k
  let extra := x.g.ints.findSome? fun y => if l.word y.1 = 0 then some 7 else if needsInt l y.1 then none else some (unitOf [y.1])
  let uncarried := x.g.loops.findSome? fun a => if a.carries.isEmpty then some (unitOf a.set) else none
  let balance := match x.g.repetition with
    | .ok _ => none
    | .error k => some (unitOf [k])
  declared <|> bad <|> missing <|> extra <|> uncarried <|> balance

/-- The whole-image checks in their order: consistency, references, graph structure, rate and balance. -/
def fail (x : Whole) : Option LoadFail :=
  let at' (c : Nat) (u : Option Nat) : Option LoadFail := u.map fun u => { cond := c, unit := u, frame := wholeIndex }
  at' 9 x.cond9 <|> at' 10 x.cond10 <|> at' 7 x.cond7 <|> at' 8 x.cond8

end Whole

/-! ## Sections (R312) -/

/-- The slots that differ between two layouts, so that going from one to the other rewrites them (R312). -/
def rewritten (a b : Layout) : List Nat :=
  let whole (c : Nat) : Bool := (a.cell3 c).extractLsb' 64 128 != (b.cell3 c).extractLsb' 64 128 || a.cell4 c != b.cell4 c
  ((a.keys ++ b.keys).eraseDups).filter fun k =>
    a.word k != b.word k || a.const k != b.const k || a.control k != b.control k || (whole (k / 8) && decide (k % 8 < 6))

/-- A list of frames with the frames of a later list in place of those that they replace. -/
def applyFrames (main later : List Frame) : List Frame := (main.filter fun f => f.kind == 8 || !later.any fun g => g.replaces f) ++ later

/-- The intervals of a configuration after a section: the section's own, and of the slots that it does not rewrite the ones before. -/
def applyInts (old : List (Nat × Nat × Nat)) (ks : List Nat) (own : List (Nat × Nat × Nat)) : List (Nat × Nat × Nat) :=
  (old.filter fun x => !ks.contains x.1 && !own.any fun y => y.1 == x.1) ++ own

end Sys2Proof.Machine
end

