-- ==== Sys2Proof/Machine/SeqOps.lean ====
section
/-! DEFINITION. Sys2Proof/Machine/SeqOps.lean: what the sequencer's instructions share: stalls on awaited registers, completing an instruction,
waits and their pennants, effective addresses, scratch, and issuing a memory access (14_sequencer.md R253 to R257, R283). -/

namespace Sys2Proof.Machine

/-- A register that the instruction reads awaits a load, or the result of a multi-cycle operation (R255). -/
def Seq.stalls (sq : Seq) (rs : List (BitVec 5)) : Bool :=
  rs.any fun r => r != 0 && ((tget sq.regAt r.toNat).isSome || (tget sq.readyAt r.toNat).isSome)
/-- s[r] ← v by an instruction: a load or a multi-cycle operation that the register awaited no longer writes it, as it is earlier in program order. -/
def Seq.put (sq : Seq) (r : BitVec 5) (v : W64) : Seq := { sq.setReg r v with regAt := tdel sq.regAt r.toNat, readyAt := tdel sq.readyAt r.toNat }
/-- The same by a multi-cycle operation: the result can be read from a grid cycle on (R255). -/
def Seq.putLate (sq : Seq) (r : BitVec 5) (v : W64) (at' : Nat) : Seq :=
  if r = 0 then sq else { sq.put r v with readyAt := tput sq.readyAt r.toNat at' }
/-- The grid cycle on which the n-th sequencer cycle after this one begins. -/
def W.seqCycle (w : W) (n : Nat) : Nat := 4 * (w.now / 4 + n)

/-- The instruction has issued and completed: its effect on the sequencer, the pc's advance, no wait, and the next issue on the next sequencer cycle (R255). -/
def W.seqDone (w : W) (q : Nat) (f : Seq → Seq) : W :=
  (w.pmc q 13 1).setSeq q fun sq => { (f sq).next with wait := none, nextAt := w.seqCycle 1 }
/-- The same for an instruction that sets the pc itself. -/
def W.seqJump (w : W) (q : Nat) (f : Seq → Seq) : W :=
  (w.pmc q 13 1).setSeq q fun sq => { f sq with wait := none, nextAt := w.seqCycle 1 }

/-- An instruction of the sequencer alone: it stalls on the registers it reads, and otherwise issues. -/
def seqPlain (rs : List (BitVec 5)) (f : Seq → Seq) (s : State) : Res :=
  runSeq s fun q sq w => if sq.stalls rs then w else w.seqDone q f
/-- A register operation of two registers whose result can be read n sequencer cycles later (R255). -/
def seqMulti (n : Nat) (d a b : BitVec 5) (f : W64 → W64 → W64) (s : State) : Res :=
  runSeq s fun q sq w => if sq.stalls [a, b] then w else w.seqDone q fun sq => sq.putLate d (f (sq.reg a) (sq.reg b)) (w.seqCycle n)
/-- A register operation of two registers, and of one. -/
def seqAlu (d a b : BitVec 5) (f : W64 → W64 → W64) (s : State) : Res :=
  seqPlain [a, b] (fun sq => sq.put d (f (sq.reg a) (sq.reg b))) s
def seqAluI (d a : BitVec 5) (f : W64 → W64) (s : State) : Res := seqPlain [a] (fun sq => sq.put d (f (sq.reg a))) s

/-! ## Waits (R283) -/

/-- The sequencer is held by its instruction: its wait starts now, unless it has started, and lasts one sequencer cycle or more (R283). -/
def W.seqHold (w : W) (q : Nat) (x : SeqWait) : W :=
  w.setSeq q fun sq => match sq.wait with
    | some _ => sq
    | none => { sq with wait := some { x with start := w.ns }, nextAt := w.seqCycle 1 }
/-- The sequencer's pennant, whose reference becomes its latest (R283, R92). -/
def W.seqPennant (w : W) (q kind producer : Nat) (pref : W32) (start arrival : Nat) : W × W32 :=
  let sq := w.seq q
  let (w, ref) := w.pennant q sq.part {
    waiter := w.seqAgent q, producer := producer, pref := pref, start := start, arrival := arrival, stop := w.ns, kind := kind, step := w.stepOf q }
  (w.setSeq q fun sq => { sq with latest := ref, pennAt := w.now / 4 + 1 }, ref)
/-- The pennant of a wait that has ended, as the wait records its event. -/
def W.endWait (w : W) (q kind : Nat) (x : SeqWait) : W := (w.seqPennant q kind x.agent x.ref x.start x.arr).1

/-! ## Outstanding operations (R254) -/

/-- A class has 64 operations outstanding: an instruction that would issue another waits. -/
def Seq.full (sq : Seq) (c : Cls) : Bool := decide (64 ≤ sq.count c)
def Seq.add (sq : Seq) (id : Nat) (c : Cls) (reg : Nat) : Seq := { sq with outs := sq.outs ++ [{ id := id, cls := c, reg := reg }] }
/-- A register awaits an operation's value. -/
def Seq.await (sq : Seq) (r : BitVec 5) (id : Nat) : Seq := if r = 0 then sq else { sq with regAt := tput sq.regAt r.toNat id }
/-- The value of an operation comes: to its register, if that still awaits it. -/
def Seq.arrive (sq : Seq) (reg id : Nat) (v : W64) : Seq :=
  if tget sq.regAt reg = some id then { sq with regs := tput sq.regs reg v, regAt := tdel sq.regAt reg } else sq

/-! ## Addresses and scratch (R257, R70) -/

/-- Offset of a scratch address. -/
def scratchOff (va : W64) : Nat := va.toNat - scratchBase
/-- A span of scratch at an address, aligned: its offset. -/
def scratchSpan (va : W64) (align len : Nat) : Option Nat :=
  if inScratch va ∧ va.toNat % align = 0 ∧ scratchOff va + len ≤ 0x4000 then some (scratchOff va) else none
def Seq.scratchBytes (sq : Seq) (off n : Nat) : List Byte := memBytes sq.scratch off n
def Seq.scratchPut (sq : Seq) (off : Nat) (bs : List Byte) : Seq := { sq with scratch := memPut sq.scratch off bs }
/-- Little-endian fields of the bytes at a scratch offset. -/
def Seq.scratchNat (sq : Seq) (off n : Nat) : Nat := leNat (sq.scratchBytes off n)

/-- The code that an effective address faults with: 0x160 misaligned, 0x161 bits above the address space (R257). -/
def eaFault (ea : W64) (size : Nat) : Option Nat :=
  if ea.toNat % size ≠ 0 then some 0x160
  else if inScratch ea then none
  else if ea.toNat / 2 ^ 56 ≠ 0 then some 0x161 else none

/-- The sequencer issues a global access (R257): a translation that no TLB holds stalls it at the access, a refused one faults, and otherwise
the request is sent and `f` says what the sequencer keeps of it. -/
def W.seqAccess (w : W) (q : Nat) (d : BitVec 5) (ea : W64) (len : Nat) (a : Access) (t : Touch) (ok : List Leaf → Option Nat) (r : Req)
    (f : Nat → W → W) : W :=
  let sq := w.seq q
  let src : Src := .seq q d.toNat
  match w.placed src sq.part ea len a t 0xE with
  | (w, .error .miss) => w
  | (w, .error x) => w.raiseSeq q (xlateCode 0xE x) ea
  | (w, .ok (ls, ps, ts)) =>
    match ok ls with
    | some c => w.raiseSeq q c ea
    | none =>
      let (w, id) := w.issue { r with
        die := q / 40, part := sq.part, src := src, va := ea, size := len, pieces := ps, xlate := ts, place := (ls.map (·.place)).headD 0, ref := sq.latest }
      f id w

end Sys2Proof.Machine
end

