-- ==== Sys2Proof/Machine/SeqWait.lean ====
section
/-! DEFINITION. Sys2Proof/Machine/SeqWait.lean: waiting for outstanding work: WAITC, the tag instructions and SLEEP (14_sequencer.md R262, R263,
R265). -/

namespace Sys2Proof.Machine

/-- What an ending wait acquires of the retired operations is acquired once: a WAITC's all of them, a WDONE's (runs) the START runs. -/
def Seq.dropRet (sq : Seq) (runs : Bool) : Seq :=
  { sq with ret := if runs && sq.ret != sq.retRun then sq.ret else none, retRun := none, got := if runs then sq.got else {}, gotRun := {} }
/-- An acquire that did not hold the sequencer takes the reference that came last with the operations it acquires (R92, R262, R273). -/
def Seq.takeRet (sq : Seq) (runs : Bool) : Seq :=
  { sq.dropRet runs with latest := match if runs then sq.retRun else sq.ret with | some (_, r, _) => newer sq.latest r | none => sq.latest }

/-- What the retired operations that it acquires released is before what it does next (R25, R102). -/
def W.gainRet (w : W) (q : Nat) (runs : Bool) : W := w.gain (w.seqEye q) (if runs then (w.seq q).gotRun else (w.seq q).got)

/-- A wait on counts (WAITC, WDONE): it ends when its counts allow, with a pennant if it held the sequencer (R262, R273, R283). -/
def countWait (kind : Nat) (x : SeqWait) (q : Nat) (sq : Seq) (w : W) : W :=
  match sq.wait with
  | some y =>
    if !y.met sq then w
    else (((w.gainRet q x.runs).endWait q kind y).setSeq q fun sq => sq.dropRet x.runs).seqDone q id
  | none => if x.met sq then ((w.gainRet q x.runs).setSeq q fun sq => sq.takeRet x.runs).seqDone q id else w.seqHold q x

/-- WAITC: at most so many operations of each class stay outstanding. -/
def execWaitc (l st c t : BitVec 5) (s : State) : Res :=
  runSeq s fun q sq w => countWait 0x01 { limits := [l.toNat, st.toNat, c.toNat, t.toNat] } q sq w

/-! ## Tags (R263) -/

/-- Index of the lowest set bit, 64 for none. -/
def lowestBit (m : W64) : Nat := ((List.range 64).find? fun i => m.getLsbD i).getD 64

/-- What a tag wait waits for: some tag of the mask (WANY), or all of them (WALL). -/
def tagMet (all : Bool) (tags m : W64) : Bool := if all then tags &&& m == m else tags &&& m != 0

/-- A completion sets its tag: the agent and reference with which it was set, those of the first when the bit stands (R103), and whether it ends the wait
that holds the sequencer. A wait's stage is 1 for WANY and 2 for WALL, its number the mask. The completions of one sequencer cycle, `c`, are kept for a TCLR, CSRW
or CSRS of that cycle. -/
def Seq.setTag (sq : Seq) (c t : Nat) (o : Out) : Seq :=
  let first := if sq.tags.getLsbD t && (tget sq.tagBy t).isSome then sq.tagBy else tput sq.tagBy t o
  let now := if sq.tagsAt.1 = c + 1 then sq.tagsAt.2 else []
  let sq := { sq with
    tags := sq.tags ||| (1#64 <<< t), tagBy := first, tagsAt := (c + 1, if (tget now t).isSome then now else tput now t o) }
  { sq with wait := sq.wait.map fun x =>
      if !x.ready && decide (x.stage = 1 ∨ x.stage = 2) && tagMet (x.stage == 2) sq.tags x.num then
        { x with ready := true, agent := o.agent, ref := o.ref, arr := o.doneNs }
      else x }

/-- SQ_TAGS takes a value by TCLR, CSRW or CSRS in sequencer cycle c: tags that completions set in that cycle are set after it (R263). -/
def Seq.writeTags (sq : Seq) (c : Nat) (v : W64) : Seq :=
  let now := if sq.tagsAt.1 = c + 1 then sq.tagsAt.2 else []
  { sq with
    tags := now.foldl (fun v x => v ||| (1#64 <<< x.1)) v
    tagBy := now.foldl (fun t x => tput t x.1 x.2) (sq.tagBy.filter fun x => v.getLsbD x.1) }

/-- The reference of the completion that set a tag (R102). -/
def Seq.tagRef (sq : Seq) (t : Nat) : W32 := match tget sq.tagBy t with | some o => o.ref | none => 0
/-- What returning the tags of a mask obtains: of several, the reference of the completion that came last, and of equal times that of the highest tag
(log 78). -/
def Seq.tagsRef (sq : Seq) (m : W64) : W32 :=
  (sq.tagBy.foldl (fun (b : Nat × W32) x => if m.getLsbD x.1 && sq.tags.getLsbD x.1 && x.2.ref != 0 && decide (b.1 ≤ x.2.doneNs) then (x.2.doneNs, x.2.ref)
    else b) (0, 0)).2

/-- What returning the tags of a mask acquires: the payloads of the copies that set them (R102). -/
def Seq.tagsCov (sq : Seq) (m : W64) : Cov := sq.tagBy.foldl (fun (c : Cov) x => if m.getLsbD x.1 && sq.tags.getLsbD x.1 then c.join x.2.cov else c) {}

/-- WANY and WALL: a mask of 0 faults with 0x165. -/
def tagWait (all : Bool) (d a : BitVec 5) (s : State) : Res :=
  runSeq s fun q sq w =>
    if sq.stalls [a] then w
    else
      let m := sq.reg a
      if m = 0 then w.raiseSeq q 0x165
      else if !tagMet all sq.tags m then w.seqHold q { stage := if all then 2 else 1, num := m }
      else
        let low := lowestBit (sq.tags &&& m)
        let w := w.gain (w.seqEye q) (sq.tagsCov (if all then m else 1#64 <<< low))
        let w := match sq.wait with
          | some x => w.endWait q 0x02 x
          | none => w.setSeq q fun sq => { sq with latest := newer sq.latest (if all then sq.tagsRef m else sq.tagRef low) }
        w.seqDone q fun sq => sq.put d (if all then m else BitVec.ofNat 64 low)
def execWany (d a : BitVec 5) (s : State) : Res := tagWait false d a s
def execWall (d a : BitVec 5) (s : State) : Res := tagWait true d a s

/-- TFIRST: the lowest set tag of the mask, or 64; it acquires what that tag's copy wrote. -/
def execTfirst (d a : BitVec 5) (s : State) : Res :=
  runSeq s fun q sq w =>
    if sq.stalls [a] then w
    else
      let low := lowestBit (sq.tags &&& sq.reg a)
      (w.gain (w.seqEye q) (if low < 64 then sq.tagsCov (1#64 <<< low) else {})).seqDone q fun sq =>
        let sq := if low < 64 then { sq with latest := newer sq.latest (sq.tagRef low) } else sq
        sq.put d (BitVec.ofNat 64 low)

/-- TCLR: clears the tag that s[A][5:0] names. -/
def execTclr (a : BitVec 5) (s : State) : Res :=
  runSeq s fun q sq w =>
    if sq.stalls [a] then w
    else w.seqDone q fun sq => sq.writeTags (w.now / 4) (sq.tags &&& ~~~(1#64 <<< ((sq.reg a).toNat % 64)))

/-! ## SLEEP (R265) -/

/-- SLEEP: t nanoseconds of global time from its issue; t ≤ 0 is a NOP. Its wait's stage is 3, its number t. -/
def execSleep (a : BitVec 5) (i : BitVec 15) (s : State) : Res :=
  runSeq s fun q sq w =>
    if sq.stalls [a] then w
    else match sq.wait with
      | some x =>
        if x.ready then (w.seqPennant q 0x08 (w.seqAgent q) sq.latest x.start x.arr).1.seqDone q id else w
      | none =>
        let t := sq.reg a + sext64 i
        if t.toInt ≤ 0 then w.seqDone q id else w.seqHold q { stage := 3, num := t }

/-- SLEEP_EXPIRY: the time of a quad's SLEEP has passed. -/
def execSleepExpiry (quad : Nat) (s : State) : Res :=
  run s fun w =>
    match (w.seq quad).wait with
    | some x =>
      w.guard (x.stage == 3 && !x.ready && decide (x.start + x.num.toNat ≤ w.ns)) fun w =>
        w.setSeq quad fun sq => { sq with wait := some { x with ready := true, arr := w.ns } }
    | none => w

end Sys2Proof.Machine
end

