-- ==== Sys2Proof/Machine/SeqEngine.lean ====
section
/-! DEFINITION. Sys2Proof/Machine/SeqEngine.lean: the sequencer's engine requests, queue appends and host rings: COPY, COPYX, COLL, QAPP and HPOST
(14_sequencer.md R266 to R270, R272). -/

namespace Sys2Proof.Machine

/-! ## Engine operands (R266) -/

/-- A bank address: bit 63 set. -/
def isBank (a : W64) : Bool := a.getLsbD 63
def bankCell (a : W64) : Nat := field a 31 18
def bankOffset (a : W64) : Nat := field a 17 0

/-- An operand of an engine request spans `len` bytes: a bank address of a cell of the region within its bank, or a global address. -/
def operandOk (g : Region) (a : W64) (len : Nat) : Bool :=
  if isBank a then field a 62 32 == 0 && siteIn g (bankCell a) && decide (bankOffset a + len ≤ 0x40000)
  else decide (a.toNat / 2 ^ 56 = 0)

/-- The stamp address of a tag, 0 when the stamp is performed inside the sequencer (R267). -/
def Seq.stampAt (sq : Seq) (tag : Nat) : W64 := if sq.stampb = 0 then 0 else sq.stampb + BitVec.ofNat 64 (8 * tag)

/-- Send a copy-class request: it takes its sequence number and counts as outstanding (R254, R266). It is an access (R83): an acquire before it that is not
performed holds it (R87). -/
def W.sendCopy (w : W) (q : Nat) (eng tag ord : Nat) (c : Copy) : W :=
  let sq := w.seq q
  let (w, id) := w.fresh
  let c := { c with
    id := id, part := sq.part, eng := eng, agent := w.seqAgent q, src := .seq q 0, region := sq.region, step := w.stepOf q, tag := tag
    stamp := sq.stampAt tag, num := sq.copySeq + 1, ord := decide (ord = 1), fence := sq.fenced, ref := sq.latest, sent := w.now }
  let w := w.setHub fun h => { h with copies := h.copies ++ [c] }
  w.seqDone q fun sq => { sq.add id .copies tag with copySeq := sq.copySeq + 1 }

/-- COPY (R267): s[B] bytes from s[A] to s[D] by the die copy engine of the quad's column. -/
def execCopy (d a b : BitVec 5) (tag : BitVec 6) (ord : BitVec 1) (s : State) : Res :=
  runSeq s fun q sq w =>
    if sq.stalls [d, a, b] then w
    else
      let len := (sq.reg b).toNat
      let g := w.region sq.region
      if len = 0 ∨ 2 ^ 40 < len then w.raiseSeq q 0x165
      else if !operandOk g (sq.reg a) len || !operandOk g (sq.reg d) len then w.raiseSeq q 0x161
      else if sq.full .copies || !w.mayNow (w.seqAgent q) [] then w
      else w.sendCopy q (8 * (q / 40) + (q % 8 + 7) % 8) tag.toNat ord.toNat { dst := sq.reg d, from' := sq.reg a, len := len }

/-- Bytes per element of a reducing copy's format; none: the format is out of range (R405). -/
def redSize (fmt : Nat) : Option Nat :=
  match fmt with
  | 0 => some 4
  | 1 => some 2
  | 2 => some 2
  | 6 => some 4
  | 9 => some 4
  | _ => none

/-- The alignment rule of a reducing copy (R405). -/
def redAligned (redop fmt len rows : Nat) (dst src : W64) (sstr dstr : Nat) : Bool :=
  if redop = 0 then fmt == 0
  else match redSize fmt with
    | none => false
    | some n => decide (redop ≤ 3) && len % n == 0 && dst.toNat % n == 0 && src.toNat % n == 0 &&
        (decide (rows ≤ 1) || (sstr % n == 0 && dstr % n == 0))

/-- A field of a descriptor in scratch: n bytes at byte lo. -/
def descField (v lo n : Nat) : Nat := v / 2 ^ (8 * lo) % 2 ^ (8 * n)

/-- A COPYX descriptor that R268 and R405 allow, for a destination and a source. -/
def copyxOk (g : Region) (dst src : W64) (v : Nat) : Bool :=
  let f := descField v
  let land := f 12 4
  let landen := f 10 1 % 2 == 1
  let lcell := land % 2 ^ 14
  let lslot := land / 2 ^ 16 % 8
  let landOk := !landen || (isBank dst && bankCell dst == lcell && decide (lslot < 6) && (tgetD g.elems (ekey lcell lslot) {}).opc == 0x8E)
  decide (1 ≤ f 0 8 ∧ f 0 8 ≤ 2 ^ 40 ∧ f 8 1 ≤ 3 ∧ f 16 4 ≤ 65535) && f 10 1 / 2 == 0 && f 11 1 == 0 && f 20 4 == 0 &&
    land / 2 ^ 14 % 4 == 0 && land / 2 ^ 19 == 0 && landOk &&
    redAligned (f 8 1) (f 9 1) (f 0 8) (f 16 4) dst src (f 24 4) (f 28 4)
/-- The bytes from the first to the last row of an operand. -/
def copyxSpan (v stride : Nat) : Nat := (max (descField v 16 4) 1 - 1) * stride + descField v 0 8
/-- The request that a COPYX descriptor describes. -/
def copyxReq (dst src : W64) (v : Nat) : Copy :=
  let f := descField v
  { dst := dst, from' := src, len := f 0 8, rows := max (f 16 4) 1, sstr := f 24 4, dstr := f 28 4, redop := f 8 1, fmt := f 9 1
    landen := f 10 1 % 2 == 1, lcell := f 12 4 % 2 ^ 14, lslot := f 12 4 / 2 ^ 16 % 8 }

/-- COPYX (R268): rows with strides, a reduction, landing tokens, from a descriptor in scratch, by the hub copy engine of the quad. -/
def execCopyx (d a b : BitVec 5) (tag : BitVec 6) (ord : BitVec 1) (s : State) : Res :=
  runSeq s fun q sq w =>
    if sq.stalls [d, a, b] then w
    else match scratchSpan (sq.reg b) 32 32 with
      | none => w.raiseSeq q 0x165
      | some off =>
        let g := w.region sq.region
        let v := sq.scratchNat off 32
        let dst := sq.reg d
        let src := sq.reg a
        if !copyxOk g dst src v then w.raiseSeq q 0x165
        else if !operandOk g src (copyxSpan v (descField v 24 4)) || !operandOk g dst (copyxSpan v (descField v 28 4)) then w.raiseSeq q 0x161
        else if sq.full .copies || !w.mayNow (w.seqAgent q) [] then w
        else w.sendCopy q (32 + q % 16) tag.toNat ord.toNat (copyxReq dst src v)

/-- The bits of an element in memory; of Q4, four elements share a block of 24 (R39; log 80). -/
def collWidth (fmt : Nat) : Nat := if fmt = 5 then 6 else fmtWidth fmt
/-- The bytes of n blocks of COUNT elements, each element at its place (R407). -/
def collBytes (n count fmt : Nat) : Nat := (n * count * collWidth fmt + 7) / 8
/-- The bytes of SEND and of RECV that a collective spans over `ranks` ranks, by its control word (R266, R407). How many ranks there are its engine reads as it
takes the request (R406), so the whole span is checked there; one block is spanned in any case. -/
def collSpan (ctl : W64) (count ranks : Nat) : Nat × Nat :=
  let b (n : Nat) : Nat := collBytes n count (field ctl 35 32)
  (b (if field ctl 23 16 = 2 then ranks else 1), b (if field ctl 23 16 = 1 then ranks else 1))
/-- The control word of a collective: COMM, OP, REDOP, FMT, SIGOP, ROOT in range (R124, R405). DESIGN CHOICE: an operation that copies only takes no
REDOP and a defined FMT, as its block length needs (log 80). -/
def collCtlOk (ctl : W64) : Bool :=
  let op := field ctl 23 16
  let red := field ctl 31 24
  let reduces := op == 2 || op == 3
  decide (1 ≤ field ctl 15 0 ∧ field ctl 15 0 ≤ 31 ∧ 1 ≤ op ∧ op ≤ 4 ∧ field ctl 37 36 ≤ 2) && field ctl 47 38 == 0 &&
    (if reduces then decide (1 ≤ red ∧ red ≤ 3) else red == 0) &&
    (if reduces then (redSize (field ctl 35 32)).isSome else collWidth (field ctl 35 32) != 0) && (op == 4 || field ctl 63 48 == 0)

/-- COLL (R269): a collective from a descriptor in scratch: COUNT, SIG, SIGVAL and the control word (log 25). -/
def execColl (d a b : BitVec 5) (tag : BitVec 6) (ord : BitVec 1) (s : State) : Res :=
  runSeq s fun q sq w =>
    if sq.stalls [d, a, b] then w
    else match scratchSpan (sq.reg b) 32 32 with
      | none => w.raiseSeq q 0x165
      | some off =>
        let v := sq.scratchNat off 32
        let wd (i : Nat) : W64 := BitVec.ofNat 64 (descField v (8 * i) 8)
        let ok := collCtlOk (wd 3) && (wd 1).toNat % 8 == 0
        if !ok then w.raiseSeq q 0x165
        else if !operandOk (w.region sq.region) (sq.reg d) (collSpan (wd 3) (wd 0).toNat 1).1 ||
            !operandOk (w.region sq.region) (sq.reg a) (collSpan (wd 3) (wd 0).toNat 1).2 then w.raiseSeq q 0x161
        else if sq.full .copies || !w.mayNow (w.seqAgent q) [] then w
        else
          let (w, id) := w.fresh
          let c : Coll := {
            id := id, part := sq.part, agent := w.seqAgent q, src := .seq q 0, region := sq.region, step := w.stepOf q
            send := sq.reg d, recv := sq.reg a, count := (wd 0).toNat, sig := wd 1, sigval := wd 2, ctl := wd 3, tag := tag.toNat
            stamp := sq.stampAt tag.toNat, num := sq.copySeq + 1, ord := ord == 1, fence := sq.fenced, ref := sq.latest, sent := w.now }
          let w := w.setHub fun h => { h with colls := h.colls ++ [c] }
          w.seqDone q fun sq => { sq.add id .copies tag.toNat with copySeq := sq.copySeq + 1 }

/-! ## QAPP (R121, R270) -/

/-- The queue of a partition whose descriptor lies at an address. -/
def W.queueAt (w : W) (part : Nat) (va : W64) : Option Nat :=
  (w.m.queues.find? fun x => x.2.base == va && w.fld (Bar.qCfg x.1) 62 59 == part).map (·.1)

/-- A sequencer's own read or write of one word of its partition's memory, at the copy that it touches: its key, once a TLB holds the page. -/
def W.seqKey (w : W) (q : Nat) (va : W64) (len : Nat) (a : Access) (t : Touch) : W × Except Xl (Nat × Nat) :=
  match w.placed (.seq q 0) (w.seq q).part va len a t 0xE with
  | (w, .ok (ls, ps, _)) => (w, .ok ((ps.headD {}).key, (ls.map (·.place)).headD 0))
  | (w, .error x) => (w, .error x)

/-- Count one request of the sequencer at a key (R81). -/
def W.seqCount (w : W) (q key : Nat) : W := w.countReqs (q / 40) (some q) [key]

/-- A word that QAPP reads or writes at once lies in one sector: it may be accessed now, and at a home in the order of the cycle's requesters (R94). -/
def W.seqOpen (w : W) (q : Nat) (keys : List Nat) : Bool :=
  w.mayNow (w.seqAgent q) (keys.map sectorKey) && keys.all (w.homeOpen (w.seqEye q))

/-- The copy of a descriptor, on a page of a place, that the sequencer's die reads (R76). -/
def nearKey (q key place : Nat) : Nat := if place = 2 then keyDie (q / 40) (key % 2 ^ 40) else key

/-- The LD.ACQ of RD_INDEX (R121): its value, the release that wrote it, and when; the sequencer has then seen it. -/
def W.readRd (w : W) (q key scope : Nat) : W × Nat × Option (Rel × Nat × Nat) :=
  let e := w.seqEye q
  let p : Piece := { key := key + 8, len := 8 }
  let got := w.acquired e scope (key + 8) 8
  let rd := w.readPiece e p
  ((w.seqCount q (sectorKey key)).learn e 0 scope (w.sources e false p), rd, got)

/-- QAPP (R121, R270): it claims a slot by an atomic add on WR_INDEX, waits while the ring is full, writes the packet's bytes 8 to 63, and sends its header as a
release. Its wait's stage is 6, its number the claimed index, and it is ready once the ring has been found full. The slot's translation is asked for before
the claim, so that a fault of it accesses nothing (R284). -/
def execQapp (d a b : BitVec 5) (s : State) : Res :=
  runSeq s fun q sq w =>
    if sq.stalls [a, b] then w
    else match scratchSpan (sq.reg b) 64 64 with
      | none => w.raiseSeq q 0x165
      | some off =>
        let desc := sq.reg a
        let e := w.seqEye q
        let near : Touch := .near (q / 40)
        if sq.scratchNat off 1 = 0 ∨ inScratch desc then w.raiseSeq q 0x165 desc
        else match eaFault desc 8 with
          | some c => w.raiseSeq q c desc
          | none =>
            match w.seqKey q desc 32 .atomic .home with
            | (w, .error .miss) => w
            | (w, .error x) => w.raiseSeq q (xlateCode 0xE x) desc
            | (w, .ok (home, place)) =>
              let scope := if 3 ≤ place then 5 else 4
              let key := nearKey q home place
              let base := BitVec.ofNat 64 (leNat (w.viewBytes e (key + 16) 8))
              let slots := leNat (w.viewBytes e (key + 24) 4)
              let slotAt (n : Nat) : W64 := base + BitVec.ofNat 64 (64 * (n % max slots 1))
              match sq.wait with
              | none =>
                let old := leNat (w.bytes home 8)
                if sq.full .stores || !w.seqOpen q [home] then w
                else match w.seqKey q (slotAt old) 64 .write near with
                  | (w, .error .miss) => w
                  | (w, .error y) => w.raiseSeq q (xlateCode 0xE y) (slotAt old)
                  | (w, .ok _) =>
                    let w := w.learn e 0 0 (w.sources e true { key := home, len := 8 })
                    let w := (w.seqCount q home).applyBytes e {} home (leBytes 8 (old + 1))
                    w.seqHold q { stage := 6, num := BitVec.ofNat 64 old }
              | some x =>
                if !w.seqOpen q [] || !w.seesAll e (w.owed e scope (w.sources e false { key := key + 8, len := 8 })) then w
                else
                let va := slotAt x.num.toNat
                match w.seqKey q va 64 .write near with
                | (w, .error .miss) => w
                | (w, .error y) => w.raiseSeq q (xlateCode 0xE y) va
                | (w, .ok (slot, _)) =>
                  let (w, rd, got) := w.readRd q key scope
                  if rd + slots ≤ x.num.toNat then
                    -- the ring is full: from now on it waits for the CP
                    w.setSeq q fun sq => { sq with 
                      wait := some { x with ready := true, start := if x.ready then x.start else w.ns }, nextAt := w.seqCycle 1 }
                  else if !w.seqOpen q [slot] then w
                  else
                    let w := (w.seqCount q slot).applyBytes e {} (slot + 8) (sq.scratchBytes (off + 8) 56)
                    let carried : W32 := match got with | some (k, _, _) => k.ref | none => 0
                    let w :=
                      if x.ready then
                        let arr := match got with | some (_, t, _) => t | none => w.ns
                        let cp := match w.queueAt sq.part desc with | some n => w.cpAgent n | none => w.cpAgent 0
                        (w.seqPennant q 0x06 cp carried x.start arr).1
                      else w.setSeq q fun sq => { sq with latest := newer sq.latest carried }
                    w.seqAccess q 0 va 8 .write near (fun _ => none)
                      { kind := .write, data := BitVec.ofNat 768 (sq.scratchNat off 8), mask := 0xFF, rel := true, scope := scope } fun id w =>
                      w.seqDone q fun sq => (sq.add id .stores 0).put d x.num

/-! ## HPOST (R272) -/

/-- An append waits at a ring for room: one that comes to the ring after it waits too (R133, R283). -/
def Append.waits (y : Append) (part : Nat) (ring : W64) : Bool := y.waited && y.part == part && y.ring == ring

/-- HPOST: asks the hub to append n records to a ring, and goes on once it has accepted them. Its wait's stage is 7. -/
def execHpost (d a b : BitVec 5) (n : BitVec 10) (s : State) : Res :=
  runSeq s fun q sq w =>
    if sq.stalls [a, b] then w
    else match sq.wait with
      | some x =>
        if !x.ready then w
        else
          let w := if 0 < x.reads then w.endWait q 0x06 x else w
          w.seqDone q fun sq => sq.put d x.num
      | none =>
        match scratchSpan (sq.reg b) 64 (64 * n.toNat) with
        | none => w.raiseSeq q 0x165
        | some off =>
          let ring := sq.reg a
          if inScratch ring then w.raiseSeq q 0x165 ring
          else match eaFault ring 64 with
            | some c => w.raiseSeq q c ring
            | none =>
              let (w, id) := w.fresh
              let ap : Append := { id := id, part := sq.part, ring := ring, recs := sq.scratchBytes off (64 * n.toNat), src := .seq q 0, start := w.ns,
                                   step := w.stepOf q, waited := w.m.hub.appends.any fun y => y.waits sq.part ring }
              (w.setHub fun h => { h with appends := h.appends ++ [ap] }).seqHold q { stage := 7 }

end Sys2Proof.Machine
end

