-- ==== Sys2Proof/Machine/Translation.lean ====
section
/-! DEFINITION. Sys2Proof/Machine/Translation.lean: page walks, fault queues and their replies, invalidation, and the host's accesses through
BAR2 (25_translation.md, 23_host_and_command_processor.md R340). -/

namespace Sys2Proof.Machine

/-! ## Walks and their faults (R372 to R379) -/

/-- The frame that a read of the loader for a region at an address is for, none (0xFFFF_FFFF) of the tables and a header (R310). -/
def W.loaderFrame (w : W) (r : Nat) (va : W64) : Nat :=
  match tget w.m.hub.loading r with
  | some (_, a, _, some i) => i + (va.toNat - a.toNat) / 32
  | _ => 0xFFFFFFFF
/-- The configuration version that a failure of the loader is reported with: 0 of a load, that of the region of a section (R310, R313). -/
def W.loaderVersion (w : W) (r : Nat) : W32 := let g := w.region r; if g.runs then g.version else 0
/-- The region whose read a walk of the loader is for: of those in hand, the first of the partition that reads in the walk's 64 KiB. -/
def W.loaderFor (w : W) (part : Nat) (va : W64) : Nat :=
  match w.m.hub.loading.find? fun x => x.2.1 == part && decide (x.2.2.1.toNat / 2 ^ 16 ≤ va.toNat / 2 ^ 16 ∧ va.toNat / 2 ^ 16 ≤ (x.2.2.1.toNat + x.2.2.2.1) / 2 ^ 16) with
  | some x => x.1
  | none => 2 ^ 20

/-- Every joined agent takes a code of its unit: condition 0 unresolvable, 2 a broken table (R372, R379). -/
def W.walkFault (w : W) (k : Walk) (cond : Nat) : W :=
  (k.srcs.zip k.agents).foldl (fun w (src, agent) =>
    match src with
    | .engine 49 =>
      let r := w.loaderFor k.part k.va
      w.raise k.part {
        code := 0x1F0 + cond, agent := agent, element := w.loaderFrame r k.va, va := k.va, version := w.loaderVersion r, latest := w.m.hub.loadRef }
    | .elem r c s => w.raiseElem ⟨r, c, s⟩ (0x1A0 + cond) k.va
    | .seq q _ => w.raiseSeq q (0x1E0 + cond) k.va
    | _ => w.raiseHub k.part (0x1F0 + cond) agent 0 k.va) w

def W.dropWalk (w : W) (id : Nat) : W := w.setMmu fun x => { x with walks := x.walks.filter fun k => k.id != id }

/-- How many walkers serve a die, or (4) the hub (R375). -/
def walkers (die : Nat) : Nat := if die < 4 then 64 else 16
/-- One of its die's walkers has taken a walk: those that come first. -/
def W.walking (w : W) (k : Walk) : Bool :=
  decide (((w.m.mmu.walks.takeWhile fun y => y.id != k.id).filter fun y => y.die == k.die && !y.held).length < walkers k.die)

/-- PAGE_WALK: a walk that a walker has taken completes. It fills the TLBs of its agents' units, or it faults: a PREF is cancelled (R237), an absent entry
is queued once for all its agents, or held while the queue is full, and a broken table is fatal (R372, R375 to R378). -/
def execPageWalk (id : Nat) (s : State) : Res :=
  run s fun w =>
    match w.m.mmu.walks.find? fun k => k.id == id && !k.held with
    | none => w
    | some k =>
      w.guard (w.walking k) fun w => match w.walk k.part k.va with
      | .leaf e size =>
        let (w, n) := w.fresh
        let t : TlbE := { id := n, part := k.part, va := k.va.toNat / 2 ^ size, size := size, leaf := e }
        let units := (((k.srcs ++ k.prefs).flatMap w.unitsOf) ++ [k.die]).eraseDups
        (units.foldl (fun w u => w.tlbFill u t) w).dropWalk id
      | .broken => if k.pre then w.dropWalk id else (w.walkFault k 2).dropWalk id
      | .absent level =>
        if k.pre then w.dropWalk id
        else if !w.fqOn k.die k.part then (w.walkFault k 0).dropWalk id
        else if w.fqFull k.die then w
        else w.fqHold k level

/-- The walk that waits for the reply to an entry of a die's queue. -/
def W.fqEntry (w : W) (die idx : Nat) : Option Walk := w.m.mmu.walks.find? fun k => k.held && k.die == die && k.entry == some idx

/-- RETRY: the walk of an entry is in flight again for every agent joined to it. -/
def W.fqRetry (w : W) (die idx : Nat) : W :=
  match w.fqEntry die idx with
  | none => w
  | some k => w.setMmu fun x => { x with walks := x.walks.map fun y => if y.id == k.id then { y with held := false, entry := none } else y }
/-- ABORT: every agent joined to an entry takes its unit's unresolvable code. -/
def W.fqAbort (w : W) (die idx : Nat) : W :=
  match w.fqEntry die idx with
  | none => w
  | some k => (w.walkFault k 0).dropWalk k.id

/-- FQ_REPLY_RETRY, FQ_REPLY_ABORT (R379): a reply to an entry that waits for none is discarded. -/
def execFqReplyRetry (die idx : Nat) (s : State) : Res := run s fun w => w.guard w.ready fun w => w.fqRetry die idx
def execFqReplyAbort (die idx : Nat) (s : State) : Res := run s fun w => w.guard w.ready fun w => w.fqAbort die idx

/-- A write to FQ_REPLY (R377). -/
def W.writeFqReply (w : W) (die : Nat) (v : W64) : W :=
  match field v 63 62 with
  | 1 => w.fqRetry die (field v 31 0)
  | 2 => w.fqAbort die (field v 31 0)
  | _ => w

/-! ## Invalidation (R380, R381) -/

/-- The entries that a TLB_INV value names. -/
def invNames (v : W64) (t : TlbE) : Bool :=
  let part := if v.getLsbD 9 then pfPart else field v 5 2
  let size := match field v 8 7 with | 0 => 16 | 1 => 21 | _ => 30
  let lo := v.toNat / 2 ^ 16 * 2 ^ 16 / 2 ^ size * 2 ^ size
  t.part == part && (v.getLsbD 6 || decide (t.va * 2 ^ t.size < lo + 2 ^ size ∧ lo < (t.va + 1) * 2 ^ t.size))

/-- A write to TLB_INV: discarded while BUSY, with the reserved size or address bits 63 to 56; with bit 0 it removes the named entries from every TLB, and
the requests that translated through one are what BUSY waits for, with every write that is still to be seen by an agent (log 10). -/
def W.writeTlbInv (w : W) (v : W64) : W :=
  if (w.bar Bar.tlbInv).getLsbD 0 || field v 8 7 == 3 || field v 63 56 != 0 then w
  else
    let w := w.setBar Bar.tlbInv (v &&& 0xFFFFFFFFFFFF03FD)
    if !v.getLsbD 0 then w
    else
      let gone := (w.m.mmu.tlb.filter (invNames v)).map (·.id)
      let held := (w.m.bus.reqs.filter fun r => r.xlate.any gone.contains).map (·.id)
      w.setMmu fun x => { x with
        tlb := x.tlb.filter fun t => !invNames v t, inv := held, writes := (w.m.bus.unseen.map (·.id)).eraseDups }
def execTlbInvalidate (v : BitVec 64) (s : State) : Res := run s fun w => w.guard w.ready fun w => w.writeTlbInv v

/-- TLB_INV_COMPLETE: BUSY falls once every access that had translated through a removed entry has been performed (R381, R87). -/
def execTlbInvComplete (s : State) : Res :=
  run s fun w =>
    w.guard ((w.bar Bar.tlbInv).getLsbD 0 && (w.m.bus.reqs.all fun r => !w.m.mmu.inv.contains r.id || r.allDone) &&
        w.m.bus.unseen.all fun u => !w.m.mmu.writes.contains u.id) fun w =>
      (w.setFld Bar.tlbInv 0 0 0).setMmu fun x => { x with inv := [], writes := [] }

/-! ## The host's accesses (R340, R376) -/

/-- The partition whose tables a function's BAR2 uses: 16 for the PF, that of a bound VF, none for an unbound VF (R340, R344). -/
def W.bar2Part (w : W) (fn : Nat) : Option Nat :=
  if fn = 0 then some pfPart
  else (List.range 16).find? fun n => w.enabled n && w.fld (Bar.partCtl n) 31 28 == fn

/-- Translate one sector of a host access through the hub TLB, walking on a miss; an absent entry is queued for the PF or the partition, and an access that
faults completes as Unsupported Request (R376). -/
def W.bar2Xlate (w : W) (part : Nat) (va : W64) (a : Access) : W × Option (Leaf × Nat) :=
  match w.hubXlate part va a with
  | (w, .ok x) => (w, some x)
  | (w, .error _) => (w, none)

/-- HOST_BAR2_ACCESS (R340): kind 0 a read, 1 a write, 2 FetchAdd, 3 Swap, 4 CAS (writing v where it reads cmp), of `size` bytes at BAR2
offset addr, sector by sector at SYS scope. A fault discards it. What a read returns leaves the machine. -/
def execHostBar2Access (fn kind size : Nat) (addr v cmp : BitVec 64) (s : State) : Res :=
  run s fun w =>
    match w.bar2Part fn with
    | none => w
    | some part =>
      let atom := decide (2 ≤ kind)
      let okSize := if atom then (size == 4 || size == 8) && addr.toNat % size == 0 else decide (1 ≤ size ∧ size ≤ 8)
      w.guard (okSize && decide (kind ≤ 4 ∧ addr.toNat + size ≤ 2 ^ 36)) fun w =>
        let a : Access := if atom then .atomic else if kind = 1 then .write else .read
        let rel : Rel := { scope := 5, agent := w.hostAgent }
        let e : Eye := { die := 5, agent := 2 ^ 41 + 2 ^ 15, id := w.hostAgent }
        (sectorsOf addr.toNat size).foldl (fun w (va, off, len) =>
          match w.bar2Xlate part (BitVec.ofNat 64 va) a with
          | (w, none) => w
          | (w, some (l, o)) =>
            match kind with
            | 0 => w.countReqs 4 none [hubKey l o]
            | 1 =>
              let bs := leBytes len (v.toNat / 2 ^ (8 * off))
              -- a driver that frees a task entry (R367)
              (w.spread e 0 part rel (hubCopies l o) bs).1.syncSaved part
            | _ =>
              let key := hubKey l o
              let w := w.countReqs 4 none [key]
              let old := leNat (w.bytes key size)
              let new := match kind with
                | 2 => old + v.toNat
                | 3 => v.toNat
                | _ => if old = cmp.toNat % 2 ^ (8 * size) then v.toNat else old
              (w.applyBytes e rel key (leBytes size new)).syncSaved part) w

end Sys2Proof.Machine
end

