-- ==== Sys2Proof/Machine/Engines.lean ====
section
/-! DEFINITION. Sys2Proof/Machine/Engines.lean: the copy engines and the collective engine: taking requests, sectors, landing tokens, stamps and
collectives (06_ordering_wide.md R100 to R104, 04_memory_spaces.md R80, 28_links_and_collectives.md R405 to R408; R365, R366). -/

namespace Sys2Proof.Machine

/-! ## Pieces of a span (R101) -/

/-- How many sectors a span touches. -/
def pieceCount (a len : Nat) : Nat := (a + len - 1) / 64 - a / 64 + 1
/-- Its j-th part: the offset in the span, and the length. -/
def pieceAt (a len j : Nat) : Nat × Nat :=
  let lo := if j = 0 then a else (a / 64 + j) * 64
  (lo - a, min (a + len) ((a / 64 + j + 1) * 64) - lo)

/-! ## An engine's accesses -/

/-- Why an access of an engine has not been made: it waits, or it faults with a code at an address. -/
inductive EngStop where
  | wait
  | fault (code : Nat) (va : W64)
deriving DecidableEq, Repr

def engStop (va : W64) : Xl → EngStop
  | .miss => .wait
  | x => .fault (xlateCode 0xF x) va

/-- A copy engine or the collective engine as an agent and as an observer (R95). -/
def W.engEye (w : W) (eng : Nat) : Eye :=
  if eng < 32 then { die := eng / 8, agent := w.engAgent eng, id := w.engAgent eng } else hubAgent (w.engAgent eng)

/-- Keep of a working state only the walks that it has asked for, and what a long read has read: what else was begun is begun again when they have ended. -/
def W.onlyWalks (w w' : W) : W :=
  { w with m := { w.m with
    mmu := w'.m.mmu, nextId := w'.m.nextId, draw := w'.m.draw, hub := { w.m.hub with memo := w'.m.hub.memo, burst := w'.m.hub.burst, loading := w'.m.hub.loading } } }

/-- DRAM returns an uncorrectable error for one of these pieces (R354). -/
def W.dramBad (w : W) (ps : List Piece) : Bool := ps.any fun p => w.m.bus.bad.contains (sectorKey p.key)

/-- The bank slot of a cell that an engine may use on this edge: an island edge, and no bank element of the cell uses it (R84). -/
def W.engineSlot (w : W) (r cell : Nat) (write : Bool) : Bool :=
  let c := w.cell r cell
  let same := if write then bankWrites else bankReads
  let g := w.region r
  g.runsAt w.now && (g.islandOf cell).kept w.now && !(w.part g.part).halted &&
  decide ((if write then c.writeTo else c.readTo) < max (w.edgeOf g cell) 1) && (if write then c.writeAt != w.now + 1 else c.readAt != w.now + 1 && c.writeAt != w.now + 1) &&
  (List.range 6).all fun s => !(same (w.elem ⟨r, cell, s⟩).opc && w.bankReady ⟨r, cell, s⟩)

/-- Read a span of an operand that lies in one sector: of a bank of the issuing region, or of its saved task (R365), or of global memory (R76), there as an
acquire at a scope or (0) as none; DRAM's uncorrectable error is 0x370 (R354). -/
def W.engRead (w : W) (eng part : Nat) (src : Src) (r : Nat) (a : W64) (len : Nat) (acq : Nat := 0) : W × Except EngStop (List Byte) :=
  if isBank a then
    let cell := bankCell a
    match src with
    | .task p e _ => (w, .ok (memBytes (tgetD (tgetD (w.part p).saved e {}).region.banks cell []) (bankOffset a) len))
    | _ =>
      if w.engineSlot r cell false then
        (w.setCell r cell fun c => { c with readAt := w.now + 1 }, .ok (memBytes (w.bank r cell) (bankOffset a) len))
      else (w, .error .wait)
  else
    let die := w.dieOf (.engine eng)
    match w.placed (.engine eng) part a len .read (.near die) 0xF with
    | (w, .ok (_, ps, _)) =>
      let e := w.engEye eng
      if acq != 0 && !ps.all fun p => w.seesAll e (w.owed e acq (w.sources e false p)) then (w, .error .wait)
      else
        let w := w.countReqs die none (ps.map (·.key))
        if w.dramBad ps then (w, .error (.fault 0x370 a))
        else
          let w := ps.foldl (fun w p => w.learn e 0 acq (w.sources e false p)) w
          (w, .ok (ps.flatMap fun p => w.viewBytes e p.key p.len))
    | (w, .error x) => (w, .error (engStop a x))

/-- Read a span of global memory, sector by sector, as an acquire at a scope. -/
def W.engSpan (w : W) (eng part : Nat) (a : W64) (len acq : Nat) : W × Except EngStop (List Byte) :=
  (sectorsOf a.toNat len).foldl (fun (x : W × Except EngStop (List Byte)) s =>
    match x with
    | (w, .ok bs) => match w.engRead eng part (.engine eng) 0 (BitVec.ofNat 64 s.1) s.2.2 acq with
      | (w, .ok b) => (w, .ok (bs ++ b))
      | x => x
    | x => x) (w, .ok [])

/-- What a write of an engine has done: the writes' ids, the scope that its homes ask for (REGION of a bank), and flags. -/
structure EngWrote where
  ids   : List Nat := []
  scope : Nat := 2
  flags : Flags := 0

/-- The scope that a home asks for of an agent of a die (R102). -/
def homeScope (die key : Nat) : Nat := if keyHome key = die then 3 else if keyHome key < 5 then 4 else 5

/-- Write a span of an operand, at most a sector long, combining it with what stands there when the request reduces (R104): in a bank, or at the
home of a global sector in one step; the copies of a REPLICA sector each at its own time (R99). A saved task's bank takes no write (R365). `die` is the issuing
agent's, `owner` the copy or collective; a reducing request's destination needs R, W and A (R373). -/
def W.engWrite (w : W) (eng part owner : Nat) (src : Src) (r die : Nat) (a : W64) (bs : List Byte) (red : Option (Nat × Nat)) (acc : Access) :
    W × Except EngStop EngWrote :=
  let comb (old : List Byte) : List Byte × Flags := match red with
    | none => (bs, 0)
    | some (op, fmt) =>
      let (v, f) := redBits fmt op (8 * bs.length) (leNat old) (leNat bs)
      (leBytes bs.length v, f)
  if isBank a then
    let cell := bankCell a
    match src with
    | .task _ _ _ => (w, .error .wait)
    | _ =>
      if w.engineSlot r cell true then
        let (v, f) := comb (memBytes (w.bank r cell) (bankOffset a) bs.length)
        let w := w.setCell r cell fun c => { c with writeAt := w.now + 1 }
        (w.setBank r cell fun m => memPut m (bankOffset a) v, .ok { flags := f })
      else (w, .error .wait)
  else
    let e := w.engEye eng
    let touch : Touch := if red.isSome then .home else if e.die < 4 then .near e.die else .dies
    match w.placed (.engine eng) part a bs.length acc touch 0xF with
    | (w, .error x) => (w, .error (engStop a x))
    | (w, .ok (_, ps, ts)) =>
      let scope := ps.foldl (fun n p => max n (homeScope die p.key)) 2
      if 1 < ps.length then
        (w.issueOwned e owner { part := part, kind := .mcst false, va := a, pieces := ps, size := bs.length, data := BitVec.ofNat 768 (leNat bs)
                                mask := 2 ^ bs.length - 1, xlate := ts }, .ok { scope := scope })
      else if !ps.all fun p => w.homeOpen e p.key then (w, .error .wait)
      else
        let w := w.countReqs e.die none (ps.map (·.key))
        ps.foldl (fun (acc : W × Except EngStop EngWrote) p =>
          match acc with
          | (w, .ok x) =>
            let (v, f) := comb (w.bytes p.key p.len)
            let w := if red.isSome then w.learn e 0 0 (w.sources e true p) else w
            let (w, id) := w.applyWrite e (sectorKey p.key) ((List.range p.len).zip v |>.map fun (i, b) => (p.key % 64 + i, b)) {}
            (w, .ok { x with ids := id :: x.ids, flags := x.flags ||| f })
          | e => e) (w, .ok { scope := scope })

/-! ## Engine-fed positions (R80, R224, R239) -/

/-- An engine-fed position can take a token now: it is empty, on an island edge of its running cell. -/
def W.feedable (w : W) (e : ERef) (right : Bool) : Bool :=
  let x := w.elem e
  (w.region e.r).runsAt w.now && (if right then x.inR else x.inL).isNone && decide (x.nextG ≤ w.now) && w.onEdge (w.region e.r) e.cell
def W.feed (w : W) (e : ERef) (right : Bool) (tok : Token) : W :=
  let tok := { tok with landed := w.now, landedNs := w.ns }
  (w.stir (w.region e.r) e.cell).setElem e fun x => if right then { x with inR := some tok } else { x with inL := some tok }

/-- The slot of an engine-fed RECV of a cell. -/
def Region.fedRecv (g : Region) (cell : Nat) : Option Nat :=
  (List.range 6).find? fun s => let x := tgetD g.elems (ekey cell s) {}; x.opc == 0x8C && !x.names 1
/-- No field of a request names an engine-fed RECV (R224, R239). DESIGN CHOICE: whether a request to the bank of a cell with one feeds it instead, sector by sector, is
a free value (log 81). -/
def W.pickFeed (w : W) (src : Src) (r : Nat) (dst : W64) : W × Option Nat :=
  match src, isBank dst, (w.region r).fedRecv (bankCell dst) with
  | .seq _ _, true, some s => let (w, k) := w.freeBelow 2; (w, if k = 1 then some s else none)
  | _, _, _ => (w, none)
/-- The token that feeds a RECV: some bytes, the lanes beyond them empty, marked as the engine's release (R100). -/
def fedToken (bs : List Byte) (rel : Rel) : Token :=
  { data := BitVec.ofNat 512 (leNat bs), empty := BitVec.ofNat 16 (2 ^ 16 - 2 ^ min 16 ((bs.length + 3) / 4)), rel := some rel }

/-! ## Copies -/

/-- The ring of an engine's pennants (R391). -/
def engRing (eng : Nat) : Nat := if eng < 32 then 0xF4 + eng / 8 else if eng < 48 then 0xF8 else 0xF3

/-- The issuing agent of a copy or collective, from which its scopes are counted (R102). -/
def issuerEye (src : Src) (agent region : Nat) : Eye :=
  { die := agent / 2 ^ 16 % 8, agent := agent, reg := match src with | .cp _ => 0 | _ => region + 1, id := agent }
/-- The release of an engine's stamp or LAND token: it counts as the issuing agent's for the scopes (R102). -/
def W.engRel (w : W) (eng scope : Nat) (src : Src) (agent region : Nat) (ref : W32) (step : Nat) : Rel :=
  let e := issuerEye src agent region
  { scope := scope, agent := w.engAgent eng, ref := ref, step := step, reg := e.reg, die := e.die + 1 }

/-- The requests of a stream up to a number have had their stamps performed, at a scope or (0) each at its own (R103). A CP's stream orders its COPY packets only
(R124). -/
def W.stampsDone (w : W) (src : Src) (num scope : Nat) : Bool :=
  let cp := match src with | .cp _ => true | _ => false
  !(w.m.hub.copies.any fun c => c.src == src && decide (c.num ≤ num)) &&
  (cp || !(w.m.hub.colls.any fun c => c.src == src && decide (c.num ≤ num))) &&
  w.m.hub.stamped.all fun x => x.src != src || decide (num < x.num) ||
    w.performed { issuerEye src x.agent 0 with reg := x.reg } (if scope = 0 then x.scope else scope) x.ids {}
/-- Its writes may start (R103): with ORD after every earlier request of its stream, and after those before a fence at the fence's scope. -/
def W.mayWrite (w : W) (src : Src) (num : Nat) (fence : Tbl Nat) (ord : Bool) : Bool :=
  (!ord || w.stampsDone src (num - 1) 0) && fence.all fun f => w.stampsDone src (min f.2 (num - 1)) f.1
/-- A request's stamp has been written: later ones of its stream may have to wait until it is performed. -/
def W.noteStamp (w : W) (x : Stamped) : W :=
  w.setHub fun h => { h with stamped := (h.stamped.filter fun y => w.m.bus.unseen.any fun u => y.ids.contains u.id) ++ if x.ids.isEmpty then [] else [x] }

/-- An engine's operation faults: the partition halts with the code, and a saved task's entry is stopped (R366). -/
def W.engFault (w : W) (part : Nat) (src : Src) (code agent num : Nat) (va : W64) (ref : W32) : W :=
  let w := w.raiseHub part code agent (num % 2 ^ 32) va ref
  match src with
  | .task p e _ =>
    let w := w.setPart p fun x => { x with saved := tmod x.saved e fun y => { y with stopped := true } }
    w.hubForce p (w.ctxAt p (64 + 64 * e + 12)) [3]
  | _ => w

/-- Its completion, with its payload (R102), reaches its issuer: its tag and its class entry, of a running sequencer or of a saved one (R366), or the packet's job,
which its CP acquires (R128). -/
def W.opDone (w : W) (src : Src) (id tag agent : Nat) (ref : W32) (cov : Cov) : W :=
  let o : Out := { id := id, cls := .copies, done := true, agent := agent, ref := ref, doneNs := w.ns, cov := cov }
  let fin (sq : Seq) : Seq := (sq.setTag (w.now / 4) tag o).finish id agent ref w.ns cov
  match src with
  | .seq q _ => w.setSeq q fin
  | .task p e k =>
    let w := w.setPart p fun x => { x with saved := tmod x.saved e fun y => { y with seqs := tmod y.seqs k fin } }
    -- SQ_TAGS and SQ_CNT of the saved state (R366, R368)
    let y := tgetD (w.part p).saved e {}
    let sq := tgetD y.seqs k {}
    w.hubForce p (y.base + BitVec.ofNat 64 (0x10000 * k + 0x128)) (leBytes 8 sq.tags.toNat ++ leBytes 8 sq.counts)
  | .cp q => (w.gain (hubAgent (w.cpAgent q)) cov).setQueue q fun u => { u with jobs := u.jobs.map fun j =>
      if j.id == id then { j with done := true, agent := agent, ref := ref, doneNs := w.ns } else j }
  | _ => w

def W.copy (w : W) (id : Nat) : Option Copy := w.m.hub.copies.find? fun c => c.id == id
def W.setCopy (w : W) (id : Nat) (f : Copy → Copy) : W := w.setHub fun h => { h with copies := h.copies.map fun c => if c.id == id then f c else c }

/-- The address of row i of a copy's operand. -/
def rowAt (a : W64) (stride i : Nat) : W64 := a + BitVec.ofNat 64 (i * stride)
/-- Number of destination pieces of a copy. -/
def Copy.total (c : Copy) : Nat :=
  (List.range c.rows).foldl (fun n i => n + pieceCount (rowAt c.dst c.dstr i).toNat c.len) 0
/-- Every piece has been written. -/
def Copy.complete (c : Copy) : Bool := decide (c.total ≤ c.done.length)

/-- The region of an operation's issuer: where it runs, or as its saved task holds it (R365). -/
def W.opRegion (w : W) (src : Src) (r : Nat) : Region :=
  match src with
  | .task p e _ => (tgetD (w.part p).saved e {}).region
  | _ => w.region r
/-- A communicator's entry is registered and well formed, of NRANKS, MYRANK and its zeros, and so is its member array: device ids and partitions with other bits
zero, no device twice (R406). -/
def commEntryOk (bs : List Byte) : Bool :=
  let f (lo n : Nat) : Nat := leNat ((bs.drop lo).take n)
  decide (1 ≤ f 0 2 ∧ f 0 2 ≤ 8192 ∧ f 2 2 < f 0 2 ∧ f 8 8 + 4 * f 0 2 ≤ scratchBase) && f 4 4 == 0 && f 16 48 == 0
def commMembersOk (n : Nat) (bs : List Byte) : Bool :=
  let ms := (List.range n).map fun i => leNat ((bs.drop (4 * i)).take 4)
  ms.all (fun m => m / 2 ^ 13 % 8 == 0 && m / 2 ^ 20 == 0) && decide ((ms.map (· % 2 ^ 13)).eraseDups.length = n)

/-- A sequencer's bad descriptor is its own cause, a packet's is 0x0F1 (R268, R406). -/
def W.badOperand (w : W) (c : Coll) (code : Nat) : W :=
  match c.src with
  | .seq q _ => w.raiseSeq q code
  | .cp _ => w.raiseHub c.part 0x0F1 c.agent
  | _ => w.engFault c.part c.src code c.agent c.num 0 c.ref

/-- ENGINE_POP (R100, R131, R390): an engine takes the oldest request that an agent has sent it and not seen taken, of those presented on one cycle that of
the lower agent id first, and writes a pennant of KIND 0x30. A collective is popped while fewer than 64 run, with its communicator's entry read (R406, R408). -/
def execEnginePop (eng agent : Nat) (s : State) : Res :=
  run s fun w =>
    let pop (w : W) (part from' : Nat) (ref : W32) (step : Nat) : W × W32 :=
      w.pennant (engRing eng) part {
        waiter := w.engAgent eng, producer := from', pref := ref, start := w.ns, arrival := w.ns, stop := w.ns, kind := 0x30, step := step }
    if eng = 48 then
      match w.m.hub.colls.find? fun c => c.agent == agent && !c.popped with
      | none => w
      | some c =>
        if (w.part c.part).halted || decide (64 ≤ (w.m.hub.colls.filter (·.popped)).length) ||
            w.m.hub.colls.any fun x => !x.popped && decide (x.sent = c.sent ∧ x.agent < agent) then w
        else
          let slot := field c.ctl 15 0
          let va := BitVec.ofNat 64 (w.fld (Bar.partComm c.part) 55 11 * 2 ^ 11 + 64 * slot)
          -- the entry and then its member array, each with an acquire at PKG scope
          let entry := w.engSpan 48 c.part va 64 4
          let both : W × Except EngStop (List Byte × List Byte) := match entry with
            | (w, .ok bs) =>
              if !commEntryOk bs then (w, .ok (bs, []))
              else match w.engSpan 48 c.part (BitVec.ofNat 64 (leNat ((bs.drop 8).take 8))) (4 * leNat (bs.take 2)) 4 with
                | (w, .ok ms) => (w, .ok (bs, ms))
                | (w, .error e) => (w, .error e)
            | (w, .error e) => (w, .error e)
          match both with
          | (w', .error .wait) => w.onlyWalks w'
          | (w, .error (.fault code va)) => w.engFault c.part c.src code w.collAgent c.num va c.ref
          | (w, .ok (bs, ms)) =>
            let f (lo n : Nat) : Nat := leNat ((bs.drop lo).take n)
            let ok := commEntryOk bs && commMembersOk (f 0 2) ms && (field c.ctl 23 16 != 4 || decide (field c.ctl 63 48 < f 0 2))
            let (sn, rn) := collSpan c.ctl c.count (f 0 2)
            let g := w.opRegion c.src c.region
            if !ok then w.badOperand c 0x165
            else if (match c.src with | .cp _ => false | _ => !operandOk g c.send sn || !operandOk g c.recv rn) then
              w.badOperand c 0x161
            else
              let (w, ref) := pop w c.part c.agent c.ref c.step
              let (w, feed) := w.pickFeed c.src c.region c.recv
              let key := c.part * 32 + slot
              let k := tgetD w.m.hub.collNo key 0
              w.setHub fun h => { h with
                collNo := tput h.collNo key (k + 1)
                colls := h.colls.map fun x => if x.id == c.id then { x with popped := true, popRef := ref, k := k, ranks := f 0 2, me := f 2 2, feed := feed } else x }
    else
      match w.m.hub.copies.find? fun c => c.eng == eng && c.agent == agent && !c.popped with
      | none => w
      | some c =>
        if (w.part c.part).halted || w.m.hub.copies.any fun x => x.eng == eng && !x.popped && decide (x.sent = c.sent ∧ x.agent < agent) then w
        else
          let (w, ref) := pop w c.part c.agent c.ref c.step
          let (w, feed) := if c.redop = 0 && !c.landen then w.pickFeed c.src c.region c.dst else (w, none)
          w.setCopy c.id fun c => { c with popped := true, popRef := ref, feed := feed }

/-- The source sectors, by their numbers in a row at address a, that bytes [lo, lo + n) of the row come from (R101). -/
def sourceParts (a lo n : Nat) : List Nat := (List.range ((a + lo + n - 1) / 64 - (a + lo) / 64 + 1)).map fun i => (a + lo) / 64 - a / 64 + i
/-- A byte of a row of a copy, from the source sectors that it has read. -/
def Copy.byteOf (c : Copy) (row o : Nat) : Byte :=
  let a := (rowAt c.from' c.sstr row).toNat
  let j := (a + o) / 64 - a / 64
  (tgetD c.reads (row * 2 ^ 36 + j) 0).extractLsb' (8 * (o - (pieceAt a c.len j).1)) 8
/-- A source sector's part of a row is still needed: by a piece not yet written. -/
def Copy.needsPart (c : Copy) (key : Nat) : Bool :=
  let row := key / 2 ^ 36
  let (o, n) := pieceAt (rowAt c.from' c.sstr row).toNat c.len (key % 2 ^ 36)
  (sourceParts (rowAt c.dst c.dstr row).toNat o n).any fun j => !c.done.contains (row * 2 ^ 36 + j)
/-- Every piece before piece n of a copy has been written. -/
def Copy.upTo (c : Copy) (n : Nat) : Bool :=
  decide (c.done.length = (List.range (n / 2 ^ 36)).foldl (fun k i => k + pieceCount (rowAt c.dst c.dstr i).toNat c.len) (n % 2 ^ 36))
/-- The span of a copy's destination, and its number of tiles (R80). -/
def Copy.span (c : Copy) : Nat := (c.rows - 1) * c.dstr + c.len
def Copy.tiles (c : Copy) : Nat := if c.landen then (c.span + 0x3FFF) / 0x4000 else 0
/-- Bytes that a collective's RECV receives, those that its SEND holds, and the number of RECV's pieces. -/
def Coll.recvLen (c : Coll) : Nat := (collSpan c.ctl c.count c.ranks).2
def Coll.sendLen (c : Coll) : Nat := (collSpan c.ctl c.count c.ranks).1
def Coll.total (c : Coll) : Nat := if c.recvLen = 0 then 0 else pieceCount c.recv.toNat c.recvLen
/-- An earlier request of a stream to an engine still has tokens to send to a fabric element: responses arrive in request order on each stream (R100). -/
def W.earlierFeeds (w : W) (src : Src) (eng num : Nat) : Bool :=
  (w.m.hub.copies.any fun c => c.src == src && c.eng == eng && decide (c.num < num) && (c.feed.isSome && !c.complete || decide (c.landed < c.tiles))) ||
  (eng == 48 && w.m.hub.colls.any fun c => c.src == src && decide (c.num < num) && c.feed.isSome && decide (c.done.length < c.total))

/-- A byte of the destination lies in the source too: what a copy leaves there is unspecified (R267). -/
def Copy.overlaps (c : Copy) (a : W64) : Bool := (List.range c.rows).any fun i => decide ((a - rowAt c.from' c.sstr i).toNat < c.len)
/-- The bytes that a copy writes from byte off of row i on: those of its source, free ones where source and destination overlap (R267; log 13). -/
def W.copyBytes (w : W) (c : Copy) (i off len : Nat) : W × List Byte :=
  let d := rowAt c.dst c.dstr i + BitVec.ofNat 64 off
  let twice := (List.range len).map fun b => c.overlaps (d + BitVec.ofNat 64 b)
  let bs := (List.range len).map fun b => c.byteOf i (off + b)
  if !twice.any id then (w, bs)
  else
    let x := Config.freeWord w.m.draw
    (w.setM fun m => { m with draw := m.draw + 1 }, (List.range len).map fun b => if twice.getD b false then x.extractLsb' (8 * b) 8 else bs.getD b 0)

/-- COPY_SECTOR (R101, R104): piece n = row × 2^36 + j of a copy: its source is read sector by sector, each once and in one access, and on a further turn it is
written, once its order allows. `bad` says that DRAM returned an uncorrectable error for what is read: 0x370 (R354). -/
def execCopySector (id n : Nat) (bad : Bool) (s : State) : Res :=
  run s fun w =>
    match w.copy id with
    | none => w
    | some c =>
      let i := n / 2 ^ 36
      let d := rowAt c.dst c.dstr i
      let a := rowAt c.from' c.sstr i
      let agent := w.engAgent c.eng
      let (off, len) := pieceAt d.toNat c.len (n % 2 ^ 36)
      let inRange := decide (i < c.rows ∧ n % 2 ^ 36 < pieceCount d.toNat c.len)
      if !c.popped || !inRange || c.done.contains n || (w.part c.part).halted then w
      else match (sourceParts a.toNat off len).find? fun j => (tget c.reads (i * 2 ^ 36 + j)).isNone with
        | some j =>
          let (o, k) := pieceAt a.toNat c.len j
          let va := a + BitVec.ofNat 64 o
          if bad && !isBank va then w.engFault c.part c.src 0x370 agent c.num va c.popRef
          else match w.engRead c.eng c.part c.src c.region va k with
            | (w, .error .wait) => w
            | (w, .error (.fault code va)) => w.engFault c.part c.src code agent c.num va c.popRef
            | (w, .ok bs) => w.setCopy id fun c => { c with reads := tput c.reads (i * 2 ^ 36 + j) (BitVec.ofNat 512 (leNat bs)) }
        | none =>
          let (w', bs) := w.copyBytes c i off len
          let wrote (w : W) (x : EngWrote) : W := w.setCopy id fun c =>
            let c := { c with done := n :: c.done, writes := x.ids ++ c.writes, scope := max c.scope x.scope }
            { c with reads := c.reads.filter fun x => c.needsPart x.1 }
          if !w.mayWrite c.src c.num c.fence c.ord then w
          else match c.feed, c.src with
            | some sl, .seq _ _ =>
              let e : ERef := ⟨c.region, bankCell d, sl⟩
              w.guard (c.upTo n && !w.earlierFeeds c.src c.eng c.num && w.feedable e true) fun w =>
                wrote (w'.feed e true (fedToken bs (w.engRel c.eng c.scope c.src c.agent c.region c.popRef c.step))) {}
            | some _, _ => w
            | none, _ =>
              let red := if c.redop = 0 then none else some (c.redop - 1, c.fmt)
              match w'.engWrite c.eng c.part id c.src c.region (c.agent / 2 ^ 16 % 8) (d + BitVec.ofNat 64 off) bs red (if red.isSome then .atomic else .write) with
              | (w, .error .wait) => w
              | (w, .error (.fault code va)) => w.engFault c.part c.src code agent c.num va c.popRef
              | (w, .ok x) => wrote (w.lateFlags c.part x.flags) x

/-! ## Landing tokens (R80) -/

/-- Every piece of a copy that falls in tile k is in the bank. -/
def Copy.tileIn (c : Copy) (k : Nat) : Bool :=
  let lo := c.dst.toNat + 0x4000 * k
  (List.range c.rows).all fun i =>
    let a := (rowAt c.dst c.dstr i).toNat
    (List.range (pieceCount a c.len)).all fun j =>
      let (off, len) := pieceAt a c.len j
      !decide (a + off < lo + 0x4000 ∧ lo < a + off + len) || c.done.contains (i * 2 ^ 36 + j)

/-- LAND_TOKEN_EMIT: the engine sends the next tile's token to the LAND element, in ascending tile index, once the tile is wholly in the bank, and after the tokens
of earlier requests of its stream (R100); it is a release that carries the engine's reference. -/
def execLandTokenEmit (id : Nat) (s : State) : Res :=
  run s fun w =>
    match w.copy id with
    | none => w
    | some c =>
      let e : ERef := ⟨c.region, c.lcell, c.lslot⟩
      let running := match c.src with | .task _ _ _ => false | _ => true
      w.guard (running && c.popped && !(w.part c.part).halted && decide (c.landed < c.tiles) && c.tileIn c.landed && !w.earlierFeeds c.src c.eng c.num) fun w =>
        if !w.onEdge (w.region e.r) e.cell then w.wakeAt e.r e.cell
        else w.guard (w.feedable e false) fun w =>
          let base := bankOffset c.dst
          let tok : Token := {
            data := (lowLanes [base + 0x4000 * c.landed, c.landed, min 0x4000 (c.span - 0x4000 * c.landed)]).data
            rel := some (w.engRel c.eng c.scope c.src c.agent c.region c.popRef c.step) }
          (w.feed e false tok).setCopy id fun c => { c with landed := c.landed + 1 }

/-! ## Stamps (R102, R267) -/

/-- Write a completion word as a release of an engine for a copy or collective: a stamp, or a collective's signal; the further copies of a REPLICA page each at its
own time (R99). It gives the writes. -/
def W.engRelease (w : W) (eng owner part : Nat) (va : W64) (v : Nat) (add : Bool) (rel : Rel) : W × Except EngStop (List Nat) :=
  let e := w.engEye eng
  match w.placed (.engine eng) part va 8 (if add then .atomic else .write) (if add then .home else if e.die < 4 then .near e.die else .dies) 0xF with
  | (w, .error x) => (w, .error (engStop va x))
  | (w, .ok (_, ps, _)) =>
    let key := (ps.headD {}).key
    if !w.homeOpen e key then (w, .error .wait)
    else
      let old := leNat (w.bytes key 8)
      let w := if add then w.learn e 0 0 (w.sources e true { key := key, len := 8 }) else w
      let (w, ids) := w.spread e owner part rel (ps.map (·.key)) (leBytes 8 (if add then old + v else v))
      (w, .ok ids)
/-- Nothing that an engine has sent for a copy or collective is still to be written. -/
def W.ownedDone (w : W) (owner : Nat) : Bool := w.m.bus.reqs.all fun r => r.owner != owner

/-- A copy whose stamp has been performed: its tag is set, and it retires with its payload (R102, R254). -/
def W.copyEnds (w : W) (c : Copy) (ids : List Nat) : W :=
  let all := ids ++ c.writes
  ((w.noteStamp { src := c.src, num := c.num, scope := c.scope, agent := c.agent, reg := (issuerEye c.src c.agent c.region).reg, ids := all }).setHub fun h =>
    { h with copies := h.copies.filter fun x => x.id != c.id }).opDone c.src c.id c.tag (w.engAgent c.eng) c.popRef (w.coverIds all)

/-- COPY_STAMP: the stamp of a copy whose payload and LAND tokens have been performed at its scope is written; when it has been performed in its turn, on a further
turn, or at once inside the sequencer, the copy's tag is set and it retires (R102, R254, R267). -/
def execCopyStamp (id : Nat) (s : State) : Res :=
  run s fun w =>
    match w.copy id with
    | none => w
    | some c =>
      let me := issuerEye c.src c.agent c.region
      if (w.part c.part).halted || !w.ownedDone id then w
      else match c.ends with
        | some ids => w.guard (w.performed me c.scope (ids ++ c.writes) {}) fun w => w.copyEnds c ids
        | none =>
          if !c.popped || !c.complete || decide (c.landed < c.tiles) || !w.performed me c.scope c.writes {} then w
          else if c.stamp = 0 then w.copyEnds c []
          else match w.engRelease c.eng id c.part c.stamp c.num false (w.engRel c.eng c.scope c.src c.agent c.region c.popRef c.step) with
            | (w', .error .wait) => w.onlyWalks w'
            | (w, .error (.fault code va)) => w.engFault c.part c.src code (w.engAgent c.eng) c.num va c.popRef
            | (w, .ok ids) => w.setCopy id fun c => { c with ends := some ids }

/-! ## Collectives (R407, R408) -/

def Coll.op (c : Coll) : Nat := field c.ctl 23 16
def Coll.redop (c : Coll) : Nat := field c.ctl 31 24
def Coll.fmt (c : Coll) : Nat := field c.ctl 35 32
def Coll.root (c : Coll) : Nat := field c.ctl 63 48
/-- The bits of a block of COUNT elements, and of an element. -/
def Coll.width (c : Coll) : Nat := collWidth c.fmt
def Coll.bits (c : Coll) : Nat := c.count * c.width
/-- Element i of SEND of rank r, another device's, is free (R407; log 12). -/
def Coll.theirs (c : Coll) (r i : Nat) : Nat := Config.peerData c.part (field c.ctl 15 0) c.k r i

/-- A byte of SEND, from the sectors read. -/
def Coll.sendByte (c : Coll) (o : Nat) : Byte :=
  let j := (c.send.toNat + o) / 64 - c.send.toNat / 64
  (tgetD c.reads j 0).extractLsb' (8 * (o - (pieceAt c.send.toNat c.sendLen j).1)) 8
/-- Element i of the reduced array, over every rank in ascending order: this rank's from SEND at element s, the others' free (R407). -/
def Coll.reduced (c : Coll) (i s : Nat) : Nat × Flags :=
  let size := max (c.width / 8) 1
  let mine := leNat ((List.range size).map fun b => c.sendByte (size * s + b))
  let v (r : Nat) : Nat := if r = c.me then mine else c.theirs r i % 2 ^ c.width
  (List.range (c.ranks - 1)).foldl (fun (acc : Nat × Flags) r =>
    let (x, f) := redElem c.fmt (c.redop - 1) acc.1 (v (r + 1))
    (x, acc.2 ||| f)) (v 0, 0)
/-- Bit b of RECV of an operation that copies: an element's place may end within a byte, and the bits of the last byte that no element reaches are free (R407; log 80). -/
def Coll.copied (c : Coll) (b : Nat) : Bool :=
  let q := if c.op = 1 then b / c.bits else c.root
  let o := if c.op = 1 then b % c.bits else b
  if (if c.op = 1 then c.ranks * c.bits else c.bits) ≤ b then (c.theirs c.me (c.count + b)).testBit 0
  else if q = c.me then (c.sendByte (o / 8)).getLsbD (o % 8) else (c.theirs q (o / c.width)).testBit (o % c.width)
/-- The bytes [lo, lo + len) of RECV, with the flags of every step that the engine takes for them: of REDUCESCATTER, those of the other ranks' blocks too (R407). -/
def Coll.result (c : Coll) (lo len : Nat) : List Byte × Flags :=
  let size := max (c.width / 8) 1
  let one (b : Nat) : Byte × Flags :=
    let e := b / size
    let pick (v : Nat) : Byte := BitVec.ofNat 8 (v / 2 ^ (8 * (b % size)))
    if c.op = 2 then
      (pick (c.reduced (c.me * c.count + e) (c.me * c.count + e)).1,
       (List.range c.ranks).foldl (fun f q => f ||| (c.reduced (q * c.count + e) (q * c.count + e)).2) 0)
    else if c.op = 3 then let x := c.reduced e e; (pick x.1, x.2)
    else (BitVec.ofNat 8 (packFields ((List.range 8).map fun i => (1, if c.copied (8 * b + i) then 1 else 0))), 0)
  let bs := (List.range len).map fun i => one (lo + i)
  (bs.map (·.1), bs.foldl (fun f x => f ||| x.2) 0)

/-- The bytes of SEND, as offset and length, that the bytes [lo, lo + len) of RECV need of this rank: whole elements. -/
def Coll.needs (c : Coll) (lo len : Nat) : List (Nat × Nat) :=
  let size := max (c.width / 8) 1
  let a := lo / size * size
  let n := (lo + len + size - 1) / size * size - a
  match c.op with
  | 1 =>
    let a := max (8 * lo) (c.me * c.bits)
    let b := min (8 * (lo + len)) ((c.me + 1) * c.bits)
    if a < b then [((a - c.me * c.bits) / 8, (b - c.me * c.bits + 7) / 8 - (a - c.me * c.bits) / 8)] else []
  | 2 => (List.range c.ranks).map fun q => (q * (c.count * size) + a, n)
  | 3 => [(a, n)]
  | _ => if c.me = c.root then [(lo, len)] else []

/-- The scope of a communicator's completion: PKG for one rank, SYS when it spans devices (R104). -/
def Coll.scope (c : Coll) : Nat := if c.ranks ≤ 1 then 4 else 5

/-- A collective whose completion has been performed: its tag is set and it retires, or its packet's work is done (R104, R254). -/
def W.collEnds (w : W) (c : Coll) (ids : List Nat) : W :=
  let all := ids ++ c.writes
  ((w.noteStamp { src := c.src, num := c.num, scope := c.scope, agent := c.agent, reg := (issuerEye c.src c.agent c.region).reg, ids := all }).setHub fun h =>
    { h with colls := h.colls.filter fun x => x.id != c.id }).opDone c.src c.id c.tag w.collAgent c.popRef (w.coverIds all)
/-- The completion release of a collective: its stamp and, from a descriptor, its signal (log 25). -/
def W.collRelease (w : W) (c : Coll) : W × Except EngStop (List Nat) :=
  let rel := w.engRel 48 c.scope c.src c.agent c.region c.popRef c.step
  let sigop := match c.src with | .cp _ => 0 | _ => field c.ctl 37 36
  match if c.stamp = 0 then (w, .ok []) else w.engRelease 48 c.id c.part c.stamp c.num false rel with
  | (w, .ok ids) => if sigop = 0 then (w, .ok ids) else match w.engRelease 48 c.id c.part c.sig c.sigval.toNat (sigop == 2) rel with
    | (w, .ok more) => (w, .ok (more ++ ids))
    | e => e
  | e => e

/-- COLLECTIVE_COMPLETE: the engine reads the next sector of SEND that the piece in hand needs, or writes that piece of the result, in an order of its own; when all of
it has been performed it writes its completion, and retires when that has been performed. Mismatched members halt with 0x0F1. -/
def execCollectiveComplete (id : Nat) (s : State) : Res :=
  run s fun w =>
    match w.m.hub.colls.find? fun c => c.id == id with
    | none => w
    | some c =>
      let set (w : W) (f : Coll → Coll) : W := w.setHub fun h => { h with colls := h.colls.map fun x => if x.id == id then f x else x }
      let agent := w.collAgent
      let die := c.agent / 2 ^ 16 % 8
      let me := issuerEye c.src c.agent c.region
      if !c.popped || (w.part c.part).halted then w
      else if decide (1 < c.ranks) && !Config.peersMatch c.part (field c.ctl 15 0) c.k then w.engFault c.part c.src 0x0F1 agent c.num 0 c.popRef
      else
        let left := (List.range c.total).filter fun j => !c.done.contains j
        if left.isEmpty then
          w.guard (w.ownedDone id) fun w => match c.ends with
            | some ids => w.guard (w.performed me c.scope (ids ++ c.writes) {}) fun w => w.collEnds c ids
            | none => w.guard (w.performed me c.scope c.writes {}) fun w => match w.collRelease c with
              | (w', .error .wait) => w.onlyWalks w'
              | (_, .error (.fault code va)) => w.engFault c.part c.src code agent c.num va c.popRef
              | (w, .ok []) => w.collEnds c []
              | (w, .ok ids) => set w fun c => { c with ends := some ids }
        else
          let (w, pick) := match c.piece with
            | some j => (w, j)
            | none =>
              let (w, n) := if c.feed.isSome then (w, 0) else w.freeBelow left.length
              (set w fun c => { c with piece := some (left.getD n 0) }, left.getD n 0)
          let (off, len) := pieceAt c.recv.toNat c.recvLen pick
          let parts := (c.needs off len).flatMap fun x => if x.2 = 0 then [] else sourceParts c.send.toNat x.1 x.2
          match parts.find? fun j => (tget c.reads j).isNone with
          | some j =>
            let (o, n) := pieceAt c.send.toNat c.sendLen j
            match w.engRead 48 c.part c.src c.region (c.send + BitVec.ofNat 64 o) n with
            | (w, .error .wait) => w
            | (w, .error (.fault code va)) => w.engFault c.part c.src code agent c.num va c.popRef
            | (w, .ok bs) => set w fun c => { c with reads := tput c.reads j (BitVec.ofNat 512 (leNat bs)) }
          | none =>
            if !w.mayWrite c.src c.num c.fence c.ord then w
            else
              let (bs, fl) := c.result off len
              let wrote (w : W) (x : EngWrote) : W := set (w.lateFlags c.part fl) fun c =>
                { c with done := pick :: c.done, writes := x.ids ++ c.writes, piece := none, reads := [] }
              match c.feed, c.src with
              | some sl, .seq _ _ =>
                let e : ERef := ⟨c.region, bankCell c.recv, sl⟩
                w.guard (!w.earlierFeeds c.src 48 c.num && w.feedable e true) fun w =>
                  wrote (w.feed e true (fedToken bs (w.engRel 48 c.scope c.src c.agent c.region c.popRef c.step))) {}
              | some _, _ => w
              | none, _ =>
              match w.engWrite 48 c.part id c.src c.region die (c.recv + BitVec.ofNat 64 off) bs none
                  (if c.op = 2 ∨ c.op = 3 then .atomic else .write) with
              | (w, .error .wait) => w
              | (w, .error (.fault code va)) => w.engFault c.part c.src code agent c.num va c.popRef
              | (w, .ok x) => wrote w x

end Sys2Proof.Machine
end

