-- ==== Sys2Proof/Machine/Queues.lean ====
section
/-! DEFINITION. Sys2Proof/Machine/Queues.lean: the command processor: user-mode queues, packets, command graphs, completions, host rings and
interrupts (08_launch_and_queues.md R120 to R133, R296 to R298, 23_host_and_command_processor.md R347 to R349). -/

namespace Sys2Proof.Machine

/-! ## Accesses that may wait or fault -/

/-- A result with the working state, or why there is none yet. -/
abbrev Tried (α : Type) := W × Except EngStop α

/-- Go on after an access that was made. -/
def andThen {α β : Type} (x : Tried α) (f : W → α → Tried β) : Tried β :=
  match x with
  | (w, .ok a) => f w a
  | (w, .error e) => (w, .error e)

/-- The reference of a release that an acquire has obtained; 0 for none. -/
def refOf (x : Option (Rel × Nat × Nat)) : W32 := match x with | some (r, _, _) => r.ref | none => 0

/-- Read through the hub TLB for a hub agent, at a scope as an acquire: the bytes as the agent sees them, once it sees what they are after, with the release that the
read, or the first `by'` bytes of it, obtains (R122, R129, R96); DRAM's uncorrectable error is 0x370 (R354). -/
def W.hubGet (w : W) (src : Src) (part : Nat) (va : W64) (n : Nat) (a : Access := .read) (scope : Nat := 4) (by' : Nat := 64) : Tried (List Byte × Option (Rel × Nat × Nat)) :=
  match w.placed src part va n a .home 0xF with
  | (w, .error x) => (w, .error (engStop va x))
  | (w, .ok (_, ps, _)) =>
    let e := hubAgent (w.srcAgent src)
    if !ps.all fun p => w.wayOpen p.key && w.seesAll e (w.owed e scope (w.sources e false p)) then (w, .error .wait)
    else
      let w := w.countReqs 4 none (ps.map (·.key))
      if w.dramBad ps then (w, .error (.fault 0x370 va))
      else
        let p := ps.headD {}
        let got := w.acquired e scope p.key (min p.len by')
        let w := ps.foldl (fun w p => w.learn e 0 scope (w.sources e false p)) w
        (w, .ok (ps.flatMap fun p => w.viewBytes e p.key p.len, got))

/-- Write through the hub TLB for a hub agent, once the homes have no write of a higher id on this cycle (R94): the home's copies, and the further copies of a REPLICA
page each at its own time (R76, R99). It gives the writes. -/
def W.hubPut (w : W) (src : Src) (part : Nat) (va : W64) (rel : Rel) (bs : List Byte) : Tried (List Nat) :=
  match w.placed src part va bs.length .write .copies 0xF with
  | (w, .error x) => (w, .error (engStop va x))
  | (w, .ok (ls, ps, _)) =>
    let e := hubAgent (w.srcAgent src)
    let parts := ((ps.map (·.off)).eraseDups).map fun o => ps.filter (·.off == o)
    if !parts.all fun qs => w.homeOpen e (qs.headD {}).key then (w, .error .wait)
    else
      let rel := if rel.scope ≠ 0 ∧ ls.any (fun l => decide (3 ≤ l.place)) then { rel with scope := 5 } else rel
      let (w, ids) := parts.foldl (fun (acc : W × List Nat) qs =>
        let p := qs.headD {}
        let (w, ids) := acc.1.spread e 0 part rel (qs.map (·.key)) ((bs.drop p.off).take p.len)
        (w, ids ++ acc.2)) (w, [])
      (w, .ok ids)

/-- Perform a signal: op 1 stores and op 2 adds, as a release at a scope, SYS for HOST and PEER pages (R124, R127); a SIGNAL packet that names less for such a
page is out of range. It gives the writes. -/
def W.hubSignal (w : W) (src : Src) (part : Nat) (va : W64) (op : Nat) (v : W64) (rel : Rel) (strict : Bool) : Tried (List Nat) :=
  match w.placed src part va 8 (if op = 2 then .atomic else .write) (if op = 2 then .home else .copies) 0xF with
  | (w, .error x) => (w, .error (engStop va x))
  | (w, .ok (ls, ps, _)) =>
    let out := ls.any fun l => decide (3 ≤ l.place)
    let e := hubAgent (w.srcAgent src)
    let key := (ps.headD {}).key
    if strict && out && rel.scope != 5 then (w, .error (.fault 0x0F1 va))
    else if !w.homeOpen e key then (w, .error .wait)
    else
      let rel := if out then { rel with scope := 5 } else rel
      let old := leNat (w.bytes key 8)
      let w := if op = 2 then w.learn e 0 0 (w.sources e true { key := key, len := 8 }) else w
      let (w, ids) := w.spread e 0 part rel (ps.map (·.key)) (leBytes 8 (if op = 2 then old + v.toNat else v.toNat))
      (w, .ok ids)

/-! ### Long reads (R297, R309, R311) -/

/-- A sector of a long read of a reader: as it was read, or read now, an acquire at PKG scope. The readers pause after a free number of sectors, and time may
pass there: sectors may come from different writes (R297, R311; log 82). -/
def W.holdSector (w : W) (who : Nat) (src : Src) (part sec : Nat) (a : Access) : Tried Held :=
  match tget (tgetD w.m.hub.memo who []) sec with
  | some h => (w, .ok h)
  | none =>
    if w.m.hub.burst = 0 then
      ((w.setHub fun h => { h with burst := 1 + Config.freeNat w.m.draw }).setM fun m => { m with draw := m.draw + 1 }, .error .wait)
    else match w.placed src part (BitVec.ofNat 64 (64 * sec)) 64 a .home 0xF with
      | (w, .error x) => (w, .error (engStop (BitVec.ofNat 64 (64 * sec)) x))
      | (w, .ok (_, ps, _)) =>
        let p := ps.headD {}
        let e := hubAgent (w.srcAgent src)
        let us := w.sources e false p
        if w.dramBad ps then (w.countReqs 4 none [p.key], .error (.fault 0x370 (BitVec.ofNat 64 (64 * sec))))
        else if !w.seesAll e (w.owed e 4 us) then (w, .error .wait)
        else
          let got := match w.acquired e 4 p.key 64 with | some (r, _, n) => (r.ref, n) | none => (0, 0)
          let h : Held := { data := BitVec.ofNat 512 (leNat (w.viewBytes e p.key 64)), ref := got.1, num := got.2, key := p.key, cov := w.throughAll e us }
          (w.setHub fun x => { x with memo := tput x.memo who (tput (tgetD x.memo who []) sec h), burst := x.burst - 1 }, .ok h)
/-- A long read's sectors that have not been read are read, in a free order. -/
def W.holdSectors (w : W) (who : Nat) (src : Src) (part : Nat) (a : Access) : Nat → List Nat → Tried Unit
  | 0, _ => (w, .ok ())
  | _ + 1, [] => (w, .ok ())
  | n + 1, left =>
    let sec := left.getD (Config.freeNat w.m.draw % left.length) 0
    let w := if left.length = 1 then w else w.setM fun m => { m with draw := m.draw + 1 }
    andThen (w.holdSector who src part sec a) fun w _ => w.holdSectors who src part a n (left.erase sec)
/-- A long read's bytes, sector by sector. -/
def W.longGet (w : W) (who : Nat) (src : Src) (part : Nat) (va : W64) (n : Nat) (a : Access) : Tried (List Byte) :=
  let parts := sectorsOf va.toNat n
  let left := (parts.map fun s => s.1 / 64).filter fun sec => (tget (tgetD w.m.hub.memo who []) sec).isNone
  andThen (w.holdSectors who src part a left.length left) fun w _ =>
    (w, .ok (parts.flatMap fun s => ((leBytes 64 (tgetD (tgetD w.m.hub.memo who []) (s.1 / 64) {}).data.toNat).drop (s.1 % 64)).take s.2.2))
/-- A long read is over: its sectors are counted (R81), they are before what its agent does next, and the newest reference that it has obtained (0: none). -/
def W.longDone (w : W) (who : Nat) (src : Src) : W × W32 :=
  let hs := (tgetD w.m.hub.memo who []).map (·.2)
  let w := w.countReqs 4 none (hs.map (·.key))
  let w := w.gain (hubAgent (w.srcAgent src)) ((hs.foldl (fun (c : Cov) h => c.join h.cov) {}).narrow 4)
  (w.setHub fun h => { h with memo := tdel h.memo who }, (hs.foldl (fun (r : Nat × W32) h => if h.ref != 0 && decide (r.1 ≤ h.num) then (h.num, h.ref) else r) (0, 0)).2)

/-- A queue's CP obtains a reference that an acquire carried; on a hub cycle on which it writes a pennant for the queue, the pennant is its latest (R92). -/
def W.cpRef (w : W) (q : Nat) (ref : W32) : W := w.setQueue q fun u => if u.pennAt = w.now + 1 then u else { u with ref := newer u.ref ref }
/-- A pennant of a queue's CP, in the CP's ring (R131), which becomes its latest reference for the queue. -/
def W.cpPennant (w : W) (q part kind producer : Nat) (pref : W32) (start arrival step : Nat) : W :=
  let (w, ref) := w.pennant 0xF0 part {
    waiter := w.cpAgent q, producer := producer, pref := pref, start := start, arrival := arrival, stop := w.ns, kind := kind, step := step }
  w.setQueue q fun u => { u with ref := ref, pennAt := w.now + 1 }

/-- End an attempt of a queue's CP: what was done, nothing but the walks it asked for, or the fault. -/
def W.settle (w : W) (q part : Nat) (x : Tried Unit) : W :=
  match x with
  | (w', .ok ()) => w'
  | (w', .error .wait) => w.onlyWalks w'
  | (w', .error (.fault code va)) => (w.onlyWalks w').raiseHub part code (w.cpAgent q) 0 va (w.queue q).ref

/-! ## Packets (R123 to R126) -/

def Packet.f (p : Packet) (off n : Nat) : Nat := leNat ((p.bytes.drop off).take n)
def Packet.typ (p : Packet) : Nat := p.f 0 1
/-- Word i of bytes 16 to 63. -/
def Packet.word (p : Packet) (i : Nat) : W64 := BitVec.ofNat 64 (p.f (16 + 8 * i) 8)
def Packet.next (p : Packet) : W64 := BitVec.ofNat 64 (p.f 8 8)
/-- It issues only after every earlier packet has completed: BARRIER, COND, REARM, END (R127). -/
def Packet.barrier (p : Packet) : Bool := (p.f 1 1 % 2 == 1) || [6, 7, 9].contains p.typ

/-- What the fields of a packet ask of its check: that reserved and out-of-range fields are good, the addresses, and the alignments. -/
structure PacketCheck where
  ok    : Bool
  addrs : List W64
  align : List (W64 × Nat)

/-- SIGOP is in range, and a SIG word is aligned (R124). -/
def sigCheck (op : Nat) (sig : W64) : Bool × List (W64 × Nat) := (decide (op ≤ 2), [(sig, 8)])

/-- The check of each TYPE's words (R124). DESIGN CHOICE: bits that R124's table neither names nor calls zero (WAITSIG and COND word 32 bits 63:3, REARM word 24
bits 63:16, END word 40 bits 63:2) count as reserved fields: nonzero, they are 0x0F1 (log 50). -/
def Packet.checks (p : Packet) : PacketCheck :=
  let w := p.word
  match p.typ with
  | 1 =>
    let s := sigCheck (field (w 4) 41 40) (w 3)
    { ok := s.1 && field (w 4) 39 35 == 0 && field (w 4) 63 42 == 0, addrs := [w 0, w 1, w 3], align := (w 0, 64) :: s.2 }
  | 2 =>
    let s := sigCheck (field (w 5) 1 0) (w 3)
    let red := field (w 5) 15 8
    let fmt := field (w 5) 19 16
    { ok := s.1 && decide (1 ≤ (w 2).toNat ∧ (w 2).toNat ≤ 2 ^ 40) && field (w 5) 7 3 == 0 && field (w 5) 63 20 == 0 && decide (red ≤ 3) &&
        (if red = 0 then collWidth fmt != 0 else redAligned red fmt (w 2).toNat 1 (w 0) (w 1) 0 0)
      addrs := [w 0, w 1, w 3], align := s.2 }
  | 3 =>
    let s := sigCheck (field (w 5) 37 36) (w 3)
    { ok := s.1 && collCtlOk (w 5), addrs := [w 0, w 1, w 3], align := s.2 }
  | 4 =>
    let op := field (w 2) 1 0
    let sc := field (w 2) 4 2
    { ok := decide (1 ≤ op ∧ op ≤ 2 ∧ 2 ≤ sc ∧ sc ≤ 4) && field (w 2) 63 5 == 0 && w 3 == 0 && w 4 == 0 && w 5 == 0
      addrs := [w 0], align := [(w 0, 8)] }
  | 5 =>
    { ok := decide (field (w 2) 2 0 ≤ 5) && field (w 2) 63 3 == 0 && w 3 == 0 && w 4 == 0 && w 5 == 0, addrs := [w 0], align := [(w 0, 8)] }
  | 6 =>
    { ok := decide (field (w 2) 2 0 ≤ 5) && field (w 2) 63 3 == 0 && w 4 == 0 && w 5 == 0, addrs := [w 0, w 3], align := [(w 0, 8), (w 3, 64)] }
  | 7 =>
    { ok := decide (1 ≤ (w 1).toNat ∧ (w 1).toNat ≤ 4096) && w 2 == 0 && w 3 == 0 && w 4 == 0 && w 5 == 0, addrs := [w 0], align := [(w 0, 64)] }
  | 8 =>
    { ok := decide (64 ≤ (w 2).toNat ∧ (w 2).toNat ≤ 4096) && (w 2).toNat % 64 == 0 && w 3 == 0 && w 4 == 0 && w 5 == 0
      addrs := [w 0, w 1], align := [(w 0, 64)] }
  | _ =>
    let s := sigCheck (field (w 3) 1 0) (w 1)
    { ok := s.1 && field (w 3) 63 2 == 0 && w 4 == 0 && w 5 == 0, addrs := [w 0, w 1], align := (w 0, 64) :: s.2 }

/-- The code with which a packet halts the partition, if it breaks R123 to R126. DESIGN CHOICE: one that has a bad field and a misaligned address gives 0x0F1 (log 90). -/
def Packet.fault (p : Packet) : Option Nat :=
  if p.typ = 0 ∨ 9 < p.typ then some 0x0F0
  else
    let c := p.checks
    let hdr := p.f 1 1 / 2 == 0 && p.f 3 5 == 0 && (p.va != 0 || p.f 2 1 == 0)
    if !hdr || !c.ok || !((p.next :: c.addrs).all fun a => decide (a.toNat < 2 ^ 56)) then some 0x0F1
    else if !(((p.next, 64) :: c.align).all fun x => x.1.toNat % x.2 == 0) then some 0x0F2
    else none

/-- CMP (R124): 0 EQ, 1 NE, 2 GEU, 3 LTU, 4 GE, 5 LT. -/
def cmpWord (cmp : Nat) (word value : W64) : Bool :=
  match cmp with
  | 0 => word == value
  | 1 => word != value
  | 2 => decide (value.toNat ≤ word.toNat)
  | 3 => decide (word.toNat < value.toNat)
  | 4 => decide (value.toInt ≤ word.toInt)
  | _ => decide (word.toInt < value.toInt)

/-! ## Queues (R120 to R122, R128) -/

/-- The partition that owns a queue (R347). -/
def W.queuePart (w : W) (q : Nat) : Nat := w.fld (Bar.qCfg q) 62 59
/-- Neither the partition of a queue nor its CP, by a fault of its own, is stopped (R126, R355; log 76). -/
def W.cpRuns (w : W) (q : Nat) : Bool :=
  let p := w.part (w.queuePart q)
  !p.halted && !p.halts.any fun h => h.agent == w.cpAgent q
/-- The CP serves a queue and is not stopped. -/
def W.serves (w : W) (q : Nat) : Bool := (w.queue q).on && w.cpRuns q
/-- It stands at a packet that nothing of its own queue holds up: what it waits for from then on is its turn (R128). -/
def Queue.ready (u : Queue) : Bool := u.hold.isNone && (match u.cur with | some p => !p.barrier || u.jobs.isEmpty | none => false)
/-- A change of a queue; its wait starts when its packet becomes issuable by it (R128; log 50). -/
def W.stepQueue (w : W) (q : Nat) (f : Queue → Queue) : W :=
  w.setQueue q fun u => let v := f u; if !u.ready && v.ready then { v with since := w.ns } else v
/-- A packet of the queue is in issue or at its head (R360). -/
def Queue.busy (u : Queue) : Bool := !u.jobs.isEmpty || u.cur.isSome || u.head.isSome
/-- Nothing of the queue is in issue (R347). -/
def Queue.idle (u : Queue) : Bool := u.jobs.isEmpty && u.cur.isNone && u.next == 0

/-- A queue that is to stop becomes idle: EN reads 0 and IDLE 1 (R347, R356). -/
def W.queueIdle (w : W) (q : Nat) : W :=
  let u := w.queue q
  if u.stopping && u.idle then ((w.setQueue q fun u => { u with on := false, stopping := false, armed := false }).setFld (Bar.qCfg q) 63 63 0).setFld (Bar.qCfg q) 0 0 1
  else w

/-- WR_INDEX as read: the next slot becomes the queue's head when it has been claimed (R131), and the watchdog's timer starts if the queue was idle (R360). -/
def Queue.sawWr (u : Queue) (wr ns : Nat) : Queue :=
  let u' := { u with wr := wr }
  if u.head.isNone && decide (u.rd < wr) then (if u.busy then { u' with head := some ns } else { u' with head := some ns }.rise ns) else u'

/-- Read WR_INDEX of a queue again (R348). -/
def W.readWr (w : W) (q : Nat) : W :=
  w.settle q (w.queuePart q) (andThen (w.hubGet (.cp q) (w.queuePart q) (w.queue q).base 8) fun w x =>
    (w.setQueue q fun u => u.sawWr (leNat x.1) w.ns, .ok ()))

/-- WR_INDEX_MONITOR (R348): an armed monitor has seen a write to the sector of WR_INDEX. -/
def execWrIndexMonitor (q : Nat) (s : State) : Res :=
  run s fun w => w.guard (w.serves q && (w.queue q).armed) fun w => w.readWr q

/-- WR_INDEX_POLL (R348): every armed WR_INDEX is read again. -/
def execWrIndexPoll (s : State) : Res :=
  run s fun w => (w.m.queues.map (·.1)).foldl (fun w q => w.guard (w.serves q && (w.queue q).armed) fun w => w.readWr q) w

/-- The home of a queue's WR_INDEX is a die: its monitor watches there (R348). -/
def W.watchesDie (w : W) (q die : Nat) : W × Bool :=
  match w.hubFind (w.queuePart q) (w.queue q).base .read with
  | (w, some (l, off)) => (w, decide (keyHome (hubKey l off) = die))
  | (w, none) => (w, false)
/-- A task of the queue is saved and not yet restored: its monitor is not armed meanwhile (R348). -/
def Queue.away (u : Queue) : Bool := u.launches.any fun l => l.saved.isSome

/-- Its monitor may be armed: no task of the queue is saved, and the home of its WR_INDEX is not a die that is being retrained (R348). -/
def W.mayArm (w : W) (q : Nat) : W × Bool :=
  match w.hubFind (w.queuePart q) (w.queue q).base .read with
  | (w, some (l, off)) => (w, !(w.queue q).away && !w.m.hub.retrain.contains (keyHome (hubKey l off)))
  | (w, none) => (w, !(w.queue q).away)
/-- A monitor is armed where it may be. -/
def W.arm (w : W) (q : Nat) : W := let (w, ok) := w.mayArm q; w.setQueue q fun u => { u with armed := ok }

/-- DRAM_RETRAIN (R348): a die's DRAM is retrained or its controller reset, and the monitors whose WR_INDEX has its home there are not armed. -/
def execDramRetrain (die : Nat) (s : State) : Res :=
  run s fun w => (w.m.queues.map (·.1)).foldl (fun w q =>
    let (w, here) := w.watchesDie q die
    if here then w.setQueue q fun u => { u with armed := false } else w) (w.setHub fun h => { h with retrain := (h.retrain ++ [die]).eraseDups })

/-- DRAM_RETRAIN_END (R348): the monitors are armed again, and each affected WR_INDEX is read once. -/
def execDramRetrainEnd (die : Nat) (s : State) : Res :=
  run s fun w => (w.m.queues.map (·.1)).foldl (fun w q =>
    let (w, here) := w.watchesDie q die
    if here && w.serves q && !(w.queue q).away then (w.arm q).readWr q else w) (w.setHub fun h => { h with retrain := h.retrain.filter (· != die) })

/-- The word that a queue's CP reads at an address, and when, in ns, the last write to it became visible there (R131). -/
def W.hubWord (w : W) (q : Nat) (va : W64) : Option (Nat × Nat) :=
  match w.hubLookup (w.queuePart q) va .read with
  | .ok l off _ =>
    let k := hubKey l off / 8
    some (k, max (tgetD w.m.bus.shown k 0) (match w.relAt (hubAgent (w.cpAgent q)) k with | some (_, t, _) => t | none => 0))
  | _ => none
def W.shownAt (w : W) (q : Nat) (va : W64) : Nat := match w.hubWord q va with | some x => x.2 | none => w.ns
/-- The write to a word that a queue's CP reads there, as a pennant names it: agent, reference, step, when in ns (R131). A write that is no release has none, nor
has one that the machine has not recorded, of a word that nothing has written (log 66). -/
def W.writerOf (w : W) (q : Nat) (va : W64) : Nat × W32 × Nat × Nat :=
  match w.hubWord q va with
  | some (k, t) =>
    match w.relAt (hubAgent (w.cpAgent q)) k with
    | some (r, _, _) => if r.scope = 0 then (noAgentId, 0, 0, t) else (r.agent, r.ref, r.step, t)
    | none => (noAgentId, 0, 0, w.ns)
  | none => (noAgentId, 0, 0, w.ns)

/-- SLOT_TAKE (R122, R126, R129): the CP reaches the queue's next packet: the next node of the traversal, or else the slot at the head once its TYPE is visible,
whose header it clears before it writes RD_INDEX as a SYS release. A packet that breaks its rules halts the partition. DESIGN CHOICE: of a node whose STATE is not 0
and that breaks other rules as well, the code is 0x3F1 (log 91). DESIGN CHOICE: the producer of a slot whose header no release wrote is 0xFFFF_FFFF, as a WAITSIG's
(log 66). -/
def execSlotTake (q : Nat) (s : State) : Res :=
  run s fun w =>
    let u := w.queue q
    let part := w.queuePart q
    let reach (w : W) (p : Packet) : W :=
      match p.fault with
      | some c => w.raiseHub part c (w.cpAgent q) 0 0 u.ref
      | none => w.stepQueue q fun u => { u with cur := some p, barred := if p.barrier && !u.jobs.isEmpty then some w.ns else none }
    if !w.serves q || u.cur.isSome || u.hold.isSome then w
    else if u.next ≠ 0 then
      w.settle q part (andThen (w.hubGet (.cp q) part u.next 64) fun w x =>
        let p : Packet := { bytes := x.1, va := u.next }
        let w := w.setQueue q fun u => { u with next := 0 }
        let w := w.cpRef q (refOf x.2)
        (if p.f 2 1 ≠ 0 then w.raiseHub part 0x3F1 (w.cpAgent q) 0 u.next u.ref else reach w p, .ok ()))
    else if u.stopping || decide (u.wr ≤ u.rd) then w
    else
      let va := u.slotBase + BitVec.ofNat 64 (64 * (u.rd % max u.slots 1))
      w.settle q part (andThen (w.hubGet (.cp q) part va 64 .read 5 8) fun w x =>
        if leNat (x.1.take 1) = 0 then (w, .error .wait)
        else
          let (agent, ref, step, _) := w.writerOf q va
          let p : Packet := { bytes := x.1, agent := agent, ref := ref, step := step, head := u.head.getD w.ns, seen := w.shownAt q va }
          andThen (w.hubPut (.cp q) part va {} (leBytes 8 0)) fun w _ =>
          andThen (w.hubPut (.cp q) part (u.base + 8) { scope := 5, agent := w.cpAgent q, ref := u.ref, step := u.step } (leBytes 8 (u.rd + 1))) fun w _ =>
            (reach (w.setQueue q fun u => { u with rd := u.rd + 1, head := if u.rd + 1 < u.wr then some w.ns else none }) p, .ok ()))

/-! ## Issue (R127, R128, R131) -/

/-- A queue's base level: of a LAUNCH at its head its PRIO, else the queue's LEVEL; at most MAXPRIO (R128, R344). -/
def W.baseLevel (w : W) (q : Nat) (u : Queue) : Nat :=
  let level := w.fld (Bar.qCfg q) 58 56
  min (match u.cur with | some p => if p.typ = 1 then field (p.word 4) 34 32 else level | none => level) (w.fld (Bar.partCtl (w.queuePart q)) 21 19)
/-- A level raised by ageing. -/
def W.aged (w : W) (base since : Nat) : Nat := min 7 (base + (w.ns - since) / (1000 * max (w.fld Bar.devCfg 15 0) 1))

/-- The loader walks for the image of the LAUNCH that a queue stands at. -/
def Queue.imageWalk (u : Queue) (k : Walk) : Bool :=
  k.srcs.contains (.engine 49) && match u.cur with | some p => p.typ == 1 && decide (k.va.toNat / 2 ^ 16 = (p.word 0).toNat / 2 ^ 16) | none => false
/-- A queue has a packet that could issue now: it waits for no walk of its own. -/
def W.issuable (w : W) (q : Nat) : Bool :=
  w.serves q && (w.queue q).ready &&
  !w.m.mmu.walks.any fun k => k.part == w.queuePart q && (k.srcs.contains (.cp q) || (w.queue q).imageWalk k)

/-- It is the queue's turn: no issuable queue has a higher effective level, and among equals it comes next in the round (R128). DESIGN CHOICE: one round serves all
levels, and after reset it stands at queue 0, so that queue 1 comes first (log 92). -/
def W.cpTurn (w : W) (q : Nat) : Bool :=
  let level (x : Nat) : Nat := w.aged (w.baseLevel x (w.queue x)) (w.queue x).since
  let place (x : Nat) : Nat := (x + 1024 * 2 - 1 - w.m.hub.rrQueue) % 1024
  w.issuable q && w.m.queues.all fun x => !w.issuable x.1 ||
    decide (level x.1 < level q ∨ (level x.1 = level q ∧ place q ≤ place x.1))

/-- The head of an issue: the packet's pennants, that of its pop last, for its work carries the pop's reference (R131), and its job, under a fresh number; the queue
goes on to its NEXT (R127). A pop that does not wait has three equal times. DESIGN CHOICE: the work of a graph's node, which is not popped, carries the CP's latest
reference (log 93). -/
def W.issueHead (w : W) (q : Nat) (p : Packet) : W × Nat :=
  let part := w.queuePart q
  let u := w.queue q
  let w1 := match u.barred with
    | some b => w.cpPennant q part 0x21 u.last.1 u.last.2.1 b u.last.2.2.1 u.last.2.2.2
    | none => w
  let w1 := if p.va = 0 then
      (w1.cpPennant q part 0x20 p.agent p.ref p.head (if p.head = w.ns then w.ns else p.seen) p.step).setQueue q fun u => { u with step := p.step }
    else w1
  let (w1, id) := w1.fresh
  let w1 := w1.setHub fun h => { h with rrQueue := q }
  let job : Job := { id := id, typ := p.typ, node := p.va, startNs := w1.ns }
  (w1.setQueue q fun u => { u with
    cur := none, barred := none, next := p.next, since := w1.ns, jobs := u.jobs ++ [{ job with step := u.step, agent := w1.cpAgent q, ref := u.ref }] }, id)

/-- The node's STATE = 1 of a packet of a graph (R126). -/
def W.nodeBusy (w : W) (q : Nat) (p : Packet) : Tried (List Nat) := if p.va = 0 then (w, .ok []) else w.hubPut (.cp q) (w.queuePart q) (p.va + 2) {} [1]

/-- Issue the packet at a queue's head, of a TYPE: its pennants, its job, its node's STATE; `f` does its work, given the packet and the job's number. Nothing of it
happens while one of its accesses waits for a translation. -/
def W.issuePacket (w : W) (q typ : Nat) (f : Packet → Nat → W → Tried Unit) : W :=
  match (w.queue q).cur with
  | none => w
  | some p =>
    if p.typ ≠ typ ∨ !w.cpTurn q then w
    else
      let (w1, id) := w.issueHead q p
      w.settle q (w.queuePart q) (andThen (w1.nodeBusy q p) fun w _ => f p id w)

def W.setJob (w : W) (q id : Nat) (f : Job → Job) : W :=
  w.setQueue q fun u => { u with jobs := u.jobs.map fun j => if j.id == id then f j else j }
/-- A packet's work is over, by the CP itself, with its latest reference. -/
def W.jobOver (w : W) (q id : Nat) : W := w.setJob q id fun j => { j with done := true, doneNs := w.ns, ref := (w.queue q).ref }

/-- A job leaves its queue as completed: the last completion, and progress (R127, R360). -/
def W.jobGone (w : W) (q : Nat) (j : Job) : W :=
  (w.stepQueue q fun u => { u with
    jobs := u.jobs.filter fun x => x.id != j.id, last := (j.agent, j.ref, w.ns, j.step) }.rise w.ns).queueIdle q

/-- PACKET_COMPLETE (R127, R128): a packet whose work is over completes, as a PKG release: its node's STATE is 2, and its signal is performed. -/
def execPacketComplete (q id : Nat) (s : State) : Res :=
  run s fun w =>
    match (w.queue q).jobs.find? fun j => j.id == id && j.done with
    | none => w
    | some j =>
      let part := w.queuePart q
      w.guard (w.cpRuns q && (j.writes.isEmpty || w.performed (hubAgent (w.cpAgent q)) j.scope j.writes {})) fun w =>
        w.settle q part (
          andThen (if j.node = 0 then (w, .ok []) else w.hubPut (.cp q) part (j.node + 2) {} [2]) fun w _ =>
          andThen (if j.sigop = 0 ∨ j.killed then (w, .ok []) else
            w.hubSignal (.cp q) part j.sig j.sigop j.sigval { scope := 4, agent := w.cpAgent q, ref := j.ref, step := j.step } false) fun w _ =>
          (w.jobGone q j, .ok ()))

/-! ## The packets -/

/-- COPY_PACKET (R124): to hub copy engine q mod 16, on the queue's stream. -/
def execCopyPacket (q : Nat) (s : State) : Res :=
  run s fun w => w.issuePacket q 2 fun p id w =>
    let u := w.queue q
    let v := p.word 5
    let c : Copy := {
      id := id, part := w.queuePart q, eng := 32 + q % 16, agent := w.cpAgent q, src := .cp q, step := u.step, dst := p.word 0, from' := p.word 1
      len := (p.word 2).toNat, redop := field v 15 8, fmt := field v 19 16, ord := v.getLsbD 2, num := id, ref := u.ref, sent := w.now }
    ((w.setJob q id fun j => { j with sigop := field v 1 0, sig := p.word 3, sigval := p.word 4 }).setHub fun h => { h with copies := h.copies ++ [c] }, .ok ())

/-- COLL_PACKET (R124, R407): to the collective engine. -/
def execCollPacket (q : Nat) (s : State) : Res :=
  run s fun w => w.issuePacket q 3 fun p id w =>
    let u := w.queue q
    let c : Coll := {
      id := id, part := w.queuePart q, agent := w.cpAgent q, src := .cp q, step := u.step, send := p.word 0, recv := p.word 1, count := (p.word 2).toNat
      sig := p.word 3, sigval := p.word 4, ctl := p.word 5, num := id, ref := u.ref, sent := w.now }
    ((w.setJob q id fun j => { j with sigop := field (p.word 5) 37 36, sig := p.word 3, sigval := p.word 4 }).setHub fun h => { h with colls := h.colls ++ [c] }, .ok ())

/-- SIGNAL_PACKET (R124): a store or an add at its scope (2 DIE, 3 PKG, 4 SYS), as a release; it is complete once that has been performed (R127). -/
def execSignalPacket (q : Nat) (s : State) : Res :=
  run s fun w => w.issuePacket q 4 fun p id w =>
    let u := w.queue q
    let v := p.word 2
    let rel : Rel := { scope := field v 4 2 + 1, agent := w.cpAgent q, ref := u.ref, step := u.step }
    andThen (w.hubSignal (.cp q) (w.queuePart q) (p.word 0) (field v 1 0) (p.word 1) rel true) fun w ids =>
      ((w.setJob q id fun j => { j with writes := ids, scope := rel.scope }).jobOver q id, .ok ())

/-- WAITSIG (R130): evaluated at issue; unsatisfied, it holds up later packets. -/
def execWaitsig (q : Nat) (s : State) : Res :=
  run s fun w => w.issuePacket q 5 fun p id w =>
    andThen (w.hubGet (.cp q) (w.queuePart q) (p.word 0) 8) fun w x =>
      let cmp := field (p.word 2) 2 0
      let w := w.setJob q id fun j => { j with sig := p.word 0, sigval := p.word 1, cmp := cmp }
      if cmpWord cmp (BitVec.ofNat 64 (leNat x.1)) (p.word 1) then
        ((w.cpRef q (refOf x.2)).jobOver q id, .ok ())
      else (w.setQueue q fun u => { u with hold := some id }, .ok ())

/-- WAITSIG_REEVALUATE (R130, R131): the CP reads the word again; satisfied, the wait ends with a pennant. -/
def execWaitsigReevaluate (q : Nat) (s : State) : Res :=
  run s fun w =>
    let u := w.queue q
    let part := w.queuePart q
    match u.jobs.find? fun j => u.hold == some j.id && j.typ == 5 with
    | none => w
    | some j =>
      w.guard (w.serves q) fun w => w.settle q part (andThen (w.hubGet (.cp q) part j.sig 8) fun w x =>
        if !cmpWord j.cmp (BitVec.ofNat 64 (leNat x.1)) j.sigval then (w, .ok ())
        else
          let (agent, pref, step, t) := w.writerOf q j.sig
          let w := w.cpPennant q part 0x22 agent pref j.startNs t step
          ((w.stepQueue q fun u => { u with hold := none }).jobOver q j.id, .ok ()))

/-- COND (R129): reads the word as an acquire and continues at NEXT or at ELSE. -/
def execCond (q : Nat) (s : State) : Res :=
  run s fun w => w.issuePacket q 6 fun p id w =>
    andThen (w.hubGet (.cp q) (w.queuePart q) (p.word 0) 8) fun w x =>
      let holds := cmpWord (field (p.word 2) 2 0) (BitVec.ofNat 64 (leNat x.1)) (p.word 1)
      (((w.setQueue q fun u => { u with next := if holds then p.next else p.word 3 }).cpRef q (refOf x.2)).jobOver q id, .ok ())

/-- REARM (R296): STATE = 2 in its own node, then 0 in each node from ROOT upward, then it continues at ROOT; it is then complete. -/
def execRearm (q : Nat) (s : State) : Res :=
  run s fun w => w.issuePacket q 7 fun p id w =>
    let part := w.queuePart q
    andThen (if p.va = 0 then (w, .ok []) else w.hubPut (.cp q) part (p.va + 2) {} [2]) fun w _ =>
    andThen ((List.range (p.word 1).toNat).foldl (fun (x : Tried (List Nat)) i =>
        andThen x fun w _ => w.hubPut (.cp q) part (p.word 0 + BitVec.ofNat 64 (64 * i + 2)) {} [0]) (w, .ok [])) fun w _ =>
      match (w.queue q).jobs.find? fun j => j.id == id with
      | some j => ((w.setQueue q fun u => { u with next := p.word 0 }).jobGone q j, .ok ())
      | none => (w, .ok ())

/-- HRING (R297): reads its bytes from its issue on and asks the hub to append them, which RING_APPEND does; while the append waits it holds up its queue. -/
def execHring (q : Nat) (s : State) : Res :=
  run s fun w => w.issuePacket q 8 fun p id w =>
    let a : Append := {
      id := id, part := w.queuePart q, ring := p.word 0, from' := p.word 1, len := (p.word 2).toNat, src := .cp q, start := w.ns, step := (w.queue q).step }
    ((w.setQueue q fun u => { u with hold := some id }).setHub fun h => { h with appends := h.appends ++ [a] }, .ok ())

/-! ## Host rings (R132, R133, R298) -/

/-- A ring's key: its partition and descriptor. -/
def ringKey (part : Nat) (va : W64) : Nat := part * 2 ^ 56 + va.toNat % 2 ^ 56
def ringPart (key : Nat) : Nat := key / 2 ^ 56
def ringVa (key : Nat) : W64 := BitVec.ofNat 64 (key % 2 ^ 56)

/-- A ring descriptor's fields: HOST_BASE, SLOTS, VECTOR, COAL_N, COAL_T, WR, RD, HOST_WR. -/
structure RingDesc where
  hostBase : Nat
  slots  : Nat
  vec    : Nat
  coalN  : Nat
  coalT  : Nat
  wr     : Nat
  rd     : Nat
  hostWr : Nat
  ok     : Bool

/-- Read a descriptor: what breaks R132 is an out-of-range field. -/
def ringDesc (bs : List Byte) : RingDesc :=
  let f (lo n : Nat) : Nat := leNat ((bs.drop lo).take n)
  let slots := f 8 4
  { hostBase := f 0 8, slots := slots, vec := f 12 2, coalN := f 14 2, coalT := f 16 4, wr := f 24 8, rd := f 32 8, hostWr := f 40 8
    ok := f 0 8 % 64 == 0 && decide (f 0 8 < 2 ^ 52 ∧ f 40 8 < 2 ^ 52 ∧ 1 ≤ slots ∧ slots ≤ 2 ^ 20) && slots &&& (slots - 1) == 0 && decide (f 12 2 ≤ 255) &&
      decide (1 ≤ f 14 2 ∧ 1 ≤ f 16 4 ∧ f 16 4 ≤ 1000000) && f 20 4 == 0 && f 48 16 == 0 }

/-- Send a partition's MSI-X vector: of the VF that it names, or of the PF. -/
def W.interrupt (w : W) (part vec : Nat) : W := w.fireMsg (w.fld (Bar.partCtl part) 31 28) vec

/-- Flush a ring: WR to HOST_WR, then, with records pending, its vector, both behind the records; the timer stops (R133). One hub cycle sends one interrupt (R298). -/
def W.flushRing (w : W) (src : Src) (key : Nat) : Tried Unit :=
  andThen (w.hubGet src (ringPart key) (ringVa key) 64) fun w b =>
    let d := ringDesc b.1
    if !d.ok then (w, .error (.fault 0x0F1 (ringVa key)))
    else
      let x := tgetD w.m.hub.rings key {}
      let send := decide (0 < x.pending ∧ x.sentAt ≠ w.now + 1)
      let w := w.applyBytes { hubAgent (w.srcAgent src) with id := 0 } {} (keyHost d.hostWr) (leBytes 8 d.wr)
      let w := if send then w.interrupt (ringPart key) d.vec else w
      (w.setHub fun h => { h with
        rings := tput h.rings key { x with part := ringPart key, pending := 0, flushed := w.now + 1, sentAt := if send then w.now + 1 else x.sentAt } }, .ok ())

/-- A fault of the hub's ring work is its requester's: of a packet 0x0F1 and the engine side's codes, of an HPOST the sequencer's own (R284). -/
def W.settleRing (w : W) (part : Nat) (src : Src) (x : Tried Unit) : W :=
  match x with
  | (w', .ok ()) => w'
  | (w', .error .wait) => w.onlyWalks w'
  | (w', .error (.fault 0x370 va)) => (w.onlyWalks w').raiseHub part 0x370 (match src with | .cp q => w.cpAgent q | _ => w.hostAgent) 0 va
  | (w', .error (.fault code va)) =>
    let own := if code = 0x0F1 then 0x165 else if code / 16 = 0x1F then code - 0x10 else code
    match src with
    | .seq q _ => (w.onlyWalks w').raiseSeq q own va
    | .task _ _ _ => (w.onlyWalks w').engFault part src own w.hostAgent 0 va 0
    | s => (w.onlyWalks w').raiseHub part code (w.srcAgent s) 0 va

/-- An append's records are in host memory: an HRING is complete, with a ring-full pennant if it had waited, and an HPOST's sequencer goes on (R133). -/
def W.appended (w : W) (a : Append) (wr : Nat) : W :=
  let ends (sq : Seq) : Seq := { sq with wait := sq.wait.map fun x =>
    if x.stage = 7 then { x with ready := true, num := BitVec.ofNat 64 wr, agent := w.hostAgent, arr := w.ns, reads := if a.waited then 1 else 0 } else x }
  match a.src with
  | .cp q =>
    let w := if a.waited then w.cpPennant q a.part 0x23 w.hostAgent 0 a.start w.ns 0 else w
    (w.stepQueue q fun u => { u with hold := if u.hold = some a.id then none else u.hold, rings := (u.rings ++ [ringKey a.part a.ring]).eraseDups }).jobOver q a.id
  | .seq q _ => w.setSeq q ends
  | .task p e k => w.setPart p fun y => { y with saved := tmod y.saved e fun z => { z with seqs := tmod z.seqs k ends } }
  | _ => w

/-- RING_APPEND (R133): an HRING's append reads its bytes, and then arrives (R297); of those that have, the oldest of its ring proceeds once the ring has
room: its records go to host memory in one run, WR advances, and pending reaching COAL_N flushes. An append on the hub cycle of a flush is covered by it (R298). -/
def execRingAppend (id : Nat) (s : State) : Res :=
  run s fun w =>
    match w.m.hub.appends.find? fun a => a.id == id with
    | none => w
    | some a =>
      let key := ringKey a.part a.ring
      let hubSrc : Src := match a.src with | .cp q => .cp q | _ => .engine 50
      if (w.part a.part).halted then w
      else if a.len ≠ 0 then
        w.settleRing a.part a.src (andThen (w.longGet (2 ^ 20 + id) hubSrc a.part a.from' a.len .read) fun w bs =>
          let (w, ref) := w.longDone (2 ^ 20 + id) hubSrc
          let w := match a.src with | .cp q => w.cpRef q ref | _ => w
          (w.setHub fun h => { h with appends := (h.appends.filter fun y => y.id != id) ++ [{ a with
            recs := bs, len := 0, start := w.ns, waited := h.appends.any fun y => y.waits a.part a.ring }] }, .ok ()))
      else
        let first := (w.m.hub.appends.filter fun b => b.len == 0 && ringKey b.part b.ring == key).head?.map (·.id) == some id
        w.guard first fun w => w.settleRing a.part a.src (
          andThen (w.hubGet hubSrc a.part a.ring 64) fun w b =>
            let d := ringDesc b.1
            let n := a.recs.length / 64
            if !d.ok then (w, .error (.fault 0x0F1 a.ring))
            else if d.slots < d.wr + n - d.rd then
              -- those behind it wait with it (R283)
              (w.setHub fun h => { h with appends := h.appends.map fun x =>
                if x.id == id || (x.len == 0 && x.part == a.part && x.ring == a.ring) then { x with waited := true } else x }, .ok ())
            else
              let w := (List.range n).foldl (fun w i =>
                w.applyBytes { hubAgent w.hostAgent with id := 0 } {} (keyHost (d.hostBase + 64 * ((d.wr + i) % d.slots))) ((a.recs.drop (64 * i)).take 64)) w
              andThen (w.hubPut hubSrc a.part (a.ring + 24) {} (leBytes 8 (d.wr + n))) fun w _ =>
                let x := tgetD w.m.hub.rings key {}
                let w := w.setHub fun h => { h with
                  appends := h.appends.filter fun y => y.id != id
                  rings := tput h.rings key { x with part := a.part, pending := x.pending + n, since := if x.pending = 0 then w.ns else x.since } }
                let w := w.appended a d.wr
                if d.coalN ≤ x.pending + n ∨ x.flushed = w.now + 1 then w.flushRing hubSrc key else (w, .ok ()))

/-- RING_COAL_TIMER (R133, R298): a ring's timer has reached COAL_T, and it flushes. -/
def execRingCoalTimer (ring : Nat) (s : State) : Res :=
  run s fun w =>
    let part := ringPart ring
    let x := tgetD w.m.hub.rings ring {}
    w.guard (decide (0 < x.pending) && !(w.part part).halted) fun w => w.settleRing part (.engine 50) (
      andThen (w.hubGet (.engine 50) part (ringVa ring) 64) fun w b =>
        if x.since + 1000 * (ringDesc b.1).coalT ≤ w.ns then w.flushRing (.engine 50) ring else (w, .ok ()))

/-- END (R124, R127): flushes the ring it names, or every ring its queue has written since its last END; then it completes with its signal. -/
def execEndPacket (q : Nat) (s : State) : Res :=
  run s fun w => w.issuePacket q 9 fun p id w =>
    let part := w.queuePart q
    let rings := if p.word 0 = 0 then (w.queue q).rings else [ringKey part (p.word 0)]
    andThen (rings.foldl (fun (x : Tried Unit) k => andThen x fun w _ => w.flushRing (.cp q) k) (w, .ok ())) fun w _ =>
      let w := w.setQueue q fun u => { u with rings := [] }
      ((w.setJob q id fun j => { j with sigop := field (p.word 3) 1 0, sig := p.word 1, sigval := p.word 2 }).jobOver q id, .ok ())

/-! ## Events (R349) -/

/-- EVENT_INTERRUPT: a function's events of a kind reach their count or their time, and its vector is sent. -/
def execEventInterrupt (fn : Nat) (s : State) : Res :=
  run s fun w => [0, 1].foldl (fun w kind =>
    let x := tgetD w.m.hub.fns (2 * fn + kind) {}
    let n := w.fld (Bar.fnIrq fn) 55 48
    let t := w.fld (Bar.fnIrq fn) 47 32
    w.guard (decide (0 < x.pending ∧ (n ≤ x.pending ∨ t = 0 ∨ x.since + 1000 * t ≤ w.ns))) fun w => w.fireEvents fn kind) w

end Sys2Proof.Machine
end

