-- ==== Sys2Proof/Machine/Regions.lean ====
section
/-! DEFINITION. Sys2Proof/Machine/Regions.lean: LAUNCH, the region allocator, and the return of a region
(08_launch_and_queues.md R124, R125, 23_host_and_command_processor.md R350, 02_execution_model.md R35). -/

namespace Sys2Proof.Machine

/-! ## The allocator (R350) -/

/-- Partition n's mask holds a package quad (R346). -/
def W.maskBit (w : W) (n quad : Nat) : Bool := (w.bar (Bar.partQmask n (quad / 64))).getLsbD (quad % 64)
/-- The region that holds a package quad, for itself or for copies of its operators (R36), by key. -/
def W.quadRegion (w : W) (quad : Nat) : Option (Nat × Region) := w.m.regions.find? fun g => (regionQuads g.2).contains quad || g.2.spare.contains quad
/-- A quad of the mask, none of whose sectors is fenced or waits for its scan (R411, R418). -/
def W.quadFit (w : W) (n quad : Nat) : Bool :=
  w.maskBit n quad && (List.range 4).all fun i =>
    let s := w.sector (4 * quad + i)
    !s.fenced && !s.scan
/-- Such a quad that no region holds. -/
def W.quadFree (w : W) (n quad : Nat) : Bool := w.quadFit n quad && (w.quadRegion quad).isNone

/-- The lowest die, then row, then column at which a rectangle of free quads stands. -/
def placeAt (free : Nat → Bool) (qw qh : Nat) : Option (Nat × Nat × Nat) :=
  (List.range 4).findSome? fun d => (List.range (6 - qh)).findSome? fun y => (List.range (9 - qw)).findSome? fun x =>
    let g : Region := { die := d, qx := x, qy := y, qw := qw, qh := qh }
    if 1 ≤ qw ∧ 1 ≤ qh ∧ (regionQuads g).all free then some (d, x, y) else none
def W.place (w : W) (n qw qh : Nat) : Option (Nat × Nat × Nat) := placeAt (w.quadFree n) qw qh

/-- The waiting LAUNCHes: queue, place in the queue's list, LAUNCH. -/
def W.waiting (w : W) : List (Nat × Nat × Launch) :=
  w.m.queues.flatMap fun u =>
    if (w.part (w.queuePart u.1)).halted then [] else ((List.range u.2.launches.length).zip u.2.launches).map fun x => (u.1, x.1, x.2)
/-- The effective level of a waiting LAUNCH (R128). -/
def W.launchLevel (w : W) (l : Launch) : Nat := w.aged l.level l.waits
/-- Waiting LAUNCHes are served by effective level and then by ascending queue. -/
def W.servedBefore (w : W) (a b : Nat × Nat × Launch) : Bool :=
  let x := w.launchLevel a.2.2
  let y := w.launchLevel b.2.2
  decide (y < x ∨ (x = y ∧ (a.1 < b.1 ∨ (a.1 = b.1 ∧ a.2.1 < b.2.1))))
/-- Where a waiting LAUNCH is placed now: none while it does not fit, or while one served before it does. -/
def W.grantOf (w : W) (x : Nat × Nat × Launch) : Option (Nat × Nat × Nat) :=
  match w.place (w.queuePart x.1) x.2.2.qw x.2.2.qh with
  | none => none
  | some p =>
    if w.waiting.any fun y => w.servedBefore y x && (w.place (w.queuePart y.1) y.2.2.qw y.2.2.qh).isSome then none else some p

/-- The region that a LAUNCH is given. -/
def Launch.region (l : Launch) (part q : Nat) (p : Nat × Nat × Nat) : Region :=
  { part := part, die := p.1, qx := p.2.1, qy := p.2.2, qw := l.qw, qh := l.qh, queue := q, level := l.level, est := l.est, issued := l.issued
    image := l.image, windows := l.windows, range := { first := l.first, count := l.count }, popRef := l.popRef, job := l.job, jobStep := l.step
    cov := l.cov }

/-- A waiting LAUNCH stops waiting: the queue goes on, and its watchdog's timer with it (R360). -/
def Queue.placed (u : Queue) (i ns : Nat) : Queue :=
  let ls := u.launches.eraseIdx i
  { u with
    launches := ls
    hold := match ls.head? with
      | some l => some l.job
      | none => match u.launches[i]? with
        | some l => if u.hold = some l.job then none else u.hold
        | none => u.hold
    progress := if ls.isEmpty then ns - u.paused.getD 0 else u.progress
    paused := if ls.isEmpty then none else u.paused }

/-- A LAUNCH begins to wait in its queue: it holds the queue up, and the watchdog's timer stands. -/
def Queue.await (u : Queue) (l : Launch) (ns : Nat) : Queue :=
  { u with launches := u.launches ++ [l], hold := some (u.hold.getD l.job), paused := some (u.paused.getD (ns - u.progress)) }

/-- A new region takes its quads: their sectors are awake, and idle from now, which in a restored task's islands is an edge of theirs. -/
def W.takeQuads (w : W) (g : Region) : W :=
  ((regionQuads g).foldl (fun w q => (List.range 4).foldl (fun w i =>
    w.setSector (4 * q + i) fun s => { s with gate := 0, lastNs := w.ns, lastEdge := w.edgeOf g (g.siteOfSector (4 * q + i)), upNs := none, wakeEdge := 0 }) w) w).countWakes g.die
/-- A partition's SQ_FLAGS are again those of its context area's flag word, where they stand while no task of it runs (R367); of one that has run no task since its
creation they are 0 (R59). -/
def W.unparkFlags (w : W) (part : Nat) : W :=
  if w.anyRunning part || !(w.part part).parked then w
  else match w.hubTake part (w.ctxAt part 8) 8 with
    | (w, some bs) => w.setPart part fun p => { p with flags := BitVec.ofNat 7 (leNat bs), parked := false }
    | (w, none) => w.setPart part fun p => { p with parked := false }

/-- REGION_ALLOCATE: the allocator places a queue's new LAUNCH, and its image is to be loaded. -/
def execRegionAllocate (q : Nat) (s : State) : Res :=
  run s fun w =>
    match w.waiting.find? fun x => x.1 == q && x.2.2.saved.isNone && (w.grantOf x).isSome with
    | none => w
    | some x =>
      match w.grantOf x with
      | none => w
      | some p =>
        let g := x.2.2.region (w.queuePart q) q p
        let w := (w.unparkFlags (w.queuePart q)).setM fun m => { m with regions := tput m.regions (regionKey g) g }
        (w.takeQuads g).stepQueue q fun u => u.placed x.2.1 w.ns

/-! ## What a region's agents see from their release on (R72, R369) -/

/-- The agents of a region: its sequencers, and its memory cells (R83). -/
def W.regionEyes (w : W) (r : Nat) (g : Region) : List Eye :=
  ((regionQuads g).filter fun q => (tget w.m.seqs q).isSome).map w.seqEye ++
    (g.cells.filter fun c => siteKind c.1 == 2).map fun c => w.eyeOf (.elem r c.1 0)
/-- They see everything that is before the region. -/
def W.regionSees (w : W) (r : Nat) (g : Region) : Bool :=
  (w.regionEyes r g).all fun e => w.m.bus.unseen.all fun u => !(g.cov.covers u && u.hides e)
/-- It is before whatever they do. -/
def W.regionGains (w : W) (r : Nat) (g : Region) : W := (w.regionEyes r g).foldl (fun w e => w.gain e g.cov) w
/-- What they have done and seen, together. -/
def W.regionKnows (w : W) (r : Nat) (g : Region) : Cov :=
  (w.regionEyes r g).foldl (fun (c : Cov) e => let k := tgetD w.m.bus.know e.agent {}; c.join (k.loads.join (k.stores.join k.ord))) {}

/-! ## LAUNCH (R124, R125) -/

/-- The window table of a LAUNCH: none when a reserved bit is set. -/
def windowTable (bs : List Byte) : Option (Tbl (W64 × W32)) :=
  if (List.range 8).all fun n => byteField bs (16 * n + 12) 4 / 2 == 0 then
    some ((List.range 8).foldl (fun t n =>
      if byteField bs (16 * n + 12) 4 = 1 then tput t n (BitVec.ofNat 64 (byteField bs (16 * n) 8), BitVec.ofNat 32 (byteField bs (16 * n + 8) 4)) else t) [])
  else none

/-- A failure of the loader before it has a frame: its stop record names no frame and configuration version 0 (R310). -/
def W.raiseLoader (w : W) (part code : Nat) (va : W64) (frame : Nat) (version : W32) (region : Nat := 0xFF) : W :=
  w.raise part { code := code, agent := w.loaderAgent, element := frame, va := va, version := version, region := region, latest := w.m.hub.loadRef }

/-- What an access of the loader gives, its fault being the loader's own. -/
def loaderTry {α : Type} (part : Nat) (x : Tried α) (f : W → α → Tried Unit) : Tried Unit :=
  match x with
  | (w, .ok a) => f w a
  | (w, .error .wait) => (w, .error .wait)
  | (w, .error (.fault code va)) => (w.raiseLoader part code va wholeIndex 0, .ok ())

/-- LAUNCH: the CP reads the window table with an acquire, the loader the image's header, and the LAUNCH waits for its quads. What the binding has acquired, its
agents will see (R72); its work carries the reference of its pop (R131). -/
def execLaunch (q : Nat) (s : State) : Res :=
  run s fun w => w.issuePacket q 1 fun p id w =>
    let part := w.queuePart q
    let v := p.word 4
    let pop := (w.queue q).ref
    let table : Tried (List Byte) := if p.word 1 = 0 then (w, .ok []) else match w.hubGet (.cp q) part (p.word 1) 128 with
      | (w, .ok x) => (w.cpRef q (refOf x.2), .ok x.1)
      | (w, .error e) => (w, .error e)
    andThen table fun w bs =>
      match if bs.isEmpty then some [] else windowTable bs with
      | none => (w, .error (.fault 0x0F1 0))
      | some wins =>
        let cov := w.releases (hubAgent (w.cpAgent q)) 4
        let w := w.setHub fun h => { h with loading := tput h.loading (2 ^ 20 + q) (part, p.word 0, 64, none) }
        loaderTry part (w.hubGet (.engine 49) part (p.word 0) 64 .image) fun w x =>
        let w := w.setHub fun h => { h with loadRef := newer h.loadRef (refOf x.2), loading := tdel h.loading (2 ^ 20 + q) }
        let h := headerOf x.1
        if !decide (1 ≤ h.qw ∧ h.qw ≤ 8 ∧ 1 ≤ h.qh ∧ h.qh ≤ 5) then (w.raiseLoader part 0x0F1 0 wholeIndex 0, .ok ())
        else
          let u := w.queue q
          let l : Launch := {
            job := id, level := min (field v 34 32) (w.fld (Bar.partCtl part) 21 19), est := field v 31 0, issued := w.ns, image := p.word 0
            qw := h.qw, qh := h.qh, windows := wins, first := field (p.word 2) 31 0, count := field (p.word 2) 63 32, popRef := pop, step := u.step
            cov := cov, waits := w.ns }
          let w := w.setJob q id fun j => { j with sigop := field v 41 40, sig := p.word 3, sigval := p.word 5 }
          (w.setQueue q fun u => u.await l w.ns, .ok ())

/-! ## The return of a region (R35, R346, R356) -/

/-- A sender inside a region. -/
def Src.ofRegion (s : Src) (r : Nat) (quads : List Nat) : Bool :=
  match s with
  | .seq q _ => quads.contains q
  | .elem r' _ _ => r' == r
  | _ => false

/-- A request whose sender goes: what it has still to write is performed, and its answer goes to no one (R356). -/
def W.orphan (w : W) (q : Req) : Option Req :=
  let writes := match q.kind with | .rdcp _ _ => true | k => k.writes
  if writes && !q.allDone then some { q with gone := some (w.srcAgent q.src, w.srcRegion q.src), src := .engine 51 } else none

/-- Requests and walks of senders that a test picks out lose their senders. -/
def W.orphans (w : W) (p : Src → Bool) : W :=
  let w := w.setBus fun b => { b with reqs := b.reqs.filterMap fun q => if p q.src then w.orphan q else some q }
  let cut (k : Walk) : Option Walk :=
    let keep := (k.srcs.zip k.agents).filter fun s => !p s.1
    if keep.isEmpty && !k.srcs.isEmpty then none else some { k with srcs := keep.map (·.1), agents := keep.map (·.2) }
  w.setMmu fun x => { x with walks := x.walks.filterMap cut }

/-- Write of a mask bit. -/
def W.setMask (w : W) (n quad : Nat) (b : Bool) : W := w.setFld (Bar.partQmask n (quad / 64)) (quad % 64) (quad % 64) (if b then 1 else 0)

/-- The quads of a region return to the allocator: its fabric and its sequencers are discarded, its islands' votes end, mask bits that a write has
cleared go, and regions of other partitions for which no rate fitted are tried again (R112, R346); with no task left that runs, SQ_FLAGS stands in the flag word
(R367). -/
def W.freeRegion (w : W) (r : Nat) : W :=
  match tget w.m.regions r with
  | none => w
  | some g =>
    let quads := regionQuads g ++ g.spare
    let w := w.orphans fun s => s.ofRegion r quads
    let w := w.noteEstimate g.part
    let w := w.setM fun m => { m with regions := tdel m.regions r, seqs := quads.foldl tdel m.seqs }
    let gone := (w.part g.part).clears.filter quads.contains
    let w := (gone.foldl (fun w q => w.setMask g.part q false) w).setPart g.part fun p => { p with clears := p.clears.filter fun q => !quads.contains q }
    let w := w.setHub fun h => { h with solves := h.solves.filter (· != r), memo := tdel h.memo r, loading := tdel h.loading r }
    ((w.revoteAll quads).triggerSolve fun _ x => x.phase == .unsolved && x.part != g.part).parkFlags g.part

/-- The work of a LAUNCH is over: its job is done, by an agent with its reference (R127). -/
def W.launchOver (w : W) (g : Region) (agent : Nat) (ref : W32) (step : Nat) (killed : Bool) : W :=
  w.setJob g.queue g.job fun j => { j with done := true, agent := agent, ref := ref, doneNs := w.ns, step := step, killed := j.killed || killed }

/-- The writes of a region that every agent of the package sees, and some agent outside it not yet: what its completion covers beyond what it waits for (R128). -/
def W.regionCovers (w : W) (r : Nat) : Cov :=
  let us := w.m.bus.unseen
  w.coverIds ((us.filter fun u => u.reg == r + 1 && !us.any fun v => v.id == u.id && decide (v.die < 5)).map (·.id))

/-- REGION_RELEASE (R35): the root has pulsed h1 and every sequencer has halted: the quads return, and the LAUNCH completes. -/
def execRegionRelease (r : Nat) (s : State) : Res :=
  run s fun w =>
    match tget w.m.regions r with
    | none => w
    | some g =>
      w.guard (g.phase == .running && g.rootDone && w.allHalted g && !(w.part g.part).halted) fun w =>
        let q := regionQuad g 0
        let sq := w.seq q
        let step := w.stepOf q
        let ref := if (tget w.m.seqs q).isSome then sq.latest else g.popRef
        ((w.gain (hubAgent (w.cpAgent g.queue)) (w.regionCovers r)).freeRegion r).launchOver g (w.seqAgent q) ref step false

end Sys2Proof.Machine
end

