-- ==== Sys2Proof/Machine/Loader.lean ====
section
/-! DEFINITION. Sys2Proof/Machine/Loader.lean: the loader: images, partial reconfiguration, re-solves and switch cycles
(20_configuration_image.md R306 to R317, 07_islands_and_rates.md R112 to R115, R382, R384, R289, R290, R294). -/

namespace Sys2Proof.Machine

/-! ## Reading an image (R306 to R309) -/

/-- How a check of an image ends: it waits for a translation, an access faults, it fails, or it gives a value. -/
abbrev Loaded (α : Type) := Tried (Except LoadFail α)

/-- Go on after a read or a check that succeeded. -/
def loaded {α β : Type} (x : Loaded α) (f : W → α → Loaded β) : Loaded β :=
  andThen x fun w r => match r with
    | .ok a => f w a
    | .error e => (w, .ok (.error e))
/-- A check that may fail. -/
def checked {β : Type} (w : W) (c : Option LoadFail) (f : W → Loaded β) : Loaded β :=
  match c with
  | some e => (w, .ok (.error e))
  | none => f w
/-- A failure of the image as a whole, unit EN. -/
def wholeFail (bad : Bool) (cond : Nat) : Option LoadFail := if bad then some { cond := cond, unit := 7, frame := wholeIndex } else none

/-- Read bytes of an image for a region: a partition's, at an offset of its address, sector by sector, each an acquire at PKG scope (R309, R311); of a list of
frames, the index of the first. -/
def W.imageRead (w : W) (r part : Nat) (image : W64) (off n : Nat) (first : Option Nat := none) : Tried (List Byte) :=
  let va := image + BitVec.ofNat 64 off
  (w.setHub fun h => { h with loading := tput h.loading r (part, va, n, first) }).longGet r (.engine 49) part va n .image
/-- The loader has read what it needs, and obtained what its acquires carried (R92). -/
def W.loadDone (w : W) (r : Nat) : W :=
  let (w, ref) := w.longDone r (.engine 49)
  w.setHub fun h => { h with loadRef := newer h.loadRef ref, loading := tdel h.loading r }

/-- What step 1 of R309 reads: the header, the island table and the interval entries. -/
structure Tables where
  h    : Header
  isl  : Tbl Nat
  ints : List IntEntry

/-- Step 1 of R309: header values, island table, interval entries, alignment, HCRC. -/
def W.readTables (w : W) (r part : Nat) (image : W64) (qw qh : Nat) : Loaded Tables :=
  andThen (w.imageRead r part image 0 64) fun w hb =>
    let h := headerOf hb
    checked w (wholeFail (!h.valuesOk || h.qw != qw || h.qh != qh) 1) fun w =>
    andThen (w.imageRead r part image h.tab (32 * h.nisl + 8 * h.nint)) fun w tb =>
      match islandTable h.qw h.qh h.nisl (tb.take (32 * h.nisl)) with
      | none => (w, .ok (.error { cond := 9, unit := 7, frame := wholeIndex }))
      | some isl =>
        let ints := (chunks 8 h.nint (tb.drop (32 * h.nisl))).map intEntryOf
        checked w (wholeFail (!ints.all IntEntry.ok) 8 <|> wholeFail (!h.aligned image.toNat) 2 <|>
          wholeFail (crc32 (hb.take 44 ++ tb) != BitVec.ofNat 32 h.hcrc) 4) fun w => (w, .ok (.ok { h := h, isl := isl, ints := ints }))

/-- An entry of the section table (R308). -/
structure SecEntry where
  num  : Nat
  zero : Bool
  off  : Nat
  nf   : Nat
  crc  : Nat

def secEntryOf (bs : List Byte) : SecEntry :=
  { num := byteField bs 0 1, zero := byteField bs 1 3 == 0, off := byteField bs 4 4, nf := byteField bs 8 4, crc := byteField bs 12 4 }

/-- The section table. -/
def W.readSections (w : W) (r part : Nat) (image : W64) (h : Header) : Tried (List SecEntry) :=
  andThen (w.imageRead r part image h.sec (16 * h.nsect)) fun w bs => (w, .ok ((chunks 16 h.nsect bs).map secEntryOf))

/-- The checks of a section-table entry, given the numbers before it. -/
def SecEntry.cond (e : SecEntry) (before : List Nat) : Option LoadFail :=
  wholeFail (!e.zero || before.any (fun n => decide (e.num ≤ n)) || !decide (1 ≤ e.nf ∧ e.nf ≤ 65535)) 1 <|> wholeFail (e.off % 32 != 0) 2

/-- Frames that take their indexes, and frames with the indexes that they have (R308). -/
def indexed (first : Nat) (fs : List Frame) : List Frame := (List.range fs.length).zip fs |>.map fun x => { x.2 with num := first + x.1 }
def numbered (fs : List Frame) : List (Nat × Frame) := fs.map fun f => (f.num, f)

/-- The intervals of the main configuration, and of a section. -/
def mainInts (ints : List IntEntry) : List (Nat × Nat × Nat) := (ints.filter fun x => !x.insec).map fun x => (x.key, x.lo, x.hi)
def sectionInts (ints : List IntEntry) (s : Nat) : List (Nat × Nat × Nat) := (ints.filter fun x => x.insec && x.sec == s).map fun x => (x.key, x.lo, x.hi)

/-- The elements that two entries of one configuration name. -/
def twice (ints : List (Nat × Nat × Nat)) : List (Option Nat) :=
  ((List.range ints.length).filter fun i => (List.range i).any fun j => (ints.getD j (0, 0, 0)).1 == (ints.getD i (0, 0, 0)).1).map fun i =>
    some (ints.getD i (0, 0, 0)).1
/-- Interval entries of the main configuration that are wrong by themselves once the sections are known: duplicates, and entries of a section that the image does
not hold, which name no element (R307). -/
def badInts (ints : List IntEntry) (secs : List Nat) : List (Option Nat) :=
  (ints.filter fun x => x.insec && !secs.contains x.sec).map (fun _ => none) ++ twice (mainInts ints)

/-- The graph that a list of frames configures. -/
def graphOf (fs : List Frame) (ints : List (Nat × Nat × Nat)) (sink : Nat) (isl : Tbl Nat) (nisl : Nat) : Graph :=
  { l := Layout.of fs, ints := ints, sink := sink, secIsl := isl, nisl := nisl }

/-- The checks of a section against a configuration, given its frames' first index: frame by frame, SCRC, and then as a whole on the configuration with
it applied (step 3 of R309, R313). -/
def sectionFail (qw qh : Nat) (run : List Frame) (ints secInts : List (Nat × Nat × Nat)) (sink rate nisl : Nat) (isl : Tbl Nat) (secs : List Nat)
    (e : SecEntry) (bytes : List Byte) (first : Nat) : Option LoadFail :=
  let fs := indexed first ((chunks 32 e.nf bytes).map frameOf)
  framesFail qw qh true [] (numbered fs) <|>
  wholeFail (crc32 bytes != BitVec.ofNat 32 e.crc) 4 <|>
  (let all := applyFrames run fs
   let l := Layout.of all
   let old := Layout.of run
   let ks := rewritten old l
   let g : Graph := { l := l, ints := applyInts ints ks secInts, sink := sink, secIsl := isl, nisl := nisl }
   crossFail l (numbered all) <|>
   ({ qw := qw, qh := qh, g := g, rate := rate, secs := secs, own := some (e.num, ks), bad := twice secInts
      was := ks.filter fun k => old.opc k == 0xB4 && (old.fields k).imm.toNat == e.num } : Whole).fail)

/-- Read and check the sections of an image, in table order. -/
def W.checkSections (w : W) (r part : Nat) (image : W64) (t : Tables) (run : List Frame) (secs : List Nat) : List SecEntry → List Nat → Nat → Loaded Unit
  | [], _, _ => (w, .ok (.ok ()))
  | e :: rest, before, first =>
    checked w (e.cond before) fun w =>
    andThen (w.imageRead r part image e.off (32 * e.nf) (some first)) fun w bytes =>
    checked w (sectionFail t.h.qw t.h.qh run (mainInts t.ints) (sectionInts t.ints e.num) (ekey t.h.sinkCell t.h.sinkSlot) t.h.rate t.h.nisl t.isl secs e
      bytes first) fun w => w.checkSections r part image t run secs rest (before ++ [e.num]) (first + e.nf)

/-- Steps 1 to 3 of R309: the tables and the main frames of a good image. -/
def W.readImage (w : W) (r part : Nat) (image : W64) (qw qh : Nat) : Loaded (Tables × List Frame) :=
  loaded (w.readTables r part image qw qh) fun w t =>
  andThen (w.imageRead r part image t.h.frm (32 * t.h.nfrm) (some 0)) fun w fb =>
  andThen (w.readSections r part image t.h) fun w ses =>
    let fs := indexed 0 ((chunks 32 t.h.nfrm fb).map frameOf)
    let secs := ses.map (·.num)
    let g := graphOf fs (mainInts t.ints) (ekey t.h.sinkCell t.h.sinkSlot) t.isl t.h.nisl
    checked w (framesFail qw qh false [] (numbered fs) <|> crossFail g.l (numbered fs) <|>
      ({ qw := qw, qh := qh, g := g, rate := t.h.rate, secs := secs, bad := badInts t.ints secs } : Whole).fail) fun w =>
    loaded (w.checkSections r part image t fs secs ses [] t.h.nfrm) fun w _ => (w, .ok (.ok (t, fs)))

/-! ## Configuring a region -/

/-- A slot as a layout configures it (R137, R138, R47); the counters of a head AG wait for a START (R246). -/
def Layout.elem (l : Layout) (k : Nat) : Elem :=
  let c := l.control k
  { word := l.word k, k := l.const k, empty := c % 4, done := c.testBit 2, clone := c.testBit 3, named := l.named k, lfsr := lfsrSeed (l.const k)
    armed := !(l.opc k == 0xA0 && l.head (k / 8)) }

/-- The listeners of every line. -/
def Layout.lines (l : Layout) (old : Tbl Line) : Tbl Line :=
  let empty := old.map fun x => (x.1, { x.2 with listeners := [] })
  (Whole.nodeListens l ++ Whole.headListens l).foldl (fun t x =>
    let y := tgetD t x.1 {}
    tput t x.1 { y with listeners := y.listeners ++ [x.2] }) empty

/-- The table store of a function cell, those of its tables that a test picks out being copied from its bank (R139). -/
def Layout.tablesOf (l : Layout) (c : Nat) (bank : Memory) (t : Tbl W64) (which : Nat → Bool := fun _ => true) : Tbl W64 :=
  if siteKind c ≠ 4 then t
  else
    let f3 := l.cell3 c
    let copy (n base : Nat) (t : Tbl W64) : Tbl W64 := if f3.getLsbD (100 + n) && which n then
        (List.range 256).foldl (fun t i => tput t (tableKey c n i) (BitVec.ofNat 64 (leNat (memBytes bank (base + 8 * i) 8)))) t
      else t
    copy 1 (field f3 99 82) (copy 0 (field f3 81 64) t)

/-- A cell as a layout configures it: its frames 3 and 4, and the entries that its queue holds at first (R143). -/
def Layout.cell (l : Layout) (c : Nat) (bank : Memory) : Cell :=
  { f3 := l.cell3 c, f4 := l.cell4 c
    queue := if siteKind c = 2 then (List.range (l.qinit c)).map fun i => { data := BitVec.ofNat 512 (leNat (memBytes bank (l.qbase c + 64 * i) 64)) } else [] }

/-- The cells that a layout says anything of. -/
def Layout.cells (l : Layout) : List Nat := (l.keys.map (· / 8) ++ l.f3.map Prod.fst ++ l.f4.map Prod.fst).eraseDups

/-- Step 4 of R309: the region as its image configures it, not yet solved. -/
def Region.configure (g : Region) (t : Tables) (fs : List Frame) : Region :=
  let l := Layout.of fs
  let banks := l.data.foldl (fun (b : Tbl Memory) (x : Nat × Nat × List Byte) => tput b x.1 (memPut (tgetD b x.1 []) x.2.1 x.2.2)) []
  { g with
    phase := .unsolved, version := 1, frames := fs.filter fun f => f.kind != 8, ints := mainInts t.ints
    isl := (List.range t.h.nisl).foldl (fun (t : Tbl Island) i => tput t i {}) [], secIsl := t.isl
    elems := l.keys.foldl (fun (e : Tbl Elem) k => tput e k (l.elem k)) []
    nodes := (l.keys.filter fun k => decide (0xB0 ≤ l.opc k)).foldl (fun n k => tput n k {}) []
    lines := l.lines []
    cells := l.cells.foldl (fun (c : Tbl Cell) k => tput c k (l.cell k (tgetD banks k []))) []
    banks := banks
    mxs := (l.cells.filter fun c => siteKind c == 1).foldl (fun m c => tput m c {}) []
    tables := l.cells.foldl (fun x c => l.tablesOf c (tgetD banks c []) x) []
    sink := ekey t.h.sinkCell t.h.sinkSlot, rate := t.h.rate, trigger := true }

/-- A sequencer with code, before its release (R289, R70): its own of a drained task that resumes, with the values of R294, else a fresh one. DEDUCED: a fresh one's
latest reference is the pop's, which its work carries (R131), where R285's table gives PN_HEAD.LATEST 0 (log 86). -/
def Region.newSeq (g : Region) (k : Nat) (store : Tbl W32) : Seq :=
  let fresh : Seq := { store := store, part := g.part, region := regionKey g, rquad := k, latest := g.popRef }
  match g.resume with
  | none => fresh
  | some (old, _) => match tget old k with
    | none => fresh
    | some sq =>
      { fresh with
        regs := sq.regs, pc := sq.pc, scratch := sq.scratch, status := sq.status &&& 0x7, cause := sq.cause, epc := sq.epc, hvec := sq.hvec, tags := sq.tags
        tagBy := sq.tagBy, stampb := sq.stampb, stepNo := sq.stepNo, latest := sq.latest, ret := sq.ret, copySeq := sq.copySeq, halted := sq.halted
        released := sq.halted }

/-- The quad's sequencer is one of a drained task that resumes (R293). -/
def Region.resumes (g : Region) (k : Nat) : Bool := match g.resume with
  | some (old, _) => (tget old k).isSome
  | none => false
/-- The sequencers of a region that its image loads; the ring of a fresh one begins at entry 0 of wrap 0 (R285), that of one that resumes goes on (R294). -/
def W.loadSeqs (w : W) (g : Region) (l : Layout) : W :=
  let w := w.setM fun m => { m with seqs := (regionQuads g).foldl tdel m.seqs }
  l.code.foldl (fun w c =>
    let q := regionQuad g c.1
    w.setM fun m => { m with
      seqs := tput m.seqs q (g.newSeq c.1 c.2)
      rings := if g.resumes c.1 then m.rings else tmod m.rings q fun r => { r with next := 0, wrap := 0 } }) w

/-- A load that fails: the partition halts with the failure's code, and the region returns unconfigured (R310). -/
def W.loadFails (w : W) (r part : Nat) (f : LoadFail) : W := (w.raiseLoader part f.code 0 f.frame 0).freeRegion r

/-- IMAGE_LOAD (R309, R310): the loader reads, checks and writes a region's image. It is loaded once its agents see what the LAUNCH's binding has acquired (R72). -/
def execImageLoad (r : Nat) (s : State) : Res :=
  run s fun w =>
    match tget w.m.regions r with
    | none => w
    | some g => w.guard (g.phase == .allocated && !(w.part g.part).halted) fun w =>
      -- the LAUNCH is a release that the loader acquires
      let w := w.setHub fun h => { h with loadRef := newer h.loadRef g.popRef }
      match w.readImage r g.part g.image g.qw g.qh with
      | (w', .error .wait) => w.onlyWalks w'
      | (w', .error (.fault code va)) =>
        (((w.onlyWalks w').raiseLoader g.part code va (w'.loaderFrame r va) 0).loadDone r).freeRegion r
      | (w, .ok (.error f)) => (w.loadDone r).loadFails r g.part f
      | (w', .ok (.ok (t, fs))) =>
        let g' := g.configure t fs
        let g' := { g' with rate := match g.resume with | some (_, n) => n | none => g'.rate, resume := none }
        let w' := ((w'.loadDone r).setRegion r fun _ => g').loadSeqs g (Layout.of fs)
        if w'.regionSees r g' then w'.regionGains r g' else w

/-! ## Partial reconfiguration (R312 to R317) -/

/-- The latest release of a section application, with the loader's latest reference: the line of an RCFG, or the tile operation of a RECONF (R92, R316). -/
def W.sectionDone (w : W) (r : Nat) (q : SecReq) : W :=
  if q.byElem then
    let e : ERef := ⟨r, q.who / 8, q.who % 8⟩
    let ref := newer (w.node e).latest w.m.hub.loadRef
    let line := field (w.elem e).fields.ta 16 3
    (w.setNode e fun n => { n with running := false }).pulse r line ref (w.elemAgent e)
  else w.setSeq q.who fun sq => sq.finish q.out w.loaderAgent w.m.hub.loadRef w.ns

/-- Positions that targets name: of a stage still to switch those that its old word waits for, of one that has switched those of the new layout (R315), and of a
stage that is not rewritten those that the words now in the slots name. -/
def Region.renamed (g : Region) (l : Layout) (done : Nat → Bool) : Region :=
  let es := g.elems.flatMap fun x => if 0xB0 ≤ x.2.opc then [] else [x.2.targetA, x.2.targetB].filterMap fun t => match t with
    | some t => if t.pos = 3 then none else some (ekey t.cell t.port, t.pos)
    | none => none
  { g with elems := g.elems.map fun x =>
      if (tget g.secLeft x.1).isSome then x
      else if done x.1 then (x.1, { x.2 with named := l.named x.1 })
      else (x.1, { x.2 with named := es.foldl (fun n e => if e.1 = x.1 then n ||| 2 ^ e.2 else n) 0 }) }

/-- The registers of a matrix cell whose AFMT, CCBMODE or SPILLBASE changes are reset (R202). -/
def Mx.rewrite (m : Mx) (old new : BitVec 192) : Mx :=
  if field old 65 64 = field new 65 64 ∧ field old 89 72 = field new 89 72 then m else { m with acc := [], fold := [], ccb := [], spill := [] }
/-- A cell takes the frames 3 and 4 of a layout: where its frame 3 changes, a matrix cell's state may be reset (R202). DESIGN CHOICE: a function cell's table whose
place or presence the section changes is copied now, as its bank stands; R139 states the copy for a load (log 94). -/
def Region.takeFrames (g : Region) (l : Layout) (cell : Nat) : Region :=
  let c := tgetD g.cells cell {}
  let new := l.cell3 cell
  { g with
    cells := tput g.cells cell { c with f3 := new, f4 := l.cell4 cell }
    elems := g.elems.map fun x => if x.1 / 8 = cell then (x.1, { x.2 with f4 := none }) else x
    mxs := if siteKind cell = 1 then tput g.mxs cell ((tgetD g.mxs cell {}).rewrite c.f3 new) else g.mxs
    tables := l.tablesOf cell (tgetD g.banks cell []) g.tables fun n =>
      c.f3.getLsbD (100 + n) != new.getLsbD (100 + n) || field c.f3 (81 + 18 * n) (64 + 18 * n) != field new (81 + 18 * n) (64 + 18 * n) }

/-- The application's end, once no stage is left to switch (R316): the version rises, the RCFG's line or the RECONF's operation is done, and the
section's intervals and a re-solve follow. -/
def W.sectionEnds (w : W) (r : Nat) : W :=
  let g := w.region r
  match g.applying with
  | some q =>
    if !g.secLeft.isEmpty then w
    else
      let fs := applyFrames g.frames g.secFrames
      let l := Layout.of fs
      let v := g.version + 1
      let w := w.setRegion r fun g => { g with
        version := v, frames := fs, ints := g.secInts, secFrames := [], secInts := [], applying := none, trigger := true, lines := l.lines g.lines
        elems := (g.elems.filter fun x => x.2.word != 0 || !x.2.flights.isEmpty).map fun x => (x.1, { x.2 with version := v }) }
      (w.setRegion r fun g => l.cells.foldl (fun g c => g.takeFrames l c) g).sectionDone r q
  | none => w

/-- A reconfiguration token behind a producer's results, to the targets whose stages a test picks out (R314). -/
def Elem.mark (x : Elem) (due : Nat) (p : Nat → Bool) : Elem :=
  let tok : Token := { reconf := true }
  let send (t : Option Target) : Option Token := match t with
    | some t => if t.pos ≠ 3 && p (ekey t.cell t.port) then some tok else none
    | none => none
  let a := if 0xB0 ≤ x.opc then none else send x.targetA
  let b := if 0xB0 ≤ x.opc then none else send x.targetB
  if a.isNone && b.isNone then x else { x with flights := x.flights ++ [{ due := due, a := a, b := b, via := some x.word }] }

/-- What a section's application starts from: the tables, the section's entry and its frames' bytes, read afresh (R311, R313). -/
def W.readSection (w : W) (r : Nat) (g : Region) (sec : Nat) : Loaded (Tables × List SecEntry × SecEntry × Nat × List Byte) :=
  loaded (w.readTables r g.part g.image g.qw g.qh) fun w t =>
  andThen (w.readSections r g.part g.image t.h) fun w ses =>
    let before := ses.takeWhile fun e => e.num != sec
    match ses.find? fun e => e.num == sec with
    | none => (w, .ok (.error { cond := 10, unit := 7, frame := wholeIndex }))
    | some e =>
      checked w (e.cond (before.map (·.num))) fun w =>
      let first := before.foldl (fun n x => n + x.nf) t.h.nfrm
      andThen (w.imageRead r g.part g.image e.off (32 * e.nf) (some first)) fun w bytes => (w, .ok (.ok (t, ses, e, first, bytes)))

/-- The loader, of which there is one, may take up a request: no section of a running region is being applied, and no request of one came before it, those of one
cycle in ascending agent id (R312). -/
def W.loaderFree (w : W) (x : SecReq) : Bool :=
  w.m.regions.all fun g => !g.2.runsAt w.now || (w.part g.2.part).halted || (g.2.applying.isNone && match g.2.secQ with
    | [] => true
    | y :: _ => decide (x.at' < y.at' ∨ (x.at' = y.at' ∧ x.agent ≤ y.agent)))

/-- SECTION_APPLY (R312 to R314): the oldest request's section, once the cycle of the request is over, is read and checked against the running
configuration; then its stages are to switch, and their producers that stay are marked on this edge. -/
def execSectionApply (r : Nat) (s : State) : Res :=
  run s fun w =>
    match tget w.m.regions r with
    | none => w
    | some g =>
      match g.secQ with
      | [] => w
      | q :: rest => w.guard (g.runsAt w.now && w.loaderFree q && decide (q.at' < w.now) && !(w.part g.part).halted) fun w =>
        let w := w.setHub fun h => { h with loadRef := newer h.loadRef q.ref }
        match w.readSection r g q.sec with
        | (w', .error .wait) => w.onlyWalks w'
        | (w', .error (.fault code va)) =>
          ((w.onlyWalks w').raiseLoader g.part code va (w'.loaderFrame r va) g.version).loadDone r
        | (w, .ok (.error f)) => (w.loadDone r).raiseLoader g.part f.code 0 f.frame g.version
        | (w, .ok (.ok (t, ses, e, first, bytes))) =>
          let w := w.loadDone r
          let secInts := sectionInts t.ints q.sec
          match sectionFail g.qw g.qh g.frames g.ints secInts g.sink g.rate g.isl.length g.secIsl (ses.map (·.num)) e bytes first with
          | some f => w.raiseLoader g.part f.code 0 f.frame g.version
          | none =>
            let fs := indexed first ((chunks 32 e.nf bytes).map frameOf)
            let ks := rewritten (Layout.of g.frames) (Layout.of (applyFrames g.frames fs))
            let w := w.setRegion r fun g => { g with
              secQ := rest, applying := some q, secFrames := fs, secInts := applyInts g.ints ks secInts
              secLeft := ks.foldl (fun t k => tput t k (tgetD g.elems k {}).named) []
              elems := g.elems.map fun x => if ks.contains x.1 then x else (x.1, x.2.mark ((g.islandOf (x.1 / 8)).edge w.now + 1) ks.contains) }
            w.sectionEnds r

/-- A slot that has switched consumes its reconfiguration tokens, those of the positions that `named` gives, and keeps of its state what the new word can go on
with: its results in flight, and, with the same opcode, the rest but what R315 reloads: SR state, and the counters of a rewritten frame 4, which take their START
values. An element of no leaf is armed again (R427). -/
def Elem.switch (x y : Elem) (named : Nat) (counters leafless : Bool) (version : W32) (now : Nat) : Elem :=
  let fl := x.flights.map fun f => { f with via := some (f.via.getD x.word) }
  let kept (p : Nat) (t : Option Token) : Option Token := if named.testBit p then none else t
  let z : Elem := if x.opc = y.opc then
      { x with
        word := y.word, k := y.k, empty := y.empty, done := y.done, clone := y.clone, lfsr := y.lfsr
        run := if counters then x.run.map fun u => { u with pos := u.pos.map fun _ => 0 } else x.run }
    -- its copies go only when the graph drains (R36)
    else { y with seqNo := x.seqNo, copies := x.copies, turn := x.turn, pass := x.pass }
  let z := { z with inL := kept 0 x.inL, inR := kept 1 x.inR, inP := kept 2 x.inP, flights := fl, nextG := now + 1, version := version }
  if leafless then z.rearm else z

/-- STAGE_SWITCH (R315, R316): a rewritten stage all of whose named inputs hold their reconfiguration tokens takes its new word; a node or a CBAR only
when it is idle with no pulse pending. It counts by the new frame 4 from then on; with the last stage of a cell its frames 3 and 4 take effect. -/
def execStageSwitch (r cell slot : Nat) (s : State) : Res :=
  run s fun w =>
    match tget w.m.regions r with
    | none => w
    | some g =>
      let k := ekey cell slot
      let e : ERef := ⟨r, cell, slot⟩
      let x := w.elem e
      match tget g.secLeft k with
      | none => w
      | some named =>
        let has (p : Nat) : Bool := !named.testBit p || (match x.inAt p with | some t => t.reconf | none => false)
        let idle := x.opc < 0xB0 || (!(w.node e).running && g.lines.all fun l => (tget l.2.pend k).isNone)
        w.guard (w.onEdge g cell && has 0 && has 1 && has 2 && idle) fun w =>
          let l := Layout.of (applyFrames g.frames g.secFrames)
          let left := tdel g.secLeft k
          let last := !left.any fun y => y.1 / 8 == cell
          let counters := l.cell4 cell != (w.cell r cell).f4
          let due := w.edgeOf g cell + 1
          let w := w.pmc (siteQuad g cell) 15 (((List.range 3).filter named.testBit).length)
          let y := (x.mark due fun t => (tget left t).isSome).switch (l.elem k) named counters (g.leavesOf k).isEmpty (g.version + 1) w.now
          let y := { y with f4 := if counters then some (l.cell4 cell) else none }
          let w := w.setRegion r fun g =>
            { g with
              secLeft := left, elems := tput g.elems k y
              nodes := if 0xB0 ≤ l.opc k then tput g.nodes k {} else g.nodes }
          let ks := rewritten (Layout.of g.frames) l
          (w.setRegion r fun g => (if last then g.takeFrames l cell else g).renamed l ks.contains).sectionEnds r

/-! ## Re-solves and switch cycles (R112 to R115) -/

/-- The budget of the package, in µW: LIMIT, or three quarters of it in throttle (R382, R426). -/
def W.budget (w : W) : Nat := w.fld Bar.pkgPlim 11 0 * (if w.m.hub.throttle then 750000 else 1000000)

/-- The operators of a layout: the maximal sets of slots marked clonable that direct targets join (R336). -/
def Layout.operators (l : Layout) : List (List Nat) :=
  let ks := l.keys.filter fun k => (l.control k).testBit 3
  let es := l.edges.filter fun e => ks.contains e.1 && ks.contains e.2
  ks.foldl (fun ops k => if ops.any fun o => o.contains k then ops else ops ++ [reachFrom (es ++ es.map fun e => (e.2, e.1)) [k]]) []
/-- At a re-solve the resource manager may clone operators whole, into spare quads of the partition (R36, R336): copies take its records in turn, between a SPLIT
and an OMERGE, so that the results and their order stay. How many is a free value; a copy of an operator takes a quad for each that the operator lies in. DESIGN
CHOICE: the spare quads are those of the region's die (log 15). -/
def W.cloneOps (w : W) (r : Nat) : W :=
  let l := Layout.of (w.region r).frames
  l.operators.foldl (fun w op =>
    let g := w.region r
    let spare := ((List.range 40).map (40 * g.die + ·)).filter (w.quadFree g.part)
    let own := (op.map fun k => siteQuad g (k / 8)).eraseDups
    if op.any fun k => !(tgetD g.elems k {}).copies.isEmpty then w
    else
      let (w, n) := w.freeBelow (spare.length / max own.length 1 + 1)
      if n = 0 then w
      else
        let got := spare.take (n * own.length)
        let places (k : Nat) : List Nat :=
          let q := siteQuad g (k / 8)
          q :: (List.range n).map fun j => got.getD (j * own.length + own.findIdx (· == q)) q
        let leaves (k : Nat) : Bool := l.edges.any fun e => e.1 == k && !op.contains e.2
        w.setRegion r fun g => { g with
          spare := g.spare ++ got
          elems := op.foldl (fun t k => tmod t k fun x => { x with copies := places k, turn := 0, pass := if leaves k then 2 else 0 }) g.elems }) w

/-- RATE_SOLVE (R112, R113): the solver answers a held trigger of a region, with no switch pending. The rails rise to the votes of a grant; where no rate
fits, a region not yet started stays, and one that runs keeps its grant. A re-solve may clone operators (R36). -/
def execRateSolve (r : Nat) (s : State) : Res :=
  run s fun w =>
    match tget w.m.regions r with
    | none => w
    | some g =>
      let order := w.m.hub.solves
      w.guard ((g.phase == .unsolved || g.runsAt w.now) && g.trigger && g.pending.isNone && !(w.part g.part).halted && (!order.contains r || order.head? == some r)) fun w =>
        let w := w.setHub fun h => { h with solves := h.solves.filter (· != r) }
        let gr := graphOf g.frames g.ints g.sink g.secIsl g.isl.length
        let p := w.part g.part
        let scale : Rat := (p.scaleN : Rat) / (p.scaleD : Rat)
        let mine := w.estimateOf fun k x => k != r && x.part == g.part
        let all := w.estimateOf fun k _ => k != r
        let fits (n : Nat) : Bool :=
          (match w.capOf g.part with | some c => decide (mine + n ≤ c * 1000000) | none => true) && decide (all + n ≤ w.budget)
        let w := (if g.runs then w.cloneOps r else w).setRegion r fun g => { g with press := 0, pressedAt := none }
        match gr.solve g.rate (w.trim (regionQuad g 0) / 10) scale fits with
        | none => w.setRegion r fun g => { g with trigger := false }
        | some x =>
          let ps := x.fr.map fun f => (f.1, f.2.num.toNat, f.2.den)
          let w := w.setRegion r fun g => { g with
            trigger := false, pending := some (ps, x.rate, decide (x.rate < g.rate), x.power), plainNext := x.plain, solvedAt := w.now
            isl := ps.foldl (fun t f => tmod t f.1 fun i => { i with vote := max i.vote (Graph.voteOf f.2.1 f.2.2) }) g.isl }
          w.revoteAll (regionQuads g)

/-- SWITCH_CYCLE (R114, R115, R290): at a multiple of 4,096 grid cycles after the solve, with every rail that had to rise settled and every sector agreed (DESIGN
CHOICE: a sector agrees unless it wakes or is in a droop window; log 57), the islands take their new patterns and
ISL_GRANT changes; at a region's first switch its sequencers are released. -/
def execSwitchCycle (r : Nat) (s : State) : Res :=
  run s fun w =>
    match tget w.m.regions r with
    | none => w
    | some g =>
      match g.pending with
      | none => w
      | some (ps, rate, lower, power) =>
        let ready := (regionQuads g).all fun q => (w.rail q).st != 1 && decide (w.quadVote q ≤ (w.rail q).volt w.ns)
        let agreed := g.secIsl.all fun s => let x := w.sector (siteSector g (sectorSite s.1)); x.gate != 3 && !x.droop
        w.guard (w.now % 4096 == 0 && decide (g.solvedAt < w.now) && ready && agreed && (g.phase == .unsolved || g.runsAt w.now) && !(w.part g.part).halted) fun w =>
          let first := g.phase == .unsolved
          let isl := ps.foldl (fun t f => tmod t f.1 fun i =>
            { i with p := f.2.1, q := f.2.2, edges := i.edge (w.now - 1), since := w.now, vote := Graph.voteOf f.2.1 f.2.2 }) g.isl
          let w := (w.noteEstimate g.part).setRegion r fun g => { g with
            isl := isl, pending := none, granted := rate, lower := lower, power := power, plain := g.plainNext, solveNo := (g.solveNo + 1) % 256
            phase := if first then .running else g.phase }
          let w := if first then (regionQuads g).foldl (fun w q => w.setSeq q fun sq => { sq with released := true }) w else w
          w.revoteAll (regionQuads g)

end Sys2Proof.Machine
end

