-- ==== Sys2Proof/Machine/Faults.lean ====
section
/-! DEFINITION. Sys2Proof/Machine/Faults.lean: halts and stop records, the watchdog, pre-emption, checkpoints, drains and restores
(24_faults_and_preemption.md, 23_host_and_command_processor.md R345, R351, R281, R293, R294). -/

namespace Sys2Proof.Machine

/-! ## Stop records (R357 to R359) -/

/-- The 128 bytes of a stop record (R358). -/
def stopBytes (part cause : Nat) (secondary : Bool) (h : Halt) : List Byte :=
  let t := h.tok.getD {}
  let bit (b : Bool) : Nat := if b then 1 else 0
  leBytes 128 (packFields [(10, cause), (1, bit secondary), (1, bit h.tok.isSome), (4, 0), (4, part), (12, 0), (32, h.version.toNat),
    (32, h.agent), (8, h.region), (24, 0), (32, h.element), (32, h.latest.toNat), (64, h.time), (64, h.va.toNat), (16, t.empty.toNat),
    (1, bit t.null), (1, bit t.head), (1, bit t.tail), (1, bit t.rel.isSome), (4, 0), (168, 0), (512, t.data.toNat)])

/-- Write a stop record to a partition's area; one that is written is an event (R357, R359, R349). -/
def W.stopRecord (w : W) (part cause : Nat) (secondary : Bool) (h : Halt) : W :=
  let off := Bar.partStop part
  let w' := w.areaAppend off part 32 128 (stopBytes part cause secondary h)
  let ovf : W64 := 1 <<< 59
  if (w'.bar off ||| ovf) = (w.bar off ||| ovf) then w' else w'.event part 0

/-- The records with a partition's cause: of released sequencers that have not halted, of the engines that hold operations of senders that a test picks
out, and of the CPs of some queues with a packet in issue; agents that have faulted have theirs already. -/
def W.stopRecords (w : W) (part cause : Nat) (faulted : List Nat) (seqs : List Nat) (p : Src → Bool) (queues : List Nat) : W :=
  let put (w : W) (h : Halt) : W := if faulted.contains h.agent then w else w.stopRecord part cause true { h with time := w.ns }
  let w := seqs.foldl (fun w q =>
    let sq := w.seq q
    if sq.released && !sq.halted then
      put w { agent := w.seqAgent q, region := sq.region, element := sq.pc.toNat % 2 ^ 32, latest := sq.latest, version := (w.region sq.region).version }
    else w) w
  let held := w.m.hub.copies.filter fun c => c.popped && c.part == part && p c.src
  let w := (held.map (·.eng)).eraseDups.foldl (fun w n =>
    let c := (held.find? fun c => c.eng == n).getD {}
    put w { agent := w.engAgent n, element := c.num % 2 ^ 32, latest := c.popRef }) w
  let w := match w.m.hub.colls.find? fun c => c.popped && c.part == part && p c.src with
    | some c => put w { agent := w.collAgent, element := c.num % 2 ^ 32, latest := c.popRef }
    | none => w
  queues.foldl (fun w q => if (w.queue q).jobs.isEmpty then w else put w { agent := w.cpAgent q, latest := (w.queue q).ref }) w

/-- Operations of senders that a test picks out are dropped: copies, collectives and appends, with what an append has read (R356). -/
def W.dropOps (w : W) (part : Nat) (p : Src → Bool) : W :=
  w.setHub fun h =>
    let kept := h.appends.filter fun c => !(c.part == part && p c.src)
    { h with
      copies := h.copies.filter fun c => !(c.part == part && p c.src)
      colls := h.colls.filter fun c => !(c.part == part && p c.src)
      appends := kept
      memo := h.memo.filter fun x => decide (x.1 < 2 ^ 20) || kept.any fun a => 2 ^ 20 + a.id == x.1 }

/-! ## Halts (R355, R356) -/

/-- The queues of a partition: those with EN = 1, also while their descriptors are still to be read, and those that it has served. -/
def W.queuesOf (w : W) (part : Nat) : List Nat :=
  (List.range 1024).filter fun q => w.queuePart q == part && ((w.bar (Bar.qCfg q)).getLsbD 63 || (tget w.m.queues q).isSome)

/-- Everything of a partition stops: its regions return, its operations, tasks and packets end, and its queues are idle with EN = 0. -/
def W.stopPart (w : W) (part : Nat) : W :=
  let w := w.dropOps part fun _ => true
  let w := ((w.m.regions.filter fun g => g.2.part == part).map (·.1)).foldl W.freeRegion w
  let mine (s : Src) : Bool := match s with
    | .task p _ _ => p == part
    | .cp q => w.queuePart q == part
    | _ => false
  let w := w.orphans mine
  let w := w.setMmu fun x => { x with walks := x.walks.filter fun k => k.part != part || k.srcs.isEmpty }
  let w := (w.setPart part fun p => { p with saved := [] }).setHub fun h => { h with loading := h.loading.filter fun x => x.2.1 != part }
  (w.queuesOf part).foldl (fun w q =>
    let w := w.setQueue q fun u => { u with
      on := false, armed := false, stopping := false, jobs := [], launches := [], hold := none, cur := none, next := 0, head := none, barred := none, rings := []
      paused := none, t1 := none }
    (w.setFld (Bar.qCfg q) 63 63 0).setFld (Bar.qCfg q) 0 0 1) w

/-- HALT_ACCEPT (R355 to R357): the hub accepts a partition's halt. The first fault is its cause, of equally early ones that of the lowest agent; every
agent that faulted writes a record of its own cause, and the others with work one of the partition's. -/
def execHaltAccept (part : Nat) (s : State) : Res :=
  run s fun w =>
    let p := w.part part
    match p.halts with
    | [] => w
    | h0 :: _ => w.guard (!p.halted) fun w =>
      let first := p.halts.foldl (fun a h => if h.time < a.time ∨ (h.time = a.time ∧ h.agent < a.agent) then h else a) h0
      let w := w.setPart part fun p => { p with halted := true, cause := first.code }
      let own := p.halts.filter fun h => h.agent != w.hostAgent
      let w := own.foldl (fun w h => w.stopRecord part h.code false h) w
      let seqs := (w.m.seqs.filter fun q => q.2.part == part).map (·.1)
      let w := w.stopRecords part first.code (own.map (·.agent)) seqs (fun _ => true) (w.queuesOf part)
      w.stopPart part

/-! ## Ends of single tasks (R363, R354) -/

/-- A sender that is a sequencer of a region. -/
def Region.sends (g : Region) (s : Src) : Bool := match s with | .seq q _ => (regionQuads g).contains q | _ => false

/-- A task is killed: its records carry 0x3F0, nothing is saved, and its LAUNCH completes without its SIGOP. -/
def W.killTask (w : W) (r : Nat) : W :=
  match tget w.m.regions r with
  | none => w
  | some g =>
    let w := w.stopRecords g.part 0x3F0 [] (regionQuads g) g.sends [g.queue]
    let w := (w.dropOps g.part g.sends).freeRegion r
    w.launchOver g (w.cpAgent g.queue) (w.queue g.queue).ref g.jobStep true

/-- KILL (R363): a pre-emption of mode 2. -/
def execKill (r : Nat) (s : State) : Res :=
  run s fun w =>
    let g := w.region r
    w.guard ((match g.preempt with | some (2, _) => true | _ => false) && !(w.part g.part).halted) fun w => w.killTask r

/-! ## The watchdog (R360 to R362) -/

/-- The queue's timer runs, and how far it has come, in ns. -/
def W.timerRuns (w : W) (q : Nat) : Bool := let u := w.queue q; w.serves q && u.busy && u.launches.isEmpty && u.paused.isNone
def W.timer (w : W) (q : Nat) : Nat := w.ns - (w.queue q).progress
def W.t1 (w : W) (q : Nat) : Nat := 1000000 * w.fld (Bar.partWdog (w.queuePart q)) 31 16
def W.t2 (w : W) (part : Nat) : Nat := 1000000 * w.fld (Bar.partWdog part) 15 0

/-- A pre-emption of a task begins, by a partition's PMODE (R344). -/
def W.preempt (w : W) (r : Nat) : W :=
  w.setRegion r fun g => { g with preempt := some (w.fld (Bar.partCtl g.part) 23 22, w.now) }

/-- WATCHDOG_T1 (R361): once per restart of the timer, the queue's oldest running LAUNCH is pre-empted, or the CP writes a record. -/
def execWatchdogT1 (q : Nat) (s : State) : Res :=
  run s fun w =>
    let u := w.queue q
    let part := w.queuePart q
    w.guard (w.timerRuns q && w.t1 q != 0 && decide (w.t1 q ≤ w.timer q) && u.t1 != some u.progress) fun w =>
      let w := w.setQueue q fun u => { u with t1 := some u.progress }
      let mine := w.m.regions.filter fun g => g.2.queue == q && g.2.runs
      match mine with
      | [] => w.stopRecord part 0x3F2 true { agent := w.cpAgent q, latest := u.ref, time := w.ns }
      | g :: t =>
        let old := t.foldl (fun a x => if x.2.issued < a.2.issued then x else a) g
        if old.2.preempt.isSome then w else w.preempt old.1

/-- WATCHDOG_T2 (R361): the timer has reached T1 + T2, and the partition halts. -/
def execWatchdogT2 (q : Nat) (s : State) : Res :=
  run s fun w =>
    let part := w.queuePart q
    w.guard (w.timerRuns q && w.t1 q != 0 && decide (w.t1 q + w.t2 part ≤ w.timer q)) fun w =>
      w.raiseHub part 0x3F2 (w.cpAgent q) 0 0 (w.queue q).ref

/-! ## The pre-emption policy (R345, R351) -/

/-- A partition's balance after a refill of t. -/
def W.refill (w : W) (part t : Nat) : Nat := max t (min (w.fld (Bar.partCtl part) 55 40) (t + w.fld (Bar.partCtl part) 39 32))
/-- PRIO_TOKEN_REFILL (R345): the balance of one more millisecond, one refill a hub cycle. -/
def execPrioTokenRefill (part : Nat) (s : State) : Res :=
  run s fun w =>
    let p := w.part part
    w.guard (decide (p.refills < w.ns / 1000000 ∧ p.refilled.1 ≠ w.now + 1)) fun w =>
      let t := w.fld (Bar.partTok part) 15 0
      (w.setFld (Bar.partTok part) 15 0 (w.refill part t)).setPart part fun p => { p with refills := p.refills + 1, refilled := (w.now + 1, t) }
/-- What a partition can spend: on the hub cycle of a refill, what stood before it. -/
def W.purse (w : W) (part : Nat) : Nat :=
  let p := w.part part
  if p.refilled.1 = w.now + 1 then p.refilled.2 else w.fld (Bar.partTok part) 15 0
/-- Spend tokens: on the hub cycle of a refill, before it (R345). -/
def W.spend (w : W) (part c : Nat) : W :=
  let t := w.purse part - c
  if (w.part part).refilled.1 = w.now + 1 then
    (w.setFld (Bar.partTok part) 15 0 (w.refill part t)).setPart part fun p => { p with refilled := (w.now + 1, t) }
  else w.setFld (Bar.partTok part) 15 0 t

/-- rem(v), in µs. -/
def W.remaining (w : W) (g : Region) : Nat := g.est - (w.ns - g.issued) / 1000

/-- The tasks that a waiting LAUNCH may pre-empt: running, of a lower base level, and such that their quads, freed, let it be placed; a mask bit that goes with
them (R346), a fence and a scan to come do not let it. -/
def W.victims (w : W) (part : Nat) (l : Launch) : List (Nat × Region) :=
  w.m.regions.filter fun g =>
    g.2.phase == .running && g.2.preempt.isNone && decide (g.2.level < w.launchLevel l) &&
    (placeAt (fun q => w.quadFree part q || (w.quadFit part q && !(w.part part).clears.contains q && (w.quadRegion q).map (·.1) == some g.1)) l.qw l.qh).isSome

/-- The decision for a waiting LAUNCH of a queue that cannot be placed: it pre-empts a task, spending its partition's tokens, or waits. -/
def W.decision (w : W) (q i : Nat) (l : Launch) : Option W :=
  let part := w.queuePart q
  let going := match l.victim with | some v => (w.region v).preempt.isSome | none => false
  let vs := w.victims part l
  match vs with
  | [] => none
  | v0 :: t =>
    let better (a b : Region) : Bool :=
      let ra := w.remaining a
      let rb := w.remaining b
      decide (a.level < b.level ∨ (a.level = b.level ∧ (rb < ra ∨ (ra = rb ∧ b.queue < a.queue))))
    let v := t.foldl (fun a b => if better b.2 a.2 then b else a) v0
    let c := v.2.qw * v.2.qh + v.2.spare.length
    if (w.place part l.qw l.qh).isNone && !going && vs.all (fun v => decide (w.fld Bar.devCfg 47 32 < w.remaining v.2)) && decide (c ≤ w.purse part) then
      some (((w.spend part c).preempt v.1).setQueue q fun u => { u with launches := u.launches.modify i fun l => { l with victim := some v.1 } })
    else none

/-- PREEMPT_DECISION (R351): of the LAUNCHes that wait in a queue, its saved tasks among them, the first that may pre-empt a task does so. -/
def execPreemptDecision (q : Nat) (s : State) : Res :=
  run s fun w =>
    match (w.waiting.filter fun x => x.1 == q).findSome? fun x => w.decision q x.2.1 x.2.2 with
    | some w' => w'
    | none => w

/-! ## The context area (R367, R368) -/

/-- A task entry as read. -/
structure TaskEntry where
  base  : Nat
  size  : Nat
  state : Nat
  qw    : Nat
  qh    : Nat
  queue : Nat
  version : Nat
  image : Nat

def taskEntryOf (bs : List Byte) : TaskEntry :=
  { base := byteField bs 0 8, size := byteField bs 8 4, state := byteField bs 12 1, qw := byteField bs 13 1, qh := byteField bs 14 1
    queue := byteField bs 16 2, version := byteField bs 20 4, image := byteField bs 24 8 }

/-- The offset of entry e in the context area. -/
def entryOff (e : Nat) : Nat := 64 + 64 * e

/-- The lowest free entry of at least a size in MiB, with its BASE. -/
def W.freeEntry (w : W) (q part size : Nat) : Tried (Option (Nat × W64)) :=
  andThen (w.hubGet (.cp q) part (w.ctxAt part (entryOff 0)) 1024) fun w x =>
    let es := (chunks 64 16 x.1).map taskEntryOf
    (w, .ok (((List.range 16).find? fun e => match es[e]? with | some y => y.state == 0 && decide (size ≤ y.size) | none => false).map fun e =>
      (e, BitVec.ofNat 64 ((es.getD e ⟨0, 0, 0, 0, 0, 0, 0, 0⟩).base / 4096 * 4096))))

/-- What the hardware writes of an entry: STATE, the shape, the queue, the version, IMAGE and the time. -/
def W.putEntry (w : W) (g : Region) (e state : Nat) : Tried Unit :=
  let at' (n : Nat) : W64 := w.ctxAt g.part (entryOff e + n)
  andThen (w.hubPut (.cp g.queue) g.part (at' 12) {} (leBytes 4 (packFields [(8, state), (8, g.qw), (8, g.qh), (8, 0)]))) fun w _ =>
    andThen (w.hubPut (.cp g.queue) g.part (at' 16) {} (leBytes 24 (packFields [(16, g.queue), (16, 0), (32, g.version.toNat), (64, g.image.toNat), (64, w.ns)]))) fun w _ => (w, .ok ())

/-- Write runs of bytes at offsets from an address, one after another. -/
def W.putRuns (w : W) (q part : Nat) (base : W64) (rs : List (Nat × List Byte)) : Tried Unit :=
  rs.foldl (fun x r => andThen x fun w _ => if r.2.isEmpty then (w, .ok ())
    else andThen (w.hubPut (.cp q) part (base + BitVec.ofNat 64 r.1) {} r.2) fun w _ => (w, .ok ())) (w, .ok ())

/-- The registers, the PC, the CSRs and the scratch of a sequencer area; PN_HEAD needs the quad's ring. -/
def seqRuns (sq : Seq) (rg : PRing) : List (Nat × List Byte) :=
  let words (l : List Nat) : List Byte := l.flatMap (leBytes 8)
  [(0, words ((List.range 32).map fun i => if i = 0 then 0 else (tgetD sq.regs i 0).toNat)),
   (0x100, words [sq.pc.toNat, sq.status.toNat, sq.cause.toNat, sq.epc.toNat, sq.hvec.toNat, sq.tags.toNat, sq.counts, sq.stampb.toNat, sq.stepNo.toNat,
     packFields [(32, sq.latest.toNat), (8, rg.next), (3, rg.wrap)]]),
   (0x4000, memBytes sq.scratch 0 0x4000)]
/-- The performance counters of a quad in its sequencer area, as they read (R400). -/
def W.pmcRun (w : W) (quad : Nat) : Nat × List Byte :=
  (0x158, (w.bar (Bar.pmsel quad) :: (List.range 8).map fun i => w.pmcRead quad i).flatMap fun v => leBytes 8 v.toNat)
/-- A restore writes them into the new quad, counts by their modulus. -/
def W.putPmcs (w : W) (quad : Nat) (area : List Byte) : W :=
  (List.range 8).foldl (fun w i => w.setBar (Bar.pmc quad i) (BitVec.ofNat 64 (byteField area (0x160 + 8 * i) 8 % pmcMod)))
    (w.setBar (Bar.pmsel quad) (BitVec.ofNat 64 (byteField area 0x158 8)))
/-- What a checkpoint adds to it: RELEASED and HALTED, and the pennant ring. -/
def seqMore (sq : Seq) (rg : PRing) : List (Nat × List Byte) :=
  [(0x150, leBytes 8 ((if sq.released then 1 else 0) + (if sq.halted then 2 else 0))),
   (0x2000, (List.range 256).flatMap fun e => leBytes 32 (tgetD rg.ents e {}).bytes.toNat)]

/-- A sequencer with its area's registers, PC, CSRs and scratch, reserved fields zero (R6); its outstanding operations are those that completions have left. -/
def Seq.withArea (sq : Seq) (bs : List Byte) : Seq :=
  let f (off n : Nat) : Nat := byteField bs off n
  { sq with
    regs := (List.range 31).foldl (fun t i => tput t (i + 1) (BitVec.ofNat 64 (f (8 * (i + 1)) 8))) []
    pc := BitVec.ofNat 64 (f 0x100 8), status := BitVec.ofNat 4 (f 0x108 8), cause := BitVec.ofNat 64 (f 0x110 8) &&& 0x80000000000003FF, epc := BitVec.ofNat 12 (f 0x118 8)
    hvec := BitVec.ofNat 12 (f 0x120 8), tags := BitVec.ofNat 64 (f 0x128 8), stampb := BitVec.ofNat 64 (f 0x138 8) &&& 0x00FFFFFFFFFFFE00, stepNo := BitVec.ofNat 32 (f 0x140 8), latest := BitVec.ofNat 32 (f 0x148 4)
    scratch := memPut [] 0 ((bs.drop 0x4000).take 0x4000) }

/-- A sequencer with RELEASED and HALTED as a checkpoint's area holds them. -/
def Seq.withState (sq : Seq) (bs : List Byte) : Seq := { sq with released := (byteField bs 0x150 8).testBit 0, halted := (byteField bs 0x150 8).testBit 1 }
/-- A pennant ring with its head and the entries as a checkpoint's area holds them. -/
def PRing.withArea (r : PRing) (bs : List Byte) : PRing :=
  { next := byteField bs 0x14C 1, wrap := byteField bs 0x14D 1 % 8, ents := r.ents.map fun e => (e.1, { e.2 with bytes := BitVec.ofNat 256 (byteField bs (0x2000 + 32 * e.1) 32) }) }

/-- Offset of the fabric block of quad k, and of what stands in it. -/
def fabricOff (k : Nat) : Nat := 0x300000 + 0x4500000 * k
/-- The cells of a region's quad k in the order of R244, and those of them that are matrix cells. -/
def quadCells (qw k : Nat) : List Nat := (List.range 256).map fun i => 128 * (16 * (k / qw) + i / 16) + 16 * (k % qw) + i % 16
def quadMxs (qw k : Nat) : List Nat := (quadCells qw k).filter fun c => siteKind c == 1

/-- The raw accumulator store of a matrix cell (R203). -/
def Mx.rawStore (x : Mx) (afmt : Nat) : List Byte :=
  let rows := if afmt = 0 then 192 else 256
  (List.range rows).flatMap (x.rawRow afmt)

/-- The areas of a matrix cell's image whose layout R368 gives: the tiles, the accumulator store, the CCB, the fold bits, S and the tile scales. -/
def mxRuns (x : Mx) (c : Cell) (one : Bool) : List (Nat × List Byte) :=
  let tile (l : List W512) : List Byte := l.flatMap fun t => leBytes 64 t.toNat
  let active := tile (x.active.getD [])
  [(0, if one then (if x.active.isSome then active else tile x.loading) else active), (0x4000, if one then [] else tile x.loading),
   (0x8000, x.rawStore c.afmt), (0x20000, x.ccb.flatMap fun r => leBytes 4 r.word),
   (0x20100, leBytes 16 (packFields ((List.range 128).map fun p => (1, if tgetD x.fold p false then 1 else 0)))),
   (0x20110, leBytes 8 x.spill.length), (0x20118, leBytes 8 (packFields [(32, x.scaleA.toNat), (32, x.scaleL.toNat)]))]

/-- The first pieces of n bytes of a list, taken from its front. -/
def splitBytes (n : Nat) : Nat → List Byte → List (List Byte)
  | 0, _ => []
  | k + 1, bs => bs.take n :: splitBytes n k (bs.drop n)
/-- A record from its 32 bits. -/
def CRec.ofWord (n : Nat) : CRec := { row := n / 2 ^ 8 % 256, col := n % 128, count := sextNat 8 (n / 2 ^ 24 % 256) }
/-- A matrix cell with what its areas hold: the tiles that it held, the accumulator store, the records of its CCB, the fold bits, S, whose records stand in
its bank, and the tile scales. -/
def Mx.withArea (x : Mx) (c : Cell) (one : Bool) (bs : List Byte) (bank : Memory) : Mx :=
  let tile (off : Nat) (l : List W512) : List W512 := (splitBytes 64 l.length (bs.drop off)).map fun b => BitVec.ofNat 512 (leNat b)
  let (n, rows) := if c.afmt = 0 then (4, 192) else (3, 256)
  { x with
    active := x.active.map (tile 0)
    loading := if one then (if x.active.isSome then x.loading else tile 0 x.loading) else tile 0x4000 x.loading
    acc := ((List.range (128 * rows)).zip (splitBytes n (128 * rows) (bs.drop 0x8000))).filterMap fun (i, b) =>
      if leNat b = 0 then none else some (accKey (i / 128) (i % 128), BitVec.ofNat 32 (leNat b))
    ccb := (List.range x.ccb.length).map fun i => CRec.ofWord (byteField bs (0x20000 + 4 * i) 4)
    fold := ((List.range 128).filter fun p => (byteField bs 0x20100 16).testBit p).map fun p => (p, true)
    spill := if c.afmt = 1 ∧ ¬ c.trap then
        (List.range (min (byteField bs 0x20110 8) 4096)).map fun i => CRec.ofWord (leNat (memBytes bank (c.spillBase + 4 * i) 4))
      else x.spill
    scaleA := BitVec.ofNat 32 (byteField bs 0x20118 4), scaleL := BitVec.ofNat 32 (byteField bs 0x2011C 4) }
/-- The matrix cells of a saved region with what their areas and banks hold. -/
def Region.withMxs (g : Region) (areas : Tbl (List Byte)) (banks : Tbl Memory) : Tbl Mx :=
  g.mxs.map fun m => (m.1, match tget areas m.1 with
    | some bs => m.2.withArea (tgetD g.cells m.1 {}) (g.oneTile m.1) bs (tgetD banks m.1 [])
    | none => m.2)

/-- The areas that are private to the stepping hold free values (log 18): offset and length, of quad k of a region. -/
def privateAreas (qw k : Nat) : List (Nat × Nat) :=
  (0x10000 * k + 0x200, 0x1E00) :: (fabricOff k + 0x4000000, 0x140000) ::
    (List.range (quadMxs qw k).length).map fun i => (fabricOff k + 0x4140000 + 0x28000 * i + 0x20200, 0x7E00)

/-- Free bytes. -/
def W.freeBytes (w : W) (n : Nat) : W × List Byte :=
  let k := (n + 63) / 64
  ({ w with m := { w.m with draw := w.m.draw + k } },
   ((List.range k).flatMap fun i => leBytes 64 (Config.freeWord (w.m.draw + i)).toNat).take n)
def W.putPrivate (w : W) (q part : Nat) (base : W64) (as : List (Nat × Nat)) : Tried Unit :=
  as.foldl (fun x a => andThen x fun w _ =>
    let (w, bs) := w.freeBytes a.2
    andThen (w.hubPut (.cp q) part (base + BitVec.ofNat 64 a.1) {} bs) fun w _ => (w, .ok ())) (w, .ok ())

/-! ## A task leaves its quads -/

/-- The saved task waits in its queue for new quads (R350, R369); its monitor is not armed meanwhile (R348). What its agents know goes with it. -/
def W.awaitRestore (w : W) (g : Region) (e : Nat) : W :=
  let l : Launch := {
    job := g.job, level := g.level, est := g.est, issued := g.issued, image := g.image, qw := g.qw, qh := g.qh, windows := g.windows
    first := g.range.first, count := g.range.count, popRef := g.popRef, step := g.jobStep, saved := some e, cov := g.cov, waits := w.ns }
  w.stepQueue g.queue fun u => { u.await l w.ns with armed := false }

/-- The sequencers of a region, by its quads. -/
def W.regionSeqs (w : W) (g : Region) : Tbl Seq :=
  (List.range (g.qw * g.qh)).foldl (fun t k => match tget w.m.seqs (regionQuad g k) with | some sq => tput t k sq | none => t) []

/-- A waiting read of an MWAIT or a SIGLD that has returned and found its word too low: its wait goes on, and nothing of it is outstanding (R365). -/
def W.lowWait (w : W) (q : Req) : Bool :=
  q.watch && match q.src with
    | .seq k _ => (match (w.seq k).wait with | some x => x.req == some q.id && x.reads != 0 | none => false)
    | .elem r c s => (match (w.elem ⟨r, c, s⟩).sig with | some x => x.req == some q.id && x.reads != 0 | none => false)
    | _ => false

/-- A task is saved in an entry: what the image does not show is kept, operations that still run are its own, its region returns, and it waits. -/
def W.taskSaved (w : W) (r e : Nat) (base : W64) (drain : Bool) : W :=
  let g := { w.region r with cov := w.regionKnows r (w.region r) }
  let quads := regionQuads g
  let seqs := w.regionSeqs g
  let rings := (List.range quads.length).foldl (fun t k => tput t k (tgetD w.m.rings (regionQuad g k) {})) []
  let watches := w.m.bus.reqs.filter fun q => q.src.ofRegion r quads && w.lowWait q
  let move (s : Src) : Src := match s with
    | .seq q _ => if quads.contains q then .task g.part e ((w.seq q).rquad) else s
    | s => s
  let w := w.setHub fun h => { h with
    copies := h.copies.map fun c => { c with src := move c.src }
    colls := h.colls.map fun c => { c with src := move c.src }
    stamped := h.stamped.map fun c => { c with src := move c.src }
    appends := h.appends.map fun a => { a with src := move a.src } }
  let y : Saved := { region := g, seqs := seqs, rings := rings, drain := drain, version := Config.regVersion.toNat, base := base
                     watches := if drain then [] else watches }
  let w := w.setPart g.part fun p => { p with saved := tput p.saved e y }
  ((w.setFld (Bar.partCtxb g.part) 0 0 1).freeRegion r).awaitRestore g e

/-! ## Drains (R281, R293, R361) -/

/-- DRAIN_PREEMPT (R281, R363): a drain begins: PEND is set in every sequencer that has not halted; with no entry for the task it is a kill. -/
def execDrainPreempt (r : Nat) (s : State) : Res :=
  run s fun w =>
    let g := w.region r
    w.guard ((match g.preempt with | some (0, _) => true | _ => false) && g.phase == .running && !(w.part g.part).halted) fun w =>
      w.settle g.queue g.part (andThen (w.freeEntry g.queue g.part 3) fun w e => match e with
        | none => (w.killTask r, .ok ())
        | some _ =>
          let w := (regionQuads g).foldl (fun w q => w.setSeq q fun sq => if sq.halted then sq else sq.withStatus true sq.inh sq.he sq.pwoob) w
          (w.setRegion r fun g => { g with phase := .saving true w.now }, .ok ()))

/-- Every released sequencer is ready or halted, and its loads, stores and copies have retired (R293). -/
def W.drained (w : W) (g : Region) : Bool :=
  (regionQuads g).all fun q => match tget w.m.seqs q with
    | some sq => !sq.released || ((sq.ready || sq.halted) && sq.count .loads == 0 && sq.count .stores == 0 && sq.count .copies == 0)
    | none => true

/-- DRAIN_COMPLETE (R293): tile operations are abandoned, each sequencer's registers, PC, CSRs and scratch are saved, and the quads return. -/
def execDrainComplete (r : Nat) (s : State) : Res :=
  run s fun w =>
    let g := w.region r
    w.guard ((g.phase matches .saving true _) && w.drained g && !(w.part g.part).halted) fun w =>
      w.settle g.queue g.part (andThen (w.freeEntry g.queue g.part 3) fun w e => match e with
        | none => (w.killTask r, .ok ())
        | some (e, base) =>
          let w := (regionQuads g).foldl (fun w q => w.setSeq q fun sq => { sq with outs := [], wait := none, regAt := [] }) w
          let runs := (w.regionSeqs g).flatMap fun x =>
            if x.2.released then (seqRuns x.2 (tgetD w.m.rings (regionQuad g x.1) {})).map fun y => (0x10000 * x.1 + y.1, y.2) else []
          let pmcs := (List.range (g.qw * g.qh)).map fun k => let y := w.pmcRun (regionQuad g k); (0x10000 * k + y.1, y.2)
          andThen (w.putRuns g.queue g.part base (runs ++ pmcs)) fun w _ => andThen (w.putEntry g e 2) fun w _ =>
            let w := w.setRegion r fun g => { g with
              elems := [], nodes := [], lines := [], cells := [], banks := [], mxs := [], tables := [], leafBusy := [], secQ := [], applying := none
              secFrames := [], secInts := [], secLeft := [], frames := [], ints := [], ccbEsc := 0, range := { g.range with asks := [] } }
            (w.taskSaved r e base true, .ok ()))

/-- DRAIN_TIMEOUT (R361): a drain that has not completed T2 after it began is carried on as a checkpoint. -/
def execDrainTimeout (r : Nat) (s : State) : Res :=
  run s fun w =>
    let g := w.region r
    match g.preempt with
    | some (0, t) => w.guard (g.runs && decide (5 * w.t2 g.part ≤ w.now - t) && !(w.part g.part).halted) fun w =>
        w.setRegion r fun g => { g with preempt := some (1, w.now), phase := .running }
    | _ => w

/-! ## Checkpoints (R364 to R366) -/

/-- From a grid cycle on no island of a region has kept an edge: row firings are to be replayed, and a pending switch is cancelled. -/
def W.freeze (w : W) (r halt : Nat) : W :=
  let doubt (m : Mx) : Mx := { m with firings := m.firings.map fun f => { f with suspect := true } }
  let w := (w.noteEstimate (w.region r).part).setHub fun h => { h with solves := h.solves.filter (· != r) }
  w.setRegion r fun g => { g with
    phase := .saving false w.now, pending := none, trigger := true
    isl := g.isl.map fun i => (i.1, { i.2 with edges := i.2.edge (halt - 1), since := w.now, p := 0, q := 1 })
    mxs := g.mxs.map fun m => (m.1, doubt m.2) }

/-- CHECKPOINT (R364): the halt grid cycle has come, from which no island keeps an edge; row firings are to be replayed, and a pending switch is cancelled. With no
entry for the task it is a kill (R363). -/
def execCheckpoint (r : Nat) (s : State) : Res :=
  run s fun w =>
    let g := w.region r
    match g.haltAt with
    | some h => w.guard (decide (h ≤ w.now) && !(w.part g.part).halted) fun w =>
        w.settle g.queue g.part (andThen (w.freeEntry g.queue g.part (3 + 69 * g.qw * g.qh)) fun w e => match e with
          | none => (w.killTask r, .ok ())
          | some _ => (w.freeze r h, .ok ()))
    | none => w

/-- What a checkpoint writes of quad k of a region; a quad without code has a sequencer that is not released, and its cells' pennants in its ring (R289). -/
def W.quadRuns (w : W) (r k : Nat) : List (Nat × List Byte) :=
  let g := w.region r
  let q := regionQuad g k
  let rg := tgetD w.m.rings q {}
  let sq := (seqRuns (w.seq q) rg ++ seqMore (w.seq q) rg).map fun y => (0x10000 * k + y.1, y.2)
  let pmcs := w.pmcRun q
  let cells := quadCells g.qw k
  let banks := (List.range 256).zip cells |>.map fun x => (fabricOff k + 0x40000 * x.1, memBytes (w.bank r x.2) 0 0x40000)
  let mx := (List.range 256).zip (quadMxs g.qw k) |>.flatMap fun x =>
    (mxRuns (w.mx r x.2) (w.cell r x.2) (g.oneTile x.2)).map fun y => (fabricOff k + 0x4140000 + 0x28000 * x.1 + y.1, y.2)
  sq ++ [(0x10000 * k + pmcs.1, pmcs.2)] ++ banks ++ mx

/-- CHECKPOINT_SAVE_COMPLETE (R365, R366): once every request that the task has sent has returned, its state is written, and its quads return. An access that
a replayable fault holds is saved as not issued, and a wait on a word that has been read and found too low reads it again on restore. -/
def execCheckpointSaveComplete (r : Nat) (s : State) : Res :=
  run s fun w =>
    let g := w.region r
    let quads := regionQuads g
    let sent := w.m.bus.reqs.any fun q => q.src.ofRegion r quads && !w.lowWait q
    w.guard ((g.phase matches .saving false _) && !sent && !(w.part g.part).halted) fun w =>
      w.settle g.queue g.part (andThen (w.freeEntry g.queue g.part (3 + 69 * g.qw * g.qh)) fun w e => match e with
        | none => (w.killTask r, .ok ())
        | some (e, base) =>
          let ks := List.range (g.qw * g.qh)
          andThen (w.putRuns g.queue g.part base (ks.flatMap (w.quadRuns r))) fun w _ =>
          andThen (w.putPrivate g.queue g.part base (ks.flatMap (privateAreas g.qw))) fun w _ =>
          andThen (w.putEntry g e 1) fun w _ => (w.taskSaved r e base false, .ok ()))

/-! ## Restores (R369, R370, R294) -/

/-- What a restore reads of a task image: the sequencer areas of its saved sequencers, by region quad. -/
def W.readAreas (w : W) (q part : Nat) (base : W64) (ks : List Nat) : Tried (Tbl (List Byte)) :=
  ks.foldl (fun x k => andThen x fun w t =>
    andThen (w.hubGet (.cp q) part (base + BitVec.ofNat 64 (0x10000 * k)) 0x8000) fun w b => (w, .ok (tput t k b.1))) (w, .ok [])
/-- And, of a checkpoint, the banks of its cells. -/
def W.readBanks (w : W) (q part : Nat) (base : W64) (qw n : Nat) : Tried (Tbl Memory) :=
  (List.range n).foldl (fun x k => ((List.range 256).zip (quadCells qw k)).foldl (fun x c => andThen x fun w t =>
    andThen (w.hubGet (.cp q) part (base + BitVec.ofNat 64 (fabricOff k + 0x40000 * c.1)) 0x40000) fun w b =>
      (w, .ok (let m := memPut [] 0 b.1; if m.isEmpty then t else tput t c.2 m))) x) (w, .ok [])

/-- And the areas of its matrix cells. -/
def W.readMxs (w : W) (q part : Nat) (base : W64) (qw n : Nat) : Tried (Tbl (List Byte)) :=
  (List.range n).foldl (fun x k => ((List.range 256).zip (quadMxs qw k)).foldl (fun x c => andThen x fun w t =>
    andThen (w.hubGet (.cp q) part (base + BitVec.ofNat 64 (fabricOff k + 0x4140000 + 0x28000 * c.1)) 0x20120) fun w b =>
      (w, .ok (tput t c.2 b.1))) x) (w, .ok [])
/-- The fabric of a checkpoint: banks, and areas of matrix cells. -/
def W.readFabric (w : W) (q part : Nat) (base : W64) (qw n : Nat) : Tried (Tbl Memory × Tbl (List Byte)) :=
  andThen (w.readBanks q part base qw n) fun w b => andThen (w.readMxs q part base qw n) fun w m => (w, .ok (b, m))

/-- The context area and the entry are as the saving left them (R370). -/
def restoreOk (hdr : List Byte) (x : TaskEntry) (y : Saved) (q : Nat) : Bool :=
  byteField hdr 0 4 == 0x4E474358 && byteField hdr 4 1 == 1 && x.state == (if y.drain then 2 else 1) && x.qw == y.region.qw && x.qh == y.region.qh &&
  x.queue == q && x.version == y.region.version.toNat && x.image == y.region.image.toNat && BitVec.ofNat 64 x.base == y.base &&
  y.version == Config.regVersion.toNat && !y.stopped

/-- An operator's copies on new quads (R36): its own quad, and of its old spare quads those for which there are new ones. -/
def Elem.moveCopies (x : Elem) (own : Nat) (moved : Nat → Option Nat) : Elem :=
  let cs := own :: x.copies.tail.filterMap moved
  if cs.length ≤ 1 then { x with copies := [], turn := 0, pass := 0 } else { x with copies := cs, turn := x.turn % cs.length }

/-- A checkpointed task on its new quads: its sequencers and rings, its operations, its waits, and the fabric, which waits for its solve. DESIGN CHOICE: copies of
operators go into the lowest spare quads of the new die, as far as it has so many (R36; log 15). -/
def W.resumeTask (w : W) (g : Region) (y : Saved) (e : Nat) (areas : Tbl (List Byte)) (fab : Tbl Memory × Tbl (List Byte)) : W :=
  let key := regionKey g
  let old := y.region
  let moved (q : Nat) : Nat := match (List.range (old.qw * old.qh)).find? fun k => regionQuad old k == q with | some k => regionQuad g k | none => q
  let g := { g with
    banks := fab.1, mxs := old.withMxs fab.2 fab.1, phase := .unsolved, trigger := true, pending := none, preempt := none, power := 0
    press := 0, pressedAt := none, spare := []
    isl := g.isl.map fun i => (i.1, { i.2 with since := w.now, vote := 0 })
    range := { g.range with asks := g.range.asks.map fun a => if a.bySeq then { a with who := moved a.who } else a }
    secQ := g.secQ.map fun q => if q.byElem then q else { q with who := moved q.who }
    applying := g.applying.map fun q => if q.byElem then q else { q with who := moved q.who } }
  let w := w.setM fun m => { m with regions := tput m.regions key g }
  let spare := (((List.range 40).map (40 * g.die + ·)).filter (w.quadFree g.part)).take old.spare.length
  let anew (q : Nat) : Option Nat := spare[old.spare.findIdx (· == q)]?
  let w := w.setRegion key fun g => { g with spare := spare, elems := g.elems.map fun x => (x.1, x.2.moveCopies (siteQuad g (x.1 / 8)) anew) }
  let w := w.takeQuads g
  let w := y.seqs.foldl (fun w x =>
    let sq := match tget areas x.1 with | some bs => (x.2.withArea bs).withState bs | none => x.2
    w.setM fun m => { m with seqs := tput m.seqs (regionQuad g x.1) { sq with region := key, ready := false } }) w
  let w := y.rings.foldl (fun w x =>
    let r := match tget areas x.1 with | some bs => x.2.withArea bs | none => x.2
    w.setM fun m => { m with rings := tput m.rings (regionQuad g x.1) r }) w
  let home (s : Src) : Src := match s with
    | .task p e' k => if p = g.part ∧ e' = e then .seq (regionQuad g k) 0 else s
    | s => s
  let here (s : Src) : Src := match s with
    | .seq q n => .seq (moved q) n
    | .elem _ c n => .elem key c n
    | s => s
  let waits := y.watches.map fun q => { q with src := here q.src, agent := w.orderOf (here q.src), die := g.die, due := [0] }
  let w := w.setBus fun b => { b with reqs := b.reqs ++ waits }
  w.setHub fun h => { h with
    copies := h.copies.map fun c => let s := home c.src; { c with src := s, region := if s == c.src then c.region else key }
    colls := h.colls.map fun c => let s := home c.src; { c with src := s, region := if s == c.src then c.region else key }
    stamped := h.stamped.map fun c => { c with src := home c.src }
    appends := h.appends.map fun a => { a with src := home a.src } }

/-- The saved task stands in no entry any more: its timer restarts from zero, also where another LAUNCH of its queue waits (R361), and its queue's monitor is armed and
WR_INDEX read again once none of the queue's tasks is saved (R348). -/
def W.restored (w : W) (q part e i : Nat) : W :=
  let w := (w.setPart part fun p => { p with saved := tdel p.saved e }).syncSaved part
  let w := w.stepQueue q fun u => (u.placed i w.ns).rise w.ns
  if (w.queue q).away then w else (w.arm q).readWr q

/-- RESTORE (R369, R370): a queue's saved task is placed. A checkpoint's state is written back and it waits for its solve; a drained task's image is loaded
afresh, and its sequencers go on from what was saved (R293, R294). A failed check halts the partition with 0x3F5. -/
def execRestore (q : Nat) (s : State) : Res :=
  run s fun w =>
    match w.waiting.find? fun x => x.1 == q && x.2.2.saved.isSome && (w.grantOf x).isSome with
    | none => w
    | some x =>
      match x.2.2.saved, w.grantOf x with
      | some e, some p =>
        let part := w.queuePart q
        match tget (w.part part).saved e with
        | none => w.raiseHub part 0x3F5 (w.cpAgent q) 0 0 (w.queue q).ref
        | some y => w.settle q part (
            andThen (w.hubGet (.cp q) part (w.ctxAt part 0) 16) fun w hdr =>
            andThen (w.hubGet (.cp q) part (w.ctxAt part (entryOff e)) 64) fun w ent =>
              if !restoreOk hdr.1 (taskEntryOf ent.1) y q then (w.raiseHub part 0x3F5 (w.cpAgent q) 0 0 (w.queue q).ref, .ok ())
              else
                andThen (w.readAreas q part y.base (List.range (y.region.qw * y.region.qh))) fun w areas =>
                andThen (if y.drain then (w, .ok ([], [])) else w.readFabric q part y.base y.region.qw (y.region.qw * y.region.qh)) fun w fab =>
                andThen (w.hubPut (.cp q) part (w.ctxAt part (entryOff e + 12)) {} [0]) fun w _ =>
                  let w := if w.anyRunning part || !(w.part part).parked then w
                    else w.setPart part fun p => { p with flags := BitVec.ofNat 7 (byteField hdr.1 8 8), parked := false }
                  let g := { y.region with die := p.1, qx := p.2.1, qy := p.2.2 }
                  let w := areas.foldl (fun w a => w.putPmcs (regionQuad g a.1) a.2) w
                  let w := if y.drain then
                      let seqs := y.seqs.map fun s => (s.1, match tget areas s.1 with | some bs => s.2.withArea bs | none => s.2)
                      let g := { x.2.2.region part q p with
                        resume := some (seqs.filter fun s => s.2.released, g.rate), rootDone := g.rootDone, range := g.range, jobStep := g.jobStep }
                      (w.setM fun m => { m with regions := tput m.regions (regionKey g) g }).takeQuads g
                    else w.resumeTask g y e areas fab
                  let g' := w.region (regionKey g)
                  -- its agents go on once they see what they had seen (R87)
                  if !w.regionSees (regionKey g) g' then (w, .error .wait)
                  else ((w.regionGains (regionKey g) g').restored q part e x.2.1, .ok ()))
      | _, _ => w

end Sys2Proof.Machine
end

