-- ==== Sys2Proof/Machine/Debug.lean ====
section
/-! DEFINITION. Sys2Proof/Machine/Debug.lean: the hoist assembler and debug stops (27_debug_trace.md R393 to R395, R398). -/

namespace Sys2Proof.Machine

/-! ## Hoist records (R394, R395) -/

/-- Fields of a pennant's bytes (R390). -/
def pField (p : BitVec 256) (hi lo : Nat) : Nat := p.toNat / 2 ^ lo % 2 ^ (hi - lo + 1)
def pKind (p : BitVec 256) : Nat := pField p 247 240
def pRef (p : BitVec 256) : W32 := BitVec.ofNat 32 (pField p 95 64)
/-- The event of a hop: its ARRIVAL, of a slot taken its WAIT_END. -/
def pEvent (p : BitVec 256) : Nat := if pKind p = 0x20 then pField p 239 192 else pField p 191 144

/-- SPAN of a hop before another: 0 before a truncated one. -/
def spanOf (h next : BitVec 256 × W32 × Bool × Bool) : Nat :=
  if next.2.2.1 then 0 else (pEvent h.1 + 2 ^ 48 - pEvent next.1) % 2 ^ 48

/-- The 4 KiB of a hoist record. -/
def hoistBytes (part : Nat) (h : Hoist) : List Byte :=
  let bit (b : Bool) : Nat := if b then 1 else 0
  let head := packFields [(32, h.step.toNat), (32, h.mark.toNat), (64, h.time), (8, part), (8, h.hops.length), (1, bit h.trunc), (1, bit h.limit), (6, 0),
    (8, h.region), (32, h.version.toNat), (320, 0)]
  let hops := (List.range h.hops.length).flatMap fun i =>
    let x := h.hops.getD i default
    let span := match h.hops[i + 1]? with | some y => spanOf x y | none => 0
    leBytes 48 (packFields [(256, x.1.toNat), (32, x.2.1.toNat), (1, bit x.2.2.1), (1, bit x.2.2.2), (30, 0), (64, span)])
  let bs := leBytes 64 head ++ hops
  bs ++ List.replicate (4096 - bs.length) 0

/-- A walk with one more hop: a truncated hop, or a step mark after the first, ends it; so does a reference of 0, and the 64th hop. -/
def Hoist.hop (h : Hoist) (p : Option (BitVec 256)) (remote : Bool) : Hoist :=
  match p with
  | none => { h with hops := h.hops ++ [(0, h.ref, true, remote)], trunc := true, ended := true }
  | some p =>
    let hops := h.hops ++ [(p, h.ref, false, remote)]
    if 1 < hops.length ∧ pKind p = 9 then { h with hops := hops, ended := true }
    else if hops.length = 64 then { h with hops := hops, limit := true, ended := true }
    else { h with hops := hops, ref := pRef p, ended := decide (pRef p = 0) }

/-- The walk at the head of a partition's queue. -/
def W.setHoist (w : W) (part : Nat) (h : Hoist) : W := w.setPart part fun p => { p with hoists := h :: p.hoists.tail }
/-- It names an entry of another device. -/
def W.remoteRef (w : W) (ref : W32) : Bool := field ref 31 19 != w.fld Bar.devLoc 12 0

/-- HOIST_WALK (R393): the walk at the head of the queue reads its next hop, from a ring of this device if it resolves there, from another device as what that
device answers (log 12); a walk that has ended writes its record. -/
def execHoistWalk (part : Nat) (s : State) : Res :=
  run s fun w =>
    match (w.part part).hoists with
    | [] => w
    | h :: _ =>
      if h.ended then
        let w := w.areaAppend (Bar.partHoist part) part 16 4096 (hoistBytes part h)
        w.setPart part fun p => { p with hoists := p.hoists.tail }
      else
        let first := !h.started
        let h := if first then { h with started := true, ref := h.mark } else h
        if w.remoteRef h.ref then
          let (w, stale) := w.freeBelow 2
          let (w, bs) := w.freeBytes 32
          w.setHoist part (h.hop (if stale = 1 then none else some (BitVec.ofNat 256 (leNat bs))) true)
        else w.setHoist part (h.hop ((w.resolve h.ref part).map (·.bytes)) false)

/-- HOIST_FETCH_TIMEOUT (R393): no answer from another device within 10 µs: the hop counts as stale. -/
def execHoistFetchTimeout (part : Nat) (s : State) : Res :=
  run s fun w =>
    match (w.part part).hoists with
    | [] => w
    | h :: _ => w.guard (h.started && !h.ended && w.remoteRef h.ref) fun w => w.setHoist part (h.hop none true)

/-! ## Precise stops (R398) -/

/-- DEBUG_STOP: on the first edge on which its conditions hold, after which nothing fires, the task is checkpointed and HIT set; without an entry for it MISS is
set, and the task goes on. -/
def execDebugStop (part : Nat) (s : State) : Res :=
  run s fun w =>
    let off := Bar.partDbg part
    let r := w.fld off 47 40
    let g := w.region r
    w.guard ((tget w.m.regions r).isSome && g.part == part && w.stopDue g && (g.isl.any fun i => i.2.kept w.now) && !(w.part part).halted) fun w =>
      w.settle g.queue part (andThen (w.freeEntry g.queue part (3 + 69 * g.qw * g.qh)) fun w e => match e with
        | none => ((w.setFld off 2 2 1).setFld off 0 0 0, .ok ())
        | some _ => (((w.setFld off 1 1 1).setFld off 0 0 0).setRegion r (fun g => { g with preempt := some (1, w.now) }) |>.freeze r w.now, .ok ()))

end Sys2Proof.Machine
end

