-- ==== Sys2Proof/Machine/Registers.lean ====
section
/-! DEFINITION. Sys2Proof/Machine/Registers.lean: the host's writes to the registers of BAR0 (23_host_and_command_processor.md R341 to R349 and the
register maps of 24 to 30). A write event takes the whole word; each register has one operation, which its own event and REGISTER_WRITE share. -/

namespace Sys2Proof.Machine

/-- Copy a field of a written word into a register. -/
def W.take (w : W) (off hi lo : Nat) (v : W64) : W := w.setFld off hi lo (field v hi lo)
/-- Copy it if a condition on its value holds. -/
def W.takeIf (w : W) (off hi lo : Nat) (v : W64) (p : Nat → Bool) : W := w.guard (p (field v hi lo)) fun w => w.take off hi lo v

/-! ## The device and its partitions (R343 to R346) -/

/-- DEV_CFG: PRE_WAIT, AGE but for 0, and the request counters that REQCLR names. -/
def W.writeDevCfg (w : W) (v : W64) : W :=
  let w := (w.take Bar.devCfg 47 32 v).takeIf Bar.devCfg 15 0 v (· != 0)
  -- a request that is counted on this cycle is counted after the clear
  let clear (w : W) (off : Nat) : W := w.setBar off (BitVec.ofNat 64 (w.countedNow off))
  (List.range 4).foldl (fun w d => w.guard (v.getLsbD (48 + d)) fun w => clear (clear (clear w (Bar.lreq d)) (Bar.rreqo d)) (Bar.rreqi d)) w
/-- REQ_COUNTER_CLEAR. -/
def execReqCounterClear (v : BitVec 64) (s : State) : Res := run s fun w => w.guard (w.ready && field v 51 48 != 0) fun w => w.writeDevCfg v

/-- A quad is set in the mask of an enabled partition other than n. -/
def W.quadHeld (w : W) (n quad : Nat) : Bool := (List.range 16).any fun m => m != n && w.enabled m && w.maskBit m quad
/-- A quad holds a fenced sector (R411). -/
def W.quadFenced (w : W) (quad : Nat) : Bool := (List.range 4).any fun i => (w.sector (4 * quad + i)).fenced

/-- One bit of a mask write: one that would be set stays clear when another enabled partition holds the quad or a sector of it is fenced; one that would
be cleared under a region of the partition is cleared when that region returns. -/
def W.writeMaskBit (w : W) (n quad : Nat) (b : Bool) : W :=
  let mine := match w.quadRegion quad with | some (_, g) => g.part == n | none => false
  if b && !w.quadHeld n quad && !w.quadFenced quad then
    (w.setMask n quad true).setPart n fun p => { p with clears := p.clears.filter (· != quad) }
  else if w.maskBit n quad && mine then w.setPart n fun p => { p with clears := p.clears.filter (· != quad) ++ [quad] }
  else w.setMask n quad false
/-- PART_QMASKi. -/
def W.writeQmask (w : W) (n i : Nat) (v : W64) : W :=
  (List.range 64).foldl (fun w b => w.guard (decide (64 * i + b < 160)) fun w => w.writeMaskBit n (64 * i + b) (v.getLsbD b)) w
/-- QMASK_WRITE. -/
def execQmaskWrite (n i : Nat) (v : BitVec 64) (s : State) : Res :=
  run s fun w => w.guard (w.ready && decide (n < 16 ∧ i < 3)) fun w => w.writeQmask n i v

/-- A partition whose halt has been accepted can be halted again: a restart of its queues, or its creation (R356). -/
def W.unhalt (w : W) (n : Nat) : W := w.guard (w.part n).halted fun w => w.setPart n fun p => { p with halted := false, halts := [] }

/-- PART_CTL. EN = 1 sets the energy counters to 0 (R383), and creates a partition that was not enabled: SQ_FLAGS is zero and TOKENS is TOKMAX (R344); mask bits that
another enabled partition holds are cleared (log 26). EN = 0 ends one that was, with cause 0x3F3. -/
def W.writePartCtl (w : W) (n : Nat) (v : W64) : W :=
  let off := Bar.partCtl n
  let was := w.enabled n
  let vf := field v 31 28
  let taken := vf != 0 && (List.range 16).any fun m => m != n && w.enabled m && w.fld (Bar.partCtl m) 31 28 == vf
  if v.getLsbD 0 && taken then w
  else
    let w := ((((w.take off 55 40 v).take off 39 32 v).takeIf off 23 22 v (decide <| · ≤ 2)).take off 21 19 v).take off 1 1 v
    let w := if was then w else w.take off 31 28 v
    let w := if v.getLsbD 0 then (w.setBar (Bar.partEnergy n) 0).setBar (Bar.partCredit n) 0 else w
    if v.getLsbD 0 && !was then
      let w := (w.setFld off 0 0 1).setFld (Bar.partTok n) 15 0 (field v 55 40)
      let w := (w.unhalt n).setPart n fun p => { p with
        flags := 0, parked := false, refills := w.ns / 1000000, refilled := (0, 0)
        meters := w.ns / 1000000, overCap := 0, lastUj := 0, lastEst := 0, estSum := 0, estFrom := w.ns, estAt := w.ns }
      (List.range 160).foldl (fun w q => w.guard (w.maskBit n q && w.quadHeld n q) fun w => w.setMask n q false) w
    else if !v.getLsbD 0 && was then (w.setFld off 0 0 0).raiseHub n 0x3F3 w.hostAgent
    else w
/-- PARTITION_CREATE. -/
def execPartitionCreate (n : Nat) (v : BitVec 64) (s : State) : Res :=
  run s fun w => w.guard (w.ready && decide (n < 16) && v.getLsbD 0) fun w => w.writePartCtl n v
/-- PARTITION_DISABLE. -/
def execPartitionDisable (n : Nat) (v : BitVec 64) (s : State) : Res :=
  run s fun w => w.guard (w.ready && decide (n < 16) && !v.getLsbD 0) fun w => w.writePartCtl n v

/-- PART_TOK: the balance, at most TOKMAX; a spend on this cycle takes from it as it is written. -/
def W.writePartTok (w : W) (n : Nat) (v : W64) : W :=
  (w.setPart n fun p => { p with refilled := (0, 0) }).setFld (Bar.partTok n) 15 0 (min (field v 15 0) (w.fld (Bar.partCtl n) 55 40))
/-- PART_WDOG: T1, and T2 but for 0 (R362). -/
def W.writePartWdog (w : W) (n : Nat) (v : W64) : W := (w.take (Bar.partWdog n) 31 16 v).takeIf (Bar.partWdog n) 15 0 v (· != 0)

/-- An area register: SZ up to 7 and BASE are written, the flags and COUNT are cleared (R359, R399, R420). -/
def W.writeArea (w : W) (off : Nat) (v : W64) : W :=
  (((w.takeIf off 63 60 v (decide <| · ≤ 7)).take off 55 12 v).setFld off 59 58 0).setFld off 11 0 0
/-- PART_STOP_WRITE, ERR_LOG_WRITE, PART_TRACE_WRITE, PART_HOIST_WRITE. -/
def execPartStopWrite (n : Nat) (v : BitVec 64) (s : State) : Res :=
  run s fun w => w.guard (w.ready && decide (n < 16)) fun w => w.writeArea (Bar.partStop n) v
def execErrLogWrite (v : BitVec 64) (s : State) : Res := run s fun w => w.guard w.ready fun w => w.writeArea Bar.errLog v
def execPartTraceWrite (n : Nat) (v : BitVec 64) (s : State) : Res :=
  run s fun w => w.guard (w.ready && decide (n < 16)) fun w => w.writeArea (Bar.partTrace n) v
def execPartHoistWrite (n : Nat) (v : BitVec 64) (s : State) : Res :=
  run s fun w => w.guard (w.ready && decide (n < 16)) fun w => w.writeArea (Bar.partHoist n) v

/-- A task of the partition is saved: an entry of its context area has STATE ≠ 0 (R367). -/
def W.anySaved (w : W) (n : Nat) : W × Bool :=
  if !(w.part n).saved.isEmpty then (w, true)
  else (List.range 16).foldl (fun acc e =>
    if acc.2 then acc
    else match acc.1.hubTake n (acc.1.ctxAt n (entryOff e)) 64 with
      | (w, some bs) => (w, (taskEntryOf bs).state != 0)
      | (w, none) => (w, false)) (w, false)
/-- PART_CTXB: BASE, while no task is saved. -/
def W.writePartCtxb (w : W) (n : Nat) (v : W64) : W :=
  match w.anySaved n with
  | (w, saved) => w.guard (!saved) fun w => w.take (Bar.partCtxb n) 55 12 v
/-- PART_PTB and PF_PTB: ROOT while EN = 0, and EN (R374). -/
def W.writePtb (w : W) (off : Nat) (v : W64) : W := (if (w.bar off).getLsbD 0 then w else w.take off 51 12 v).take off 0 0 v

/-- PART_DBG (R399): the region and the version while not armed, the sampling exponent up to 24; a 1 clears MISS or HIT. -/
def W.writePartDbg (w : W) (n : Nat) (v : W64) : W :=
  let off := Bar.partDbg n
  let w := if (w.bar off).getLsbD 0 then w else (w.take off 47 40 v).take off 39 8 v
  let w := w.takeIf off 7 3 v (decide <| · ≤ 24)
  let w := w.guard (v.getLsbD 2) fun w => w.setFld off 2 2 0
  let w := w.guard (v.getLsbD 1) fun w => w.setFld off 1 1 0
  w.take off 0 0 v
/-- PART_DBG_WRITE. -/
def execPartDbgWrite (n : Nat) (v : BitVec 64) (s : State) : Res := run s fun w => w.guard (w.ready && decide (n < 16)) fun w => w.writePartDbg n v

/-! ## Queues and interrupts (R347, R349) -/

/-- Bytes 16 to 63 of a descriptor keep R120. -/
def descOk (bs : List Byte) : Bool :=
  let base := leNat ((bs.drop 16).take 8)
  let slots := leNat ((bs.drop 24).take 4)
  (base % 64 == 0) && decide (base < 2 ^ 56) && ((List.range 16).any fun k => slots == 2 ^ (k + 1)) && (bs.drop 28).all (· == 0)

/-- The CP reads the descriptor of a queue with EN = 1 and begins to serve it. While its translation waits, the queue waits, and QUEUE_ENABLE comes again (log 26). -/
def W.openQueue (w : W) (q : Nat) : W :=
  let part := w.queuePart q
  let desc : W64 := BitVec.ofNat 64 (w.fld (Bar.qCfg q) 55 6 * 64)
  w.settle q part (andThen (w.hubGet (.cp q) part desc 64) fun w x =>
    if !descOk x.1 then (w, .error (.fault 0x0F1 desc))
    else
      let u := w.queue q
      let u' : Queue := { base := desc, slotBase := BitVec.ofNat 64 (leNat ((x.1.drop 16).take 8)), slots := leNat ((x.1.drop 24).take 4)
                          rd := leNat ((x.1.drop 8).take 8), on := true, ref := u.ref, last := u.last }
      ((w.setQueue q fun _ => u'.sawWr (leNat (x.1.take 8)) w.ns).arm q, .ok ()))

/-- Q_CFG, written by function fn: PART by the PF, LEVEL and DESC while EN = 0; EN of a queue of an enabled partition. -/
def W.writeQCfg (w : W) (fn q : Nat) (v : W64) : W :=
  let off := Bar.qCfg q
  let own := fn == 0 || w.bar2Part fn == some (w.queuePart q)
  let was := (w.bar off).getLsbD 63
  let u := w.queue q
  if !own then w
  else if was then
    if !v.getLsbD 63 then (w.setQueue q fun u => { u with stopping := true }).queueIdle q
    else w.guard (!u.on && !u.stopping) fun w => w.openQueue q
  else
    let w := if fn = 0 then w.take off 62 59 v else w
    let w := (w.take off 58 56 v).take off 55 6 v
    let part := w.queuePart q
    w.guard (v.getLsbD 63 && w.enabled part) fun w =>
      (((w.setFld off 63 63 1).setFld off 0 0 0).unhalt part).openQueue q
/-- QUEUE_ENABLE. -/
def execQueueEnable (fn q : Nat) (v : BitVec 64) (s : State) : Res :=
  run s fun w => w.guard (w.ready && decide (q < 1024 ∧ fn < 16) && v.getLsbD 63) fun w => w.writeQCfg fn q v
/-- QUEUE_DISABLE. -/
def execQueueDisable (fn q : Nat) (v : BitVec 64) (s : State) : Res :=
  run s fun w => w.guard (w.ready && decide (q < 1024 ∧ fn < 16) && !v.getLsbD 63) fun w => w.writeQCfg fn q v

/-- FN_IRQ: COAL_N but for 0, COAL_T, and vectors up to 255. -/
def W.writeFnIrq (w : W) (f : Nat) (v : W64) : W :=
  let off := Bar.fnIrq f
  (((w.takeIf off 55 48 v (· != 0)).take off 47 32 v).takeIf off 31 16 v (decide <| · ≤ 255)).takeIf off 15 0 v (decide <| · ≤ 255)
/-- FQ_CFG: SZ and BASE while EN = 0, and EN (R377). -/
def W.writeFqCfg (w : W) (d : Nat) (v : W64) : W :=
  let off := Bar.fqCfg d
  (if (w.bar off).getLsbD 0 then w else (w.takeIf off 63 60 v (decide <| · ≤ 7)).take off 51 12 v).take off 0 0 v

/-! ## Power (R382 to R388) -/

/-- PKG_PLIM: 1,000 to 2,400 W; the measured scales end (R384), and a change is a trigger for every running region (R382). -/
def W.writePlim (w : W) (v : W64) : W :=
  let n := field v 11 0
  w.guard (decide (1000 ≤ n ∧ n ≤ 2400)) fun w =>
    if w.fld Bar.pkgPlim 11 0 = n then w.endScales else (w.setFld Bar.pkgPlim 11 0 n).limitChanged
/-- PKG_PLIM_WRITE. -/
def execPkgPlimWrite (v : BitVec 64) (s : State) : Res := run s fun w => w.guard w.ready fun w => w.writePlim v

/-- PART_PCAP: a trigger for the partition's regions; the measured scale ends (R384). -/
def W.writePcap (w : W) (n : Nat) (v : W64) : W :=
  let w := (w.take (Bar.partPcap n) 11 0 v).setPart n fun p => { p with scaleN := 1, scaleD := 1, overCap := 0 }
  w.triggerSolve fun _ g => g.part == n && (g.runs || g.phase == .unsolved)
/-- PART_PCAP_WRITE. -/
def execPartPcapWrite (n : Nat) (v : BitVec 64) (s : State) : Res := run s fun w => w.guard (w.ready && decide (n < 16)) fun w => w.writePcap n v
/-- PART_ENERGY_WRITE, PART_CREDIT_WRITE. -/
def execPartEnergyWrite (n : Nat) (_v : BitVec 64) (s : State) : Res :=
  run s fun w => w.guard (w.ready && decide (n < 16)) fun w => w.setBar (Bar.partEnergy n) 0
def execPartCreditWrite (n : Nat) (_v : BitVec 64) (s : State) : Res :=
  run s fun w => w.guard (w.ready && decide (n < 16)) fun w => w.setBar (Bar.partCredit n) 0

/-- A die's power gating is off: no hold in progress on it gates a sector off, and a sector that stays idle begins a new one once it is on again (R385; log 57). -/
def W.endHolds (w : W) (d : Nat) : W :=
  (List.range 160).foldl (fun w k => let n := 160 * d + k; if (w.sector n).gate ≤ 1 then w.setSector n fun x => { x with lastNs := w.ns } else w) w

/-- RAIL_CFG: DTHR 2 to 6, PGEN, and TRIM, a change of which votes every rail of the die again. -/
def W.writeRailCfg (w : W) (d : Nat) (v : W64) : W :=
  let off := Bar.railCfg d
  let old := w.fld off 1 0
  let gates := (w.bar off).getLsbD 8
  let w := ((w.takeIf off 15 12 v fun n => decide (2 ≤ n ∧ n ≤ 6)).take off 8 8 v).take off 1 0 v
  let w := if gates = (w.bar off).getLsbD 8 then w else w.endHolds d
  if w.fld off 1 0 = old then w else w.revoteAll ((List.range 40).map (40 * d + ·))
/-- RAIL_CFG_WRITE. -/
def execRailCfgWrite (die : Nat) (v : BitVec 64) (s : State) : Res := run s fun w => w.guard (w.ready && decide (die < 4)) fun w => w.writeRailCfg die v
/-- INRUSH_STAT_WRITE. -/
def execInrushStatWrite (die : Nat) (_v : BitVec 64) (s : State) : Res :=
  run s fun w => w.guard (w.ready && decide (die < 4)) fun w => w.setFld (Bar.inrushStat die) 47 16 0

/-- The eight entries of a ramp table do not decrease. -/
def slewOk (v : W64) : Bool := (List.range 7).all fun e => decide (field v (2 * e + 1) (2 * e) ≤ field v (2 * e + 3) (2 * e + 2))
/-- SLEW_TAB: the table is written, and counts for a ramp that starts on this very island edge (R387). -/
def W.writeSlew (w : W) (quad : Nat) (v : W64) : W :=
  if !slewOk v then w
  else
    let w := w.take (Bar.slewTab quad) 15 0 v
    match w.quadRegion quad with
    | none => w
    | some (r, g) =>
      let now (c : Nat) (m : Mx) : Mx :=
        { m with ramp := m.ramp.map fun p => if !p.resume && siteQuad g c == quad && p.start == w.edgeOf g c then { p with table := field v 15 0 } else p }
      w.setRegion r fun g => { g with mxs := g.mxs.map fun m => (m.1, now m.1 m.2) }
/-- SLEW_TAB_WRITE. -/
def execSlewTabWrite (quad : Nat) (v : BitVec 64) (s : State) : Res := run s fun w => w.guard (w.ready && decide (quad < 160)) fun w => w.writeSlew quad v
/-- QUAD_COUNTER_WRITE: k is 0 SPILLCYC, 1 FILLERS, 2 DROOPS, 3 REPLAYS. -/
def execQuadCounterWrite (quad k : Nat) (_v : BitVec 64) (s : State) : Res :=
  run s fun w => w.guard (w.ready && decide (quad < 160 ∧ k < 4)) fun w => w.clearQuad quad k

/-! ## Counters, telemetry and links (R400, R402, R416) -/

/-- PMCi: ignored while its event is not countable. -/
def W.writePmc (w : W) (quad i : Nat) (v : W64) : W :=
  w.guard (pmcCountable (w.fld (Bar.pmsel quad) (8 * i + 7) (8 * i))) fun w => w.setBar (Bar.pmc quad i) (BitVec.ofNat 64 (v.toNat % pmcMod))
/-- PMC_WRITE. -/
def execPmcWrite (quad i : Nat) (v : BitVec 64) (s : State) : Res :=
  run s fun w => w.guard (w.ready && decide (quad < 160 ∧ i < 8)) fun w => w.writePmc quad i v

/-- TEMP_d: TLIM from 60 to 110 °C, and MAX becomes TEMP. -/
def W.writeTemp (w : W) (d : Nat) (v : W64) : W :=
  let off := Bar.temp d
  (w.takeIf off 47 32 v fun n => decide (480 ≤ n ∧ n ≤ 880)).setFld off 31 16 (w.fld off 15 0)
/-- TEMP_WRITE. -/
def execTempWrite (die : Nat) (v : BitVec 64) (s : State) : Res := run s fun w => w.guard (w.ready && decide (die < 5)) fun w => w.writeTemp die v

/-- DEV_LOC: while every link is down, and if the sizes hold and the id is on the torus. -/
def W.writeDevLoc (w : W) (v : W64) : W :=
  let n := (field v 20 16 + 1) * (field v 28 24 + 1) * (field v 36 32 + 1)
  let down := (List.range 18).all fun l => w.fld (Bar.linkCtl l) 63 63 == 0
  w.guard (down && decide (n ≤ 8192 ∧ field v 12 0 < n)) fun w =>
    -- the time master's counter is not steered (R404)
    let w := if v.getLsbD 40 then w.setHub fun h => { h with steer := 0 } else w
    ((((w.take Bar.devLoc 40 40 v).take Bar.devLoc 36 32 v).take Bar.devLoc 28 24 v).take Bar.devLoc 20 16 v).take Bar.devLoc 12 0 v
/-- DEV_LOC_WRITE. -/
def execDevLocWrite (v : BitVec 64) (s : State) : Res := run s fun w => w.guard w.ready fun w => w.writeDevLoc v
/-- LINK_ERR_WRITE. -/
def execLinkErrWrite (link : Nat) (_v : BitVec 64) (s : State) : Res :=
  run s fun w => w.guard (w.ready && decide (link < 18)) fun w => w.setBar (Bar.linkErr link) 0

/-! ## Any register (R341, R342) -/

/-- f at the index of an offset in an array of registers, else the rest. -/
def W.at' (w : W) (off base stride count : Nat) (f : Nat → W → W) (rest : W → W) : W :=
  match Bar.index off base stride count with
  | some i => f i w
  | none => rest w

/-- A write through the PF's window; an offset with no register, or with a read-only one, discards it. -/
def W.writeReg (w : W) (off : Nat) (v : W64) : W :=
  if off = Bar.devCfg then w.writeDevCfg v
  else if off = Bar.pfPtb then w.writePtb off v
  else if off = Bar.tlbInv then w.writeTlbInv v
  else if off = Bar.pkgPlim then w.writePlim v
  else if off = Bar.devLoc then w.writeDevLoc v
  else if off = Bar.bootStat then w.writeBootStat v
  else if off = Bar.attCtl then w.writeAttCtl v
  else if off = Bar.measExt then w.writeMeasExt v
  else if off = Bar.errLog then w.writeArea off v
  else if off = Bar.fwCtl then w.writeFwCtl v
  else
    w.at' off (Bar.partCtl 0) 0x40 16 (fun n w => w.writePartCtl n v) fun w =>
    w.at' off (Bar.partTok 0) 0x40 16 (fun n w => w.writePartTok n v) fun w =>
    w.at' off (Bar.partQmask 0 0) 0x40 16 (fun n w => w.writeQmask n 0 v) fun w =>
    w.at' off (Bar.partQmask 0 1) 0x40 16 (fun n w => w.writeQmask n 1 v) fun w =>
    w.at' off (Bar.partQmask 0 2) 0x40 16 (fun n w => w.writeQmask n 2 v) fun w =>
    w.at' off (Bar.partStop 0) 0x40 16 (fun n w => w.writeArea (Bar.partStop n) v) fun w =>
    w.at' off (Bar.partCtxb 0) 0x40 16 (fun n w => w.writePartCtxb n v) fun w =>
    w.at' off (Bar.partWdog 0) 0x40 16 (fun n w => w.writePartWdog n v) fun w =>
    w.at' off (Bar.qCfg 0) 8 1024 (fun q w => w.writeQCfg 0 q v) fun w =>
    w.at' off (Bar.fnIrq 0) 8 16 (fun f w => w.writeFnIrq f v) fun w =>
    w.at' off (Bar.partPtb 0) 8 16 (fun n w => w.writePtb (Bar.partPtb n) v) fun w =>
    w.at' off (Bar.fqCfg 0) 0x40 5 (fun d w => w.writeFqCfg d v) fun w =>
    w.at' off (Bar.fqPtr 0) 0x40 5 (fun d w => w.take (Bar.fqPtr d) 63 32 v) fun w =>
    w.at' off (Bar.fqReply 0) 0x40 5 (fun d w => w.writeFqReply d v) fun w =>
    w.at' off (Bar.partPcap 0) 0x20 16 (fun n w => w.writePcap n v) fun w =>
    w.at' off (Bar.partEnergy 0) 0x20 16 (fun n w => w.setBar (Bar.partEnergy n) 0) fun w =>
    w.at' off (Bar.partCredit 0) 0x20 16 (fun n w => w.setBar (Bar.partCredit n) 0) fun w =>
    w.at' off (Bar.railCfg 0) 0x40 4 (fun d w => w.writeRailCfg d v) fun w =>
    w.at' off (Bar.inrushStat 0) 0x40 4 (fun d w => w.setFld (Bar.inrushStat d) 47 16 0) fun w =>
    w.at' off (Bar.slewTab 0) 8 160 (fun q w => w.writeSlew q v) fun w =>
    w.at' off (Bar.quadCounter 0 0) 8 640 (fun k w => w.clearQuad (k / 4) (k % 4)) fun w =>
    w.at' off (Bar.partTrace 0) 0x20 16 (fun n w => w.writeArea (Bar.partTrace n) v) fun w =>
    w.at' off (Bar.partHoist 0) 0x20 16 (fun n w => w.writeArea (Bar.partHoist n) v) fun w =>
    w.at' off (Bar.partDbg 0) 0x20 16 (fun n w => w.writePartDbg n v) fun w =>
    w.at' off (Bar.linkCtl 0) 0x20 18 (fun l w => w.writeLinkCtl l v) fun w =>
    w.at' off (Bar.linkErr 0) 0x20 18 (fun l w => w.setBar (Bar.linkErr l) 0) fun w =>
    w.at' off (Bar.partComm 0) 8 16 (fun n w => w.take (Bar.partComm n) 55 11 v) fun w =>
    w.at' off (Bar.temp 0) 8 5 (fun d w => w.writeTemp d v) fun w =>
    w.at' off (Bar.pmsel 0) 0x80 160 (fun q w => w.setBar (Bar.pmsel q) v) fun w =>
    match (List.range 8).find? fun i => (Bar.index off (Bar.pmc 0 i) 0x80 160).isSome with
    | some i => w.writePmc ((off - Bar.pmc 0 i) / 0x80) i v
    | none => w

/-- A write through the window of a VF bound to a partition: its FN_IRQ, and Q_CFG of the partition's own queues (R342). -/
def W.writeVfReg (w : W) (fn off : Nat) (v : W64) : W :=
  if (w.bar2Part fn).isNone then w
  else if off = 0x40 then w.writeFnIrq fn v
  else w.at' off 0x2000 8 1024 (fun q w => w.writeQCfg fn q v) id

/-- REGISTER_WRITE (R341, R342): a write of `size` bytes by function fn; only aligned writes of 8 bytes count, and before READY
only those of BOOT_STAT (log 12). -/
def execRegisterWrite (fn size off : Nat) (v : BitVec 64) (s : State) : Res :=
  run s fun w => w.guard ((w.ready || (w.answers && fn == 0 && off == Bar.bootStat)) && size == 8 && off % 8 == 0 && decide (fn < 16)) fun w => if fn = 0 then w.writeReg off v else w.writeVfReg fn off v

end Sys2Proof.Machine
end

