-- ==== Sys2Proof/Machine/SeqAlu.lean ====
section
/-! DEFINITION. Sys2Proof/Machine/SeqAlu.lean: scalar arithmetic, branches and jumps of the sequencer (14_sequencer.md R256, R260). -/

namespace Sys2Proof.Machine

/-! ## Arithmetic (R256) -/

/-- sext(a[n−1:0], n). -/
def sextBits (n : Nat) (a : W64) : W64 := BitVec.ofInt 64 (sextNat n (a.toNat % 2 ^ n))
/-- The signed quotient truncated toward zero; by zero all ones. −2^63 by −1 gives −2^63. -/
def divWord (a b : W64) : W64 := if b = 0 then 0xFFFFFFFFFFFFFFFF else BitVec.ofInt 64 (a.toInt.tdiv b.toInt)
/-- a − b × DIV(a, b); by zero a. -/
def remWord (a b : W64) : W64 := if b = 0 then a else a - b * divWord a b

def execAdd (d a b : BitVec 5) (s : State) : Res := seqAlu d a b (fun a b => a + b) s
def execSub (d a b : BitVec 5) (s : State) : Res := seqAlu d a b (fun a b => a - b) s
def execMul (d a b : BitVec 5) (s : State) : Res := seqMulti 2 d a b (fun a b => a * b) s
def execMulh (d a b : BitVec 5) (s : State) : Res := seqMulti 2 d a b (fun a b => BitVec.ofInt 64 (a.toInt * b.toInt / 2 ^ 64)) s
def execAnd (d a b : BitVec 5) (s : State) : Res := seqAlu d a b (fun a b => a &&& b) s
def execOr (d a b : BitVec 5) (s : State) : Res := seqAlu d a b (fun a b => a ||| b) s
def execXor (d a b : BitVec 5) (s : State) : Res := seqAlu d a b (fun a b => a ^^^ b) s
def execShl (d a b : BitVec 5) (s : State) : Res := seqAlu d a b (fun a b => a <<< (b.toNat % 64)) s
def execShr (d a b : BitVec 5) (s : State) : Res := seqAlu d a b (fun a b => a >>> (b.toNat % 64)) s
def execSar (d a b : BitVec 5) (s : State) : Res := seqAlu d a b (fun a b => a.sshiftRight (b.toNat % 64)) s
def execSlt (d a b : BitVec 5) (s : State) : Res := seqAlu d a b (fun a b => if a.slt b then 1 else 0) s
def execSltu (d a b : BitVec 5) (s : State) : Res := seqAlu d a b (fun a b => if a.ult b then 1 else 0) s
def execMin (d a b : BitVec 5) (s : State) : Res := seqAlu d a b (fun a b => if a.sle b then a else b) s
def execMax (d a b : BitVec 5) (s : State) : Res := seqAlu d a b (fun a b => if a.sle b then b else a) s

/-- DIV and REM: division by zero sets DZ in SQ_FLAGS; the result can be read 20 sequencer cycles later (R255). -/
def divOp (d a b : BitVec 5) (f : W64 → W64 → W64) (s : State) : Res :=
  runSeq s fun q sq w =>
    if sq.stalls [a, b] then w
    else (w.orFlags sq.part (Flags.when (sq.reg b == 0) Flags.dz)).seqDone q fun sq => sq.putLate d (f (sq.reg a) (sq.reg b)) (w.seqCycle 20)
def execDiv (d a b : BitVec 5) (s : State) : Res := divOp d a b divWord s
def execRem (d a b : BitVec 5) (s : State) : Res := divOp d a b remWord s

def execAddi (d a : BitVec 5) (i : BitVec 15) (s : State) : Res := seqAluI d a (fun a => a + sext64 i) s
def execAndi (d a : BitVec 5) (i : BitVec 15) (s : State) : Res := seqAluI d a (fun a => a &&& sext64 i) s
def execOri (d a : BitVec 5) (i : BitVec 15) (s : State) : Res := seqAluI d a (fun a => a ||| sext64 i) s
def execXori (d a : BitVec 5) (i : BitVec 15) (s : State) : Res := seqAluI d a (fun a => a ^^^ sext64 i) s
def execShli (d a : BitVec 5) (i : BitVec 15) (s : State) : Res := seqAluI d a (fun a => a <<< i.toNat) s
def execShri (d a : BitVec 5) (i : BitVec 15) (s : State) : Res := seqAluI d a (fun a => a >>> i.toNat) s
def execSari (d a : BitVec 5) (i : BitVec 15) (s : State) : Res := seqAluI d a (fun a => a.sshiftRight i.toNat) s
def execSlti (d a : BitVec 5) (i : BitVec 15) (s : State) : Res := seqAluI d a (fun a => if a.slt (sext64 i) then 1 else 0) s
def execSext (d a : BitVec 5) (i : BitVec 15) (s : State) : Res := seqAluI d a (fun a => sextBits i.toNat a) s
def execLih (d : BitVec 5) (i : BitVec 20) (s : State) : Res := seqPlain [] (fun sq => sq.put d (sext64 i <<< 12)) s

/-! ## Branches and jumps (R260)

A target outside the control store or unloaded faults when its word would issue (R142). -/

/-- A conditional branch: PC ← PC + sext(OFF15, 15) when the comparison holds, else the next word. -/
def branchOp (a b : BitVec 5) (off : BitVec 15) (c : W64 → W64 → Bool) (s : State) : Res :=
  runSeq s fun q sq w =>
    if sq.stalls [a, b] then w
    else if c (sq.reg a) (sq.reg b) then w.seqJump q fun sq => { sq with pc := sq.pc + sext64 off }
    else w.seqDone q id
def execBeq (a b : BitVec 5) (off : BitVec 15) (s : State) : Res := branchOp a b off (fun a b => a == b) s
def execBne (a b : BitVec 5) (off : BitVec 15) (s : State) : Res := branchOp a b off (fun a b => a != b) s
def execBlt (a b : BitVec 5) (off : BitVec 15) (s : State) : Res := branchOp a b off (fun a b => a.slt b) s
def execBge (a b : BitVec 5) (off : BitVec 15) (s : State) : Res := branchOp a b off (fun a b => b.sle a) s
def execBltu (a b : BitVec 5) (off : BitVec 15) (s : State) : Res := branchOp a b off (fun a b => a.ult b) s
def execBgeu (a b : BitVec 5) (off : BitVec 15) (s : State) : Res := branchOp a b off (fun a b => b.ule a) s

/-- JAL: the link, then PC ← PC + sext(OFF20, 20). -/
def execJal (d : BitVec 5) (off : BitVec 20) (s : State) : Res :=
  runSeq s fun q _ w => w.seqJump q fun sq => { sq.put d (sq.pc + 1) with pc := sq.pc + sext64 off }
/-- JALR: s[A] is read before the link is written. -/
def execJalr (d a : BitVec 5) (i : BitVec 15) (s : State) : Res :=
  runSeq s fun q sq w =>
    if sq.stalls [a] then w else w.seqJump q fun sq => { sq.put d (sq.pc + 1) with pc := sq.reg a + sext64 i }

end Sys2Proof.Machine
end

