-- ==== Sys2Proof/Machine/SeqFabric.lean ====
section
/-! DEFINITION. Sys2Proof/Machine/SeqFabric.lean: fabric control by the sequencer: START, WDONE, RECONF, RATE, GRAISE, INJ and TAKE
(14_sequencer.md R273 to R275, R278). -/

namespace Sys2Proof.Machine

/-- Only the primary sequencer, that of region quad 0, may do it: any other faults with 0x164 (R273). -/
def primaryOnly (q : Nat) (sq : Seq) (w : W) (f : W → W) : W := if sq.rquad ≠ 0 then w.raiseSeq q 0x164 else f w

/-- START: a pulse on h0 once the accesses it releases have been performed, at REGION scope or that of a fence before it (R88); a tile
operation. DESIGN CHOICE: a fence widens only the first START after it, as it does for an INJ (R278; log 79). -/
def execStart (s : State) : Res :=
  runSeq s fun q sq w =>
    primaryOnly q sq w fun w =>
      if sq.full .tiles || !w.agentPerformed (w.seqEye q) (max 2 sq.startScope) then w
      else
        let (w, id) := w.fresh
        let w := w.pulse sq.region 0 sq.latest (w.seqAgent q) (w.releases (w.seqEye q) (max 2 sq.startScope))
        let w := w.setRegion sq.region fun g => { g with rootDone := false }
        w.seqDone q fun sq => { sq.add id .tiles 0 with startScope := 0 }

/-- WDONE: waits until no START run is outstanding. -/
def execWdone (s : State) : Res :=
  runSeq s fun q sq w => primaryOnly q sq w fun w => countWait 0x04 { runs := true } q sq w

/-- RECONF: asks the loader for a section; a tile operation, and a PKG-scope release of the earlier accesses. -/
def execReconf (i : BitVec 15) (s : State) : Res :=
  runSeq s fun q sq w =>
    primaryOnly q sq w fun w =>
      if sq.full .tiles || !w.agentPerformed (w.seqEye q) 4 then w
      else
        let (w, id) := w.fresh
        let w := w.askSection sq.region { sec := i.toNat, who := q, out := id, agent := w.seqAgent q, ref := sq.latest }
        w.seqDone q fun sq => sq.add id .tiles (i.toNat + 1)

/-- RATE: the new declared rate, and a re-solve (R113). -/
def execRate (a : BitVec 5) (s : State) : Res :=
  runSeq s fun q sq w =>
    primaryOnly q sq w fun w =>
      if sq.stalls [a] then w
      else
        let v := (sq.reg a).toNat
        if v = 0 ∨ 2 ^ 40 ≤ v then w.raiseSeq q 0x165
        else (w.setRegion sq.region fun g => { g with rate := v, trigger := true }).seqDone q id

/-- GRAISE: asks the range server for n more groups; the answer comes to s[D]. Its wait's stage is 4. -/
def execGraise (d a : BitVec 5) (s : State) : Res :=
  runSeq s fun q sq w =>
    if sq.stalls [a] then w
    else match sq.wait with
      | some x => if x.ready then (w.endWait q 0x07 x).seqDone q fun sq => sq.put d x.num else w
      | none =>
        let n := (sq.reg a).toNat
        if 2 ^ 32 ≤ n then w.raiseSeq q 0x2E0
        else
          let ask : Ask := { raise := true, bySeq := true, who := q, n := n, ref := sq.latest, step := w.stepOf q }
          (w.setRegion sq.region fun g => { g with range := { g.range with asks := g.range.asks ++ [ask] } }).seqHold q { stage := 4 }

/-! ## INJ and TAKE (R278) -/

/-- A slot of a cell with an opcode. -/
def Region.slotWith (g : Region) (cell opc : Nat) : Option Nat := (List.range 6).find? fun s => (tgetD g.elems (ekey cell s) {}).opc == opc

/-- The cell that an INJ or a TAKE names, if it qualifies: a memory cell of the region with a `have'` and no `lack`. -/
def queueCell (g : Region) (b : W64) (have' lack : Nat) : Option Nat :=
  let cell := field b 13 0
  if field b 63 32 = 0 ∧ siteIn g cell ∧ siteKind cell = 2 ∧ (g.slotWith cell have').isSome ∧ (g.slotWith cell lack).isNone then some cell else none

/-- It is a sequencer's turn at a queue: on one sequencer cycle they take their turns in ascending agent id (R278). -/
def Cell.seqTurn (c : Cell) (cyc agent : Nat) : Bool := c.seqAt != cyc + 1 || decide (c.seqBy ≤ agent)
/-- A sequencer has its turn at the queue of a cell. -/
def W.seqTook (w : W) (r cell agent : Nat) : W := w.setCell r cell fun c => { c with seqAt := w.now / 4 + 1, seqBy := agent }

/-- INJ: appends the token at scratch s[A] to the queue of the cell s[B] names; a full queue holds it, and an acquire before it that is not performed
(R87). -/
def execInj (a b : BitVec 5) (n h t : BitVec 1) (s : State) : Res :=
  runSeq s fun q sq w =>
    if sq.stalls [a, b] then w
    else match scratchSpan (sq.reg a) 64 64, queueCell (w.region sq.region) (sq.reg b) 0x8A 0x89 with
      | some off, some cell =>
        let c := w.cell sq.region cell
        if c.qcap ≤ c.queue.length || !w.mayNow (w.seqAgent q) [] || !c.seqTurn (w.now / 4) (w.seqAgent q) then w
        else
          let rel : Option Rel := if 2 ≤ sq.injScope then
            some { scope := sq.injScope, agent := w.seqAgent q, ref := sq.latest, reg := sq.region + 1, step := w.stepOf q, who := w.seqAgent q + 1,
                   cov := w.releases (w.seqEye q) sq.injScope } else none
          let tok : Token := {
            data := BitVec.ofNat 512 (sq.scratchNat off 64), empty := BitVec.ofNat 16 (field (sq.reg b) 31 16)
            null := n == 1, head := h == 1, tail := t == 1, rel := rel }
          (((w.queuePush sq.region cell tok).wakeAt sq.region cell).seqTook sq.region cell (w.seqAgent q)).seqDone q fun sq => { sq with injScope := 0 }
      | _, _ => w.raiseSeq q 0x164

/-- The status word of a TAKE. -/
def takeStatus (t : Token) : W64 :=
  let b := fun (x : Bool) => if x then 1 else 0
  BitVec.ofNat 64 (packFields [(16, t.empty.toNat), (1, b t.null), (1, b t.head), (1, b t.tail), (1, b t.rel.isSome)])

/-- TAKE: waits until the queue of the cell s[B] names holds a token, and takes its head to scratch s[A]; a release mark is acquired. -/
def execTake (d a b : BitVec 5) (s : State) : Res :=
  runSeq s fun q sq w =>
    if sq.stalls [a, b] then w
    else match scratchSpan (sq.reg a) 64 64, queueCell (w.region sq.region) (sq.reg b) 0x89 0x8A with
      | some off, some cell =>
        match (w.cell sq.region cell).queue with
        | t :: _ =>
          if w.now ≤ t.landed then w.seqHold q { stage := 5 }
          else if !(w.cell sq.region cell).seqTurn (w.now / 4) (w.seqAgent q) then w
          else
            let slot := ((w.region sq.region).slotWith cell 0x89).getD 0
            let carried := match t.rel with | some k => k.ref | none => 0
            let latest := (w.cell sq.region cell).latest
            let w := (w.queuePop sq.region cell).seqTook sq.region cell (w.seqAgent q)
            let w := match t.rel with | some k => w.gainRel (w.seqEye q) k | none => w
            let w := match sq.wait with
              | some x => (w.seqPennant q 0x05 (w.elemAgent ⟨sq.region, cell, slot⟩) (if t.rel.isSome then carried else latest) x.start t.landedNs).1
              | none => w.setSeq q fun sq => { sq with latest := newer sq.latest carried }
            w.seqDone q fun sq => (sq.scratchPut off (leBytes 64 t.data.toNat)).put d (takeStatus t)
        | [] => w.seqHold q { stage := 5 }
      | _, _ => w.raiseSeq q 0x164

end Sys2Proof.Machine
end

