-- ==== Sys2Proof/Machine/SeqMem.lean ====
section
/-! DEFINITION. Sys2Proof/Machine/SeqMem.lean: the sequencer's loads, stores, atomics, parameter windows, fences, signals and memory waits, and
the events that answer them (14_sequencer.md R254, R257 to R259, R261, R264, R271; R71, R305). -/

namespace Sys2Proof.Machine

/-- The agent that answers for a location: its home's memory controller, or the host's side (R283). -/
def W.homeOf (w : W) (r : Req) : Nat :=
  let h := keyHome ((r.pieces.headD {}).key)
  if h < 4 then w.homeAgent h else w.hostAgent

/-- An access is placed without restriction. -/
def anyPlace : List Leaf → Option Nat := fun _ => none
/-- An atomic on a HOST page is carried only if `host` (R77, R258). -/
def hostPlace (host : Bool) : List Leaf → Option Nat := fun ls => if ls.any (fun l => l.place == 3) && !host then some 0x163 else none

/-! ## Loads and stores (R257) -/

/-- A load of `size` bytes: scratch in order, readable two sequencer cycles later, global memory as a load-class request whose value the register awaits. -/
def loadOp (size : Nat) (d a : BitVec 5) (scope : BitVec 3) (off : BitVec 12) (s : State) : Res :=
  runSeq s fun q sq w =>
    if sq.stalls [a] then w
    else
      let ea := sq.reg a + sext64 off
      match eaFault ea size with
      | some c => w.raiseSeq q c ea
      | none =>
        if inScratch ea then w.seqDone q fun sq => sq.putLate d (BitVec.ofNat 64 (sq.scratchNat (scratchOff ea) size)) (w.seqCycle 2)
        else if sq.full .loads then w
        else
          w.seqAccess q d ea size .read (.near (q / 40)) anyPlace
            { kind := .read, mask := 2 ^ size - 1, acq := decide (scope ≠ 0), scope := scope.toNat } fun id w =>
            w.seqDone q fun sq => ((sq.put d (sq.reg d)).add id .loads d.toNat).await d id

def execLdb (d a : BitVec 5) (sc : BitVec 3) (off : BitVec 12) (s : State) : Res := loadOp 1 d a sc off s
def execLdh (d a : BitVec 5) (sc : BitVec 3) (off : BitVec 12) (s : State) : Res := loadOp 2 d a sc off s
def execLdw (d a : BitVec 5) (sc : BitVec 3) (off : BitVec 12) (s : State) : Res := loadOp 4 d a sc off s
def execLdd (d a : BitVec 5) (sc : BitVec 3) (off : BitVec 12) (s : State) : Res := loadOp 8 d a sc off s

/-- A store of the low `size` bytes of s[D]. -/
def storeSeqOp (size : Nat) (d a : BitVec 5) (scope : BitVec 3) (off : BitVec 12) (s : State) : Res :=
  runSeq s fun q sq w =>
    if sq.stalls [d, a] then w
    else
      let ea := sq.reg a + sext64 off
      match eaFault ea size with
      | some c => w.raiseSeq q c ea
      | none =>
        if inScratch ea then w.seqDone q fun sq => sq.scratchPut (scratchOff ea) (leBytes size (sq.reg d).toNat)
        else if sq.full .stores then w
        else
          w.seqAccess q 0 ea size .write (.near (q / 40)) anyPlace
            { kind := .write, data := (sq.reg d).zeroExtend 768, mask := 2 ^ size - 1, rel := decide (scope ≠ 0), scope := scope.toNat } fun id w =>
            w.seqDone q fun sq => sq.add id .stores 0

def execStb (d a : BitVec 5) (sc : BitVec 3) (off : BitVec 12) (s : State) : Res := storeSeqOp 1 d a sc off s
def execSth (d a : BitVec 5) (sc : BitVec 3) (off : BitVec 12) (s : State) : Res := storeSeqOp 2 d a sc off s
def execStw (d a : BitVec 5) (sc : BitVec 3) (off : BitVec 12) (s : State) : Res := storeSeqOp 4 d a sc off s
def execStd (d a : BitVec 5) (sc : BitVec 3) (off : BitVec 12) (s : State) : Res := storeSeqOp 8 d a sc off s

/-! ## Atomics (R258) -/

/-- An atomic step on a word of `size` bytes at s[A], with operands x and y; s[D] receives the old word. -/
def atomSeqOp (kind : ReqKind) (host : Bool) (reads : List (BitVec 5)) (d a : BitVec 5) (size : Nat) (scope : BitVec 3)
    (x y : Seq → W64) (s : State) : Res :=
  runSeq s fun q sq w =>
    if sq.stalls reads then w
    else
      let ea := sq.reg a
      match eaFault ea size with
      | some c => w.raiseSeq q c ea
      | none =>
        if inScratch ea then
          let old := sq.scratchNat (scratchOff ea) size
          let (new, _) := atomicStep kind 0 1 (8 * size) (2 ^ size - 1) old ((x sq).toNat % 2 ^ (8 * size)) ((y sq).toNat % 2 ^ (8 * size))
          w.seqDone q fun sq => (sq.scratchPut (scratchOff ea) (leBytes size new)).putLate d (BitVec.ofNat 64 old) (w.seqCycle 2)
        else if sq.full .stores then w
        else
          w.seqAccess q d ea size .atomic .home (hostPlace host)
            { kind := kind, data := (x sq).zeroExtend 768, data2 := (y sq).zeroExtend 768, mask := 2 ^ size - 1,
              acq := decide (scope ≠ 0), rel := decide (scope ≠ 0), scope := scope.toNat } fun id w =>
            w.seqDone q fun sq => ((sq.put d (sq.reg d)).add id .stores d.toNat).await d id

/-- Word size of an atomic: SIZE 0 is 8 bytes, 1 is 4. -/
def atomSize (z : BitVec 1) : Nat := if z = 0 then 8 else 4

def execAmo (d a b : BitVec 5) (sc : BitVec 3) (z : BitVec 1) (f : BitVec 4) (s : State) : Res :=
  atomSeqOp (.atomic (16 + f.toNat)) (f == 0 || f == 8) [a, b] d a (atomSize z) sc (fun sq => sq.reg b) (fun _ => 0) s
def execAcas (d a b : BitVec 5) (sc : BitVec 3) (z : BitVec 1) (s : State) : Res :=
  atomSeqOp .cas true [d, a, b] d a (atomSize z) sc (fun sq => sq.reg d) (fun sq => sq.reg b) s

/-- SIGNAL (R271): a release that stores s[D] at s[A] + 8 × OFF, or adds it there. -/
def execSignal (d a : BitVec 5) (sc : BitVec 3) (off : BitVec 11) (add : BitVec 1) (s : State) : Res :=
  runSeq s fun q sq w =>
    if sq.stalls [d, a] then w
    else
      let ea := sq.reg a + BitVec.ofNat 64 (8 * off.toNat)
      if inScratch ea then w.raiseSeq q 0x165 ea
      else match eaFault ea 8 with
        | some c => w.raiseSeq q c ea
        | none =>
          if sq.full .stores then w
          else
            w.seqAccess q 0 ea 8 (if add = 1 then .atomic else .write) (if add = 1 then .home else .near (q / 40)) anyPlace
              { kind := if add = 1 then .atomic 16 else .write, data := (sq.reg d).zeroExtend 768, mask := 0xFF, rel := true,
                scope := sc.toNat, answered := true } fun id w =>
              w.seqDone q fun sq => sq.add id .stores 0

/-! ## Parameter windows (R71, R259) -/

/-- PRD: 8 bytes of window Pn. A read that its bound cuts gives zeros beyond it and sets PWOOB; one wholly beyond makes no access. -/
def execPrd (d n : BitVec 5) (off : BitVec 15) (s : State) : Res :=
  runSeq s fun q sq w =>
    match tget (w.region sq.region).windows n.toNat with
    | none => w.raiseSeq q 0x162
    | some (base, bound) =>
      let o := off.toNat
      let oob (sq : Seq) : Seq := { sq with status := sq.status ||| 1 }
      if bound.toNat ≤ o then w.seqDone q fun sq => oob (sq.put d 0)
      else if sq.full .loads then w
      else
        let ea := base + BitVec.ofNat 64 o
        if ea.toNat % 8 ≠ 0 then w.raiseSeq q 0x160 ea
        else if ea.toNat / 2 ^ 56 ≠ 0 then w.raiseSeq q 0x161 ea
        else
          let whole := decide (o + 8 ≤ bound.toNat)
          w.seqAccess q d ea 8 .read (.near (q / 40)) anyPlace
            { kind := .read, mask := 2 ^ (min 8 (bound.toNat - o)) - 1 } fun id w =>
            w.seqDone q fun sq =>
              let sq := ((sq.put d (sq.reg d)).add id .loads d.toNat).await d id
              if whole then sq else oob sq

/-- PLEN: the bound size, 0 for an unbound window. -/
def execPlen (d n : BitVec 5) (s : State) : Res :=
  runSeq s fun q sq w =>
    let v := match tget (w.region sq.region).windows n.toNat with | some (_, b) => b.zeroExtend 64 | none => 0
    w.seqDone q fun sq => sq.put d v

/-! ## Fences (R261) -/

/-- FENCE: it waits until the accesses it orders have been performed at its scope; a REL or AR also stands before later requests, STARTs and
INJs (R88, R103); an ACQ or AR obtains the reference of the last release that a load without an acquire has read (R88, R92). -/
def execFence (sc : BitVec 3) (k : BitVec 2) (s : State) : Res :=
  runSeq s fun q _ w =>
    let e := w.seqEye q
    let done := if k = 1 then w.loadsOrdered e sc.toNat else w.agentPerformed e sc.toNat
    w.guard done fun w => (w.fenced e k.toNat sc.toNat).seqDone q fun sq =>
      let sq := { sq with latest := newer sq.latest (w.heardRef e k.toNat sc.toNat) }
      if k = 1 then sq
      else { sq with
        fenced := tput sq.fenced sc.toNat sq.copySeq, injScope := max sq.injScope sc.toNat
        startScope := max sq.startScope sc.toNat }

/-! ## MWAIT (R264, R305) -/

/-- MWAIT: it reads the word as an acquire, and again after each write to its sector, until it is at least s[D]. -/
def execMwait (d a : BitVec 5) (sc : BitVec 3) (off : BitVec 12) (s : State) : Res :=
  runSeq s fun q sq w =>
    if sq.stalls [d, a] then w
    else match sq.wait with
      | some x =>
        if !x.ready then w
        else
          let w := if 0 < x.reads then w.endWait q 0x03 x else w.setSeq q fun sq => { sq with latest := newer sq.latest x.ref }
          w.seqDone q fun sq => sq.put d x.num
      | none =>
        let ea := sq.reg a + sext64 off
        if inScratch ea then w.raiseSeq q 0x165 ea
        else match eaFault ea 8 with
          | some c => w.raiseSeq q c ea
          | none =>
            w.seqAccess q 0 ea 8 .read (.near (q / 40)) anyPlace
              { kind := .read, mask := 0xFF, acq := true, scope := sc.toNat, watch := true } fun id w =>
              w.seqHold q { req := some id, num := sq.reg d }

/-- One read of an MWAIT: it ends the wait when the word is at least the threshold. -/
def W.mwaitRead (w : W) (q : Nat) (r : Req) (x : SeqWait) : W :=
  w.guard (w.mayReread r x.reads) fun w =>
    let p := r.pieces.headD {}
    let v := w.readPiece (w.reqEye r) p
    let (agent, ref, arr) := w.wordFrom r p
    let got := w.acquired (w.reqEye r) r.scope p.key 8
    let w' := w.reread r x.reads
    if v < x.num.toNat then w'.setSeq q fun sq => { sq with wait := some { x with reads := x.reads + 1 } }
    else
      let carried := if x.reads = 0 then (match got with | some (k, _, _) => k.ref | none => 0) else ref
      (w'.dropReq r.id).setSeq q fun sq =>
        { sq with wait := some { x with ready := true, num := BitVec.ofNat 64 v, agent := agent, ref := carried, arr := arr, req := none } }

/-! ## Responses -/

/-- An uncorrectable DRAM error in the data that a sequencer reads: 0x360; the access goes, and its register stays as it is (R257, R284). -/
def W.seqBad (w : W) (q : Nat) (r : Req) : W :=
  let home := match r.left.head? with | some i => keyHome (r.pieces.getD i {}).key | none => r.die
  ((w.countIn r.die home).dropReq r.id).raiseSeq q 0x360 r.va

/-- SEQ_LOAD_RESPONSE (R254): the next part of a load is performed, and with the last its value reaches the register and it retires; an atomic's
old value reaches its register; a waiting MWAIT reads again; a PNRD's pennant reaches scratch. `bad` says that DRAM returned an uncorrectable error. -/
def execSeqLoadResponse (a : Reply) (s : State) : Res :=
  run s fun w =>
    match w.req a.id with
    | none => w
    | some r =>
      match r.src with
      | .seq q reg =>
        let sq := w.seq q
        let acquire (w : W) (got : Option (Rel × Nat × Nat)) : W := match got with
          | some (k, _, _) => w.setSeq q fun sq => sq.obtain (w.now / 4) k.ref
          | none => w
        match r.kind with
        | .read =>
          match sq.wait with
          | some x =>
            if x.req = some a.id then
              if a.bad then w.guard (w.mayReread r x.reads) fun w => (w.countAgain r x.reads).seqBad q r else w.mwaitRead q r x
            else oneRead w r q reg a.bad acquire
          | none => oneRead w r q reg a.bad acquire
        | .atomic _ | .cas =>
          -- DRAM's error in what an atomic reads faults it at its home, and nothing is accessed (R284, R353)
          if a.bad then w.guard (r.did.isEmpty && mayPerform w.m.bus.reqs r && w.relReady r) fun w => w.seqBad q r else
          w.guard (!r.answered && r.allDone && w.seesAll (w.reqEye r) r.after) fun w =>
            let w := acquire w r.got
            let w := w.setReq a.id fun r => { r with answered := true }
            w.setSeq q fun sq => sq.arrive reg a.id (BitVec.ofNat 64 ((tgetD r.vals 0 0).toNat % 2 ^ (8 * r.size)))
        | .pnrd =>
          w.guard (mayPerform w.m.bus.reqs r) fun w =>
            let found := w.resolve (r.va.truncate 32) r.part
            let self := w.seqAgent q
            (w.dropReq a.id).setSeq q fun sq =>
              let sq := match found with
                | some e => (sq.scratchPut r.place (leBytes 32 e.bytes.toNat)).arrive reg a.id 1
                | none => sq.arrive reg a.id 0
              sq.finish a.id self sq.latest w.ns
        | _ => w
      | _ => w
where
  /-- one part of a load -/
  oneRead (w : W) (r : Req) (q reg : Nat) (bad : Bool) (acquire : W → Option (Rel × Nat × Nat) → W) : W :=
    match r.left.head? with
    | none => w
    | some i =>
      let p := r.pieces.getD i {}
      w.guard (w.mayRead r p) fun w =>
      if bad then w.seqBad q r else
      let r' := { r with did := r.did ++ [i], vals := tput r.vals i (BitVec.ofNat 512 (w.readPiece (w.reqEye r) p)) }
      let got := w.acquired (w.reqEye r) r.scope p.key r.size
      let w := w.readBy r p
      if !r'.allDone then w.setReq r.id fun _ => r'
      else
        let v := ((List.range r.pieces.length).zip r.pieces).foldl (fun n (j, p) => n ||| ((tgetD r'.vals j 0).toNat <<< (8 * p.off))) 0
        let v := v % 2 ^ (8 * r.size)
        let v := ((List.range 8).filter fun b => r.mask.testBit b).foldl (fun n b => n + v / 2 ^ (8 * b) % 256 * 2 ^ (8 * b)) 0
        let w := if r.acq then acquire w got else w
        (w.dropReq r.id).setSeq q fun sq => (sq.arrive reg r.id (BitVec.ofNat 64 v)).finish r.id (w.homeOf r) 0 w.ns

/-- SEQ_STORE_RETIRE (R254): a store-class operation retires: an unmarked one when its home has applied it, a marked one when it is performed at
its scope; an atomic when its old value has also been returned. -/
def execSeqStoreRetire (id : Nat) (s : State) : Res :=
  run s fun w =>
    match w.req id with
    | none => w
    | some r =>
      match r.src with
      | .seq q _ =>
        let ready := match r.kind with
          | .write => true
          | .atomic _ | .cas => r.answered
          | _ => false
        w.guard (ready && r.allDone && (!r.rel || w.performed (w.reqEye r) r.scope r.writes r.cov)) fun w =>
          (w.dropReq id).setSeq q fun sq => sq.finish id (w.homeOf r) 0 w.ns
      | _ => w

end Sys2Proof.Machine
end

