-- ==== Sys2Proof/Machine/SeqSystem.lean ====
section
/-! DEFINITION. Sys2Proof/Machine/SeqSystem.lean: CSRs, traps and the handler, HALT, TIME, STEP and PNRD (14_sequencer.md R276, R277, R279 to
R282, R285). -/

namespace Sys2Proof.Machine

/-! ## CSRs (R279, R285) -/

/-- The value a CSR reads as. -/
def W.csrRead (w : W) (q : Nat) (n : Nat) : W64 :=
  let sq := w.seq q
  let g := w.region sq.region
  match n with
  | 0x000 => (w.part sq.part).flags.zeroExtend 64
  | 0x001 => sq.status.zeroExtend 64
  | 0x002 => sq.cause
  | 0x003 => sq.epc.zeroExtend 64
  | 0x004 => sq.hvec.zeroExtend 64
  | 0x005 => sq.tags
  | 0x006 => BitVec.ofNat 64 sq.counts
  | 0x007 => 0
  | 0x008 => sq.stampb
  | 0x010 => BitVec.ofNat 64 (packFields [(40, g.granted), (8, g.solveNo), (15, 0), (1, if g.lower then 1 else 0)])
  | 0x011 =>
    let r := tgetD w.m.rings q {}
    BitVec.ofNat 64 (packFields [(32, sq.latest.toNat), (8, r.next), (3, r.wrap)])
  | 0x012 => g.ccbEsc
  | 0x013 => sq.stepNo.zeroExtend 64
  | 0x020 => w.bar (Bar.lreq (q / 40))
  | 0x021 => w.bar (Bar.rreqo (q / 40))
  | 0x022 => w.bar (Bar.rreqi (q / 40))
  | 0x030 => Config.regVersion
  | 0x031 => BitVec.ofNat 64 (packFields [(32, w.seqAgent q), (6, sq.rquad), (1, if sq.rquad = 0 then 1 else 0)])
  | _ => 0

/-- SQ_STATUS with HE and PWOOB from a value; PEND and INH are not writable. -/
def Seq.writeStatus (sq : Seq) (v : W64) : Seq := { sq with status := (sq.status &&& 0xC) ||| (v.truncate 4 &&& 0x3) }

/-- A write of a CSR: each field as R285 says; what is read-only ignores it. `v` is the whole value to be written. -/
def W.csrPut (w : W) (q : Nat) (n : Nat) (v : W64) : W :=
  match n with
  -- flags that arrive in the same sequencer cycle are applied after the write (R62)
  | 0x000 => w.setPart (w.seq q).part fun p => { p with flags := v.truncate 7 ||| (if p.flagsAt.1 = w.now / 4 + 1 then p.flagsAt.2 else 0) }
  | 0x001 => w.setSeq q fun sq => sq.writeStatus v
  | 0x003 => w.setSeq q fun sq => { sq with epc := v.truncate 12 }
  | 0x004 => w.setSeq q fun sq => { sq with hvec := v.truncate 12 }
  | 0x005 => w.setSeq q fun sq => sq.writeTags (w.now / 4) v
  | 0x007 => w.setSeq q fun sq => if sq.inh && v.getLsbD 0 then { sq with ready := true } else sq
  | 0x008 => w.setSeq q fun sq => { sq with stampb := v &&& 0x00FFFFFFFFFFFE00 }
  | _ => w

def execCsrr (d : BitVec 5) (c : BitVec 15) (s : State) : Res :=
  runSeq s fun q _ w =>
    let v := w.csrRead q c.toNat
    w.seqDone q fun sq => sq.put d v
/-- CSRW: s[A] to the CSR, the old value to s[D]. -/
def execCsrw (d a : BitVec 5) (c : BitVec 15) (s : State) : Res :=
  runSeq s fun q sq w =>
    if sq.stalls [a] then w
    else
      let old := w.csrRead q c.toNat
      (w.csrPut q c.toNat (sq.reg a)).seqDone q fun sq => sq.put d old
/-- CSRS: the OR of s[A] into the CSR, the old value to s[D]. -/
def execCsrs (d a : BitVec 5) (c : BitVec 15) (s : State) : Res :=
  runSeq s fun q sq w =>
    if sq.stalls [a] then w
    else
      let old := w.csrRead q c.toNat
      (w.csrPut q c.toNat (old ||| sq.reg a)).seqDone q fun sq => sq.put d old

/-! ## The handler (R280, R281) -/

/-- TRAP n: enters the handler, or is fatal when the handler is not enabled or already entered. -/
def execTrap (n : BitVec 20) (s : State) : Res :=
  runSeq s fun q sq w =>
    let code := 0x3E0 + n.toNat
    if sq.he && !sq.inh then w.seqJump q fun sq => sq.enterHandler false code else w.raiseSeq q code
/-- YIELD: enters the handler for a pending pre-emption, else nothing. -/
def execYield (s : State) : Res :=
  runSeq s fun q sq w =>
    if sq.pend && sq.he && !sq.inh then w.seqJump q fun sq => sq.enterHandler true 1 else w.seqDone q id
/-- ERET: returns from the handler; outside it faults with 0x166. -/
def execEret (s : State) : Res :=
  runSeq s fun q sq w => if sq.inh then w.seqJump q Seq.leaveHandler else w.raiseSeq q 0x166

/-! ## HALT, NOP, TIME (R282) -/

/-- HALT: stops the sequencer once no load, store or copy is outstanding. -/
def execHalt (s : State) : Res :=
  runSeq s fun q sq w =>
    w.guard (sq.count .loads == 0 && sq.count .stores == 0 && sq.count .copies == 0) fun w =>
      w.seqDone q fun sq => { sq with halted := true }
def execNop (s : State) : Res := runSeq s fun q _ w => w.seqDone q id
def execTime (d : BitVec 5) (s : State) : Res := runSeq s fun q _ w => w.seqDone q fun sq => sq.put d (BitVec.ofNat 64 w.ns)

/-! ## STEP and PNRD (R276, R277, R393) -/

/-- STEP: a step-mark pennant, its reference to s[D], then STEP_NO ← s[A]; a hoist walk is queued when the partition's driver asks for it. -/
def execStep (d a : BitVec 5) (s : State) : Res :=
  runSeq s fun q sq w =>
    if sq.stalls [a] then w
    else
      let (w, ref) := w.seqPennant q 0x09 (w.seqAgent q) sq.latest w.ns w.ns
      let w :=
        if (w.bar (Bar.partCtl sq.part)).getLsbD 1 then
          if 4 ≤ ((w.part sq.part).hoists.filter fun h => !h.started).length then w.setFld (Bar.partHoist sq.part) 59 59 1
          else w.setPart sq.part fun p => { p with hoists := p.hoists ++ [{
            step := sq.stepNo, mark := ref, time := w.ns, region := sq.region, version := (w.region sq.region).version, ref := ref }] }
        else w
      -- progress of the LAUNCH's queue (R360)
      let w := match tget w.m.regions sq.region with
        | some g => w.setQueue g.queue fun u => u.rise w.ns
        | none => w
      w.seqDone q fun sq' => { sq'.put d (ref.zeroExtend 64) with stepNo := (sq.reg a).truncate 32 }

/-- PNRD: asks for the pennant that s[A] names, for scratch at s[B]. -/
def execPnrd (d a b : BitVec 5) (s : State) : Res :=
  runSeq s fun q sq w =>
    if sq.stalls [a, b] then w
    else match scratchSpan (sq.reg b) 32 32 with
      | none => w.raiseSeq q 0x165
      | some off =>
        if sq.full .loads then w
        else
          let (w, id) := w.issue { die := q / 40, part := sq.part, src := .seq q d.toNat, kind := .pnrd, va := sq.reg a, place := off }
          w.seqDone q fun sq => ((sq.put d (sq.reg d)).add id .loads d.toNat).await d id

end Sys2Proof.Machine
end

