-- ==== Sys2Proof/Machine/Dispatch.lean ====
section
/-! DEFINITION. Sys2Proof/Machine/Dispatch.lean: which meaning each instruction has. -/

namespace Sys2Proof.Machine

def exec (i : Instr) (s : State) : Host.Outcome State Fault Refusal :=
  match i with
  | .add d a b => Sys2Proof.Machine.execAdd d a b s
  | .sub d a b => Sys2Proof.Machine.execSub d a b s
  | .mul d a b => Sys2Proof.Machine.execMul d a b s
  | .mulh d a b => Sys2Proof.Machine.execMulh d a b s
  | .div d a b => Sys2Proof.Machine.execDiv d a b s
  | .rem d a b => Sys2Proof.Machine.execRem d a b s
  | .and d a b => Sys2Proof.Machine.execAnd d a b s
  | .or d a b => Sys2Proof.Machine.execOr d a b s
  | .xor d a b => Sys2Proof.Machine.execXor d a b s
  | .shl d a b => Sys2Proof.Machine.execShl d a b s
  | .shr d a b => Sys2Proof.Machine.execShr d a b s
  | .sar d a b => Sys2Proof.Machine.execSar d a b s
  | .slt d a b => Sys2Proof.Machine.execSlt d a b s
  | .sltu d a b => Sys2Proof.Machine.execSltu d a b s
  | .min d a b => Sys2Proof.Machine.execMin d a b s
  | .max d a b => Sys2Proof.Machine.execMax d a b s
  | .addi d a imm => Sys2Proof.Machine.execAddi d a imm s
  | .andi d a imm => Sys2Proof.Machine.execAndi d a imm s
  | .ori d a imm => Sys2Proof.Machine.execOri d a imm s
  | .xori d a imm => Sys2Proof.Machine.execXori d a imm s
  | .shli d a imm => Sys2Proof.Machine.execShli d a imm s
  | .shri d a imm => Sys2Proof.Machine.execShri d a imm s
  | .sari d a imm => Sys2Proof.Machine.execSari d a imm s
  | .slti d a imm => Sys2Proof.Machine.execSlti d a imm s
  | .lih d imm => Sys2Proof.Machine.execLih d imm s
  | .sext d a n => Sys2Proof.Machine.execSext d a n s
  | .ldb d a sc o => Sys2Proof.Machine.execLdb d a sc o s
  | .ldh d a sc o => Sys2Proof.Machine.execLdh d a sc o s
  | .ldw d a sc o => Sys2Proof.Machine.execLdw d a sc o s
  | .ldd d a sc o => Sys2Proof.Machine.execLdd d a sc o s
  | .stb d a sc o => Sys2Proof.Machine.execStb d a sc o s
  | .sth d a sc o => Sys2Proof.Machine.execSth d a sc o s
  | .stw d a sc o => Sys2Proof.Machine.execStw d a sc o s
  | .std d a sc o => Sys2Proof.Machine.execStd d a sc o s
  | .prd d n o => Sys2Proof.Machine.execPrd d n o s
  | .plen d n => Sys2Proof.Machine.execPlen d n s
  | .amo d a b sc z f => Sys2Proof.Machine.execAmo d a b sc z f s
  | .acas d a b sc z => Sys2Proof.Machine.execAcas d a b sc z s
  | .beq a b o => Sys2Proof.Machine.execBeq a b o s
  | .bne a b o => Sys2Proof.Machine.execBne a b o s
  | .blt a b o => Sys2Proof.Machine.execBlt a b o s
  | .bge a b o => Sys2Proof.Machine.execBge a b o s
  | .bltu a b o => Sys2Proof.Machine.execBltu a b o s
  | .bgeu a b o => Sys2Proof.Machine.execBgeu a b o s
  | .jal d o => Sys2Proof.Machine.execJal d o s
  | .jalr d a imm => Sys2Proof.Machine.execJalr d a imm s
  | .fence sc k => Sys2Proof.Machine.execFence sc k s
  | .waitc l sc c t => Sys2Proof.Machine.execWaitc l sc c t s
  | .wany d a => Sys2Proof.Machine.execWany d a s
  | .wall d a => Sys2Proof.Machine.execWall d a s
  | .tfirst d a => Sys2Proof.Machine.execTfirst d a s
  | .tclr a => Sys2Proof.Machine.execTclr a s
  | .mwait d a sc o => Sys2Proof.Machine.execMwait d a sc o s
  | .sleep a imm => Sys2Proof.Machine.execSleep a imm s
  | .copy d a b t r => Sys2Proof.Machine.execCopy d a b t r s
  | .copyx d a b t r => Sys2Proof.Machine.execCopyx d a b t r s
  | .coll d a b t r => Sys2Proof.Machine.execColl d a b t r s
  | .qapp d a b => Sys2Proof.Machine.execQapp d a b s
  | .signal d a sc o x => Sys2Proof.Machine.execSignal d a sc o x s
  | .hpost d a b n => Sys2Proof.Machine.execHpost d a b n s
  | .start => Sys2Proof.Machine.execStart s
  | .wdone => Sys2Proof.Machine.execWdone s
  | .reconf imm => Sys2Proof.Machine.execReconf imm s
  | .rate a => Sys2Proof.Machine.execRate a s
  | .graise d a => Sys2Proof.Machine.execGraise d a s
  | .step d a => Sys2Proof.Machine.execStep d a s
  | .pnrd d a b => Sys2Proof.Machine.execPnrd d a b s
  | .csrr d c => Sys2Proof.Machine.execCsrr d c s
  | .csrw d a c => Sys2Proof.Machine.execCsrw d a c s
  | .csrs d a c => Sys2Proof.Machine.execCsrs d a c s
  | .trap n => Sys2Proof.Machine.execTrap n s
  | .eret => Sys2Proof.Machine.execEret s
  | .yield => Sys2Proof.Machine.execYield s
  | .halt => Sys2Proof.Machine.execHalt s
  | .nop => Sys2Proof.Machine.execNop s
  | .time d => Sys2Proof.Machine.execTime d s
  | .inj a b n h t => Sys2Proof.Machine.execInj a b n h t s
  | .take d a b => Sys2Proof.Machine.execTake d a b s
  | .pass f => Sys2Proof.Machine.execPass f s
  | .vcAdd f => Sys2Proof.Machine.execVcAdd f s
  | .vcSub f => Sys2Proof.Machine.execVcSub f s
  | .adds f => Sys2Proof.Machine.execAdds f s
  | .subs f => Sys2Proof.Machine.execSubs f s
  | .vcMul f => Sys2Proof.Machine.execVcMul f s
  | .vcMulh f => Sys2Proof.Machine.execVcMulh f s
  | .mad f => Sys2Proof.Machine.execMad f s
  | .vcMin f => Sys2Proof.Machine.execVcMin f s
  | .vcMax f => Sys2Proof.Machine.execVcMax f s
  | .abs f => Sys2Proof.Machine.execAbs f s
  | .vcAnd f => Sys2Proof.Machine.execVcAnd f s
  | .vcOr f => Sys2Proof.Machine.execVcOr f s
  | .vcXor f => Sys2Proof.Machine.execVcXor f s
  | .andn f => Sys2Proof.Machine.execAndn f s
  | .vcShl f => Sys2Proof.Machine.execVcShl f s
  | .vcShr f => Sys2Proof.Machine.execVcShr f s
  | .vcSar f => Sys2Proof.Machine.execVcSar f s
  | .rol f => Sys2Proof.Machine.execRol f s
  | .clz f => Sys2Proof.Machine.execClz f s
  | .popc f => Sys2Proof.Machine.execPopc f s
  | .cmp f => Sys2Proof.Machine.execCmp f s
  | .sel f => Sys2Proof.Machine.execSel f s
  | .clamp f => Sys2Proof.Machine.execClamp f s
  | .narrow f => Sys2Proof.Machine.execNarrow f s
  | .widen f => Sys2Proof.Machine.execWiden f s
  | .bfx f => Sys2Proof.Machine.execBfx f s
  | .bfi f => Sys2Proof.Machine.execBfi f s
  | .fadd f => Sys2Proof.Machine.execFadd f s
  | .fsub f => Sys2Proof.Machine.execFsub f s
  | .fmul f => Sys2Proof.Machine.execFmul f s
  | .fma f => Sys2Proof.Machine.execFma f s
  | .fms f => Sys2Proof.Machine.execFms f s
  | .fnma f => Sys2Proof.Machine.execFnma f s
  | .fmin f => Sys2Proof.Machine.execFmin f s
  | .fmax f => Sys2Proof.Machine.execFmax f s
  | .fabs f => Sys2Proof.Machine.execFabs f s
  | .fneg f => Sys2Proof.Machine.execFneg f s
  | .fcmp f => Sys2Proof.Machine.execFcmp f s
  | .fclass f => Sys2Proof.Machine.execFclass f s
  | .rcp f => Sys2Proof.Machine.execRcp f s
  | .rsq f => Sys2Proof.Machine.execRsq f s
  | .fscale f => Sys2Proof.Machine.execFscale f s
  | .frint f => Sys2Proof.Machine.execFrint f s
  | .fcvt f => Sys2Proof.Machine.execFcvt f s
  | .ftoi f => Sys2Proof.Machine.execFtoi f s
  | .itof f => Sys2Proof.Machine.execItof f s
  | .qnt f => Sys2Proof.Machine.execQnt f s
  | .qnt4 f => Sys2Proof.Machine.execQnt4 f s
  | .dqnt f => Sys2Proof.Machine.execDqnt f s
  | .amax f => Sys2Proof.Machine.execAmax f s
  | .lshup f => Sys2Proof.Machine.execLshup f s
  | .lshdn f => Sys2Proof.Machine.execLshdn f s
  | .lbcst f => Sys2Proof.Machine.execLbcst f s
  | .lperm f => Sys2Proof.Machine.execLperm f s
  | .lradd f => Sys2Proof.Machine.execLradd f s
  | .lrmax f => Sys2Proof.Machine.execLrmax f s
  | .lrmin f => Sys2Proof.Machine.execLrmin f s
  | .lscan f => Sys2Proof.Machine.execLscan f s
  | .lmask f => Sys2Proof.Machine.execLmask f s
  | .lpack f => Sys2Proof.Machine.execLpack f s
  | .pwl f => Sys2Proof.Machine.execPwl f s
  | .rred f => Sys2Proof.Machine.execRred f s
  | .rcomb f => Sys2Proof.Machine.execRcomb f s
  | .nullif f => Sys2Proof.Machine.execNullif f s
  | .drop f => Sys2Proof.Machine.execDrop f s
  | .count f => Sys2Proof.Machine.execCount f s
  | .steer f => Sys2Proof.Machine.execSteer f s
  | .merge f => Sys2Proof.Machine.execMerge f s
  | .carry f => Sys2Proof.Machine.execCarry f s
  | .gate f => Sys2Proof.Machine.execGate f s
  | .split f => Sys2Proof.Machine.execSplit f s
  | .omerge f => Sys2Proof.Machine.execOmerge f s
  | .join f => Sys2Proof.Machine.execJoin f s
  | .mldb f => Sys2Proof.Machine.execMldb f s
  | .mscl f => Sys2Proof.Machine.execMscl f s
  | .mma f => Sys2Proof.Machine.execMma f s
  | .accrd f => Sys2Proof.Machine.execAccrd f s
  | .accwr f => Sys2Proof.Machine.execAccwr f s
  | .accsv f => Sys2Proof.Machine.execAccsv f s
  | .accld f => Sys2Proof.Machine.execAccld f s
  | .cfold f => Sys2Proof.Machine.execCfold f s
  | .accz f => Sys2Proof.Machine.execAccz f s
  | .ld f => Sys2Proof.Machine.execLd f s
  | .st f => Sys2Proof.Machine.execSt f s
  | .ldl f => Sys2Proof.Machine.execLdl f s
  | .stl f => Sys2Proof.Machine.execStl f s
  | .atom f => Sys2Proof.Machine.execAtom f s
  | .cas f => Sys2Proof.Machine.execCas f s
  | .mcst f => Sys2Proof.Machine.execMcst f s
  | .rld f => Sys2Proof.Machine.execRld f s
  | .pref f => Sys2Proof.Machine.execPref f s
  | .qpush f => Sys2Proof.Machine.execQpush f s
  | .qpop f => Sys2Proof.Machine.execQpop f s
  | .send f => Sys2Proof.Machine.execSend f s
  | .recv f => Sys2Proof.Machine.execRecv f s
  | .rdcp f => Sys2Proof.Machine.execRdcp f s
  | .land f => Sys2Proof.Machine.execLand f s
  | .mfence f => Sys2Proof.Machine.execMfence f s
  | .sigst f => Sys2Proof.Machine.execSigst f s
  | .sigld f => Sys2Proof.Machine.execSigld f s
  | .cnt f => Sys2Proof.Machine.execCnt f s
  | .aff f => Sys2Proof.Machine.execAff f s
  | .idx f => Sys2Proof.Machine.execIdx f s
  | .last f => Sys2Proof.Machine.execLast f s
  | .bnd f => Sys2Proof.Machine.execBnd f s
  | .rngp f => Sys2Proof.Machine.execRngp f s
  | .rngx f => Sys2Proof.Machine.execRngx f s
  | .gath f => Sys2Proof.Machine.execGath f s
  | .cseq f => Sys2Proof.Machine.execCseq f s
  | .cpipe f => Sys2Proof.Machine.execCpipe f s
  | .cstrm f => Sys2Proof.Machine.execCstrm f s
  | .cbar f => Sys2Proof.Machine.execCbar f s
  | .rcfg f => Sys2Proof.Machine.execRcfg f s
  | .powerOnReset found detail => Sys2Proof.Machine.execPowerOnReset found detail s
  | .nodeChildDone r cell slot child => Sys2Proof.Machine.execNodeChildDone r cell slot child s
  | .leafDone r cell slot => Sys2Proof.Machine.execLeafDone r cell slot s
  | .resultLand r cell slot => Sys2Proof.Machine.execResultLand r cell slot s
  | .halyardPulseDeliver r line => Sys2Proof.Machine.execHalyardPulseDeliver r line s
  | .globalResponse id => Sys2Proof.Machine.execGlobalResponse id s
  | .releaseCompletionToken id => Sys2Proof.Machine.execReleaseCompletionToken id s
  | .mfenceComplete id => Sys2Proof.Machine.execMfenceComplete id s
  | .seqLoadResponse id => Sys2Proof.Machine.execSeqLoadResponse id s
  | .seqStoreRetire id => Sys2Proof.Machine.execSeqStoreRetire id s
  | .homeWriteApply id => Sys2Proof.Machine.execHomeWriteApply id s
  | .crossDieWriteVisible die id => Sys2Proof.Machine.execCrossDieWriteVisible die id s
  | .linkReleaseReceive dev part va val add ref agent => Sys2Proof.Machine.execLinkReleaseReceive dev part va val add ref agent s
  | .tileSwap r cell => Sys2Proof.Machine.execTileSwap r cell s
  | .rampStart r cell => Sys2Proof.Machine.execRampStart r cell s
  | .mmaCommit r cell => Sys2Proof.Machine.execMmaCommit r cell s
  | .ccbSpill r cell => Sys2Proof.Machine.execCcbSpill r cell s
  | .fillerStep r cell => Sys2Proof.Machine.execFillerStep r cell s
  | .mxReplay r cell parity => Sys2Proof.Machine.execMxReplay r cell parity s
  | .droopWindow die sec sag => Sys2Proof.Machine.execDroopWindow die sec sag s
  | .enginePop eng agent => Sys2Proof.Machine.execEnginePop eng agent s
  | .copySector id n bad => Sys2Proof.Machine.execCopySector id n bad s
  | .landTokenEmit id => Sys2Proof.Machine.execLandTokenEmit id s
  | .copyStamp id => Sys2Proof.Machine.execCopyStamp id s
  | .rdcpCombine id => Sys2Proof.Machine.execRdcpCombine id s
  | .collectiveComplete id => Sys2Proof.Machine.execCollectiveComplete id s
  | .rangeServerPull r => Sys2Proof.Machine.execRangeServerPull r s
  | .rangeServerRaise r => Sys2Proof.Machine.execRangeServerRaise r s
  | .slotTake q => Sys2Proof.Machine.execSlotTake q s
  | .launch q => Sys2Proof.Machine.execLaunch q s
  | .copyPacket q => Sys2Proof.Machine.execCopyPacket q s
  | .collPacket q => Sys2Proof.Machine.execCollPacket q s
  | .signalPacket q => Sys2Proof.Machine.execSignalPacket q s
  | .waitsig q => Sys2Proof.Machine.execWaitsig q s
  | .cond q => Sys2Proof.Machine.execCond q s
  | .rearm q => Sys2Proof.Machine.execRearm q s
  | .hring q => Sys2Proof.Machine.execHring q s
  | .endPacket q => Sys2Proof.Machine.execEndPacket q s
  | .packetComplete q id => Sys2Proof.Machine.execPacketComplete q id s
  | .waitsigReevaluate q => Sys2Proof.Machine.execWaitsigReevaluate q s
  | .wrIndexMonitor q => Sys2Proof.Machine.execWrIndexMonitor q s
  | .wrIndexPoll => Sys2Proof.Machine.execWrIndexPoll s
  | .ringAppend id => Sys2Proof.Machine.execRingAppend id s
  | .ringCoalTimer ring => Sys2Proof.Machine.execRingCoalTimer ring s
  | .eventInterrupt fn => Sys2Proof.Machine.execEventInterrupt fn s
  | .regionAllocate q => Sys2Proof.Machine.execRegionAllocate q s
  | .imageLoad r => Sys2Proof.Machine.execImageLoad r s
  | .sectionApply r => Sys2Proof.Machine.execSectionApply r s
  | .stageSwitch r cell slot => Sys2Proof.Machine.execStageSwitch r cell slot s
  | .rateSolve r => Sys2Proof.Machine.execRateSolve r s
  | .switchCycle r => Sys2Proof.Machine.execSwitchCycle r s
  | .railHoldExpire quad => Sys2Proof.Machine.execRailHoldExpire quad s
  | .railSettle quad => Sys2Proof.Machine.execRailSettle quad s
  | .clockGate sec => Sys2Proof.Machine.execClockGate sec s
  | .powerGate sec => Sys2Proof.Machine.execPowerGate sec s
  | .sectorWake sec => Sys2Proof.Machine.execSectorWake sec s
  | .regionRelease r => Sys2Proof.Machine.execRegionRelease r s
  | .haltAccept part => Sys2Proof.Machine.execHaltAccept part s
  | .watchdogT1 q => Sys2Proof.Machine.execWatchdogT1 q s
  | .watchdogT2 q => Sys2Proof.Machine.execWatchdogT2 q s
  | .preemptDecision q => Sys2Proof.Machine.execPreemptDecision q s
  | .kill r => Sys2Proof.Machine.execKill r s
  | .checkpoint r => Sys2Proof.Machine.execCheckpoint r s
  | .checkpointSaveComplete r => Sys2Proof.Machine.execCheckpointSaveComplete r s
  | .drainPreempt r => Sys2Proof.Machine.execDrainPreempt r s
  | .drainComplete r => Sys2Proof.Machine.execDrainComplete r s
  | .restore q => Sys2Proof.Machine.execRestore q s
  | .hoistWalk part => Sys2Proof.Machine.execHoistWalk part s
  | .debugStop part => Sys2Proof.Machine.execDebugStop part s
  | .prioTokenRefill part => Sys2Proof.Machine.execPrioTokenRefill part s
  | .energyMeterUpdate part uj credit => Sys2Proof.Machine.execEnergyMeterUpdate part uj credit s
  | .tempSample die temp => Sys2Proof.Machine.execTempSample die temp s
  | .flitReceive link flit corrected crcOk => Sys2Proof.Machine.execFlitReceive link flit corrected crcOk s
  | .linkTrainingDone link peer far ok => Sys2Proof.Machine.execLinkTrainingDone link peer far ok s
  | .timeSyncExchange link found => Sys2Proof.Machine.execTimeSyncExchange link found s
  | .pageWalk id => Sys2Proof.Machine.execPageWalk id s
  | .fqReplyRetry die idx => Sys2Proof.Machine.execFqReplyRetry die idx s
  | .fqReplyAbort die idx => Sys2Proof.Machine.execFqReplyAbort die idx s
  | .tlbInvalidate v => Sys2Proof.Machine.execTlbInvalidate v s
  | .tlbInvComplete => Sys2Proof.Machine.execTlbInvComplete s
  | .hostBar2Access fn kind size addr v cmp => Sys2Proof.Machine.execHostBar2Access fn kind size addr v cmp s
  | .errorDetect kind part die unit addr => Sys2Proof.Machine.execErrorDetect kind part die unit addr s
  | .bankRowBist id pass => Sys2Proof.Machine.execBankRowBist id pass s
  | .sectorScan sec pass => Sys2Proof.Machine.execSectorScan sec pass s
  | .partitionCreate n v => Sys2Proof.Machine.execPartitionCreate n v s
  | .partitionDisable n v => Sys2Proof.Machine.execPartitionDisable n v s
  | .queueEnable fn q v => Sys2Proof.Machine.execQueueEnable fn q v s
  | .queueDisable fn q v => Sys2Proof.Machine.execQueueDisable fn q v s
  | .reqCounterClear v => Sys2Proof.Machine.execReqCounterClear v s
  | .linkEnable link v => Sys2Proof.Machine.execLinkEnable link v s
  | .linkDisable link v => Sys2Proof.Machine.execLinkDisable link v s
  | .attestationQuote v => Sys2Proof.Machine.execAttestationQuote v s
  | .measurementExtend v => Sys2Proof.Machine.execMeasurementExtend v s
  | .fwSlotWrite v => Sys2Proof.Machine.execFwSlotWrite v s
  | .fwNextSelect v => Sys2Proof.Machine.execFwNextSelect v s
  | .bootStatClear v => Sys2Proof.Machine.execBootStatClear v s
  | .sleepExpiry quad => Sys2Proof.Machine.execSleepExpiry quad s
  | .backPressureThreshold r => Sys2Proof.Machine.execBackPressureThreshold r s
  | .drainTimeout r => Sys2Proof.Machine.execDrainTimeout r s
  | .railFallEnd quad => Sys2Proof.Machine.execRailFallEnd quad s
  | .droopWindowEnd die sec => Sys2Proof.Machine.execDroopWindowEnd die sec s
  | .powerLoss => Sys2Proof.Machine.execPowerLoss s
  | .dramRetrain die => Sys2Proof.Machine.execDramRetrain die s
  | .dramRetrainEnd die => Sys2Proof.Machine.execDramRetrainEnd die s
  | .hoistFetchTimeout part => Sys2Proof.Machine.execHoistFetchTimeout part s
  | .qmaskWrite n imm v => Sys2Proof.Machine.execQmaskWrite n imm v s
  | .pkgPlimWrite v => Sys2Proof.Machine.execPkgPlimWrite v s
  | .partPcapWrite n v => Sys2Proof.Machine.execPartPcapWrite n v s
  | .partEnergyWrite n v => Sys2Proof.Machine.execPartEnergyWrite n v s
  | .partCreditWrite n v => Sys2Proof.Machine.execPartCreditWrite n v s
  | .railCfgWrite die v => Sys2Proof.Machine.execRailCfgWrite die v s
  | .inrushStatWrite die v => Sys2Proof.Machine.execInrushStatWrite die v s
  | .slewTabWrite quad v => Sys2Proof.Machine.execSlewTabWrite quad v s
  | .quadCounterWrite quad k v => Sys2Proof.Machine.execQuadCounterWrite quad k v s
  | .partStopWrite n v => Sys2Proof.Machine.execPartStopWrite n v s
  | .errLogWrite v => Sys2Proof.Machine.execErrLogWrite v s
  | .partTraceWrite n v => Sys2Proof.Machine.execPartTraceWrite n v s
  | .partHoistWrite n v => Sys2Proof.Machine.execPartHoistWrite n v s
  | .partDbgWrite n v => Sys2Proof.Machine.execPartDbgWrite n v s
  | .pmcWrite quad imm v => Sys2Proof.Machine.execPmcWrite quad imm v s
  | .tempWrite die v => Sys2Proof.Machine.execTempWrite die v s
  | .devLocWrite v => Sys2Proof.Machine.execDevLocWrite v s
  | .linkErrWrite link v => Sys2Proof.Machine.execLinkErrWrite link v s
  | .registerWrite fn size off v => Sys2Proof.Machine.execRegisterWrite fn size off v s

end Sys2Proof.Machine
end

