-- ==== Sys2Proof/Machine/Schedule.lean ====
section
/-! DEFINITION. Sys2Proof/Machine/Schedule.lean: whose turn it is, the passing of time, and fetching the instruction of a turn
(00_scope.md R2, R142, R143, R255; logs 3, 4, 5). -/

namespace Sys2Proof.Machine

/-- The turn that comes when none is listed: a free value by the number of the draw (log 3). -/
opaque Config.nextTurn : Nat → Turn

/-- Take the next turn. -/
def Clk.take (c : Clk) : Turn × Clk :=
  match c.agenda with
  | t :: rest => (t, { c with agenda := rest })
  | [] => (Config.nextTurn c.turns, { c with turns := c.turns + 1 })

/-- Time passes: grid cycles, and global time at the steered rate, which never runs back (R404). -/
def Clk.advance (c : Clk) (steer : Int) (dt : Nat) : Clk :=
  { c with now := c.now + dt, gtime := c.gtime + ((dt : Int) * (1000000 + steer)).toNat }

/-- What the passing of time counts for one region's quads (R401): code 1, island cycles summed over the quad's sectors, and code 6, those of
its clock-gated sectors. -/
def tickRegion (m : Mach) (g : Region) (t0 t1 : Nat) (bar : Tbl W64) : Tbl W64 :=
  if g.runs then
    let t0 := g.lastCycle t0
    let t1 := g.lastCycle t1
    (List.range (4 * g.qw * g.qh)).foldl (fun bar i =>
      let cell := 128 * (8 * (i / (2 * g.qw))) + 8 * (i % (2 * g.qw))
      let quad := siteQuad g cell
      let isl := g.islandOf cell
      let n := isl.edge t1 - isl.edge t0
      let bar := pmcAdd bar quad 1 n
      if (tgetD m.sectors (siteSector g cell) {}).gate = 1 then pmcAdd bar quad 6 n else bar) bar
  else bar

/-- What the passing of time counts for a sequencer: code 14, the sequencer cycles (4 grid cycles each) that it waits (R401). -/
def tickSeq (quad : Nat) (sq : Seq) (t0 t1 : Nat) (bar : Tbl W64) : Tbl W64 :=
  if sq.wait.isSome && sq.released && !sq.halted then pmcAdd bar quad 14 (t1 / 4 - t0 / 4) else bar

/-- What the passing of time counts in SPILLCYC (R214, R388): the island cycles for which a cell's commit goes on being held for a spill. -/
def tickHolds (m : Mach) (t0 t1 : Nat) : Mach :=
  m.regions.foldl (fun m (_, g) =>
    if !g.runs then m
    else
      let t0 := g.lastCycle t0
      let t1 := g.lastCycle t1
      g.mxs.foldl (fun m (cell, x) =>
        let s := tgetD m.sectors (siteSector g cell) {}
        let isl := g.islandOf cell
        let held (t : Nat) : Nat := min (isl.edge t) (x.holdTo - 1)
        let n := held t1 - isl.edge t0
        if n = 0 ∨ 1 < s.gate ∨ s.droop then m
        else
          let early := held (t1 - 1) - isl.edge t0
          let m := if t0 < t1 ∧ 0 < early then m.countQuad (siteQuad g cell) 0 (t1 - 1) early else m
          if early < n then m.countQuad (siteQuad g cell) 0 t1 (n - early) else m) m) m

/-- The results of multi-cycle operations that can be read from a grid cycle on (R255). -/
def Seq.ripen (sq : Seq) (t : Nat) : Seq := { sq with readyAt := sq.readyAt.filter fun x => decide (t < x.2) }

/-- Time passes for the machine's counters, and for the sequencers' results to come. -/
def tick (m : Mach) (t0 t1 : Nat) : Mach :=
  let m := tickHolds m t0 t1
  let bar := m.regions.foldl (fun bar g => tickRegion m g.2 t0 t1 bar) m.bar
  { m with bar := m.seqs.foldl (fun bar q => tickSeq q.1 q.2 t0 t1 bar) bar, seqs := m.seqs.map fun q => (q.1, q.2.ripen t1) }

/-- The actor of a turn. -/
def Act.actor : Act → Actor
  | .seq q => .seq q
  | .elem r c s => .elem r c s
  | .ev _ => .hub

/-- The state in which a turn is taken: its time has passed, and it is the turn of its actor. -/
def State.turn (s : State) : Act × State :=
  let (t, c) := s.clk.take
  let c' := c.advance s.m.hub.steer t.dt
  (t.act, { s with clk := c', m := { tick s.m c.now c'.now with cur := t.act.actor } })

/-- The ring into which a turn may write pennants, and the agent that it acts for; none: it writes none, or is alone on its ring (R391). -/
def W.writesAs (w : W) : Act → Option (Nat × Nat)
  | .seq q => some (q, w.seqAgent q)
  | .elem r c s => elem ⟨r, c, s⟩
  | .ev i =>
    match i with
    | .nodeChildDone r c s _ => elem ⟨r, c, s⟩
    | .leafDone r c s => elem ⟨r, c, s⟩
    | .resultLand r c s => elem ⟨r, c, s⟩
    | .globalResponse id => (match w.req id.id with | some r => (match r.src with | .elem a b c => elem ⟨a, b, c⟩ | _ => none) | none => none)
    | .enginePop eng _ => some (engRing eng, w.engAgent eng)
    | .launch q => cp q
    | .copyPacket q => cp q
    | .collPacket q => cp q
    | .signalPacket q => cp q
    | .waitsig q => cp q
    | .cond q => cp q
    | .rearm q => cp q
    | .hring q => cp q
    | .endPacket q => cp q
    | .waitsigReevaluate q => cp q
    | .ringAppend id => (match w.m.hub.appends.find? fun a => a.id == id with | some a => (match a.src with | .cp q => cp q | _ => none) | none => none)
    | _ => none
where
  elem (e : ERef) : Option (Nat × Nat) := some (w.penQuad e, w.elemAgent e)
  cp (q : Nat) : Option (Nat × Nat) := some (0xF0, w.cpAgent q)

/-- A turn may come: what it writes into a ring on this cycle stands in the order of R391. The model's turns come in any order, and one that would come too late on its
cycle is passed over (log 3). -/
def W.inOrder (w : W) (a : Act) : Bool := match w.writesAs a with | some (ring, agent) => w.ringOpen ring agent | none => true

/-- What a turn finds. -/
inductive Fetched where
  /-- an instruction to execute -/
  | instr (i : Instr)
  /-- nothing: the sequencer issues nothing now, or there is none -/
  | idle
  /-- the sequencer's next word is unloaded, or its PC outside the control store (R142) -/
  | unloaded (quad : Nat)
  /-- a word that is no instruction -/
  | bad (word : Nat)
deriving DecidableEq, Repr

/-- A sequencer that issues: released, not halted, not ready for its saving (R281, R282), its partition not halted (R355) and itself not faulted, its region not
past the halt cycle of a checkpoint (R364). -/
def Seq.issues (sq : Seq) (m : Mach) (agent now : Nat) : Bool :=
  sq.released && !sq.halted && !sq.ready && !(tgetD m.parts sq.part {}).halted &&
  !(tgetD m.parts sq.part {}).halts.any (fun h => h.agent == agent) &&
  (tgetD m.regions sq.region {}).runsAt now

/-- The instruction of a turn (R142, R143); a sequencer issues once a sequencer cycle (R255). -/
def State.fetch (s : State) : Act → Fetched
  | .ev i => if i.kind == .event then .instr i else .idle
  | .seq q =>
    match tget s.m.seqs q with
    | none => .idle
    | some sq =>
      if !sq.issues s.m ((W.of s).seqAgent q) s.clk.now || decide (s.clk.now < sq.nextAt) then .idle
      else if 4096 ≤ sq.pc.toNat then .unloaded q
      else match tget sq.store sq.pc.toNat with
        | none => .unloaded q
        | some w =>
          match decodeSeq w with
          | .ok i => .instr i
          | .error _ => .bad w.toNat
  | .elem r c sl =>
    match tget s.m.regions r with
    | none => .idle
    | some g =>
      match tget g.elems (ekey c sl) with
      | none => .idle
      | some x =>
        if x.word = 0 then .idle
        else match decodeElem x.word with
        | .ok i => .instr i
        | .error _ => .bad x.word.toNat

/-- The state after a sequencer has come to a word that cannot issue: 0x168 (R142, R284). -/
def State.unloadedWord (s : State) (q : Nat) : State := ((W.of s).raiseSeq q 0x168).commit s

end Sys2Proof.Machine
end

