-- ==== Sys2Proof/Machine/Step.lean ====
section
/-! DEFINITION. Sys2Proof/Machine/Step.lean: one step of the machine: the next turn's time passes, and its instruction is fetched and
executed (R83, R391; logs 3, 5). -/

namespace Sys2Proof.Machine

/-- One step: the next turn. -/
def step (s : State) : Host.Outcome State Fault Refusal :=
  let (act, t) := s.turn
  if !(W.of t).inOrder act then .next t
  else match t.fetch act with
  | .instr i => exec i t
  | .idle => .next t
  | .unloaded q => .next (t.unloadedWord q)
  | .bad w => .refused (.undecodable w)

/-- s with an instruction placed where the next step fetches it: a sequencer's word (nbits up to 32) at the PC of the sequencer of package
quad 0, released in a running region of that quad, or an element's word (64 bits) in slot 0 of the region's cell 0; and the turn of
that sequencer or element as the next one (log 4). -/
def State.withFetchWord (s : State) (nbits w : Nat) : State :=
  if nbits ≤ 32 then
    let sq := { tgetD s.m.seqs 0 {} with released := true, halted := false, ready := false, wait := none, part := 0, region := 0, nextAt := 0 }
    let sq := { sq with pc := BitVec.ofNat 64 (sq.pc.toNat % 4096) }
    let sq := { sq with store := tput sq.store sq.pc.toNat (BitVec.ofNat 32 w) }
    { s with
      clk := { s.clk with agenda := [{ dt := 0, act := .seq 0 }] }
      m := { s.m with
        seqs := tput s.m.seqs 0 sq
        parts := tput s.m.parts 0 { tgetD s.m.parts 0 {} with halted := false }
        regions := tput s.m.regions 0 { tgetD s.m.regions 0 {} with phase := .running } } }
  else
    let g := { tgetD s.m.regions 0 {} with phase := .running }
    let x := { tgetD g.elems 0 {} with word := BitVec.ofNat 64 w }
    { s with
      clk := { s.clk with agenda := [{ dt := 0, act := .elem 0 0 0 }] }
      m := { s.m with regions := tput s.m.regions 0 { g with elems := tput g.elems 0 x } } }

end Sys2Proof.Machine
end

