-- ==== Sys2Proof/Safety.lean ====
section
/-! DEFINITION. Sys2Proof/Safety.lean: the terms that claims use: what counts as a safe run, whose turn it is, what a state shows of its parts,
and the state in which a sequencer has completed an instruction. -/

namespace Sys2Proof.Machine

/-! ## Runs -/

/-- A step that goes on: neither a fault nor a refusal. -/
def goesOn (s : State) : Prop := ∃ t, step s = .next t

/-- No partition of the state has halted or asked to (R355). -/
def State.noHalt (s : State) : Prop := ∀ p ∈ s.m.parts, p.2.halted = false ∧ p.2.halts = []

/-- A safe run of k steps: every step goes on. -/
def safeRun : Nat → State → Prop
  | 0, _ => True
  | k + 1, s => ∃ t, step s = .next t ∧ safeRun k t

/-! ## What a state shows -/

def State.seq (s : State) (q : Nat) : Seq := (W.of s).seq q
def State.region (s : State) (r : Nat) : Region := (W.of s).region r
def State.elem (s : State) (e : ERef) : Elem := (W.of s).elem e
def State.cell (s : State) (r c : Nat) : Cell := (W.of s).cell r c
def State.mx (s : State) (r c : Nat) : Mx := (W.of s).mx r c
def State.bank (s : State) (r c : Nat) : Memory := (W.of s).bank r c
def State.node (s : State) (e : ERef) : Node := (W.of s).node e
def State.line (s : State) (r h : Nat) : Line := (W.of s).line r h
def State.part (s : State) (n : Nat) : Part := (W.of s).part n
def State.queue (s : State) (q : Nat) : Queue := (W.of s).queue q
def State.bar (s : State) (off : Nat) : W64 := (W.of s).bar off
def State.ns (s : State) : Nat := (W.of s).ns
/-- The request of a number that has not been performed. -/
def State.req (s : State) (id : Nat) : Option Req := (W.of s).req id
/-- The byte that an agent reads at a location of global memory (R94, R96). -/
def State.view (s : State) (e : Eye) (key : Nat) : Byte := (W.of s).view e key
/-- The byte at a location of global memory, at its home. -/
def State.byte (s : State) (key : Nat) : Byte := memRead s.mem key

/-! ## Whose turn it is -/

/-- It is the turn of the sequencer of package quad q, whose record is sq. -/
structure SeqTurn (s : State) (q : Nat) (sq : Seq) : Prop where
  cur  : s.m.cur = .seq q
  here : tget s.m.seqs q = some sq

/-- It is the turn of an element, which the region g holds as x. -/
structure ElemTurn (s : State) (e : ERef) (g : Region) (x : Elem) : Prop where
  cur  : s.m.cur = .elem e.r e.cell e.slot
  reg  : tget s.m.regions e.r = some g
  here : tget g.elems e.key = some x

/-- An element fires: it has the turn on an edge of its island, nothing holds it (R17, R18, R315), every position that it uses gives a token, both its
targets grant; i is what it consumes, x its record. -/
structure Fires (s : State) (e : ERef) (x : Elem) (u : Uses) (i : Ins) : Prop where
  cur    : s.m.cur = .elem e.r e.cell e.slot
  reg    : ∃ g, tget s.m.regions e.r = some g ∧ tget g.elems e.key = some x
  may    : (W.of s).mayFire e = true
  ins    : x.inputs u = some i
  grants : (W.of s).grantBoth e = true

/-- The state after a firing has consumed its inputs and done f. -/
def State.fired (s : State) (e : ERef) (i : Ins) (f : W → W) : State := (f ((W.of s).consume e i)).commit s

/-- The state after a firing that sends the token t to each target, due lat island edges later, with flags, and keeps the LFSR. -/
def State.sends (s : State) (e : ERef) (i : Ins) (lat : Nat) (r : Token × Flags × W32) : State :=
  s.fired e i fun w => (w.setElem e fun x => { x with lfsr := r.2.2 }).flyBoth e lat (i.mark r.1) r.2.1

/-- The tokens at the used positions, as an element with an empty policy reads them. -/
def Elem.operands (x : Elem) (u : Uses) (i : Ins) : List Token :=
  ([i.l] ++ (if u.r then [i.r] else []) ++ (if u.p then [i.p] else [])).map fun t => t.policy x.empty x.k

/-- A memory cell's element may make its global access (R226, R228): its turn has come and every position that it uses gives a token. -/
structure CellFires (s : State) (e : ERef) (x : Elem) (u : Uses) (store : Bool) (i : Ins) : Prop where
  cur  : s.m.cur = .elem e.r e.cell e.slot
  reg  : ∃ g, tget s.m.regions e.r = some g ∧ tget g.elems e.key = some x
  turn : (W.of s).globalTurn e store = true
  ins  : x.inputs u = some i

/-- The address va of a global access of a cell is aligned, lies in the global space, and its translation is held: it is placed on the pieces ps, and w
is the working state in which it has been. -/
structure CellPlaced (s : State) (e : ERef) (va : W64) (len align : Nat) (a : Access) (t : Touch) (w : W) (ls : List Leaf) (ps : List Piece)
    (ts : List Nat) : Prop where
  aligned : va.toNat % align = 0
  low     : va.toNat < 2 ^ 56
  global  : inScratch va = false
  placed  : (W.of s).placed (.elem e.r e.cell e.slot) (s.region e.r).part va len a t 0xA = (w, .ok (ls, ps, ts))

/-- The cell's element has consumed its tokens and sent the request r for a placed access; f says what is to come of it, from the request's number. -/
def State.cellSent (s : State) (e : ERef) (i : Ins) (va : W64) (w : W) (ls : List Leaf) (ps : List Piece) (ts : List Nat) (r : W → Req)
    (f : Nat → W → W) : State :=
  let w := w.consume e i
  let w := w.setCell e.r e.cell fun c => { c with globAt := w.now + 1, globBy := e.slot, hold := none }
  (f (w.m.nextId + 1) (w.issue { r w with
    die := (s.region e.r).die, part := (s.region e.r).part, src := .elem e.r e.cell e.slot, va := va, pieces := ps, xlate := ts
    place := (ls.map (·.place)).headD 0 }).1).commit s

/-- A bank element fires (R84): it may, its inputs are i, and the bank's slot is its own on this edge. -/
structure BankFires (s : State) (e : ERef) (x : Elem) (write : Bool) (i : Ins) : Prop where
  cur   : s.m.cur = .elem e.r e.cell e.slot
  reg   : ∃ g, tget s.m.regions e.r = some g ∧ tget g.elems e.key = some x
  ready : (W.of s).bankReady e = true
  slot  : (W.of s).bankSlot e write = true
  ins   : (W.of s).bankInputs e = some i

/-- The state after a bank element's firing has consumed its inputs, taken the bank's slot, and done f. -/
def State.bankFired (s : State) (e : ERef) (i : Ins) (write : Bool) (f : W → W) : State :=
  let w := (W.of s).consume e i
  (f (w.setCell e.r e.cell fun c => if write then { c with writeAt := w.now + 1 } else { c with readAt := w.now + 1 })).commit s

/-- The state after a drain has replaced the matrix cell by m, and sends the tokens out from lat edges later, with flags. -/
def State.drained (s : State) (e : ERef) (i : Ins) (data : List Token) (m : Mx) (out : List Token) (lat : Nat) (flags : Flags) (lfsr : W32) : State :=
  s.fired e i fun w =>
    ((((w.setElem e fun x => { x with opened := false, buf := [] }).setMatrix e m).setElem e fun x => { x with lfsr := lfsr }).flyBurst e lat
      (out.map fun t => { t with rel := relOf (data ++ i.toks), last := (data ++ i.toks).any (·.last), log := (data ++ i.toks).findSome? (·.log) }) flags)

/-! ## The command processor, the hub and its faults -/

/-- An agent can still raise a fatal cause of a partition: the partition has not halted, and the agent has raised none (R357). -/
structure MayRaise (s : State) (n agent : Nat) : Prop where
  runs : (s.part n).halted = false
  none : ∀ h ∈ (s.part n).halts, h.agent ≠ agent

/-- An agent's halt of a partition waits for the hub, with a cause code (R355). -/
def State.raised (s : State) (n agent code : Nat) : Prop := ∃ h ∈ (s.part n).halts, h.agent = agent ∧ h.code = code

/-- The packet p, of a TYPE, is issued by the CP of queue q (R127, R128): it is at the head, it is the queue's turn, and w is the working state in which its
pennants, its job (numbered one above nextId) and its node's STATE = 1 stand. -/
structure Issues (s : State) (q typ : Nat) (p : Packet) (w : W) : Prop where
  cur  : (s.queue q).cur = some p
  typ  : p.typ = typ
  turn : (W.of s).cpTurn q = true
  busy : ∃ ids, ((W.of s).issueHead q p).1.nodeBusy q p = (w, .ok ids)

/-- The job of a number in a queue, when it has one. -/
def State.job (s : State) (q id : Nat) : Option Job := (s.queue q).jobs.find? fun j => j.id == id

/-- The hub's TLB translates an address of a partition for an access: to offset off of the page of the leaf l (R373, R375). -/
def State.hubAt (s : State) (part : Nat) (va : W64) (a : Access) (l : Leaf) (off : Nat) : Prop := ∃ x, (W.of s).hubLookup part va a = .ok l off x

/-! ## A sequencer's instruction -/

/-- The record of a sequencer whose instruction has completed: the next word, and no wait (R255). -/
def Seq.after (sq : Seq) : Seq := { sq.next with wait := none }
/-- The record of a sequencer that an instruction has sent to a word. -/
def Seq.jumped (sq : Seq) (pc : W64) : Seq := { sq with pc := pc, wait := none }

/-- The grid cycle on which the next sequencer cycle begins: the earliest at which a sequencer that has just issued issues again (R255). -/
def State.nextIssue (s : State) : Nat := (W.of s).seqCycle 1

/-- The sequencer of quad q has issued an instruction and holds sq': its record, from the next sequencer cycle on, and the counters of the quad that count
code 13 (R401). Nothing else changes. -/
def State.issued (s : State) (q : Nat) (sq' : Seq) : State :=
  { s with m := { s.m with seqs := tput s.m.seqs q { sq' with nextAt := s.nextIssue }, bar := pmcAdd s.m.bar q 13 1 } }

/-- The same after flags have been OR-ed into the partition's SQ_FLAGS (R60, R61). -/
def State.flagged (s : State) (n : Nat) (f : Flags) : State := ((W.of s).orFlags n f).commit s

/-- A fatal cause of the sequencer of quad q: it waits for the hub (R355), and nothing else changes. -/
def State.seqRaised (s : State) (q code : Nat) (va : W64 := 0) : State := ((W.of s).raiseSeq q code va).commit s

/-- The sequencer of quad q, whose record is sq, is held by its instruction from now on (R283). -/
def State.held (s : State) (q : Nat) (sq : Seq) (x : SeqWait) : State :=
  { s with m := { s.m with seqs := tput s.m.seqs q { sq with wait := some { x with start := s.ns }, nextAt := s.nextIssue } } }

/-- A request r of the sequencer of quad q has been sent, and the sequencer, whose record is sq, counts it in a class c under a number that a
register awaits when the request answers one; its instruction has completed. -/
def W.seqSent (w : W) (q : Nat) (c : Cls) (r : Req) (d : Option (BitVec 5)) (f : Seq → Seq) : W :=
  ((w.issue r).1).seqDone q fun sq => match d with
    | some d => (((f sq).put d ((f sq).reg d)).add (w.m.nextId + 1) c d.toNat).await d (w.m.nextId + 1)
    | none => (f sq).add (w.m.nextId + 1) c 0

/-- The request of the sequencer of quad q for a placed access: what every access of it has in common. -/
def seqReq (q : Nat) (sq : Seq) (d : Nat) (ea : W64) (len : Nat) (ls : List Leaf) (ps : List Piece) (ts : List Nat) : Req :=
  { die := q / 40, part := sq.part, src := .seq q d, va := ea, size := len, pieces := ps, xlate := ts, place := (ls.map (·.place)).headD 0
    ref := sq.latest, mask := 2 ^ len - 1 }

/-- A copy-class request c has been queued, and counts as outstanding under its tag. -/
def State.copySent (s : State) (q : Nat) (sq : Seq) (c : Copy) : State :=
  { s with m := { s.m with
      nextId := s.m.nextId + 1
      hub := { s.m.hub with copies := s.m.hub.copies ++ [c] }
      seqs := tput s.m.seqs q { sq.add (s.m.nextId + 1) .copies c.tag with copySeq := sq.copySeq + 1, nextAt := s.nextIssue }.after
      bar := pmcAdd s.m.bar q 13 1 } }

/-- Everything but the sequencers and the performance counters is as before. -/
def State.sameBut (s t : State) (q : Nat) : Prop :=
  t.clk = s.clk ∧ t.mem = s.mem ∧ (∀ j, j ≠ q → tget t.m.seqs j = tget s.m.seqs j) ∧ t.m.regions = s.m.regions ∧ t.m.parts = s.m.parts ∧
  t.m.queues = s.m.queues ∧ t.m.bus = s.m.bus ∧ t.m.mmu = s.m.mmu ∧ t.m.hub = s.m.hub ∧ t.m.rings = s.m.rings ∧ t.m.rails = s.m.rails ∧
  t.m.sectors = s.m.sectors ∧ t.m.links = s.m.links ∧ t.m.boot = s.m.boot

end Sys2Proof.Machine
end

