-- ==== Sys2Proof/Certificates/Slice0/Obligations.lean ====
section
/-! DEFINITION. Sys2Proof/Certificates/Slice0/Obligations.lean: the statements about this machine, one definition each. -/

open Sys2Proof Sys2Proof.Machine

/-! ## The sequencer (14_sequencer.md)

In each of these the sequencer has the turn, none of the registers it reads awaits a load (R255), and it goes on to the next word unless the
statement says otherwise: `State.issued` says that nothing else changes. -/

/-- R253: reading s0 returns zero, and a write to s0 is discarded; a write to another register is read back there, and nowhere else. R255: the result of a
multi-cycle operation stands in its register too, and an instruction that reads the register stalls until the result can be read.

The frame of the sequencer's instructions on registers alone (R256, R260, R263, R282): every other sequencer, memory, every region, partition, queue and ring is as
before, and of the sequencer's own state only s[D], its PC, its wait and the cycle of its next issue may change. -/
def Obligations.SequencerRegisters : Prop :=
  (∀ (sq : Seq) (r x : BitVec 5) (v : W64),
    sq.reg 0 = 0 ∧ (sq.put 0 v).reg r = sq.reg r ∧ (x ≠ 0 → (sq.put x v).reg x = v) ∧ (r ≠ x → (sq.put x v).reg r = sq.reg r) ∧
    ∀ n : Nat, sq.putLate 0 v n = sq ∧ (x ≠ 0 → (sq.putLate x v n).reg x = v ∧ (sq.putLate x v n).stalls [x] = true) ∧
      (r ≠ x → (sq.putLate x v n).reg r = sq.reg r ∧ (sq.putLate x v n).stalls [r] = sq.stalls [r]) ∧
      (∀ t, n ≤ t → ((sq.putLate x v n).ripen t).stalls [x] = (sq.put x v).stalls [x])) ∧
  (∀ (d a b : BitVec 5) (i : BitVec 15) (j : BitVec 20) (s t : State) (q : Nat) (sq : Seq), SeqTurn s q sq →
    ∀ p ∈ ([
        .add d a b, .sub d a b, .mul d a b, .mulh d a b, .and d a b, .or d a b, .xor d a b, .shl d a b, .shr d a b, .sar d a b, .slt d a b, .sltu d a b,
        .min d a b, .max d a b, .addi d a i, .andi d a i, .ori d a i, .xori d a i, .shli d a i, .shri d a i, .sari d a i, .slti d a i, .sext d a i,
        .lih d j, .beq a b i, .bne a b i, .blt a b i, .bge a b i, .bltu a b i, .bgeu a b i, .jal d j, .jalr d a i, .nop, .time d, .plen d b,
        .csrr d i] : List Instr),
    exec p s = .next t → s.sameBut t q ∧
      ∃ sq', tget t.m.seqs q = some sq' ∧ (∀ r, r ≠ d → sq'.reg r = sq.reg r) ∧
        sq' = { sq with regs := sq'.regs, regAt := sq'.regAt, readyAt := sq'.readyAt, nextAt := sq'.nextAt, pc := sq'.pc, wait := sq'.wait })

/-- R256, register arithmetic: with a = s[A] and b = s[B], s[D] receives the result of the row; that of MUL and MULH can be read 2 sequencer cycles later (R255).

R256, immediates: with a = s[A] and i = sext(IMM15, 15) the result of the row; the shifts and SEXT take n = IMM15 as the loader admits it.

R256, DIV and REM: division by zero returns all ones, and a, and both set DZ in SQ_FLAGS; otherwise the quotient truncated toward zero and
the remainder with the sign of a, and no flag (−2^63 by −1: −2^63 and 0). The result can be read 20 sequencer cycles later (R255). -/
def Obligations.Arithmetic : Prop :=
  ((∀ p ∈ ([
      (.add, fun a b => a + b), (.sub, fun a b => a - b),
      (.and, fun a b => a &&& b), (.or, fun a b => a ||| b), (.xor, fun a b => a ^^^ b),
      (.shl, fun a b => BitVec.ofNat 64 (a.toNat * 2 ^ (b.toNat % 64))), (.shr, fun a b => BitVec.ofNat 64 (a.toNat / 2 ^ (b.toNat % 64))),
      (.sar, fun a b => BitVec.ofInt 64 (a.toInt / 2 ^ (b.toNat % 64))),
      (.slt, fun a b => if a.toInt < b.toInt then 1 else 0), (.sltu, fun a b => if a.toNat < b.toNat then 1 else 0),
      (.min, fun a b => BitVec.ofInt 64 (min a.toInt b.toInt)), (.max, fun a b => BitVec.ofInt 64 (max a.toInt b.toInt))] :
        List ((BitVec 5 → BitVec 5 → BitVec 5 → Instr) × (W64 → W64 → W64))),
  ∀ (d a b : BitVec 5) (s : State) (q : Nat) (sq : Seq), SeqTurn s q sq → sq.stalls [a, b] = false →
    exec (p.1 d a b) s = .next (s.issued q (sq.put d (p.2 (sq.reg a) (sq.reg b))).after)) ∧
  ∀ (d a b : BitVec 5) (s : State) (q : Nat) (sq : Seq), SeqTurn s q sq → sq.stalls [a, b] = false →
    exec (.mul d a b) s = .next (s.issued q (sq.putLate d (sq.reg a * sq.reg b) ((W.of s).seqCycle 2)).after) ∧
    exec (.mulh d a b) s = .next (s.issued q (sq.putLate d ((((sq.reg a).signExtend 128 * (sq.reg b).signExtend 128) >>> 64).truncate 64)
      ((W.of s).seqCycle 2)).after)) ∧
  ((∀ p ∈ ([
      (.addi, fun a i => a + i.signExtend 64), (.andi, fun a i => a &&& i.signExtend 64), (.ori, fun a i => a ||| i.signExtend 64),
      (.xori, fun a i => a ^^^ i.signExtend 64), (.slti, fun a i => if a.toInt < i.toInt then 1 else 0),
      (.shli, fun a i => BitVec.ofNat 64 (a.toNat * 2 ^ i.toNat)), (.shri, fun a i => BitVec.ofNat 64 (a.toNat / 2 ^ i.toNat)),
      (.sari, fun a i => BitVec.ofInt 64 (a.toInt / 2 ^ i.toNat)), (.sext, fun a i => (a.truncate i.toNat).signExtend 64)] :
        List ((BitVec 5 → BitVec 5 → BitVec 15 → Instr) × (W64 → BitVec 15 → W64))),
    ∀ (d a : BitVec 5) (i : BitVec 15) (s : State) (q : Nat) (sq : Seq), SeqTurn s q sq → sq.stalls [a] = false →
      exec (p.1 d a i) s = .next (s.issued q (sq.put d (p.2 (sq.reg a) i)).after)) ∧
  ∀ (d : BitVec 5) (i : BitVec 20) (s : State) (q : Nat) (sq : Seq), SeqTurn s q sq →
    exec (.lih d i) s = .next (s.issued q (sq.put d (i.signExtend 64 * 4096)).after)) ∧
  (∀ (d a b : BitVec 5) (s : State) (q : Nat) (sq : Seq), SeqTurn s q sq → sq.stalls [a, b] = false →
    (sq.reg b = 0 →
      exec (.div d a b) s = .next ((s.flagged sq.part Flags.dz).issued q (sq.putLate d (BitVec.allOnes 64) ((W.of s).seqCycle 20)).after) ∧
      exec (.rem d a b) s = .next ((s.flagged sq.part Flags.dz).issued q (sq.putLate d (sq.reg a) ((W.of s).seqCycle 20)).after)) ∧
    (sq.reg b ≠ 0 →
      exec (.div d a b) s = .next (s.issued q (sq.putLate d ((sq.reg a).sdiv (sq.reg b)) ((W.of s).seqCycle 20)).after) ∧
      exec (.rem d a b) s = .next (s.issued q (sq.putLate d ((sq.reg a).srem (sq.reg b)) ((W.of s).seqCycle 20)).after)))

/-- R260, conditional branches: PC ← PC + sext(OFF15, 15) when the comparison holds, the next word when it does not.

R260, JAL and JALR: s[D] ← PC + 1, then the jump; JALR reads s[A] before it writes s[D].

R142, R260: a target outside 0 to 4,095, or a target word that is unloaded, faults with 0x168 when that word would issue. -/
def Obligations.ControlTransfer : Prop :=
  (∀ p ∈ ([
      (.beq, fun a b => a = b), (.bne, fun a b => a ≠ b), (.blt, fun a b => a.toInt < b.toInt), (.bge, fun a b => b.toInt ≤ a.toInt),
      (.bltu, fun a b => a.toNat < b.toNat), (.bgeu, fun a b => b.toNat ≤ a.toNat)] :
        List ((BitVec 5 → BitVec 5 → BitVec 15 → Instr) × (W64 → W64 → Prop))),
  ∀ (a b : BitVec 5) (o : BitVec 15) (s : State) (q : Nat) (sq : Seq), SeqTurn s q sq → sq.stalls [a, b] = false →
    (p.2 (sq.reg a) (sq.reg b) → exec (p.1 a b o) s = .next (s.issued q (sq.jumped (sq.pc + o.signExtend 64)))) ∧
    (¬ p.2 (sq.reg a) (sq.reg b) → exec (p.1 a b o) s = .next (s.issued q sq.after))) ∧
  (∀ (d a : BitVec 5) (o : BitVec 20) (i : BitVec 15) (s : State) (q : Nat) (sq : Seq), SeqTurn s q sq →
    exec (.jal d o) s = .next (s.issued q ((sq.put d (sq.pc + 1)).jumped (sq.pc + o.signExtend 64))) ∧
    (sq.stalls [a] = false →
      exec (.jalr d a i) s = .next (s.issued q ((sq.put d (sq.pc + 1)).jumped (sq.reg a + i.signExtend 64))))) ∧
  (∀ (s t : State) (q : Nat) (sq : Seq), s.turn = (.seq q, t) → tget t.m.seqs q = some sq → (W.of t).inOrder (.seq q) = true →
    sq.issues t.m ((W.of t).seqAgent q) t.clk.now = true → sq.nextAt ≤ t.clk.now → 4096 ≤ sq.pc.toNat ∨ tget sq.store sq.pc.toNat = none → step s = .next (t.seqRaised q 0x168) ∧
      (t.seqRaised q 0x168).raised sq.part ((W.of t).seqAgent q) 0x168)

/-- R257, R70: an aligned load or store inside the scratch window, at ea = s[A] + sext(OFF12, 12): the load zero-extends its bytes into s[D], where they can be read 2 sequencer cycles later (R255), the store
writes the low bytes of s[D] (`MemoryLaws` says what a write of bytes leaves).

R258: AMO and ACAS on an aligned word of scratch: s[D] receives the old word, zero-extended, and the word becomes op(w, b) in its width, or
s[B] when it equals s[D].

R71, R259: PRD of a bound window asks for 8 bytes, those within the bound; a read that the bound cuts sets PWOOB, and one wholly
beyond it gives zero and sets PWOOB; a read at a misaligned address accesses nothing and faults with 0x160 (R85), one above the address space with 0x161 (R257);
an unbound window faults with 0x162. PLEN gives the bound, 0 for an unbound window. -/
def Obligations.ScratchAndWindows : Prop :=
  ((∀ p ∈ ([(.ldb, 1), (.ldh, 2), (.ldw, 4), (.ldd, 8)] : List ((BitVec 5 → BitVec 5 → BitVec 3 → BitVec 12 → Instr) × Nat)),
    ∀ (d a : BitVec 5) (sc : BitVec 3) (o : BitVec 12) (s : State) (q : Nat) (sq : Seq) (ea : W64), SeqTurn s q sq → sq.stalls [a] = false →
      ea = sq.reg a + o.signExtend 64 → inScratch ea = true → ea.toNat % p.2 = 0 →
      exec (p.1 d a sc o) s =
        .next (s.issued q (sq.putLate d (BitVec.ofNat 64 (leNat (memBytes sq.scratch (ea.toNat - scratchBase) p.2))) ((W.of s).seqCycle 2)).after)) ∧
  (∀ p ∈ ([(.stb, 1), (.sth, 2), (.stw, 4), (.std, 8)] : List ((BitVec 5 → BitVec 5 → BitVec 3 → BitVec 12 → Instr) × Nat)),
    ∀ (d a : BitVec 5) (sc : BitVec 3) (o : BitVec 12) (s : State) (q : Nat) (sq : Seq) (ea : W64), SeqTurn s q sq → sq.stalls [d, a] = false →
      ea = sq.reg a + o.signExtend 64 → inScratch ea = true → ea.toNat % p.2 = 0 →
      exec (p.1 d a sc o) s = .next (s.issued q
        { sq with scratch := memPut sq.scratch (ea.toNat - scratchBase) (leBytes p.2 (sq.reg d).toNat) }.after))) ∧
  (∀ (d a b : BitVec 5) (sc : BitVec 3) (z : BitVec 1) (s : State) (q : Nat) (sq : Seq) (n old : Nat), SeqTurn s q sq →
    n = (if z = 0 then 8 else 4) → inScratch (sq.reg a) = true → (sq.reg a).toNat % n = 0 →
    old = leNat (memBytes sq.scratch ((sq.reg a).toNat - scratchBase) n) →
    (∀ p ∈ ([
        (0, fun _ x y => x + y), (1, fun _ x y => if y.toInt < x.toInt then y else x), (2, fun _ x y => if x.toInt < y.toInt then y else x),
        (3, fun _ x y => if y.toNat < x.toNat then y else x), (4, fun _ x y => if x.toNat < y.toNat then y else x),
        (5, fun _ x y => x &&& y), (6, fun _ x y => x ||| y), (7, fun _ x y => x ^^^ y), (8, fun _ _ y => y)] :
          List (BitVec 4 × ((w : Nat) → BitVec w → BitVec w → BitVec w))),
      sq.stalls [a, b] = false → exec (.amo d a b sc z p.1) s = .next (s.issued q
        ((sq.scratchPut ((sq.reg a).toNat - scratchBase)
          (leBytes n (p.2 (8 * n) (BitVec.ofNat (8 * n) old) ((sq.reg b).truncate (8 * n))).toNat)).putLate d (BitVec.ofNat 64 old) ((W.of s).seqCycle 2)).after)) ∧
    (sq.stalls [d, a, b] = false → exec (.acas d a b sc z) s = .next (s.issued q
      ((sq.scratchPut ((sq.reg a).toNat - scratchBase)
        (leBytes n (if BitVec.ofNat (8 * n) old = (sq.reg d).truncate (8 * n) then ((sq.reg b).truncate (8 * n)).toNat else old))).putLate d
          (BitVec.ofNat 64 old) ((W.of s).seqCycle 2)).after))) ∧
  (∀ (d n : BitVec 5) (o : BitVec 15) (s : State) (q : Nat) (sq : Seq), SeqTurn s q sq →
    (tget (s.region sq.region).windows n.toNat = none →
      exec (.prd d n o) s = .next (s.seqRaised q 0x162) ∧ exec (.plen d n) s = .next (s.issued q (sq.put d 0).after)) ∧
    ∀ (base : W64) (bound : W32), tget (s.region sq.region).windows n.toNat = some (base, bound) →
      exec (.plen d n) s = .next (s.issued q (sq.put d (bound.zeroExtend 64)).after) ∧
      (bound.toNat ≤ o.toNat →
        exec (.prd d n o) s = .next (s.issued q { sq.put d 0 with status := sq.status ||| 1 }.after)) ∧
      ∀ (w : W) (ls : List Leaf) (ps : List Piece) (ts : List Nat) (ea : W64), o.toNat < bound.toNat → ea = base + BitVec.ofNat 64 o.toNat →
        sq.count .loads < 64 → (ea.toNat % 8 ≠ 0 → exec (.prd d n o) s = .next (s.seqRaised q 0x160 ea)) ∧
        (ea.toNat % 8 = 0 → 2 ^ 56 ≤ ea.toNat → exec (.prd d n o) s = .next (s.seqRaised q 0x161 ea)) ∧
        (ea.toNat % 8 = 0 → ea.toNat < 2 ^ 56 →
        (W.of s).placed (.seq q d.toNat) sq.part ea 8 .read (.near (q / 40)) 0xE = (w, .ok (ls, ps, ts)) →
        exec (.prd d n o) s = .next ((w.seqSent q .loads
          { seqReq q sq d.toNat ea 8 ls ps ts with kind := .read, mask := 2 ^ (min 8 (bound.toNat - o.toNat)) - 1 } (some d)
          fun sq => if o.toNat + 8 ≤ bound.toNat then sq else { sq with status := sq.status ||| 1 }).commit s)))

/-- R257, R254: an aligned load or store elsewhere, once its translation is held and fewer than 64 of its class are outstanding, is sent as a request,
marked an acquire or a release at its scope when OS is not 0; it counts in its class, and a load's register awaits it.

R257, R85: an ea that is not a multiple of the access size faults with 0x160, and a global ea with bits [63:56] not zero with 0x161; the
access is not made, and the sequencer stays at it.

R258, R271, R254: AMO and ACAS on an aligned global word, and SIGNAL on an aligned global 8-byte word, once the translation is held and fewer than 64
stores are outstanding, are sent to the word's home as store-class requests; AMO and ACAS are an acquire and a release when their scope is not
0, and s[D] awaits the old word; SIGNAL is a release that stores s[D], or adds it. -/
def Obligations.GlobalMemoryRequests : Prop :=
  ((∀ p ∈ ([(.ldb, 1), (.ldh, 2), (.ldw, 4), (.ldd, 8)] : List ((BitVec 5 → BitVec 5 → BitVec 3 → BitVec 12 → Instr) × Nat)),
    ∀ (d a : BitVec 5) (sc : BitVec 3) (o : BitVec 12) (s : State) (q : Nat) (sq : Seq) (ea : W64) (w : W) (ls : List Leaf) (ps : List Piece)
        (ts : List Nat), SeqTurn s q sq → sq.stalls [a] = false →
      ea = sq.reg a + o.signExtend 64 → inScratch ea = false → ea.toNat < 2 ^ 56 → ea.toNat % p.2 = 0 → sq.count .loads < 64 →
      (W.of s).placed (.seq q d.toNat) sq.part ea p.2 .read (.near (q / 40)) 0xE = (w, .ok (ls, ps, ts)) →
      exec (p.1 d a sc o) s = .next ((w.seqSent q .loads
        { seqReq q sq d.toNat ea p.2 ls ps ts with kind := .read, acq := decide (sc ≠ 0), scope := sc.toNat } (some d) id).commit s)) ∧
  (∀ p ∈ ([(.stb, 1), (.sth, 2), (.stw, 4), (.std, 8)] : List ((BitVec 5 → BitVec 5 → BitVec 3 → BitVec 12 → Instr) × Nat)),
    ∀ (d a : BitVec 5) (sc : BitVec 3) (o : BitVec 12) (s : State) (q : Nat) (sq : Seq) (ea : W64) (w : W) (ls : List Leaf) (ps : List Piece)
        (ts : List Nat), SeqTurn s q sq → sq.stalls [d, a] = false →
      ea = sq.reg a + o.signExtend 64 → inScratch ea = false → ea.toNat < 2 ^ 56 → ea.toNat % p.2 = 0 → sq.count .stores < 64 →
      (W.of s).placed (.seq q 0) sq.part ea p.2 .write (.near (q / 40)) 0xE = (w, .ok (ls, ps, ts)) →
      exec (p.1 d a sc o) s = .next ((w.seqSent q .stores
        { seqReq q sq 0 ea p.2 ls ps ts with
          kind := .write, data := (sq.reg d).zeroExtend 768, rel := decide (sc ≠ 0), scope := sc.toNat } none id).commit s))) ∧
  (∀ p ∈ ([(.ldb, 1, false), (.ldh, 2, false), (.ldw, 4, false), (.ldd, 8, false), (.stb, 1, true), (.sth, 2, true), (.stw, 4, true), (.std, 8, true)] :
      List ((BitVec 5 → BitVec 5 → BitVec 3 → BitVec 12 → Instr) × Nat × Bool)),
  ∀ (d a : BitVec 5) (sc : BitVec 3) (o : BitVec 12) (s : State) (q : Nat) (sq : Seq) (ea : W64), SeqTurn s q sq →
    sq.stalls (if p.2.2 then [d, a] else [a]) = false → ea = sq.reg a + o.signExtend 64 →
    (ea.toNat % p.2.1 ≠ 0 → exec (p.1 d a sc o) s = .next (s.seqRaised q 0x160 ea)) ∧
    (ea.toNat % p.2.1 = 0 → 2 ^ 56 ≤ ea.toNat → exec (p.1 d a sc o) s = .next (s.seqRaised q 0x161 ea))) ∧
  (∀ (d a b : BitVec 5) (sc : BitVec 3) (s : State) (q : Nat) (sq : Seq) (ea : W64) (w : W) (ls : List Leaf) (ps : List Piece) (ts : List Nat),
    SeqTurn s q sq → sq.count .stores < 64 → inScratch ea = false → ea.toNat < 2 ^ 56 →
    (∀ (z : BitVec 1) (f : BitVec 4) (n : Nat), n = (if z = 0 then 8 else 4) → ea = sq.reg a → ea.toNat % n = 0 →
      (W.of s).placed (.seq q d.toNat) sq.part ea n .atomic .home 0xE = (w, .ok (ls, ps, ts)) →
      (sq.stalls [a, b] = false → (∀ l ∈ ls, l.place ≠ 3) ∨ f = 0 ∨ f = 8 →
        exec (.amo d a b sc z f) s = .next ((w.seqSent q .stores
          { seqReq q sq d.toNat ea n ls ps ts with
            kind := .atomic (16 + f.toNat), data := (sq.reg b).zeroExtend 768
            acq := decide (sc ≠ 0), rel := decide (sc ≠ 0), scope := sc.toNat } (some d) id).commit s)) ∧
      (sq.stalls [d, a, b] = false → exec (.acas d a b sc z) s = .next ((w.seqSent q .stores
        { seqReq q sq d.toNat ea n ls ps ts with
          kind := .cas, data := (sq.reg d).zeroExtend 768, data2 := (sq.reg b).zeroExtend 768
          acq := decide (sc ≠ 0), rel := decide (sc ≠ 0), scope := sc.toNat } (some d) id).commit s))) ∧
    (∀ o : BitVec 11, sq.stalls [d, a] = false → ea = sq.reg a + BitVec.ofNat 64 (8 * o.toNat) → ea.toNat % 8 = 0 →
      ((W.of s).placed (.seq q 0) sq.part ea 8 .write (.near (q / 40)) 0xE = (w, .ok (ls, ps, ts)) →
        exec (.signal d a sc o 0) s = .next ((w.seqSent q .stores
          { seqReq q sq 0 ea 8 ls ps ts with
            kind := .write, data := (sq.reg d).zeroExtend 768, rel := true, scope := sc.toNat, answered := true } none id).commit s)) ∧
      ((W.of s).placed (.seq q 0) sq.part ea 8 .atomic .home 0xE = (w, .ok (ls, ps, ts)) →
        exec (.signal d a sc o 1) s = .next ((w.seqSent q .stores
          { seqReq q sq 0 ea 8 ls ps ts with
            kind := .atomic 16, data := (sq.reg d).zeroExtend 768, rel := true, scope := sc.toNat, answered := true } none id).commit s))))

/-- R261, R87, R88, R92: FENCE completes once the accesses that it orders have been performed: from then on they are before the agent's later accesses, an ACQ or AR
has obtained the reference of the release that the last load without an acquire has read, and a REL or AR stands before later requests, STARTs and INJs. Until then
nothing happens.

R262, R283: WAITC goes on at once when no class has more outstanding operations than its field, and is held by its instruction when one has;
WDONE, of a primary sequencer, likewise by the START runs outstanding (R273). Each acquires what the completed operations released, and takes the reference that came last with
them (R25, R92, R102); one that has been held goes on, with its pennant, once the counts allow it.

R263: with m = s[A], WANY and WALL fault with 0x165 when m is 0, go on when a tag of m, and when every tag of m, is set, and are held otherwise;
TFIRST does not wait; TCLR alone clears a tag, but not one that a completion sets on the same sequencer cycle, which comes after it. Returning a tag acquires what its
copy wrote; of the tags that a WALL returns the reference is that of the completion that came last (log 78).

R276: STEP writes a step-mark pennant of KIND 0x09, whose reference s[D] and LATEST receive, and then STEP_NO ← s[A], where no hoist walk is asked for
(R393); it is progress of its LAUNCH's queue (R360). R277: PNRD of a destination of 32 aligned bytes in scratch is sent, a load whose answer s[D] awaits; any other destination
faults with 0x165. -/
def Obligations.FencesWaitsAndTags : Prop :=
  (∀ (sc : BitVec 3) (k : BitVec 2) (s : State) (q : Nat) (sq : Seq) (me : Eye), SeqTurn s q sq → me = (W.of s).seqEye q →
    ((W.of s).loadsOrdered me sc.toNat = true → exec (.fence sc 1) s = .next ((((W.of s).fenced me 1 sc.toNat).commit s).issued q
      { sq with latest := newer sq.latest ((W.of s).heardRef me 1 sc.toNat) }.after)) ∧
    ((W.of s).loadsOrdered me sc.toNat = false → exec (.fence sc 1) s = .next s) ∧
    (k ≠ 1 → (W.of s).agentPerformed me sc.toNat = true →
      exec (.fence sc k) s = .next ((((W.of s).fenced me k.toNat sc.toNat).commit s).issued q
        { sq with
          latest := newer sq.latest ((W.of s).heardRef me k.toNat sc.toNat), fenced := tput sq.fenced sc.toNat sq.copySeq
          injScope := max sq.injScope sc.toNat, startScope := max sq.startScope sc.toNat }.after)) ∧
    (k ≠ 1 → (W.of s).agentPerformed me sc.toNat = false → exec (.fence sc k) s = .next s)) ∧
  (∀ (l st c t : BitVec 5) (s : State) (q : Nat) (sq : Seq) (fits runs : Bool), SeqTurn s q sq →
    fits = decide (sq.count .loads ≤ l.toNat ∧ sq.count .stores ≤ st.toNat ∧ sq.count .copies ≤ c.toNat ∧ sq.count .tiles ≤ t.toNat) →
    runs = sq.outs.any (fun o => o.cls == .tiles && o.reg == 0) →
    (sq.wait = none → fits = true → exec (.waitc l st c t) s = .next ((((W.of s).gainRet q false).commit s).issued q (sq.takeRet false).after)) ∧
    (sq.wait = none → fits = false → exec (.waitc l st c t) s = .next (s.held q sq { limits := [l.toNat, st.toNat, c.toNat, t.toNat] })) ∧
    (sq.wait = none → sq.rquad = 0 → runs = false → exec .wdone s = .next ((((W.of s).gainRet q true).commit s).issued q (sq.takeRet true).after)) ∧
    (sq.wait = none → sq.rquad = 0 → runs = true → exec .wdone s = .next (s.held q sq { runs := true })) ∧
    (sq.rquad ≠ 0 → exec .wdone s = .next (s.seqRaised q 0x164)) ∧
    ∀ x, sq.wait = some x → x.met sq = true →
      exec (.waitc l st c t) s = .next ((((((W.of s).gainRet q false).endWait q 0x01 x).setSeq q fun sq => sq.dropRet false).seqDone q id).commit s) ∧
      (sq.rquad = 0 → exec .wdone s = .next ((((((W.of s).gainRet q true).endWait q 0x04 x).setSeq q fun sq => sq.dropRet true).seqDone q id).commit s))) ∧
  (∀ (d a : BitVec 5) (s : State) (q : Nat) (sq : Seq) (m : W64) (got : W64 → State), SeqTurn s q sq → sq.stalls [a] = false → m = sq.reg a →
    (∀ n, got n = ((W.of s).gain ((W.of s).seqEye q) (sq.tagsCov n)).commit s) →
    (m = 0 → exec (.wany d a) s = .next (s.seqRaised q 0x165) ∧ exec (.wall d a) s = .next (s.seqRaised q 0x165) ∧
      exec (.tfirst d a) s = .next (s.issued q (sq.put d 64).after)) ∧
    exec (.tclr a) s = .next (s.issued q (sq.writeTags (s.clk.now / 4) (sq.tags &&& ~~~(1#64 <<< (m.toNat % 64)))).after) ∧
    (∀ (c : Nat) (v : W64), sq.tagsAt.1 ≠ c + 1 → (sq.writeTags c v).tags = v) ∧
    (∀ (c : Nat) (v : W64), sq.tagsAt.1 = c + 1 → ∀ k < 64, (sq.writeTags c v).tags.getLsbD k = (v.getLsbD k || sq.tagsAt.2.any fun x => x.1 == k)) ∧
    (∀ k < 64, (sq.tags &&& m).getLsbD k = true → (∀ j < k, (sq.tags &&& m).getLsbD j = false) →
      exec (.tfirst d a) s =
        .next ((got (1#64 <<< k)).issued q ({ sq with latest := newer sq.latest (sq.tagRef k) }.put d (BitVec.ofNat 64 k)).after) ∧
      (sq.wait = none → exec (.wany d a) s =
        .next ((got (1#64 <<< k)).issued q ({ sq with latest := newer sq.latest (sq.tagRef k) }.put d (BitVec.ofNat 64 k)).after)) ∧
      (sq.wait = none → sq.tags &&& m = m → exec (.wall d a) s =
        .next ((got m).issued q ({ sq with latest := newer sq.latest (sq.tagsRef m) }.put d m).after))) ∧
    (sq.wait = none → m ≠ 0 → sq.tags &&& m = 0 → exec (.wany d a) s = .next (s.held q sq { stage := 1, num := m })) ∧
    (sq.wait = none → m ≠ 0 → sq.tags &&& m ≠ m → exec (.wall d a) s = .next (s.held q sq { stage := 2, num := m }))) ∧
  (∀ (d a b : BitVec 5) (s : State) (q : Nat) (sq : Seq), SeqTurn s q sq → sq.stalls [a, b] = false →
    (∀ (g : Region) (p : Pennant) (w : W) (ref : W32), (s.bar (Bar.partCtl sq.part)).getLsbD 1 = false → tget s.m.regions sq.region = some g →
      p = ⟨(W.of s).seqAgent q, (W.of s).seqAgent q, sq.latest, s.ns, s.ns, s.ns, 0x09, sq.stepNo.toNat % 256⟩ →
      (W.of s).pennant q sq.part p = (w, ref) →
      exec (.step d a) s = .next (((w.setQueue g.queue fun u => u.rise s.ns).seqDone q fun sq' =>
        { { sq' with latest := ref }.put d (ref.zeroExtend 64) with stepNo := (sq.reg a).truncate 32 }).commit s)) ∧
    (∀ off, scratchSpan (sq.reg b) 32 32 = some off → sq.count .loads < 64 →
      exec (.pnrd d a b) s = .next (((W.of s).seqSent q .loads
        { die := q / 40, part := sq.part, src := .seq q d.toNat, kind := .pnrd, va := sq.reg a, place := off } (some d) id).commit s)) ∧
    (scratchSpan (sq.reg b) 32 32 = none → exec (.pnrd d a b) s = .next (s.seqRaised q 0x165)))

/-- R265: SLEEP of t = s[A] + sext(IMM15, 15) ≤ 0 is a NOP, and of t > 0 holds the sequencer; SLEEP_EXPIRY ends the hold once global time has
advanced by t since, and not before; the SLEEP then goes on with its pennant (R283). A pre-emption that sets PEND leaves the hold as it is. -/
def Obligations.Sleeping : Prop :=
  ∀ (a : BitVec 5) (i : BitVec 15) (s : State) (q : Nat) (sq : Seq) (t : W64), t = sq.reg a + i.signExtend 64 →
    (SeqTurn s q sq → sq.stalls [a] = false → sq.wait = none → t.toInt ≤ 0 → exec (.sleep a i) s = .next (s.issued q sq.after)) ∧
    (SeqTurn s q sq → sq.stalls [a] = false → sq.wait = none → 0 < t.toInt →
      exec (.sleep a i) s = .next (s.held q sq { stage := 3, num := t })) ∧
    (∀ x, tget s.m.seqs q = some sq → sq.wait = some x → x.stage = 3 → x.ready = false →
      (x.start + x.num.toNat ≤ s.ns → exec (.sleepExpiry q) s =
        .next { s with m := { s.m with seqs := tput s.m.seqs q { sq with wait := some { x with ready := true, arr := s.ns } } } }) ∧
      (s.ns < x.start + x.num.toNat → exec (.sleepExpiry q) s = .next s)) ∧
    (∀ x, SeqTurn s q sq → sq.stalls [a] = false → sq.wait = some x → x.ready = true →
      exec (.sleep a i) s = .next (((((W.of s).seqPennant q 0x08 ((W.of s).seqAgent q) sq.latest x.start x.arr).1).seqDone q id).commit s)) ∧
    ∀ r t', tget s.m.seqs q = some sq → exec (.drainPreempt r) s = .next t' → tget t'.m.seqs q = none ∨ ∃ sq', tget t'.m.seqs q = some sq' ∧ sq'.wait = sq.wait

/-- R264: MWAIT on an aligned global word sends its read, an acquire at its scope, and is held; once a read has satisfied it, s[D] receives the word, and
when that was the first read no pennant is written. On a scratch address it faults with 0x165. -/
def Obligations.MemoryWait : Prop :=
  ∀ (d a : BitVec 5) (sc : BitVec 3) (o : BitVec 12) (s : State) (q : Nat) (sq : Seq) (ea : W64), SeqTurn s q sq → sq.stalls [d, a] = false →
    ea = sq.reg a + o.signExtend 64 →
    (sq.wait = none → inScratch ea = true → exec (.mwait d a sc o) s = .next (s.seqRaised q 0x165 ea)) ∧
    (∀ w ls ps ts, sq.wait = none → inScratch ea = false → ea.toNat < 2 ^ 56 → ea.toNat % 8 = 0 →
      (W.of s).placed (.seq q 0) sq.part ea 8 .read (.near (q / 40)) 0xE = (w, .ok (ls, ps, ts)) →
      exec (.mwait d a sc o) s = .next ((((w.issue { seqReq q sq 0 ea 8 ls ps ts with kind := .read, acq := true, scope := sc.toNat, watch := true }).1).seqHold q
        { req := some (w.m.nextId + 1), num := sq.reg d }).commit s)) ∧
    (∀ x, sq.wait = some x → x.ready = true → x.reads = 0 →
      exec (.mwait d a sc o) s = .next (s.issued q ({ sq with latest := newer sq.latest x.ref }.put d x.num).after))

/-- R279, R285: CSRR returns a CSR's value; CSRW writes s[A] to it, CSRS its OR with s[A], and both return the old value. What they write: SQ_FLAGS[6:0];
HE and PWOOB of SQ_STATUS; SQ_EPC and SQ_HVEC, 12 bits; SQ_TAGS; READY in the handler; SQ_STAMPB[55:9]; a CSR that is not writable keeps its value. Flags that arrive on the
same sequencer cycle come after a write of SQ_FLAGS (R62), and tags likewise (R263).

R285: the value that each CSR of a sequencer reads as.

R280, R281: TRAP n enters the handler when HE = 1 and INH = 0 (SQ_EPC ← PC + 1, SQ_CAUSE ← 0x3E0 + n, INH ← 1, PC ← SQ_HVEC) and is fatal otherwise; YIELD
enters it for a pending pre-emption, whose PEND it clears, with EVENT = 1 and CODE = 1, and does nothing else; ERET sets PC ← SQ_EPC and INH ← 0, and faults
with 0x166 outside the handler. The status bits are PEND, INH, HE, PWOOB from bit 3 down.

R282: HALT stops the sequencer once no load, store or copy is outstanding, and waits before; NOP does nothing; TIME gives global time in ns. -/
def Obligations.HandlerAndControlRegisters : Prop :=
  (∀ (d a : BitVec 5) (c : BitVec 15) (s : State) (q : Nat) (sq : Seq), SeqTurn s q sq →
    exec (.csrr d c) s = .next (s.issued q (sq.put d ((W.of s).csrRead q c.toNat)).after) ∧
    (sq.stalls [a] = false →
      ∀ p ∈ ([
          (1, fun sq v => { sq with status := sq.status.extractLsb' 2 2 ++ v.extractLsb' 0 2 }), (3, fun sq v => { sq with epc := v.truncate 12 }),
          (4, fun sq v => { sq with hvec := v.truncate 12 }), (5, fun sq v => sq.writeTags (s.clk.now / 4) v),
          (7, fun sq v => if sq.inh && v.getLsbD 0 then { sq with ready := true } else sq),
          (8, fun sq v => { sq with stampb := (v.extractLsb' 9 47).zeroExtend 64 <<< 9 }), (2, fun sq _ => sq), (6, fun sq _ => sq), (0x10, fun sq _ => sq),
          (0x11, fun sq _ => sq), (0x12, fun sq _ => sq), (0x13, fun sq _ => sq), (0x20, fun sq _ => sq), (0x21, fun sq _ => sq), (0x22, fun sq _ => sq),
          (0x30, fun sq _ => sq), (0x31, fun sq _ => sq)] : List (BitVec 15 × (Seq → W64 → Seq))),
      exec (.csrw d a p.1) s = .next (s.issued q ((p.2 sq (sq.reg a)).put d ((W.of s).csrRead q p.1.toNat)).after) ∧
      exec (.csrs d a p.1) s =
        .next (s.issued q ((p.2 sq ((W.of s).csrRead q p.1.toNat ||| sq.reg a)).put d ((W.of s).csrRead q p.1.toNat)).after)) ∧
    (sq.stalls [a] = false → ∀ late : Flags, late = (if (s.part sq.part).flagsAt.1 = s.clk.now / 4 + 1 then (s.part sq.part).flagsAt.2 else 0) →
      (∃ t, exec (.csrw d a 0) s = .next t ∧ (t.part sq.part).flags = (sq.reg a).truncate 7 ||| late ∧ t.mem = s.mem ∧
        (∀ n, n ≠ sq.part → t.part n = s.part n) ∧ t.seq q = { (sq.put d ((s.part sq.part).flags.zeroExtend 64)).after with nextAt := s.nextIssue }) ∧
      ∃ t, exec (.csrs d a 0) s = .next t ∧ (t.part sq.part).flags = ((s.part sq.part).flags ||| (sq.reg a).truncate 7) ||| late ∧ t.mem = s.mem ∧
        (∀ n, n ≠ sq.part → t.part n = s.part n) ∧ t.seq q = { (sq.put d ((s.part sq.part).flags.zeroExtend 64)).after with nextAt := s.nextIssue }) ∧
    (sq.stalls [a] = false → (∃ t, exec (.csrw d a c) s = .next t) ∧ ∃ t, exec (.csrs d a c) s = .next t)) ∧
  (∀ (s : State) (q : Nat) (sq : Seq), tget s.m.seqs q = some sq →
    (W.of s).csrRead q 0x000 = (s.part sq.part).flags.zeroExtend 64 ∧ (W.of s).csrRead q 0x001 = sq.status.zeroExtend 64 ∧
    (W.of s).csrRead q 0x002 = sq.cause ∧ (W.of s).csrRead q 0x003 = sq.epc.zeroExtend 64 ∧ (W.of s).csrRead q 0x004 = sq.hvec.zeroExtend 64 ∧
    (W.of s).csrRead q 0x005 = sq.tags ∧ (W.of s).csrRead q 0x008 = sq.stampb ∧ (W.of s).csrRead q 0x013 = sq.stepNo.zeroExtend 64 ∧
    ((∀ c, sq.count c ≤ 64) → (W.of s).csrRead q 0x006 = BitVec.ofNat 64
      (sq.count .loads + 2 ^ 8 * sq.count .stores + 2 ^ 16 * sq.count .copies + 2 ^ 24 * sq.count .tiles)) ∧
    (W.of s).csrRead q 0x007 = 0 ∧
    (W.of s).csrRead q 0x010 = BitVec.ofNat 64 ((s.region sq.region).granted % 2 ^ 40 + 2 ^ 40 * ((s.region sq.region).solveNo % 2 ^ 8) +
      2 ^ 63 * (s.region sq.region).lower.toNat) ∧
    (∀ r, r = tgetD s.m.rings q {} → (W.of s).csrRead q 0x011 = BitVec.ofNat 64 (sq.latest.toNat + 2 ^ 32 * (r.next % 2 ^ 8) + 2 ^ 40 * (r.wrap % 2 ^ 3))) ∧
    (W.of s).csrRead q 0x031 = BitVec.ofNat 64 ((W.of s).seqAgent q % 2 ^ 32 + 2 ^ 32 * (sq.rquad % 2 ^ 6) + 2 ^ 38 * (if sq.rquad = 0 then 1 else 0)) ∧
    (W.of s).csrRead q 0x012 = (s.region sq.region).ccbEsc ∧ (W.of s).csrRead q 0x030 = 0x00040101 ∧
    (W.of s).csrRead q 0x020 = s.bar (Bar.lreq (q / 40)) ∧ (W.of s).csrRead q 0x021 = s.bar (Bar.rreqo (q / 40)) ∧
    (W.of s).csrRead q 0x022 = s.bar (Bar.rreqi (q / 40))) ∧
  (∀ (n : BitVec 20) (s : State) (q : Nat) (sq : Seq), SeqTurn s q sq →
    (sq.he = true → sq.inh = false →
      exec (.trap n) s = .next (s.issued q { sq with
        epc := (sq.pc + 1).truncate 12, cause := BitVec.ofNat 64 (0x3E0 + n.toNat), status := sq.status ||| 4, pc := sq.hvec.zeroExtend 64, wait := none })) ∧
    (sq.he = false ∨ sq.inh = true → exec (.trap n) s = .next (s.seqRaised q (0x3E0 + n.toNat))) ∧
    (sq.pend = true → sq.he = true → sq.inh = false →
      exec .yield s = .next (s.issued q { sq with
        epc := (sq.pc + 1).truncate 12, cause := 2 ^ 63 + 1, status := sq.status &&& 3 ||| 4, pc := sq.hvec.zeroExtend 64, wait := none })) ∧
    (sq.pend = false ∨ sq.he = false ∨ sq.inh = true → exec .yield s = .next (s.issued q sq.after)) ∧
    (sq.inh = true →
      exec .eret s = .next (s.issued q { sq with pc := sq.epc.zeroExtend 64, status := sq.status &&& 0xB, wait := none })) ∧
    (sq.inh = false → exec .eret s = .next (s.seqRaised q 0x166))) ∧
  (∀ (d : BitVec 5) (s : State) (q : Nat) (sq : Seq), SeqTurn s q sq →
    (sq.count .loads = 0 → sq.count .stores = 0 → sq.count .copies = 0 →
      exec .halt s = .next (s.issued q { sq with halted := true }.after)) ∧
    (sq.count .loads ≠ 0 ∨ sq.count .stores ≠ 0 ∨ sq.count .copies ≠ 0 → exec .halt s = .next s) ∧
    exec .nop s = .next (s.issued q sq.after) ∧
    exec (.time d) s = .next (s.issued q (sq.put d (BitVec.ofNat 64 s.ns)).after))

/-- R273, R274, R88: START, of a primary sequencer, sends a pulse on h0 once the accesses that it releases are performed, and RECONF asks the loader for a
section once those before it are performed at PKG scope; each is one of at most 64 tile operations. Of any other sequencer each faults with 0x164.

R275: RATE sets the declared rate and triggers a solve; a rate of 0 or of 2^40 and more faults with 0x165. GRAISE of a count below 2^32 asks the range
server and is held; a larger one faults with 0x2E0; the answer goes to s[D], with a pennant of KIND 0x07.

R278: INJ appends the 64 bytes at an aligned scratch address as a token, with its null, head and tail marks and its empty lanes, to the queue of a memory
cell that has a QPOP and no QPUSH, if the queue is not full, the accesses that an acquire before it orders are performed (R87), and no sequencer of a higher agent id has had its turn at the
queue on this sequencer cycle; until then it waits. A fence before it makes it a release. A cell or address that does not qualify faults with 0x164.

R278: TAKE removes the head of the queue of a memory cell that has a QPUSH and no QPOP: its 64 bytes go to scratch, its status word (empty lanes, null, head,
tail and release marks from bit 0 up) to s[D], and a release mark is acquired; while the queue is empty the sequencer is held, and a wait ends with a pennant of KIND 0x05
(R283). On one sequencer cycle sequencers take their turns at a queue in ascending agent id. A cell or address that does not qualify faults with 0x164. -/
def Obligations.FabricControl : Prop :=
  (∀ (i : BitVec 15) (s : State) (q : Nat) (sq : Seq) (n : Nat), SeqTurn s q sq → n = s.m.nextId + 1 →
    (sq.rquad ≠ 0 → exec .start s = .next (s.seqRaised q 0x164) ∧ exec (.reconf i) s = .next (s.seqRaised q 0x164)) ∧
    (sq.rquad = 0 → sq.count .tiles < 64 → (W.of s).agentPerformed ((W.of s).seqEye q) (max 2 sq.startScope) = true →
      exec .start s = .next (((((W.of s).fresh.1.pulse sq.region 0 sq.latest ((W.of s).seqAgent q)
        ((W.of s).releases ((W.of s).seqEye q) (max 2 sq.startScope))).setRegion sq.region fun g =>
        { g with rootDone := false }).seqDone q fun sq => { sq.add n .tiles 0 with startScope := 0 }).commit s)) ∧
    (sq.rquad = 0 → sq.count .tiles < 64 → (W.of s).agentPerformed ((W.of s).seqEye q) 4 = true →
      exec (.reconf i) s = .next ((((W.of s).fresh.1.askSection sq.region { sec := i.toNat, who := q, out := n, agent := (W.of s).seqAgent q, ref := sq.latest }).seqDone q fun sq => sq.add n .tiles (i.toNat + 1)).commit s))) ∧
  (∀ (d a : BitVec 5) (s : State) (q : Nat) (sq : Seq) (v : Nat), SeqTurn s q sq → sq.stalls [a] = false → v = (sq.reg a).toNat →
    (sq.rquad = 0 → 0 < v → v < 2 ^ 40 → ∃ t, exec (.rate a) s = .next t ∧ t.seq q = { sq.after with nextAt := s.nextIssue } ∧ t.mem = s.mem ∧
      (∀ g, tget s.m.regions sq.region = some g → t.region sq.region = { g with rate := v, trigger := true }) ∧
      ∀ r, r ≠ sq.region → t.region r = s.region r) ∧
    (sq.rquad = 0 → v = 0 ∨ 2 ^ 40 ≤ v → exec (.rate a) s = .next (s.seqRaised q 0x165)) ∧
    (sq.rquad ≠ 0 → exec (.rate a) s = .next (s.seqRaised q 0x164)) ∧
    (sq.wait = none → 2 ^ 32 ≤ v → exec (.graise d a) s = .next (s.seqRaised q 0x2E0)) ∧
    (sq.wait = none → v < 2 ^ 32 → ∃ t, exec (.graise d a) s = .next t ∧ t.seq q = { sq with wait := some { stage := 4, start := s.ns }, nextAt := s.nextIssue } ∧
      ∀ g, tget s.m.regions sq.region = some g → (t.region sq.region).range.asks = g.range.asks ++
        [{ raise := true, bySeq := true, who := q, n := v, ref := sq.latest, step := sq.stepNo.toNat % 256 }]) ∧
    (∀ x, sq.wait = some x → x.ready = true →
      exec (.graise d a) s = .next ((((W.of s).endWait q 0x07 x).seqDone q fun sq => sq.put d x.num).commit s))) ∧
  (∀ (a b : BitVec 5) (n h t : BitVec 1) (s : State) (q : Nat) (sq : Seq), SeqTurn s q sq → sq.stalls [a, b] = false →
    (∀ off cell, scratchSpan (sq.reg a) 64 64 = some off → queueCell (s.region sq.region) (sq.reg b) 0x8A 0x89 = some cell →
      (s.cell sq.region cell).queue.length < (s.cell sq.region cell).qcap → (W.of s).mayNow ((W.of s).seqAgent q) [] = true →
      (s.cell sq.region cell).seqTurn (s.clk.now / 4) ((W.of s).seqAgent q) = true →
      exec (.inj a b n h t) s = .next ((((((W.of s).queuePush sq.region cell {
        data := BitVec.ofNat 512 (leNat (memBytes sq.scratch off 64)), empty := (sq.reg b).extractLsb' 16 16
        null := decide (n = 1), head := decide (h = 1), tail := decide (t = 1)
        rel := if 2 ≤ sq.injScope then
          some { scope := sq.injScope, agent := (W.of s).seqAgent q, ref := sq.latest, reg := sq.region + 1, step := sq.stepNo.toNat % 256
                 who := (W.of s).seqAgent q + 1, cov := (W.of s).releases ((W.of s).seqEye q) sq.injScope }
          else none }).wakeAt sq.region cell).seqTook sq.region cell ((W.of s).seqAgent q)).seqDone q fun sq => { sq with injScope := 0 }).commit s)) ∧
    (∀ off cell, scratchSpan (sq.reg a) 64 64 = some off → queueCell (s.region sq.region) (sq.reg b) 0x8A 0x89 = some cell →
      (s.cell sq.region cell).qcap ≤ (s.cell sq.region cell).queue.length ∨ (W.of s).mayNow ((W.of s).seqAgent q) [] = false ∨
        (s.cell sq.region cell).seqTurn (s.clk.now / 4) ((W.of s).seqAgent q) = false → exec (.inj a b n h t) s = .next s) ∧
    (scratchSpan (sq.reg a) 64 64 = none ∨ queueCell (s.region sq.region) (sq.reg b) 0x8A 0x89 = none →
      exec (.inj a b n h t) s = .next (s.seqRaised q 0x164))) ∧
  (∀ (d a b : BitVec 5) (s : State) (q : Nat) (sq : Seq), SeqTurn s q sq → sq.stalls [a, b] = false →
    (scratchSpan (sq.reg a) 64 64 = none ∨ queueCell (s.region sq.region) (sq.reg b) 0x89 0x8A = none → exec (.take d a b) s = .next (s.seqRaised q 0x164)) ∧
    ∀ off cell, scratchSpan (sq.reg a) 64 64 = some off → queueCell (s.region sq.region) (sq.reg b) 0x89 0x8A = some cell →
    ((s.cell sq.region cell).queue = [] → sq.wait = none → exec (.take d a b) s = .next (s.held q sq { stage := 5 })) ∧
    ∀ k ks, (s.cell sq.region cell).queue = k :: ks →
      (s.clk.now ≤ k.landed → sq.wait = none → exec (.take d a b) s = .next (s.held q sq { stage := 5 })) ∧
      (k.landed < s.clk.now → (s.cell sq.region cell).seqTurn (s.clk.now / 4) ((W.of s).seqAgent q) = false → exec (.take d a b) s = .next s) ∧
      ∀ (taken w : W) (carried : W32) (status : W64), k.landed < s.clk.now → (s.cell sq.region cell).seqTurn (s.clk.now / 4) ((W.of s).seqAgent q) = true →
        w = ((W.of s).queuePop sq.region cell).seqTook sq.region cell ((W.of s).seqAgent q) →
        taken = (match k.rel with | some r => w.gainRel (w.seqEye q) r | none => w) → carried = (match k.rel with | some r => r.ref | none => 0) →
        status = BitVec.ofNat 64 (k.empty.toNat + 2 ^ 16 * k.null.toNat + 2 ^ 17 * k.head.toNat + 2 ^ 18 * k.tail.toNat + 2 ^ 19 * k.rel.isSome.toNat) →
        (sq.wait = none → exec (.take d a b) s = .next ((taken.seqDone q fun sq =>
          ({ sq with latest := newer sq.latest carried }.scratchPut off (leBytes 64 k.data.toNat)).put d status).commit s)) ∧
        ∀ x, sq.wait = some x → exec (.take d a b) s = .next (((taken.seqPennant q 0x05
          ((W.of s).elemAgent ⟨sq.region, cell, ((s.region sq.region).slotWith cell 0x89).getD 0⟩)
          (if k.rel.isSome then carried else (s.cell sq.region cell).latest) x.start k.landedNs).1.seqDone q fun sq =>
            (sq.scratchPut off (leBytes 64 k.data.toNat)).put d status).commit s))

/-- R266, R267, R268, R254: COPY of 1 to 2^40 bytes between operands that lie in the global space or in a bank of the region, and COPYX of a descriptor in scratch that
R268 and R405 allow, queue their request at their engine with the tag, its stamp address, the copy's number in its stream and the fence before it; each counts as a
copy. While an acquire before it is not performed a COPY waits (R83, R87); one of another length faults with 0x165, an operand outside its space with 0x161.

R269, R124: COLL of a descriptor in scratch whose control word R124 and R405 allow, with operands that span their blocks, queues the collective with COUNT, SIG, SIGVAL and the control word, its tag and
its number in the stream; it counts as a copy. The descriptor's layout is the model's (log 25). -/
def Obligations.EngineRequests : Prop :=
  (∀ (d a b : BitVec 5) (tag : BitVec 6) (ord : BitVec 1) (s : State) (q : Nat) (sq : Seq) (c : Copy), SeqTurn s q sq → sq.stalls [d, a, b] = false →
    c = { id := s.m.nextId + 1, part := sq.part, agent := (W.of s).seqAgent q, src := .seq q 0, region := sq.region, step := sq.stepNo.toNat % 256,
          tag := tag.toNat, stamp := if sq.stampb = 0 then 0 else sq.stampb + 8 * tag.zeroExtend 64, num := sq.copySeq + 1, ord := decide (ord = 1),
          fence := sq.fenced, ref := sq.latest, sent := s.clk.now } →
    ((sq.reg b).toNat = 0 ∨ 2 ^ 40 < (sq.reg b).toNat → exec (.copy d a b tag ord) s = .next (s.seqRaised q 0x165)) ∧
    ((sq.reg b).toNat ≠ 0 → (sq.reg b).toNat ≤ 2 ^ 40 →
      operandOk (s.region sq.region) (sq.reg a) (sq.reg b).toNat = false ∨ operandOk (s.region sq.region) (sq.reg d) (sq.reg b).toNat = false →
      exec (.copy d a b tag ord) s = .next (s.seqRaised q 0x161)) ∧
    ((sq.reg b).toNat ≠ 0 → (sq.reg b).toNat ≤ 2 ^ 40 → operandOk (s.region sq.region) (sq.reg a) (sq.reg b).toNat = true →
      operandOk (s.region sq.region) (sq.reg d) (sq.reg b).toNat = true → sq.count .copies < 64 →
      ((W.of s).mayNow ((W.of s).seqAgent q) [] = false → exec (.copy d a b tag ord) s = .next s) ∧
      ((W.of s).mayNow ((W.of s).seqAgent q) [] = true → exec (.copy d a b tag ord) s = .next (s.copySent q sq
        { c with eng := 8 * (q / 40) + (q % 8 + 7) % 8, dst := sq.reg d, from' := sq.reg a, len := (sq.reg b).toNat }))) ∧
    ∀ off v, scratchSpan (sq.reg b) 32 32 = some off → v = leNat (memBytes sq.scratch off 32) →
      copyxOk (s.region sq.region) (sq.reg d) (sq.reg a) v = true →
      operandOk (s.region sq.region) (sq.reg a) (copyxSpan v (descField v 24 4)) = true →
      operandOk (s.region sq.region) (sq.reg d) (copyxSpan v (descField v 28 4)) = true → sq.count .copies < 64 →
      (W.of s).mayNow ((W.of s).seqAgent q) [] = true →
      exec (.copyx d a b tag ord) s = .next (s.copySent q sq
        { c with
          eng := 32 + q % 16, dst := sq.reg d, from' := sq.reg a, len := descField v 0 8, redop := descField v 8 1, fmt := descField v 9 1
          landen := decide (descField v 10 1 % 2 = 1), lcell := descField v 12 4 % 2 ^ 14, lslot := descField v 12 4 / 2 ^ 16 % 8
          rows := max (descField v 16 4) 1, sstr := descField v 24 4, dstr := descField v 28 4 })) ∧
  (∀ (d a b : BitVec 5) (tag : BitVec 6) (ord : BitVec 1) (s : State) (q : Nat) (sq : Seq) (off v : Nat), SeqTurn s q sq → sq.stalls [d, a, b] = false →
    scratchSpan (sq.reg b) 32 32 = some off → v = leNat (memBytes sq.scratch off 32) →
    collCtlOk (BitVec.ofNat 64 (descField v 24 8)) = true → descField v 8 8 % 8 = 0 →
    operandOk (s.region sq.region) (sq.reg d) (collSpan (BitVec.ofNat 64 (descField v 24 8)) (descField v 0 8) 1).1 = true →
    operandOk (s.region sq.region) (sq.reg a) (collSpan (BitVec.ofNat 64 (descField v 24 8)) (descField v 0 8) 1).2 = true → sq.count .copies < 64 →
    (W.of s).mayNow ((W.of s).seqAgent q) [] = true →
    ∃ t, exec (.coll d a b tag ord) s = .next t ∧
      t.seq q = { sq.add (s.m.nextId + 1) .copies tag.toNat with copySeq := sq.copySeq + 1, nextAt := s.nextIssue }.after ∧ t.mem = s.mem ∧ t.m.regions = s.m.regions ∧
      t.m.hub.colls = s.m.hub.colls ++ [{
        id := s.m.nextId + 1, part := sq.part, agent := (W.of s).seqAgent q, src := .seq q 0, region := sq.region, step := sq.stepNo.toNat % 256
        send := sq.reg d, recv := sq.reg a, count := descField v 0 8, sig := BitVec.ofNat 64 (descField v 8 8)
        sigval := BitVec.ofNat 64 (descField v 16 8), ctl := BitVec.ofNat 64 (descField v 24 8), tag := tag.toNat
        stamp := if sq.stampb = 0 then 0 else sq.stampb + 8 * tag.zeroExtend 64, num := sq.copySeq + 1, ord := decide (ord = 1), fence := sq.fenced
        ref := sq.latest, sent := s.clk.now }])

/-- R121, R270, R284: QAPP, once the slot's page is translated, claims the next index of the queue's ring by an atomic add on WR_INDEX, in one step, and is held; it reads RD_INDEX
as an acquire, waits while the ring is full, and once the slot of its index is free it writes the packet's bytes 8 to 63 there, sends its first 8 bytes as a release, and gives
the index to s[D], with a pennant of KIND 0x06 if the ring had been full (R283).

R272: HPOST of n records of 64 aligned bytes of scratch to a ring of an aligned global address asks the hub to append them, and is held; once the hub has taken them
s[D] receives its answer, and nothing else changes when the ring was not full. Records outside scratch fault with 0x165. -/
def Obligations.QueueAndRingAppends : Prop :=
  (∀ (d a b : BitVec 5) (s : State) (q : Nat) (sq : Seq) (off : Nat) (w : W) (home key place scope slots : Nat) (e : Eye) (slotAt : Nat → W64),
    SeqTurn s q sq → sq.stalls [a, b] = false → e = (W.of s).seqEye q →
    scratchSpan (sq.reg b) 64 64 = some off → leNat (memBytes sq.scratch off 1) ≠ 0 → inScratch (sq.reg a) = false → (sq.reg a).toNat < 2 ^ 56 →
    (sq.reg a).toNat % 8 = 0 → (W.of s).seqKey q (sq.reg a) 32 .atomic .home = (w, .ok (home, place)) → scope = (if 3 ≤ place then 5 else 4) →
    key = nearKey q home place → slots = leNat (w.viewBytes e (key + 24) 4) →
    (∀ n, slotAt n = BitVec.ofNat 64 (leNat (w.viewBytes e (key + 16) 8)) + BitVec.ofNat 64 (64 * (n % max slots 1))) →
    (∀ w1 p, sq.wait = none → sq.count .stores < 64 → w.seqOpen q [home] = true →
      w.seqKey q (slotAt (leNat (w.bytes home 8))) 64 .write (.near (q / 40)) = (w1, .ok p) →
      exec (.qapp d a b) s = .next (((((w1.learn e 0 0 (w1.sources e true { key := home, len := 8 })).seqCount q home).applyBytes e {} home
        (leBytes 8 (leNat (w.bytes home 8) + 1))).seqHold q { stage := 6, num := BitVec.ofNat 64 (leNat (w.bytes home 8)) }).commit s)) ∧
    ∀ (x : SeqWait) (w1 w2 : W) (slot p rd : Nat) (got : Option (Rel × Nat × Nat)), sq.wait = some x → w.seqOpen q [] = true →
      w.seesAll e (w.owed e scope (w.sources e false { key := key + 8, len := 8 })) = true →
      w.seqKey q (slotAt x.num.toNat) 64 .write (.near (q / 40)) = (w1, .ok (slot, p)) → w1.readRd q key scope = (w2, rd, got) →
      (rd + slots ≤ x.num.toNat → exec (.qapp d a b) s = .next ((w2.setSeq q fun sq =>
        { sq with wait := some { x with ready := true, start := if x.ready then x.start else s.ns }, nextAt := s.nextIssue }).commit s)) ∧
      ∀ (w3 w4 w5 : W) (carried : W32) (ls : List Leaf) (ps : List Piece) (ts : List Nat), x.num.toNat < rd + slots → w2.seqOpen q [slot] = true →
        w3 = (w2.seqCount q slot).applyBytes e {} (slot + 8) (memBytes sq.scratch (off + 8) 56) → carried = (match got with | some r => r.1.ref | none => 0) →
        w4 = (if x.ready then
            (w3.seqPennant q 0x06 (w3.cpAgent ((w3.queueAt sq.part (sq.reg a)).getD 0)) carried x.start (match got with | some r => r.2.1 | none => s.ns)).1
          else w3.setSeq q fun sq => { sq with latest := newer sq.latest carried }) →
        w4.placed (.seq q 0) (w4.seq q).part (slotAt x.num.toNat) 8 .write (.near (q / 40)) 0xE = (w5, .ok (ls, ps, ts)) →
        exec (.qapp d a b) s = .next (((w5.issue { seqReq q (w4.seq q) 0 (slotAt x.num.toNat) 8 ls ps ts with
          kind := .write, data := BitVec.ofNat 768 (leNat (memBytes sq.scratch off 8)), mask := 0xFF, rel := true, scope := scope }).1.seqDone q fun sq =>
            (sq.add (w5.m.nextId + 1) .stores 0).put d x.num).commit s)) ∧
  (∀ (d a b : BitVec 5) (n : BitVec 10) (s : State) (q : Nat) (sq : Seq), SeqTurn s q sq → sq.stalls [a, b] = false →
    (∀ off, sq.wait = none → scratchSpan (sq.reg b) 64 (64 * n.toNat) = some off → inScratch (sq.reg a) = false → (sq.reg a).toNat < 2 ^ 56 →
      (sq.reg a).toNat % 64 = 0 → ∃ t, exec (.hpost d a b n) s = .next t ∧ t.seq q = { sq with wait := some { stage := 7, start := s.ns }, nextAt := s.nextIssue } ∧
        t.mem = s.mem ∧ t.m.hub.appends = s.m.hub.appends ++ [{
          id := s.m.nextId + 1, part := sq.part, ring := sq.reg a, recs := memBytes sq.scratch off (64 * n.toNat), src := .seq q 0, start := s.ns
          step := sq.stepNo.toNat % 256, waited := s.m.hub.appends.any fun y => y.waits sq.part (sq.reg a) }]) ∧
    (∀ x, sq.wait = some x → x.ready = true → x.reads = 0 → exec (.hpost d a b n) s = .next (s.issued q (sq.put d x.num).after)) ∧
    (sq.wait = none → scratchSpan (sq.reg b) 64 (64 * n.toNat) = none → exec (.hpost d a b n) s = .next (s.seqRaised q 0x165)))

/-! ## Elements and switches (02_execution_model.md, 10 to 12) -/

/-- R17, R18, R19, R155, R156: what a firing that sends leaves, when no token of it is sampled for tracing (R396) and no memory cell acquires a mark: the
positions that gave real tokens are empty, the output stage holds one more result for both targets, due lat edges after this one, and later by the latency of what a
re-solve put in behind it (R36), with the flags and the LFSR as computed; memory, time, sequencers, partitions and every other region are as before, and so is every other element of the region.

R155, R22, R47: each packed element of a lane-wise result: zero and of an empty lane where a lane of an operand is empty, and otherwise op of the
operands' elements of its index, with the LFSR's low bits after as many steps as elements have been passed; the flags are those of the full elements.

R21, R156: a null at a position that it uses makes a compute element consume its inputs and send a null to each target, at its latency, and nothing else: no
arithmetic, no flag, no change of an LFSR. -/
def Obligations.Firings : Prop :=
  (∀ (s : State) (e : ERef) (x : Elem) (u : Uses) (i : Ins) (lat : Nat) (r : Token × Flags × W32) (g : Region), Fires s e x u i →
    tget s.m.regions e.r = some g → (∀ t ∈ i.toks, t.log = none) → i.rel = none → (g.sink ≠ e.key ∨ i.lT = false) →
    (s.sends e i lat r).clk = s.clk ∧ (s.sends e i lat r).mem = s.mem ∧ (s.sends e i lat r).m.seqs = s.m.seqs ∧
    (s.sends e i lat r).m.parts = s.m.parts ∧ (s.sends e i lat r).m.hub = s.m.hub ∧ (s.sends e i lat r).m.bus = s.m.bus ∧
    (∀ j, j ≠ e.r → tget (s.sends e i lat r).m.regions j = tget s.m.regions j) ∧
    ∃ x', tget (s.sends e i lat r).m.regions e.r = some { g with elems := tput g.elems e.key x' } ∧
      x' = { x with
        inL := if i.lT then none else x.inL, inR := if i.rT then none else x.inR, inP := if i.pT then none else x.inP
        nextG := s.clk.now + 1, heldAt := [], lastSeen := x.lastSeen || (x.done && i.last), turn := (x.turn + 1) % max x.copies.length 1, lfsr := r.2.2
        flights := x.flights ++
          [{ due := (W.of s).edgeOf g e.cell + lat + x.pass, a := some (i.mark r.1), b := some (i.mark r.1), flags := r.2.1 }] }) ∧
  (∀ (w : Nat) (sr : Bool) (lfsr : W32) (ts : List Token) (op : ElemOp) (i : Nat) (z : W32), w ∈ [4, 8, 16, 32] → i < 16 * (32 / w) →
    z = (if sr then lfsrStep^[i + 1] lfsr else lfsr) →
    ((laneWise w sr lfsr ts op).1.empty.getLsbD (i / (32 / w)) = ts.any fun t => t.emptyAt (i / (32 / w))) ∧
    (ts.any (fun t => t.emptyAt (i / (32 / w))) = true → elemAt w (laneWise w sr lfsr ts op).1.data i = 0) ∧
    (ts.any (fun t => t.emptyAt (i / (32 / w))) = false →
      elemAt w (laneWise w sr lfsr ts op).1.data i = (op (ts.map fun t => elemAt w t.data i) (z.toNat % 2 ^ 16)).1 % 2 ^ w ∧
      (laneWise w sr lfsr ts op).2.1 ||| (op (ts.map fun t => elemAt w t.data i) (z.toNat % 2 ^ 16)).2 = (laneWise w sr lfsr ts op).2.1) ∧
    (laneWise w sr lfsr ts op).2.2 = if sr then lfsrStep^[16 * (32 / w)] lfsr else lfsr) ∧
  (∀ p ∈ ([
      (.pass, {}, 1), (.vcAdd, { r := true }, 1), (.vcSub, { r := true }, 1), (.adds, { r := true }, 1), (.subs, { r := true }, 1), (.vcMul, { r := true }, 1),
      (.mad, { r := true, p := true }, 1), (.abs, {}, 1), (.sel, { r := true, p := true }, 1), (.narrow, {}, 1), (.fadd, { r := true }, 3),
      (.fma, { r := true, p := true }, 3), (.rcp, {}, 4), (.fcvt, {}, 3), (.qnt, { r := true }, 3), (.amax, {}, 2), (.lshup, {}, 1), (.lperm, { r := true }, 1),
      (.lradd, {}, 2), (.lscan, {}, 2), (.lmask, { r := true }, 1), (.pwl, {}, 2), (.rred, {}, 2), (.rcomb, { r := true, p := true }, 3),
      (.nullif, { p := true }, 1), (.drop, { p := true }, 1), (.steer, { p := true }, 1), (.gate, { p := true }, 1), (.join, { r := true }, 1),
      (.idx, {}, 1), (.last, {}, 1), (.bnd, { r := true }, 1)] : List ((EFields → Instr) × Uses × Nat)),
  ∀ (f : EFields) (s : State) (e : ERef) (x : Elem) (i : Ins), Fires s e x p.2.1 i → i.anyNull = true →
    exec (p.1 f) s = .next (s.fired e i fun w => w.flyBoth e p.2.2 i.nullOut 0))

/-- R159 to R162, R164: the integer instructions, one island cycle: each element of the result is the row's function of the elements a, b, c of width w, and
only ADDS and SUBS raise a flag, SAT. -/
def Obligations.VectorInteger : Prop :=
  ∀ p ∈ ([
      (.pass, {}, fun _ _ a _ _ => (a, 0)),
      (.vcAdd, { r := true }, fun _ w a b _ => (wrapInt w (a + b), 0)), (.vcSub, { r := true }, fun _ w a b _ => (wrapInt w (a - b), 0)),
      (.adds, { r := true }, fun f w a b _ => satInt f.fmt.toNat w (intVal f.fmt.toNat w a + intVal f.fmt.toNat w b)),
      (.subs, { r := true }, fun f w a b _ => satInt f.fmt.toNat w (intVal f.fmt.toNat w a - intVal f.fmt.toNat w b)),
      (.vcMul, { r := true }, fun f w a b _ => (wrapInt w (intVal f.fmt.toNat w a * intVal f.fmt.toNat w b), 0)),
      (.vcMulh, { r := true }, fun f w a b _ => (wrapInt w (intVal f.fmt.toNat w a * intVal f.fmt.toNat w b / 2 ^ w), 0)),
      (.mad, { r := true, p := true }, fun f w a b c =>
        (wrapInt w (intVal f.fmt.toNat w a * intVal f.fmt.toNat w b + intVal f.fmt.toNat w c), 0)),
      (.vcMin, { r := true }, fun f w a b _ => (if intVal f.fmt.toNat w b < intVal f.fmt.toNat w a then b else a, 0)),
      (.vcMax, { r := true }, fun f w a b _ => (if intVal f.fmt.toNat w a < intVal f.fmt.toNat w b then b else a, 0)),
      (.abs, {}, fun f w a _ _ => (wrapInt w (|intVal f.fmt.toNat w a|), 0)),
      (.vcAnd, { r := true }, fun _ _ a b _ => (a &&& b, 0)), (.vcOr, { r := true }, fun _ _ a b _ => (a ||| b, 0)),
      (.vcXor, { r := true }, fun _ _ a b _ => (a ^^^ b, 0)), (.andn, { r := true }, fun _ w a b _ => (a &&& (b ^^^ (2 ^ w - 1)), 0)),
      (.vcShl, { r := true }, fun _ w a b _ => (if w ≤ b then 0 else a * 2 ^ b, 0)),
      (.vcShr, { r := true }, fun _ w a b _ => (if w ≤ b then 0 else a / 2 ^ b, 0)),
      (.vcSar, { r := true }, fun _ w a b _ => (wrapInt w (sextNat w a / 2 ^ min b w), 0)),
      (.rol, { r := true }, fun _ w a b _ => (a * 2 ^ (b % w) ||| a / 2 ^ (w - b % w), 0)),
      (.clz, {}, fun _ w a _ _ => (if a = 0 then w else w - 1 - Nat.log2 a, 0)),
      (.popc, {}, fun _ w a _ _ => (((List.range w).filter fun i => a.testBit i).length, 0)),
      (.cmp, { r := true }, fun f w a b _ => (if cmpInt f.mod.toNat w a b then 1 else 0, 0)),
      (.sel, { r := true, p := true }, fun _ _ a b c => (if c ≠ 0 then a else b, 0)),
      (.clamp, { r := true, p := true }, fun f w a b c => (minVal f.fmt.toNat w (maxVal f.fmt.toNat w a b) c, 0)),
      (.bfx, { r := true }, fun f w a b _ => (if min b (w - f.imm.toNat) = 0 then 0 else
        wrapInt w (intVal f.fmt.toNat (min b (w - f.imm.toNat)) (a / 2 ^ f.imm.toNat % 2 ^ min b (w - f.imm.toNat))), 0)),
      (.bfi, { r := true, p := true }, fun f w a b c => (bfi w f.imm.toNat a b c, 0))] :
        List ((EFields → Instr) × Uses × (EFields → Nat → Nat → Nat → Nat → Nat × Flags))),
  ∀ (f : EFields) (s : State) (e : ERef) (x : Elem) (i : Ins), Fires s e x p.2.1 i → i.anyNull = false →
    exec (p.1 f) s = .next (s.sends e i 1 (laneWise (fmtWidth f.fmt.toNat) false x.lfsr (x.operands p.2.1 i)
      fun l _ => p.2.2 f (fmtWidth f.fmt.toNat) (l.getD 0 0) (l.getD 1 0) (l.getD 2 0)))

/-- R165 to R173, R192: the floating-point instructions and RCOMB, lane by lane, at their latencies (R19): the operation of the row in the format and under the
mode of the word; under SR (mode 5) a rounded one draws from the LFSR. -/
def Obligations.VectorFloat : Prop :=
  ∀ p ∈ ([
      (.fadd, { r := true }, 3, true, fun f l r => faddF (Fmt.ofCode f.fmt.toNat) f.mod.toNat r false (l.getD 0 0) (l.getD 1 0)),
      (.fsub, { r := true }, 3, true, fun f l r => faddF (Fmt.ofCode f.fmt.toNat) f.mod.toNat r true (l.getD 0 0) (l.getD 1 0)),
      (.fmul, { r := true }, 3, true, fun f l r => fmulF (Fmt.ofCode f.fmt.toNat) f.mod.toNat r (l.getD 0 0) (l.getD 1 0)),
      (.fma, { r := true, p := true }, 3, true, fun f l r =>
        fmaF (Fmt.ofCode f.fmt.toNat) f.mod.toNat r false false (l.getD 0 0) (l.getD 1 0) (l.getD 2 0)),
      (.fms, { r := true, p := true }, 3, true, fun f l r =>
        fmaF (Fmt.ofCode f.fmt.toNat) f.mod.toNat r false true (l.getD 0 0) (l.getD 1 0) (l.getD 2 0)),
      (.fnma, { r := true, p := true }, 3, true, fun f l r =>
        fmaF (Fmt.ofCode f.fmt.toNat) f.mod.toNat r true false (l.getD 0 0) (l.getD 1 0) (l.getD 2 0)),
      (.fmin, { r := true }, 1, false, fun f l _ => fminmax (Fmt.ofCode f.fmt.toNat) false (l.getD 0 0) (l.getD 1 0)),
      (.fmax, { r := true }, 1, false, fun f l _ => fminmax (Fmt.ofCode f.fmt.toNat) true (l.getD 0 0) (l.getD 1 0)),
      (.fabs, {}, 1, false, fun f l _ => signOp (Fmt.ofCode f.fmt.toNat) (l.getD 0 0) fun a =>
        a % 2 ^ ((Fmt.ofCode f.fmt.toNat).eb + (Fmt.ofCode f.fmt.toNat).mb)),
      (.fneg, {}, 1, false, fun f l _ => signOp (Fmt.ofCode f.fmt.toNat) (l.getD 0 0) fun a =>
        a ^^^ 2 ^ ((Fmt.ofCode f.fmt.toNat).eb + (Fmt.ofCode f.fmt.toNat).mb)),
      (.fcmp, { r := true }, 1, false, fun f l _ => fcmp (Fmt.ofCode f.fmt.toNat) f.mod.toNat (l.getD 0 0) (l.getD 1 0)),
      (.fclass, {}, 1, false, fun f l _ => (fclass (Fmt.ofCode f.fmt.toNat) (l.getD 0 0), 0)),
      (.rcp, {}, 4, true, fun f l r => rcp f.fmt.toNat f.mod.toNat r (l.getD 0 0)),
      (.rsq, {}, 4, true, fun f l r => rsq f.fmt.toNat f.mod.toNat r (l.getD 0 0)),
      (.fscale, { r := true }, 3, true, fun f l r => fscale (Fmt.ofCode f.fmt.toNat) f.mod.toNat r (l.getD 0 0) (l.getD 1 0)),
      (.frint, {}, 3, true, fun f l r => frint (Fmt.ofCode f.fmt.toNat) f.mod.toNat r (l.getD 0 0)),
      (.rcomb, { r := true, p := true }, 3, true, fun f l r =>
        rcomb f.fmt.toNat (f.imm.toNat % 2) f.mod.toNat r (l.getD 0 0) (l.getD 1 0) (l.getD 2 0))] :
        List ((EFields → Instr) × Uses × Nat × Bool × (EFields → List Nat → Nat → Nat × Flags))),
  ∀ (f : EFields) (s : State) (e : ERef) (x : Elem) (i : Ins), Fires s e x p.2.1 i → i.anyNull = false →
    exec (p.1 f) s = .next (s.sends e i p.2.2.1
      (laneWise (fmtWidth f.fmt.toNat) (p.2.2.2.1 && f.mod.toNat == 5) x.lfsr (x.operands p.2.1 i) (p.2.2.2.2 f)))

/-- R163, R178 to R180, R182: the conversions and quantisations, lane by lane, at their latencies: source elements of the format in IMM8[3:0], the part of
IMM8[7:4] where the source is wider than a lane's share, destination elements of FMT; QNT and DQNT scale by the F32 in lane 0 of R, and an empty one empties
every lane.

R18, R77, R78, R176, R181, R182: QNT4, and DQNT of a Q4 row, over the bursts at L. The last token of a whole burst makes them send their results on successive
edges, a head mark on the first and a tail mark on the last, and leaves no burst open, when the output stage holds no other result for one of those edges: QNT4
two tokens from 8/n (n elements in a lane of the source), DQNT.Q4 8/n from two. A token that opens a burst, or that continues it, is kept. DQNT uses R with the
first token of a row alone, and a null makes a null one edge later, also inside a burst (both the model's choices, logs 84 and 21).

R183: AMAX sends, two island cycles later, the largest magnitude of the full elements in every element, the canonical NaN if one of them is a NaN; no full
lane, or an empty lane under FORWARD, empties the result; NV is raised for a signalling NaN. -/
def Obligations.VectorConversions : Prop :=
  ((∀ p ∈ ([
      (.narrow, 1, false, false, fun f l _ =>
        satInt f.fmt.toNat (fmtWidth f.fmt.toNat) (intVal f.lo4 (fmtWidth f.lo4) (l.getD 0 0))),
      (.widen, 1, false, true, fun f l _ =>
        satInt f.fmt.toNat (fmtWidth f.fmt.toNat) (intVal f.lo4 (fmtWidth f.lo4) (l.getD 0 0))),
      (.fcvt, 3, true, true, fun f l r => fcvt (Fmt.ofCode f.lo4) (Fmt.ofCode f.fmt.toNat) f.mod.toNat r (l.getD 0 0)),
      (.ftoi, 3, true, true, fun f l r => ftoi (Fmt.ofCode f.lo4) f.fmt.toNat (fmtWidth f.fmt.toNat) f.mod.toNat r (l.getD 0 0)),
      (.itof, 3, true, true, fun f l r =>
        roundTo (Fmt.ofCode f.fmt.toNat) f.mod.toNat r (Ex.ofInt (intVal f.lo4 (fmtWidth f.lo4) (l.getD 0 0))))] :
        List ((EFields → Instr) × Nat × Bool × Bool × (EFields → List Nat → Nat → Nat × Flags))),
    ∀ (f : EFields) (s : State) (e : ERef) (x : Elem) (i : Ins), Fires s e x {} i → i.anyNull = false →
      exec (p.1 f) s = .next (s.sends e i p.2.1 (laneConvert (fmtWidth f.lo4) (fmtWidth f.fmt.toNat) (if p.2.2.2.1 then f.hi4 else 0)
        (p.2.2.1 && f.mod.toNat == 5) x.lfsr (i.l.policy x.empty x.k) (i.l.policy x.empty x.k).emptyAt (p.2.2.2.2 f)))) ∧
  ∀ (f : EFields) (s : State) (e : ERef) (x : Elem) (i : Ins) (l : Token) (sc : Option W32), Fires s e x { r := true } i → i.anyNull = false →
    l = i.l.policy x.empty x.k →
    sc = (if (i.r.policy x.empty x.k).emptyAt 0 then none else some ((i.r.policy x.empty x.k).lane 0)) →
    exec (.qnt f) s = .next (s.sends e i 3 (laneConvert (fmtWidth f.lo4) (fmtWidth f.fmt.toNat) 0 (f.mod == 5) x.lfsr l
      (fun j => sc.isNone || l.emptyAt j) fun a r => qnt f.lo4 f.fmt.toNat f.mod.toNat r (sc.getD 0) (a.getD 0 0))) ∧
    (f.lo4 ≠ 5 → exec (.dqnt f) s = .next (s.sends e i 3 (laneConvert (fmtWidth f.lo4) (fmtWidth f.fmt.toNat) f.hi4 (f.mod == 5) x.lfsr l
      (fun j => sc.isNone || l.emptyAt j) fun a r => dqnt f.fmt.toNat f.mod.toNat r
        (if f.lo4 = 8 then .num (Ex.ofInt (sextNat 8 (a.getD 0 0))) else Fv.ofCode (Fmt.ofCode f.lo4) (a.getD 0 0)) ⟨false, 1, 1⟩ (sc.getD 0))))) ∧
  (∀ (f : EFields) (s : State) (e : ERef) (x : Elem) (i : Ins) (g : Region) (m : Nat) (useR : Bool) (op : EFields → Instr) (k lat now : Nat) (ts : List Token),
    Fires s e x { r := useR && !x.opened } i → tget s.m.regions e.r = some g →
    ((op = .qnt4 ∧ useR = false ∧ m = 8 / perLane f.lo4 ∧ k = 2 ∧ lat = 4) ∨
      (op = .dqnt ∧ f.lo4 = 5 ∧ useR = true ∧ m = 2 ∧ k = 8 / perLane f.fmt.toNat ∧ lat = 3)) →
    now = (W.of s).edgeOf g e.cell + x.pass → ts = (if useR then x.buf.drop 1 else x.buf) →
    (i.anyNull = false → x.opened = true → ts.length + 1 = m → i.l.head = false → i.l.tail = true → x.unreserved (now + lat) k = true →
      ∃ t, exec (op f) s = .next t ∧
      ∃ out : List Token, out.length = k ∧ (∀ j < k, (out.getD j {}).head = decide (j = 0) ∧ (out.getD j {}).tail = decide (j + 1 = k)) ∧
        (t.elem e).flights.map (fun y => (y.due, y.a, y.b)) = x.flights.map (fun y => (y.due, y.a, y.b)) ++
          (List.range k).map (fun j => (now + lat + j, some (out.getD j {}), some (out.getD j {}))) ∧
        (t.elem e).opened = false ∧ (t.elem e).buf = []) ∧
    (i.anyNull = false → x.opened = false → i.l.head = true → i.l.tail = false → 1 < m → ∃ t, exec (op f) s = .next t ∧ (t.elem e).opened = true ∧
      (t.elem e).buf = (if useR then [i.r] else []) ++ [i.l] ∧ (t.elem e).flights = x.flights) ∧
    (i.anyNull = false → x.opened = true → ts.length + 1 < m → i.l.head = false → i.l.tail = false → ∃ t, exec (op f) s = .next t ∧
      (t.elem e).opened = true ∧ (t.elem e).buf = (if useR then [x.buf.headD {}] else []) ++ ts ++ [i.l] ∧ (t.elem e).flights = x.flights) ∧
    (i.anyNull = true → x.unreserved (now + 1) 1 = true →
      exec (op f) s = .next (s.fired e i fun w => w.flyBoth e 1 i.nullOut 0)) ∧
    (i.anyNull = false → i.l.head = x.opened → exec (op f) s = .next (s.fired e i fun w => w.raiseElem e 0x201 0 (some i.l)))) ∧
  (∀ (f : EFields) (s : State) (e : ERef) (x : Elem) (i : Ins) (t : Token) (fm : Fmt) (n v : Nat) (els : List Nat) (gone : Bool), Fires s e x {} i →
    i.anyNull = false → t = i.l.policy x.empty x.k → fm = Fmt.ofCode f.fmt.toNat → n = perLane f.fmt.toNat →
    els = (((List.range 16).filter fun l => !t.emptyAt l).flatMap fun l => (List.range n).map fun j => elemAt (32 / n) t.data (l * n + j)) →
    gone = decide (t.empty = 0xFFFF ∨ (x.empty = 0 ∧ t.empty ≠ 0)) →
    v = (if gone then 0 else if els.any (fun c => (Fv.ofCode fm c).isNan) then fm.nan
      else els.foldl (fun m c => if Fv.lt (Fv.ofCode fm m) (Fv.ofCode fm c).abs then c % 2 ^ (fm.eb + fm.mb) else m) 0) →
    exec (.amax f) s = .next (s.fired e i fun w => w.flyBoth e 2
      (i.mark { data := BitVec.ofNat 512 (packElems (32 / n) (List.replicate (16 * n) v)), empty := if gone then 0xFFFF else 0 })
      (Flags.when (els.any (fun c => (Fv.ofCode fm c).isSig) && !gone) Flags.nv)))

/-- R184, R187: the lane movers and LMASK, one island cycle, no flag: lane l of the result is a lane of L with its empty bit, or the constant word, as the rule
says; LMASK keeps the lanes that R selects. The empty policy fills lanes first, but for LMASK.

R185, R186, R22: the reductions and LSCAN, two island cycles: the result of R185's tree of pairs in every element, and R186's doubling steps; under
FORWARD an empty lane empties what depends on it, and under ABSORB a lane left out counts as 0 in a sum and does not take part in LRMAX and LRMIN.

R188: LPACK appends the low g elements of each full lane of L to its buffer and, on a token without a tail, sends the buffer's first N elements as one full
token, with the head mark when it is the first since a tail or the configuration, once it holds N; the rest stays. A null passes and leaves the buffer. A token with a
tail flushes: the buffer is empty after it, and the next token sent has the head mark. It fires when its output stage holds no other result for the edges on
which what it sends would land (R18). -/
def Obligations.LaneInstructions : Prop :=
  ((∀ p ∈ ([
      (.lshup, {}, fun f k l _ j => if j < f.imm.toNat then some k else l.laneOpt (j - f.imm.toNat)),
      (.lshdn, {}, fun f k l _ j => if 15 - f.imm.toNat < j then some k else l.laneOpt (j + f.imm.toNat)),
      (.lbcst, {}, fun f _ l _ _ => l.laneOpt (f.imm.toNat % 16)),
      (.lperm, { r := true }, fun f k l r j => match r.laneOpt j with
        | none => none
        | some v => if v % 32 < 16 then l.laneOpt (v % 32) else if f.imm = 0 then none else some k)] :
        List ((EFields → Instr) × Uses × (EFields → Nat → Token → Token → Nat → Option Nat))),
    ∀ (f : EFields) (s : State) (e : ERef) (x : Elem) (i : Ins), Fires s e x p.2.1 i → i.anyNull = false →
      exec (p.1 f) s = .next (s.fired e i fun w => w.flyBoth e 1
        (i.mark (laneToken (p.2.2 f x.k.toNat (i.l.policy x.empty x.k) (i.r.policy x.empty x.k)))) 0)) ∧
  ∀ (f : EFields) (s : State) (e : ERef) (x : Elem) (i : Ins) (sel : Nat → Bool), Fires s e x { r := true } i → i.anyNull = false →
    sel = (fun l => (!i.r.emptyAt l && i.r.lane l != 0) != f.imm.getLsbD 0) →
    exec (.lmask f) s = .next (s.fired e i fun w => w.flyBoth e 1 (i.mark (laneToken fun l =>
      if sel l = false then none else if f.imm.getLsbD 1 then some ((i.l.laneOpt l).getD 0) else i.l.laneOpt l)) 0)) ∧
  (∀ (f : EFields) (s : State) (e : ERef) (x : Elem) (i : Ins) (t : Token) (w' : Nat) (gone : Bool), Fires s e x {} i → i.anyNull = false →
    t = i.l.policy x.empty x.k → w' = fmtWidth f.fmt.toNat → gone = (t.empty == 0xFFFF || (x.empty == 0 && t.empty != 0)) →
    (∀ p ∈ ([(.lradd, true, sumStep f), (.lrmax, false, pickStep f true), (.lrmin, false, pickStep f false)] :
        List ((EFields → Instr) × Bool × (Nat → Nat → Nat × Flags))),
      ∀ r, r = treeFold p.2.2 (Nat.log2 (16 * (32 / w'))) ((t.elems w').map fun o => if p.2.1 then some (o.getD 0) else o) →
        exec (p.1 f) s = .next (s.fired e i fun w => w.flyBoth e 2
          (i.mark (if gone then { empty := 0xFFFF }
            else { data := BitVec.ofNat 512 (packElems w' (List.replicate (16 * (32 / w')) ((r.1.headD none).getD 0))) }))
          (if gone then 0 else r.2))) ∧
    ∀ (hole : Nat → Bool) (r : List Nat × Flags),
      hole = (fun l => if x.empty = 0 then (List.range (l + 1)).any t.emptyAt else (List.range (l + 1)).all t.emptyAt) →
      r = scanSteps (sumStep f) (fun j => !hole (j / (32 / w'))) (Nat.log2 (16 * (32 / w'))) 1 ((t.elems w').map (·.getD 0)) →
      exec (.lscan f) s = .next (s.fired e i fun w => w.flyBoth e 2
        (i.mark (laneToken ({ data := BitVec.ofNat 512 (packElems w' r.1), empty := mask16 hole } : Token).laneOpt)) r.2)) ∧
  (∀ (f : EFields) (s : State) (e : ERef) (x : Elem) (i : Ins) (t : Token) (w' n : Nat) (all : List Nat), Fires s e x {} i →
    t = i.l.policy x.empty x.k → w' = fmtWidth f.fmt.toNat → n = 32 / w' →
    all = x.pack ++ ((List.range 16).flatMap fun l =>
      if t.emptyAt l then [] else (List.range (min f.imm.toNat n)).map fun j => elemAt w' t.data (l * n + j)) →
    x.unreserved ((W.of s).edgeOf (s.region e.r) e.cell + 1 + x.pass) (if i.l.null then 1 else (x.lpack f i.l).1.length) = true →
    (i.l.null = true → exec (.lpack f) s = .next (s.fired e i fun w => w.flyBoth e 1 i.nullOut 0)) ∧
    (i.l.null = false → i.l.tail = false → all.length < 16 * n → ∃ t', exec (.lpack f) s = .next t' ∧ (t'.elem e).pack = all ∧
      (t'.elem e).flights = x.flights ∧ (t'.elem e).headDue = x.headDue) ∧
    (i.l.null = false → i.l.tail = false → 16 * n ≤ all.length → ∃ t' y o, exec (.lpack f) s = .next t' ∧ (t'.elem e).pack = all.drop (16 * n) ∧
      (t'.elem e).flights = x.flights ++ [y] ∧ y.a = some o ∧ y.b = some o ∧ o.data = BitVec.ofNat 512 (packElems w' (all.take (16 * n))) ∧
      o.head = x.headDue ∧ o.tail = false ∧ (t'.elem e).headDue = false) ∧
    (i.l.null = false → i.l.tail = true → ∃ t', exec (.lpack f) s = .next t' ∧ (t'.elem e).pack = [] ∧ (t'.elem e).headDue = true ∧
      x.flights.length < (t'.elem e).flights.length))

/-- R189 to R191: PWL, two island cycles: slope and intercept of the table entry that the element selects, lane by lane; RRED, two island cycles: the reduced
argument to TGTA and the integer to TGTB, without a flag.

R193: NULLIF, DROP and STEER read a whole-token predicate: lane 0 of P is not zero; an empty lane 0 reads as zero. R194, R195, R198: NULLIF sends a null or L,
DROP nothing or L, STEER the data one way and a null with its release mark the other, GATE the L token; one island cycle.

R22, R194: COUNT counts data tokens, or their full lanes under the empty policy, modulo 2^32, and on a tail sends the count in lane 0 with head and tail marks and clears it; a null
passes. R196: MERGE sends the one data token of its two, with its own head and tail marks, a null for two nulls, and raises 0x250 for two data tokens.
R200: JOIN takes its low lanes from L and the others from R's low lanes. -/
def Obligations.FunctionsAndTokens : Prop :=
  (∀ (f : EFields) (s : State) (e : ERef) (x : Elem) (i : Ins) (t : Token) (w' : Nat), Fires s e x {} i → i.anyNull = false →
    t = i.l.policy x.empty x.k → w' = fmtWidth f.fmt.toNat →
    exec (.pwl f) s = .next (s.sends e i 2 (laneWise w' (f.mod == 5) x.lfsr [t]
      fun l r => pwl f x.k ((W.of s).pwlEntry e (f.imm.toNat % 2)) (l.getD 0 0) r)) ∧
    exec (.rred f) s = .next (s.fired e i fun w =>
      (w.setElem e fun x' => { x' with lfsr := (laneWise w' (f.mod == 5) x.lfsr [t] fun l _ =>
        ((rred f.fmt.toNat (f.imm.toNat % 2) (l.getD 0 0)).1, 0)).2.2 }).fly e 2
        (some (i.mark (laneWise w' (f.mod == 5) x.lfsr [t] fun l _ => ((rred f.fmt.toNat (f.imm.toNat % 2) (l.getD 0 0)).1, 0)).1))
        (some (i.mark (laneWise w' false x.lfsr [t] fun l _ => ((rred f.fmt.toNat (f.imm.toNat % 2) (l.getD 0 0)).2, 0)).1)) 0)) ∧
  (∀ (f : EFields) (s : State) (e : ERef) (x : Elem) (i : Ins) (p : Bool), Fires s e x { p := true } i → i.anyNull = false →
    p = decide (i.p.emptyAt 0 = false ∧ i.p.lane 0 ≠ 0) →
    (p ≠ f.imm.getLsbD 0 → exec (.nullif f) s = .next (s.fired e i fun w => w.flyBoth e 1 i.nullOut 0) ∧
      exec (.drop f) s = .next (s.fired e i fun w => i.toks.foldl (fun w t => w.trace e (hopOf w e.key t) true) w)) ∧
    (p = f.imm.getLsbD 0 → exec (.nullif f) s = .next (s.fired e i fun w => w.flyBoth e 1 (i.mark i.l) 0) ∧
      exec (.drop f) s = .next (s.fired e i fun w => w.flyBoth e 1 (i.mark i.l) 0)) ∧
    (p = true → exec (.steer f) s = .next (s.fired e i fun w =>
      w.fly e 1 (some (i.mark i.l)) (some { null := true, rel := i.rel, last := i.last }) 0)) ∧
    (p = false → exec (.steer f) s = .next (s.fired e i fun w =>
      w.fly e 1 (some { null := true, rel := i.rel, last := i.last }) (some (i.mark i.l)) 0)) ∧
    exec (.gate f) s = .next (s.fired e i fun w => w.flyBoth e 1 (i.mark i.l) 0)) ∧
  ((∀ (f : EFields) (s : State) (e : ERef) (x : Elem) (i : Ins) (c : W32), Fires s e x {} i →
    c = x.count + BitVec.ofNat 32 (if f.imm.getLsbD 0 then ((List.range 16).filter fun l => !(i.l.policy x.empty x.k).emptyAt l).length else 1) →
    (i.l.null = true → exec (.count f) s = .next (s.fired e i fun w => w.flyBoth e 1 i.nullOut 0)) ∧
    (i.l.null = false → i.l.tail = false → ∃ t, exec (.count f) s = .next t ∧ (t.elem e).count = c ∧ (t.elem e).flights = x.flights) ∧
    (i.l.null = false → i.l.tail = true → ∃ t y o, exec (.count f) s = .next t ∧ (t.elem e).count = 0 ∧ (t.elem e).flights = x.flights ++ [y] ∧
      y.a = some o ∧ y.b = some o ∧ o.data = c.zeroExtend 512 ∧ o.empty = 0 ∧ o.null = false ∧ o.head = true ∧ o.tail = true)) ∧
  (∀ (f : EFields) (s : State) (e : ERef) (x : Elem) (i : Ins), Fires s e x { r := true } i →
    (i.l.null = false → i.r.null = false → exec (.merge f) s = .next (s.fired e i fun w => w.raiseElem e 0x250 0 (some i.l))) ∧
    (i.l.null = true → i.r.null = true → exec (.merge f) s = .next (s.fired e i fun w => w.flyBoth e 1 i.nullOut 0)) ∧
    (i.l.null = false → i.r.null = true → exec (.merge f) s =
      .next (s.fired e i fun w => w.flyBoth e 1 { i.l with rel := i.rel, last := i.last, log := i.log } 0)) ∧
    (i.l.null = true → i.r.null = false → exec (.merge f) s =
      .next (s.fired e i fun w => w.flyBoth e 1 { i.r with rel := i.rel, last := i.last, log := i.log } 0)) ∧
    (i.anyNull = false → exec (.join f) s = .next (s.fired e i fun w => w.flyBoth e 1
      (i.mark (laneToken fun l => if l < f.lo4 then i.l.laneOpt l else i.r.laneOpt (l - f.lo4))) 0))))

/-- R33, R197, R199: CARRY takes L on its first firing after an arming and R on every other; SPLIT sends a units to TGTA and then b to TGTB, OMERGE takes a units from L
and then b from R; each token goes on unchanged, one island cycle later, and the position in the pattern moves at the end of a unit (a token with neither
mark, or a burst). -/
def Obligations.OrderedSwitches : Prop :=
  ∀ (f : EFields) (s : State) (e : ERef) (x : Elem) (i : Ins) (t : Token) (n : Nat × Bool),
    (n = if t.null then (if x.opened then (x.count.toNat, true) else ((x.count.toNat + 1) % (f.lo4 + f.hi4), false))
      else if t.tail then ((x.count.toNat + 1) % (f.lo4 + f.hi4), false) else if t.head || x.opened then (x.count.toNat, true)
      else ((x.count.toNat + 1) % (f.lo4 + f.hi4), false)) →
    (t = i.l → x.armed = true → Fires s e x {} i →
      exec (.carry f) s = .next (s.fired e i fun w => (w.setElem e fun x => { x with armed := false }).flyBoth e 1 t 0)) ∧
    (t = i.r → x.armed = false → Fires s e x { l := false, r := true } i →
      exec (.carry f) s = .next (s.fired e i fun w => (w.setElem e fun x => { x with armed := false }).flyBoth e 1 t 0)) ∧
    (t = i.l → Fires s e x {} i → x.count.toNat < f.lo4 → exec (.split f) s = .next (s.fired e i fun w =>
      (w.setElem e fun x => { x with count := BitVec.ofNat 32 n.1, opened := n.2 }).fly e 1 (some t) none 0)) ∧
    (t = i.l → Fires s e x {} i → f.lo4 ≤ x.count.toNat → exec (.split f) s = .next (s.fired e i fun w =>
      (w.setElem e fun x => { x with count := BitVec.ofNat 32 n.1, opened := n.2 }).fly e 1 none (some t) 0)) ∧
    (t = i.l → Fires s e x {} i → x.count.toNat < f.lo4 → exec (.omerge f) s = .next (s.fired e i fun w =>
      (w.setElem e fun x => { x with count := BitVec.ofNat 32 n.1, opened := n.2 }).flyBoth e 1 t 0)) ∧
    (t = i.r → Fires s e x { l := false, r := true } i → f.lo4 ≤ x.count.toNat → exec (.omerge f) s = .next (s.fired e i fun w =>
      (w.setElem e fun x => { x with count := BitVec.ofNat 32 n.1, opened := n.2 }).flyBoth e 1 t 0))

/-! ## Memory cells (13_memory_and_address_cells.md, 04_memory_spaces.md) -/

/-- R225 to R229, R231, R235, R237, R243: the global loads of a memory cell. LD sends a read of the sector that its address names (a Q4 row: 96 bytes, two result
tokens with a head and a tail mark), RLD one of the four copies of a REPLICA sector or of a communicator's, SIGLD one of an aligned word, an acquire with a threshold
in lane 0 of R that holds the cell's later accesses; each awaits its results in issue order. PREF sends no token. A null or an empty address lane sends a null.

R229, R225: a global access of a cell at a misaligned address is refused with 0x122, one above the address space or in the scratch window with 0x123, and one
whose placement its instruction does not allow with 0x124: the tokens are consumed, and nothing is sent. -/
def Obligations.CellLoads : Prop :=
  (∀ (f : EFields) (s : State) (e : ERef) (x : Elem) (i : Ins) (a : W64) (w : W) (ls : List Leaf) (ps : List Piece) (ts : List Nat) (sec : W64) (die : Nat),
    sec = BitVec.ofNat 64 (a.toNat / 64 * 64) → die = (s.region e.r).die →
    (CellFires s e x {} false i → i.l.va = none →
      exec (.ld f) s = .next (s.fired e i fun w => w.flyBoth e 1 i.nullOut 0) ∧ exec (.rld f) s = .next (s.fired e i fun w => w.flyBoth e 1 i.nullOut 0)) ∧
    (CellFires s e x {} false i → i.l.va = some a → f.fmt ≠ 5 → CellPlaced s e sec 64 1 .read (.near die) w ls ps ts →
      exec (.ld f) s = .next (s.cellSent e i sec w ls ps ts
        (fun _ => { kind := .read, size := 64, acq := decide (f.mod.toNat % 8 ≠ 0), scope := f.mod.toNat % 8, fmt := f.fmt.toNat })
        fun id w => w.awaitResult e id (i.mark {}))) ∧
    (CellFires s e x {} false i → i.l.va = some a → f.fmt = 5 → CellPlaced s e a 96 32 .read (.near die) w ls ps ts →
      exec (.ld f) s = .next (s.cellSent e i a w ls ps ts
        (fun _ => { kind := .read, size := 96, acq := decide (f.mod.toNat % 8 ≠ 0), scope := f.mod.toNat % 8, fmt := 5 })
        fun id w => (w.awaitResult e id { i.markOnly {} with head := true, tail := false, last := false }).awaitResult e id
          { i.markOnly {} with head := false, tail := true })) ∧
    (CellFires s e x {} false i → i.l.va = some a → f.imm.toNat < 8 → CellPlaced s e sec 64 1 .read .dies w ls ps ts → (∀ l ∈ ls, l.place = 2) →
      exec (.rld f) s = .next (s.cellSent e i sec w ls ps ts
        (fun _ => { kind := .rld f.imm.toNat 0, acq := decide (f.mod.toNat % 8 ≠ 0), scope := f.mod.toNat % 8, fmt := f.fmt.toNat })
        fun id w => w.awaitResult e id (i.mark {}))) ∧
    (CellFires s e x {} false i → i.l.va = some a → 8 ≤ f.imm.toNat → CellPlaced s e sec 64 1 .read .home w ls ps ts →
      exec (.rld f) s = .next (s.cellSent e i sec w ls ps ts
        (fun _ => { kind := .rld (f.imm.toNat % 8) (f.imm.toNat / 8), acq := decide (f.mod.toNat % 8 ≠ 0), scope := f.mod.toNat % 8, fmt := f.fmt.toNat
                    comm := f.imm.toNat / 8 })
        fun id w => w.awaitResult e id (i.mark {}))) ∧
    (CellFires s e x { r := true } false i → i.l.va = some a → i.r.null = false → CellPlaced s e a 8 8 .read (.near die) w ls ps ts →
      (∀ l ∈ ls, l.place < 3 ∨ f.mod.toNat % 8 = 5) →
      exec (.sigld f) s = .next (s.cellSent e i a w ls ps ts (fun _ => { kind := .read, size := 8, acq := true, scope := f.mod.toNat % 8, watch := true })
        fun id w => (w.awaitResult e id (i.mark {})).setElem e fun x =>
          { x with sig := some { va := a, thr := if i.r.emptyAt 0 then 0 else (i.r.lane 0).toNat, first := w.ns, req := some id } })) ∧
    (∀ k l o, Fires s e x {} i → i.l.va = some a → a.toNat < 2 ^ 56 → inScratch a = false →
      ((W.of s).consume e i).lookup (((W.of s).consume e i).unitsOf (.elem e.r e.cell e.slot)) (((W.of s).consume e i).region e.r).part a .none = .ok l o k →
      exec (.pref f) s = .next (s.fired e i fun w => (w.placed (.elem e.r e.cell e.slot) (w.region e.r).part a 1 .none .home 0xA).1)) ∧
    (Fires s e x {} i → (i.l.va = none ∨ ∃ b, i.l.va = some b ∧ 2 ^ 56 ≤ b.toNat) → exec (.pref f) s = .next (s.fired e i id))) ∧
  (∀ (f : EFields) (s : State) (e : ERef) (x : Elem) (i : Ins) (a : W64), i.l.va = some a →
    (CellFires s e x {} false i → f.fmt = 5 → a.toNat % 32 ≠ 0 → exec (.ld f) s = .next (s.fired e i fun w => w.raiseElem e 0x122 a (some i.l))) ∧
    (CellFires s e x { r := true } false i → i.r.null = false → a.toNat % 8 ≠ 0 →
      exec (.sigld f) s = .next (s.fired e i fun w => w.raiseElem e 0x122 a (some i.l))) ∧
    (CellFires s e x {} false i → f.fmt ≠ 5 → 2 ^ 56 ≤ a.toNat ∨ inScratch a = true → a.toNat % 64 = 0 →
      exec (.ld f) s = .next (s.fired e i fun w => w.raiseElem e 0x123 a (some i.l))) ∧
    (∀ w ls ps ts, CellFires s e x {} false i → f.imm.toNat < 8 → a.toNat % 64 = 0 → CellPlaced s e a 64 1 .read .dies w ls ps ts →
      (∃ l ∈ ls, l.place ≠ 2) → exec (.rld f) s = .next (((w.consume e i).raiseElem e 0x124 a (some i.l)).commit s)))

/-- R91, R225 to R228, R232 to R234, R236, R241, R242: the global stores, atomics and fences of a memory cell. ST writes the full lanes of R to the sector that its address
names, MCST to every copy of a REPLICA sector, SIGST lanes 1 : 0 of R to an aligned word as a release; with a scope each is a release and awaits its completion, also when a
null at R leaves nothing to write (R91), and without one ST and MCST send nothing. ATOM and CAS act on the full lanes at the sector's home, and with a scope are an acquire and a release; RDCP adds its lanes as a
contribution with the next number of its element. MFENCE takes its place in the cell's order. -/
def Obligations.CellStores : Prop :=
  ∀ (f : EFields) (s : State) (e : ERef) (x : Elem) (i : Ins) (a : W64) (w : W) (ls : List Leaf) (ps : List Piece) (ts : List Nat) (sec : W64)
      (die scope : Nat) (r : Token),
    sec = BitVec.ofNat 64 (a.toNat / 64 * 64) → die = (s.region e.r).die → scope = f.mod.toNat % 8 → i.l.va = some a → r = i.r.policy x.empty x.k →
    (CellFires s e x { r := true } true i → i.r.null = false → f.fmt ≠ 5 → CellPlaced s e sec 64 1 .write (.near die) w ls ps ts →
      exec (.st f) s = .next (s.cellSent e i sec w ls ps ts
        (fun w => { kind := .write, size := 64, fmt := f.fmt.toNat, data := BitVec.ofNat 768 r.data.toNat, mask := storeMask r, rel := decide (scope ≠ 0)
                    scope := scope, ref := (w.cell e.r e.cell).latest })
        fun id w => if scope ≠ 0 then w.awaitResult e id (completion i.l i (w.cellRel e scope)) else w)) ∧
    (CellFires s e x { r := true } true i → i.r.null = false → f.fmt ≠ 5 → CellPlaced s e sec 64 1 .write .copies w ls ps ts → (∀ l ∈ ls, l.place = 2) →
      exec (.mcst f) s = .next (s.cellSent e i sec w ls ps ts
        (fun w => { kind := .mcst (f.mod.getLsbD 3), size := 64, fmt := f.fmt.toNat, data := BitVec.ofNat 768 r.data.toNat, mask := storeMask r
                    rel := decide (scope ≠ 0), scope := scope, ref := (w.cell e.r e.cell).latest })
        fun id w => if scope ≠ 0 then w.awaitResult e id (completion i.l i (w.cellRel e scope)) else w)) ∧
    (CellFires s e x { r := true } true i → i.r.null = true → f.fmt ≠ 5 →
      (scope = 0 → exec (.st f) s = .next (s.fired e i id) ∧ exec (.mcst f) s = .next (s.fired e i id)) ∧
      (scope ≠ 0 → exec (.st f) s = .next (((W.of s).emptyRelease e i scope nullToken).commit s) ∧
        exec (.mcst f) s = .next (((W.of s).emptyRelease e i scope nullToken).commit s))) ∧
    (CellFires s e x { r := true } true i → i.r.null = false → r.emptyAt 0 = false → r.emptyAt 1 = false →
      CellPlaced s e a 8 8 .write (.near die) w ls ps ts → (∀ l ∈ ls, l.place < 3 ∨ scope = 5) →
      exec (.sigst f) s = .next (s.cellSent e i a w ls ps ts
        (fun w => { kind := .write, size := 8, data := BitVec.ofNat 768 r.low64.toNat, mask := 0xFF, rel := true, scope := scope
                    ref := (w.cell e.r e.cell).latest })
        fun id w => w.awaitResult e id (completion i.l i (w.cellRel e scope)))) ∧
    (CellFires s e x { r := true } true i → i.r.null = false → CellPlaced s e sec 64 1 .atomic .home w ls ps ts → (∀ l ∈ ls, l.place ≠ 3) →
      exec (.atom f) s = .next (s.cellSent e i sec w ls ps ts
        (fun w => { kind := .atomic f.imm.toNat, fmt := f.fmt.toNat, data := r.data.zeroExtend 768, data2 := (i.p.policy x.empty x.k).data.zeroExtend 768
                    mask := packElems 4 ((List.range 16).map fun l => if (atomLanes [r]).contains l then 15 else 0)
                    acq := decide (scope ≠ 0), rel := decide (scope ≠ 0), scope := scope, ref := (w.cell e.r e.cell).latest })
        fun id w => w.awaitResult e id (i.mark {})) ∧
      exec (.rdcp f) s = .next (s.cellSent e i sec w ls ps ts
        (fun w => { kind := .rdcp (f.imm.toNat % 4) x.seqNo, fmt := f.fmt.toNat, data := r.data.zeroExtend 768, mask := storeMask r
                    ref := (w.cell e.r e.cell).latest })
        fun id w => (w.setElem e fun x => { x with seqNo := x.seqNo + 1 }).awaitResult e id (completion i.l i (w.cellRel e 0)))) ∧
    (∀ p, p = i.p.policy x.empty x.k → CellFires s e x { r := true, p := true } true i → i.r.null = false → i.p.null = false →
      CellPlaced s e sec 64 1 .atomic .home w ls ps ts → (∀ l ∈ ls, l.place ≠ 3) →
      exec (.cas f) s = .next (s.cellSent e i sec w ls ps ts
        (fun w => { kind := .cas, fmt := f.fmt.toNat, data := r.data.zeroExtend 768, data2 := p.data.zeroExtend 768
                    mask := packElems 4 ((List.range 16).map fun l => if (atomLanes [r, p]).contains l then 15 else 0)
                    acq := decide (scope ≠ 0), rel := decide (scope ≠ 0), scope := scope, ref := (w.cell e.r e.cell).latest })
        fun id w => w.awaitResult e id (i.mark {}))) ∧
    (CellFires s e x {} true i → exec (.mfence f) s = .next (s.fired e i fun w =>
      let w := w.setCell e.r e.cell fun c => { c with globAt := w.now + 1, globBy := e.slot }
      (w.issue { die := (w.region e.r).die, part := (w.region e.r).part, src := .elem e.r e.cell e.slot, kind := .mfence f.imm.toNat, scope := scope,
                  place := w.edgeOf (w.region e.r) e.cell }).1.awaitResult
        e (w.m.nextId + 1) { i.l with rel := i.rel, last := i.last, log := i.log }))

/-- R84, R66, R67, R231, R232, R238 to R240: the bank elements. LDL and SEND read the 64 bytes of a sector, LDL of Q4 a row of 96 as two tokens (which keeps the bank's read slot on the
next edge too, log 51), and send them four island cycles later; STL and RECV write the full lanes of R on the firing edge, and RECV sends L on one island cycle later; QPUSH appends L to the cell's queue, QPOP sends
its head, and acquires a release mark on it (R90); LAND forwards the token that its engine fed. What LAND, a RECV whose R an engine feeds, and a QPOP that only INJ feeds
send may be sampled for tracing (R396). An offset outside the bank faults with 0x120, one in the queue's range with 0x121.

R40, R70, R232: what byte memory in its canonical form does: a write of bytes upward, and a masked write, are read back where they wrote, every other byte
reads as before, and the form is kept; in that form equal contents are equal data. -/
def Obligations.BanksAndMemory : Prop :=
  (∀ (f : EFields) (s : State) (e : ERef) (x : Elem) (i : Ins) (off : Nat) (r : Token), r = i.r.policy x.empty x.k →
    (∀ d, BankFires s e x false i → i.l.bankOff = some off → off < 0x40000 → (s.cell e.r e.cell).reserved off = false →
      d = BitVec.ofNat 512 (leNat (memBytes (s.bank e.r e.cell) (off / 64 * 64) 64)) →
      (f.fmt ≠ 5 → exec (.ldl f) s = .next (s.bankFired e i false fun w => w.flyBoth e 4 (i.mark { data := d }) 0)) ∧
      exec (.send f) s = .next (s.bankFired e i false fun w => w.flyBoth e 4 (i.mark { data := d }) 0)) ∧
    (∀ row, BankFires s e x false i → f.fmt = 5 → i.l.bankOff = some off → off % 32 = 0 → off + 96 ≤ 0x40000 → (s.cell e.r e.cell).reserved off = false →
      (s.cell e.r e.cell).reserved (off + 95) = false →
      x.unreserved ((W.of s).edgeOf (s.region e.r) e.cell + 4 + x.pass) 2 = true → row = leNat (memBytes (s.bank e.r e.cell) off 96) →
      exec (.ldl f) s = .next (s.bankFired e i false fun w => (w.bankRow e false).flyBurst e 4
        [{ i.markOnly {} with data := BitVec.ofNat 512 (row % 2 ^ 504) }, { i.markOnly {} with data := BitVec.ofNat 512 (row / 2 ^ 504 % 2 ^ 264) }] 0)) ∧
    (BankFires s e x true i → i.l.bankOff = some off → i.r.null = false → off < 0x40000 → (s.cell e.r e.cell).reserved off = false →
      (f.fmt ≠ 5 → exec (.stl f) s = .next (s.bankFired e i true fun w =>
        w.setBank e.r e.cell fun m => bankPut m (off / 64 * 64) r.data.toNat (storeMask r) 64)) ∧
      exec (.recv f) s = .next (s.bankFired e i true fun w =>
        let w := w.setBank e.r e.cell fun m => bankPut m (off / 64 * 64) r.data.toNat (storeMask r) 64
        let t : Token := { i.l with rel := i.rel, last := i.last, log := i.log }
        if x.names 1 then w.flyBoth e 1 t 0 else (w.birth e t).1.flyBoth e 1 (w.birth e t).2 0)) ∧
    (BankFires s e x true i → exec (.qpush f) s = .next (s.bankFired e i true fun w => w.queuePush e.r e.cell i.l)) ∧
    (∀ t q, BankFires s e x false i → (s.cell e.r e.cell).queue = t :: q →
      exec (.qpop f) s = .next (s.bankFired e i false fun w =>
        let w := ((w.acquireBy e { l := t, lT := true }).queuePop e.r e.cell).setElem e fun x =>
          { x with lastSeen := x.lastSeen || (x.done && t.last), heldAt := [] }
        if (w.region e.r).injFed e.cell then (w.birth e t).1.flyBoth e 4 (w.birth e t).2 0 else w.flyBoth e 4 t 0)) ∧
    (∀ t, Fires s e x { l := false } i → x.inL = some t →
      exec (.land f) s = .next (s.fired e { l := t, lT := true } fun w => (w.birth e t).1.flyBoth e 1 (w.birth e t).2 0)) ∧
    (∀ c, BankFires s e x false i → f.fmt ≠ 5 → i.l.bankOff = some off → ((0x40000 ≤ off ∧ c = 0x120) ∨
        (off < 0x40000 ∧ (s.cell e.r e.cell).reserved off = true ∧ c = 0x121)) →
      exec (.ldl f) s = .next (s.bankFired e i false fun w => w.raiseElem e c (BitVec.ofNat 64 off) (some i.l))) ∧
    (BankFires s e x false i → i.l.bankOff = none → exec (.ldl f) s = .next (s.bankFired e i false fun w => w.flyBoth e 4 i.nullOut 0))) ∧
  (∀ (m : Memory), m.wf = true →
    (∀ (at' k : Nat) (bs : List Byte), (memPut m at' bs).wf = true ∧
      memRead (memPut m at' bs) k = if at' ≤ k ∧ k < at' + bs.length then bs.getD (k - at') 0 else memRead m k) ∧
    (∀ at' data mask n k : Nat, (bankPut m at' data mask n).wf = true ∧
      memRead (bankPut m at' data mask n) k =
        if at' ≤ k ∧ k < at' + n ∧ mask.testBit (k - at') = true then BitVec.ofNat 8 (data / 2 ^ (8 * (k - at'))) else memRead m k) ∧
    ∀ m' : Memory, m'.wf = true → (∀ k, memRead m k = memRead m' k) → m = m')

/-! ## Matrix cells (12_matrix_cells.md) -/

/-- R39, R69, R207, R208, R212: MLDB adds a data token, its empty lanes as zeros (of Q4 the bytes of an empty block), to the loading half, and the tail of a whole tile (256 tokens, 512 of BF16) makes the
swap due; MSCL keeps lane 0 as the scale of the loading half, of the one after it from the cycle after a tail; a break of the burst raises 0x210. TILE_SWAP, of a cell
that does not hold, makes the loaded half active with its scale, from the cycle after the tail.

R205, R206, R210, R212, R118: MMA takes a row token into its row buffer; and when a whole row waits, a tile is active and none waits to take its place, the engine is
free, no commit is held, no drain or write has the row in hand or comes first, and the ramp's allowance admits it, the row issues for the row of IMM8 and R's lane 0,
with the tile, the scale and the modes of the moment: the engine is busy for 8 island cycles, 4 for Q4 and 16 for BF16, and the commit is due 4 later. A row beyond the
store is 0x110, and one that is a folded pair's high row 0x111. -/
def Obligations.MatrixTilesAndRows : Prop :=
  ((∀ (f : EFields) (s : State) (e : ERef) (x : Elem) (i : Ins) (m : Mx) (g : Region) (n : Nat), Fires s e x {} i → m = s.mx e.r e.cell →
    tget s.m.regions e.r = some g → n = (if f.fmt = 1 then 512 else 256) →
    (m.swapDue = none → f.fmt ≠ 1 ∨ m.loadOpen = true ∨ (m.free ((W.of s).edgeOf g e.cell) = true ∧ m.rows = [] ∧ g.hold e.cell = false) →
      (i.l.null = false → i.l.head = !m.loadOpen → i.l.tail = decide (m.loading.length + 1 = n) →
        exec (.mldb f) s = .next (s.fired e i fun w => w.setMx e.r e.cell fun m => { m with
          active := if f.fmt = 1 ∧ i.l.head = true then none else m.active, loadOpen := !i.l.tail
          loading := m.loading ++ [lanes fun l =>
            if f.fmt = 5 then q4Lane (m.loading.length % 2 == 1) i.l l else if i.l.emptyAt l then 0 else (i.l.lane l).toNat]
          swapDue := if i.l.tail then some (s.clk.now, i.l.landed) else none })) ∧
      (i.l.null = false → i.l.head = m.loadOpen ∨ i.l.tail ≠ decide (m.loading.length + 1 = n) →
        exec (.mldb f) s = .next (s.fired e i fun w => w.raiseElem e 0x210 0 (some i.l)))) ∧
    (m.swapDue ≠ none → exec (.mldb f) s = .next s) ∧
    (i.l.null = false → i.l.emptyAt 0 = false →
      ((m.swapDue = none ∨ ∃ a, m.swapDue = some (s.clk.now, a)) → exec (.mscl f) s =
        .next (s.fired e i fun w => w.setMx e.r e.cell fun m => { m with scaleL := i.l.lane 0 })) ∧
      (∀ a b, m.swapDue = some (a, b) → a < s.clk.now → exec (.mscl f) s =
        .next (s.fired e i fun w => w.setMx e.r e.cell fun m => { m with scaleN := some (i.l.lane 0) })))) ∧
  ∀ (s : State) (r cell : Nat) (m : Mx) (g : Region) (a b : Nat), tget s.m.regions r = some g → m = s.mx r cell → m.swapDue = some (a, b) →
    (W.of s).onEdge g cell = true → g.hold cell = false →
    (a < s.clk.now → exec (.tileSwap r cell) s = .next (((W.of s).setMx r cell fun m => { m with
      active := some m.loading, tileAt := s.clk.now, loading := [], swapDue := none, scaleA := m.scaleL, scaleL := m.scaleN.getD 0x3F800000, scaleN := none }).commit s)) ∧
    (s.clk.now ≤ a → exec (.tileSwap r cell) s = .next s)) ∧
  (∀ (f : EFields) (s : State) (e : ERef) (x : Elem) (m : Mx) (g : Region) (c : Cell) (n edge : Nat), m = s.mx e.r e.cell → x.fields = f →
    tget s.m.regions e.r = some g → c = s.cell e.r e.cell → edge = (W.of s).edgeOf g e.cell → m.filler = 0 →
    n = (if f.fmt = 1 then 4 else if f.fmt = 3 ∧ c.scaled = true then 3 else 2) →
    (∀ i, Fires s e x {} i → m.rows = [] → m.active = none → x.names 1 = false → g.hold e.cell = false → i.l.null = false → i.l.head = !m.rowOpen →
      i.l.tail = decide (m.rowBuf.length + 1 = n) →
      exec (.mma f) s = .next (s.fired e { i with l := { i.l with last := false } } fun w => w.setMx e.r e.cell fun m =>
        if i.l.tail then { m with rowBuf := [], rowOpen := false, rows := m.rows ++ [m.rowBuf ++ [i.l]], rowsAt := s.clk.now }
        else { m with rowBuf := m.rowBuf ++ [i.l], rowOpen := true })) ∧
    ∀ (i : Ins) (row : List Token) (rest : List (List Token)) (tile : List W512) (p : Ramp) (r sa b : Nat) (v : Nat × Flags),
      Fires s e x { l := false, ro := true } i → x.inL = none → x.names 0 = true → g.slotOf e.cell 0x71 = some x → m.rows = row :: rest → m.active = some tile →
      (W.of s).swapFirst e.r e.cell = false → m.free edge = true → m.holdTo ≤ edge → m.held c edge = false →
      (i.rT = true → i.r.null = false ∧ i.r.emptyAt 0 = false) → r = f.imm.toNat + (if i.rT then (i.r.lane 0).toNat else 0) →
      (W.of s).inHand e r = false → (W.of s).drainFirst e [r] = false → b = (if f.fmt = 1 then 16 else if f.fmt = 5 then 4 else 8) →
      m.ramp = some p → m.needsRamp edge = false → m.fillEnd ≤ edge → p.admits edge b = true →
      (c.rowCount ≤ r → exec (.mma f) s = .next (((W.of s).raiseElem e 0x110 0 (some (if i.rT then i.r else row.getLastD {}))).commit s)) ∧
      (r < c.rowCount → m.isHigh r = true →
        exec (.mma f) s = .next (((W.of s).raiseElem e 0x111 0 (some (if i.rT then i.r else row.getLastD {}))).commit s)) ∧
      (r < c.rowCount → m.isHigh r = false → (f.fmt = 3 → c.scaled = true → (row.getD 0 {}).emptyAt 0 = false) →
        sa = (if f.fmt = 3 ∧ c.scaled = true then ((row.getD 0 {}).lane 0).toNat else 0x3F800000) →
        v = fmulF (Fmt.ofCode 0) 0 0 sa m.scaleA.toNat →
        exec (.mma f) s = .next (s.fired e { i with pT := false } fun w =>
          ((w.setElem e fun x => { x with lastSeen := x.lastSeen || (x.done && row.any (·.last)) }).setMx e.r e.cell fun m => { m with rows := rest, rowsAt := s.clk.now }).setMx
            e.r e.cell fun m => { m with
              firings := m.firings ++ [{
                slot := e.slot, fmt := f.fmt.toNat, empty := x.empty, gamma := x.k, zero := f.mod.getLsbD 0, fade := f.mod.getLsbD 2, row := r
                tokens := row, tile := tile, scale := BitVec.ofNat 32 v.1, flags := v.2, frees := edge + b, commit := edge + b + 4 }]
              ramp := m.ramp.map fun p => { p with spent := p.spent + b }, idleAt := edge + b })))

/-- R51 to R55, R204, R210: the oldest row firing commits on its due edge, for every column at once. Over an INT24 store, while the CCB takes its count changes, the exact value of
each element of the row grows by the exact sum of its products, or becomes it under ZERO, and every other row is as before; over an F32 store each element
receives one rounding of γ × acc + p32 × s, p32 × s under ZERO. -/
def Obligations.MatrixAccumulation : Prop :=
  ∀ (s : State) (r cell : Nat) (g : Region) (x : Mx) (c : Cell) (f : Firing) (rest : List Firing), tget s.m.regions r = some g → x = s.mx r cell →
    c = s.cell r cell → x.firings = f :: rest → (W.of s).onEdge g cell = true → f.suspect = false → f.commit ≤ (W.of s).edgeOf g cell →
    x.holdTo ≤ (W.of s).edgeOf g cell → f.void c.scaled = false →
    (c.afmt = 1 → x.ccb.Pairwise (fun a b => a.row ≠ b.row ∨ a.col ≠ b.col) → x.ccb.length ≤ 64 → ccbFits x.ccb f.row (f.intRow x).2 = true →
      x.isHigh f.row = false → x.spill.length ≤ 4096 → ∃ t, exec (.mmaCommit r cell) s = .next t ∧ (t.mx r cell).firings = rest ∧ t.mem = s.mem ∧
        (∀ k < 128, (t.mx r cell).exact f.row k = (if f.zero then 0 else x.exact f.row k) + partInt f.tokens f.tile k) ∧
        ∀ j k, j ≠ f.row → k < 128 → (t.mx r cell).exact j k = x.exact j k) ∧
    (c.afmt = 0 → ∃ t, exec (.mmaCommit r cell) s = .next t ∧ (t.mx r cell).firings = rest ∧ t.mem = s.mem ∧
      (∀ k < 128, (t.mx r cell).at' f.row k = BitVec.ofNat 32 (accStep (if f.fade then some f.gamma.toNat else none)
        (if f.zero then none else some (x.at' f.row k).toNat) (f.partial' c.scaled k).1 (if f.fmt = 1 then 0x3F800000 else f.scale.toNat)).1) ∧
      ∀ j k, j ≠ f.row → k < 128 → (t.mx r cell).at' j k = x.at' j k)

/-- R205, R206, R216 to R220: a drain that a trigger starts, with its own results sent, on the rows of its instruction. It acts once R206 leaves the rows to it, and until then
waits with them in hand. ACCRD sends the row (exact, as I32 saturated or I64 pairs, or an F32 row as it is or in BF16); CFOLD moves the counts of the low row into the
high row of the pair; ACCZ clears the rows and frees their records; ACCSV sends a block of the rows, their fold bits and records: the spilled in the order of the log,
then the CCB's by row and column, none of count zero. A row beyond the store is 0x110, one that is no such row 0x111, a count that leaves 24 bits 0x292; a null sends a null. -/
def Obligations.MatrixDrains : Prop :=
  ∀ (f : EFields) (s : State) (e : ERef) (x : Elem) (i : Ins) (m : Mx) (c : Cell) (r n off : Nat), Fires s e x { ro := true } i → x.flights = [] →
    m = { s.mx e.r e.cell with hands := tdel (s.mx e.r e.cell).hands e.slot } → c = s.cell e.r e.cell → n = x.k.toNat →
    (∀ op ∈ ([.accrd, .cfold, .accz, .accsv] : List (EFields → Instr)), i.anyNull = true →
      exec (op f) s = .next (s.fired e i fun w => w.flyBoth e 1 i.nullOut 0)) ∧
    (i.anyNull = false →
      (match tget (s.mx e.r e.cell).hands e.slot with
        | some h => off = h.2.1
        | none => off = (if i.rT then (i.r.lane 0).toNat else 0) ∧ (i.rT = true → i.r.emptyAt 0 = false)) →
      r = f.imm.toNat + off →
      -- the rows are not its own yet, or lie outside the store
      (∀ p ∈ ([(.accrd, 0x73), (.cfold, 0x77), (.accz, 0x78), (.accsv, 0x75)] : List ((EFields → Instr) × Nat)), x.opc = p.2 →
        ((W.of s).drainTurn e (drainSpan c x r []) = false → tget (s.mx e.r e.cell).hands e.slot = none → exec (p.1 f) s =
          .next (((W.of s).setMx e.r e.cell fun m => { m with hands := tput m.hands e.slot (s.clk.now, off, drainSpan c x r []) }).commit s)) ∧
        ((W.of s).drainTurn e (drainSpan c x r []) = true → (∃ k ∈ drainSpan c x r [], c.rowCount ≤ k) → exec (p.1 f) s = .next (s.fired e i fun w =>
          (w.setElem e fun x => { x with opened := false, buf := [] }).raiseElem e 0x110 0 (some i.l)))) ∧
      -- a row that the instruction may not name
      (∀ p ∈ ([(.accrd, 0x73, [r], m.isHigh r), (.cfold, 0x77, [r], r % 2 == 1), (.accz, 0x78, (List.range n).map (r + ·), m.isHigh r)] :
          List ((EFields → Instr) × Nat × List Nat × Bool)), x.opc = p.2.1 → (W.of s).drainTurn e p.2.2.1 = true → (∀ k ∈ p.2.2.1, k < c.rowCount) →
        p.2.2.2 = true → exec (p.1 f) s = .next (s.fired e i fun w =>
          (w.setElem e fun x => { x with opened := false, buf := [] }).raiseElem e 0x111 0 (some i.l))) ∧
      (x.opc = 0x73 → (W.of s).drainTurn e [r] = true → r < c.rowCount → m.isHigh r = false →
        (c.afmt = 1 → f.mod = 1 → exec (.accrd f) s = .next (s.drained e i [] m
          (wordTokens ((List.range 128).flatMap fun k => [wrapInt 32 (m.exact r k), wrapInt 32 (m.exact r k / 2 ^ 32)])) (1 + m.pass) 0 x.lfsr)) ∧
        (c.afmt = 1 → f.mod ≠ 1 → exec (.accrd f) s = .next (s.drained e i [] m (wordTokens ((List.range 128).map fun k => (satI32 (m.exact r k)).1))
          (1 + m.pass) (((List.range 128).map fun k => (satI32 (m.exact r k)).2).foldl (· ||| ·) 0) x.lfsr)) ∧
        (c.afmt ≠ 1 → f.fmt = 0 → exec (.accrd f) s = .next (s.drained e i [] m (wordTokens ((List.range 128).map fun k => (m.at' r k).toNat)) 1 0 x.lfsr)) ∧
        (c.afmt ≠ 1 → f.fmt ≠ 0 → ∀ z es, z = lfsrRun (c.cvrnd == 5) 128 x.lfsr →
          es = (fun k => fcvt (Fmt.ofCode 0) (Fmt.ofCode 1) c.cvrnd (z.1.getD k 0) (m.at' r k).toNat) → exec (.accrd f) s = .next (s.drained e i [] m
            (wordTokens ((List.range 64).map fun k => (es (2 * k)).1 + 2 ^ 16 * (es (2 * k + 1)).1)) 1
            (((List.range 128).map fun k => (es k).2).foldl (· ||| ·) 0) z.2))) ∧
      (∀ ts : List Int, x.opc = 0x77 → (W.of s).drainTurn e [r, r + 1] = true → r + 1 < c.rowCount → r % 2 = 0 →
        ts = ((List.range 128).map fun k => (if m.folded r then m.int24 (r + 1) k else 0) + m.countOf r k) →
        ((∀ t ∈ ts, -(2 ^ 23) ≤ t ∧ t ≤ 2 ^ 23 - 1) → exec (.cfold f) s = .next (s.drained e i []
          (((m.putRow (r + 1) (ts.map (wrapInt 24))).freeRows fun k => k == r || (!m.folded r && k == r + 1)).setFold (r / 2) true)
          [lowLanes [r]] (1 + m.pass) 0 x.lfsr)) ∧
        ((∃ t ∈ ts, t < -(2 ^ 23) ∨ 2 ^ 23 - 1 < t) → exec (.cfold f) s = .next (s.fired e i fun w =>
          (w.setElem e fun x => { x with opened := false, buf := [] }).raiseElem e 0x292 0 (some i.l)))) ∧
      (∀ rows, rows = (List.range n).map (r + ·) → (W.of s).drainTurn e rows = true → (∀ k ∈ rows, k < c.rowCount) →
        (x.opc = 0x78 → m.isHigh r = false → exec (.accz f) s = .next (s.drained e i []
          ((rows.foldl (fun m k => if k % 2 = 0 then (m.putRow k (List.replicate 128 0)).setFold (k / 2) false
            else m.putRow k (List.replicate 128 0)) m).freeRows rows.contains)
          [lowLanes [r]] (max 1 (n + m.freePass rows.contains)) 0 x.lfsr)) ∧
        (∀ recs : List CRec, x.opc = 0x75 →
          recs = ((m.spill.filter fun k => decide (r ≤ k.row ∧ k.row < r + n)) ++ (m.ccb.filter fun k => decide (r ≤ k.row ∧ k.row < r + n)).mergeSort
            fun a b => decide (a.row * 128 + a.col ≤ b.row * 128 + b.col)).filter (fun k => k.count ≠ 0) →
          exec (.accsv f) s = .next (s.drained e i [] m
            ([lowLanes ([r, n, c.afmt, recs.length] ++ (List.range 4).map fun j =>
                packElems 1 ((List.range 32).map fun b => if tgetD m.fold (32 * j + b) false then 1 else 0))] ++
              ((List.range n).flatMap fun k => byteTokens (m.rawRow c.afmt (r + k))) ++ wordTokens (recs.map CRec.word))
            (1 + (if c.afmt = 1 then m.pass else 0)) 0 x.lfsr))))

/-- R205, R206, R219, R221: ACCWR and ACCLD keep the tokens of their burst, and on the tail of a whole one, once R206 leaves its rows to it, write: ACCWR the
full lanes of a raw row, whose records and fold bit it frees; ACCLD a block's rows and fold bits, freeing its rows' records. Each then sends its row. A burst of
another length is 0x210 for ACCWR, a block that does not fit its header 0x212. -/
def Obligations.MatrixWrites : Prop :=
  ∀ (f : EFields) (s : State) (e : ERef) (x : Elem) (m : Mx) (c : Cell) (r off : Nat) (data : List Token), x.flights = [] →
    m = { s.mx e.r e.cell with hands := tdel (s.mx e.r e.cell).hands e.slot } → c = s.cell e.r e.cell →
    (∀ i, Fires s e x {} i → i.l.null = false → i.l.head = !x.opened → i.l.tail = false →
      exec (.accwr f) s = .next (s.fired e i fun w => w.setElem e fun y => { y with opened := true, buf := x.buf ++ [i.l] }) ∧
      exec (.accld f) s = .next (s.fired e i fun w => w.setElem e fun y => { y with opened := true, buf := x.buf ++ [i.l] })) ∧
    ∀ i, Fires s e x { ro := true } i → i.l.null = false → i.l.head = !x.opened → i.l.tail = true → data = x.buf ++ [i.l] →
      (i.rT = true → i.r.null = false) →
      (match tget (s.mx e.r e.cell).hands e.slot with
        | some h => off = h.2.1
        | none => off = (if i.rT then (i.r.lane 0).toNat else 0) ∧ (i.rT = true → i.r.emptyAt 0 = false)) → r = f.imm.toNat + off →
      (data.length = (if c.afmt = 0 then 8 else 6) → (W.of s).drainTurn e [r] = true → r < c.rowCount → m.isHigh r = false →
        exec (.accwr f) s = .next (s.drained e i data ((m.setRaw c.afmt r (accwrBytes (m.rawRow c.afmt r) data)).zeroRow r) [lowLanes [r]]
          (1 + m.freePass (· == r)) 0 x.lfsr)) ∧
      (data.length ≠ (if c.afmt = 0 then 8 else 6) → exec (.accwr f) s = .next (s.fired e i fun w => w.raiseElem e 0x210 0 (some i.l))) ∧
      (∀ rows, accldRows c r data = .ok rows → blkLane data 3 = 0 → (W.of s).drainTurn e rows = true → (∀ k ∈ rows, k < c.rowCount) →
        exec (.accld f) s = .next (s.drained e i data (accldMatrix c m r data) [lowLanes [blkLane data 0 + r]] (1 + m.freePass rows.contains) 0 x.lfsr)) ∧
      (accldRows c r data = .error 0x212 → exec (.accld f) s = .next (s.fired e i fun w => w.raiseElem e 0x212 0 (some i.l)))

/-! ## Address generators and controllers (13, 02) -/

/-- R246: the counting of a CNT: one step carries from the first counter on, and ends after the last position; each token of a run holds START + n × STEP of the chain's counters
in their lanes, the run index in lane 4, and in lane 15 which counters stand at their last position; a head mark on the first, a tail mark on the last. A run in progress sends one
token an edge; one starts when the CNT is armed and its tokens stand, and a bound of 0, or a null, makes it one null. From its stage's switch on it counts by the counters
that the section gives (R315). -/
def Obligations.Counters : Prop :=
  (∀ ns bs : List Nat, ns.length = bs.length → (∀ j < ns.length, ns.getD j 0 < bs.getD j 0) →
    (stepPos ns bs = none ↔ ∀ j < ns.length, ns.getD j 0 + 1 = bs.getD j 0) ∧
    ∀ ms, stepPos ns bs = some ms → ms.length = ns.length ∧ (∀ j < ms.length, ms.getD j 0 < bs.getD j 0) ∧
      (ms.zip bs).foldr (fun p v => p.1 + p.2 * v) 0 = (ns.zip bs).foldr (fun p v => p.1 + p.2 * v) 0 + 1) ∧
  (∀ (c : Cell) (ch : List Nat) (u : Run) (l : Nat), l < 16 → u.pos.length = ch.length → u.bounds.length = ch.length → ch.Nodup →
    (∀ j < ch.length, ch.getD j 0 = l → l < 4 → ((u.token c ch).1.lane l).toNat =
      ((((c.counter l).start : Int) + ((u.pos.getD j 0 : Nat) : Int) * (c.counter l).step) % 2 ^ 32).toNat) ∧
    (l ∉ ch → l < 4 → (u.token c ch).1.lane l = 0) ∧ (l = 4 → (u.token c ch).1.lane l = u.index) ∧ (4 < l → l < 15 → (u.token c ch).1.lane l = 0) ∧
    (l = 15 → ∀ b < 32, ((u.token c ch).1.lane l).getLsbD b = true ↔
      b < 4 ∧ ∃ j < ch.length, ch.getD j 0 = b ∧ u.pos.getD j 0 + 1 = u.bounds.getD j 0) ∧
    (u.token c ch).1.empty = 0 ∧ (u.token c ch).1.null = false ∧ (u.token c ch).1.head = u.first ∧
    (u.token c ch).1.tail = (stepPos u.pos u.bounds).isNone) ∧
  ∀ (f : EFields) (s : State) (e : ERef) (g : Region) (x : Elem) (c : Cell) (ch : List Nat), ElemTurn s e g x → (W.of s).mayFire e = true →
    (W.of s).grantBoth e = true → g.startLine e.cell = none → c = { s.cell e.r e.cell with f4 := x.f4.getD (s.cell e.r e.cell).f4 } →
    ch = c.chainFrom 4 (f.imm.toNat % 4) → field (s.bar (Bar.partDbg g.part)) 7 3 = 0 →
    (∀ u, x.run = some u → u.tok.log = none → ∃ t, exec (.cnt f) s = .next t ∧ t.mem = s.mem ∧ (t.elem e).run = (u.token c ch).2 ∧
      (t.elem e).flights = x.flights ++ [{ due := (W.of s).edgeOf g e.cell + 1 + x.pass, a := some (u.token c ch).1,
                                           b := some (u.token c ch).1 }]) ∧
    (x.run = none → x.armed = false → exec (.cnt f) s = .next s) ∧
    ∀ (i : Ins) (l : Token) (bs : List Nat) (u : Run), x.run = none → x.armed = true → x.names 2 = false → x.inputs {} = some i → i.l.log = none → i.l.rel = none →
      i.l.last = false → l = i.l.policy x.empty x.k → (∀ j ∈ ch, l.emptyAt j = false) → bs = ch.map (fun j => (l.lane j).toNat) →
      u = { pos := bs.map fun _ => 0, bounds := bs, tok := i.markOnly {} } → g.sink ≠ e.key →
      ((i.anyNull = true ∨ 0 ∈ bs) → ∃ t, exec (.cnt f) s = .next t ∧ (t.elem e).armed = false ∧ (t.elem e).run = none ∧
        (t.elem e).flights = x.flights ++ [{ due := (W.of s).edgeOf g e.cell + 1 + x.pass, a := some nullToken, b := some nullToken }]) ∧
      (i.anyNull = false → 0 ∉ bs → ∃ t, exec (.cnt f) s = .next t ∧ (t.elem e).armed = false ∧ (t.elem e).run = (u.token c ch).2 ∧
        (t.elem e).flights = x.flights ++ [{ due := (W.of s).edgeOf g e.cell + 1 + x.pass, a := some (u.token c ch).1,
                                             b := some (u.token c ch).1 }])

/-- R247, R248: AFF sends B + sext(k, 32) × u(lane 0 of L) in lanes 1 : 0, one null while it has no base, and takes lanes 1 : 0 of R for B on its first firing after an arming, whose release mark goes with every
later address (R90); GATH
sends B + u(lane) × 2^s + 64 j for each full lane of L and each j below 2^(s − 6), a burst for each lane, and consumes L with the last; IDX sums the lanes that m selects, LAST
says whether lane 15 has the bits of m, BND empties the lanes that reach the bound, and those that are empty stay empty. -/
def Obligations.Addresses : Prop :=
  (∀ (f : EFields) (s : State) (e : ERef) (x : Elem) (i : Ins) (l : Token) (b : Option W64), Fires s e x { r := x.armed && x.names 1 } i →
    l = i.l.policy x.empty x.k → b = (if x.armed = true ∧ x.names 1 = true then i.r.va else x.base) →
    (b = none ∨ i.l.null = true → exec (.aff f) s = .next (s.fired e i fun w =>
      (w.setElem e fun y => { y with
        base := b, baseRel := if x.armed && x.names 1 then i.r.rel else x.baseRel, armed := if x.armed && x.names 1 then false else y.armed }).flyBoth e 1
          (i.withBase x).nullOut 0)) ∧
    ∀ v, b = some v → i.l.null = false →
      exec (.aff f) s = .next (s.fired e i fun w =>
        (w.setElem e fun y => { y with
          base := b, baseRel := if x.armed && x.names 1 then i.r.rel else x.baseRel, armed := if x.armed && x.names 1 then false else y.armed }).flyBoth e 1
          ((i.withBase x).mark (if l.emptyAt 0 then { empty := 3 } else { data := (v + x.k.signExtend 64 * (l.lane 0).zeroExtend 64).zeroExtend 512 })) 0)) ∧
  (∀ (f : EFields) (s : State) (e : ERef) (g : Region) (x : Elem) (i : Ins) (l : Token) (v : W64) (k : Nat) (due : Bool) (as : List (Nat × Bool × Bool)),
    ElemTurn s e g x → (W.of s).mayFire e = true → (W.of s).grantBoth e = true → due = (x.run.isNone && x.armed && x.names 1) →
    x.inputs { r := due } = some i → i.l.null = false → x.baseRel = none → (∀ t ∈ i.toks, t.log = none ∧ t.rel = none ∧ t.last = false) →
    (if due then i.r.va else x.base) = some v → l = i.l.policy x.empty x.k →
    (x.run = none ∧ k = 0 ∨ ∃ u, x.run = some u ∧ u.pos = [k] ∧ u.tok.rel = none ∧ u.tok.log = none ∧ u.tok.last = false) →
    as = (((List.range 16).filter fun j => !l.emptyAt j).flatMap fun j => (List.range (2 ^ (f.imm.toNat - 6))).map fun n =>
      ((v.toNat + (l.lane j).toNat * 2 ^ f.imm.toNat + 64 * n) % 2 ^ 64, decide (n = 0), decide (n + 1 = 2 ^ (f.imm.toNat - 6)))) →
    (∀ a h t, as[k]? = some (a, h, t) → ∃ s', exec (.gath f) s = .next s' ∧ s'.mem = s.mem ∧ (s'.elem e).base = some v ∧
      (s'.elem e).flights = x.flights ++ [{ due := (W.of s).edgeOf g e.cell + 1 + x.pass, a := some { data := BitVec.ofNat 512 a, head := h, tail := t },
                                            b := some { data := BitVec.ofNat 512 a, head := h, tail := t } }] ∧
      (k + 1 < as.length → (s'.elem e).inL = x.inL ∧ ∃ u, (s'.elem e).run = some u ∧ u.pos = [k + 1]) ∧
      (k + 1 = as.length → (s'.elem e).inL = (if i.lT then none else x.inL) ∧ (s'.elem e).run = none)) ∧
    (as = [] → ∃ s', exec (.gath f) s = .next s' ∧ (s'.elem e).inL = (if i.lT then none else x.inL) ∧ (s'.elem e).flights = x.flights)) ∧
  ∀ (f : EFields) (s : State) (e : ERef) (x : Elem) (i : Ins) (l : Token), Fires s e x {} i → i.anyNull = false → l = i.l.policy x.empty x.k →
    (l.empty = 0 → (∃ j < 5, f.imm.getLsbD j = true) → exec (.idx f) s = .next (s.fired e i fun w => w.flyBoth e 1 (i.mark (lowLanes
      [(((List.range 5).filter fun j => f.imm.getLsbD j).map fun j => (l.lane j).toNat).sum % 2 ^ 32])) 0)) ∧
    (x.empty ≠ 1 → (∃ j < 5, f.imm.getLsbD j = true ∧ l.emptyAt j = true) → exec (.idx f) s = .next (s.fired e i fun w =>
      w.flyBoth e 1 (i.mark { empty := 1 }) 0)) ∧
    (l.emptyAt 15 = false → exec (.last f) s = .next (s.fired e i fun w => w.flyBoth e 1 (i.mark (lowLanes
      [if (List.range 4).all fun j => !f.imm.getLsbD j || (l.lane 15).getLsbD j then 1 else 0])) 0)) ∧
    (l.emptyAt 15 = true → exec (.last f) s = .next (s.fired e i fun w => w.flyBoth e 1 (i.mark { empty := 1 }) 0)) ∧
    ∀ i', Fires s e x { r := true } i' → i'.anyNull = false →
      exec (.bnd f) s = .next (s.fired e i' fun w => w.flyBoth e 1 (i'.mark { i'.l with
        empty := mask16 fun j => i'.l.emptyAt j || (i'.r.policy x.empty x.k).emptyAt 0 ||
          decide (((i'.r.policy x.empty x.k).lane 0).toNat ≤ (i'.l.lane j).toNat) }) 0)

/-- R34, R226, R249, R250, R275: RNGP asks the range server for an index for each token, with at most 8 pulls outstanding, and RNGX for a raise by lane 0, each with at
most 16 answers outstanding or buffered; the server answers in the order in
which it was asked: the next index, or the final answer once every index has been given; an accepted raise adds n to the count, and answers the first new index with n; a raise
after the final answer is refused (of 0 by an RNGX it changes nothing); an answer to an element carries the server's release (whose scope the spec does not give, log 89) and the
marks of the token that asked (R156, R226); and one past 2^32 − 1 is 0x2B0 in the raising element, 0x2E0 in a sequencer. -/
def Obligations.RangeServer : Prop :=
  (∀ (f : EFields) (s : State) (e : ERef) (g : Region) (x : Elem) (i : Ins), ElemTurn s e g x → (W.of s).onTurn e = true → x.inputs {} = some i →
    (i.l.null = false → x.ended = false → x.pulls < 8 → x.flights.length < 16 → ∃ t ref st, exec (.rngp f) s = .next t ∧
      (t.region e.r).range = { g.range with asks := g.range.asks ++ [{ who := e.key, ref := ref, step := st }] } ∧ (t.elem e).pulls = x.pulls + 1 ∧
      (t.elem e).inL = if i.lT then none else x.inL) ∧
    (x.ended = true ∨ 8 ≤ x.pulls ∨ 16 ≤ x.flights.length → exec (.rngp f) s = .next s) ∧
    (16 ≤ x.flights.length → exec (.rngx f) s = .next s) ∧
    (i.l.null = true → x.flights.length < 16 → exec (.rngx f) s = .next (s.fired e i fun w => w.flyBoth e 1 i.nullOut 0) ∧
      (x.ended = false → x.pulls < 8 → exec (.rngp f) s = .next (s.fired e i fun w => w.flyBoth e 1 i.nullOut 0))) ∧
    (i.l.null = false → (i.l.policy x.empty x.k).emptyAt 0 = false → x.flights.length < 16 → ∃ t ref st, exec (.rngx f) s = .next t ∧
      (t.region e.r).range = { g.range with asks := g.range.asks ++
        [{ raise := true, who := e.key, n := ((i.l.policy x.empty x.k).lane 0).toNat, ref := ref, step := st }] } ∧
      (t.elem e).inL = if i.lT then none else x.inL)) ∧
  ∀ (s : State) (r : Nat) (g : Region) (a : Ask) (rest : List Ask) (e : ERef) (x : Elem) (rel : Rel), tget s.m.regions r = some g → g.runsAt s.clk.now = true →
    g.range.asks = a :: rest → e = ⟨r, a.who / 8, a.who % 8⟩ → rel = { scope := 4, agent := (W.of s).rangeAgent, ref := g.range.latest } →
    (a.raise = false → tget g.elems a.who = some x → field (s.bar (Bar.partDbg g.part)) 7 3 = 0 →
      (g.range.given < g.range.count → ∃ t, exec (.rangeServerPull r) s = .next t ∧
        (t.region r).range = { g.range with asks := rest, given := g.range.given + 1 } ∧ (t.elem e).ended = x.ended ∧ (t.elem e).pulls = x.pulls - 1 ∧
        (t.elem e).flights = answerAsk ((W.of s).edgeOf g e.cell)
          (some (answerWith rel { lowLanes [(g.range.first + g.range.given) % 2 ^ 32, 0] with tail := false })) x.flights) ∧
      (g.range.count ≤ g.range.given → ∃ t, exec (.rangeServerPull r) s = .next t ∧ (t.region r).range = { g.range with asks := rest, final := true } ∧
        (t.elem e).ended = true ∧ (t.elem e).pulls = x.pulls - 1 ∧
        (t.elem e).flights = answerAsk ((W.of s).edgeOf g e.cell)
          (if x.ended then none else some (answerWith rel { lowLanes [0, 1] with tail := true })) x.flights)) ∧
    (a.raise = true → a.bySeq = false → tget g.elems a.who = some x →
      (g.range.final = false → g.range.count + a.n ≤ 2 ^ 32 - 1 → ∃ t ref, exec (.rangeServerRaise r) s = .next t ∧
        (t.region r).range = { g.range with asks := rest, count := g.range.count + a.n, latest := ref } ∧
        (t.elem e).flights = answerAsk ((W.of s).edgeOf g e.cell) (some fun k =>
          answerWith { rel with ref := ref } { lowLanes [(g.range.first + g.range.count) % 2 ^ 32, a.n] with head := k.head, tail := k.tail } k) x.flights) ∧
      (g.range.final = true → a.n = 0 → g.range.count ≤ 2 ^ 32 - 1 → ∃ t, exec (.rangeServerRaise r) s = .next t ∧
        (t.region r).range = { g.range with asks := rest } ∧ (t.elem e).flights = answerAsk ((W.of s).edgeOf g e.cell) (some fun k =>
          answerWith rel { lowLanes [(g.range.first + g.range.count) % 2 ^ 32, 0] with head := k.head, tail := k.tail } k) x.flights) ∧
      (g.range.final = true → a.n ≠ 0 → g.range.count + a.n ≤ 2 ^ 32 - 1 → ∃ t, exec (.rangeServerRaise r) s = .next t ∧ (t.region r).range = { g.range with asks := rest } ∧
        (t.elem e).flights = answerAsk ((W.of s).edgeOf g e.cell) (some (answerWith rel nullToken)) x.flights) ∧
      (2 ^ 32 - 1 < g.range.count + a.n → exec (.rangeServerRaise r) s = .next ((((W.of s).setRegion r fun g =>
        { g with range := { g.range with asks := rest } }).raiseElem e 0x2B0).commit s))) ∧
    ∀ sq y, a.raise = true → a.bySeq = true → tget s.m.seqs a.who = some sq → sq.wait = some y →
      (g.range.final = false → g.range.count + a.n ≤ 2 ^ 32 - 1 →
        ∃ t ref, exec (.rangeServerRaise r) s = .next t ∧ (t.region r).range = { g.range with asks := rest, count := g.range.count + a.n, latest := ref } ∧
          (t.seq a.who).wait = some { y with
            ready := true, agent := (W.of s).rangeAgent, ref := ref, arr := s.ns
            num := BitVec.ofNat 64 (a.n % 2 ^ 32 * 2 ^ 32 + (g.range.first + g.range.count) % 2 ^ 32) }) ∧
      (g.range.final = true → g.range.count + a.n ≤ 2 ^ 32 - 1 → ∃ t, exec (.rangeServerRaise r) s = .next t ∧ (t.region r).range = { g.range with asks := rest } ∧
        (t.seq a.who).wait = some { y with ready := true, agent := (W.of s).rangeAgent, ref := g.range.latest, arr := s.ns, num := 0 }) ∧
      (2 ^ 32 - 1 < g.range.count + a.n → exec (.rangeServerRaise r) s = .next ((((W.of s).setRegion r fun g =>
        { g with range := { g.range with asks := rest } }).raiseSeq a.who 0x2E0).commit s))

/-- R27, R28: an idle CSEQ, CPIPE or CSTRM takes the START on its line with the count of its token, lane 0 of L; a running one starts the children that R28 lets start: CSEQ the next in turn
when none runs, CSTRM all together when none runs, CPIPE each whose neighbours let it go on; and when its last iteration is done it writes a pennant of KIND 0x10 and pulses its line. A
child's DONE counts its iteration. A reconfiguration token at L holds up the next run, not this one (R315). What a START and the DONEs release goes on with what the node sends
(R25, R88). -/
def Obligations.ControllerNodes : Prop :=
  ∀ (f : EFields) (s : State) (e : ERef) (g : Region) (x : Elem) (n : Node) (c d b done : Nat), ElemTurn s e g x → n = s.node e → c = f.mod.toNat + 1 →
    d = field f.ta 16 3 → b = field f.tb 16 3 → done = n.fin.foldl (· + ·) 0 →
    (∀ op ∈ ([.cseq, .cpipe, .cstrm] : List (EFields → Instr)), (W.of s).onOwnEdge e = true → n.running = false →
      (∀ p i, (W.of s).pendingOn e.r (d - 1) e.key = some p → x.inputs {} = some i → i.l.null = false → i.l.emptyAt 0 = false → (i.l.lane 0).toNat ≠ 0 →
        ∃ t, exec (op f) s = .next t ∧ (t.node e).running = true ∧ (t.node e).n = (i.l.lane 0).toNat ∧ (t.node e).fin = List.replicate c 0 ∧
          tget (t.line e.r (d - 1)).pend e.key = none ∧ (t.elem e).inL = if i.lT then none else x.inL) ∧
      ((W.of s).pendingOn e.r (d - 1) e.key = none → exec (op f) s = .next s)) ∧
    (∀ p ∈ ([(.cseq, decide (done < n.n * c) || n.busy.any id, if n.busy.any id then [] else [done % c]),
        (.cstrm, decide (n.fin.headD 0 < n.n) || n.busy.any id, if n.busy.any id then [] else List.range c),
        (.cpipe, decide (n.fin.getD (c - 1) 0 < n.n), (List.range c).filter fun i => !n.busy.getD i false && decide (n.fin.getD i 0 < n.n) &&
          (i == 0 || decide (n.fin.getD i 0 + 1 ≤ n.fin.getD (i - 1) 0)) && (i + 1 == c || decide (n.fin.getD i 0 ≤ n.fin.getD (i + 1) 0 + 1)))] :
          List ((EFields → Instr) × Bool × List Nat)), (W.of s).onOwnEdge e = true → n.running = true → p.2.1 = true →
      (∀ k ∈ p.2.2, (W.of s).canPulse e.r (b + 2 * k) = true) → exec (p.1 f) s = .next (((p.2.2.foldl (fun w k =>
        w.pulse e.r (b + 2 * k) n.latest (w.elemAgent e) n.cov) (W.of s)).setNode e fun n =>
          { n with busy := (List.range c).map fun k => n.busy.getD k false || p.2.2.contains k }).commit s)) ∧
    (∀ op ∈ ([.cseq, .cpipe, .cstrm] : List (EFields → Instr)), (W.of s).onOwnEdge e = true → n.running = true → n.busy.any id = false → n.n ≠ 0 →
      n.fin = List.replicate c n.n → (W.of s).canPulse e.r d = true → ∃ w ref, exec (op f) s = .next (((w.pulse e.r d ref ((W.of s).elemAgent e) n.cov).setNode e fun n =>
        { n with running := false }).commit s) ∧ (W.of s).nodePennant e n.lastAgent n.lastRef n.startNs n.lastNs 0x10 = (w, ref)) ∧
    ∀ k p, f = x.fields → (x.opc = 0xB0 ∨ x.opc = 0xB1 ∨ x.opc = 0xB2) → (W.of s).onOwnEdge e = true → k < c → n.busy.length = c → n.fin.length = c →
      (W.of s).pendingOn e.r (b + 2 * k + 1) e.key = some p →
      (n.running = true → n.busy.getD k false = true → ∃ t, exec (.nodeChildDone e.r e.cell e.slot k) s = .next t ∧
        (t.node e).busy = n.busy.set k false ∧ (t.node e).fin = n.fin.set k (n.fin.getD k 0 + 1) ∧ tget (t.line e.r (b + 2 * k + 1)).pend e.key = none) ∧
      (n.running = false ∨ n.busy.getD k false = false →
        exec (.nodeChildDone e.r e.cell e.slot k) s = .next ((((W.of s).takePulse e.r (b + 2 * k + 1) e.key).raiseElem e 0x251).commit s))

/-- R18, R23, R24, R29, R30, R60: CBAR, once each of its lines holds a pulse for it, takes them all, writes a pennant of KIND 0x11 about the last, and pulses its line; RCFG takes a START and asks the
loader for its section, behind the requests that reached it before (R312); a line's pulse lands, on an edge of the controller island after its own (R302), at every listener, and on h1 retires the oldest START run; a leaf whose last mark its done source has consumed, and whose stores, at REGION scope, and flags
are performed, pulses its done line; a result lands at its targets once its edge has come and they can take it, with its flags. -/
def Obligations.PulsesAndLandings : Prop :=
  (∀ (f : EFields) (s : State) (e : ERef) (g : Region) (x : Elem) (ls : List Nat) (ps : List Pulse) (z : Pulse), ElemTurn s e g x → (W.of s).onTurn e = true →
    ls = (List.range f.imm.toNat).map (field f.tb 16 3 + ·) → ls ≠ [] → ls.map (fun h => (W.of s).pendingOn e.r h e.key) = ps.map some → z ∈ ps →
    (∀ p ∈ ps, p ≠ z → p.landed < z.landed) → (W.of s).canPulse e.r (field f.ta 16 3) = true → ∃ w ref first, exec (.cbar f) s =
      .next ((w.pulse e.r (field f.ta 16 3) ref ((W.of s).elemAgent e) (ps.foldl (fun (c : Cov) p => c.join p.cov) {})).commit s) ∧ (∀ p ∈ ps, first ≤ p.landedNs) ∧
      (ls.foldl (fun w h => w.takePulse e.r h e.key) (W.of s)).nodePennant e z.agent z.ref first z.landedNs 0x11 = (w, ref)) ∧
  (∀ (f : EFields) (s : State) (e : ERef) (g : Region) (x : Elem) (p : Pulse), ElemTurn s e g x → (W.of s).onTurn e = true → (s.node e).running = false →
    (W.of s).pendingOn e.r (field f.ta 16 3 - 1) e.key = some p → ∃ t, exec (.rcfg f) s = .next t ∧ (t.node e).running = true ∧
      (t.region e.r).secQ = secInsert { sec := f.imm.toNat, byElem := true, who := e.key, agent := (W.of s).elemAgent e, at' := s.clk.now
                                        ref := newer (s.node e).latest p.ref } g.secQ ∧ t.mem = s.mem) ∧
  (∀ (s : State) (r h : Nat) (g : Region) (p : Pulse) (rest : List Pulse), tget s.m.regions r = some g → g.runsAt s.clk.now = true → (W.of s).stopDue g = false → (s.part g.part).halted = false →
    (s.line r h).held = p :: rest →
    ((W.of s).pulseLands g p = false → exec (.halyardPulseDeliver r h) s = .next s) ∧
    ((W.of s).pulseLands g p = true → (∀ k ∈ (s.line r h).listeners, tget (s.line r h).pend k = none) → ∃ t, exec (.halyardPulseDeliver r h) s = .next t ∧
      (t.line r h).held = rest ∧ t.mem = s.mem ∧ (∀ k ∈ (s.line r h).listeners, tget (t.line r h).pend k = some { p with landed := s.clk.now, landedNs := s.ns }) ∧
      (h = 1 → (t.region r).rootDone = true) ∧ (h ≠ 1 → t.m.seqs = s.m.seqs))) ∧
  (∀ (s : State) (e : ERef) (g : Region) (x : Elem) (d : Nat), tget s.m.regions e.r = some g → tget g.elems e.key = some x → d = g.doneLine e.cell →
    (W.of s).onEdge g e.cell = true → x.done = true → x.lastSeen = true → (W.of s).canPulse e.r d = true →
    ((W.of s).leafDone e.r (d - 1) = true → ∃ t, exec (.leafDone e.r e.cell e.slot) s = .next t ∧ (t.elem e).lastSeen = false ∧
      (t.line e.r d).held = [{ ref := x.leafRef, agent := (W.of s).elemAgent e, landed := s.clk.now, landedNs := s.ns, lands := s.clk.now + 1,
                                  cov := (g.leafCells (d - 1)).foldl (fun (c : Cov) k => c.join ((W.of s).releases ((W.of s).eyeOf (.elem e.r k 0)) 2)) {} }]) ∧
    ((W.of s).leafDone e.r (d - 1) = false → exec (.leafDone e.r e.cell e.slot) s = .next s)) ∧
  ∀ (s : State) (e : ERef) (g : Region) (x : Elem) (y : Flight) (ys : List Flight), tget s.m.regions e.r = some g → tget g.elems e.key = some x →
    (W.of s).onEdge g e.cell = true → x.flights = y :: ys → y.req = none → x.opc ≠ 0xA5 →
    (y.due ≤ (W.of s).edgeOf g e.cell → (W.of s).canLand e.r (x.flightA y) = true → (W.of s).canLand e.r (x.flightB y) = true →
      exec (.resultLand e.r e.cell e.slot) s = .next ((((((W.of s).setElem e fun x => { x with flights := ys }).landFlags e y.flags).deliver e (x.flightA y) y.a).deliver e
        (x.flightB y) y.b).commit s)) ∧
    ((W.of s).edgeOf g e.cell < y.due → exec (.resultLand e.r e.cell e.slot) s = .next s)

/-! ## Encodings and the step (09_encoding.md, 00_scope.md) -/

/-- R144 to R152: decoding the word of a well-formed sequencer instruction gives it back, whatever bytes follow.

R144 to R152: decoding the word of a well-formed element, switch or controller instruction gives it back, whatever bytes follow. -/
def Obligations.RoundTrip : Prop :=
  (∀ (i : Instr) (rest : List Byte), i.kind = .seq → WellFormed i = true → decodeSeqBytes (encode i ++ rest) = .ok (i, rest)) ∧
  (∀ (i : Instr) (rest : List Byte), i.kind = .elem → WellFormed i = true → decodeElemBytes (encode i ++ rest) = .ok (i, rest))

/-- R144, R150, R153: what the decoder accepts is a well-formed instruction of its kind, and the word is that instruction's own: no two words decode to one
instruction, and a bit that a form does not use is refused when it is not zero.

Every step goes on, but from a turn whose word is no instruction, which it refuses: no step faults. -/
def Obligations.DecodedWords : Prop :=
  ((∀ (w : W32) (i : Instr), decodeSeq w = .ok i → i.kind = .seq ∧ WellFormed i = true ∧ encodeSeq i = w) ∧
  (∀ (w : W64) (i : Instr), decodeElem w = .ok i → i.kind = .elem ∧ WellFormed i = true ∧ encodeElem i = w) ∧
  (∀ (i : Instr), i.kind = .event → encode i = [])) ∧
  (∀ s : State, goesOn s ∨ ∃ w, step s = .refused (.undecodable w) ∧ s.turn.2.fetch s.turn.1 = .bad w)

/-- Words that the specification's programs and examples write out (01, 02, 09, 11 to 14, 16, 18, 22), and what they stand for. -/
def Obligations.WordsOfTheText : Prop :=
  (∀ p ∈ ([
      (0x0002_0030, .waitc 0 0 1 0), (0x008C_42B7, .copy 5 4 6 2 0), (0x0000_339E, .ldd 7 3 0 0), (0x0500_002F, .fence 4 2),
      (0x001C_A04D, .inj 10 14 0 0 0), (0x001F_584E, .take 16 21 15), (0x003D_CFCE, .take 31 28 30), (0x000F_F045, .csrw 0 31 7),
      (0x0000_50AD, .jal 1 5), (0x0000_102E, .jalr 0 1 0)] : List (Nat × Instr)), decodeTableWord 32 p.1 = some p.2) ∧
  ∀ p ∈ ([
      (0x0260_0000_0008_0018, .vcAdd { fmt := 6, mod := 0, imm := 0, tb := 0, ta := 0x80018 }),
      (0x2301_0000_0008_0C19, .fma { fmt := 0, mod := 1, imm := 0, tb := 0, ta := 0x80C19 }),
      (0x2700_0081_0188_1010, .fmax { fmt := 0, mod := 0, imm := 0, tb := 0x81018, ta := 0x81010 }),
      (0x3500_2300_0008_0014, .dqnt { fmt := 0, mod := 0, imm := 0x23, tb := 0, ta := 0x80014 }),
      (0x5A00_0000_000E_0030, .count { fmt := 0, mod := 0, imm := 0, tb := 0, ta := 0xE0030 }),
      (0x6400_2180_4298_0428, .split { fmt := 0, mod := 0, imm := 0x21, tb := 0x80429, ta := 0x80428 }),
      (0x7136_0500_0000_0000, .mma { fmt := 3, mod := 6, imm := 5, tb := 0, ta := 0 }),
      (0x7500_0000_0008_0420, .accsv { fmt := 0, mod := 0, imm := 0, tb := 0, ta := 0x80420 }),
      (0x9002_0000_0008_0410, .sigst { fmt := 0, mod := 2, imm := 0, tb := 0, ta := 0x80410 }),
      (0xA000_0000_0008_0401, .cnt { fmt := 0, mod := 0, imm := 0, tb := 0, ta := 0x80401 }),
      (0xA200_0200_000A_0429, .idx { fmt := 0, mod := 0, imm := 2, tb := 0, ta := 0xA0429 }),
      (0xB001_00E0_010E_0008, .cseq { fmt := 0, mod := 1, imm := 0, tb := 0xE0010, ta := 0xE0008 }),
      (0xB207_00E0_0B0E_0028, .cstrm { fmt := 0, mod := 7, imm := 0, tb := 0xE00B0, ta := 0xE0028 }),
      (0xB300_08E0_030E_0018, .cbar { fmt := 0, mod := 0, imm := 8, tb := 0xE0030, ta := 0xE0018 })] : List (Nat × Instr)),
    decodeTableWord 64 p.1 = some p.2

/-- R83, R142: a step takes the next turn, lets its time pass, and runs exec of the instruction that the turn finds: the decoded word at the PC of a sequencer that
issues (once a sequencer cycle, R255), the decoded word of an element's slot, or an event; a word that is not loaded, or a PC outside the control store, is the sequencer's cause 0x168.
A turn that comes after one of a higher agent id has written into the same pennant ring on the cycle is passed over (R391; the model's way of ordering turns, log 3). -/
def Obligations.StepRunsTheDecoded : Prop :=
  ∀ (s t : State) (a : Act), s.turn = (a, t) → ((W.of t).inOrder a = false → step s = .next t) ∧ ((W.of t).inOrder a = true →
    (∀ i, a = .ev i → i.kind = .event → step s = exec i t) ∧
    (∀ q sq, a = .seq q → tget t.m.seqs q = some sq → sq.issues t.m ((W.of t).seqAgent q) t.clk.now = true → sq.nextAt ≤ t.clk.now →
      (∀ w i, sq.pc.toNat < 4096 → tget sq.store sq.pc.toNat = some w → decodeSeq w = .ok i → step s = exec i t ∧ SeqTurn t q sq) ∧
      (4096 ≤ sq.pc.toNat ∨ tget sq.store sq.pc.toNat = none → step s = .next (t.seqRaised q 0x168))) ∧
    (∀ q sq, a = .seq q → tget t.m.seqs q = some sq → sq.issues t.m ((W.of t).seqAgent q) t.clk.now = false ∨ t.clk.now < sq.nextAt →
      step s = .next t) ∧
    ∀ e g x, a = .elem e.r e.cell e.slot → tget t.m.regions e.r = some g → tget g.elems e.key = some x →
      (x.word = 0 → step s = .next t) ∧ ∀ i, x.word ≠ 0 → decodeElem x.word = .ok i → step s = exec i t ∧ ElemTurn t e g x)

/-- R2, R404: what passes before a turn's instruction: the first turn of the agenda is taken, its grid cycles pass and global time advances at the steered rate, whose turn it
is is noted, and only counters of events count (R388, R401) and the results of sequencers' multi-cycle operations come to be read (R255); memory, regions and everything else
are as before.

R2, R404: no step takes time back, and none changes it but by the turn's own time: neither grid cycles, nor global time in ns. -/
def Obligations.TurnsAndTime : Prop :=
  (∀ (s : State) (d : Turn) (ds : List Turn), s.clk.agenda = d :: ds →
    ∃ bar counted, s.turn = (d.act, {
      clk := { s.clk with agenda := ds, now := s.clk.now + d.dt, gtime := s.clk.gtime + ((d.dt : Int) * (1000000 + s.m.hub.steer)).toNat }
      mem := s.mem
      m := { s.m with bar := bar, hub := { s.m.hub with counted := counted }, seqs := s.m.seqs.map fun q => (q.1, q.2.ripen (s.clk.now + d.dt)), cur := d.act.actor } })) ∧
  (∀ s t : State, step s = .next t → t.clk = s.turn.2.clk ∧ s.clk.now ≤ t.clk.now ∧ s.ns ≤ t.ns)

/-- R40: memory's canonical form, in every state, is kept by every step. -/
def Obligations.MemoryForm : Prop :=
  ∀ s t : State, s.mem.wf = true → step s = .next t → t.mem.wf = true

/-- R68, R70, R343 to R347, R349, R362, R382, R385 to R387, R409, R414, R416: the state right after reset: no partition enabled, no queue, no region and no sequencer, the registers of the maps
at the values of their "At reset" columns, the measurements zero, memory with nothing listed; and a sequencer that an image loads starts with every register, CSR and its PC at
zero (zero registers are the model's choice, log 2; that DRAM reads 0 is too, log 1). -/
def Obligations.ResetState : Prop :=
  State.reset.mem = [] ∧ State.reset.mem.wf = true ∧ State.reset.m.regions = [] ∧ State.reset.m.seqs = [] ∧ State.reset.m.queues = [] ∧ State.reset.m.parts = [] ∧
  State.reset.m.bus = {} ∧ State.reset.m.mmu = {} ∧ State.reset.m.hub = {} ∧ State.reset.m.rings = [] ∧ State.reset.clk.now = 0 ∧ State.reset.ns = 0 ∧
  State.reset.bar Bar.devCfg = 0xC8000001F4 ∧ State.reset.bar Bar.pkgPlim = 2400 ∧ State.reset.bar Bar.bootStat = 0 ∧ State.reset.bar Bar.tlbInv = 0 ∧ State.reset.bar Bar.pfPtb = 0 ∧
  (∀ n < 16, State.reset.bar (Bar.partCtl n) = 0x380000 ∧ State.reset.bar (Bar.partWdog n) = 0x6403E8 ∧ State.reset.bar (Bar.partTok n) = 0 ∧ State.reset.bar (Bar.fnIrq n) = 0x1000000000000 ∧
    State.reset.bar (Bar.partPtb n) = 0) ∧
  (∀ d < 4, State.reset.bar (Bar.railCfg d) = 0x4100) ∧ (∀ q < 8, State.reset.bar (Bar.qCfg q) = 1 ∧ State.reset.bar (Bar.slewTab q) = 0xFFE4 ∧ State.reset.bar (Bar.pmsel q) = 0) ∧
  (∀ d < 5, State.reset.bar (Bar.temp d) = 0x34800000000) ∧ (∀ i < 8, tgetD State.reset.m.boot.meas i 0 = 0) ∧
  ∀ (g : Region) (k : Nat) (store : Tbl W32), g.resume = none →
    (g.newSeq k store).pc = 0 ∧ (∀ r, (g.newSeq k store).reg r = 0) ∧ (g.newSeq k store).status = 0 ∧ (g.newSeq k store).hvec = 0 ∧ (g.newSeq k store).scratch = [] ∧
    (g.newSeq k store).released = false ∧ (g.newSeq k store).outs = []

/-! ## Global memory (04_memory_spaces.md, 05_ordering_local.md, 06_ordering_wide.md)

An event that is not enabled changes nothing; each of these says what it does when it is. -/

/-- R74: the home die of an interleaved PA is 2 × h1 + h0, the XORs of its bits 13, 15, … 51 and 12, 14, … 50, and the byte lives there at die offset ((PA >> 14) << 12) | PA[11:0]; so each
aligned 16 KiB has one granule of 4 KiB on each die, and the interleaved space covers each die's 192 GiB once. -/
def Obligations.InterleavedHomes : Prop :=
  (∀ pa : Nat, homeDie pa = 2 * (((List.range 20).map fun i => pa / 2 ^ (13 + 2 * i) % 2).sum % 2) + ((List.range 20).map fun i => pa / 2 ^ (12 + 2 * i) % 2).sum % 2 ∧
    dieOffset pa = ((pa >>> 14) <<< 12) ||| (pa % 2 ^ 12)) ∧
  (∀ (l : Leaf) (off : Nat), l.place = 0 → leafKeys l off = [keyDie (homeDie (l.pa + off)) (dieOffset (l.pa + off))]) ∧
  (∀ b d : Nat, b % 2 ^ 14 = 0 → d < 4 → ∃ g < 4, ∀ k < 4, (homeDie (b + 2 ^ 12 * k) = d ↔ k = g)) ∧
  ∀ d o : Nat, d < 4 → o < 192 * 2 ^ 30 → ∃ pa < 4 * (192 * 2 ^ 30), ∀ pb < 4 * (192 * 2 ^ 30), (homeDie pb = d ∧ dieOffset pb = o) ↔ pb = pa

/-- R86, R87, R94, R95, R96, R258: HOME_WRITE_APPLY of a store, on a cycle on which no higher requester id has been served, writes the bytes of its mask at its home, and no other byte; its
own agent sees them at once, and every other agent reads at every location what it read before. Of an AMO or ACAS it replaces the word by op(w, b), or by the swap operand when it equals the
compared one, in one step, and keeps the old word for the answer. CROSS_DIE_WRITE_VISIBLE lets a die see one write, once it sees all that the write is causally after, or one agent
or region of the write's own die, once it sees what binds that die's agents; it changes no byte, and what an agent of another die reads.

R76, R94, R96, R99, R124, R354: a hub agent (the CP, the loader, an engine of the hub) reads, through the hub TLB, the bytes that it sees at the home copy, once it sees what they are
after; an uncorrectable error of DRAM there is its fault 0x370. It writes its bytes, once the home has no write of a higher id on that cycle, at the home copy and no other byte, and sends the
same bytes to every other copy of the place, which are written at times of their own; a signal stores its word so, or adds it at the home in one step. -/
def Obligations.HomeWrites : Prop :=
  ((∀ (s : State) (r : Req) (i : Nat) (p : Piece) (me : Eye), s.mem.wf = true → s.req r.id = some r → me = (W.of s).reqEye r → mayPerform s.m.bus.reqs r = true →
    (W.of s).relReady r = true → r.left.head? = some i → p = r.pieces.getD i {} → p.key % 64 + p.len ≤ 64 → r.die < 6 → r.agent < 2 ^ 50 →
    (W.of s).homeOpen me p.key = true →
    (r.kind = .write → ∃ t, exec (.homeWriteApply r.id) s = .next t ∧
      (∀ k, t.byte k = if p.key ≤ k ∧ k < p.key + p.len ∧ r.mask.testBit (p.off + (k - p.key)) = true then r.data.extractLsb' (8 * (p.off + (k - p.key))) 8
        else s.byte k) ∧
      (∀ k, t.view me k = if p.key ≤ k ∧ k < p.key + p.len ∧ r.mask.testBit (p.off + (k - p.key)) = true then
        r.data.extractLsb' (8 * (p.off + (k - p.key))) 8 else s.view me k) ∧
      ∀ e : Eye, e.die < 6 → e.agent ≠ r.agent → (e.die = r.die → r.die < 5) → ∀ k, t.view e k = s.view e k) ∧
    (∀ (n : Nat) (f : BitVec 4) (q d old : Nat), n = 4 ∨ n = 8 → r.src = .seq q d → i = 0 → r.pieces = [p] → p.off = 0 → p.len = n → r.size = n → r.mask = 2 ^ n - 1 →
      old = leNat (memBytes s.mem p.key n) →
      (r.kind = .atomic (16 + f.toNat) → ∃ t r', exec (.homeWriteApply r.id) s = .next t ∧ t.req r.id = some r' ∧ r'.allDone = true ∧
        tgetD r'.vals 0 0 = BitVec.ofNat 512 old ∧
        memBytes t.mem p.key n = leBytes n (amoWord (8 * n) f.toNat old (r.data.toNat % 2 ^ (8 * n))) ∧
        ∀ k, k < p.key ∨ p.key + n ≤ k → t.byte k = s.byte k) ∧
      (r.kind = .cas → ∃ t r', exec (.homeWriteApply r.id) s = .next t ∧ t.req r.id = some r' ∧ r'.allDone = true ∧ tgetD r'.vals 0 0 = BitVec.ofNat 512 old ∧
        memBytes t.mem p.key n = leBytes n (if old = r.data.toNat % 2 ^ (8 * n) then r.data2.toNat % 2 ^ (8 * n) else old) ∧
        ∀ k, k < p.key ∨ p.key + n ≤ k → t.byte k = s.byte k))) ∧
  (∀ (s : State) (r : Req) (i : Nat), s.req r.id = some r → r.kind = .write → r.left.head? = some i →
    (W.of s).homeOpen ((W.of s).reqEye r) (r.pieces.getD i {}).key = false → exec (.homeWriteApply r.id) s = .next s) ∧
  ∀ (s : State) (a b : List Unseen) (u : Unseen), s.m.bus.unseen = a ++ u :: b → (∀ v ∈ a ++ b, v.id ≠ u.id ∨ v.die ≠ u.die) →
    (u.die ≠ u.src → u.die ≠ 5 →
      ((∀ v ∈ a ++ b, v.die = u.die → v.src < 5 → u.cov.vec.getD v.src 0 < v.num) → ∃ t, exec (.crossDieWriteVisible ⟨u.die, 0⟩ u.id) s = .next t ∧ t.mem = s.mem ∧
        t.m.bus.unseen = (a.map fun v => if v.die = u.die ∧ v.key = u.key then { v with mask := v.mask &&& ~~~u.mask } else v) ++ b ∧ t.m.seqs = s.m.seqs ∧
        t.m.regions = s.m.regions ∧ ∀ e k, e.die ≠ u.die → t.view e k = s.view e k) ∧
      ((∃ v ∈ a ++ b, v.die = u.die ∧ v.src < 5 ∧ v.num ≤ u.cov.vec.getD v.src 0) → exec (.crossDieWriteVisible ⟨u.die, 0⟩ u.id) s = .next s)) ∧
    (u.die = u.src → u.die < 5 → ∀ who,
      ((∀ v ∈ a ++ b, v.die = u.die → u.cov.binds v = true → who ∈ v.seers) → ∃ t, exec (.crossDieWriteVisible ⟨u.die, who + 1⟩ u.id) s = .next t ∧ t.mem = s.mem ∧
        t.m.bus.unseen = a ++ { u with seers := u.seers ++ [who] } :: b ∧ t.m.seqs = s.m.seqs ∧ t.m.regions = s.m.regions ∧
        ∀ e k, e.die ≠ u.die → t.view e k = s.view e k) ∧
      ((∃ v ∈ a ++ b, v.die = u.die ∧ u.cov.binds v = true ∧ who ∉ v.seers) → exec (.crossDieWriteVisible ⟨u.die, who + 1⟩ u.id) s = .next s))) ∧
  (∀ (s : State) (src : Src) (part : Nat) (va : W64) (n : Nat) (l : Leaf) (off k : Nat) (e : Eye), s.mem.wf = true → (W.of s).unitsOf src = [4] →
    1 ≤ n → va.toNat % 64 + n ≤ 64 → e = hubAgent ((W.of s).srcAgent src) → k = hubKey l off → k % 64 + n ≤ 64 →
    (∀ (a : Access) (sc b : Nat) (sees : Bool), s.hubAt part va a l off → (W.of s).wayOpen k = true →
      sees = (W.of s).seesAll e ((W.of s).owed e sc ((W.of s).sources e false { key := k, len := n })) →
      (sees = true → sectorKey k ∉ s.m.bus.bad → ∃ w r, (W.of s).hubGet src part va n a sc b = (w, .ok ((W.of s).viewBytes e k n, r)) ∧ (w.commit s).mem = s.mem) ∧
      (sees = true → sectorKey k ∈ s.m.bus.bad → ∃ w, (W.of s).hubGet src part va n a sc b = (w, .error (.fault 0x370 va)) ∧ (w.commit s).mem = s.mem) ∧
      (sees = false → ∃ w, (W.of s).hubGet src part va n a sc b = (w, .error .wait) ∧ (w.commit s).mem = s.mem)) ∧
    ((W.of s).homeOpen e k = true →
      (∀ (rel : Rel) (bs : List Byte), bs.length = n → s.hubAt part va .write l off → ∃ w ids, (W.of s).hubPut src part va rel bs = (w, .ok ids) ∧
        memBytes (w.commit s).mem k n = bs ∧ (∀ a, a < k ∨ k + n ≤ a → (w.commit s).byte a = s.byte a) ∧
        ∀ c ∈ hubCopies l off, c ≠ k → ∃ r ∈ (w.commit s).m.bus.reqs, r.kind = .write ∧ r.agent = e.agent ∧ r.pieces = [{ key := c, off := 0, len := n }] ∧
          r.data = BitVec.ofNat 768 (leNat bs)) ∧
      (∀ (v : W64) (rel : Rel), n = 8 → va.toNat % 8 = 0 → s.hubAt part va .atomic l off → ∃ w ids,
        (W.of s).hubSignal src part va 2 v rel false = (w, .ok ids) ∧ memBytes (w.commit s).mem k 8 = leBytes 8 (leNat (memBytes s.mem k 8) + v.toNat) ∧
        ∀ a, a < k ∨ k + 8 ≤ a → (w.commit s).byte a = s.byte a) ∧
      ∀ (v : W64) (rel : Rel), n = 8 → va.toNat % 8 = 0 → s.hubAt part va .write l off → ∃ w ids,
        (W.of s).hubSignal src part va 1 v rel false = (w, .ok ids) ∧ memBytes (w.commit s).mem k 8 = leBytes 8 v.toNat ∧
        (∀ a, a < k ∨ k + 8 ≤ a → (w.commit s).byte a = s.byte a) ∧
        ∀ c ∈ hubCopies l off, c ≠ k → ∃ r ∈ (w.commit s).m.bus.reqs, r.kind = .write ∧ r.agent = e.agent ∧ r.pieces = [{ key := c, off := 0, len := 8 }] ∧
          r.data = BitVec.ofNat 768 v.toNat))

/-- R254, R264, R284: a sequencer's load is performed and its bytes, as it sees them, reach the register that awaits them, zero-extended, and it retires; an AMO's or ACAS's old word reaches
its register; a PNRD puts a pennant that resolves in scratch and 1 in its register, else 0; a store retires once its home has applied it, a marked one once it is visible at its
scope. An MWAIT's read ends its wait when the word, as an unsigned number, is at least the threshold, and not before. An uncorrectable error in the data read, also in what an
atomic would replace, is 0x360. -/
def Obligations.SequencerResponses : Prop :=
  ∀ (s : State) (r : Req) (q d : Nat) (sq : Seq) (p : Piece) (n : Nat) (me : Eye), s.req r.id = some r → me = (W.of s).reqEye r → r.src = .seq q d → tget s.m.seqs q = some sq →
    r.pieces = [p] → p.off = 0 → p.len = n → r.size = n → 1 ≤ n → n ≤ 8 →
    (r.kind = .read → (W.of s).mayRead r p = true → r.did = [] → r.acq = false → r.mask = 2 ^ n - 1 → sq.wait = none →
      ∃ t, exec (.seqLoadResponse ⟨r.id, false⟩) s = .next t ∧ t.mem = s.mem ∧ t.req r.id = none ∧ (∀ o ∈ (t.seq q).outs, o.id = r.id → o.done = true) ∧
        (tget sq.regAt d = some r.id → tgetD (t.seq q).regs d 0 = BitVec.ofNat 64 (leNat ((List.range n).map fun b => s.view me (p.key + b))) ∧
          tget (t.seq q).regAt d = none) ∧
        (∀ j, j ≠ d → tget (t.seq q).regs j = tget sq.regs j) ∧ (tget sq.regAt d ≠ some r.id → (t.seq q).regs = sq.regs)) ∧
    (r.kind = .read → (W.of s).mayRead r p = true → r.did = [] → sq.wait = none →
      exec (.seqLoadResponse ⟨r.id, true⟩) s = .next (((W.of s).seqBad q r).commit s)) ∧
    ((r.kind = .cas ∨ ∃ o, r.kind = .atomic o) → r.did = [] → mayPerform s.m.bus.reqs r = true → (W.of s).relReady r = true →
      exec (.seqLoadResponse ⟨r.id, true⟩) s = .next (((W.of s).seqBad q r).commit s)) ∧
    ((r.kind = .cas ∨ ∃ o, r.kind = .atomic o) → r.answered = false → r.did = [0] → r.got = none → (W.of s).seesAll me r.after = true →
      ∃ t r', exec (.seqLoadResponse ⟨r.id, false⟩) s = .next t ∧ t.mem = s.mem ∧ t.req r.id = some r' ∧ r'.answered = true ∧ (tget sq.regAt d = some r.id →
        tgetD (t.seq q).regs d 0 = BitVec.ofNat 64 ((tgetD r.vals 0 0).toNat % 2 ^ (8 * n)))) ∧
    (r.kind = .pnrd → mayPerform s.m.bus.reqs r = true → tget sq.regAt d = some r.id →
      (∀ e, (W.of s).resolve (r.va.truncate 32) r.part = some e → ∃ t, exec (.seqLoadResponse ⟨r.id, false⟩) s = .next t ∧ t.mem = s.mem ∧
        (t.seq q).scratch = memPut sq.scratch r.place (leBytes 32 e.bytes.toNat) ∧ tgetD (t.seq q).regs d 0 = 1) ∧
      ((W.of s).resolve (r.va.truncate 32) r.part = none → ∃ t, exec (.seqLoadResponse ⟨r.id, false⟩) s = .next t ∧ t.mem = s.mem ∧ (t.seq q).scratch = sq.scratch ∧
        tgetD (t.seq q).regs d 0 = 0)) ∧
    (r.kind = .write → (r.did = [0] → (r.rel = true → (W.of s).performed me r.scope r.writes r.cov = true) →
        ∃ t, exec (.seqStoreRetire r.id) s = .next t ∧ t.mem = s.mem ∧ t.req r.id = none ∧ (∀ o ∈ (t.seq q).outs, o.id = r.id → o.done = true) ∧
          (t.seq q).regs = sq.regs) ∧
      (r.did = [] → exec (.seqStoreRetire r.id) s = .next s) ∧
      (r.rel = true → (W.of s).performed me r.scope r.writes r.cov = false → exec (.seqStoreRetire r.id) s = .next s)) ∧
    ∀ x v, r.kind = .read → (W.of s).mayRead r p = true → sq.wait = some x → x.req = some r.id → x.reads = 0 → n = 8 →
      v = leNat ((List.range n).map fun b => s.view me (p.key + b)) → exec (.seqLoadResponse ⟨r.id, true⟩) s = .next (((W.of s).seqBad q r).commit s) ∧
      (x.num.toNat ≤ v → ∃ t y, exec (.seqLoadResponse ⟨r.id, false⟩) s = .next t ∧ t.mem = s.mem ∧ t.req r.id = none ∧ (t.seq q).wait = some y ∧ y.ready = true ∧
        y.num = BitVec.ofNat 64 v ∧ y.reads = 0) ∧
      (v < x.num.toNat → ∃ t y, exec (.seqLoadResponse ⟨r.id, false⟩) s = .next t ∧ t.mem = s.mem ∧ t.req r.id = some r ∧ (t.seq q).wait = some y ∧ y.ready = x.ready ∧
        y.num = x.num ∧ y.reads = 1)

/-- R89, R226, R232, R236, R241, R243, R97, R104: a memory cell's load is performed and its sector, as the cell sees it, becomes the data of the result that waits for it, due at once; a SIGLD's
word once it reaches the threshold; a performed release, a performed contribution and a completed MFENCE send theirs on; RDCP_COMBINE adds a contribution to its sector in
one step, and no other byte; a peer's release of 1, 2, 4, 8 or 64 bytes is written, or added to a word, at its address, when its
home takes it on the cycle (R94). An uncorrectable error in the data read is 0x320 (R229). -/
def Obligations.CellResponses : Prop :=
  (∀ (s : State) (r : Req) (e : ERef) (g : Region) (x : Elem) (p : Piece) (edge : Nat) (me : Eye), s.req r.id = some r → me = (W.of s).reqEye r → r.src = .elem e.r e.cell e.slot →
    tget s.m.regions e.r = some g → tget g.elems e.key = some x → r.pieces = [p] → p.off = 0 → p.len = r.size → edge = (W.of s).edgeOf g e.cell →
    (r.kind = .read → r.size = 64 → (W.of s).mayRead r p = true → r.did = [] → r.acq = false → x.sig = none →
      ∃ t, exec (.globalResponse ⟨r.id, false⟩) s = .next t ∧ t.mem = s.mem ∧ t.req r.id = none ∧ (t.elem e).flights = answerFlights r.id edge 0 x.flights
        [(BitVec.ofNat 512 (leNat ((List.range 64).map fun b => s.view me (p.key + b))), 0)]) ∧
    (r.kind = .read → (W.of s).mayRead r p = true → r.did = [] → x.sig = none → exec (.globalResponse ⟨r.id, true⟩) s = .next (((W.of s).cellBad e r).commit s)) ∧
    ((r.kind = .cas ∨ ∃ o, r.kind = .atomic o) → r.did = [] → mayPerform s.m.bus.reqs r = true → (W.of s).relReady r = true →
      exec (.globalResponse ⟨r.id, true⟩) s = .next (((W.of s).cellBad e r).commit s)) ∧
    (∀ y v, r.kind = .read → r.size = 8 → (W.of s).mayRead r p = true → x.sig = some y → y.req = some r.id → y.reads = 0 →
      v = leNat ((List.range 8).map fun b => s.view me (p.key + b)) →
      (y.thr ≤ v → ∃ t, exec (.globalResponse ⟨r.id, false⟩) s = .next t ∧ t.mem = s.mem ∧ t.req r.id = none ∧ (t.elem e).sig = none ∧
        (t.elem e).flights = answerFlights r.id edge 0 x.flights [(BitVec.ofNat 512 v, 0)]) ∧
      (v < y.thr → ∃ t z, exec (.globalResponse ⟨r.id, false⟩) s = .next t ∧ t.mem = s.mem ∧ (t.elem e).flights = x.flights ∧ (t.elem e).sig = some z ∧ z.reads = 1)) ∧
    (r.kind = .write → r.rel = true → r.did = [0] →
      ((W.of s).performed me r.scope r.writes r.cov = true → ∃ t, exec (.releaseCompletionToken r.id) s = .next t ∧ t.mem = s.mem ∧ t.req r.id = none ∧
        (t.elem e).flights = x.flights.map fun y => if y.req = some r.id then { y with
          req := none, due := edge
          a := y.a.map fun k => { k with rel := k.rel.map fun l =>
            { l with scope := max l.scope r.scope, cov := l.cov.join ((r.cov.join ((W.of s).coverIds r.writes)).narrow r.scope) } }
          b := y.b.map fun k => { k with rel := k.rel.map fun l =>
            { l with scope := max l.scope r.scope, cov := l.cov.join ((r.cov.join ((W.of s).coverIds r.writes)).narrow r.scope) } } } else y) ∧
      ((W.of s).performed me r.scope r.writes r.cov = false → exec (.releaseCompletionToken r.id) s = .next s)) ∧
    (∀ k, r.kind = .mfence k → k ≠ 1 → (∀ q ∈ s.m.bus.reqs.takeWhile (fun q => q.id != r.id), q.agent ≠ r.agent) →
      (∀ u ∈ s.m.bus.unseen, u.outside r.scope me = false) → ∃ t, exec (.mfenceComplete r.id) s = .next t ∧ t.mem = s.mem ∧ t.req r.id = none ∧
        (t.elem e).flights = x.flights.map fun y => if y.req = some r.id then { y with req := none, due := max edge (r.place + 1) } else y) ∧
    (∀ n, s.mem.wf = true → r.kind = .rdcp 0 n → r.fmt = 6 → r.size = 64 → p.key % 64 = 0 → r.did = [] → mayPerform s.m.bus.reqs r = true →
      (W.of s).homeOpen me p.key = true → (∀ q ∈ s.m.bus.reqs, q = r ∨ ∀ o k, q.kind ≠ .rdcp o k) → r.mask = 2 ^ 64 - 1 → ∃ t, exec (.rdcpCombine r.id) s = .next t ∧
        (∀ l < 16, leNat (memBytes t.mem (p.key + 4 * l) 4) = (leNat (memBytes s.mem (p.key + 4 * l) 4) + r.data.toNat / 2 ^ (32 * l) % 2 ^ 32) % 2 ^ 32) ∧
        ∀ k, k < p.key ∨ p.key + 64 ≤ k → t.byte k = s.byte k)) ∧
  ∀ (s : State) (dev part : Nat) (va : W64) (val : W512) (len : Nat) (add : Bool) (ref : W32) (agent key : Nat), s.mem.wf = true → len ∈ [1, 2, 4, 8, 64] →
    (add = true → len = 8) → va.toNat % len = 0 → va.toNat + len ≤ maxInterleave → dev ≠ field (s.bar Bar.devLoc) 12 0 →
    key = keyDie (homeDie va.toNat) (dieOffset va.toNat) →
    (W.of s).homeOpen { die := 5, agent := 2 ^ 41 + dev, id := agent % 2 ^ 19 + dev % 2 ^ 13 * 2 ^ 19 } key = true → ∃ t, exec (.linkReleaseReceive dev part va ⟨val, len⟩ add ref agent) s = .next t ∧
      memBytes t.mem key len = leBytes len (if add then (leNat (memBytes s.mem key len) + val.toNat % 2 ^ 64) % 2 ^ 64 else val.toNat % 2 ^ (8 * len)) ∧
      ∀ k, k < key ∨ key + len ≤ k → t.byte k = s.byte k

/-- R100 to R104, R80, R239, R267, R407: an engine takes the oldest request of an agent that it has not taken, of those sent on one cycle that of the lower agent id first, with a pennant of
KIND 0x30; the source sectors of a copy are read, each once and whole, and on later turns its destination pieces written, once no earlier request that its order names is outstanding, or fed
in order to a RECV's R, a byte that lies in the source too being any; a tile's token goes to the LAND element once the tile is wholly in the bank, in ascending order; once every piece has
been performed at the copy's scope and every token has been sent, the stamp receives the copy's number; and once that is performed at the scope too, its tag is set and the copy is gone. A
collective whose every part is performed sets its tag likewise. -/
def Obligations.CopyEngines : Prop :=
  (∀ (s : State) (l r : List Copy) (c : Copy) (ref : W32), s.m.hub.copies = l ++ c :: r → (∀ x ∈ l, x.eng ≠ c.eng ∨ x.agent ≠ c.agent ∨ x.popped = true) →
    (∀ x ∈ l ++ r, x.id ≠ c.id) → c.eng ≠ 48 → c.popped = false → (s.part c.part).halted = false →
    ((∀ x ∈ l ++ r, x.eng = c.eng → x.popped = false → x.sent = c.sent → c.agent ≤ x.agent) →
      ref = ((W.of s).pennant (engRing c.eng) c.part ⟨(W.of s).engAgent c.eng, c.agent, c.ref, s.ns, s.ns, s.ns, 0x30, c.step⟩).2 →
      ∃ t fd, exec (.enginePop c.eng c.agent) s = .next t ∧ t.mem = s.mem ∧ t.m.hub.copies = l ++ { c with popped := true, popRef := ref, feed := fd } :: r ∧
        (c.redop ≠ 0 ∨ c.landen = true ∨ isBank c.dst = false ∨ (s.region c.region).fedRecv (bankCell c.dst) = none → fd = none)) ∧
    ((∃ x ∈ l ++ r, x.eng = c.eng ∧ x.popped = false ∧ x.sent = c.sent ∧ x.agent < c.agent) → exec (.enginePop c.eng c.agent) s = .next s)) ∧
  (∀ (s : State) (c : Copy) (n i off len : Nat) (d a : W64), (W.of s).copy c.id = some c → c.popped = true → i = n / 2 ^ 36 → i < c.rows →
    d = c.dst + BitVec.ofNat 64 (i * c.dstr) → a = c.from' + BitVec.ofNat 64 (i * c.sstr) → n % 2 ^ 36 < pieceCount d.toNat c.len →
    (off, len) = pieceAt d.toNat c.len (n % 2 ^ 36) → n ∉ c.done → (s.part c.part).halted = false →
    (∀ j o k w bs, (sourceParts a.toNat off len).find? (fun j => (tget c.reads (i * 2 ^ 36 + j)).isNone) = some j → (o, k) = pieceAt a.toNat c.len j →
      (W.of s).engRead c.eng c.part c.src c.region (a + BitVec.ofNat 64 o) k = (w, .ok bs) → exec (.copySector c.id n false) s =
        .next ((w.setCopy c.id fun c => { c with reads := tput c.reads (i * 2 ^ 36 + j) (BitVec.ofNat 512 (leNat bs)) }).commit s)) ∧
    (∀ q, (∀ j ∈ sourceParts a.toNat off len, (tget c.reads (i * 2 ^ 36 + j)).isSome = true) → c.src = .seq q 0 →
      ((W.of s).mayWrite c.src c.num c.fence c.ord = false → exec (.copySector c.id n false) s = .next s) ∧
      ((W.of s).mayWrite c.src c.num c.fence c.ord = true → (∃ g, tget s.m.regions c.region = some g) →
        (c.feed = none → c.redop = 0 → isBank (d + BitVec.ofNat 64 off) = true → (W.of s).engineSlot c.region (bankCell (d + BitVec.ofNat 64 off)) true = true →
          ∃ t bs, exec (.copySector c.id n false) s = .next t ∧ t.mem = s.mem ∧ t.bank c.region (bankCell (d + BitVec.ofNat 64 off)) =
            memPut (s.bank c.region (bankCell (d + BitVec.ofNat 64 off))) (bankOffset (d + BitVec.ofNat 64 off)) bs ∧ bs.length = len ∧
            (∀ b < len, c.overlaps (d + BitVec.ofNat 64 off + BitVec.ofNat 64 b) = false → bs.getD b 0 = c.byteOf i (off + b)) ∧
            ∃ c', (W.of t).copy c.id = some c' ∧ c'.done = n :: c.done) ∧
        ∀ sl e g x, c.feed = some sl → e = ⟨c.region, bankCell d, sl⟩ → tget s.m.regions e.r = some g → tget g.elems e.key = some x → c.upTo n = true →
          (W.of s).earlierFeeds c.src c.eng c.num = false → (W.of s).feedable e true = true → ∃ t k bs, exec (.copySector c.id n false) s = .next t ∧ t.mem = s.mem ∧
            (t.elem e).inR = some k ∧ k.null = false ∧ k.data = BitVec.ofNat 512 (leNat bs) ∧ bs.length = len ∧
            (∀ b < len, c.overlaps (d + BitVec.ofNat 64 off + BitVec.ofNat 64 b) = false → bs.getD b 0 = c.byteOf i (off + b)) ∧
            k.rel = some ((W.of s).engRel c.eng c.scope c.src c.agent c.region c.popRef c.step) ∧
            ∃ c', (W.of t).copy c.id = some c' ∧ c'.done = n :: c.done))) ∧
  (∀ (s : State) (c : Copy) (e : ERef) (g : Region) (x : Elem) (q : Nat), (W.of s).copy c.id = some c → c.src = .seq q 0 → c.popped = true →
    (s.part c.part).halted = false → e = ⟨c.region, c.lcell, c.lslot⟩ → tget s.m.regions e.r = some g → tget g.elems e.key = some x →
    (W.of s).earlierFeeds c.src c.eng c.num = false → (W.of s).feedable e false = true → c.landed < c.tiles →
    (c.tileIn c.landed = true → ∃ t k, exec (.landTokenEmit c.id) s = .next t ∧ t.mem = s.mem ∧ (t.elem e).inL = some k ∧ k.null = false ∧ k.empty = 0 ∧
      k.data = BitVec.ofNat 512 (packElems 32 [bankOffset c.dst + 0x4000 * c.landed, c.landed, min 0x4000 (c.span - 0x4000 * c.landed)]) ∧
      k.rel = some ((W.of s).engRel c.eng c.scope c.src c.agent c.region c.popRef c.step) ∧
      ∃ c', (W.of t).copy c.id = some c' ∧ c'.landed = c.landed + 1) ∧
    (c.tileIn c.landed = false → exec (.landTokenEmit c.id) s = .next s)) ∧
  (∀ (s : State) (c : Copy) (q : Nat) (sq : Seq) (me : Eye), (W.of s).copy c.id = some c → c.src = .seq q 0 → tget s.m.seqs q = some sq →
    me = issuerEye c.src c.agent c.region → (s.part c.part).halted = false → (W.of s).ownedDone c.id = true →
    (c.ends = none → c.popped = true → c.complete = true → c.tiles ≤ c.landed →
      ((W.of s).performed me c.scope c.writes {} = true →
        (c.stamp = 0 → ∃ t, exec (.copyStamp c.id) s = .next t ∧ t.mem = s.mem ∧ (W.of t).copy c.id = none ∧ (t.seq q).tags = sq.tags ||| (1#64 <<< c.tag) ∧
          ∀ o ∈ (t.seq q).outs, o.id = c.id → o.done = true) ∧
        (∀ w ls p ts, c.stamp ≠ 0 → s.mem.wf = true → p.key % 8 = 0 → (W.of s).placed (.engine c.eng) c.part c.stamp 8 .write
            (if ((W.of s).engEye c.eng).die < 4 then .near ((W.of s).engEye c.eng).die else .dies) 0xF = (w, .ok (ls, [p], ts)) →
          w.homeOpen ((W.of s).engEye c.eng) p.key = true →
          ∃ t c', exec (.copyStamp c.id) s = .next t ∧ memBytes t.mem p.key 8 = leBytes 8 c.num ∧ (∀ k, k < p.key ∨ p.key + 8 ≤ k → t.byte k = s.byte k) ∧
            (W.of t).copy c.id = some c' ∧ c'.ends.isSome = true ∧ (t.seq q).tags = sq.tags)) ∧
      ((W.of s).performed me c.scope c.writes {} = false → exec (.copyStamp c.id) s = .next s)) ∧
    (∀ ids, c.ends = some ids →
      ((W.of s).performed me c.scope (ids ++ c.writes) {} = true → ∃ t, exec (.copyStamp c.id) s = .next t ∧ t.mem = s.mem ∧ (W.of t).copy c.id = none ∧
        (t.seq q).tags = sq.tags ||| (1#64 <<< c.tag) ∧ ∀ o ∈ (t.seq q).outs, o.id = c.id → o.done = true) ∧
      ((W.of s).performed me c.scope (ids ++ c.writes) {} = false → exec (.copyStamp c.id) s = .next s))) ∧
  ∀ (s : State) (c : Coll) (q : Nat) (sq : Seq) (ids : List Nat), s.m.hub.colls.find? (fun x => x.id == c.id) = some c → c.src = .seq q 0 →
    tget s.m.seqs q = some sq → c.popped = true → (s.part c.part).halted = false → (1 < c.ranks → Config.peersMatch c.part (field c.ctl 15 0) c.k = true) →
    (∀ j < c.total, j ∈ c.done) → (W.of s).ownedDone c.id = true → (c.ends = some ids ∨ c.ends = none ∧ ids = [] ∧ c.stamp = 0 ∧ field c.ctl 37 36 = 0) →
    ((W.of s).performed (issuerEye c.src c.agent c.region) c.scope (ids ++ c.writes) {} = true →
      ∃ t, exec (.collectiveComplete c.id) s = .next t ∧ t.mem = s.mem ∧ t.m.hub.colls.find? (fun x => x.id == c.id) = none ∧
        (t.seq q).tags = sq.tags ||| (1#64 <<< c.tag)) ∧
    ((W.of s).performed (issuerEye c.src c.agent c.region) c.scope (ids ++ c.writes) {} = false → exec (.collectiveComplete c.id) s = .next s)

/-! ## The command processor (08_launch_and_queues.md, 23_host_and_command_processor.md) -/

/-- R122, R126, R129, R348: the CP of a queue reaches the slot at its head once its TYPE is visible: it clears the slot's 8 header bytes, advances RD_INDEX with a SYS release, and holds
the packet, or halts the partition with the code of what the packet breaks; it reaches a graph's next node, and a node that is busy is 0x3F1. WR_INDEX is read again at a write that
the monitor sees and at a poll; while its die's DRAM is retrained the monitor is not armed, and afterwards it is, and WR_INDEX is read,
but for a queue whose task is saved. -/
def Obligations.QueueHeads : Prop :=
  (∀ (s : State) (q part : Nat) (u : Queue), tget s.m.queues q = some u → part = (W.of s).queuePart q → (W.of s).serves q = true → u.cur = none → u.hold = none →
    (∀ va w1 w2 w3 bs r i2 i3 (p : Packet), u.next = 0 → u.stopping = false → u.rd < u.wr → va = u.slotBase + BitVec.ofNat 64 (64 * (u.rd % max u.slots 1)) →
      (W.of s).hubGet (.cp q) part va 64 .read 5 8 = (w1, .ok (bs, r)) → leNat (bs.take 1) ≠ 0 → p.bytes = bs → p.va = 0 →
      w1.hubPut (.cp q) part va {} (leBytes 8 0) = (w2, .ok i2) →
      w2.hubPut (.cp q) part (u.base + 8) { scope := 5, agent := (W.of s).cpAgent q, ref := u.ref, step := u.step } (leBytes 8 (u.rd + 1)) = (w3, .ok i3) →
      (p.fault = none → ∃ t c, exec (.slotTake q) s = .next t ∧ t.mem = (w3.commit s).mem ∧ (t.queue q).rd = u.rd + 1 ∧ (t.queue q).cur = some c ∧ c.bytes = bs ∧ c.va = 0 ∧
        t.m.regions = s.m.regions ∧ t.m.seqs = s.m.seqs ∧ ∀ x, x ≠ q → t.queue x = s.queue x) ∧
      (∀ c, p.fault = some c → MayRaise s part ((W.of s).cpAgent q) → ∃ t, exec (.slotTake q) s = .next t ∧ t.raised part ((W.of s).cpAgent q) c ∧ (t.queue q).cur = none)) ∧
    (∀ w1 bs r (p : Packet), u.next ≠ 0 → (W.of s).hubGet (.cp q) part u.next 64 = (w1, .ok (bs, r)) → p.bytes = bs → p.va = u.next →
      (p.f 2 1 = 0 → p.fault = none → ∃ t c, exec (.slotTake q) s = .next t ∧ t.mem = s.mem ∧ (t.queue q).cur = some c ∧ c.bytes = bs ∧ c.va = u.next ∧ (t.queue q).next = 0) ∧
      (p.f 2 1 ≠ 0 → MayRaise s part ((W.of s).cpAgent q) → ∃ t, exec (.slotTake q) s = .next t ∧ t.mem = s.mem ∧ t.raised part ((W.of s).cpAgent q) 0x3F1))) ∧
  (∀ (s : State) (q part : Nat) (u : Queue) w bs r, tget s.m.queues q = some u → part = (W.of s).queuePart q → (W.of s).serves q = true → u.armed = true →
    (W.of s).hubGet (.cp q) part u.base 8 = (w, .ok (bs, r)) → ∃ t, exec (.wrIndexMonitor q) s = .next t ∧ t.mem = s.mem ∧ t.queue q = u.sawWr (leNat bs) s.ns ∧
      (s.m.queues = [(q, u)] → exec .wrIndexPoll s = exec (.wrIndexMonitor q) s)) ∧
  (∀ (s : State) (die : Nat), (∃ t, exec .wrIndexPoll s = .next t ∧ t.mem = s.mem) ∧
    ((∀ x ∈ s.m.queues, (W.of s).hubLookup ((W.of s).queuePart x.1) (s.queue x.1).base .read ≠ .miss) → ∃ t, exec (.dramRetrain die) s = .next t ∧ t.mem = s.mem ∧ die ∈ t.m.hub.retrain ∧ ∀ q,
      (∀ l off x, (W.of s).hubLookup ((W.of s).queuePart q) (s.queue q).base .read = .ok l off x → keyHome (hubKey l off) = die → (t.queue q).armed = false) ∧
      ((∀ l off x, (W.of s).hubLookup ((W.of s).queuePart q) (s.queue q).base .read = .ok l off x → keyHome (hubKey l off) ≠ die) → t.queue q = s.queue q)) ∧
    -- an address that no TLB holds is walked for
    ∀ q u, s.m.queues = [(q, u)] → ((W.of s).watchesDie q die).2 = true → ∃ t, exec (.dramRetrain die) s = .next t ∧ t.queue q = { u with armed := false }) ∧
  ∀ (s : State) (die q : Nat) (u : Queue) (l : Leaf) (off : Nat) w bs r, s.m.queues = [(q, u)] → (W.of s).serves q = true → s.hubAt ((W.of s).queuePart q) u.base .read l off →
    keyHome (hubKey l off) = die → u.away = false →
    (((W.of s).setHub fun h => { h with retrain := h.retrain.filter (· != die) }).arm q).hubGet (.cp q) ((W.of s).queuePart q) u.base 8 = (w, .ok (bs, r)) →
    ∃ t, exec (.dramRetrainEnd die) s = .next t ∧ t.mem = s.mem ∧ (t.queue q).armed = true ∧ (t.queue q).wr = leNat bs

/-- R124, R125, R127, R407: issuing a packet makes its job and moves the queue on to its NEXT: COPY queues a copy on hub engine q mod 16, COLL a collective; SIGNAL performs its
store or add, is over, and completes once that has been performed, or halts the partition with its access's fault; LAUNCH reads its window table and its image's header and waits for
quads, or halts the partition. A job whose work is over completes with its SIGOP and its node's STATE = 2. -/
def Obligations.PacketWork : Prop :=
  ∀ (s : State) (q part id : Nat) (p : Packet) (w : W), part = (W.of s).queuePart q → id = s.m.nextId + 1 → (∀ j ∈ (s.queue q).jobs, j.id ≠ id) →
    (Issues s q 2 p w → ∃ t c j, exec (.copyPacket q) s = .next t ∧ t.mem = (w.commit s).mem ∧ t.m.hub.copies = s.m.hub.copies ++ [c] ∧
      (c.id = id ∧ c.part = part ∧ c.eng = 32 + q % 16 ∧ c.dst = p.word 0 ∧ c.from' = p.word 1 ∧ c.len = (p.word 2).toNat ∧ c.rows = 1 ∧ c.redop = field (p.word 5) 15 8 ∧
        c.fmt = field (p.word 5) 19 16 ∧ c.ord = (p.word 5).getLsbD 2) ∧
      (t.queue q).cur = none ∧ (t.queue q).next = p.next ∧ t.job q id = some j ∧ j.done = false ∧ j.sigop = field (p.word 5) 1 0 ∧ j.sig = p.word 3 ∧ j.sigval = p.word 4) ∧
    (Issues s q 3 p w → ∃ t c j, exec (.collPacket q) s = .next t ∧ t.mem = (w.commit s).mem ∧ t.m.hub.colls = s.m.hub.colls ++ [c] ∧
      (c.id = id ∧ c.part = part ∧ c.send = p.word 0 ∧ c.recv = p.word 1 ∧ c.count = (p.word 2).toNat ∧ c.ctl = p.word 5) ∧
      (t.queue q).cur = none ∧ (t.queue q).next = p.next ∧ t.job q id = some j ∧ j.done = false ∧ j.sigop = field (p.word 5) 37 36 ∧ j.sig = p.word 3 ∧ j.sigval = p.word 4) ∧
    (∀ (w' : W) (ids : List Nat), Issues s q 4 p w → ∀ rel : Rel, rel = { scope := field (p.word 2) 4 2 + 1, agent := (W.of s).cpAgent q, ref := (w.queue q).ref, step := (w.queue q).step } →
      (w.hubSignal (.cp q) part (p.word 0) (field (p.word 2) 1 0) (p.word 1) rel true = (w', .ok ids) → ∃ t j, exec (.signalPacket q) s = .next t ∧ t.mem = (w'.commit s).mem ∧
        (t.queue q).cur = none ∧ (t.queue q).next = p.next ∧ t.job q id = some j ∧ j.done = true ∧ j.sigop = 0 ∧ j.writes = ids ∧ j.scope = rel.scope) ∧
      ∀ c va, w.hubSignal (.cp q) part (p.word 0) (field (p.word 2) 1 0) (p.word 1) rel true = (w', .error (.fault c va)) → MayRaise s part ((W.of s).cpAgent q) →
        ∃ t, exec (.signalPacket q) s = .next t ∧ t.mem = s.mem ∧ t.raised part ((W.of s).cpAgent q) c) ∧
    (∀ w1 w2 bs r bs' r' h wins, Issues s q 1 p w →
      (p.word 1 = 0 ∧ wins = [] ∨ p.word 1 ≠ 0 ∧ w.hubGet (.cp q) part (p.word 1) 128 = (w1, .ok (bs', r')) ∧ windowTable bs' = some wins) →
      w.hubGet (.engine 49) part (p.word 0) 64 .image = (w2, .ok (bs, r)) → h = headerOf bs →
      (1 ≤ h.qw ∧ h.qw ≤ 8 ∧ 1 ≤ h.qh ∧ h.qh ≤ 5 → ∃ t l j, exec (.launch q) s = .next t ∧ t.mem = (w.commit s).mem ∧ t.m.regions = s.m.regions ∧
        (t.queue q).launches = (s.queue q).launches ++ [l] ∧ (l.job = id ∧ l.level = min (field (p.word 4) 34 32) (field (s.bar (Bar.partCtl part)) 21 19) ∧
          l.est = field (p.word 4) 31 0 ∧ l.image = p.word 0 ∧ l.qw = h.qw ∧ l.qh = h.qh ∧ l.first = field (p.word 2) 31 0 ∧ l.count = field (p.word 2) 63 32 ∧ l.windows = wins) ∧
        (t.queue q).hold = some id ∧ t.job q id = some j ∧ j.done = false ∧ j.sigop = field (p.word 4) 41 40 ∧ j.sig = p.word 3 ∧ j.sigval = p.word 5) ∧
      (¬ (1 ≤ h.qw ∧ h.qw ≤ 8 ∧ 1 ≤ h.qh ∧ h.qh ≤ 5) → MayRaise s part (W.of s).loaderAgent → ∃ t, exec (.launch q) s = .next t ∧ t.raised part (W.of s).loaderAgent 0x0F1)) ∧
    ∀ j x y i1 i2, s.job q j.id = some j → j.done = true → (W.of s).cpRuns q = true →
      (j.writes = [] ∨ (W.of s).performed (hubAgent ((W.of s).cpAgent q)) j.scope j.writes {} = true →
        (if j.node = 0 then x = W.of s else (W.of s).hubPut (.cp q) part (j.node + 2) {} [2] = (x, .ok i1)) →
        (if j.sigop = 0 ∨ j.killed = true then y = x else
          x.hubSignal (.cp q) part j.sig j.sigop j.sigval { scope := 4, agent := (W.of s).cpAgent q, ref := j.ref, step := j.step } false = (y, .ok i2)) →
        ∃ t, exec (.packetComplete q j.id) s = .next t ∧ t.mem = (y.commit s).mem ∧ t.job q j.id = none ∧ (t.queue q).last = (j.agent, j.ref, s.ns, j.step)) ∧
      (j.writes ≠ [] → (W.of s).performed (hubAgent ((W.of s).cpAgent q)) j.scope j.writes {} = false → exec (.packetComplete q j.id) s = .next s)

/-- R129, R130: a WAITSIG whose word compares is over at once, and one whose word does not holds its queue up until it does; COND goes on at NEXT or at ELSE. -/
def Obligations.WaitsAndConditions : Prop :=
  (∀ (s : State) (q part id : Nat) (p : Packet) (w w' : W) (bs : List Byte) (r : Option (Rel × Nat × Nat)) (yes : Bool), part = (W.of s).queuePart q → id = s.m.nextId + 1 →
    (∀ j ∈ (s.queue q).jobs, j.id ≠ id) → w.hubGet (.cp q) part (p.word 0) 8 = (w', .ok (bs, r)) → yes = cmpWord (field (p.word 2) 2 0) (BitVec.ofNat 64 (leNat bs)) (p.word 1) →
    (Issues s q 5 p w → (s.queue q).hold = none → ∃ t j, exec (.waitsig q) s = .next t ∧ t.mem = (w.commit s).mem ∧ (t.queue q).cur = none ∧ (t.queue q).next = p.next ∧
      t.job q id = some j ∧ j.sig = p.word 0 ∧ j.sigval = p.word 1 ∧ j.cmp = field (p.word 2) 2 0 ∧ j.done = yes ∧ (t.queue q).hold = if yes = true then none else some id) ∧
    (Issues s q 6 p w → ∃ t j, exec (.cond q) s = .next t ∧ t.mem = (w.commit s).mem ∧ (t.queue q).cur = none ∧ (t.queue q).next = (if yes = true then p.next else p.word 3) ∧
      t.job q id = some j ∧ j.done = true)) ∧
  ∀ (s : State) (q part : Nat) (u : Queue) (j : Job) w bs r, tget s.m.queues q = some u → part = (W.of s).queuePart q → (W.of s).serves q = true → s.job q j.id = some j →
    u.hold = some j.id → j.typ = 5 → (∀ y ∈ u.jobs, y.id = j.id → y = j) → (W.of s).hubGet (.cp q) part j.sig 8 = (w, .ok (bs, r)) → ∃ t, exec (.waitsigReevaluate q) s = .next t ∧ t.mem = s.mem ∧
      (cmpWord j.cmp (BitVec.ofNat 64 (leNat bs)) j.sigval = true → (t.queue q).hold = none ∧ ∃ k, t.job q j.id = some k ∧ k.done = true) ∧
      (cmpWord j.cmp (BitVec.ofNat 64 (leNat bs)) j.sigval = false → t.queue q = u)

/-- R296: a REARM whose stores its page tables and the homes allow writes STATE = 2 in its own node, then STATE = 0 in each of the NODES nodes from ROOT, at their home copies, and continues at
ROOT; so a REARM inside its block reads 0 afterwards, one outside keeps 2, and a node whose STATE is not 0 when the CP reaches it halts the partition with 0x3F1. -/
def Obligations.Rearm : Prop :=
  (∀ (s : State) (q part : Nat) (p : Packet) (w x y : W) (i0 ids : List Nat) (l : Nat → Leaf) (off : Nat → Nat) (l0 : Leaf) (off0 : Nat), s.mem.wf = true →
    part = (W.of s).queuePart q → (∀ j ∈ (s.queue q).jobs, j.id ≠ s.m.nextId + 1) → Issues s q 7 p w → 
    (if p.va = 0 then x = w else w.hubPut (.cp q) part (p.va + 2) {} [2] = (x, .ok i0)) →
    (List.range (p.word 1).toNat).foldl (fun (a : Tried (List Nat)) i => andThen a fun w _ => w.hubPut (.cp q) part (p.word 0 + BitVec.ofNat 64 (64 * i + 2)) {} [0]) (x, .ok []) = (y, .ok ids) →
    (p.va ≠ 0 → s.hubAt part (p.va + 2) .write l0 off0) →
    (∀ i < (p.word 1).toNat, s.hubAt part (p.word 0 + BitVec.ofNat 64 (64 * i + 2)) .write (l i) (off i)) →
    ∃ t, exec (.rearm q) s = .next t ∧ (t.queue q).next = p.word 0 ∧ (t.queue q).jobs = (s.queue q).jobs ∧
      (∀ i < (p.word 1).toNat, t.byte (hubKey (l i) (off i)) = 0) ∧
      (p.va ≠ 0 → (∀ i < (p.word 1).toNat, hubKey l0 off0 ≠ hubKey (l i) (off i)) → t.byte (hubKey l0 off0) = 2) ∧
      ∀ a, (p.va ≠ 0 → a ≠ hubKey l0 off0) → (∀ i < (p.word 1).toNat, a ≠ hubKey (l i) (off i)) → t.byte a = s.byte a) ∧
  ∀ (s : State) (q part : Nat) (u : Queue) w bs r, tget s.m.queues q = some u → part = (W.of s).queuePart q → (W.of s).serves q = true → u.cur = none → u.hold = none → u.next ≠ 0 →
    (W.of s).hubGet (.cp q) part u.next 64 = (w, .ok (bs, r)) → leNat ((bs.drop 2).take 1) ≠ 0 → MayRaise s part ((W.of s).cpAgent q) →
    ∃ t, exec (.slotTake q) s = .next t ∧ t.mem = s.mem ∧ t.raised part ((W.of s).cpAgent q) 0x3F1

/-- R132, R133, R297, R298, R340, R349: HRING asks the hub to append its records, which the hub reads, sector by sector, before they have arrived; an append that has arrived proceeds once its
ring has room, into the ring's slots in host memory from WR on, and WR advances; at COAL_N pending records, at COAL_T, and at an END, HOST_WR becomes WR and the ring's vector is sent, once a
hub cycle. A function's events of a kind send its vector at their count or their time; the vectors of a VF that no enabled partition is bound to never fire. -/
def Obligations.RingsAndInterrupts : Prop :=
  (∀ (s : State) (q part id : Nat) (p : Packet) (w w' : W), part = (W.of s).queuePart q → id = s.m.nextId + 1 → (∀ j ∈ (s.queue q).jobs, j.id ≠ id) →
    (Issues s q 8 p w → ∃ t a, exec (.hring q) s = .next t ∧ t.mem = (w.commit s).mem ∧ t.m.hub.appends = s.m.hub.appends ++ [a] ∧ a.id = id ∧ a.part = part ∧
      a.ring = p.word 0 ∧ a.from' = p.word 1 ∧ a.len = (p.word 2).toNat ∧ a.recs = [] ∧ a.src = .cp q ∧ (t.queue q).hold = some id ∧ (t.queue q).cur = none) ∧
    (∀ (rings : List Nat), Issues s q 9 p w → rings = (if p.word 0 = 0 then (s.queue q).rings else [ringKey part (p.word 0)]) →
      rings.foldl (fun (x : Tried Unit) k => andThen x fun w _ => w.flushRing (.cp q) k) (w, .ok ()) = (w', .ok ()) →
      ∃ t j, exec (.endPacket q) s = .next t ∧ t.mem = (w'.commit s).mem ∧ (t.queue q).rings = [] ∧ t.job q id = some j ∧ j.done = true ∧ j.sigop = field (p.word 3) 1 0 ∧
        j.sig = p.word 1 ∧ j.sigval = p.word 2 ∧ ∀ k ∈ rings, (tgetD t.m.hub.rings k {}).pending = 0)) ∧
  (∀ (s : State) (a : Append) (src : Src) (w : W) (bs : List Byte), s.m.hub.appends.find? (fun b => b.id == a.id) = some a → (s.part a.part).halted = false → a.len ≠ 0 →
    src = (match a.src with | .cp q => .cp q | _ => .engine 50) → (W.of s).longGet (2 ^ 20 + a.id) src a.part a.from' a.len .read = (w, .ok bs) →
    ∃ t, exec (.ringAppend a.id) s = .next t ∧ t.mem = s.mem ∧
      t.m.hub.appends = (s.m.hub.appends.filter fun y => y.id != a.id) ++ [{ a with recs := bs, len := 0, start := s.ns, waited := s.m.hub.appends.any fun y => y.waits a.part a.ring }]) ∧
  (∀ (s : State) (a : Append) (key n k : Nat) (src : Src) (d : RingDesc) (l : Leaf) (off : Nat) (w : W) bs r, s.mem.wf = true →
    s.m.hub.appends.find? (fun b => b.id == a.id) = some a → a.len = 0 →
    key = ringKey a.part a.ring → (s.m.hub.appends.filter fun b => b.len == 0 && ringKey b.part b.ring == key).head? = some a → (s.part a.part).halted = false →
    src = (match a.src with | .cp q => .cp q | _ => .engine 50) → a.ring.toNat % 64 = 0 → (W.of s).hubGet src a.part a.ring 64 = (w, .ok (bs, r)) →
    s.hubAt a.part (a.ring + 24) .write l off → l.place ≠ 3 → k = hubKey l off → (W.of s).homeOpen (hubAgent ((W.of s).srcAgent src)) k = true →
    d = ringDesc bs → d.ok = true → n = a.recs.length / 64 → a.recs.length % 64 = 0 →
    (d.slots < d.wr + n - d.rd → ∃ t, exec (.ringAppend a.id) s = .next t ∧ t.mem = s.mem ∧ t.m.hub.appends = s.m.hub.appends.map fun x =>
      if x.id = a.id ∨ (x.len = 0 ∧ x.part = a.part ∧ x.ring = a.ring) then { x with waited := true } else x) ∧
    (∀ x, d.wr + n - d.rd ≤ d.slots → n ≤ d.slots → x = tgetD s.m.hub.rings key {} → x.pending + n < d.coalN → x.flushed ≠ s.clk.now + 1 →
      ∃ t, exec (.ringAppend a.id) s = .next t ∧
      (∀ i < n, memBytes t.mem (keyHost (d.hostBase + 64 * ((d.wr + i) % d.slots))) 64 = (a.recs.drop (64 * i)).take 64) ∧
      memBytes t.mem k 8 = leBytes 8 (d.wr + n) ∧
      (∀ b, (∀ i < n, b < keyHost (d.hostBase + 64 * ((d.wr + i) % d.slots)) ∨ keyHost (d.hostBase + 64 * ((d.wr + i) % d.slots)) + 64 ≤ b) →
        b < k ∨ k + 8 ≤ b → t.byte b = s.byte b) ∧
      (∀ y ∈ t.m.hub.appends, y.id ≠ a.id) ∧ (tgetD t.m.hub.rings key {}).pending = x.pending + n ∧ t.m.hub.irqs = s.m.hub.irqs)) ∧
  (∀ (s : State) (key part fn : Nat) (x : HRing) (d : RingDesc) (w : W) bs r, s.mem.wf = true → x = tgetD s.m.hub.rings key {} → 0 < x.pending →
    part = ringPart key → (s.part part).halted = false → (W.of s).hubGet (.engine 50) part (ringVa key) 64 = (w, .ok (bs, r)) →
    d = ringDesc bs → d.ok = true → x.since + 1000 * d.coalT ≤ s.ns → fn = field (s.bar (Bar.partCtl part)) 31 28 →
    ∃ t, exec (.ringCoalTimer key) s = .next t ∧ memBytes t.mem (keyHost d.hostWr) 8 = leBytes 8 d.wr ∧
      (∀ b, b < keyHost d.hostWr ∨ keyHost d.hostWr + 8 ≤ b → t.byte b = s.byte b) ∧ (tgetD t.m.hub.rings key {}).pending = 0 ∧
      (x.sentAt ≠ s.clk.now + 1 → (fn = 0 ∨ ∃ n < 16, (W.of s).enabled n = true ∧ field (s.bar (Bar.partCtl n)) 31 28 = fn) → t.m.hub.irqs = s.m.hub.irqs ++ [(fn, d.vec)]) ∧
      (x.sentAt = s.clk.now + 1 ∨ (fn ≠ 0 ∧ ∀ n < 16, (W.of s).enabled n = true → field (s.bar (Bar.partCtl n)) 31 28 ≠ fn) → t.m.hub.irqs = s.m.hub.irqs)) ∧
  ∀ (s : State) (f n c : Nat) (x : Nat → Fn) (due : Nat → Bool), (∀ k, x k = tgetD s.m.hub.fns (2 * f + k) {}) → n = field (s.bar (Bar.fnIrq f)) 55 48 →
    c = field (s.bar (Bar.fnIrq f)) 47 32 → (∀ k, due k = decide (0 < (x k).pending ∧ (n ≤ (x k).pending ∨ c = 0 ∨ (x k).since + 1000 * c ≤ s.ns))) →
    (due 0 = false → due 1 = false → exec (.eventInterrupt f) s = .next s) ∧
    ∃ t, exec (.eventInterrupt f) s = .next t ∧ t.mem = s.mem ∧ (∀ k < 2, tgetD t.m.hub.fns (2 * f + k) {} = if due k then { x k with pending := 0 } else x k) ∧
      ((f = 0 ∨ ∃ n < 16, (W.of s).enabled n = true ∧ field (s.bar (Bar.partCtl n)) 31 28 = f) → t.m.hub.irqs = s.m.hub.irqs ++
        (([0, 1].filter due).map fun k => (f, if k = 1 then field (s.bar (Bar.fnIrq f)) 31 16 else field (s.bar (Bar.fnIrq f)) 15 0))) ∧
      ((f ≠ 0 ∧ ∀ n < 16, (W.of s).enabled n = true → field (s.bar (Bar.partCtl n)) 31 28 ≠ f) → t.m.hub.irqs = s.m.hub.irqs)

/-! ## Power, rates, regions (07_islands_and_rates.md, 20_configuration_image.md, 26_power_control.md) -/

/-- R118, R119, R214, R215, R303: a matrix cell that is ready at a step boundary starts a ramp with its quad's SLEW_TAB on its first edge at or after it, unless two of the quad have started
one in the step; a row that became ready within 32 island cycles of the last filler resumes it; at full duty a cell without a row runs its filler steps, 4 island cycles each; a withheld
firing is executed again, once no commit is held and the limiter admits it, and a second parity error of one is 0x310; a held commit spills one record in 8 island cycles, of which the first
counts at once, and 4,096 spilled records are 0x291. -/
def Obligations.RampsAndReplays : Prop :=
  ∀ (s : State) (r cell q edge : Nat) (g : Region) (m : Mx), tget s.m.regions r = some g → tget g.mxs cell = some m → q = siteQuad g cell → edge = (W.of s).edgeOf g cell →
    (W.of s).onEdge g cell = true →
    (∀ (i : Island) (b : Nat), i = g.islandOf cell → b = g.boundary q s.clk.now → i.edge s.clk.now = (if b ≤ i.since then i.edges else i.edge (b - 1)) + 1 →
      ((W.of s).rowReady r cell = true → (W.of s).readyCycle r cell ≤ b → m.needsRamp edge = true → m.filler ≠ 3 → (∀ c ∈ g.mxCells q, c ≠ cell → (s.mx r c).ramp = none ∧ (W.of s).rowReady r c = false) →
        (∀ p, m.ramp = some p → p.grid < b) →
        ∃ t, exec (.rampStart r cell) s = .next t ∧ t.mem = s.mem ∧ t.m.seqs = s.m.seqs ∧ (∀ c, c ≠ cell → t.mx r c = s.mx r c) ∧ (t.mx r cell).acc = m.acc ∧
          (t.mx r cell).ramp = some { start := edge, grid := s.clk.now, entry := 0, table := field (s.bar (Bar.slewTab q)) 15 0, spent := 0, resume := false }) ∧
      (∀ p, (W.of s).rowReady r cell = true → (W.of s).readyCycle r cell ≤ b → m.ramp = some p → m.filler = 3 → m.fillEnd ≤ edge →
        i.edge ((W.of s).readyCycle r cell) < m.idleAt + 32 → ∃ t, exec (.rampStart r cell) s = .next t ∧ t.mem = s.mem ∧
        (t.mx r cell).ramp = some { start := edge, grid := s.clk.now, entry := 0, table := p.table, spent := 0, resume := true }) ∧
      ∀ c d p p', c ∈ g.mxCells q → d ∈ g.mxCells q → c ≠ d → (s.mx r c).ramp = some p → (s.mx r d).ramp = some p' → b ≤ p.grid → b ≤ p'.grid → p.resume = false → p'.resume = false →
        m.filler ≠ 3 → exec (.rampStart r cell) s = .next s) ∧
    (∀ p, m.ramp = some p → (W.of s).rowReady r cell = false →
      (m.filler = 0 ∧ m.free edge = true ∧ p.start ≤ edge ∧ p.duty edge = 4 ∧ 0 < p.spent ∧ edge < m.idleAt + 32 ∨ 0 < m.filler ∧ m.filler < 3 ∧ m.fillEnd ≤ edge) →
      ∃ t, exec (.fillerStep r cell) s = .next t ∧ t.mem = s.mem ∧ (t.mx r cell).filler = m.filler + 1 ∧ (t.mx r cell).fillEnd = edge + 4 ∧ (t.mx r cell).firings = m.firings ∧
        (t.mx r cell).acc = m.acc ∧ t.bar (Bar.quadCounter q 1) = s.bar (Bar.quadCounter q 1) + 1) ∧
    (∀ pre f post, m.firings = pre ++ f :: post → f.suspect = true → (∀ y ∈ pre, y.suspect = false ∧ y.frees ≤ edge) → (∀ y ∈ post, y.suspect = true ∨ y.frees ≤ edge) → m.filler = 0 →
      (m.held (s.cell r cell) edge = true ∨ edge < m.holdTo → exec (.mxReplay r cell false) s = .next s) ∧
      (m.held (s.cell r cell) edge = false → m.holdTo ≤ edge → m.slewAdmits edge (busyOf f.fmt) = true → ∃ t, exec (.mxReplay r cell false) s = .next t ∧ t.mem = s.mem ∧ (t.mx r cell).acc = m.acc ∧
        t.bar (Bar.quadCounter q 3) = s.bar (Bar.quadCounter q 3) + 1 ∧ (t.mx r cell).idleAt = edge + busyOf f.fmt ∧
        (t.mx r cell).firings = pre ++ { f with suspect := false, frees := edge + busyOf f.fmt, commit := edge + busyOf f.fmt + 4 } :: post) ∧
      (m.slewAdmits edge (busyOf f.fmt) = false → exec (.mxReplay r cell false) s = .next s)) ∧
    (∀ pre f, m.firings = pre ++ [f] → f.suspect = false →
      (f.parity = false → ∃ t, exec (.mxReplay r cell true) s = .next t ∧ t.mem = s.mem ∧ (t.mx r cell).firings = pre ++ [{ f with suspect := true, parity := true }]) ∧
      (f.parity = true → MayRaise s g.part ((W.of s).elemAgent ⟨r, cell, f.slot⟩) → ∃ t, exec (.mxReplay r cell true) s = .next t ∧ t.mem = s.mem ∧
        (t.mx r cell).firings = pre ∧ t.raised g.part ((W.of s).elemAgent ⟨r, cell, f.slot⟩) 0x310)) ∧
    ∀ (c : Cell) f rest, c = s.cell r cell → m.firings = f :: rest → m.held c edge = true → c.trap = false → m.holdTo ≤ edge →
      (m.spill.length < 4096 → ∃ t, exec (.ccbSpill r cell) s = .next t ∧ t.mem = s.mem ∧ (t.mx r cell).firings = m.firings ∧ (t.mx r cell).acc = m.acc ∧
        (t.mx r cell).spill.length = m.spill.length + 1 ∧ (t.mx r cell).holdTo = edge + 8 ∧ t.bar (Bar.quadCounter q 0) = s.bar (Bar.quadCounter q 0) + 1) ∧
      (4096 ≤ m.spill.length → MayRaise s g.part ((W.of s).elemAgent ⟨r, cell, f.slot⟩) → ∃ t, exec (.ccbSpill r cell) s = .next t ∧ (t.mx r cell).firings = rest ∧
        t.raised g.part ((W.of s).elemAgent ⟨r, cell, f.slot⟩) 0x291)

/-- R116, R117, R119, R385, R386, R388: a rail falls after its 50 µs hold, and stands when a rise or a fall has reached its target; a sector is clock-gated after 64 idle island cycles,
power-gated after 20 µs where its die enables it, and wakes 250 ns after its arbiter has served its request, at one of four places that each service takes for 200 ns; an island of a
graph that has run out withdraws its vote when it is found drained; a sag of at least DTHR opens a droop window, in which the sector's row firings are withheld, and
what is in flight there takes as many more island edges as the window swallowed. -/
def Obligations.RailsAndSectors : Prop :=
  (∀ (s : State) (quad : Nat) (r : Rail), r = tgetD s.m.rails quad {} →
    (r.st = 2 → r.since + 50000 ≤ s.ns → ∃ t, exec (.railHoldExpire quad) s = .next t ∧ t.mem = s.mem ∧ tgetD t.m.rails quad {} = { r with st := 3, since := r.since + 50000 } ∧
      ∀ j, j ≠ quad → tget t.m.rails j = tget s.m.rails j) ∧
    (r.st ≠ 2 ∨ s.ns < r.since + 50000 → exec (.railHoldExpire quad) s = .next s) ∧
    (r.st = 1 → r.volt s.ns = r.target → ∃ t, exec (.railSettle quad) s = .next t ∧ t.mem = s.mem ∧ tgetD t.m.rails quad {} = { r with mv := r.target, st := 0, since := s.ns } ∧
      ∀ j, j ≠ quad → tget t.m.rails j = tget s.m.rails j) ∧
    (r.st ≠ 1 ∨ r.volt s.ns ≠ r.target → exec (.railSettle quad) s = .next s) ∧ (r.st ≠ 3 ∨ r.volt s.ns ≠ r.target → exec (.railFallEnd quad) s = .next s) ∧
    (r.st = 3 → r.volt s.ns = r.target → ∃ t, exec (.railFallEnd quad) s = .next t ∧ t.mem = s.mem ∧ tgetD t.m.rails quad {} = { r with mv := r.target, st := 0, since := s.ns } ∧
      ∀ j, j ≠ quad → tget t.m.rails j = tget s.m.rails j)) ∧
  (∀ (s : State) (sec : Nat) (x : Sector), x = tgetD s.m.sectors sec {} →
    (∀ k g c, (W.of s).sectorRegion sec = some (k, g) → c = ((g.secIsl.map fun s => sectorSite s.1).find? fun c => g.inSector sec c).getD 0 → g.runsAt s.clk.now = true → x.gate = 0 → x.droop = false →
      x.lastEdge + 64 ≤ (W.of s).edgeOf g c → ∃ t, exec (.clockGate sec) s = .next t ∧ t.mem = s.mem ∧ tgetD t.m.sectors sec {} = { x with gate := 1 } ∧
        (g.rootDone = false → t.m.regions = s.m.regions) ∧ (∀ j, j ≠ sec → tget t.m.sectors j = tget s.m.sectors j) ∧
        (g.rootDone = true → (W.of s).allHalted g = true → tget s.m.regions k = some g → ∀ i y, tget g.isl i = some y → ∃ z, tget (t.region k).isl i = some z ∧
          z = if g.secIsl.all (fun n => n.2 != i || g.quietSector (siteSector g (sectorSite n.1))) = true then { y with vote := 0 } else y)) ∧
    ((s.bar (Bar.railCfg (sec / 160))).getLsbD 8 = true → x.gate ≤ 1 → x.lastNs + 20000 ≤ s.ns → x.droop = false →
      (∀ k g, (W.of s).sectorRegion sec = some (k, g) → g.quietSector sec = true) → ∃ t, exec (.powerGate sec) s = .next t ∧ t.mem = s.mem ∧
        tgetD t.m.sectors sec {} = { x with gate := 2 } ∧ t.m.regions = s.m.regions ∧ ∀ j, j ≠ sec → tget t.m.sectors j = tget s.m.sectors j) ∧
    ((s.bar (Bar.railCfg (sec / 160))).getLsbD 8 = false → exec (.powerGate sec) s = .next s) ∧
    (∀ i up, i = Bar.inrushStat (sec / 160) → x.gate = 3 → x.upNs = some up → (W.of s).wakesWaiting (sec / 160) = [] →
      (up + 250 ≤ s.ns → ∃ t y, exec (.sectorWake sec) s = .next t ∧ t.mem = s.mem ∧ tget t.m.sectors sec = some y ∧ y.gate = 0 ∧ y.lastNs = s.ns ∧ y.upNs = none ∧
        field (t.bar i) 47 16 = max (field (s.bar i) 47 16) (min (s.ns - x.wakeNs) 0xFFFFFFFF) ∧ t.m.regions = s.m.regions) ∧
      (s.ns < up + 250 → ∃ t, exec (.sectorWake sec) s = .next t ∧ t.mem = s.mem ∧ t.m.sectors = s.m.sectors ∧ t.m.regions = s.m.regions ∧ field (t.bar i) 7 0 = 0)) ∧
    ∀ (places : List Nat) free up, places = tgetD s.m.hub.inrush (sec / 160) [0, 0, 0, 0] → free = places.foldl min (places.headD 0) → up = max free x.wakeNs → x.gate = 3 →
      (W.of s).wakesWaiting (sec / 160) = [sec] → up ≤ s.ns → s.ns < up + 250 → ∃ t, exec (.sectorWake sec) s = .next t ∧ t.mem = s.mem ∧
        tgetD t.m.sectors sec {} = { x with upNs := some up } ∧ tget t.m.hub.inrush (sec / 160) = some (places.set (places.findIdx (· == free)) (up + 200))) ∧
  ∀ (s : State) (die sec sag n : Nat) (x : Sector), n = 160 * die + sec → x = tgetD s.m.sectors n {} →
    (10 * field (s.bar (Bar.railCfg die)) 15 12 ≤ sag → die < 4 → sec < 160 → x.droop = false → ∃ t, exec (.droopWindow die sec sag) s = .next t ∧ t.mem = s.mem ∧
      tgetD t.m.sectors n {} = { x with droop := true, droopG := s.clk.now } ∧ t.bar (Bar.quadCounter (n / 4) 2) = s.bar (Bar.quadCounter (n / 4) 2) + 1 ∧
      ∀ r g, (W.of s).sectorRegion n = some (r, g) → tget s.m.regions r = some g → ∀ c m, tget g.mxs c = some m →
        (t.mx r c).firings = if g.inSector n c = true then m.firings.map fun f => { f with suspect := true } else m.firings) ∧
    (sag < 10 * field (s.bar (Bar.railCfg die)) 15 12 → exec (.droopWindow die sec sag) s = .next s) ∧
    (x.droop = true → ∃ t, exec (.droopWindowEnd die sec) s = .next t ∧ t.mem = s.mem ∧
      ((W.of s).sectorRegion n = none → tgetD t.m.sectors n {} = { x with droop := false }) ∧
      ∀ r g c i k, (W.of s).sectorRegion n = some (r, g) → tget s.m.regions r = some g → c = ((g.secIsl.map fun s => sectorSite s.1).find? fun c => g.inSector n c).getD 0 →
        i = g.islandOf c → k = i.edge (g.lastCycle s.clk.now) - i.edge (x.droopG - 1) →
          tgetD t.m.sectors n {} = { x with droop := false, lastEdge := x.lastEdge + k, wakeEdge := x.wakeEdge + k } ∧
          (∀ c m, tget g.mxs c = some m → tget (t.region r).mxs c = some (if g.inSector n c = true then m.delay k else m)) ∧
          (∀ c y, tget g.cells c = some y → tget (t.region r).cells c = some (if g.inSector n c = true then { y with readTo := y.readTo + k, writeTo := y.writeTo + k } else y)) ∧
          ∀ e y, tget g.elems e = some y → tget (t.region r).elems e = some (if g.inSector n (e / 8) = true then { y with
            flights := y.flights.map (fun f => { f with due := f.due + k }), dryAt := y.dryAt.map fun d => (d.1 + k, d.2) } else y)) ∧
    (x.droop = false → exec (.droopWindowEnd die sec) s = .next s)

/-- R36, R112 to R115, R290, R382 to R384, R345, R416, R417: a solve answers a region's trigger with the first rate that fits within its partition's cap and the package's budget, and raises votes, or
leaves the region as it is, and may clone a marked operator of a running region whole into spare quads of the region's die (the die is the model's choice, log 15); the grant takes effect at a multiple of 4,096 grid cycles with every rail of the region settled and its sectors awake and out of droop windows, after the solve's own (what a sector's agreement is, and the 100 µs of a back-pressure
counter, are the model's choices, logs 57 and 83), and a region's first releases its sequencers; a
millisecond adds PRIO tokens up to TOKMAX and the energy measured; a die above its limit puts the package into throttle. -/
def Obligations.RatesAndBudgets : Prop :=
  (∀ (s : State) (r : Nat) (g : Region) (o : Option Graph.Grant), tget s.m.regions r = some g → g.phase = .unsolved ∨ g.runsAt s.clk.now = true → g.trigger = true → g.pending = none →
    (s.part g.part).halted = false → s.m.hub.solves = [] →
    o = (graphOf g.frames g.ints g.sink g.secIsl g.isl.length).solve g.rate ((W.of s).trim (regionQuad g 0) / 10) (((s.part g.part).scaleN : Rat) / ((s.part g.part).scaleD : Rat))
      (fun n => (match (W.of s).capOf g.part with
          | some c => decide ((W.of s).estimateOf (fun k x => k != r && x.part == g.part) + n ≤ c * 1000000)
          | none => true) &&
        decide ((W.of s).estimateOf (fun k _ => k != r) + n ≤ (W.of s).budget)) →
    (o = none → ∃ t, exec (.rateSolve r) s = .next t ∧ t.mem = s.mem ∧ (t.region r).trigger = false ∧ (t.region r).pending = none ∧ (t.region r).granted = g.granted ∧
      (t.region r).isl = g.isl ∧ t.m.rails = s.m.rails ∧
      (g.runs = false ∨ (Layout.of g.frames).operators = [] → t.region r = { g with trigger := false, press := 0, pressedAt := none })) ∧
    (∀ op own, g.runs = true → (Layout.of g.frames).operators = [op] → own = (op.map fun k => siteQuad g (k / 8)).eraseDups → (∀ k ∈ op, (tgetD g.elems k {}).copies = []) →
      ∃ t n got, exec (.rateSolve r) s = .next t ∧ t.mem = s.mem ∧ got <+: ((List.range 40).map (40 * g.die + ·)).filter ((W.of s).quadFree g.part) ∧ got.length = n * own.length ∧
        (t.region r).spare = g.spare ++ got ∧ ∀ k x, tget g.elems k = some x → ∃ y, tget (t.region r).elems k = some y ∧ y.word = x.word ∧
          y.copies = (if k ∈ op ∧ n ≠ 0 then siteQuad g (k / 8) :: (List.range n).map fun j =>
            got.getD (j * own.length + own.findIdx (· == siteQuad g (k / 8))) (siteQuad g (k / 8)) else x.copies)) ∧
    ∀ x, o = some x → ∃ t, exec (.rateSolve r) s = .next t ∧ t.mem = s.mem ∧ (t.region r).trigger = false ∧ (t.region r).granted = g.granted ∧ t.m.seqs = s.m.seqs ∧
      (t.region r).pending = some (x.fr.map fun f => (f.1, f.2.num.toNat, f.2.den), x.rate, decide (x.rate < g.rate), x.power) ∧
      ∀ i y, tget g.isl i = some y → ∃ z, tget (t.region r).isl i = some z ∧ z.p = y.p ∧ z.q = y.q ∧ y.vote ≤ z.vote) ∧
  (∀ (s : State) (r : Nat) (g : Region) (ps : List (Nat × Nat × Nat)) (rate power : Nat) (lower : Bool), tget s.m.regions r = some g → g.pending = some (ps, rate, lower, power) →
    (s.clk.now % 4096 ≠ 0 ∨ s.clk.now ≤ g.solvedAt → exec (.switchCycle r) s = .next s) ∧
    (s.clk.now % 4096 = 0 → g.solvedAt < s.clk.now →
      (∀ n ∈ g.secIsl, (tgetD s.m.sectors (siteSector g (sectorSite n.1)) {}).gate ≠ 3 ∧ (tgetD s.m.sectors (siteSector g (sectorSite n.1)) {}).droop = false) → (∀ q ∈ regionQuads g, (tgetD s.m.rails q {}).st ≠ 1 ∧ (W.of s).quadVote q ≤ (tgetD s.m.rails q {}).volt s.ns) → g.phase = .unsolved ∨ g.runsAt s.clk.now = true →
      (s.part g.part).halted = false → (ps.map (·.1)).Nodup → ∃ t, exec (.switchCycle r) s = .next t ∧ t.mem = s.mem ∧ (t.region r).pending = none ∧ (t.region r).granted = rate ∧
        (t.region r).lower = lower ∧ (t.region r).solveNo = (g.solveNo + 1) % 256 ∧ (t.region r).phase = (if g.phase = .unsolved then .running else g.phase) ∧
        (∀ i p q y, (i, p, q) ∈ ps → tget g.isl i = some y → ∃ z, tget (t.region r).isl i = some z ∧ z.p = p ∧ z.q = q ∧ z.since = s.clk.now ∧
          z.edges = y.edge (s.clk.now - 1) ∧ z.vote = Graph.voteOf p q) ∧
        (∀ q sq, q ∈ regionQuads g → g.phase = .unsolved → tget s.m.seqs q = some sq → tget t.m.seqs q = some { sq with released := true }) ∧
        (g.phase ≠ .unsolved → t.m.seqs = s.m.seqs))) ∧
  (∀ (s : State) (r : Nat) (g : Region), tget s.m.regions r = some g →
    (∀ n, g.runs = true → g.pressedAt = some n → n + 100000 ≤ s.ns → ∃ t, exec (.backPressureThreshold r) s = .next t ∧ t.mem = s.mem ∧
      tget t.m.regions r = some { g with trigger := true, press := 0, pressedAt := none } ∧ ∀ j, j ≠ r → tget t.m.regions j = tget s.m.regions j) ∧
    (g.pressedAt = none → exec (.backPressureThreshold r) s = .next s) ∧
    ∀ n, g.pressedAt = some n → s.ns < n + 100000 → exec (.backPressureThreshold r) s = .next s) ∧
  (∀ (s : State) (n k top rate : Nat), n < 16 → k = field (s.bar (Bar.partTok n)) 15 0 → top = field (s.bar (Bar.partCtl n)) 55 40 → rate = field (s.bar (Bar.partCtl n)) 39 32 →
    (s.part n).refills < s.ns / 1000000 →
    ((s.part n).refilled.1 ≠ s.clk.now + 1 → ∃ t, exec (.prioTokenRefill n) s = .next t ∧ t.mem = s.mem ∧
      field (t.bar (Bar.partTok n)) 15 0 = max k (min top (k + rate)) ∧ (t.part n).refills = (s.part n).refills + 1) ∧
    ((s.part n).refilled.1 = s.clk.now + 1 → exec (.prioTokenRefill n) s = .next s)) ∧
  (∀ (s : State) (n uj credit : Nat), n < 16 → (s.part n).meters < s.ns / 1000000 → ∃ t, exec (.energyMeterUpdate n uj credit) s = .next t ∧ t.mem = s.mem ∧
    t.bar (Bar.partEnergy n) = s.bar (Bar.partEnergy n) + BitVec.ofNat 64 uj ∧ t.bar (Bar.partCredit n) = s.bar (Bar.partCredit n) + BitVec.ofNat 64 credit ∧
    (t.part n).meters = (s.part n).meters + 1 ∧
    ((∀ c, (W.of s).capOf n = some c → uj ≤ 1000 * c) → (t.part n).overCap = 0 ∧ t.m.regions = s.m.regions) ∧
    ∀ c, (W.of s).capOf n = some c → 1000 * c < uj → (s.part n).overCap = 1 → ∀ k g, tget s.m.regions k = some g → g.part = n → g.runs = true → (t.region k).trigger = true) ∧
  ∀ (s : State) (d : Nat) (temp : BitVec 16), d < 5 → ∃ t, exec (.tempSample d temp) s = .next t ∧ t.mem = s.mem ∧ field (t.bar (Bar.temp d)) 15 0 = temp.toNat ∧
    s16 (field (t.bar (Bar.temp d)) 31 16) = max (s16 (field (s.bar (Bar.temp d)) 31 16)) (s16 temp.toNat) ∧
    ((W.of s).tlim d < s16 temp.toNat → t.m.hub.throttle = true) ∧
    (s16 temp.toNat ≤ (W.of s).tlim d → s.m.hub.throttle = false → t.m.hub.throttle = false)

/-- R35, R72, R127, R309, R310, R346, R350: the allocator gives a queue's first waiting LAUNCH that can be placed the first rectangle of free quads, and it stops waiting; the loader configures a
region from an image that passes its checks, with the control stores it loads, once its agents see what the LAUNCH's binding has acquired, or halts the partition with the check's code and
returns the region; a region whose root has finished and all of whose sequencers have halted returns, and its LAUNCH's work is over; memory stands, but for the flag word of a partition no
other task of which runs (R367).

R312 to R316: the one loader applies the oldest section request once it passes its checks against the running configuration: its stages are to switch, and their producers that stay put a reconfiguration
token behind their results; a failure halts the partition with the check's code. A stage switches on an edge on which all its named positions hold such tokens: it takes its
new word, and they are empty; what it holds at a position that none names stays; with the last one the version rises and a re-solve follows. -/
def Obligations.RegionsAndImages : Prop :=
  ((∀ (s : State) (q n i : Nat) (l : Launch) (p : Nat × Nat × Nat) (g : Region), (W.of s).waiting.find? (fun x => x.1 == q && x.2.2.saved.isNone && ((W.of s).grantOf x).isSome) = some (q, i, l) →
    n = (W.of s).queuePart q → g = l.region n q p → (W.of s).grantOf (q, i, l) = some p → ∃ t, exec (.regionAllocate q) s = .next t ∧
      ((W.of s).anyRunning n = true ∨ (s.part n).parked = false ∨ (∃ m off, s.hubAt n ((W.of s).ctxAt n 8) .read m off) → t.mem = s.mem) ∧ t.m.seqs = s.m.seqs ∧ tget t.m.regions (regionKey g) = some g ∧
      (∀ j, j ≠ regionKey g → tget t.m.regions j = tget s.m.regions j) ∧
      ((W.of s).anyRunning n = true ∨ (s.part n).parked = false → (t.part n).flags = (s.part n).flags) ∧
      t.queue q = { (s.queue q).placed i s.ns with
        since := if (s.queue q).ready = false ∧ ((s.queue q).placed i s.ns).ready = true then s.ns else (s.queue q).since } ∧
      (∀ x ∈ regionQuads g, (W.of s).quadFree n x = true) ∧ ∀ x ∈ regionQuads g, ∀ k < 4, ∃ y, tget t.m.sectors (4 * x + k) = some y ∧ y.gate = 0) ∧
  (∀ (s : State) (q : Nat), (∀ x ∈ (W.of s).waiting, x.1 = q → x.2.2.saved = none → (W.of s).grantOf x = none) → exec (.regionAllocate q) s = .next s) ∧
  (∀ (s : State) (r : Nat) (g : Region) (w0 : W), tget s.m.regions r = some g → g.phase = .allocated → (s.part g.part).halted = false →
    w0 = (W.of s).setHub (fun h => { h with loadRef := newer h.loadRef g.popRef }) →
    (∀ w tb fs g', w0.readImage r g.part g.image g.qw g.qh = (w, .ok (.ok (tb, fs))) →
      g' = { g.configure tb fs with rate := (match g.resume with | some (_, n) => n | none => (g.configure tb fs).rate), resume := none } → ∃ t, exec (.imageLoad r) s = .next t ∧ t.mem = s.mem ∧
      ((((w.loadDone r).setRegion r fun _ => g').loadSeqs g (Layout.of fs)).regionSees r g' = true → tget t.m.regions r = some g') ∧
      ((((w.loadDone r).setRegion r fun _ => g').loadSeqs g (Layout.of fs)).regionSees r g' = false → t.m.regions = s.m.regions ∧ t.m.seqs = s.m.seqs) ∧ (∀ j, j ≠ r → tget t.m.regions j = tget s.m.regions j) ∧
      ∀ q, q ∉ regionQuads g → (∀ c ∈ (Layout.of fs).code, regionQuad g c.1 ≠ q) → tget t.m.seqs q = tget s.m.seqs q) ∧
    (∀ w f, w0.readImage r g.part g.image g.qw g.qh = (w, .ok (.error f)) → MayRaise s g.part (W.of s).loaderAgent → ∃ t, exec (.imageLoad r) s = .next t ∧
      ((∃ k y, k ≠ r ∧ tget s.m.regions k = some y ∧ y.part = g.part) → t.mem = s.mem) ∧ t.raised g.part (W.of s).loaderAgent (0x080 + 16 * f.unit + f.cond) ∧ tget t.m.regions r = none)) ∧
  ∀ (s : State) (r : Nat) (g : Region), tget s.m.regions r = some g →
    (g.phase = .running → g.rootDone = true → (∀ q ∈ regionQuads g, ∀ sq, tget s.m.seqs q = some sq → sq.released = true → sq.halted = true) → (s.part g.part).halted = false →
      ∃ t, exec (.regionRelease r) s = .next t ∧
        ((∃ k y, k ≠ r ∧ tget s.m.regions k = some y ∧ y.part = g.part) → t.mem = s.mem) ∧
        tget t.m.regions r = none ∧ (∀ q ∈ regionQuads g, tget t.m.seqs q = none) ∧ (∀ q, q ∉ regionQuads g → q ∉ g.spare → tget t.m.seqs q = tget s.m.seqs q) ∧
        ∀ j, s.job g.queue g.job = some j → ∃ k, t.job g.queue g.job = some k ∧ k.done = true ∧ k.agent = (W.of s).seqAgent (regionQuad g 0) ∧ k.sigop = j.sigop ∧ k.killed = j.killed) ∧
    (g.rootDone = false → exec (.regionRelease r) s = .next s)) ∧
  ((∀ (s : State) (r : Nat) (g : Region) (q : SecReq) (rest : List SecReq) (w : W) tb ses e first bytes, tget s.m.regions r = some g → g.secQ = q :: rest → g.runsAt s.clk.now = true → (W.of s).loaderFree q = true →
    q.at' < s.clk.now → (s.part g.part).halted = false →
    ((W.of s).setHub fun h => { h with loadRef := newer h.loadRef q.ref }).readSection r g q.sec = (w, .ok (.ok (tb, ses, e, first, bytes))) →
    (∀ f, sectionFail g.qw g.qh g.frames g.ints (sectionInts tb.ints q.sec) g.sink g.rate g.isl.length g.secIsl (ses.map (·.num)) e bytes first = some f →
      MayRaise s g.part (W.of s).loaderAgent → ∃ t, exec (.sectionApply r) s = .next t ∧ t.mem = s.mem ∧ t.raised g.part (W.of s).loaderAgent (0x080 + 16 * f.unit + f.cond) ∧
        t.region r = g) ∧
    ∀ ks, sectionFail g.qw g.qh g.frames g.ints (sectionInts tb.ints q.sec) g.sink g.rate g.isl.length g.secIsl (ses.map (·.num)) e bytes first = none →
      ks = rewritten (Layout.of g.frames) (Layout.of (applyFrames g.frames (indexed first ((chunks 32 e.nf bytes).map frameOf)))) → ks ≠ [] → ∃ t, exec (.sectionApply r) s = .next t ∧ t.mem = s.mem ∧
        (t.region r).secQ = rest ∧ (t.region r).applying = some q ∧ (t.region r).version = g.version ∧ (∀ k ∈ ks, tget (t.region r).secLeft k = some (tgetD g.elems k {}).named) ∧
        ∀ k x, tget g.elems k = some x → tget (t.region r).elems k = some (if k ∈ ks then x else x.mark ((g.islandOf (k / 8)).edge s.clk.now + 1) ks.contains)) ∧
  (∀ (x : Elem) (due : Nat) (p : Nat → Bool) (c : Nat), x.opc < 0xB0 → x.targetB = none → ∀ t, x.targetA = some t → t.pos ≠ 3 → c = ekey t.cell t.port →
    x.mark due p = if p c = true then { x with flights := x.flights ++ [{ due := due, a := some { reconf := true }, via := some x.word }] } else x) ∧
  ∀ (s : State) (r cell slot k named : Nat) (g : Region) (x : Elem) (q : SecReq) (l : Layout), k = ekey cell slot → tget s.m.regions r = some g → tget g.elems k = some x →
    tget g.secLeft k = some named → g.applying = some q → l = Layout.of (applyFrames g.frames g.secFrames) → (W.of s).onEdge g cell = true → x.opc < 0xB0 →
    ((∀ p < 3, named.testBit p = true → ∃ y, x.inAt p = some y ∧ y.reconf = true) → ∃ t, exec (.stageSwitch r cell slot) s = .next t ∧ t.mem = s.mem ∧
      (l.word k ≠ 0 ∨ tdel g.secLeft k ≠ [] → (t.elem ⟨r, cell, slot⟩).word = l.word k ∧
        ∀ p < 3, (t.elem ⟨r, cell, slot⟩).inAt p = if named.testBit p = true then none else x.inAt p) ∧
      tget (t.region r).secLeft k = none ∧ (t.region r).version = (if tdel g.secLeft k = [] then g.version + 1 else g.version) ∧
      ((t.region r).applying = if tdel g.secLeft k = [] then none else some q) ∧
      (tdel g.secLeft k = [] → (t.region r).trigger = true)) ∧
    (∀ p < 3, named.testBit p = true → x.inAt p = none → exec (.stageSwitch r cell slot) s = .next s))

/-! ## Faults, pre-emption, translation (24, 25, 27) -/

/-- R355 to R357, R360, R361: the hub accepts a partition's halts: the first fault, of equally early ones that of the lowest agent, is its cause; its regions return, its packets end, and its
queues, also one whose descriptor was still to be read, are idle with EN = 0. A queue's timer at T1 pre-empts its oldest LAUNCH by the partition's PMODE, once, and at T1 + T2 halts the partition with 0x3F2.

R281, R351, R361, R363, R364: of a queue's waiting LAUNCHes the first that cannot be placed and may do so pre-empts a task of a lower level, for as many tokens as it has quads, of what the balance held before a refill of the same hub cycle; a drain sets PEND in every sequencer of the region
that has not halted; a checkpoint stops every island at the first multiple of 64 grid cycles that is at least 256 after its acceptance; a task without an entry, and one that is to be killed, ends with its LAUNCH's signal unperformed;
a drain that takes longer than T2 becomes a checkpoint. -/
def Obligations.HaltsAndPreemption : Prop :=
  ((∀ (s : State) (n : Nat) (p : Part), p = s.part n →
    (p.halted = false → p.halts ≠ [] → ∃ t, exec (.haltAccept n) s = .next t ∧ (t.part n).halted = true ∧
      (∃ h ∈ p.halts, (t.part n).cause = h.code ∧ ∀ y ∈ p.halts, h.time < y.time ∨ (h.time = y.time ∧ h.agent ≤ y.agent)) ∧
      (∀ k g, tget t.m.regions k = some g → g.part ≠ n) ∧ (t.part n).saved = [] ∧
      (∀ q u, q < 1024 → tget s.m.queues q = some u → (W.of s).queuePart q = n → (t.queue q).on = false ∧ (t.queue q).jobs = [] ∧ (t.queue q).launches = [] ∧
        (t.bar (Bar.qCfg q)).getLsbD 63 = false ∧ (t.bar (Bar.qCfg q)).getLsbD 0 = true) ∧
      (∀ q < 1024, (W.of s).queuePart q = n → (s.bar (Bar.qCfg q)).getLsbD 63 = true → (t.bar (Bar.qCfg q)).getLsbD 63 = false ∧ (t.bar (Bar.qCfg q)).getLsbD 0 = true) ∧
      ∀ m, m ≠ n → (t.part m).halted = (s.part m).halted ∧ (t.part m).halts = (s.part m).halts ∧ (t.part m).flags = (s.part m).flags) ∧
    (p.halted = true ∨ p.halts = [] → exec (.haltAccept n) s = .next s)) ∧
  (∀ (s : State) (q n : Nat) (u : Queue), tget s.m.queues q = some u → n = (W.of s).queuePart q → (W.of s).timerRuns q = true → (W.of s).t1 q ≠ 0 →
    (∀ r g, (W.of s).t1 q ≤ (W.of s).timer q → u.t1 ≠ some u.progress → (s.m.regions.filter fun g => g.2.queue == q && g.2.runs) = [(r, g)] → tget s.m.regions r = some g → g.preempt = none →
      ∃ t, exec (.watchdogT1 q) s = .next t ∧ t.mem = s.mem ∧ (t.queue q).t1 = some u.progress ∧ t.region r = { g with preempt := some (field (s.bar (Bar.partCtl g.part)) 23 22, s.clk.now) }) ∧
    ((W.of s).t1 q ≤ (W.of s).timer q → u.t1 ≠ some u.progress → (∀ x ∈ s.m.regions, x.2.queue ≠ q) → ∃ t, exec (.watchdogT1 q) s = .next t ∧ (t.queue q).t1 = some u.progress ∧
      t.m.regions = s.m.regions ∧ t.m.seqs = s.m.seqs) ∧
    ((W.of s).timer q < (W.of s).t1 q ∨ u.t1 = some u.progress → exec (.watchdogT1 q) s = .next s) ∧
    ((W.of s).t1 q + (W.of s).t2 n ≤ (W.of s).timer q → MayRaise s n ((W.of s).cpAgent q) → ∃ t, exec (.watchdogT2 q) s = .next t ∧ t.mem = s.mem ∧
      t.raised n ((W.of s).cpAgent q) 0x3F2 ∧ t.m.regions = s.m.regions) ∧
    ((W.of s).timer q < (W.of s).t1 q + (W.of s).t2 n → exec (.watchdogT2 q) s = .next s))) ∧
  ((∀ (s : State) (q i n v c tokens : Nat) (l : Launch) (g : Region) (rest : List (Nat × Nat × Launch)), (W.of s).waiting.filter (fun x => x.1 == q) = (q, i, l) :: rest → n = (W.of s).queuePart q →
    (W.of s).place n l.qw l.qh = none → l.victim = none → (W.of s).victims n l = [(v, g)] → tget s.m.regions v = some g → c = g.qw * g.qh + g.spare.length →
    tokens = (W.of s).purse n → tokens < 65536 →
    ((s.part n).refilled.1 ≠ s.clk.now + 1 → tokens = field (s.bar (Bar.partTok n)) 15 0) ∧
    (field (s.bar Bar.devCfg) 47 32 < (W.of s).remaining g → c ≤ tokens → ∃ t, exec (.preemptDecision q) s = .next t ∧ t.mem = s.mem ∧
      field (t.bar (Bar.partTok n)) 15 0 = (if (s.part n).refilled.1 = s.clk.now + 1 then (W.of s).refill n (tokens - c) else tokens - c) ∧ t.region v = { g with preempt := some (field (s.bar (Bar.partCtl g.part)) 23 22, s.clk.now) } ∧
      (t.queue q).launches = (s.queue q).launches.modify i fun l => { l with victim := some v }) ∧
    ((∀ x ∈ rest, (W.of s).decision q x.2.1 x.2.2 = none) → tokens < c ∨ (W.of s).remaining g ≤ field (s.bar Bar.devCfg) 47 32 → exec (.preemptDecision q) s = .next s)) ∧
  ∀ (s : State) (r t0 : Nat) (g : Region), tget s.m.regions r = some g → (s.part g.part).halted = false →
    (g.preempt = some (2, t0) → ∃ t, exec (.kill r) s = .next t ∧ tget t.m.regions r = none ∧ (∀ q ∈ regionQuads g, tget t.m.seqs q = none) ∧
      ∀ j, s.job g.queue g.job = some j → ∃ k, t.job g.queue g.job = some k ∧ k.done = true ∧ k.killed = true) ∧
    ((∀ x, g.preempt ≠ some (2, x)) → exec (.kill r) s = .next s) ∧
    (g.preempt = some (0, t0) → g.phase = .running → ∀ w o, (W.of s).freeEntry g.queue g.part 3 = (w, .ok o) →
      (o ≠ none → ∃ t, exec (.drainPreempt r) s = .next t ∧ t.mem = s.mem ∧ t.region r = { g with phase := .saving true s.clk.now } ∧
        (∀ q sq, q ∈ regionQuads g → tget s.m.seqs q = some sq → (t.seq q).pend = (!sq.halted || sq.pend) ∧ (t.seq q).regs = sq.regs ∧ (t.seq q).pc = sq.pc) ∧
        ∀ q, q ∉ regionQuads g → tget t.m.seqs q = tget s.m.seqs q) ∧
      (o = none → ∃ t, exec (.drainPreempt r) s = .next t ∧ tget t.m.regions r = none)) ∧
    (g.preempt = some (1, t0) → g.phase = .running → (t0 + 256 + 63) / 64 * 64 ≤ s.clk.now → ∀ w o, (W.of s).freeEntry g.queue g.part (3 + 69 * g.qw * g.qh) = (w, .ok o) →
      (o ≠ none → ∃ t, exec (.checkpoint r) s = .next t ∧ t.mem = s.mem ∧ (t.region r).phase = .saving false s.clk.now ∧ (t.region r).pending = none ∧ (t.region r).elems = g.elems ∧
        (∀ i y, tget g.isl i = some y → ∃ z, tget (t.region r).isl i = some z ∧ z.p = 0 ∧ z.edges = y.edge ((t0 + 256 + 63) / 64 * 64 - 1)) ∧
        ∀ c m, tget g.mxs c = some m → ∀ f ∈ (t.mx r c).firings, f.suspect = true) ∧
      (o = none → ∃ t, exec (.checkpoint r) s = .next t ∧ tget t.m.regions r = none)) ∧
    (g.preempt = some (1, t0) → s.clk.now < (t0 + 256 + 63) / 64 * 64 → exec (.checkpoint r) s = .next s) ∧
    (g.preempt = some (0, t0) → g.runs = true →
      (5 * (W.of s).t2 g.part ≤ s.clk.now - t0 → ∃ t, exec (.drainTimeout r) s = .next t ∧ t.mem = s.mem ∧ t.region r = { g with preempt := some (1, s.clk.now), phase := .running } ∧
        t.m.seqs = s.m.seqs) ∧
      (s.clk.now - t0 < 5 * (W.of s).t2 g.part → exec (.drainTimeout r) s = .next s)))

/-- R293, R364 to R370: a drain is complete once every released sequencer is ready or halted with no load, store or copy outstanding, a checkpoint's saving once every request of the task has
returned, the read of a word that a wait has found too low being none (it is sent again); the task's image and entry are written, its quads return, and it waits in its queue for new ones. A restore checks what it reads: it puts the task on the quads that the
allocator gives, a checkpoint's banks and matrix cells holding what its image holds, once its agents see what they had seen, or halts the partition with 0x3F5. -/
def Obligations.SavingAndRestoring : Prop :=
  (∀ (s : State) (r since e : Nat) (g : Region) (base : W64) w, tget s.m.regions r = some g → (s.part g.part).halted = false →
    (g.phase = .saving true since → (W.of s).freeEntry g.queue g.part 3 = (w, .ok (some (e, base))) → (W.of s).drained g = true →
      ∀ w1 w2 w3 runs, w1 = (regionQuads g).foldl (fun w q => w.setSeq q fun sq => { sq with outs := [], wait := none, regAt := [] }) w →
        runs = (w1.regionSeqs g).flatMap (fun x => if x.2.released then (seqRuns x.2 (tgetD w1.m.rings (regionQuad g x.1) {})).map fun y => (0x10000 * x.1 + y.1, y.2) else []) ++
          (List.range (g.qw * g.qh)).map (fun k => (0x10000 * k + (w1.pmcRun (regionQuad g k)).1, (w1.pmcRun (regionQuad g k)).2)) →
        w1.putRuns g.queue g.part base runs = (w2, .ok ()) → w2.putEntry g e 2 = (w3, .ok ()) →
      ∃ t y l, exec (.drainComplete r) s = .next t ∧ tget t.m.regions r = none ∧ (∀ q ∈ regionQuads g, tget t.m.seqs q = none) ∧ tget (t.part g.part).saved e = some y ∧
        y.drain = true ∧ y.base = base ∧ y.region.image = g.image ∧ y.region.elems = [] ∧ y.seqs = w1.regionSeqs g ∧ (t.bar (Bar.partCtxb g.part)).getLsbD 0 = true ∧
        (t.queue g.queue).launches = (s.queue g.queue).launches ++ [l] ∧ l.saved = some e ∧ l.image = g.image ∧ l.level = g.level ∧ l.qw = g.qw ∧ l.qh = g.qh) ∧
    (g.phase = .saving true since → (W.of s).drained g = false → exec (.drainComplete r) s = .next s) ∧
    (g.phase = .saving false since → (W.of s).freeEntry g.queue g.part (3 + 69 * g.qw * g.qh) = (w, .ok (some (e, base))) →
      (∀ x ∈ s.m.bus.reqs, x.src.ofRegion r (regionQuads g) = false ∨ (W.of s).lowWait x = true) → ∀ w1 w2 w3, w.putRuns g.queue g.part base ((List.range (g.qw * g.qh)).flatMap (w.quadRuns r)) = (w1, .ok ()) →
        w1.putPrivate g.queue g.part base ((List.range (g.qw * g.qh)).flatMap (privateAreas g.qw)) = (w2, .ok ()) → w2.putEntry g e 1 = (w3, .ok ()) →
      ∃ t y l, exec (.checkpointSaveComplete r) s = .next t ∧ tget t.m.regions r = none ∧ (∀ q ∈ regionQuads g, tget t.m.seqs q = none) ∧ tget (t.part g.part).saved e = some y ∧
        y.drain = false ∧ y.base = base ∧ y.region = { g with cov := w3.regionKnows r g } ∧ y.seqs = (W.of s).regionSeqs g ∧
        y.watches = s.m.bus.reqs.filter (fun x => x.src.ofRegion r (regionQuads g) && (W.of s).lowWait x) ∧ (t.bar (Bar.partCtxb g.part)).getLsbD 0 = true ∧
        (t.queue g.queue).launches = (s.queue g.queue).launches ++ [l] ∧ l.saved = some e ∧ l.image = g.image ∧ l.level = g.level ∧ l.qw = g.qw ∧ l.qh = g.qh) ∧
    (g.phase = .saving false since → (∃ x ∈ s.m.bus.reqs, x.src.ofRegion r (regionQuads g) = true ∧ (W.of s).lowWait x = false) → exec (.checkpointSaveComplete r) s = .next s)) ∧
  ∀ (s : State) (q i e n : Nat) (l : Launch) (p : Nat × Nat × Nat), (W.of s).waiting.find? (fun x => x.1 == q && x.2.2.saved.isSome && ((W.of s).grantOf x).isSome) = some (q, i, l) → l.saved = some e →
    (W.of s).grantOf (q, i, l) = some p → n = (W.of s).queuePart q →
    (tget (s.part n).saved e = none → MayRaise s n ((W.of s).cpAgent q) → ∃ t, exec (.restore q) s = .next t ∧ t.mem = s.mem ∧ t.raised n ((W.of s).cpAgent q) 0x3F5) ∧
    ∀ y w1 w2 hdr rh ent re, tget (s.part n).saved e = some y → (W.of s).hubGet (.cp q) n ((W.of s).ctxAt n 0) 16 = (w1, .ok (hdr, rh)) →
      w1.hubGet (.cp q) n (w1.ctxAt n (entryOff e)) 64 = (w2, .ok (ent, re)) →
      (restoreOk hdr (taskEntryOf ent) y q = false → MayRaise s n ((W.of s).cpAgent q) → ∃ t, exec (.restore q) s = .next t ∧ t.mem = s.mem ∧ t.raised n ((W.of s).cpAgent q) 0x3F5) ∧
      ∀ w3 w4 w5 areas fab ids g, restoreOk hdr (taskEntryOf ent) y q = true → w2.readAreas q n y.base (List.range (y.region.qw * y.region.qh)) = (w3, .ok areas) →
        (if y.drain = true then w4 = w3 ∧ fab = ([], []) else w3.readFabric q n y.base y.region.qw (y.region.qw * y.region.qh) = (w4, .ok fab)) →
        w4.hubPut (.cp q) n (w4.ctxAt n (entryOff e + 12)) {} [0] = (w5, .ok ids) → (∀ u ∈ w5.m.bus.unseen, (if y.drain = true then l.cov else y.region.cov).covers u = false) →
        g = regionKey (if y.drain = true then l.region n q p else { y.region with die := p.1, qx := p.2.1, qy := p.2.2 }) →
        ∃ t x, exec (.restore q) s = .next t ∧ tget t.m.regions g = some x ∧ x.die = p.1 ∧ x.qx = p.2.1 ∧ x.qy = p.2.2 ∧ tget (t.part n).saved e = none ∧
          (y.drain = true → x.phase = .allocated ∧ x.image = l.image ∧ ∃ z, x.resume = some z) ∧
          (y.drain = false → x.phase = .unsolved ∧ x.banks = fab.1 ∧ x.mxs = y.region.withMxs fab.2 fab.1 ∧
            ∀ k z, tget y.region.elems k = some z → ∃ cs n p, tget x.elems k = some { z with copies := cs, turn := n, pass := p })

/-- R371 to R379: a walk that one of its die's walkers has taken and that ends at a leaf fills the hub's TLB, or its die's, and is over; an absent entry is one fault-queue entry for all its agents, which then waits, or fatal to them
when its queue takes none; a broken table is fatal. A RETRY puts the walk of its entry in flight again; an ABORT is fatal to its agents.

R340, R380, R381: TLB_INV removes the entries that it names from every TLB, and no other, and BUSY falls when every access that had translated through one has been performed, and every write that
some agent had still to see; while it is 1 a write is discarded. A host's access through BAR2 reads without changing memory, writes its bytes at the home copy of its place and sends them to
the others, or performs an AtomicOp there; a function without
tables has no access. -/
def Obligations.TranslationAndHost : Prop :=
  ((∀ (s : State) (k : Walk), s.m.mmu.walks.find? (fun x => x.id == k.id && !x.held) = some k → (W.of s).walking k = false → exec (.pageWalk k.id) s = .next s) ∧
  (∀ (s : State) (k : Walk), s.m.mmu.walks.find? (fun x => x.id == k.id && !x.held) = some k → (W.of s).walking k = true → k.pre = false →
    (∀ e size, (W.of s).walk k.part k.va = .leaf e size → (s.m.mmu.tlb.filter fun x => x.unit == k.die).length < unitCap k.die → ∃ t x, exec (.pageWalk k.id) s = .next t ∧ t.mem = s.mem ∧
      (∀ y ∈ t.m.mmu.walks, y.id ≠ k.id) ∧ x ∈ t.m.mmu.tlb ∧ x.unit = k.die ∧ x.part = k.part ∧ x.va = k.va.toNat / 2 ^ size ∧ x.size = size ∧ t.m.parts = s.m.parts) ∧
    (∀ level d a head, (W.of s).walk k.part k.va = .absent level → d = k.die → (W.of s).fqOn d k.part = true → (W.of s).fqFull d = false → s.mem.wf = true → d < 5 →
      head = field (s.bar (Bar.fqPtr d)) 31 0 → a = field (s.bar (Bar.fqCfg d)) 51 12 * 2 ^ 12 + 32 * (head % (W.of s).fqSize d) → a + 32 ≤ maxInterleave → ∃ t y, exec (.pageWalk k.id) s = .next t ∧
        memBytes t.mem (keyDie (homeDie a) (dieOffset a)) 32 = leBytes 32 (packFields [(64, k.va.toNat), (32, k.agents.headD 0), (8, k.part), (8, k.access), (8, level), (8, 0),
          (64, s.ns), (64, 0)]) ∧
        (∀ b, b < keyDie (homeDie a) (dieOffset a) ∨ keyDie (homeDie a) (dieOffset a) + 32 ≤ b → t.byte b = s.byte b) ∧
        field (t.bar (Bar.fqPtr d)) 31 0 = (head + 1) % 2 ^ 32 ∧ y ∈ t.m.mmu.walks ∧ y.id = k.id ∧ y.held = true ∧ y.entry = some head ∧ t.m.parts = s.m.parts) ∧
    (∀ code, ((W.of s).walk k.part k.va = .broken ∧ code = 2 ∨ (∃ level, (W.of s).walk k.part k.va = .absent level) ∧ (W.of s).fqOn k.die k.part = false ∧ code = 0) →
      (∀ q d, k.srcs = [.seq q d] → k.agents = [(W.of s).seqAgent q] → MayRaise s (s.seq q).part ((W.of s).seqAgent q) → ∃ t, exec (.pageWalk k.id) s = .next t ∧ t.mem = s.mem ∧
        t.raised (s.seq q).part ((W.of s).seqAgent q) (0x1E0 + code) ∧ ∀ y ∈ t.m.mmu.walks, y.id ≠ k.id) ∧
      ∀ r c sl, k.srcs = [.elem r c sl] → k.agents.length = 1 → MayRaise s (s.region r).part ((W.of s).elemAgent ⟨r, c, sl⟩) → ∃ t, exec (.pageWalk k.id) s = .next t ∧ t.mem = s.mem ∧
        t.raised (s.region r).part ((W.of s).elemAgent ⟨r, c, sl⟩) (0x1A0 + code) ∧ ∀ y ∈ t.m.mmu.walks, y.id ≠ k.id)) ∧
  ∀ (s : State) (d i : Nat) (k : Walk), (s.bar Bar.bootStat).getLsbD 0 = true →
    ((W.of s).fqEntry d i = some k → (∀ y ∈ s.m.mmu.walks, y.id = k.id → y = k) →
      (∃ t, exec (.fqReplyRetry d i) s = .next t ∧ t.mem = s.mem ∧ { k with held := false, entry := none } ∈ t.m.mmu.walks ∧ k ∉ t.m.mmu.walks ∧ t.m.parts = s.m.parts) ∧
      ∃ t, exec (.fqReplyAbort d i) s = .next t ∧ t.mem = s.mem ∧ (∀ y ∈ t.m.mmu.walks, y.id ≠ k.id) ∧
        ∀ q x, k.srcs = [.seq q x] → k.agents = [(W.of s).seqAgent q] → MayRaise s (s.seq q).part ((W.of s).seqAgent q) → t.raised (s.seq q).part ((W.of s).seqAgent q) 0x1E0) ∧
    ((W.of s).fqEntry d i = none → exec (.fqReplyRetry d i) s = .next s ∧ exec (.fqReplyAbort d i) s = .next s)) ∧
  ((∀ (s : State) (v : W64), (s.bar Bar.bootStat).getLsbD 0 = true →
    ((s.bar Bar.tlbInv).getLsbD 0 = false → field v 8 7 ≠ 3 → field v 63 56 = 0 → v.getLsbD 0 = true → ∃ t, exec (.tlbInvalidate v) s = .next t ∧ t.mem = s.mem ∧
      t.m.mmu.tlb = s.m.mmu.tlb.filter (fun x => !invNames v x) ∧ (t.bar Bar.tlbInv).getLsbD 0 = true ∧ t.m.bus = s.m.bus ∧
      (∀ u ∈ s.m.bus.unseen, u.id ∈ t.m.mmu.writes) ∧ ∀ r ∈ s.m.bus.reqs, (∃ x ∈ s.m.mmu.tlb, invNames v x = true ∧ x.id ∈ r.xlate) → r.id ∈ t.m.mmu.inv) ∧
    ((s.bar Bar.tlbInv).getLsbD 0 = true → exec (.tlbInvalidate v) s = .next s) ∧
    ((s.bar Bar.tlbInv).getLsbD 0 = true → (∀ r ∈ s.m.bus.reqs, r.id ∈ s.m.mmu.inv → r.allDone = true) → (∀ u ∈ s.m.bus.unseen, u.id ∉ s.m.mmu.writes) →
      ∃ t, exec .tlbInvComplete s = .next t ∧ t.mem = s.mem ∧
      (t.bar Bar.tlbInv).getLsbD 0 = false ∧ t.m.mmu.tlb = s.m.mmu.tlb) ∧
    ((∃ r ∈ s.m.bus.reqs, r.id ∈ s.m.mmu.inv ∧ r.allDone = false) ∨ (∃ u ∈ s.m.bus.unseen, u.id ∈ s.m.mmu.writes) → exec .tlbInvComplete s = .next s)) ∧
  ∀ (s : State) (fn size part : Nat) (a v cmp : W64) (l : Leaf) (off : Nat), s.mem.wf = true → (W.of s).bar2Part fn = some part → 1 ≤ size → size ≤ 8 → a.toNat % 64 + size ≤ 64 → a.toNat + size ≤ 2 ^ 36 →
    (s.hubAt part a .read l off → ∃ t, exec (.hostBar2Access fn 0 size a v cmp) s = .next t ∧ t.mem = s.mem ∧ t.m.regions = s.m.regions ∧ t.m.seqs = s.m.seqs ∧
      t.m.parts = s.m.parts ∧ t.m.queues = s.m.queues ∧ t.m.hub = s.m.hub ∧ t.m.mmu = s.m.mmu) ∧
    (∃ t, exec (.hostBar2Access fn 0 size a v cmp) s = .next t) ∧
    (∀ k, s.hubAt part a .write l off → k = hubKey l off → k % 64 + size ≤ 64 → ∃ t, exec (.hostBar2Access fn 1 size a v cmp) s = .next t ∧ memBytes t.mem k size = leBytes size v.toNat ∧
      (∀ b, b < k ∨ k + size ≤ b → t.byte b = s.byte b) ∧ t.m.regions = s.m.regions ∧ t.m.seqs = s.m.seqs ∧
      ∀ c ∈ hubCopies l off, c ≠ k → ∃ r ∈ t.m.bus.reqs, r.kind = .write ∧ r.pieces = [{ key := c, off := 0, len := size }] ∧
        r.data = BitVec.ofNat 768 (leNat (leBytes size v.toNat))) ∧
    (∀ k old, s.hubAt part a .atomic l off → size = 4 ∨ size = 8 → a.toNat % size = 0 → k = hubKey l off → old = leNat (memBytes s.mem k size) →
      ∀ p ∈ [(2, old + v.toNat), (3, v.toNat), (4, if old = cmp.toNat % 2 ^ (8 * size) then v.toNat else old)], ∃ t, exec (.hostBar2Access fn p.1 size a v cmp) s = .next t ∧
        memBytes t.mem k size = leBytes size p.2 ∧ ∀ b, b < k ∨ k + size ≤ b → t.byte b = s.byte b) ∧
    ∀ f k, (W.of s).bar2Part f = none → exec (.hostBar2Access f k size a v cmp) s = .next s)

/-- R393, R398, R404: a hoist walk follows references in this device's rings hop by hop, and a reference that resolves nowhere ends it with a truncated hop, as does another device that has not
answered; a debug stop checkpoints its task on the first edge on which the region is quiet, and sets HIT, or MISS with no entry for it; a time exchange over the link whose far end is nearer the time
master, of those the one of the lowest latency, steers the counter's rate, and none does so on the master. -/
def Obligations.HoistsAndStops : Prop :=
  (∀ (s : State) (n : Nat) (h : Hoist) (rest : List Hoist) (ref : W32), (s.part n).hoists = h :: rest → h.ended = false → ref = (if h.started = true then h.ref else h.mark) →
    (field ref 31 19 = field (s.bar Bar.devLoc) 12 0 →
      (∀ e, (W.of s).resolve ref n = some e → ∃ t x, exec (.hoistWalk n) s = .next t ∧ t.mem = s.mem ∧ (t.part n).hoists = x :: rest ∧ x.hops = h.hops ++ [(e.bytes, ref, false, false)] ∧
        x.started = true ∧ x.trunc = h.trunc ∧ (x.ended = false → x.ref = pRef e.bytes)) ∧
      ((W.of s).resolve ref n = none → ∃ t x, exec (.hoistWalk n) s = .next t ∧ t.mem = s.mem ∧ (t.part n).hoists = x :: rest ∧ x.hops = h.hops ++ [(0, ref, true, false)] ∧
        x.trunc = true ∧ x.ended = true)) ∧
    (field h.ref 31 19 ≠ field (s.bar Bar.devLoc) 12 0 → h.started = true → ∃ t x, exec (.hoistFetchTimeout n) s = .next t ∧ t.mem = s.mem ∧ (t.part n).hoists = x :: rest ∧
      x.hops = h.hops ++ [(0, h.ref, true, true)] ∧ x.trunc = true ∧ x.ended = true)) ∧
  (∀ (s : State) (n : Nat) (h : Hoist) (rest : List Hoist), (s.part n).hoists = h :: rest → h.ended = true → ∃ t, exec (.hoistWalk n) s = .next t ∧ (t.part n).hoists = rest ∧
    t.m.regions = s.m.regions ∧ t.m.seqs = s.m.seqs) ∧
  (∀ (s : State) (n r : Nat) (g : Region) w o, n < 16 → (s.bar (Bar.partDbg n)).getLsbD 0 = true → r = field (s.bar (Bar.partDbg n)) 47 40 → tget s.m.regions r = some g → g.part = n → r = regionKey g →
    g.isl.any (fun i => i.2.kept s.clk.now) = true →
    g.phase = .running → g.preempt = none → field (s.bar (Bar.partDbg n)) 39 8 ≤ g.version.toNat → g.applying = none → g.quiescent = true → (s.part n).halted = false →
    (W.of s).freeEntry g.queue n (3 + 69 * g.qw * g.qh) = (w, .ok o) → ∃ t, exec (.debugStop n) s = .next t ∧ t.mem = s.mem ∧ (t.bar (Bar.partDbg n)).getLsbD 0 = false ∧
      (o = none → (t.bar (Bar.partDbg n)).getLsbD 2 = true ∧ t.region r = g) ∧
      (o ≠ none → (t.bar (Bar.partDbg n)).getLsbD 1 = true ∧ (t.region r).preempt = some (1, s.clk.now) ∧ (t.region r).phase = .saving false s.clk.now ∧ (t.region r).elems = g.elems)) ∧
  (∀ (s : State) (n : Nat), (s.bar (Bar.partDbg n)).getLsbD 0 = false → exec (.debugStop n) s = .next s) ∧
  ∀ (s : State) (l : Nat) (y : Sync) (w : W), l < 18 → field (s.bar (Bar.linkCtl l)) 62 60 = 2 → w = (W.of s).setLink l (fun x => { x with lat := y.latency, nearer := y.nearer }) →
    ∃ t, exec (.timeSyncExchange l y) s = .next t ∧ t.mem = s.mem ∧ t.clk = s.clk ∧ t.m.links = w.m.links ∧
      t.m.hub.steer = if (s.bar Bar.devLoc).getLsbD 40 = false ∧ w.steerLink = some l then max y.ppm (-1000000) else s.m.hub.steer

/-! ## Links, start-up, registers (23, 26 to 30) -/

/-- R402, R403, R416 to R421: a link that is enabled trains, and goes up when its far end matches, else is miswired, and is disabled when a retraining fails; of the flits on a link
that is up the awaited one is accepted and one that fails its CRC refused, the eighth in a row retraining the link; what a flit acknowledges leaves the sender's buffer, and what its far end
has refused is replayed and counted; what a link has not had acknowledged when it goes down waits for its direction. A bank word that fails puts its row into a spare, parity
or sector logic has its sector scanned, a link retrains; a scan that fails fences the sector for good. -/
def Obligations.LinksAndErrors : Prop :=
  (∀ (s : State) (l st c : Nat) (v : W64), l < 18 → c = Bar.linkCtl l → st = field (s.bar c) 62 60 →
    ((s.bar Bar.bootStat).getLsbD 0 = true →
      (v.getLsbD 63 = true → (s.bar c).getLsbD 63 = false → ∃ t, exec (.linkEnable l v) s = .next t ∧ t.mem = s.mem ∧ (t.bar c).getLsbD 63 = true ∧ field (t.bar c) 62 60 = 1) ∧
      (v.getLsbD 63 = false → ∃ t, exec (.linkDisable l v) s = .next t ∧ t.mem = s.mem ∧ (t.bar c).getLsbD 63 = false ∧ field (t.bar c) 62 60 = 0 ∧
        ((∀ k < 18, k / 3 = l / 3 → k ≠ l → field (s.bar (Bar.linkCtl k)) 62 60 ≠ 2) → (tgetD t.m.links l {}).buf = [] ∧
          tgetD t.m.hub.adrift (l / 3) [] = (tgetD s.m.links l {}).buf ++ tgetD s.m.hub.adrift (l / 3) []))) ∧
    (∀ (peer far : Nat), st = 1 ∨ st = 3 → (s.m.hub.tests.filter fun t => t.kind == 3 && t.unit == l) = [] → peer < 2 ^ 13 →
      (far = (if l / 3 % 2 = 0 then l / 3 + 1 else l / 3 - 1) ∧ peer = (W.of s).neighbour (l / 3) → ∃ t, exec (.linkTrainingDone l peer far true) s = .next t ∧ t.mem = s.mem ∧
        field (t.bar c) 62 60 = 2 ∧ field (t.bar c) 59 47 = peer) ∧
      (¬ (far = (if l / 3 % 2 = 0 then l / 3 + 1 else l / 3 - 1) ∧ peer = (W.of s).neighbour (l / 3)) → ∃ t, exec (.linkTrainingDone l peer far true) s = .next t ∧ t.mem = s.mem ∧
        field (t.bar c) 62 60 = 4) ∧
      (st = 3 → ∃ t, exec (.linkTrainingDone l peer far false) s = .next t ∧ t.mem = s.mem ∧ field (t.bar c) 62 60 = 0 ∧ (t.bar c).getLsbD 63 = false ∧
        (tgetD t.m.links l {}).bad = true)) ∧
    (∀ (y : FlitIn) (n : Nat) (x : Link) (cor : Bool), st = 2 → x = tgetD s.m.links l {} → n = (y.ack + 1 + x.buf.length + 4096 - x.next % 4096) % 4096 → n ≤ x.buf.length →
      (∃ t, exec (.flitReceive l y cor true) s = .next t ∧ t.mem = s.mem ∧ field (t.bar c) 62 60 = 2 ∧
        (tgetD t.m.links l {}).expect = (if y.seq = x.expect then (x.expect + 1) % 4096 else x.expect) ∧ (tgetD t.m.links l {}).fails = (if y.seq = x.expect then 0 else x.fails) ∧
        field (t.bar (Bar.linkErr l)) 31 0 = (if y.again = true then min (field (s.bar (Bar.linkErr l)) 31 0 + (x.buf.length - n)) 0xFFFFFFFF else field (s.bar (Bar.linkErr l)) 31 0) ∧
        (tgetD s.m.hub.adrift (l / 3) [] = [] → (tgetD t.m.links l {}).buf = x.buf.drop n)) ∧
      (x.fails + 1 < 8 → ∃ t, exec (.flitReceive l y cor false) s = .next t ∧ t.mem = s.mem ∧ tgetD t.m.links l {} = { x with fails := x.fails + 1 } ∧ field (t.bar c) 62 60 = 2 ∧
        field (t.bar (Bar.linkErr l)) 31 0 = field (s.bar (Bar.linkErr l)) 31 0) ∧
      (8 ≤ x.fails + 1 → ∃ t, exec (.flitReceive l y cor false) s = .next t ∧ t.mem = s.mem ∧ field (t.bar c) 62 60 = 3))) ∧
  (∀ (s : State) (part die unit : Nat) (a : W64) (k n : Nat), k = bankKey die unit → n = tgetD s.m.hub.spares k 0 →
    (n < 8 → ∃ t x, exec (.errorDetect 1 part die unit a) s = .next t ∧ t.mem = s.mem ∧ tgetD t.m.hub.spares k 0 = n + 1 ∧ t.m.hub.tests = s.m.hub.tests ++ [x] ∧ x.kind = 1 ∧ x.die = die ∧
      x.unit = unit ∧ x.scan = false) ∧
    (∀ d, d = 1 ∧ 8 ≤ n ∨ d = 2 → ∃ t x y, exec (.errorDetect d part die unit a) s = .next t ∧ t.mem = s.mem ∧ t.m.hub.tests = s.m.hub.tests ++ [x] ∧ x.kind = d ∧ x.scan = true ∧
      tget t.m.sectors (dieSector die unit) = some y ∧ y.scan = true) ∧
    ∃ t, exec (.errorDetect 5 part die unit a) s = .next t ∧ dramKey die a.toNat ∈ t.m.bus.bad ∧ t.m.regions = s.m.regions ∧ t.m.parts = s.m.parts) ∧
  (∀ (s : State) (t0 : ErrTest) (k : Nat), s.m.hub.tests.find? (fun t => t.id == t0.id && t.kind == 1 && !t.scan) = some t0 → k = bankKey t0.die t0.unit →
    ∀ pass, ∃ t, exec (.bankRowBist t0.id pass) s = .next t ∧ (∀ x ∈ t.m.hub.tests, x.id ≠ t0.id) ∧ t.m.regions = s.m.regions ∧
      tgetD t.m.hub.spares k 1 = if pass = true then tgetD s.m.hub.spares k 1 - 1 else tgetD s.m.hub.spares k 1) ∧
  ∀ (s : State) (sec : Nat) (x : Sector) (pass : Bool), x = tgetD s.m.sectors sec {} →
    (x.scan = true → (∀ g ∈ s.m.regions, sec / 4 ∉ regionQuads g.2 ∧ sec / 4 ∉ g.2.spare) → ∃ t, exec (.sectorScan sec pass) s = .next t ∧ t.m.regions = s.m.regions ∧
      tgetD t.m.sectors sec {} = { x with scan := false, fenced := x.fenced || !pass } ∧
      (pass = true → t.m.boot.recs = s.m.boot.recs) ∧ (pass = false → ∃ z, t.m.boot.recs = s.m.boot.recs ++ [z] ∧ z.step = 8 ∧ z.bitmap = sec)) ∧
    (x.scan = false ∨ (∃ g ∈ s.m.regions, sec / 4 ∈ regionQuads g.2) → exec (.sectorScan sec pass) s = .next s)

/-- R409 to R414, R423: a start resets the machine, and not its memory, and erases the records when a clear was asked for or it brings a configuration update that verifies; then its steps run,
one after another. A step with nothing failing completes, the second with the seed of the PUF's response and the helper data, the fourth with the minimum version of the configuration record,
the twelfth with READY and the measurements. A failure is recorded, one record for each sector or die: an optional step is passed over, and skipped once it has a record; a step without an
alteration, or with it in force for what fails, stops the device with FAILSTEP until its power is off; any other begins the next start. The loss of power ends all activity, and flash stays.

R411 to R415, R423: from step 9 on, a write of BOOT_STAT has the records erased at the next start; with READY, MEAS_EXT extends its measurement by the digest at ADDR, and a quote, signed by the
identity key, is written at BUF, its nonce there first, or ERR is set; FW_CTL makes a slot that verifies NEXT, and no other, and GO begins the write of an image that verifies into the slot that is not ACTIVE,
which is NEXT when the write has ended. -/
def Obligations.StartUpsAndSlots : Prop :=
  ((∀ (s : State) (f : StartIn) (detail : Nat) (fresh : Prop), field (s.bar Bar.bootStat) 55 48 = 0 → s.m.boot.stage = 0 →
    fresh = (∃ bs, f.update = some bs ∧ imageSigned bs = true ∧ s.m.boot.minVer ≤ imageVersion bs) → ∃ t, exec (.powerOnReset f detail) s = .next t ∧ t.mem = s.mem ∧ t.clk = s.clk ∧
    t.m.regions = [] ∧ t.m.seqs = [] ∧ t.m.queues = [] ∧ t.m.parts = [] ∧ t.m.bus = {} ∧ t.m.mmu = {} ∧ t.m.rings = [] ∧ t.m.rails = [] ∧ t.m.links = [] ∧ t.m.hub = {} ∧
    (∀ off, off ≠ Bar.health → t.bar off = Bar.resetValue off) ∧ t.m.boot.stage = 1 ∧ t.m.boot.meas = [] ∧ t.m.boot.seed = none ∧ t.m.boot.slots = s.m.boot.slots ∧
    t.m.boot.next = s.m.boot.next ∧ (fresh ∨ s.m.boot.clear = true → t.m.boot.recs = []) ∧ (¬ fresh → s.m.boot.clear = false → t.m.boot.recs = s.m.boot.recs) ∧
    (fresh → t.m.boot.cfg = 1 - s.m.boot.cfgSlot ∧ tget t.m.boot.cfgs t.m.boot.cfg = some { image := f.update }) ∧ (¬ fresh → t.m.boot.cfgs = s.m.boot.cfgs ∧ t.m.boot.cfg = s.m.boot.cfg)) ∧
  (∀ (s : State) (f : StartIn) (detail n : Nat) (b : Boot) (us : List Nat) (skip : Bool), field (s.bar Bar.bootStat) 55 48 = 0 → b = s.m.boot → n = b.stage → 1 ≤ n → n ≤ 12 →
    us = b.failing n f → skip = (stepOptional n && b.recorded n) → ∃ t, exec (.powerOnReset f detail) s = .next t ∧ t.mem = s.mem ∧ t.clk = s.clk ∧ t.m.boot.slots = b.slots ∧
      (skip = true → t.m.boot = { b with stage := n + 1 } ∧ (t.bar Bar.bootStat).getLsbD (16 + n) = true ∧ t.m.regions = s.m.regions) ∧
      (skip = false → us = [] → field (t.bar Bar.bootStat) 15 8 = n ∧ t.m.boot.recs = b.recs ∧ t.m.regions = s.m.regions ∧ t.m.boot.stage = (if n = 12 then 0 else n + 1) ∧
        (t.bar Bar.bootStat).getLsbD 0 = ((s.bar Bar.bootStat).getLsbD 0 || n == 12) ∧ t.m.boot.seed = (if n = 2 then some (Config.seedOf b.helper f.puf) else b.seed) ∧
        t.m.boot.minVer = (if n = 4 then b.cfgMin else b.minVer) ∧ t.m.boot.active = (if n = 12 then b.next else b.active) ∧
        (n = 12 → tgetD t.m.boot.meas 0 0 = tgetD ((W.of s).measure 0 Config.rom).m.boot.meas 0 0 ∧
          tgetD t.m.boot.meas 1 0 = tgetD ((W.of s).measure 1 ((tgetD b.slots b.next {}).body (Config.firmwareBody b.next))).m.boot.meas 1 0 ∧
          tgetD t.m.boot.meas 2 0 = tgetD ((W.of s).measure 2 b.cfgBody).m.boot.meas 2 0 ∧
          tgetD t.m.boot.meas 3 0 = tgetD (b.recs.foldl (fun w r => w.measure 3 r.bytes) (W.of s)).m.boot.meas 3 0 ∧
          ∀ r ∈ b.recs, r.step = 7 ∨ r.step = 8 → (tgetD t.m.sectors r.bitmap {}).fenced = true)) ∧
      (skip = false → us ≠ [] → stepOptional n = true → t.m.boot = { b with stage := n + 1, recs := b.recs ++ us.map fun u => failRec b n u s.ns detail } ∧ t.m.regions = s.m.regions) ∧
      (us ≠ [] → stepOptional n = false → stepAlters n = false ∨ us.any (b.altered n) = true → field (t.bar Bar.bootStat) 55 48 = n ∧ t.m.boot.stopped = true ∧
        (t.bar Bar.bootStat).getLsbD 0 = (s.bar Bar.bootStat).getLsbD 0 ∧ t.m.boot.recs = b.recs ++ us.map fun u => failRec b n u s.ns detail) ∧
      (us ≠ [] → stepAlters n = true → us.any (b.altered n) = false → t.m.boot.stage = 1 ∧ t.m.regions = [] ∧ field (t.bar Bar.bootStat) 15 8 = 0 ∧
        t.m.boot.next = (if n = 3 then 1 - b.next else b.next) ∧ (b.clear = false → t.m.boot.recs = b.recs ++ us.map fun u => failRec b n u s.ns detail))) ∧
  (∀ (s : State) (f : StartIn) (detail : Nat), field (s.bar Bar.bootStat) 55 48 ≠ 0 → exec (.powerOnReset f detail) s = .next s) ∧
  ∀ s : State, ∃ t, exec .powerLoss s = .next t ∧ t.mem = s.mem ∧ t.m.regions = [] ∧ t.m.seqs = [] ∧ t.m.queues = [] ∧ t.m.parts = [] ∧ t.m.boot.slots = s.m.boot.slots ∧
    t.m.boot.recs = s.m.boot.recs ∧ t.m.boot.next = s.m.boot.next ∧ t.m.boot.cfgs = s.m.boot.cfgs ∧ t.m.boot.helper = s.m.boot.helper ∧ t.m.boot.cert = s.m.boot.cert ∧
    t.m.boot.writing = none ∧ t.m.boot.seed = none ∧ t.m.boot.meas = []) ∧
  ((∀ (s : State) (v : W64), 9 ≤ field (s.bar Bar.bootStat) 15 8 → v.getLsbD 63 = true → ∃ t, exec (.bootStatClear v) s = .next t ∧ t.mem = s.mem ∧ t.m.boot.clear = true ∧ (t.bar Bar.bootStat).getLsbD 63 = true ∧
    (t.bar Bar.bootStat).getLsbD 0 = (s.bar Bar.bootStat).getLsbD 0) ∧
  ∀ (s : State) (v : W64), (s.bar Bar.bootStat).getLsbD 0 = true →
    (∀ bs i, i = 4 + field v 1 0 → (W.of s).hubPeek pfPart (BitVec.ofNat 64 (field v 55 6 * 64)) 64 = some bs → ∃ t, exec (.measurementExtend v) s = .next t ∧ t.mem = s.mem ∧
      tgetD t.m.boot.meas i 0 = BitVec.ofNat 512 (leNat (shake256 64 (leBytes 64 (tgetD s.m.boot.meas i 0).toNat ++ leBytes 64 (leNat bs % 2 ^ 512)))) ∧
      ∀ j, j ≠ i → tgetD t.m.boot.meas j 0 = tgetD s.m.boot.meas j 0) ∧
    ((W.of s).hubPeek pfPart (BitVec.ofNat 64 (field v 55 6 * 64)) 64 = none → ∃ t, exec (.measurementExtend v) s = .next t ∧ t.m.boot = s.m.boot ∧
      (t.bar Bar.attCtl).getLsbD 1 = true) ∧
    (∀ a nonce l off, a = BitVec.ofNat 64 (field v 55 12 * 2 ^ 12) → v.getLsbD 0 = true → (s.bar Bar.attCtl).getLsbD 0 = false → s.mem.wf = true →
      s.hubAt pfPart a .read l off → s.hubAt pfPart a .write l off → nonce = (W.of s).viewBytes (W.of s).hubEye (hubKey l off) 32 → ∃ t, exec (.attestationQuote v) s = .next t ∧
        memBytes t.mem (hubKey l off) 3869 = (W.of s).quoteBody nonce ++ (W.of s).signature3309 ((W.of s).quoteBody nonce) ∧ (t.bar Bar.attCtl).getLsbD 1 = false ∧
        ∀ b, b < hubKey l off ∨ hubKey l off + 3869 ≤ b → t.byte b = s.byte b) ∧
    (v.getLsbD 1 = false → (s.m.boot.slotOk (field v 4 4) = true → ∃ t, exec (.fwNextSelect v) s = .next t ∧ t.mem = s.mem ∧ t.m.boot.next = field v 4 4 ∧
        (t.bar Bar.fwCtl).getLsbD 4 = v.getLsbD 4) ∧
      (s.m.boot.slotOk (field v 4 4) = false → ∃ t, exec (.fwNextSelect v) s = .next t ∧ t.mem = s.mem ∧ t.m.boot = s.m.boot)) ∧
    (∀ i x, v.getLsbD 1 = false → s.m.boot.writing = some (i, x) → ∃ t, exec (.fwSlotWrite v) s = .next t ∧ t.mem = s.mem ∧ tget t.m.boot.slots i = some x ∧ t.m.boot.next = i ∧
      t.m.boot.writing = none ∧ (t.bar Bar.fwCtl).getLsbD 0 = false) ∧
    (∀ (w0 w1 w2 : W) first rest bs n va, v.getLsbD 1 = true → (s.bar Bar.fwCtl).getLsbD 0 = false → va = field v 55 12 * 2 ^ 12 →
      w0 = ((if s.m.boot.slotOk (field v 4 4) = true then ((W.of s).setBoot fun b => { b with next := field v 4 4 }).setFld Bar.fwCtl 4 4 (field v 4 4) else W.of s).setFld
        Bar.fwCtl 55 12 (field v 55 12)).setFld Bar.fwCtl 2 2 0 →
      w0.pfBytes va 1 = (w1, some first) → n = Config.slotLength first → 5265 ≤ n → w1.pfBytes (va + 4096) (n / 4096) = (w2, some rest) → bs = (first ++ rest).take n →
      imageSigned bs = true → s.m.boot.minVer ≤ imageVersion bs →
      ∃ t, exec (.fwSlotWrite v) s = .next t ∧ t.mem = s.mem ∧ t.m.boot.writing = some (1 - s.m.boot.active, { image := some bs }) ∧
        t.m.boot.slotOk (1 - s.m.boot.active) = false ∧ (t.bar Bar.fwCtl).getLsbD 0 = true))

/-- R342 to R344, R347, R356, R383: a write of PART_CTL with EN = 1 sets the energy counters to zero and creates a partition that was not enabled, its flags zero and its TOKENS at TOKMAX, unless another enabled
partition has its VF; with EN = 0 it ends one, with cause 0x3F3. Q_CFG with EN = 1 has the CP read a good descriptor and serve its queue, and a bad one halts the partition with 0x0F1; with
EN = 0 an idle queue is idle at once, and another takes no further slot. -/
def Obligations.PartitionsAndQueues : Prop :=
  (∀ (s : State) (n c : Nat) (v : W64), (s.bar Bar.bootStat).getLsbD 0 = true → n < 16 → c = Bar.partCtl n →
    (∀ taken, taken = (field v 31 28 ≠ 0 ∧ ∃ m < 16, m ≠ n ∧ (s.bar (Bar.partCtl m)).getLsbD 0 = true ∧ field (s.bar (Bar.partCtl m)) 31 28 = field v 31 28) →
      (v.getLsbD 0 = true → (s.bar c).getLsbD 0 = false → ¬ taken → ∃ t, exec (.partitionCreate n v) s = .next t ∧ t.mem = s.mem ∧ t.m.regions = s.m.regions ∧
        (t.bar c).getLsbD 0 = true ∧ field (t.bar c) 55 40 = field v 55 40 ∧ field (t.bar c) 39 32 = field v 39 32 ∧ field (t.bar c) 31 28 = field v 31 28 ∧
        field (t.bar c) 21 19 = field v 21 19 ∧ field (t.bar c) 23 22 = (if field v 23 22 ≤ 2 then field v 23 22 else field (s.bar c) 23 22) ∧
        field (t.bar (Bar.partTok n)) 15 0 = field v 55 40 ∧ t.bar (Bar.partEnergy n) = 0 ∧ t.bar (Bar.partCredit n) = 0 ∧ (t.part n).flags = 0 ∧ (t.part n).halted = false ∧
        ∀ q, q < 160 → (W.of s).quadHeld n q = true → (W.of t).maskBit n q = false) ∧
      (v.getLsbD 0 = true → (s.bar c).getLsbD 0 = true → ¬ taken → ∃ t, exec (.partitionCreate n v) s = .next t ∧ t.mem = s.mem ∧ t.m.parts = s.m.parts ∧
        t.bar (Bar.partEnergy n) = 0 ∧ t.bar (Bar.partCredit n) = 0 ∧ (t.bar c).getLsbD 0 = true ∧ t.bar (Bar.partTok n) = s.bar (Bar.partTok n)) ∧
      (v.getLsbD 0 = true → taken → exec (.partitionCreate n v) s = .next s)) ∧
    (v.getLsbD 0 = false → (s.bar c).getLsbD 0 = true → MayRaise s n (W.of s).hostAgent → ∃ t, exec (.partitionDisable n v) s = .next t ∧ t.mem = s.mem ∧ (t.bar c).getLsbD 0 = false ∧
      field (t.bar c) 31 28 = field (s.bar c) 31 28 ∧ t.raised n (W.of s).hostAgent 0x3F3)) ∧
  ∀ (s : State) (q c n : Nat) (v : W64) (u : Queue), (s.bar Bar.bootStat).getLsbD 0 = true → q < 1024 → c = Bar.qCfg q → u = s.queue q →
    (∀ d l off w bs r, v.getLsbD 63 = true → (s.bar c).getLsbD 63 = false → n = field v 62 59 → (s.bar (Bar.partCtl n)).getLsbD 0 = true → d = BitVec.ofNat 64 (field v 55 6 * 64) →
      s.hubAt n d .read l off → (W.of s).hubGet (.cp q) n d 64 = (w, .ok (bs, r)) →
      (descOk bs = true → ∃ t x, exec (.queueEnable 0 q v) s = .next t ∧ t.mem = s.mem ∧ (t.bar c).getLsbD 63 = true ∧ (t.bar c).getLsbD 0 = false ∧ field (t.bar c) 62 59 = n ∧
        field (t.bar c) 58 56 = field v 58 56 ∧ tget t.m.queues q = some x ∧ x.on = true ∧ x.armed = !s.m.hub.retrain.contains (keyHome (hubKey l off)) ∧ x.base = d ∧ x.slotBase = BitVec.ofNat 64 (leNat ((bs.drop 16).take 8)) ∧
        x.slots = leNat ((bs.drop 24).take 4) ∧ x.rd = leNat ((bs.drop 8).take 8) ∧ x.wr = leNat (bs.take 8)) ∧
      (descOk bs = false → (∀ h ∈ (s.part n).halts, (s.part n).halted = false → h.agent ≠ (W.of s).cpAgent q) → ∃ t, exec (.queueEnable 0 q v) s = .next t ∧ t.mem = s.mem ∧
        t.raised n ((W.of s).cpAgent q) 0x0F1)) ∧
    (v.getLsbD 63 = false → (s.bar c).getLsbD 63 = true → (u.idle = true → ∃ t, exec (.queueDisable 0 q v) s = .next t ∧ t.mem = s.mem ∧ (t.bar c).getLsbD 63 = false ∧
        (t.bar c).getLsbD 0 = true ∧ (t.queue q).on = false) ∧
      (u.idle = false → ∃ t, exec (.queueDisable 0 q v) s = .next t ∧ t.mem = s.mem ∧ (t.bar c).getLsbD 63 = true ∧ t.queue q = { u with stopping := true }))

/-- R81, R346, R382 to R388, R401, R416: what the writes of the masks, of the power registers and of the counters change; a value out of a field's range leaves the field as it is. A request
counter or a quad's counter that is cleared holds what was counted on the same cycle (R343, R388: the clear comes first).

R341, R342, R359, R398, R399, R402, R420: an area register takes SZ and BASE, and its flags and count are cleared; PART_DBG takes its region and version while not armed; DEV_LOC is written while
every link is down; LINK_ERR is cleared. REGISTER_WRITE at a register's offset does what the register's own event does; one that is not of 8 aligned bytes, at an offset with no register, or
through the window of a VF that no partition has, changes nothing. -/
def Obligations.RegisterWrites : Prop :=
  (∀ (s : State) (v : W64), (s.bar Bar.bootStat).getLsbD 0 = true →
    (field v 51 48 ≠ 0 → ∃ t, exec (.reqCounterClear v) s = .next t ∧ t.mem = s.mem ∧ ∀ d < 4, (v.getLsbD (48 + d) = true → ∀ o ∈ [Bar.lreq d, Bar.rreqo d, Bar.rreqi d], t.bar o = BitVec.ofNat 64 ((W.of s).countedNow o)) ∧
      (v.getLsbD (48 + d) = false → t.bar (Bar.lreq d) = s.bar (Bar.lreq d))) ∧
    (∀ n i, n < 16 → i < 3 → ∃ t, exec (.qmaskWrite n i v) s = .next t ∧ t.mem = s.mem ∧ t.m.regions = s.m.regions ∧ ∀ b < 64, ∀ q, q = 64 * i + b → q < 160 →
      (v.getLsbD b = true → (W.of s).quadHeld n q = false → (W.of s).quadFenced q = false → (W.of t).maskBit n q = true) ∧
      (v.getLsbD b = true → (W.of s).quadHeld n q = true → (∀ x, (W.of s).quadRegion q ≠ some x) → (W.of t).maskBit n q = false) ∧
      (v.getLsbD b = false → (∀ x, (W.of s).quadRegion q ≠ some x) → (W.of t).maskBit n q = false)) ∧
    (∃ t, exec (.pkgPlimWrite v) s = .next t ∧ t.mem = s.mem ∧ field (t.bar Bar.pkgPlim) 11 0 = (if 1000 ≤ field v 11 0 ∧ field v 11 0 ≤ 2400 then field v 11 0 else field (s.bar Bar.pkgPlim) 11 0) ∧
      (1000 ≤ field v 11 0 → field v 11 0 ≤ 2400 → field v 11 0 ≠ field (s.bar Bar.pkgPlim) 11 0 → ∀ k g, tget s.m.regions k = some g → g.runs = true → (t.region k).trigger = true)) ∧
    (∀ n < 16, (∃ t, exec (.partPcapWrite n v) s = .next t ∧ t.mem = s.mem ∧ field (t.bar (Bar.partPcap n)) 11 0 = field v 11 0 ∧
        ∀ k g, tget s.m.regions k = some g → g.part = n → g.runs = true → (t.region k).trigger = true) ∧
      (∃ t, exec (.partEnergyWrite n v) s = .next t ∧ t.mem = s.mem ∧ t.bar (Bar.partEnergy n) = 0 ∧ ∀ o, o ≠ Bar.partEnergy n → t.bar o = s.bar o) ∧
      ∃ t, exec (.partCreditWrite n v) s = .next t ∧ t.mem = s.mem ∧ t.bar (Bar.partCredit n) = 0 ∧ ∀ o, o ≠ Bar.partCredit n → t.bar o = s.bar o) ∧
    (∀ d < 4, (∃ t, exec (.railCfgWrite d v) s = .next t ∧ t.mem = s.mem ∧ field (t.bar (Bar.railCfg d)) 1 0 = field v 1 0 ∧ (t.bar (Bar.railCfg d)).getLsbD 8 = v.getLsbD 8 ∧
        field (t.bar (Bar.railCfg d)) 15 12 = if 2 ≤ field v 15 12 ∧ field v 15 12 ≤ 6 then field v 15 12 else field (s.bar (Bar.railCfg d)) 15 12) ∧
      ∃ t, exec (.inrushStatWrite d v) s = .next t ∧ t.mem = s.mem ∧ field (t.bar (Bar.inrushStat d)) 47 16 = 0) ∧
    (∀ q < 160, ((∀ e < 7, field v (2 * e + 1) (2 * e) ≤ field v (2 * e + 3) (2 * e + 2)) → ∃ t, exec (.slewTabWrite q v) s = .next t ∧ t.mem = s.mem ∧
        field (t.bar (Bar.slewTab q)) 15 0 = field v 15 0) ∧
      (∀ e < 7, field v (2 * e + 3) (2 * e + 2) < field v (2 * e + 1) (2 * e) → exec (.slewTabWrite q v) s = .next s) ∧
      (∀ k < 4, ∃ t, exec (.quadCounterWrite q k v) s = .next t ∧ t.mem = s.mem ∧ t.bar (Bar.quadCounter q k) = BitVec.ofNat 64 (s.m.hub.countedOn (Bar.quadCounter q k) s.clk.now) ∧
        ∀ o, o ≠ Bar.quadCounter q k → t.bar o = s.bar o) ∧
      ∀ i < 8, (field (s.bar (Bar.pmsel q)) (8 * i + 7) (8 * i) ≤ 15 → ∃ t, exec (.pmcWrite q i v) s = .next t ∧ t.mem = s.mem ∧
          t.bar (Bar.pmc q i) = BitVec.ofNat 64 (v.toNat % 0xFFFFFFFFFFFFFFF0) ∧ ∀ o, o ≠ Bar.pmc q i → t.bar o = s.bar o) ∧
        (15 < field (s.bar (Bar.pmsel q)) (8 * i + 7) (8 * i) → exec (.pmcWrite q i v) s = .next s)) ∧
    ∀ d < 5, ∃ t, exec (.tempWrite d v) s = .next t ∧ t.mem = s.mem ∧ field (t.bar (Bar.temp d)) 15 0 = field (s.bar (Bar.temp d)) 15 0 ∧
      field (t.bar (Bar.temp d)) 31 16 = field (s.bar (Bar.temp d)) 15 0 ∧
      field (t.bar (Bar.temp d)) 47 32 = if 480 ≤ field v 47 32 ∧ field v 47 32 ≤ 880 then field v 47 32 else field (s.bar (Bar.temp d)) 47 32) ∧
  (∀ (s : State) (v : W64), (s.bar Bar.bootStat).getLsbD 0 = true →
    (∀ n < 16, ∀ (i : Instr) (o : Nat), (i, o) ∈ [(.partStopWrite n v, Bar.partStop n), (.errLogWrite v, Bar.errLog), (.partTraceWrite n v, Bar.partTrace n), (.partHoistWrite n v, Bar.partHoist n)] →
      ∃ t, exec i s = .next t ∧ t.mem = s.mem ∧ t.m.parts = s.m.parts ∧ field (t.bar o) 55 12 = field v 55 12 ∧ field (t.bar o) 59 58 = 0 ∧ field (t.bar o) 11 0 = 0 ∧
        field (t.bar o) 63 60 = (if field v 63 60 ≤ 7 then field v 63 60 else field (s.bar o) 63 60) ∧ ∀ j, j ≠ o → t.bar j = s.bar j) ∧
    (∀ n < 16, ∀ o, o = Bar.partDbg n → ∃ t, exec (.partDbgWrite n v) s = .next t ∧ t.mem = s.mem ∧ (t.bar o).getLsbD 0 = v.getLsbD 0 ∧
      field (t.bar o) 47 8 = (if (s.bar o).getLsbD 0 = true then field (s.bar o) 47 8 else field v 47 8) ∧
      field (t.bar o) 7 3 = (if field v 7 3 ≤ 24 then field v 7 3 else field (s.bar o) 7 3) ∧
      (t.bar o).getLsbD 2 = ((s.bar o).getLsbD 2 && !v.getLsbD 2) ∧ (t.bar o).getLsbD 1 = ((s.bar o).getLsbD 1 && !v.getLsbD 1)) ∧
    (∀ x y z, x = field v 20 16 ∧ y = field v 28 24 ∧ z = field v 36 32 →
      ((∀ l < 18, (s.bar (Bar.linkCtl l)).getLsbD 63 = false) → (x + 1) * (y + 1) * (z + 1) ≤ 8192 → field v 12 0 < (x + 1) * (y + 1) * (z + 1) → ∃ t, exec (.devLocWrite v) s = .next t ∧ t.mem = s.mem ∧
        field (t.bar Bar.devLoc) 12 0 = field v 12 0 ∧ field (t.bar Bar.devLoc) 20 16 = x ∧ field (t.bar Bar.devLoc) 28 24 = y ∧ field (t.bar Bar.devLoc) 36 32 = z ∧
        (t.bar Bar.devLoc).getLsbD 40 = v.getLsbD 40 ∧ t.m.hub.steer = (if v.getLsbD 40 = true then 0 else s.m.hub.steer)) ∧
      (∀ l < 18, (s.bar (Bar.linkCtl l)).getLsbD 63 = true → exec (.devLocWrite v) s = .next s)) ∧
    (∀ l < 18, ∃ t, exec (.linkErrWrite l v) s = .next t ∧ t.mem = s.mem ∧ t.bar (Bar.linkErr l) = 0 ∧ ∀ o, o ≠ Bar.linkErr l → t.bar o = s.bar o) ∧
    (∀ f size off, ∃ t, exec (.registerWrite f size off v) s = .next t ∧ (size ≠ 8 ∨ off % 8 ≠ 0 ∨ 16 ≤ f → t = s)) ∧
    (∀ n < 16, (∀ (i : Instr) (o : Nat), (i, o) ∈ [(.partStopWrite n v, Bar.partStop n), (.errLogWrite v, Bar.errLog), (.partTraceWrite n v, Bar.partTrace n), (.partHoistWrite n v, Bar.partHoist n),
          (.partPcapWrite n v, Bar.partPcap n), (.pkgPlimWrite v, Bar.pkgPlim), (.devLocWrite v, Bar.devLoc), (.partDbgWrite n v, Bar.partDbg n),
          (.qmaskWrite n 0 v, Bar.partQmask n 0), (.slewTabWrite n v, Bar.slewTab n), (.tlbInvalidate v, Bar.tlbInv), (.measurementExtend v, Bar.measExt)] →
        exec (.registerWrite 0 8 o v) s = exec i s) ∧
      (9 ≤ field (s.bar Bar.bootStat) 15 8 → exec (.registerWrite 0 8 Bar.bootStat v) s = exec (.bootStatClear v) s) ∧
      ∀ o, o = Bar.fnIrq n ∨ o = Bar.pmsel n → ∃ t, exec (.registerWrite 0 8 o v) s = .next t ∧ t.mem = s.mem ∧ ∀ j, j ≠ o → t.bar j = s.bar j) ∧
    (∀ d < 5, ∃ t, exec (.registerWrite 0 8 (Bar.fqPtr d) v) s = .next t ∧ field (t.bar (Bar.fqPtr d)) 63 32 = field v 63 32 ∧ field (t.bar (Bar.fqPtr d)) 31 0 = field (s.bar (Bar.fqPtr d)) 31 0) ∧
    (∀ f off, 1 ≤ f → f < 16 → (W.of s).bar2Part f = none → exec (.registerWrite f 8 off v) s = .next s) ∧
    ∀ d < 4, exec (.registerWrite 0 8 (Bar.lreq d) v) s = .next s ∧ exec (.registerWrite 0 8 Bar.health v) s = .next s)
end

