-- ==== Sys2Proof/Laws/State.lean ====
section
/-! SUPPORT. Sys2Proof/Laws/State.lean: one lemma per field per update of the working state and of the state, each true by rfl. -/

namespace Sys2Proof.Machine

/-! ## The working state and the state it commits to -/

@[simp] theorem W.of_clk (s : State) : (W.of s).clk = s.clk := rfl
@[simp] theorem W.of_base (s : State) : (W.of s).base = s.mem := rfl
@[simp] theorem W.of_log (s : State) : (W.of s).log = [] := rfl
@[simp] theorem W.of_m (s : State) : (W.of s).m = s.m := rfl
@[simp] theorem W.commit_clk (s : State) (w : W) : (w.commit s).clk = s.clk := rfl
@[simp] theorem W.commit_mem (s : State) (w : W) : (w.commit s).mem = applyLog s.mem w.log := rfl
@[simp] theorem W.commit_m (s : State) (w : W) : (w.commit s).m = w.m := rfl

/-! ## Updates of the working state -/

@[simp] theorem W.setSeq_clk (w : W) (q : Nat) (f : Seq → Seq) : (w.setSeq q f).clk = w.clk := rfl
@[simp] theorem W.setSeq_base (w : W) (q : Nat) (f : Seq → Seq) : (w.setSeq q f).base = w.base := rfl
@[simp] theorem W.setSeq_log (w : W) (q : Nat) (f : Seq → Seq) : (w.setSeq q f).log = w.log := rfl
@[simp] theorem W.setSeq_cur (w : W) (q : Nat) (f : Seq → Seq) : (w.setSeq q f).m.cur = w.m.cur := rfl
@[simp] theorem W.setSeq_draw (w : W) (q : Nat) (f : Seq → Seq) : (w.setSeq q f).m.draw = w.m.draw := rfl
@[simp] theorem W.setSeq_nextId (w : W) (q : Nat) (f : Seq → Seq) : (w.setSeq q f).m.nextId = w.m.nextId := rfl
@[simp] theorem W.setSeq_seqs (w : W) (q : Nat) (f : Seq → Seq) : (w.setSeq q f).m.seqs = tmod w.m.seqs q f := rfl
@[simp] theorem W.setSeq_regions (w : W) (q : Nat) (f : Seq → Seq) : (w.setSeq q f).m.regions = w.m.regions := rfl
@[simp] theorem W.setSeq_parts (w : W) (q : Nat) (f : Seq → Seq) : (w.setSeq q f).m.parts = w.m.parts := rfl
@[simp] theorem W.setSeq_queues (w : W) (q : Nat) (f : Seq → Seq) : (w.setSeq q f).m.queues = w.m.queues := rfl
@[simp] theorem W.setSeq_bus (w : W) (q : Nat) (f : Seq → Seq) : (w.setSeq q f).m.bus = w.m.bus := rfl
@[simp] theorem W.setSeq_mmu (w : W) (q : Nat) (f : Seq → Seq) : (w.setSeq q f).m.mmu = w.m.mmu := rfl
@[simp] theorem W.setSeq_hub (w : W) (q : Nat) (f : Seq → Seq) : (w.setSeq q f).m.hub = w.m.hub := rfl
@[simp] theorem W.setSeq_bar (w : W) (q : Nat) (f : Seq → Seq) : (w.setSeq q f).m.bar = w.m.bar := rfl
@[simp] theorem W.setSeq_rings (w : W) (q : Nat) (f : Seq → Seq) : (w.setSeq q f).m.rings = w.m.rings := rfl
@[simp] theorem W.setSeq_rails (w : W) (q : Nat) (f : Seq → Seq) : (w.setSeq q f).m.rails = w.m.rails := rfl
@[simp] theorem W.setSeq_sectors (w : W) (q : Nat) (f : Seq → Seq) : (w.setSeq q f).m.sectors = w.m.sectors := rfl
@[simp] theorem W.setSeq_links (w : W) (q : Nat) (f : Seq → Seq) : (w.setSeq q f).m.links = w.m.links := rfl
@[simp] theorem W.setSeq_boot (w : W) (q : Nat) (f : Seq → Seq) : (w.setSeq q f).m.boot = w.m.boot := rfl

@[simp] theorem W.setRegion_clk (w : W) (r : Nat) (f : Region → Region) : (w.setRegion r f).clk = w.clk := rfl
@[simp] theorem W.setRegion_base (w : W) (r : Nat) (f : Region → Region) : (w.setRegion r f).base = w.base := rfl
@[simp] theorem W.setRegion_log (w : W) (r : Nat) (f : Region → Region) : (w.setRegion r f).log = w.log := rfl
@[simp] theorem W.setRegion_cur (w : W) (r : Nat) (f : Region → Region) : (w.setRegion r f).m.cur = w.m.cur := rfl
@[simp] theorem W.setRegion_draw (w : W) (r : Nat) (f : Region → Region) : (w.setRegion r f).m.draw = w.m.draw := rfl
@[simp] theorem W.setRegion_nextId (w : W) (r : Nat) (f : Region → Region) : (w.setRegion r f).m.nextId = w.m.nextId := rfl
@[simp] theorem W.setRegion_seqs (w : W) (r : Nat) (f : Region → Region) : (w.setRegion r f).m.seqs = w.m.seqs := rfl
@[simp] theorem W.setRegion_regions (w : W) (r : Nat) (f : Region → Region) : (w.setRegion r f).m.regions = tmod w.m.regions r f := rfl
@[simp] theorem W.setRegion_parts (w : W) (r : Nat) (f : Region → Region) : (w.setRegion r f).m.parts = w.m.parts := rfl
@[simp] theorem W.setRegion_queues (w : W) (r : Nat) (f : Region → Region) : (w.setRegion r f).m.queues = w.m.queues := rfl
@[simp] theorem W.setRegion_bus (w : W) (r : Nat) (f : Region → Region) : (w.setRegion r f).m.bus = w.m.bus := rfl
@[simp] theorem W.setRegion_mmu (w : W) (r : Nat) (f : Region → Region) : (w.setRegion r f).m.mmu = w.m.mmu := rfl
@[simp] theorem W.setRegion_hub (w : W) (r : Nat) (f : Region → Region) : (w.setRegion r f).m.hub = w.m.hub := rfl
@[simp] theorem W.setRegion_bar (w : W) (r : Nat) (f : Region → Region) : (w.setRegion r f).m.bar = w.m.bar := rfl
@[simp] theorem W.setRegion_rings (w : W) (r : Nat) (f : Region → Region) : (w.setRegion r f).m.rings = w.m.rings := rfl
@[simp] theorem W.setRegion_rails (w : W) (r : Nat) (f : Region → Region) : (w.setRegion r f).m.rails = w.m.rails := rfl
@[simp] theorem W.setRegion_sectors (w : W) (r : Nat) (f : Region → Region) : (w.setRegion r f).m.sectors = w.m.sectors := rfl
@[simp] theorem W.setRegion_links (w : W) (r : Nat) (f : Region → Region) : (w.setRegion r f).m.links = w.m.links := rfl
@[simp] theorem W.setRegion_boot (w : W) (r : Nat) (f : Region → Region) : (w.setRegion r f).m.boot = w.m.boot := rfl

@[simp] theorem W.setPart_clk (w : W) (n : Nat) (f : Part → Part) : (w.setPart n f).clk = w.clk := rfl
@[simp] theorem W.setPart_base (w : W) (n : Nat) (f : Part → Part) : (w.setPart n f).base = w.base := rfl
@[simp] theorem W.setPart_log (w : W) (n : Nat) (f : Part → Part) : (w.setPart n f).log = w.log := rfl
@[simp] theorem W.setPart_cur (w : W) (n : Nat) (f : Part → Part) : (w.setPart n f).m.cur = w.m.cur := rfl
@[simp] theorem W.setPart_draw (w : W) (n : Nat) (f : Part → Part) : (w.setPart n f).m.draw = w.m.draw := rfl
@[simp] theorem W.setPart_nextId (w : W) (n : Nat) (f : Part → Part) : (w.setPart n f).m.nextId = w.m.nextId := rfl
@[simp] theorem W.setPart_seqs (w : W) (n : Nat) (f : Part → Part) : (w.setPart n f).m.seqs = w.m.seqs := rfl
@[simp] theorem W.setPart_regions (w : W) (n : Nat) (f : Part → Part) : (w.setPart n f).m.regions = w.m.regions := rfl
@[simp] theorem W.setPart_parts (w : W) (n : Nat) (f : Part → Part) : (w.setPart n f).m.parts = tput w.m.parts n (f (w.part n)) := rfl
@[simp] theorem W.setPart_queues (w : W) (n : Nat) (f : Part → Part) : (w.setPart n f).m.queues = w.m.queues := rfl
@[simp] theorem W.setPart_bus (w : W) (n : Nat) (f : Part → Part) : (w.setPart n f).m.bus = w.m.bus := rfl
@[simp] theorem W.setPart_mmu (w : W) (n : Nat) (f : Part → Part) : (w.setPart n f).m.mmu = w.m.mmu := rfl
@[simp] theorem W.setPart_hub (w : W) (n : Nat) (f : Part → Part) : (w.setPart n f).m.hub = w.m.hub := rfl
@[simp] theorem W.setPart_bar (w : W) (n : Nat) (f : Part → Part) : (w.setPart n f).m.bar = w.m.bar := rfl
@[simp] theorem W.setPart_rings (w : W) (n : Nat) (f : Part → Part) : (w.setPart n f).m.rings = w.m.rings := rfl
@[simp] theorem W.setPart_rails (w : W) (n : Nat) (f : Part → Part) : (w.setPart n f).m.rails = w.m.rails := rfl
@[simp] theorem W.setPart_sectors (w : W) (n : Nat) (f : Part → Part) : (w.setPart n f).m.sectors = w.m.sectors := rfl
@[simp] theorem W.setPart_links (w : W) (n : Nat) (f : Part → Part) : (w.setPart n f).m.links = w.m.links := rfl
@[simp] theorem W.setPart_boot (w : W) (n : Nat) (f : Part → Part) : (w.setPart n f).m.boot = w.m.boot := rfl

@[simp] theorem W.setQueue_clk (w : W) (q : Nat) (f : Queue → Queue) : (w.setQueue q f).clk = w.clk := rfl
@[simp] theorem W.setQueue_base (w : W) (q : Nat) (f : Queue → Queue) : (w.setQueue q f).base = w.base := rfl
@[simp] theorem W.setQueue_log (w : W) (q : Nat) (f : Queue → Queue) : (w.setQueue q f).log = w.log := rfl
@[simp] theorem W.setQueue_cur (w : W) (q : Nat) (f : Queue → Queue) : (w.setQueue q f).m.cur = w.m.cur := rfl
@[simp] theorem W.setQueue_draw (w : W) (q : Nat) (f : Queue → Queue) : (w.setQueue q f).m.draw = w.m.draw := rfl
@[simp] theorem W.setQueue_nextId (w : W) (q : Nat) (f : Queue → Queue) : (w.setQueue q f).m.nextId = w.m.nextId := rfl
@[simp] theorem W.setQueue_seqs (w : W) (q : Nat) (f : Queue → Queue) : (w.setQueue q f).m.seqs = w.m.seqs := rfl
@[simp] theorem W.setQueue_regions (w : W) (q : Nat) (f : Queue → Queue) : (w.setQueue q f).m.regions = w.m.regions := rfl
@[simp] theorem W.setQueue_parts (w : W) (q : Nat) (f : Queue → Queue) : (w.setQueue q f).m.parts = w.m.parts := rfl
@[simp] theorem W.setQueue_queues (w : W) (q : Nat) (f : Queue → Queue) : (w.setQueue q f).m.queues = tput w.m.queues q (f (w.queue q)) := rfl
@[simp] theorem W.setQueue_bus (w : W) (q : Nat) (f : Queue → Queue) : (w.setQueue q f).m.bus = w.m.bus := rfl
@[simp] theorem W.setQueue_mmu (w : W) (q : Nat) (f : Queue → Queue) : (w.setQueue q f).m.mmu = w.m.mmu := rfl
@[simp] theorem W.setQueue_hub (w : W) (q : Nat) (f : Queue → Queue) : (w.setQueue q f).m.hub = w.m.hub := rfl
@[simp] theorem W.setQueue_bar (w : W) (q : Nat) (f : Queue → Queue) : (w.setQueue q f).m.bar = w.m.bar := rfl
@[simp] theorem W.setQueue_rings (w : W) (q : Nat) (f : Queue → Queue) : (w.setQueue q f).m.rings = w.m.rings := rfl
@[simp] theorem W.setQueue_rails (w : W) (q : Nat) (f : Queue → Queue) : (w.setQueue q f).m.rails = w.m.rails := rfl
@[simp] theorem W.setQueue_sectors (w : W) (q : Nat) (f : Queue → Queue) : (w.setQueue q f).m.sectors = w.m.sectors := rfl
@[simp] theorem W.setQueue_links (w : W) (q : Nat) (f : Queue → Queue) : (w.setQueue q f).m.links = w.m.links := rfl
@[simp] theorem W.setQueue_boot (w : W) (q : Nat) (f : Queue → Queue) : (w.setQueue q f).m.boot = w.m.boot := rfl

@[simp] theorem W.setHub_clk (w : W) (f : Hub → Hub) : (w.setHub f).clk = w.clk := rfl
@[simp] theorem W.setHub_base (w : W) (f : Hub → Hub) : (w.setHub f).base = w.base := rfl
@[simp] theorem W.setHub_log (w : W) (f : Hub → Hub) : (w.setHub f).log = w.log := rfl
@[simp] theorem W.setHub_cur (w : W) (f : Hub → Hub) : (w.setHub f).m.cur = w.m.cur := rfl
@[simp] theorem W.setHub_draw (w : W) (f : Hub → Hub) : (w.setHub f).m.draw = w.m.draw := rfl
@[simp] theorem W.setHub_nextId (w : W) (f : Hub → Hub) : (w.setHub f).m.nextId = w.m.nextId := rfl
@[simp] theorem W.setHub_seqs (w : W) (f : Hub → Hub) : (w.setHub f).m.seqs = w.m.seqs := rfl
@[simp] theorem W.setHub_regions (w : W) (f : Hub → Hub) : (w.setHub f).m.regions = w.m.regions := rfl
@[simp] theorem W.setHub_parts (w : W) (f : Hub → Hub) : (w.setHub f).m.parts = w.m.parts := rfl
@[simp] theorem W.setHub_queues (w : W) (f : Hub → Hub) : (w.setHub f).m.queues = w.m.queues := rfl
@[simp] theorem W.setHub_bus (w : W) (f : Hub → Hub) : (w.setHub f).m.bus = w.m.bus := rfl
@[simp] theorem W.setHub_mmu (w : W) (f : Hub → Hub) : (w.setHub f).m.mmu = w.m.mmu := rfl
@[simp] theorem W.setHub_hub (w : W) (f : Hub → Hub) : (w.setHub f).m.hub = f w.m.hub := rfl
@[simp] theorem W.setHub_bar (w : W) (f : Hub → Hub) : (w.setHub f).m.bar = w.m.bar := rfl
@[simp] theorem W.setHub_rings (w : W) (f : Hub → Hub) : (w.setHub f).m.rings = w.m.rings := rfl
@[simp] theorem W.setHub_rails (w : W) (f : Hub → Hub) : (w.setHub f).m.rails = w.m.rails := rfl
@[simp] theorem W.setHub_sectors (w : W) (f : Hub → Hub) : (w.setHub f).m.sectors = w.m.sectors := rfl
@[simp] theorem W.setHub_links (w : W) (f : Hub → Hub) : (w.setHub f).m.links = w.m.links := rfl
@[simp] theorem W.setHub_boot (w : W) (f : Hub → Hub) : (w.setHub f).m.boot = w.m.boot := rfl

@[simp] theorem W.setBus_clk (w : W) (f : Bus → Bus) : (w.setBus f).clk = w.clk := rfl
@[simp] theorem W.setBus_base (w : W) (f : Bus → Bus) : (w.setBus f).base = w.base := rfl
@[simp] theorem W.setBus_log (w : W) (f : Bus → Bus) : (w.setBus f).log = w.log := rfl
@[simp] theorem W.setBus_cur (w : W) (f : Bus → Bus) : (w.setBus f).m.cur = w.m.cur := rfl
@[simp] theorem W.setBus_draw (w : W) (f : Bus → Bus) : (w.setBus f).m.draw = w.m.draw := rfl
@[simp] theorem W.setBus_nextId (w : W) (f : Bus → Bus) : (w.setBus f).m.nextId = w.m.nextId := rfl
@[simp] theorem W.setBus_seqs (w : W) (f : Bus → Bus) : (w.setBus f).m.seqs = w.m.seqs := rfl
@[simp] theorem W.setBus_regions (w : W) (f : Bus → Bus) : (w.setBus f).m.regions = w.m.regions := rfl
@[simp] theorem W.setBus_parts (w : W) (f : Bus → Bus) : (w.setBus f).m.parts = w.m.parts := rfl
@[simp] theorem W.setBus_queues (w : W) (f : Bus → Bus) : (w.setBus f).m.queues = w.m.queues := rfl
@[simp] theorem W.setBus_bus (w : W) (f : Bus → Bus) : (w.setBus f).m.bus = f w.m.bus := rfl
@[simp] theorem W.setBus_mmu (w : W) (f : Bus → Bus) : (w.setBus f).m.mmu = w.m.mmu := rfl
@[simp] theorem W.setBus_hub (w : W) (f : Bus → Bus) : (w.setBus f).m.hub = w.m.hub := rfl
@[simp] theorem W.setBus_bar (w : W) (f : Bus → Bus) : (w.setBus f).m.bar = w.m.bar := rfl
@[simp] theorem W.setBus_rings (w : W) (f : Bus → Bus) : (w.setBus f).m.rings = w.m.rings := rfl
@[simp] theorem W.setBus_rails (w : W) (f : Bus → Bus) : (w.setBus f).m.rails = w.m.rails := rfl
@[simp] theorem W.setBus_sectors (w : W) (f : Bus → Bus) : (w.setBus f).m.sectors = w.m.sectors := rfl
@[simp] theorem W.setBus_links (w : W) (f : Bus → Bus) : (w.setBus f).m.links = w.m.links := rfl
@[simp] theorem W.setBus_boot (w : W) (f : Bus → Bus) : (w.setBus f).m.boot = w.m.boot := rfl

@[simp] theorem W.setMmu_clk (w : W) (f : Mmu → Mmu) : (w.setMmu f).clk = w.clk := rfl
@[simp] theorem W.setMmu_base (w : W) (f : Mmu → Mmu) : (w.setMmu f).base = w.base := rfl
@[simp] theorem W.setMmu_log (w : W) (f : Mmu → Mmu) : (w.setMmu f).log = w.log := rfl
@[simp] theorem W.setMmu_cur (w : W) (f : Mmu → Mmu) : (w.setMmu f).m.cur = w.m.cur := rfl
@[simp] theorem W.setMmu_draw (w : W) (f : Mmu → Mmu) : (w.setMmu f).m.draw = w.m.draw := rfl
@[simp] theorem W.setMmu_nextId (w : W) (f : Mmu → Mmu) : (w.setMmu f).m.nextId = w.m.nextId := rfl
@[simp] theorem W.setMmu_seqs (w : W) (f : Mmu → Mmu) : (w.setMmu f).m.seqs = w.m.seqs := rfl
@[simp] theorem W.setMmu_regions (w : W) (f : Mmu → Mmu) : (w.setMmu f).m.regions = w.m.regions := rfl
@[simp] theorem W.setMmu_parts (w : W) (f : Mmu → Mmu) : (w.setMmu f).m.parts = w.m.parts := rfl
@[simp] theorem W.setMmu_queues (w : W) (f : Mmu → Mmu) : (w.setMmu f).m.queues = w.m.queues := rfl
@[simp] theorem W.setMmu_bus (w : W) (f : Mmu → Mmu) : (w.setMmu f).m.bus = w.m.bus := rfl
@[simp] theorem W.setMmu_mmu (w : W) (f : Mmu → Mmu) : (w.setMmu f).m.mmu = f w.m.mmu := rfl
@[simp] theorem W.setMmu_hub (w : W) (f : Mmu → Mmu) : (w.setMmu f).m.hub = w.m.hub := rfl
@[simp] theorem W.setMmu_bar (w : W) (f : Mmu → Mmu) : (w.setMmu f).m.bar = w.m.bar := rfl
@[simp] theorem W.setMmu_rings (w : W) (f : Mmu → Mmu) : (w.setMmu f).m.rings = w.m.rings := rfl
@[simp] theorem W.setMmu_rails (w : W) (f : Mmu → Mmu) : (w.setMmu f).m.rails = w.m.rails := rfl
@[simp] theorem W.setMmu_sectors (w : W) (f : Mmu → Mmu) : (w.setMmu f).m.sectors = w.m.sectors := rfl
@[simp] theorem W.setMmu_links (w : W) (f : Mmu → Mmu) : (w.setMmu f).m.links = w.m.links := rfl
@[simp] theorem W.setMmu_boot (w : W) (f : Mmu → Mmu) : (w.setMmu f).m.boot = w.m.boot := rfl

@[simp] theorem W.setBoot_clk (w : W) (f : Boot → Boot) : (w.setBoot f).clk = w.clk := rfl
@[simp] theorem W.setBoot_base (w : W) (f : Boot → Boot) : (w.setBoot f).base = w.base := rfl
@[simp] theorem W.setBoot_log (w : W) (f : Boot → Boot) : (w.setBoot f).log = w.log := rfl
@[simp] theorem W.setBoot_cur (w : W) (f : Boot → Boot) : (w.setBoot f).m.cur = w.m.cur := rfl
@[simp] theorem W.setBoot_draw (w : W) (f : Boot → Boot) : (w.setBoot f).m.draw = w.m.draw := rfl
@[simp] theorem W.setBoot_nextId (w : W) (f : Boot → Boot) : (w.setBoot f).m.nextId = w.m.nextId := rfl
@[simp] theorem W.setBoot_seqs (w : W) (f : Boot → Boot) : (w.setBoot f).m.seqs = w.m.seqs := rfl
@[simp] theorem W.setBoot_regions (w : W) (f : Boot → Boot) : (w.setBoot f).m.regions = w.m.regions := rfl
@[simp] theorem W.setBoot_parts (w : W) (f : Boot → Boot) : (w.setBoot f).m.parts = w.m.parts := rfl
@[simp] theorem W.setBoot_queues (w : W) (f : Boot → Boot) : (w.setBoot f).m.queues = w.m.queues := rfl
@[simp] theorem W.setBoot_bus (w : W) (f : Boot → Boot) : (w.setBoot f).m.bus = w.m.bus := rfl
@[simp] theorem W.setBoot_mmu (w : W) (f : Boot → Boot) : (w.setBoot f).m.mmu = w.m.mmu := rfl
@[simp] theorem W.setBoot_hub (w : W) (f : Boot → Boot) : (w.setBoot f).m.hub = w.m.hub := rfl
@[simp] theorem W.setBoot_bar (w : W) (f : Boot → Boot) : (w.setBoot f).m.bar = w.m.bar := rfl
@[simp] theorem W.setBoot_rings (w : W) (f : Boot → Boot) : (w.setBoot f).m.rings = w.m.rings := rfl
@[simp] theorem W.setBoot_rails (w : W) (f : Boot → Boot) : (w.setBoot f).m.rails = w.m.rails := rfl
@[simp] theorem W.setBoot_sectors (w : W) (f : Boot → Boot) : (w.setBoot f).m.sectors = w.m.sectors := rfl
@[simp] theorem W.setBoot_links (w : W) (f : Boot → Boot) : (w.setBoot f).m.links = w.m.links := rfl
@[simp] theorem W.setBoot_boot (w : W) (f : Boot → Boot) : (w.setBoot f).m.boot = f w.m.boot := rfl

@[simp] theorem W.setSector_clk (w : W) (n : Nat) (f : Sector → Sector) : (w.setSector n f).clk = w.clk := rfl
@[simp] theorem W.setSector_base (w : W) (n : Nat) (f : Sector → Sector) : (w.setSector n f).base = w.base := rfl
@[simp] theorem W.setSector_log (w : W) (n : Nat) (f : Sector → Sector) : (w.setSector n f).log = w.log := rfl
@[simp] theorem W.setSector_cur (w : W) (n : Nat) (f : Sector → Sector) : (w.setSector n f).m.cur = w.m.cur := rfl
@[simp] theorem W.setSector_draw (w : W) (n : Nat) (f : Sector → Sector) : (w.setSector n f).m.draw = w.m.draw := rfl
@[simp] theorem W.setSector_nextId (w : W) (n : Nat) (f : Sector → Sector) : (w.setSector n f).m.nextId = w.m.nextId := rfl
@[simp] theorem W.setSector_seqs (w : W) (n : Nat) (f : Sector → Sector) : (w.setSector n f).m.seqs = w.m.seqs := rfl
@[simp] theorem W.setSector_regions (w : W) (n : Nat) (f : Sector → Sector) : (w.setSector n f).m.regions = w.m.regions := rfl
@[simp] theorem W.setSector_parts (w : W) (n : Nat) (f : Sector → Sector) : (w.setSector n f).m.parts = w.m.parts := rfl
@[simp] theorem W.setSector_queues (w : W) (n : Nat) (f : Sector → Sector) : (w.setSector n f).m.queues = w.m.queues := rfl
@[simp] theorem W.setSector_bus (w : W) (n : Nat) (f : Sector → Sector) : (w.setSector n f).m.bus = w.m.bus := rfl
@[simp] theorem W.setSector_mmu (w : W) (n : Nat) (f : Sector → Sector) : (w.setSector n f).m.mmu = w.m.mmu := rfl
@[simp] theorem W.setSector_hub (w : W) (n : Nat) (f : Sector → Sector) : (w.setSector n f).m.hub = w.m.hub := rfl
@[simp] theorem W.setSector_bar (w : W) (n : Nat) (f : Sector → Sector) : (w.setSector n f).m.bar = w.m.bar := rfl
@[simp] theorem W.setSector_rings (w : W) (n : Nat) (f : Sector → Sector) : (w.setSector n f).m.rings = w.m.rings := rfl
@[simp] theorem W.setSector_rails (w : W) (n : Nat) (f : Sector → Sector) : (w.setSector n f).m.rails = w.m.rails := rfl
@[simp] theorem W.setSector_sectors (w : W) (n : Nat) (f : Sector → Sector) : (w.setSector n f).m.sectors = tput w.m.sectors n (f (w.sector n)) := rfl
@[simp] theorem W.setSector_links (w : W) (n : Nat) (f : Sector → Sector) : (w.setSector n f).m.links = w.m.links := rfl
@[simp] theorem W.setSector_boot (w : W) (n : Nat) (f : Sector → Sector) : (w.setSector n f).m.boot = w.m.boot := rfl

@[simp] theorem W.setRail_clk (w : W) (n : Nat) (f : Rail → Rail) : (w.setRail n f).clk = w.clk := rfl
@[simp] theorem W.setRail_base (w : W) (n : Nat) (f : Rail → Rail) : (w.setRail n f).base = w.base := rfl
@[simp] theorem W.setRail_log (w : W) (n : Nat) (f : Rail → Rail) : (w.setRail n f).log = w.log := rfl
@[simp] theorem W.setRail_cur (w : W) (n : Nat) (f : Rail → Rail) : (w.setRail n f).m.cur = w.m.cur := rfl
@[simp] theorem W.setRail_draw (w : W) (n : Nat) (f : Rail → Rail) : (w.setRail n f).m.draw = w.m.draw := rfl
@[simp] theorem W.setRail_nextId (w : W) (n : Nat) (f : Rail → Rail) : (w.setRail n f).m.nextId = w.m.nextId := rfl
@[simp] theorem W.setRail_seqs (w : W) (n : Nat) (f : Rail → Rail) : (w.setRail n f).m.seqs = w.m.seqs := rfl
@[simp] theorem W.setRail_regions (w : W) (n : Nat) (f : Rail → Rail) : (w.setRail n f).m.regions = w.m.regions := rfl
@[simp] theorem W.setRail_parts (w : W) (n : Nat) (f : Rail → Rail) : (w.setRail n f).m.parts = w.m.parts := rfl
@[simp] theorem W.setRail_queues (w : W) (n : Nat) (f : Rail → Rail) : (w.setRail n f).m.queues = w.m.queues := rfl
@[simp] theorem W.setRail_bus (w : W) (n : Nat) (f : Rail → Rail) : (w.setRail n f).m.bus = w.m.bus := rfl
@[simp] theorem W.setRail_mmu (w : W) (n : Nat) (f : Rail → Rail) : (w.setRail n f).m.mmu = w.m.mmu := rfl
@[simp] theorem W.setRail_hub (w : W) (n : Nat) (f : Rail → Rail) : (w.setRail n f).m.hub = w.m.hub := rfl
@[simp] theorem W.setRail_bar (w : W) (n : Nat) (f : Rail → Rail) : (w.setRail n f).m.bar = w.m.bar := rfl
@[simp] theorem W.setRail_rings (w : W) (n : Nat) (f : Rail → Rail) : (w.setRail n f).m.rings = w.m.rings := rfl
@[simp] theorem W.setRail_rails (w : W) (n : Nat) (f : Rail → Rail) : (w.setRail n f).m.rails = tput w.m.rails n (f (w.rail n)) := rfl
@[simp] theorem W.setRail_sectors (w : W) (n : Nat) (f : Rail → Rail) : (w.setRail n f).m.sectors = w.m.sectors := rfl
@[simp] theorem W.setRail_links (w : W) (n : Nat) (f : Rail → Rail) : (w.setRail n f).m.links = w.m.links := rfl
@[simp] theorem W.setRail_boot (w : W) (n : Nat) (f : Rail → Rail) : (w.setRail n f).m.boot = w.m.boot := rfl

@[simp] theorem W.setBar_clk (w : W) (o : Nat) (v : W64) : (w.setBar o v).clk = w.clk := rfl
@[simp] theorem W.setBar_base (w : W) (o : Nat) (v : W64) : (w.setBar o v).base = w.base := rfl
@[simp] theorem W.setBar_log (w : W) (o : Nat) (v : W64) : (w.setBar o v).log = w.log := rfl
@[simp] theorem W.setBar_cur (w : W) (o : Nat) (v : W64) : (w.setBar o v).m.cur = w.m.cur := rfl
@[simp] theorem W.setBar_draw (w : W) (o : Nat) (v : W64) : (w.setBar o v).m.draw = w.m.draw := rfl
@[simp] theorem W.setBar_nextId (w : W) (o : Nat) (v : W64) : (w.setBar o v).m.nextId = w.m.nextId := rfl
@[simp] theorem W.setBar_seqs (w : W) (o : Nat) (v : W64) : (w.setBar o v).m.seqs = w.m.seqs := rfl
@[simp] theorem W.setBar_regions (w : W) (o : Nat) (v : W64) : (w.setBar o v).m.regions = w.m.regions := rfl
@[simp] theorem W.setBar_parts (w : W) (o : Nat) (v : W64) : (w.setBar o v).m.parts = w.m.parts := rfl
@[simp] theorem W.setBar_queues (w : W) (o : Nat) (v : W64) : (w.setBar o v).m.queues = w.m.queues := rfl
@[simp] theorem W.setBar_bus (w : W) (o : Nat) (v : W64) : (w.setBar o v).m.bus = w.m.bus := rfl
@[simp] theorem W.setBar_mmu (w : W) (o : Nat) (v : W64) : (w.setBar o v).m.mmu = w.m.mmu := rfl
@[simp] theorem W.setBar_hub (w : W) (o : Nat) (v : W64) : (w.setBar o v).m.hub = w.m.hub := rfl
@[simp] theorem W.setBar_bar (w : W) (o : Nat) (v : W64) : (w.setBar o v).m.bar = barPut w.m.bar o v := rfl
@[simp] theorem W.setBar_rings (w : W) (o : Nat) (v : W64) : (w.setBar o v).m.rings = w.m.rings := rfl
@[simp] theorem W.setBar_rails (w : W) (o : Nat) (v : W64) : (w.setBar o v).m.rails = w.m.rails := rfl
@[simp] theorem W.setBar_sectors (w : W) (o : Nat) (v : W64) : (w.setBar o v).m.sectors = w.m.sectors := rfl
@[simp] theorem W.setBar_links (w : W) (o : Nat) (v : W64) : (w.setBar o v).m.links = w.m.links := rfl
@[simp] theorem W.setBar_boot (w : W) (o : Nat) (v : W64) : (w.setBar o v).m.boot = w.m.boot := rfl

@[simp] theorem W.pmc_clk (w : W) (q e n : Nat) : (w.pmc q e n).clk = w.clk := rfl
@[simp] theorem W.pmc_base (w : W) (q e n : Nat) : (w.pmc q e n).base = w.base := rfl
@[simp] theorem W.pmc_log (w : W) (q e n : Nat) : (w.pmc q e n).log = w.log := rfl
@[simp] theorem W.pmc_cur (w : W) (q e n : Nat) : (w.pmc q e n).m.cur = w.m.cur := rfl
@[simp] theorem W.pmc_draw (w : W) (q e n : Nat) : (w.pmc q e n).m.draw = w.m.draw := rfl
@[simp] theorem W.pmc_nextId (w : W) (q e n : Nat) : (w.pmc q e n).m.nextId = w.m.nextId := rfl
@[simp] theorem W.pmc_seqs (w : W) (q e n : Nat) : (w.pmc q e n).m.seqs = w.m.seqs := rfl
@[simp] theorem W.pmc_regions (w : W) (q e n : Nat) : (w.pmc q e n).m.regions = w.m.regions := rfl
@[simp] theorem W.pmc_parts (w : W) (q e n : Nat) : (w.pmc q e n).m.parts = w.m.parts := rfl
@[simp] theorem W.pmc_queues (w : W) (q e n : Nat) : (w.pmc q e n).m.queues = w.m.queues := rfl
@[simp] theorem W.pmc_bus (w : W) (q e n : Nat) : (w.pmc q e n).m.bus = w.m.bus := rfl
@[simp] theorem W.pmc_mmu (w : W) (q e n : Nat) : (w.pmc q e n).m.mmu = w.m.mmu := rfl
@[simp] theorem W.pmc_hub (w : W) (q e n : Nat) : (w.pmc q e n).m.hub = w.m.hub := rfl
@[simp] theorem W.pmc_bar (w : W) (q e n : Nat) : (w.pmc q e n).m.bar = pmcAdd w.m.bar q e n := rfl
@[simp] theorem W.pmc_rings (w : W) (q e n : Nat) : (w.pmc q e n).m.rings = w.m.rings := rfl
@[simp] theorem W.pmc_rails (w : W) (q e n : Nat) : (w.pmc q e n).m.rails = w.m.rails := rfl
@[simp] theorem W.pmc_sectors (w : W) (q e n : Nat) : (w.pmc q e n).m.sectors = w.m.sectors := rfl
@[simp] theorem W.pmc_links (w : W) (q e n : Nat) : (w.pmc q e n).m.links = w.m.links := rfl
@[simp] theorem W.pmc_boot (w : W) (q e n : Nat) : (w.pmc q e n).m.boot = w.m.boot := rfl

@[simp] theorem W.write_clk (w : W) (a : Nat) (b : Byte) : (w.write a b).clk = w.clk := rfl
@[simp] theorem W.write_base (w : W) (a : Nat) (b : Byte) : (w.write a b).base = w.base := rfl
@[simp] theorem W.write_m (w : W) (a : Nat) (b : Byte) : (w.write a b).m = w.m := rfl
@[simp] theorem W.write_log (w : W) (a : Nat) (b : Byte) : (w.write a b).log = (a, b) :: w.log := rfl

end Sys2Proof.Machine
end

