-- ==== Sys2Proof/Laws/Tbl.lean ====
section
/-! SUPPORT. Sys2Proof/Laws/Tbl.lean: the laws of sparse tables and of byte memory: a read after a write, the canonical form, and that every memory
operation keeps it. -/

namespace Sys2Proof.Machine

/-! ## Tables -/

/-- What a table holds after an entry is set. -/
theorem tget_tput {α : Type} (t : Tbl α) (k j : Nat) (v : α) : tget (tput t k v) j = if j = k then some v else tget t j := by
  fun_induction tput t k v <;> grind [tget]
@[simp] theorem tget_tput_self {α : Type} (t : Tbl α) (k : Nat) (v : α) : tget (tput t k v) k = some v := by simp [tget_tput]
theorem tget_tput_ne {α : Type} (t : Tbl α) (k j : Nat) (v : α) (h : j ≠ k) : tget (tput t k v) j = tget t j := by simp [tget_tput, h]
@[simp] theorem tput_tput {α : Type} (t : Tbl α) (k : Nat) (v w : α) : tput (tput t k v) k w = tput t k w := by
  fun_induction tput t k v <;> grind [tput]

@[simp] theorem tgetD_tput_self {α : Type} (t : Tbl α) (k : Nat) (v d : α) : tgetD (tput t k v) k d = v := by simp [tgetD]
theorem tgetD_tput_ne {α : Type} (t : Tbl α) (k j : Nat) (v d : α) (h : j ≠ k) : tgetD (tput t k v) j d = tgetD t j d := by
  simp [tgetD, tget_tput_ne t k j v h]
theorem tgetD_of_tget {α : Type} {t : Tbl α} {k : Nat} {v : α} (d : α) (h : tget t k = some v) : tgetD t k d = v := by simp [tgetD, h]

/-- What a table holds after an entry, if there is one, has changed. -/
theorem tget_tmod {α : Type} (t : Tbl α) (k j : Nat) (f : α → α) : tget (tmod t k f) j = if j = k then (tget t k).map f else tget t j := by
  cases h : tget t k <;> simp [tmod, h, tget_tput]
  rintro rfl; exact h
theorem tmod_of_tget {α : Type} {t : Tbl α} {k : Nat} {v : α} (f : α → α) (h : tget t k = some v) : tmod t k f = tput t k (f v) := by
  simp [tmod, h]
theorem tget_tmod_self {α : Type} (t : Tbl α) (k : Nat) (f : α → α) : tget (tmod t k f) k = (tget t k).map f := by simp [tget_tmod]
theorem tget_tmod_ne {α : Type} (t : Tbl α) (k j : Nat) (f : α → α) (h : j ≠ k) : tget (tmod t k f) j = tget t j := by simp [tget_tmod, h]

/-- What a table holds after an entry is removed. -/
theorem tget_tdel {α : Type} (t : Tbl α) (k j : Nat) : tget (tdel t k) j = if j = k then none else tget t j := by
  fun_induction tdel t k <;> grind [tget]
@[simp] theorem tget_tdel_self {α : Type} (t : Tbl α) (k : Nat) : tget (tdel t k) k = none := by simp [tget_tdel]
theorem tget_tdel_ne {α : Type} (t : Tbl α) (k j : Nat) (h : j ≠ k) : tget (tdel t k) j = tget t j := by simp [tget_tdel, h]

/-! ## Byte memory -/

theorem memWfFrom_mono {m : Memory} {lo hi : Nat} (h : lo ≤ hi) (w : memWfFrom hi m = true) : memWfFrom lo m = true := by
  cases m <;> grind [memWfFrom]
/-- A write keeps the canonical form from a lower bound on. -/
theorem memWrite_wfFrom {m : Memory} {lo a : Nat} (b : Byte) (ha : lo ≤ a) (h : memWfFrom lo m = true) :
    memWfFrom lo (memWrite m a b) = true := by
  fun_induction memWrite m a b generalizing lo with
  | case5 => exact memWfFrom_mono (Nat.le_succ_of_le ha) (by simp_all [memWfFrom])
  | _ => grind [memWfFrom]
/-- A write keeps the canonical form. -/
theorem memWrite_wf {m : Memory} (a : Nat) (b : Byte) (h : m.wf = true) : (memWrite m a b).wf = true :=
  memWrite_wfFrom b (Nat.zero_le a) h
/-- Writes of bytes keep the canonical form. -/
theorem memPut_wf {m : Memory} (a : Nat) (bs : List Byte) (h : m.wf = true) : (memPut m a bs).wf = true := by
  fun_induction memPut m a bs with
  | case1 => exact h
  | case2 _ _ _ _ ih => exact ih (memWrite_wf _ _ h)
/-- The writes of an instruction keep the canonical form. -/
theorem applyLog_wf {m : Memory} (l : List Host.Cell) (h : m.wf = true) : (applyLog m l).wf = true := by
  fun_induction applyLog m l <;> simp_all [memWrite_wf]

/-- Nothing is listed below the lower bound. -/
theorem memRead_of_below {m : Memory} {lo a : Nat} (h : memWfFrom lo m = true) (ha : a < lo) : memRead m a = unlisted := by
  fun_induction memRead m a generalizing lo <;> grind [memWfFrom]
/-- A read of the byte just written, in a memory of the canonical form. -/
theorem memRead_memWrite_self {m : Memory} {lo : Nat} (a : Nat) (b : Byte) (h : memWfFrom lo m = true) : memRead (memWrite m a b) a = b := by
  fun_induction memWrite m a b generalizing lo <;> grind [memWfFrom, memRead, memRead_of_below]
/-- A write leaves every other byte alone. -/
theorem memRead_memWrite_ne (m : Memory) (a c : Nat) (b : Byte) (h : c ≠ a) : memRead (memWrite m a b) c = memRead m c := by
  fun_induction memWrite m a b <;> grind [memRead]

end Sys2Proof.Machine
end

