-- ==== Sys2Proof/Laws/Elem.lean ====
section
/-! SUPPORT. Sys2Proof/Laws/Elem.lean: what an element's firing does, once for each shared operation. -/

namespace Sys2Proof.Machine

/-- The record of the element that fires. -/
theorem Fires.elem_eq {s : State} {e : ERef} {x : Elem} {u : Uses} {i : Ins} (h : Fires s e x u i) : (W.of s).elem e = x := by
  obtain ⟨g, hg, hx⟩ := h.reg
  simp [W.elem, W.region, tgetD, hg, hx]

/-- A meaning of the element whose turn it is. -/
theorem Fires.runElem_eq {s : State} {e : ERef} {x : Elem} {u : Uses} {i : Ins} (h : Fires s e x u i) (f : ERef → W → W) :
    runElem s f = .next ((f e (W.of s)).commit s) := by
  obtain ⟨g, hg, hx⟩ := h.reg
  simp only [ERef.key] at hx
  simp [runElem, run, h.cur, hg, hx]

/-- A firing whatever the tokens. -/
theorem Fires.fireAny_eq {s : State} {e : ERef} {x : Elem} {u : Uses} {i : Ins} (h : Fires s e x u i) (f : Elem → Ins → W → W) :
    ((W.of s).fireAny e u f).commit s = s.fired e i (f x i) := by
  simp [W.fireAny, h.may, h.elem_eq, h.ins, h.grants, State.fired]

/-- A firing that sends n results from an edge on: its output stage holds none for those edges (R18). -/
theorem Fires.fireAny_need {s : State} {e : ERef} {x : Elem} {u : Uses} {i : Ins} (h : Fires s e x u i) (f : Elem → Ins → W → W) (need : Elem → Ins → Nat × Nat)
    (hu : x.unreserved ((W.of s).edgeOf (s.region e.r) e.cell + (need x i).2 + x.pass) (need x i).1 = true) :
    ((W.of s).fireAny e u f need).commit s = s.fired e i (f x i) := by
  simp only [State.region] at hu
  simp [W.fireAny, h.may, h.elem_eq, h.ins, h.grants, hu, State.fired]

/-- An ordinary firing on data. -/
theorem Fires.fire_eq {s : State} {e : ERef} {x : Elem} {u : Uses} {i : Ins} (h : Fires s e x u i) (hn : i.anyNull = false) (lat : Nat)
    (f : Elem → Ins → W → W) : ((W.of s).fire e u lat f).commit s = s.fired e i (f x i) := by
  simp [W.fire, h.fireAny_eq, hn]

/-- An ordinary firing on a null. -/
theorem Fires.fire_null {s : State} {e : ERef} {x : Elem} {u : Uses} {i : Ins} (h : Fires s e x u i) (hn : i.anyNull = true) (lat : Nat)
    (f : Elem → Ins → W → W) : ((W.of s).fire e u lat f).commit s = s.fired e i fun w => w.flyBoth e lat i.nullOut 0 := by
  simp [W.fire, h.fireAny_eq, hn]

/-! ## Memory cells -/

theorem CellFires.elem_eq {s : State} {e : ERef} {x : Elem} {u : Uses} {b : Bool} {i : Ins} (h : CellFires s e x u b i) : (W.of s).elem e = x := by
  obtain ⟨g, hg, hx⟩ := h.reg
  simp [W.elem, W.region, tgetD, hg, hx]

theorem CellFires.runElem_eq {s : State} {e : ERef} {x : Elem} {u : Uses} {b : Bool} {i : Ins} (h : CellFires s e x u b i) (f : ERef → W → W) :
    runElem s f = .next ((f e (W.of s)).commit s) := by
  obtain ⟨g, hg, hx⟩ := h.reg
  simp only [ERef.key] at hx
  simp [runElem, run, h.cur, hg, hx]

/-- A global access whose turn it is: a null as its result, or the access. -/
theorem CellFires.globalFire_eq {s : State} {e : ERef} {x : Elem} {u : Uses} {b : Bool} {i : Ins} (h : CellFires s e x u b i) (null : Ins → Bool)
    (f : Elem → Ins → W → W) : ((W.of s).globalFire e u b null f).commit s =
      if null i then s.fired e i (fun w => w.flyBoth e 1 i.nullOut 0) else (f x i (W.of s)).commit s := by
  simp only [W.globalFire, h.turn, if_true, h.elem_eq, h.ins, State.fired]
  split <;> rfl

/-- A global access that is placed and allowed is sent. -/
theorem CellPlaced.globalAccess_eq {s : State} {e : ERef} {i : Ins} {o : GlobalOp} {f : Nat → W → W} {w : W} {ls : List Leaf} {ps : List Piece}
    {ts : List Nat} (hp : CellPlaced s e o.va o.len o.align o.access o.touch w ls ps ts) (ho : o.placed ls = true) :
    ((W.of s).globalAccess e i o f).commit s = s.cellSent e i o.va w ls ps ts o.req f := by
  have h1 : ¬ (o.va.toNat / 2 ^ 56 ≠ 0 ∨ inScratch o.va = true) := by
    have h1 := hp.low
    have h2 := hp.global
    simp only [h2, Bool.false_eq_true, or_false]
    omega
  have h2 := hp.placed
  simp only [State.region] at h2
  unfold W.globalAccess
  simp only [hp.aligned, ne_eq, not_true_eq_false, if_false]
  rw [if_neg h1]
  simp only [h2, ho, Bool.not_true, Bool.false_eq_true, if_false]
  rfl

theorem BankFires.runElem_eq {s : State} {e : ERef} {x : Elem} {b : Bool} {i : Ins} (h : BankFires s e x b i) (f : ERef → W → W) :
    runElem s f = .next ((f e (W.of s)).commit s) := by
  obtain ⟨g, hg, hx⟩ := h.reg
  simp only [ERef.key] at hx
  simp [runElem, run, h.cur, hg, hx]

theorem BankFires.elem_eq {s : State} {e : ERef} {x : Elem} {b : Bool} {i : Ins} (h : BankFires s e x b i) : (W.of s).elem e = x := by
  obtain ⟨g, hg, hx⟩ := h.reg
  simp [W.elem, W.region, tgetD, hg, hx]

/-- A bank element that fires. -/
theorem BankFires.bankFire_eq {s : State} {e : ERef} {x : Elem} {b : Bool} {i : Ins} (h : BankFires s e x b i) (f : Elem → Ins → W → W) :
    ((W.of s).bankFire e b f).commit s = s.bankFired e i b (f x i) := by
  simp [W.bankFire, h.ready, h.slot, h.ins, h.elem_eq, State.bankFired]

/-! ## Matrix cells -/

/-- The row offset that a drain or write instruction reads: the one it waits with, else lane 0 of R, else 0 (R205). -/
theorem W.rowOff_of {w : W} {e : ERef} {i : Ins} {off : Nat}
    (h : match tget (w.mx e.r e.cell).hands e.slot with
      | some x => off = x.2.1
      | none => off = (if i.rT then (i.r.lane 0).toNat else 0) ∧ (i.rT = true → i.r.emptyAt 0 = false)) : w.rowOff e i = (w, off) := by
  unfold W.rowOff
  cases hh : tget (w.mx e.r e.cell).hands e.slot with
  | some x => simp_all
  | none =>
    rw [hh] at h
    obtain ⟨h1, h2⟩ := h
    by_cases ht : i.rT = true
    · simp [h1, ht, W.laneOrFree, h2 ht]
    · simp [h1, ht]

/-- A drain of a matrix cell whose trigger is data and whose rows R206 leaves to it: the trigger is consumed, rows outside the store fault with 0x110, and
otherwise the drain acts: it faults, or the cell changes and its tokens go out as a burst. -/
theorem Fires.triggerOp_eq {s : State} {f : EFields} {e : ERef} {x : Elem} {i : Ins} {m : Mx} {c : Cell} {act} {off : Nat} {rows : List Nat}
   (hf : Fires s e x { ro := true } i) (hfl : x.flights = []) (hn : i.anyNull = false) (ho : (W.of s).rowOff e i = (W.of s, off))
   (hm : m = s.mx e.r e.cell) (hc : c = s.cell e.r e.cell) (hrow : rows = drainSpan c x (f.imm.toNat + off) [])
   (ht : (W.of s).drainTurn e rows = true) :
   triggerOp s f act = .next (s.fired e i fun w =>
     let w := w.setElem e fun x => { x with opened := false, buf := [] }
     if rows.any fun r => decide (c.rowCount ≤ r) then w.raiseElem e 0x110 0 (some i.l)
     else match act (f.imm.toNat + off) c x { m with hands := tdel m.hands e.slot } with
      | .fault code => w.raiseElem e code 0 (some i.l)
      | .done m out lat fl lf =>
        ((w.setMatrix e m).setElem e fun x => { x with lfsr := lf }).flyBurst e lat
          (out.map fun t => { t with rel := relOf i.toks, last := i.toks.any (·.last), log := i.toks.findSome? (·.log) }) fl) := by
  unfold triggerOp
  rw [hf.runElem_eq]
  have h1 := hf.may
  have h2 := hf.elem_eq
  have h3 := hf.ins
  have h4 := hf.grants
  simp only [State.mx] at hm
  simp only [State.cell] at hc
  subst hm hc hrow
  simp only [h1, h2, h3, hfl, List.isEmpty_nil, Bool.not_true, Bool.or_self, Bool.false_eq_true, if_false, h4, hn, ho, W.drain, ht]
  rfl

end Sys2Proof.Machine
end

