-- ==== Sys2Proof/Laws/Seq.lean ====
section
/-! SUPPORT. Sys2Proof/Laws/Seq.lean: what the sequencer's shared operations do, once for each. -/

namespace Sys2Proof.Machine

/-- What a completed instruction of the sequencer leaves. -/
theorem W.seqDone_commit {s : State} {q : Nat} {sq : Seq} (h : tget s.m.seqs q = some sq) (f : Seq → Seq) :
    ((W.of s).seqDone q f).commit s = s.issued q (f sq).after := by
  simp [W.seqDone, W.commit, W.setSeq, W.pmc, State.issued, State.nextIssue, W.seqCycle, W.now, Seq.after, W.of, tmod, h, applyLog]

/-- A change of the sequencer's record before it completes its instruction. -/
theorem W.setSeq_seqDone (w : W) (q : Nat) (f g : Seq → Seq) : (w.setSeq q g).seqDone q f = w.seqDone q fun sq => f (g sq) := by
  cases h : tget w.m.seqs q <;> simp [W.seqDone, W.setSeq, W.pmc, W.seqCycle, W.now, tmod, h]

/-- What a jump leaves. -/
theorem W.seqJump_commit {s : State} {q : Nat} {sq : Seq} (h : tget s.m.seqs q = some sq) (f : Seq → Seq) :
    ((W.of s).seqJump q f).commit s = s.issued q { f sq with wait := none } := by
  simp [W.seqJump, W.commit, W.setSeq, W.pmc, State.issued, State.nextIssue, W.seqCycle, W.now, W.of, tmod, h, applyLog]

/-- What a hold leaves, when the sequencer was not held. -/
theorem W.seqHold_commit {s : State} {q : Nat} {sq : Seq} (h : tget s.m.seqs q = some sq) (hw : sq.wait = none) (x : SeqWait) :
    ((W.of s).seqHold q x).commit s = s.held q sq x := by
  simp [W.seqHold, W.commit, W.setSeq, State.held, State.nextIssue, W.seqCycle, W.now, W.ns, W.of, tmod, h, hw, applyLog, State.ns]

/-- A meaning of the sequencer whose turn it is. -/
theorem runSeq_turn {s : State} {q : Nat} {sq : Seq} (h : SeqTurn s q sq) (f : Nat → Seq → W → W) :
    runSeq s f = .next ((f q sq (W.of s)).commit s) := by simp [runSeq, run, h.cur, h.here]

/-- The record of the sequencer whose turn it is. -/
theorem SeqTurn.seq_eq {s : State} {q : Nat} {sq : Seq} (h : SeqTurn s q sq) : (W.of s).seq q = sq := by
  simp [W.seq, tgetD, h.here]

/-- A meaning that does nothing. -/
theorem W.of_commit (s : State) : (W.of s).commit s = s := by simp [W.of, W.commit, applyLog]

/-- What a completed instruction leaves in a state that shows the same record. -/
theorem W.seqDone_commit_of {s : State} {w : W} {q : Nat} {sq : Seq} (h : tget w.m.seqs q = some sq) (f : Seq → Seq) :
    (w.seqDone q f).commit s =
      { s with mem := applyLog s.mem w.log, m := { w.m with seqs := tput w.m.seqs q { (f sq).after with nextAt := w.seqCycle 1 }, bar := pmcAdd w.m.bar q 13 1 } } := by
  simp [W.seqDone, W.commit, W.setSeq, W.pmc, Seq.after, tmod, h]

/-- A global access of a sequencer that is placed and allowed is issued, under the next free number. -/
theorem W.seqAccess_ok {w w' : W} {q : Nat} {d : BitVec 5} {ea : W64} {len : Nat} {a : Access} {t : Touch} {ok : List Leaf → Option Nat} {r : Req}
    {f : Nat → W → W} {ls : List Leaf} {ps : List Piece} {ts : List Nat}
    (h : w.placed (.seq q d.toNat) (w.seq q).part ea len a t 0xE = (w', .ok (ls, ps, ts))) (hok : ok ls = none) :
    w.seqAccess q d ea len a t ok r f =
      f (w'.m.nextId + 1) (w'.issue { r with
        die := q / 40, part := (w.seq q).part, src := .seq q d.toNat, va := ea, size := len, pieces := ps
        xlate := ts, place := (ls.map (·.place)).headD 0, ref := (w.seq q).latest }).1 := by
  unfold W.seqAccess
  simp only [h, hok]
  rfl

end Sys2Proof.Machine
end

