-- ==== Sys2Proof/Laws/Exec.lean ====
section
/-! SUPPORT. Sys2Proof/Laws/Exec.lean: what exec does with any instruction of a kind: which of the three ways of running a meaning it takes, and
so what no meaning can do. -/

namespace Sys2Proof.Machine

/-- A sequencer instruction is executed by the sequencer whose turn it is. -/
theorem exec_seq (i : Instr) (h : i.kind = .seq) (s : State) : ∃ f, exec i s = runSeq s f := by
  cases i <;> first
    | (cases h; done)
    | (dsimp only [
        exec, execAdd, execSub, execMul, execMulh, execDiv, execRem, execAnd, execOr, execXor, execShl, execShr, execSar, execSlt, execSltu,
        execMin, execMax, execAddi, execAndi, execOri, execXori, execShli, execShri, execSari, execSlti, execLih, execSext, execLdb, execLdh,
        execLdw, execLdd, execStb, execSth, execStw, execStd, execPrd, execPlen, execAmo, execAcas, execBeq, execBne, execBlt, execBge, execBltu,
        execBgeu, execJal, execJalr, execFence, execWaitc, execWany, execWall, execTfirst, execTclr, execMwait, execSleep, execCopy, execCopyx,
        execColl, execQapp, execSignal, execHpost, execStart, execWdone, execReconf, execRate, execGraise, execStep, execPnrd, execCsrr,
        execCsrw, execCsrs, execTrap, execEret, execYield, execHalt, execNop, execTime, execInj, execTake]
       exact ⟨_, rfl⟩)

/-- An element, switch or controller instruction is executed by the element whose turn it is. -/
theorem exec_elem (i : Instr) (h : i.kind = .elem) (s : State) : ∃ f, exec i s = runElem s f := by
  cases i <;> first
    | (cases h; done)
    | (dsimp only [
        exec, intOp, satOp, fpOp, convOp, burstOp, moveOp, reduceOp, vecOp, triggerOp, blockOp, storeOp, atomOp, treeNode, execPass, execVcAdd,
        execVcSub, execAdds, execSubs, execVcMul, execVcMulh, execMad, execVcMin, execVcMax, execAbs, execVcAnd, execVcOr, execVcXor, execAndn,
        execVcShl, execVcShr, execVcSar, execRol, execClz, execPopc, execCmp, execSel, execClamp, execNarrow, execWiden, execBfx, execBfi,
        execFadd, execFsub, execFmul, execFma, execFms, execFnma, execFmin, execFmax, execFabs, execFneg, execFcmp, execFclass, execRcp, execRsq,
        execFscale, execFrint, execFcvt, execFtoi, execItof, execQnt, execQnt4, execDqnt, execAmax, execLshup, execLshdn, execLbcst, execLperm,
        execLradd, execLrmax, execLrmin, execLscan, execLmask, execLpack, execPwl, execRred, execRcomb, execNullif, execDrop, execCount,
        execSteer, execMerge, execCarry, execGate, execSplit, execOmerge, execJoin, execMldb, execMscl, execMma, execAccrd, execAccwr, execAccsv,
        execAccld, execCfold, execAccz, execLd, execSt, execLdl, execStl, execAtom, execCas, execMcst, execRld, execPref, execQpush, execQpop,
        execSend, execRecv, execRdcp, execLand, execMfence, execSigst, execSigld, execCnt, execAff, execIdx, execLast, execBnd, execRngp,
        execRngx, execGath, execCseq, execCpipe, execCstrm, execCbar, execRcfg]
       first | exact ⟨_, rfl⟩ | (split <;> exact ⟨_, rfl⟩))

/-- An event always has a next state. -/
theorem exec_event (i : Instr) (h : i.kind = .event) (s : State) : ∃ f, exec i s = run s f := by
  cases i <;> first
    | (cases h; done)
    | (dsimp only [
        exec, execPowerOnReset, execNodeChildDone, execLeafDone, execResultLand, execHalyardPulseDeliver, execGlobalResponse,
        execReleaseCompletionToken, execMfenceComplete, execSeqLoadResponse, execSeqStoreRetire, execHomeWriteApply, execCrossDieWriteVisible,
        execLinkReleaseReceive, execTileSwap, execRampStart, execMmaCommit, execCcbSpill, execFillerStep, execMxReplay, execDroopWindow,
        execEnginePop, execCopySector, execLandTokenEmit, execCopyStamp, execRdcpCombine, execCollectiveComplete, execRangeServerPull,
        execRangeServerRaise, execSlotTake, execLaunch, execCopyPacket, execCollPacket, execSignalPacket, execWaitsig, execCond, execRearm,
        execHring, execEndPacket, execPacketComplete, execWaitsigReevaluate, execWrIndexMonitor, execWrIndexPoll, execRingAppend,
        execRingCoalTimer, execEventInterrupt, execRegionAllocate, execImageLoad, execSectionApply, execStageSwitch, execRateSolve,
        execSwitchCycle, execRailHoldExpire, execRailSettle, execClockGate, execPowerGate, execSectorWake, execRegionRelease, execHaltAccept,
        execWatchdogT1, execWatchdogT2, execPreemptDecision, execKill, execCheckpoint, execCheckpointSaveComplete, execDrainPreempt,
        execDrainComplete, execRestore, execHoistWalk, execDebugStop, execPrioTokenRefill, execEnergyMeterUpdate, execTempSample,
        execFlitReceive, execLinkTrainingDone, execTimeSyncExchange, execPageWalk, execFqReplyRetry, execFqReplyAbort, execTlbInvalidate,
        execTlbInvComplete, execHostBar2Access, execErrorDetect, execBankRowBist, execSectorScan, execPartitionCreate, execPartitionDisable,
        execQueueEnable, execQueueDisable, execReqCounterClear, execLinkEnable, execLinkDisable, execAttestationQuote, execMeasurementExtend,
        execFwSlotWrite, execFwNextSelect, execBootStatClear, execSleepExpiry, execBackPressureThreshold, execDrainTimeout, execRailFallEnd,
        execDroopWindowEnd, execPowerLoss, execDramRetrain, execDramRetrainEnd, execHoistFetchTimeout, execQmaskWrite, execPkgPlimWrite,
        execPartPcapWrite, execPartEnergyWrite, execPartCreditWrite, execRailCfgWrite, execInrushStatWrite, execSlewTabWrite,
        execQuadCounterWrite, execPartStopWrite, execErrLogWrite, execPartTraceWrite, execPartHoistWrite, execPartDbgWrite, execPmcWrite,
        execTempWrite, execDevLocWrite, execLinkErrWrite, execRegisterWrite]
       exact ⟨_, rfl⟩)

theorem runSeq_cases (s : State) (f : Nat → Seq → W → W) :
    (∃ w : W, runSeq s f = .next (w.commit s)) ∨ (runSeq s f = .fault .noAgent ∧ ∀ q sq, ¬ SeqTurn s q sq) := by
  by_cases h : ∃ q sq, SeqTurn s q sq
  · obtain ⟨q, sq, h⟩ := h
    exact .inl ⟨_, runSeq_turn h f⟩
  · refine .inr ⟨?_, fun q sq hq => h ⟨q, sq, hq⟩⟩
    unfold runSeq
    split
    · next hc =>
      split
      · next hs => exact absurd ⟨_, _, hc, hs⟩ h
      · rfl
    · rfl

theorem runElem_cases (s : State) (f : ERef → W → W) :
    (∃ w : W, runElem s f = .next (w.commit s)) ∨ (runElem s f = .fault .noAgent ∧ ∀ e g x, ¬ ElemTurn s e g x) := by
  by_cases h : ∃ e g x, ElemTurn s e g x
  · obtain ⟨e, g, x, h⟩ := h
    refine .inl ⟨f e (W.of s), ?_⟩
    have hx := h.here
    simp only [ERef.key] at hx
    simp [runElem, run, h.cur, h.reg, hx]
  · refine .inr ⟨?_, fun e g x he => h ⟨e, g, x, he⟩⟩
    unfold runElem
    split
    · next r c sl hc =>
      split
      · next hg =>
        split
        · next hx => exact absurd ⟨⟨r, c, sl⟩, _, _, hc, hg, hx⟩ h
        · rfl
      · rfl
    · rfl

/-- Every instruction's next state is its working state put back, whatever the instruction: so time and the turns to come are not its to change, and
memory changes only by bytes written. Where it has none, the turn is of no agent of its kind. -/
theorem exec_cases (i : Instr) (s : State) :
    (∃ w : W, exec i s = .next (w.commit s)) ∨ (exec i s = .fault .noAgent ∧ i.kind ≠ .event ∧ (i.kind = .seq → ∀ q sq, ¬ SeqTurn s q sq) ∧
      (i.kind = .elem → ∀ e g x, ¬ ElemTurn s e g x)) := by
  cases hk : i.kind with
  | seq =>
    obtain ⟨f, h⟩ := exec_seq i hk s
    rw [h]
    exact (runSeq_cases s f).imp id fun ⟨a, b⟩ => ⟨a, by simp, fun _ => b, by simp⟩
  | elem =>
    obtain ⟨f, h⟩ := exec_elem i hk s
    rw [h]
    exact (runElem_cases s f).imp id fun ⟨a, b⟩ => ⟨a, by simp, by simp, fun _ => b⟩
  | event =>
    obtain ⟨f, h⟩ := exec_event i hk s
    exact .inl ⟨_, h⟩

/-- What every next state of exec is. -/
theorem exec_next {i : Instr} {s t : State} (h : exec i s = .next t) : ∃ w : W, t = w.commit s := by
  rcases exec_cases i s with ⟨w, hw⟩ | ⟨hf, -⟩
  · exact ⟨w, by simpa [hw] using h.symm⟩
  · simp [hf] at h

/-- Time and the turns to come are not an instruction's to change. -/
theorem exec_clk {i : Instr} {s t : State} (h : exec i s = .next t) : t.clk = s.clk := by
  obtain ⟨w, rfl⟩ := exec_next h
  rfl

/-- Memory keeps its canonical form. -/
theorem exec_mem_wf {i : Instr} {s t : State} (h : exec i s = .next t) (hw : s.mem.wf = true) : t.mem.wf = true := by
  obtain ⟨w, rfl⟩ := exec_next h
  exact applyLog_wf _ hw

end Sys2Proof.Machine
end

