-- ==== Sys2Proof/Laws/Hub.lean ====
section
/-! SUPPORT. Sys2Proof/Laws/Hub.lean: what the accesses of the hub's agents leave unchanged, and that they are made where the hub's TLB maps the addresses. -/

namespace Sys2Proof.Machine

/-- Nothing keeps the CP of queue q waiting: no home has a write of an agent of a higher id on this cycle (R94), no applied write is hidden from the CP (R95), and
no sector of DRAM is in error (R354); writes are numbered from 1. -/
structure W.Clear (q : Nat) (w : W) : Prop where
  homes : ∀ key, key < 2 ^ 61 → w.homeOpen (hubAgent (w.cpAgent q)) key = true
  seen  : ∀ u ∈ w.m.bus.unseen, u.hides (hubAgent (w.cpAgent q)) = false
  good  : w.m.bus.bad = []
  nums  : ∀ u ∈ w.m.bus.unseen, u.num ≠ 0

/-- What no access of a hub agent touches: all but the requests and what agents have seen, the counters of requests, numbers, and the buffers of the links. -/
def Mach.still (m : Mach) : Mach := { m with bus := {}, bar := [], draw := 0, nextId := 0, links := [] }

/-- From w to w' only memory and what no register but a request counter shows have changed, and the CP of queue q still need not wait: what an access of that
CP may change. -/
structure W.Keeps (q : Nat) (w w' : W) : Prop where
  still : w'.m.still = w.m.still
  bar   : ∀ o, 0x10000 ≤ o → w'.bar o = w.bar o
  clk   : w'.clk = w.clk
  clear : w.Clear q → w'.Clear q

theorem W.Keeps.refl (q : Nat) (w : W) : w.Keeps q w := { still := rfl, bar := fun _ _ => rfl, clk := rfl, clear := id }
theorem W.Keeps.trans {q : Nat} {u v w : W} (a : u.Keeps q v) (b : v.Keeps q w) : u.Keeps q w where
  still := b.still.trans a.still
  bar o h := (b.bar o h).trans (a.bar o h)
  clk := b.clk.trans a.clk
  clear c := b.clear (a.clear c)
theorem W.Keeps.mmu {q : Nat} {w w' : W} (k : w.Keeps q w') : w'.m.mmu = w.m.mmu := by have := congrArg Mach.mmu k.still; exact this
theorem W.Keeps.seqs {q : Nat} {w w' : W} (k : w.Keeps q w') : w'.m.seqs = w.m.seqs := by have := congrArg Mach.seqs k.still; exact this
theorem W.Keeps.rings {q : Nat} {w w' : W} (k : w.Keeps q w') : w'.m.rings = w.m.rings := by have := congrArg Mach.rings k.still; exact this
theorem W.Keeps.regions {q : Nat} {w w' : W} (k : w.Keeps q w') : w'.m.regions = w.m.regions := by have := congrArg Mach.regions k.still; exact this
theorem W.Keeps.cpAgent {q : Nat} {w w' : W} (k : w.Keeps q w') (p : Nat) : w'.cpAgent p = w.cpAgent p := by
  simp only [W.cpAgent, W.agentId, W.fld, k.bar Bar.devLoc (by decide)]

/-- A home answers by what it has applied on this cycle, for an address of this device or of a host. -/
theorem W.homeOpen_of_lt (w : W) (e : Eye) {key : Nat} (h : key < 2 ^ 61) : w.homeOpen e key = match tget w.m.bus.tie (keyHome key) with
    | some (c, a) => c != w.now + 1 || decide (a ≤ e.id)
    | none => true := by
  have o : w.wayOpen key = true := by simp only [W.wayOpen, h, true_or, decide_true, Bool.true_or]
  unfold W.homeOpen
  rw [o]
  exact Bool.true_and _
/-- A change that leaves alone what Clear speaks of. -/
theorem W.keeps_of {w w' : W} (q : Nat) (still : w'.m.still = w.m.still) (bar : ∀ o, 0x10000 ≤ o → w'.bar o = w.bar o) (clk : w'.clk = w.clk)
    (tie : w'.m.bus.tie = w.m.bus.tie) (unseen : w'.m.bus.unseen = w.m.bus.unseen) (bad : w'.m.bus.bad = w.m.bus.bad) : w.Keeps q w' := by
  have name : w'.cpAgent q = w.cpAgent q := by simp only [W.cpAgent, W.agentId, W.fld, bar Bar.devLoc (by decide)]
  refine { still, bar, clk, clear := fun c => { homes := fun key h => ?_, seen := ?_, good := bad.trans c.good, nums := by rw [unseen]; exact c.nums } }
  · have := c.homes key h
    rw [W.homeOpen_of_lt _ _ h] at this ⊢
    simpa only [tie, W.now, clk, name] using this
  · rw [unseen, name]; exact c.seen
theorem W.setBus_keeps (q : Nat) (w : W) (f : Bus → Bus) (tie : (f w.m.bus).tie = w.m.bus.tie) (unseen : (f w.m.bus).unseen = w.m.bus.unseen)
    (bad : (f w.m.bus).bad = w.m.bus.bad) : w.Keeps q (w.setBus f) :=
  W.keeps_of q rfl (fun _ _ => rfl) rfl tie unseen bad
/-- What a fold of changes keeps, each of them an access's. -/
theorem W.keeps_foldl {α : Type} {q : Nat} (f : W → α → W) (h : ∀ (w : W) (a : α), w.Keeps q (f w a)) (l : List α) (w : W) : w.Keeps q (l.foldl f w) :=
  List.foldlRecOn l f (.refl q w) fun _ k a _ => k.trans (h _ a)

theorem W.fresh_keeps (q : Nat) (w : W) : w.Keeps q w.fresh.1 := W.keeps_of q rfl (fun _ _ => rfl) rfl rfl rfl rfl
theorem W.write_keeps (q : Nat) (w : W) (k : Nat) (v : Byte) : w.Keeps q (w.write k v) := W.keeps_of q rfl (fun _ _ => rfl) rfl rfl rfl rfl
theorem W.setLink_keeps (q : Nat) (w : W) (l : Nat) (f : Link → Link) : w.Keeps q (w.setLink l f) := W.keeps_of q rfl (fun _ _ => rfl) rfl rfl rfl rfl
theorem W.sendPeer_keeps (q : Nat) (w : W) (key n : Nat) : w.Keeps q (w.sendPeer key n) := by
  unfold W.sendPeer
  split
  · exact .refl q w
  · split
    · exact w.setLink_keeps q _ _
    · exact .refl q w
theorem W.setBar_keeps (q : Nat) (w : W) (o : Nat) (v : W64) (h : o < 0x10000) : w.Keeps q (w.setBar o v) :=
  W.keeps_of q rfl (fun p hp => tgetD_tput_ne _ _ _ _ _ (by omega)) rfl rfl rfl rfl
theorem W.countAt_keeps (q : Nat) (w : W) (o : Nat) (h : o < 0x10000) : w.Keeps q (w.countAt o) := (w.setBus_keeps q _ rfl rfl rfl).trans (W.setBar_keeps q _ _ _ h)
/-- A hub agent's requests are counted where they are served only (R81). -/
theorem W.countReqs_keeps (q : Nat) (w : W) (keys : List Nat) : w.Keeps q (w.countReqs 4 none keys) := by
  refine .trans (W.keeps_foldl _ (fun w k => ?_) keys w) (W.keeps_foldl _ (fun w k => ?_) keys _)
  · by_cases h : 4 ≤ keyHome k
    · simp only [W.countOut, h, if_true]; exact .refl q w
    · have : ¬ 4 = keyHome k := by omega
      simp only [W.countOut, h, this, if_false, Nat.lt_irrefl]; exact .refl q w
  · by_cases h : 4 ≤ keyHome k ∨ 4 = keyHome k
    · simp only [W.countIn, h, if_true]; exact .refl q w
    · simp only [W.countIn, h, if_false]
      exact w.countAt_keeps q _ (by simp only [Bar.rreqi, Bar.lreq]; omega)
theorem W.learn_keeps (q : Nat) (w : W) (e : Eye) (id acq : Nat) (us : List Unseen) : w.Keeps q (w.learn e id acq us) := by
  unfold W.learn
  split
  · exact .refl q w
  · exact w.setBus_keeps q _ rfl rfl rfl
/-- After a write of the CP at a home, the home still answers the CP. -/
theorem open_after {m : Option (Nat × Nat)} {now id : Nat} : (match m with | some (c, a) => c != now || decide (a ≤ id) | none => true) = true →
    (match m with | some (c, a) => if c = now then max a id else id | none => id) ≤ id := by
  grind
/-- A write by the CP leaves nothing to wait for. -/
theorem W.applyWrite_keeps (q : Nat) (w : W) (sec : Nat) (bs : List (Nat × Byte)) (rel : Rel) (cov : Cov) (id : Nat) (low : sec < 2 ^ 61) :
    w.Keeps q (w.applyWrite (hubAgent (w.cpAgent q)) sec bs rel cov id).1 := by
  simp only [W.applyWrite]
  refine .trans (w.fresh_keeps q) (.trans ?_ (.trans (W.keeps_foldl (fun w (x : Nat × Byte) => w.write (sec + x.1) x.2) (fun w x => w.write_keeps q _ _) _ _) (W.sendPeer_keeps q _ _ _)))
  refine { still := rfl, bar := fun _ _ => rfl, clk := rfl, clear := fun c => { homes := fun key h => ?_, seen := fun u hu => ?_, good := ?_, nums := fun u hu => ?_ } }
  · have hs := c.homes sec low
    have hk := c.homes key h
    rw [W.homeOpen_of_lt _ _ h] at hk ⊢
    rw [W.homeOpen_of_lt _ _ low] at hs
    simp only [W.setBus, W.fresh, W.now, hubAgent, Bus.learn, W.cpAgent, W.agentId, W.fld, W.bar] at hs hk ⊢
    by_cases hh : keyHome key = keyHome sec
    · rw [hh, tget_tput_self]
      simp only [bne_self_eq_false, Bool.false_or]
      exact decide_eq_true (open_after hs)
    · rw [tget_tput_ne _ _ _ _ hh]
      exact hk
  · have old := c.seen
    simp only [W.setBus, W.fresh, hubAgent, Bus.learn, W.cpAgent, W.agentId, W.fld, W.bar] at hu old ⊢
    rcases List.mem_append.1 hu with hu | hu
    · exact old u hu
    · obtain ⟨d, -, rfl⟩ := List.mem_map.1 hu
      by_cases hd : d = 4 <;> simp [Unseen.hides, hd]
  · have := c.good
    simp only [W.setBus, W.fresh, Bus.learn] at this ⊢
    split <;> simp [this]
  · have old := c.nums
    simp only [W.setBus, W.fresh, hubAgent, Bus.learn] at hu old ⊢
    rcases List.mem_append.1 hu with hu | hu
    · exact old u hu
    · obtain ⟨d, -, rfl⟩ := List.mem_map.1 hu
      simp
/-- A fold of writes with their numbers keeps what each keeps. -/
theorem W.keeps_foldl_ids {α : Type} {q : Nat} (f : W × List Nat → α → W × List Nat) (l : List α) (h : ∀ (x : W × List Nat), ∀ a ∈ l, x.1.Keeps q (f x a).1) (x : W × List Nat) :
    x.1.Keeps q (l.foldl f x).1 :=
  List.foldlRecOn (motive := fun y => x.1.Keeps q y.1) l f (.refl q x.1) fun y k a m => k.trans (h y a m)
theorem W.applyAll_keeps (q : Nat) (w : W) (e : Eye) (he : e = hubAgent (w.cpAgent q)) (rel : Rel) (key : Nat) (bs : List Byte) (low : key + bs.length ≤ 2 ^ 61) :
    w.Keeps q (w.applyAll e rel key bs).1 := by
  subst he
  have secs : ∀ s ∈ ((((List.range bs.length).zip bs).map fun (i, b) => (key + i, b)).map fun c => sectorKey c.1).eraseDups, s < 2 ^ 61 := by
    intro s hs
    simp only [List.mem_eraseDups, List.mem_map] at hs
    obtain ⟨c, ⟨⟨i, b⟩, hi, rfl⟩, rfl⟩ := hs
    have := List.mem_range.1 (List.of_mem_zip hi).1
    simp only [sectorKey]
    omega
  simp only [W.applyAll]
  refine List.foldlRecOn (motive := fun (y : W × List Nat) => w.Keeps q y.1) _ _ (W.Keeps.refl q w) fun y k s hs => k.trans ?_
  rw [← k.cpAgent]
  exact y.1.applyWrite_keeps q s _ rel _ 0 (secs s hs)
theorem W.issueOwned_keeps (q : Nat) (w : W) (id owner : Nat) (r : Req) : w.Keeps q (w.issueOwned (hubAgent id) owner r) := by
  have count : ∀ (v : W) (keys : List Nat), v.Keeps q (v.countSent 4 none keys) := fun v keys => by
    refine W.keeps_foldl _ (fun w k => ?_) keys v
    by_cases h : 4 ≤ keyHome k
    · simp only [W.countOut, h, if_true]; exact .refl q w
    · have : ¬ 4 = keyHome k := by omega
      simp only [W.countOut, h, this, if_false, Nat.lt_irrefl]; exact .refl q w
  simp only [W.issueOwned, W.send]
  exact (w.fresh_keeps q).trans ((count _ _).trans (W.setBus_keeps q _ _ rfl rfl rfl))
theorem W.spread_keeps (q : Nat) (w : W) (e : Eye) (he : e = hubAgent (w.cpAgent q)) (owner part : Nat) (rel : Rel) (keys : List Nat) (bs : List Byte)
    (low : ∀ k ∈ keys, k + bs.length ≤ 2 ^ 61) : w.Keeps q (w.spread e owner part rel keys bs).1 := by
  cases keys with
  | nil => exact .refl q w
  | cons k ks =>
    have c : w.Keeps q (w.countReqs e.die none (sectorKeys k bs.length)) := by subst he; exact w.countReqs_keeps q _
    refine (c.trans (W.applyAll_keeps q _ e (he.trans (by rw [c.cpAgent])) rel k bs (low k (by simp)))).trans (W.keeps_foldl _ (fun v k => ?_) ks _)
    rw [he]
    exact v.issueOwned_keeps q _ owner _

/-! ## Accesses where the hub's TLB maps the addresses -/

/-- The hub's TLB translates every address of a partition below n, for every access, to this device's memory, and nothing keeps queue q's CP waiting. -/
structure W.Maps (q : Nat) (w : W) (part n : Nat) : Prop where
  at'   : ∀ (a : Access) (va : W64), va.toNat < n → ∃ l off id, w.lookup [4] part va a = .ok l off id ∧ ∀ t, ∀ k ∈ Touch.keys t l off, k + 64 ≤ 2 ^ 61
  clear : w.Clear q
theorem W.Maps.keep {q : Nat} {w w' : W} {part n : Nat} (h : w.Maps q part n) (k : w.Keeps q w') : w'.Maps q part n := by
  refine ⟨fun a va hv => ?_, k.clear h.clear⟩
  obtain ⟨l, off, id, e, low⟩ := h.at' a va hv
  have pages : 0x10000 ≤ ptbOf part := by simp only [ptbOf, Bar.pfPtb, Bar.partPtb]; split <;> omega
  exact ⟨l, off, id, by rw [← e]; simp only [W.lookup, k.mmu, k.bar _ pages], low⟩
/-- The copies of an interleaved page are of this device. -/
theorem Touch.keys_low (t : Touch) (l : Leaf) (off : Nat) (h : l.place = 0) (low : l.pa + off < 2 ^ 40) : ∀ k ∈ t.keys l off, k + 64 ≤ 2 ^ 61 := by
  have die : homeDie (l.pa + off) ≤ 3 := by unfold homeDie; split <;> split <;> decide
  have place : dieOffset (l.pa + off) ≤ l.pa + off := by simp only [dieOffset]; omega
  intro k hk
  simp only [Touch.keys, leafKeys, h, List.mem_singleton, keyDie, if_neg (by decide : ¬ (0 = 2))] at hk
  omega
/-- One interleaved page maps what lies below its size; on a cycle on which no home has applied a write nothing keeps a CP waiting. -/
theorem W.maps_of (q : Nat) (w : W) (part : Nat) (t : TlbE) (l : Leaf) (h : w.m.mmu.tlb = [t]) (u : t.unit = 4) (p : t.part = part) (v : t.va = 0)
    (on : (w.bar (ptbOf part)).getLsbD 0 = true) (lf : leafOf t.leaf t.size = some l) (lp : l.place = 0) (la : l.pa + 2 ^ t.size ≤ 2 ^ 40)
    (pr : ∀ a, permits t.leaf a = true) (low : 2 ^ t.size ≤ scratchBase) (bus : w.m.bus = {}) : w.Maps q part (2 ^ t.size) := by
  refine ⟨fun a va hv => ?_, { homes := fun key hk => by simp [W.homeOpen_of_lt _ _ hk, bus, tget], seen := by simp [bus], good := by simp [bus], nums := by simp [bus] }⟩
  have hit : t.hits part va = true := by simp [TlbE.hits, p, v, hv]
  have ns : ¬ scratchBase ≤ va.toNat := by omega
  have := Nat.mod_lt va.toNat (Nat.two_pow_pos t.size)
  exact ⟨l, va.toNat % 2 ^ t.size, t.id, by simp [W.lookup, ns, on, h, u, hit, lf, pr], fun c => c.keys_low l _ lp (by omega)⟩

/-- The sectors of a span lie in it. -/
theorem mem_sectorsOf {va len : Nat} {s : Nat × Nat × Nat} (h : s ∈ sectorsOf va len) : s.1 < va + max len 1 ∧ s.2.2 ≤ 64 := by
  simp only [sectorsOf, List.mem_map, List.mem_range] at h
  obtain ⟨i, hi, rfl⟩ := h
  dsimp only
  split
  · subst i; omega
  · omega
/-- An access of a hub agent is placed, at sectors of this device. -/
theorem W.placed_ok (w : W) (src : Src) (part : Nat) (va : W64) (len : Nat) (a : Access) (t : Touch) (unit n : Nat) (hu : w.unitsOf src = [4])
    (hm : ∀ (a : Access) (va : W64), va.toNat < n → ∃ l off id, w.lookup [4] part va a = .ok l off id ∧ ∀ t, ∀ k ∈ Touch.keys t l off, k + 64 ≤ 2 ^ 61)
    (hn : va.toNat + max len 1 ≤ n) : ∃ ls ps ts, w.placed src part va len a t unit = (w, .ok (ls, ps, ts)) ∧ ∀ p ∈ ps, p.key + 64 ≤ 2 ^ 61 ∧ p.len ≤ 64 := by
  have one := List.foldlRecOn (motive := fun (x : W × Placed) => ∃ ls ps ts, x = (w, .ok (ls, ps, ts)) ∧ ∀ p ∈ ps, p.key + 64 ≤ 2 ^ 61 ∧ p.len ≤ 64)
    (sectorsOf va.toNat len) (fun (acc : W × Placed) s =>
      let (w, r) := acc
      match r with
      | .error x => (w, .error x)
      | .ok (ls, ps, ts) =>
        match w.lookup [4] part (BitVec.ofNat 64 s.1) a with
        | .ok l off id =>
          let w := match w.m.mmu.tlb.find? (fun x => x.id == id) with
            | some x => (([4].filter (4 < ·)).filter fun u => !w.m.mmu.tlb.any fun y => y.id == id && y.unit == u).foldl (fun w u => w.tlbFill u x) w
            | none => w
          (w, .ok (ls ++ [l], ps ++ (t.keys l off).map fun k => { key := k, off := s.2.1, len := s.2.2 }, ts ++ [id]))
        | .miss => (w.addWalk src (w.srcAgent src) part (BitVec.ofNat 64 s.1) a unit, .error .miss)
        | x => (w, .error x)) (b := (w, .ok ([], [], []))) ⟨[], [], [], rfl, by simp⟩ ?_
  · unfold W.placed
    rw [hu]
    exact one
  rintro _ ⟨ls, ps, ts, rfl, low⟩ s hs
  have hs := mem_sectorsOf hs
  obtain ⟨l, off, id, e, ks⟩ := hm a (BitVec.ofNat 64 s.1) (by
    simp only [BitVec.toNat_ofNat]
    exact Nat.lt_of_le_of_lt (Nat.mod_le _ _) (by omega))
  refine ⟨_, _, _, by
    simp only [e, List.filter_cons, List.filter_nil, Nat.lt_irrefl, decide_false, Bool.false_eq_true, if_false, List.foldl_nil]
    cases w.m.mmu.tlb.find? (fun x => x.id == id) <;> rfl, fun p hp => ?_⟩
  rcases List.mem_append.1 hp with hp | hp
  · exact low p hp
  · obtain ⟨k, hk, rfl⟩ := List.mem_map.1 hp
    exact ⟨ks t k hk, hs.2⟩

/-- From an agent that sees every write nothing is hidden that an acquire obtains. -/
theorem W.seesAll_of {w : W} {e : Eye} (h : ∀ u ∈ w.m.bus.unseen, u.hides e = false) (ids : List Nat) : w.seesAll e ids = true := by
  simp only [W.seesAll, List.all_eq_true]
  intro u hu
  simp [h u hu]
theorem W.hubGet_ok (w : W) (q part : Nat) (va : W64) (len : Nat) (a : Access) (scope b n : Nat) (hm : w.Maps q part n) (hn : va.toNat + max len 1 ≤ n) :
    ∃ w' x, w.hubGet (.cp q) part va len a scope b = (w', .ok x) ∧ w.Keeps q w' := by
  obtain ⟨ls, ps, ts, h, low⟩ := w.placed_ok (.cp q) part va len a .home 0xF n rfl hm.at' hn
  have c := w.countReqs_keeps q (ps.map (·.key))
  have way : (ps.all fun p => w.wayOpen p.key && w.seesAll (hubAgent (w.srcAgent (.cp q))) (w.owed (hubAgent (w.srcAgent (.cp q))) scope (w.sources (hubAgent (w.srcAgent (.cp q))) false p))) = true := by
    refine List.all_eq_true.2 fun p hp => ?_
    have : p.key < 2 ^ 61 := by have := low p hp; omega
    rw [show w.srcAgent (.cp q) = w.cpAgent q from rfl, W.seesAll_of hm.clear.seen]
    simp only [W.wayOpen, this, true_or, decide_true, Bool.true_or, Bool.and_true]
  have good : (w.countReqs 4 none (ps.map (·.key))).dramBad ps = false := by simp [W.dramBad, (c.clear hm.clear).good]
  simp only [W.hubGet, h, way, good, Bool.not_true, Bool.false_eq_true, if_false]
  exact ⟨_, _, rfl, c.trans (W.keeps_foldl _ (fun w p => w.learn_keeps q _ _ _ _) _ _)⟩
theorem W.hubPut_ok (w : W) (q part : Nat) (va : W64) (rel : Rel) (bs : List Byte) (n : Nat) (hm : w.Maps q part n) (hn : va.toNat + max bs.length 1 ≤ n) :
    ∃ w' ids, w.hubPut (.cp q) part va rel bs = (w', .ok ids) ∧ w.Keeps q w' := by
  obtain ⟨ls, ps, ts, h, low⟩ := w.placed_ok (.cp q) part va bs.length .write .copies 0xF n rfl hm.at' hn
  have heads : ∀ qs ∈ ((ps.map (·.off)).eraseDups).map (fun o => ps.filter (·.off == o)), ∀ p ∈ qs, p ∈ ps := by
    intro qs hq p hp
    obtain ⟨o, -, rfl⟩ := List.mem_map.1 hq
    exact (List.mem_filter.1 hp).1
  have ho : ((((ps.map (·.off)).eraseDups).map fun o => ps.filter (·.off == o)).all fun qs => w.homeOpen (hubAgent (w.srcAgent (.cp q))) (qs.headD {}).key) = true := by
    refine List.all_eq_true.2 fun qs hq => hm.clear.homes _ ?_
    cases qs with
    | nil => decide
    | cons p t => have := low p (heads _ hq p (by simp)); simp only [List.headD_cons]; omega
  simp only [W.hubPut, h, ho, Bool.not_true, Bool.false_eq_true, if_false]
  refine ⟨_, _, rfl, List.foldlRecOn (motive := fun (y : W × List Nat) => w.Keeps q y.1) _ _ (W.Keeps.refl q w) fun y k qs hq => k.trans ?_⟩
  refine W.spread_keeps q _ _ (by rw [k.cpAgent]; rfl) 0 part _ _ _ fun key hk => ?_
  obtain ⟨p, hp, rfl⟩ := List.mem_map.1 hk
  have one := low p (heads qs hq p hp)
  cases qs with
  | nil => simp at hp
  | cons x t =>
    have := low x (heads _ hq x (by simp))
    simp only [List.headD_cons, List.length_take]
    omega

/-- A fold of attempts succeeds when each does. -/
theorem foldTried_ok {α β : Type} (f : W → β → α → Tried β) (P : W → Prop) (l : List α) (h : ∀ w b, ∀ a ∈ l, P w → ∃ w' b', f w b a = (w', .ok b') ∧ P w') (w : W) (b : β) (hp : P w) :
    ∃ w' b', l.foldl (fun x a => andThen x fun w b => f w b a) (w, .ok b) = (w', .ok b') ∧ P w' := by
  refine List.foldlRecOn (motive := fun (x : Tried β) => ∃ w' b', x = (w', .ok b') ∧ P w') l _ ⟨w, b, rfl, hp⟩ ?_
  rintro _ ⟨w1, b1, rfl, p⟩ a m
  exact h w1 b1 a m p

@[simp] theorem leBytes_length (n x : Nat) : (leBytes n x).length = n := by
  induction n generalizing x with
  | zero => rfl
  | succ n ih => simp [leBytes, ih]
@[simp] theorem memBytes_length (m : Memory) (a n : Nat) : (memBytes m a n).length = n := by
  induction n generalizing a with
  | zero => rfl
  | succ n ih => simp [memBytes, ih]
theorem leBytes_flatMap_length {α : Type} (n : Nat) (g : α → Nat) (l : List α) : (l.flatMap fun v => leBytes n (g v)).length = n * l.length := by
  induction l with
  | nil => rfl
  | cons a l ih => simp only [List.flatMap_cons, List.length_append, leBytes_length, ih, List.length_cons]; rw [Nat.mul_add]; omega
theorem W.pmcRun_length (w : W) (q : Nat) : (w.pmcRun q).2.length = 72 := by
  simp only [W.pmcRun, leBytes_flatMap_length, List.length_cons, List.length_map, List.length_range]
theorem Mx.rawStore_length (x : Mx) (afmt : Nat) : (x.rawStore afmt).length ≤ 0x18000 := by
  have row : ∀ r, (x.rawRow afmt r).length = (if afmt = 0 then 4 else 3) * 128 := fun r => by
    simp only [Mx.rawRow, leBytes_flatMap_length, List.length_range]
  have all : ∀ l : List Nat, (l.flatMap (x.rawRow afmt)).length = (if afmt = 0 then 4 else 3) * 128 * l.length := by
    intro l
    induction l with
    | nil => simp
    | cons a l ih => simp only [List.flatMap_cons, List.length_append, row, ih, List.length_cons]; rw [Nat.mul_add]; omega
  simp only [Mx.rawStore, all, List.length_range]
  split <;> decide
theorem addr_le (a : W64) (n : Nat) : (a + BitVec.ofNat 64 n).toNat ≤ a.toNat + n := by
  simp only [BitVec.toNat_add, BitVec.toNat_ofNat]
  have := Nat.mod_le n (2 ^ 64)
  exact Nat.le_trans (Nat.mod_le _ _) (by omega)

/-! ## A task's image -/

theorem W.putRuns_ok (w : W) (q part : Nat) (base : W64) (rs : List (Nat × List Byte)) (n : Nat) (hm : w.Maps q part n) (hn : ∀ x ∈ rs, base.toNat + x.1 + max x.2.length 1 ≤ n) :
    ∃ w', w.putRuns q part base rs = (w', .ok ()) ∧ w.Keeps q w' := by
  obtain ⟨w', b, e, k⟩ := foldTried_ok (fun w (_ : Unit) (r : Nat × List Byte) => if r.2.isEmpty then (w, .ok ())
      else andThen (w.hubPut (.cp q) part (base + BitVec.ofNat 64 r.1) {} r.2) fun w _ => (w, .ok ()))
    (fun x => w.Keeps q x) rs (fun x b a ha hx => by
      split
      · exact ⟨x, (), rfl, hx⟩
      · obtain ⟨y, ids, e, k⟩ := x.hubPut_ok q part (base + BitVec.ofNat 64 a.1) {} a.2 n (hm.keep hx) (by have := addr_le base a.1; have := hn a ha; omega)
        exact ⟨y, (), by rw [e]; rfl, hx.trans k⟩) w () (.refl q w)
  exact ⟨w', e, k⟩
theorem W.freeBytes_length (w : W) (n : Nat) : (w.freeBytes n).2.length ≤ n := by simp [W.freeBytes]
theorem W.putPrivate_ok (w : W) (q part : Nat) (base : W64) (as : List (Nat × Nat)) (n : Nat) (hm : w.Maps q part n) (hn : ∀ x ∈ as, base.toNat + x.1 + max x.2 1 ≤ n) :
    ∃ w', w.putPrivate q part base as = (w', .ok ()) ∧ w.Keeps q w' := by
  obtain ⟨w', b, e, k⟩ := foldTried_ok (fun w (_ : Unit) (a : Nat × Nat) =>
      andThen ((w.freeBytes a.2).1.hubPut (.cp q) part (base + BitVec.ofNat 64 a.1) {} (w.freeBytes a.2).2) fun w _ => (w, .ok ()))
    (fun x => w.Keeps q x) as (fun x b a ha hx => by
      have hf : x.Keeps q (x.freeBytes a.2).1 := W.keeps_of q rfl (fun _ _ => rfl) rfl rfl rfl rfl
      obtain ⟨y, ids, e, k⟩ := (x.freeBytes a.2).1.hubPut_ok q part (base + BitVec.ofNat 64 a.1) {} (x.freeBytes a.2).2 n ((hm.keep hx).keep hf) (by
        have := addr_le base a.1; have := hn a ha; have := x.freeBytes_length a.2; omega)
      exact ⟨y, (), by rw [e]; rfl, (hx.trans hf).trans k⟩) w () (.refl q w)
  exact ⟨w', e, k⟩
theorem W.ctxAt_keeps {q : Nat} {w w' : W} (k : w.Keeps q w') (part off : Nat) : w'.ctxAt part off = w.ctxAt part off := by
  simp only [W.ctxAt, W.fld, k.bar (Bar.partCtxb part) (by simp only [Bar.partCtxb, Bar.partCtl]; omega)]
theorem W.putEntry_ok (w : W) (g : Region) (e state n : Nat) (hm : w.Maps g.queue g.part n) (hn : ∀ k ≤ 16, (w.ctxAt g.part (entryOff e + k)).toNat + 24 ≤ n) :
    ∃ w', w.putEntry g e state = (w', .ok ()) ∧ w.Keeps g.queue w' := by
  obtain ⟨w1, ids, e1, k1⟩ := w.hubPut_ok g.queue g.part (w.ctxAt g.part (entryOff e + 12)) {} (leBytes 4 (packFields [(8, state), (8, g.qw), (8, g.qh), (8, 0)])) n hm (by
    have := hn 12 (by omega); simp only [leBytes_length]; omega)
  simp only [W.putEntry, e1, andThen]
  obtain ⟨w2, ids2, e2, k2⟩ := w1.hubPut_ok g.queue g.part (w.ctxAt g.part (entryOff e + 16)) {}
    (leBytes 24 (packFields [(16, g.queue), (16, 0), (32, g.version.toNat), (64, g.image.toNat), (64, w1.ns)])) n (hm.keep k1) (by
    have := hn 16 (by omega); simp only [leBytes_length]; omega)
  exact ⟨w2, by rw [e2], k1.trans k2⟩
theorem W.freeEntry_ok (w : W) (q part size n : Nat) (hm : w.Maps q part n) (hn : (w.ctxAt part (entryOff 0)).toNat + 1024 ≤ n) :
    ∃ w' o, w.freeEntry q part size = (w', .ok o) ∧ w.Keeps q w' := by
  obtain ⟨w1, x, e, k⟩ := w.hubGet_ok q part (w.ctxAt part (entryOff 0)) 1024 .read 4 64 n hm hn
  simp only [W.freeEntry, e, andThen]
  exact ⟨w1, _, rfl, k⟩
theorem W.readAreas_ok (w : W) (q part : Nat) (base : W64) (ks : List Nat) (n : Nat) (hm : w.Maps q part n) (hn : ∀ k ∈ ks, base.toNat + 0x10000 * k + 0x8000 ≤ n) :
    ∃ w' t, w.readAreas q part base ks = (w', .ok t) ∧ w.Keeps q w' :=
  foldTried_ok (fun w (t : Tbl (List Byte)) k => andThen (w.hubGet (.cp q) part (base + BitVec.ofNat 64 (0x10000 * k)) 0x8000) fun w b => (w, .ok (tput t k b.1)))
    (fun x => w.Keeps q x) ks (fun x b a ha hx => by
      obtain ⟨y, z, e, k⟩ := x.hubGet_ok q part (base + BitVec.ofNat 64 (0x10000 * a)) 0x8000 .read 4 64 n (hm.keep hx) (by have := addr_le base (0x10000 * a); have := hn a ha; omega)
      simp only [e, andThen]
      exact ⟨y, _, rfl, hx.trans k⟩) w [] (.refl q w)

theorem W.readBanks_ok (w : W) (q part : Nat) (base : W64) (qw n : Nat) (hm : w.Maps q part n) (hn : base.toNat + 0x8000000 ≤ n) :
    ∃ w' t, w.readBanks q part base qw 1 = (w', .ok t) ∧ w.Keeps q w' := by
  have key := foldTried_ok (fun w (t : Tbl Memory) (c : Nat × Nat) => andThen (w.hubGet (.cp q) part (base + BitVec.ofNat 64 (fabricOff 0 + 0x40000 * c.1)) 0x40000) fun w b =>
      (w, .ok (let m := memPut [] 0 b.1; if m.isEmpty then t else tput t c.2 m)))
    (fun x => w.Keeps q x) ((List.range 256).zip (quadCells qw 0)) (fun x b a ha hx => by
      have h1 := (List.of_mem_zip ha).1
      rw [List.mem_range] at h1
      obtain ⟨y, z, e, k⟩ := x.hubGet_ok q part (base + BitVec.ofNat 64 (fabricOff 0 + 0x40000 * a.1)) 0x40000 .read 4 64 n (hm.keep hx) (by
        have := addr_le base (fabricOff 0 + 0x40000 * a.1)
        simp only [fabricOff] at *
        omega)
      exact ⟨y, _, by rw [e, andThen], hx.trans k⟩) w [] (.refl q w)
  unfold W.readBanks
  rw [List.range_one, List.foldl_cons, List.foldl_nil]
  exact key
theorem W.readMxs_ok (w : W) (q part : Nat) (base : W64) (qw n : Nat) (hm : w.Maps q part n) (hn : base.toNat + 0x8000000 ≤ n) :
    ∃ w' t, w.readMxs q part base qw 1 = (w', .ok t) ∧ w.Keeps q w' := by
  have key := foldTried_ok (fun w (t : Tbl (List Byte)) (c : Nat × Nat) =>
      andThen (w.hubGet (.cp q) part (base + BitVec.ofNat 64 (fabricOff 0 + 0x4140000 + 0x28000 * c.1)) 0x20120) fun w b => (w, .ok (tput t c.2 b.1)))
    (fun x => w.Keeps q x) ((List.range 256).zip (quadMxs qw 0)) (fun x b a ha hx => by
      have h1 := (List.of_mem_zip ha).1
      rw [List.mem_range] at h1
      obtain ⟨y, z, e, k⟩ := x.hubGet_ok q part (base + BitVec.ofNat 64 (fabricOff 0 + 0x4140000 + 0x28000 * a.1)) 0x20120 .read 4 64 n (hm.keep hx) (by
        have := addr_le base (fabricOff 0 + 0x4140000 + 0x28000 * a.1)
        simp only [fabricOff] at *
        omega)
      exact ⟨y, _, by rw [e, andThen], hx.trans k⟩) w [] (.refl q w)
  unfold W.readMxs
  rw [List.range_one, List.foldl_cons, List.foldl_nil]
  exact key
theorem W.readFabric_ok (w : W) (q part : Nat) (base : W64) (qw n : Nat) (hm : w.Maps q part n) (hn : base.toNat + 0x8000000 ≤ n) :
    ∃ w' t, w.readFabric q part base qw 1 = (w', .ok t) ∧ w.Keeps q w' := by
  obtain ⟨w1, b, e1, k1⟩ := w.readBanks_ok q part base qw n hm hn
  obtain ⟨w2, m, e2, k2⟩ := w1.readMxs_ok q part base qw n (hm.keep k1) hn
  refine ⟨w2, (b, m), ?_, k1.trans k2⟩
  rw [W.readFabric, e1]
  show andThen (w1.readMxs q part base qw 1) _ = _
  rw [e2]
  rfl
/-- A read that is made keeps what a hub's access keeps. -/
theorem W.hubGet_keeps {w w' : W} {q part : Nat} {va : W64} {len : Nat} {a : Access} {scope b n : Nat} {x : List Byte × Option (Rel × Nat × Nat)} (hm : w.Maps q part n) (hn : va.toNat + max len 1 ≤ n)
    (h : w.hubGet (.cp q) part va len a scope b = (w', .ok x)) : w.Keeps q w' := by
  obtain ⟨w2, y, e, k⟩ := w.hubGet_ok q part va len a scope b n hm hn
  rw [h] at e
  rwa [(Prod.mk.inj e).1]

end Sys2Proof.Machine
end

