-- ==== Sys2Proof/Tests/Slice0.lean ====
section
/-! SUPPORT. Sys2Proof/Tests/Slice0.lean: tests. Ill-formed terms that WellFormed refuses, one word of every encoded instruction written out from the
encoding tables of 09_encoding.md, states and operands that meet the hypotheses of the statements, and single steps whose results the specification
gives. -/

namespace Sys2Proof.Tests

-- One declaration after another: the evaluations below, side by side, would ask for more threads than the memory limit of the check allows.
set_option Elab.async false

open Sys2Proof Sys2Proof.Machine

/-! ## Ill-formed terms (R145 to R147, R150, R151, and the limits of the instruction chapters) -/

/-- An element's fields with no target. -/
def ef (fmt mod : BitVec 4) (imm : BitVec 8) (ta : BitVec 20 := 0) (tb : BitVec 20 := 0) : EFields := { fmt := fmt, mod := mod, imm := imm, tb := tb, ta := ta }

/-- The sequencer's limits: shift counts, SEXT's width, scopes, windows, atomic functions, kinds, record counts, sections, CSR numbers, traps. -/
theorem test_wf_seq_refused : ∀ i ∈ ([
    .shli 1 1 64, .shri 1 1 64, .sari 1 1 64, .shli 1 1 0x7FFF, .sext 1 1 0, .sext 1 1 65, .ldb 1 1 6 0, .ldh 1 1 7 0, .ldw 1 1 6 0, .ldd 1 1 7 0,
    .stb 1 1 6 0, .sth 1 1 7 0, .stw 1 1 6 0, .std 1 1 7 0, .prd 1 8 0, .prd 1 0 4, .prd 1 0 0x4000, .plen 1 8, .amo 1 1 1 6 0 0, .amo 1 1 1 0 0 9,
    .acas 1 1 1 6 0, .fence 0 1, .fence 6 1, .fence 1 0, .mwait 1 1 0 0, .mwait 1 1 6 0, .signal 1 1 0 0 0, .signal 1 1 6 0 0, .hpost 1 1 1 0,
    .hpost 1 1 1 257, .reconf 256, .csrr 1 9, .csrw 1 1 0x14, .csrs 1 1 0x31F, .trap 16] : List Instr), WellFormed i = false := by decide

theorem test_wf_seq_accepted : ∀ i ∈ ([
    .shli 1 1 63, .sext 1 1 1, .sext 1 1 64, .ldd 1 1 5 0, .std 1 1 0 0xFFF, .prd 1 7 0x3FF8, .amo 1 1 1 5 1 8, .fence 5 3, .hpost 1 1 1 256, .reconf 255,
    .csrr 1 0x31, .trap 15] : List Instr), WellFormed i = true := by decide

/-- Integer elements: FMT 6 to 12, MOD and IMM8 zero. -/
theorem test_wf_integer : ∀ op ∈ ([
    .pass, .vcAdd, .vcSub, .adds, .subs, .vcMul, .vcMulh, .mad, .vcMin, .vcMax, .abs, .vcAnd, .vcOr, .vcXor, .andn, .vcShl, .vcShr, .vcSar, .rol, .clz,
    .popc, .sel, .clamp] : List (EFields → Instr)),
    WellFormed (op (ef 6 0 0)) = true ∧ WellFormed (op (ef 12 0 0)) = true ∧ WellFormed (op (ef 5 0 0)) = false ∧ WellFormed (op (ef 13 0 0)) = false ∧
    WellFormed (op (ef 6 1 0)) = false ∧ WellFormed (op (ef 6 0 1)) = false := by decide

/-- Floating-point elements: FMT 0 to 2; RND is 0 to 5 where the opcode rounds, and MOD 0 elsewhere. -/
theorem test_wf_float : (∀ op ∈ ([.fadd, .fsub, .fmul, .fma, .fms, .fnma, .rcp, .rsq, .fscale, .frint] : List (EFields → Instr)),
    WellFormed (op (ef 2 5 0)) = true ∧ WellFormed (op (ef 3 0 0)) = false ∧ WellFormed (op (ef 0 6 0)) = false ∧ WellFormed (op (ef 0 0 1)) = false) ∧
    ∀ op ∈ ([.fmin, .fmax, .fabs, .fneg, .fclass, .amax] : List (EFields → Instr)),
    WellFormed (op (ef 2 0 0)) = true ∧ WellFormed (op (ef 6 0 0)) = false ∧ WellFormed (op (ef 0 1 0)) = false ∧ WellFormed (op (ef 0 0 1)) = false := by decide

/-- Conditions, fields and conversions. -/
theorem test_wf_vector_refused : ∀ i ∈ ([
    .cmp (ef 6 10 0), .cmp (ef 0 0 0), .cmp (ef 6 0 1), .fcmp (ef 0 6 0), .fcmp (ef 0 12 0), .fcmp (ef 6 0 0), .fcmp (ef 0 0 1), .narrow (ef 6 0 7),
    .narrow (ef 7 0 7), .narrow (ef 7 0 0x16), .narrow (ef 7 0 5), .narrow (ef 7 1 6), .widen (ef 7 0 6), .widen (ef 6 0 0x27), .widen (ef 6 0 5),
    .widen (ef 6 1 7), .bfx (ef 8 0 8), .bfx (ef 0 0 0), .bfx (ef 6 1 0), .bfi (ef 12 0 4), .bfi (ef 0 0 0), .bfi (ef 6 1 0), .fcvt (ef 0 0 0),
    .fcvt (ef 0 0 0x21), .fcvt (ef 0 0 5), .fcvt (ef 5 0 0), .fcvt (ef 0 6 1), .fcvt (ef 1 0 0x10), .ftoi (ef 6 0 5), .ftoi (ef 6 6 0), .ftoi (ef 0 0 0),
    .ftoi (ef 6 0 0x21), .itof (ef 0 0 0), .itof (ef 6 0 6), .itof (ef 0 6 6), .itof (ef 0 0 0x48), .qnt (ef 5 0 0), .qnt (ef 3 6 0), .qnt (ef 3 0 3),
    .qnt (ef 3 0 0x10), .qnt4 (ef 3 0 0), .qnt4 (ef 5 6 0), .qnt4 (ef 5 0 3), .qnt4 (ef 5 0 0x10), .dqnt (ef 3 0 5), .dqnt (ef 0 6 5), .dqnt (ef 0 0 0x15),
    .dqnt (ef 0 0 0x43), .dqnt (ef 0 0 6)] : List Instr), WellFormed i = false := by decide

/-- Lanes, functions, tokens and switches. -/
theorem test_wf_lane_refused : ∀ i ∈ ([
    .lshup (ef 5 0 1), .lshup (ef 13 0 1), .lshup (ef 0 1 1), .lshup (ef 0 0 0), .lshup (ef 0 0 16), .lshdn (ef 5 0 1), .lshdn (ef 0 0 0), .lshdn (ef 0 1 1),
    .lbcst (ef 0 0 16), .lbcst (ef 5 0 0), .lbcst (ef 0 1 0), .lperm (ef 0 0 2), .lperm (ef 5 0 0), .lperm (ef 0 1 0), .lradd (ef 0 5 0), .lradd (ef 6 1 0),
    .lradd (ef 3 0 0), .lradd (ef 0 0 1), .lrmax (ef 0 1 0), .lrmax (ef 3 0 0), .lrmax (ef 0 0 1), .lrmin (ef 0 1 0), .lrmin (ef 3 0 0), .lrmin (ef 0 0 1),
    .lscan (ef 0 5 0), .lscan (ef 6 1 0), .lscan (ef 3 0 0), .lscan (ef 0 0 1), .lmask (ef 0 0 4), .lmask (ef 5 0 0), .lmask (ef 0 1 0), .lpack (ef 0 0 2),
    .lpack (ef 0 0 0), .lpack (ef 5 0 1), .lpack (ef 0 1 1), .pwl (ef 3 0 0), .pwl (ef 0 6 0), .pwl (ef 0 0 4), .rred (ef 3 0 0), .rred (ef 0 6 0),
    .rred (ef 0 0 2), .rcomb (ef 3 0 0), .rcomb (ef 0 6 0), .rcomb (ef 0 0 2), .nullif (ef 6 0 0), .nullif (ef 0 1 0), .nullif (ef 0 0 2), .drop (ef 6 0 0),
    .drop (ef 0 1 0), .drop (ef 0 0 2), .count (ef 6 0 0), .count (ef 0 1 0), .count (ef 0 0 2), .steer (ef 0 0 0), .steer (ef 0 0 0 0x80000),
    .steer (ef 6 0 0 0x80000 0x80008), .merge (ef 6 0 0), .merge (ef 0 1 0), .merge (ef 0 0 1), .carry (ef 6 0 0), .carry (ef 0 1 0), .carry (ef 0 0 1),
    .gate (ef 6 0 0), .gate (ef 0 1 0), .gate (ef 0 0 1), .split (ef 0 0 0x11), .split (ef 0 0 0x10 0x80000 0x80008), .split (ef 0 0 1 0x80000 0x80008),
    .omerge (ef 0 0 1), .omerge (ef 0 0 0x10), .omerge (ef 0 1 0x11), .join (ef 0 0 0), .join (ef 0 0 16), .join (ef 0 1 1)] : List Instr),
    WellFormed i = false := by decide

/-- Matrix and memory cells, address generators and controllers. -/
theorem test_wf_cell_refused : ∀ i ∈ ([
    .mldb (ef 0 0 0), .mldb (ef 3 1 0), .mldb (ef 3 0 1), .mldb (ef 3 0 0 0x80000), .mscl (ef 3 0 0), .mscl (ef 0 1 0), .mscl (ef 0 0 1),
    .mscl (ef 0 0 0 0x80000), .mma (ef 0 1 0), .mma (ef 3 0 0), .mma (ef 3 3 0), .mma (ef 3 5 0), .mma (ef 3 1 0 0x80000), .accrd (ef 3 0 0), .accrd (ef 6 2 0),
    .accrd (ef 0 1 0), .accwr (ef 6 0 0), .accwr (ef 0 1 0), .accsv (ef 6 0 0), .accsv (ef 0 1 0), .accld (ef 6 0 0), .accld (ef 0 1 0), .cfold (ef 0 0 1),
    .cfold (ef 6 0 0), .cfold (ef 0 1 0), .accz (ef 6 0 0), .accz (ef 0 1 0), .ld (ef 13 0 0), .ld (ef 0 6 0), .ld (ef 0 8 0), .ld (ef 0 0 1), .st (ef 13 0 0),
    .st (ef 0 6 0), .st (ef 0 0 1), .st (ef 0 0 0 0x80000), .ldl (ef 13 0 0), .ldl (ef 0 1 0), .ldl (ef 0 0 1), .stl (ef 13 0 0), .stl (ef 0 1 0),
    .stl (ef 0 0 0 0x80000), .atom (ef 1 0 0), .atom (ef 0 6 0), .atom (ef 0 0 7), .atom (ef 0 0 3), .cas (ef 1 0 0), .cas (ef 0 6 0), .cas (ef 0 0 1),
    .mcst (ef 13 0 0), .mcst (ef 0 6 0), .mcst (ef 0 14 0), .mcst (ef 0 0 1), .mcst (ef 0 8 0 0x80000), .rld (ef 3 0 0), .rld (ef 0 8 0), .rld (ef 0 0 3),
    .pref (ef 0 0 0 0x80000), .pref (ef 6 0 0), .pref (ef 0 1 0), .qpush (ef 0 0 0 0x80000), .qpush (ef 0 0 1), .qpop (ef 6 0 0), .qpop (ef 0 1 0),
    .send (ef 0 0 0), .send (ef 0 0 0 0x80000), .send (ef 0 0 0 0xA0000 0xA0008), .recv (ef 6 0 0), .recv (ef 0 0 1), .rdcp (ef 3 0 0), .rdcp (ef 0 1 0),
    .rdcp (ef 0 0 3), .land (ef 6 0 0), .land (ef 0 1 0), .mfence (ef 0 0 1), .mfence (ef 0 1 0), .mfence (ef 0 1 4), .mfence (ef 0 6 1), .sigst (ef 0 0 0),
    .sigst (ef 0 6 0), .sigst (ef 0 1 1), .sigld (ef 0 0 0), .sigld (ef 0 6 0), .cnt (ef 0 0 4), .cnt (ef 0 1 0), .aff (ef 0 0 1), .aff (ef 6 0 0),
    .idx (ef 0 0 0), .idx (ef 0 0 32), .last (ef 0 0 0), .last (ef 0 0 16), .bnd (ef 0 0 1), .rngp (ef 0 0 1), .rngx (ef 0 1 0), .gath (ef 0 0 5),
    .gath (ef 0 0 13), .cseq (ef 0 8 0 0xE0008 0xE0010), .cseq (ef 0 0 0 0xE0010 0xE0010), .cseq (ef 0 0 0 0xE0008 0xE0018), .cpipe (ef 0 0 1 0xE0008 0xE0010),
    .cpipe (ef 0 0 0 0x80008 0xE0010), .cstrm (ef 0 0 0 0xE0009 0xE0010), .cstrm (ef 6 0 0 0xE0008 0xE0010), .cbar (ef 0 0 0 0xE0008 0xE0010),
    .cbar (ef 0 0 17 0xE0008 0xE0010), .cbar (ef 0 0 1 0xE0010 0xE0010), .rcfg (ef 0 0 0 0xE0008 0xE0010), .rcfg (ef 0 0 0 0xE0010), .rcfg (ef 0 1 0 0xE0008)] :
    List Instr), WellFormed i = false := by decide

/-- R145: an unused target is zero; a lone TGTB, two equal targets, and a line with a PORT are refused. -/
theorem test_wf_targets : WellFormed (.pass (ef 6 0 0 1)) = false ∧ WellFormed (.pass (ef 6 0 0 0 0x80000)) = false ∧
    WellFormed (.pass (ef 6 0 0 0x80018 0x80018)) = false ∧ WellFormed (.pass (ef 6 0 0 0xE0009)) = false ∧
    WellFormed (.pass (ef 6 0 0 0x80018 0xE0008)) = true := by decide

/-! ## One word of every encoded instruction (R144, R148, R150, R152)

D = 00011, A = 01010, B = 10101; the opcode fills the last seven bits of a sequencer word, and the first eight of an element word. -/

theorem test_decode_sa : ∀ p ∈ ([(0x01, .add), (0x02, .sub), (0x03, .mul), (0x04, .mulh), (0x05, .div), (0x06, .rem), (0x07, .and), (0x08, .or), (0x09, .xor),
      (0x0A, .shl), (0x0B, .shr), (0x0C, .sar), (0x0D, .slt), (0x0E, .sltu), (0x0F, .min), (0x10, .max), (0x3A, .qapp), (0x43, .pnrd), (0x4E, .take)] :
        List (Nat × (BitVec 5 → BitVec 5 → BitVec 5 → Instr))),
    decodeTableWord 32 (0b0000000000_10101_01010_00011_0000000 + p.1) = some (p.2 3 10 21) := by decide

theorem test_decode_si : ∀ p ∈ ([(0x11, .addi), (0x12, .andi), (0x13, .ori), (0x14, .xori), (0x18, .slti), (0x2E, .jalr)] :
      List (Nat × (BitVec 5 → BitVec 5 → BitVec 15 → Instr))),
    decodeTableWord 32 (0b100000000000110_01010_00011_0000000 + p.1) = some (p.2 3 10 0x4006) := by decide

theorem test_decode_si_limited : ∀ p ∈ ([(0x15, .shli), (0x16, .shri), (0x17, .sari), (0x1A, .sext)] : List (Nat × (BitVec 5 → BitVec 5 → BitVec 15 → Instr))),
    decodeTableWord 32 (0b000000000111110_01010_00011_0000000 + p.1) = some (p.2 3 10 62) := by decide

theorem test_decode_sm : ∀ p ∈ ([(0x1B, .ldb), (0x1C, .ldh), (0x1D, .ldw), (0x1E, .ldd), (0x1F, .stb), (0x20, .sth), (0x21, .stw), (0x22, .std), (0x35, .mwait)] :
      List (Nat × (BitVec 5 → BitVec 5 → BitVec 3 → BitVec 12 → Instr))),
    decodeTableWord 32 (0b100000000110_101_01010_00011_0000000 + p.1) = some (p.2 3 10 5 0x806) := by decide

theorem test_decode_sb : ∀ p ∈ ([(0x27, .beq), (0x28, .bne), (0x29, .blt), (0x2A, .bge), (0x2B, .bltu), (0x2C, .bgeu)] :
      List (Nat × (BitVec 5 → BitVec 5 → BitVec 15 → Instr))),
    decodeTableWord 32 (0b111111111111110_01010_00011_0000000 + p.1) = some (p.2 3 10 0x7FFE) := by decide

theorem test_decode_se : ∀ p ∈ ([(0x37, .copy), (0x38, .copyx), (0x39, .coll)] :
      List (Nat × (BitVec 5 → BitVec 5 → BitVec 5 → BitVec 6 → BitVec 1 → Instr))),
    decodeTableWord 32 (0b0001_100110_10101_01010_00011_0000000 + p.1) = some (p.2 3 10 21 38 1) := by decide

/-- The other sequencer words, each with the fields that it uses (14_sequencer.md). -/
theorem test_decode_seq_others : ∀ p ∈ ([
      (0b10000000000000000110_00011_0011001, .lih 3 0x80006), (0b000000000001000_00101_00011_0100011, .prd 3 5 8),
      (0b000000000000000_00101_00011_0100100, .plen 3 5), (0b0101_00_1_100_10101_01010_00011_0100101, .amo 3 10 21 4 1 5),
      (0b0000_00_1_100_10101_01010_00011_0100110, .acas 3 10 21 4 1), (0b10000000000000000110_00011_0101101, .jal 3 0x80006),
      (0b00000_11_100_00000_00000_00000_0101111, .fence 4 3), (0b00000_00001_00010_00011_00100_0110000, .waitc 4 3 2 1),
      (0b000000000000000_01010_00011_0110001, .wany 3 10), (0b000000000000000_01010_00011_0110010, .wall 3 10),
      (0b000000000000000_01010_00011_0110011, .tfirst 3 10), (0b000000000000000_01010_00000_0110100, .tclr 10),
      (0b100000000000110_01010_00000_0110110, .sleep 10 0x4006), (0b1_10000000110_101_01010_00011_0111011, .signal 3 10 5 0x406 1),
      (0b0100000000_10101_01010_00011_0111100, .hpost 3 10 21 256)] ++ [
      (0b0000000000_00000_00000_00000_0111101, .start), (0b0000000000_00000_00000_00000_0111110, .wdone),
      (0b000000010000001_00000_00000_0111111, .reconf 0x81), (0b000000000000000_01010_00000_1000000, .rate 10),
      (0b000000000000000_01010_00011_1000001, .graise 3 10), (0b000000000000000_01010_00011_1000010, .step 3 10),
      (0b000000000010001_00000_00011_1000100, .csrr 3 0x11), (0b000000000001000_01010_00011_1000101, .csrw 3 10 8),
      (0b000000000000001_01010_00011_1000110, .csrs 3 10 1), (0b00000000000000001101_00000_1000111, .trap 13),
      (0b0000000000_00000_00000_00000_1001000, .eret), (0b0000000000_00000_00000_00000_1001001, .yield), (0x0000_004A, .halt), (0x0000_004B, .nop),
      (0b0000000000_00000_00000_00011_1001100, .time 3), (0b0101_000000_10101_01010_00000_1001101, .inj 10 21 1 0 1)] : List (Nat × Instr)),
    decodeTableWord 32 p.1 = some p.2 := by decide

/-- R150: a field that an instruction does not use, a reserved opcode and the zero word are refused. -/
theorem test_decode_seq_refused : ∀ w ∈ ([0x0000_0000, 0x0000_004F, 0x0000_007F, 0x0040_0001, 0x0000_10CB, 0x0002_004A, 0x0020_0031, 0x0000_00B4,
      0x9000_0025, 0x0800_0030] : List Nat), decodeTableWord 32 w = none := by decide

/-- TGTA = 1 00 00000000000011 000 (L of slot 0 of cell 3), TGTB = 1 01 00000000000011 001 (R of slot 1 of cell 3). -/
theorem test_decode_vector : (∀ p ∈ ([(0x01, .pass), (0x02, .vcAdd), (0x03, .vcSub), (0x04, .adds), (0x05, .subs), (0x06, .vcMul), (0x07, .vcMulh), (0x08, .mad),
      (0x09, .vcMin), (0x0A, .vcMax), (0x0B, .abs), (0x0C, .vcAnd), (0x0D, .vcOr), (0x0E, .vcXor), (0x0F, .andn), (0x10, .vcShl), (0x11, .vcShr), (0x12, .vcSar),
      (0x13, .rol), (0x14, .clz), (0x15, .popc), (0x17, .sel), (0x18, .clamp)] : List (Nat × (EFields → Instr))),
    decodeTableWord 64 (2 ^ 56 * p.1 + 0b0111_0000_00000000_1_01_00000000000011_001_1_00_00000000000011_000) = some (p.2 (ef 7 0 0 0x80018 0xA0019))) ∧
    (∀ p ∈ ([(0x20, .fadd), (0x21, .fsub), (0x22, .fmul), (0x23, .fma), (0x24, .fms), (0x25, .fnma), (0x2C, .rcp), (0x2D, .rsq), (0x2E, .fscale), (0x2F, .frint)] :
      List (Nat × (EFields → Instr))),
    decodeTableWord 64 (2 ^ 56 * p.1 + 0b0001_0101_00000000_1_01_00000000000011_001_1_00_00000000000011_000) = some (p.2 (ef 1 5 0 0x80018 0xA0019))) ∧
    (∀ p ∈ ([(0x26, .fmin), (0x27, .fmax), (0x28, .fabs), (0x29, .fneg), (0x2B, .fclass), (0x36, .amax), (0x44, .lrmax), (0x45, .lrmin)] :
      List (Nat × (EFields → Instr))),
    decodeTableWord 64 (2 ^ 56 * p.1 + 0b0010_0000_00000000_0_00_00000000000000_000_1_10_00000000000011_101) = some (p.2 (ef 2 0 0 0xC001D))) := by decide

theorem test_decode_vector_others : ∀ p ∈ ([
      (0x1669_0000_0000_0000, .cmp (ef 6 9 0)), (0x1980_0600_0000_0000, .narrow (ef 8 0 6)), (0x1A60_3800_0000_0000, .widen (ef 6 0 0x38)),
      (0x1BC0_0300_0000_0000, .bfx (ef 12 0 3)), (0x1CC0_0300_0000_0000, .bfi (ef 12 0 3)), (0x2A0B_0000_0000_0000, .fcmp (ef 0 11 0)),
      (0x3004_3300_0000_0000, .fcvt (ef 0 4 0x33)), (0x3163_1100_0000_0000, .ftoi (ef 6 3 0x11)), (0x3202_7C00_0000_0000, .itof (ef 0 2 0x7C)),
      (0x3385_0200_0000_0000, .qnt (ef 8 5 2)), (0x3451_0100_0000_0000, .qnt4 (ef 5 1 1)), (0x3500_3800_0000_0000, .dqnt (ef 0 0 0x38))] ++ [
      (0x40A0_0F00_0000_0000, .lshup (ef 10 0 15)), (0x4140_0100_0000_0000, .lshdn (ef 4 0 1)), (0x4200_0900_0000_0000, .lbcst (ef 0 0 9)),
      (0x4304_0000_0000_0000, .lradd (ef 0 4 0)), (0x4660_0000_0000_0000, .lscan (ef 6 0 0)), (0x4700_0100_0000_0000, .lperm (ef 0 0 1)),
      (0x4800_0300_0000_0000, .lmask (ef 0 0 3)), (0x4980_0400_0000_0000, .lpack (ef 8 0 4)), (0x5025_0300_0000_0000, .pwl (ef 2 5 3)),
      (0x5113_0100_0000_0000, .rred (ef 1 3 1)), (0x5202_0100_0000_0000, .rcomb (ef 0 2 1)), (0x5800_0100_0000_0000, .nullif (ef 0 0 1)),
      (0x5900_0100_0000_0000, .drop (ef 0 0 1)), (0x5A00_0100_0000_0000, .count (ef 0 0 1))] : List (Nat × Instr)), decodeTableWord 64 p.1 = some p.2 := by decide

theorem test_decode_switch : ∀ p ∈ ([
      (0x6000_00A0_0198_0018, .steer (ef 0 0 0 0x80018 0xA0019)), (0x6100_0000_0008_0018, .merge (ef 0 0 0 0x80018)), (0x6200_0000_0008_0018, .carry (ef 0 0 0 0x80018)),
      (0x6300_0000_0008_0018, .gate (ef 0 0 0 0x80018)), (0x6400_21A0_0198_0018, .split (ef 0 0 0x21 0x80018 0xA0019)),
      (0x6500_F100_0008_0018, .omerge (ef 0 0 0xF1 0x80018)), (0x6600_0F00_0008_0018, .join (ef 0 0 15 0x80018))] : List (Nat × Instr)),
    decodeTableWord 64 p.1 = some p.2 := by decide

theorem test_decode_matrix : ∀ p ∈ ([
      (0x7080_0000_0000_0000, .mldb (ef 8 0 0)), (0x711E_FF00_0000_0000, .mma (ef 1 14 0xFF)), (0x7200_0000_0000_0000, .mscl (ef 0 0 0)),
      (0x7361_0300_0000_0000, .accrd (ef 6 1 3)), (0x7400_8000_0000_0000, .accwr (ef 0 0 0x80)), (0x7500_8000_0000_0000, .accsv (ef 0 0 0x80)),
      (0x7600_8000_0000_0000, .accld (ef 0 0 0x80)), (0x7700_FE00_0000_0000, .cfold (ef 0 0 0xFE)), (0x7800_8100_0000_0000, .accz (ef 0 0 0x81))] :
      List (Nat × Instr)), decodeTableWord 64 p.1 = some p.2 := by decide

theorem test_decode_memory : ∀ p ∈ ([
      (0x80C5_0000_0008_0018, .ld (ef 12 5 0 0x80018)), (0x8153_0000_0008_0018, .st (ef 5 3 0 0x80018)), (0x8250_0000_0008_0018, .ldl (ef 5 0 0 0x80018)),
      (0x83C0_0000_0000_0000, .stl (ef 12 0 0)), (0x8494_0600_0008_0018, .atom (ef 9 4 6 0x80018)), (0x8562_0000_0008_0018, .cas (ef 6 2 0 0x80018)),
      (0x860C_0000_0008_0018, .mcst (ef 0 12 0 0x80018)), (0x8721_0A00_0008_0018, .rld (ef 2 1 0x0A 0x80018)), (0x8800_0000_0000_0000, .pref (ef 0 0 0)),
      (0x8900_0000_0000_0000, .qpush (ef 0 0 0)), (0x8A00_0000_0008_0018, .qpop (ef 0 0 0 0x80018)), (0x8B00_0000_000A_0018, .send (ef 0 0 0 0xA0018)),
      (0x8C00_0000_0008_0018, .recv (ef 0 0 0 0x80018)), (0x8D20_0200_0008_0018, .rdcp (ef 2 0 2 0x80018)), (0x8E00_0000_0008_0018, .land (ef 0 0 0 0x80018)),
      (0x8F05_0300_0008_0018, .mfence (ef 0 5 3 0x80018)), (0x9001_0000_0008_0018, .sigst (ef 0 1 0 0x80018)), (0x9105_0000_0008_0018, .sigld (ef 0 5 0 0x80018))] :
      List (Nat × Instr)), decodeTableWord 64 p.1 = some p.2 := by decide

theorem test_decode_address_control : ∀ p ∈ ([
      (0xA000_0300_0008_0018, .cnt (ef 0 0 3 0x80018)), (0xA100_0000_0008_0018, .aff (ef 0 0 0 0x80018)), (0xA200_1F00_0008_0018, .idx (ef 0 0 31 0x80018)),
      (0xA300_0F00_0008_0018, .last (ef 0 0 15 0x80018)), (0xA400_0000_0008_0018, .bnd (ef 0 0 0 0x80018)), (0xA500_0000_0008_0018, .rngp (ef 0 0 0 0x80018)),
      (0xA600_0000_0008_0018, .rngx (ef 0 0 0 0x80018)), (0xA700_0C00_0008_0018, .gath (ef 0 0 12 0x80018)),
      (0xB003_00E0_010E_0008, .cseq (ef 0 3 0 0xE0008 0xE0010)), (0xB107_00E0_010E_0008, .cpipe (ef 0 7 0 0xE0008 0xE0010)),
      (0xB200_00E0_010E_0008, .cstrm (ef 0 0 0 0xE0008 0xE0010)), (0xB300_10E0_010E_0008, .cbar (ef 0 0 16 0xE0008 0xE0010)),
      (0xB400_0700_000E_0008, .rcfg (ef 0 0 7 0xE0008))] : List (Nat × Instr)), decodeTableWord 64 p.1 = some p.2 := by decide

/-- R144, R148: IDLE and reserved opcodes are no instruction; a one-word target with V = 0 that is not zero is refused. -/
theorem test_decode_elem_refused : ∀ w ∈ ([0, 0x1D00_0000_0000_0000, 0x3700_0000_0000_0000, 0x6700_0000_0000_0000, 0xB500_0000_0000_0000, 0xFF00_0000_0000_0000,
      0x0160_0000_0000_0001, 0x0000_0000_0008_0018] : List Nat), decodeTableWord 64 w = none := by decide

/-! ## Small states

`world` is region 0 of one quad on die 0, running at one edge per grid cycle, in partition 0, with the first 2 MiB of its addresses translated by every
TLB's die and hub units to INTERLEAVE 0, all permissions (PART_PTB 0 has EN set). -/

def tlbs : List TlbE := [0, 4].map fun u => { id := u + 1, unit := u, size := 21, leaf := 0x3F }
def quad : Region := { phase := .running, isl := [(0, { p := 1, q := 1, edges := 10 })] }
def world : State := { clk := { now := 1000, gtime := 1000 * 1000000 }, m := { parts := [(0, {})], regions := [(0, quad)], bar := [(Bar.partPtb 0, 1)], mmu := { tlb := tlbs }, nextId := 8 } }

/-- s1 = 5, s2 = 7, s3 = a global address, s4 and s5 scratch addresses, s6 = 2^40 + 1, s7 = −1, s8 = a descriptor's scratch address. -/
def sq0 : Seq :=
  { regs := [(1, 5), (2, 7), (3, 0x1000), (4, 0xFFFFFFFFFFC000), (5, 0xFFFFFFFFFFC040), (6, 2 ^ 40 + 1), (7, BitVec.allOnes 64), (8, 0xFFFFFFFFFFC080), (9, 2 ^ 40)]
    pc := 3, released := true }
/-- It is the turn of the sequencer of quad 0, whose record is sq. -/
def seqS (sq : Seq) : State := { world with m := { world.m with cur := .seq 0, seqs := [(0, sq)] } }
theorem seq_turn (sq : Seq) : SeqTurn (seqS sq) 0 sq := ⟨rfl, rfl⟩

/-- A pair whose second component is ok. -/
theorem ok_of {α ε : Type} (x : W × Except ε α) (h : x.2.toOption.isSome = true) : ∃ w a, x = (w, .ok a) := by
  obtain ⟨w, e | a⟩ := x
  · simp [Except.toOption] at h
  · exact ⟨w, a, rfl⟩
theorem ok3 {α β γ ε : Type} (x : W × Except ε (α × β × γ)) (h : x.2.toOption.isSome = true) : ∃ w a b c, x = (w, .ok (a, b, c)) := by
  obtain ⟨w, ⟨a, b, c⟩, h⟩ := ok_of x h
  exact ⟨w, a, b, c, h⟩
theorem ok2 {α β ε : Type} (x : W × Except ε (α × β)) (h : x.2.toOption.isSome = true) : ∃ w a b, x = (w, .ok (a, b)) := by
  obtain ⟨w, ⟨a, b⟩, h⟩ := ok_of x h
  exact ⟨w, a, b, h⟩

/-! ## Witnesses: states and operands that meet the hypotheses of the statements of the same name -/

theorem witness_SequencerRegisters : ∃ t, SeqTurn (seqS sq0) 0 sq0 ∧ exec (.add 1 2 1) (seqS sq0) = .next t ∧ (1 : BitVec 5) ≠ 0 ∧ (2 : BitVec 5) ≠ 1 ∧ 5 ≤ 5 :=
  ⟨_, seq_turn _, rfl, by decide⟩

theorem witness_Arithmetic : SeqTurn (seqS sq0) 0 sq0 ∧ sq0.stalls [1, 2] = false ∧ sq0.stalls [1] = false ∧ sq0.reg 0 = 0 ∧ sq0.reg 2 ≠ 0 :=
  ⟨seq_turn _, by and_intros <;> decide⟩

/-- A sequencer at a word past its store, and one at an unloaded word. -/
def pastEnd : State := { (seqS { sq0 with pc := 4096 }) with clk := { world.clk with agenda := [{ act := .seq 0 }] } }
def unloaded : State := { (seqS { sq0 with pc := 4095 }) with clk := { world.clk with agenda := [{ act := .seq 0 }] } }
theorem witness_ControlTransfer : SeqTurn (seqS sq0) 0 sq0 ∧ sq0.stalls [1, 2] = false ∧ sq0.reg 1 ≠ sq0.reg 2 ∧ sq0.reg 1 = sq0.reg 1 ∧
    (sq0.reg 7).toInt < (sq0.reg 1).toInt ∧ (sq0.reg 1).toNat < (sq0.reg 7).toNat :=
  ⟨seq_turn _, by decide, by decide, rfl, by decide, by decide⟩
theorem witness_ControlTransfer_unloaded : ∀ s ∈ [pastEnd, unloaded], ∃ sq, s.turn.1 = .seq 0 ∧ tget s.turn.2.m.seqs 0 = some sq ∧
    (W.of s.turn.2).inOrder (.seq 0) = true ∧ sq.issues s.turn.2.m ((W.of s.turn.2).seqAgent 0) s.turn.2.clk.now = true ∧ sq.nextAt ≤ s.turn.2.clk.now ∧ (4096 ≤ sq.pc.toNat ∨ tget sq.store sq.pc.toNat = none) := by
  intro s h
  rcases List.mem_cons.1 h with rfl | h
  · exact ⟨{ sq0 with pc := 4096 }, by and_intros <;> decide⟩
  · rw [List.mem_singleton.1 h]
    exact ⟨{ sq0 with pc := 4095 }, by and_intros <;> decide⟩

/-- A region with window 1 bound to 8 bytes at 0x2000, and window 2 above the address space. -/
def windowed : State := { seqS sq0 with m := { (seqS sq0).m with regions := [(0, { quad with windows := [(1, (0x2000, 8)), (2, (0x0100000000000000, 8))] })] } }
theorem witness_ScratchAndWindows :
    (∃ w ls ps ts, (W.of windowed).placed (.seq 0 1) 0 0x2000 8 .read (.near 0) 0xE = (w, .ok (ls, ps, ts))) ∧ (SeqTurn (seqS sq0) 0 sq0 ∧ sq0.stalls [4] = false ∧ inScratch (sq0.reg 4 + (0x7F8 : BitVec 12).signExtend 64) = true ∧
      (sq0.reg 4 + (0x7F8 : BitVec 12).signExtend 64).toNat % 8 = 0) ∧
    SeqTurn windowed 0 sq0 ∧ (inScratch (sq0.reg 4) = true ∧ (sq0.reg 4).toNat % 8 = 0 ∧ sq0.stalls [1, 4, 2] = false) ∧ tget ((seqS sq0).region sq0.region).windows 1 = none ∧ tget (windowed.region sq0.region).windows 1 = some (0x2000, 8) ∧
    (8 : W32).toNat ≤ (8 : BitVec 15).toNat ∧ (0 : BitVec 15).toNat < (8 : W32).toNat ∧ (0x2000 : W64).toNat < 2 ^ 56 ∧ sq0.count .loads < 64 ∧
    ((0x2000 : W64) + BitVec.ofNat 64 (4 : BitVec 15).toNat).toNat % 8 ≠ 0 ∧ (0x2000 : W64).toNat % 8 = 0 ∧
    tget (windowed.region sq0.region).windows 2 = some (0x0100000000000000, 8) ∧ 2 ^ 56 ≤ (0x0100000000000000 : W64).toNat :=
  ⟨ok3 _ (by decide), ⟨seq_turn _, by decide⟩, ⟨rfl, rfl⟩, by decide +kernel, by decide +kernel⟩

theorem witness_GlobalMemoryRequests :
    (SeqTurn (seqS sq0) 0 sq0 ∧ sq0.stalls [1, 3] = false ∧ inScratch (sq0.reg 3 + 8) = false ∧ (sq0.reg 3 + 8).toNat % 8 = 0 ∧ (sq0.reg 3).toNat < 2 ^ 56 ∧
      sq0.count .loads < 64 ∧ sq0.count .stores < 64) ∧
    (∃ w ls ps ts, (W.of (seqS sq0)).placed (.seq 0 1) 0 (sq0.reg 3 + 8) 8 .read (.near 0) 0xE = (w, .ok (ls, ps, ts))) ∧
    (∃ w ls ps ts, (W.of (seqS sq0)).placed (.seq 0 0) 0 (sq0.reg 3 + 8) 8 .write (.near 0) 0xE = (w, .ok (ls, ps, ts))) ∧
    (∃ w ls ps ts, (W.of (seqS sq0)).placed (.seq 0 1) 0 (sq0.reg 3) 8 .atomic .home 0xE = (w, .ok (ls, ps, ts)) ∧ ∀ l ∈ ls, l.place ≠ 3) ∧
    (sq0.reg 3 + 1).toNat % 8 ≠ 0 ∧ (sq0.reg 7 - 7).toNat % 8 = 0 ∧ 2 ^ 56 ≤ (sq0.reg 7 - 7).toNat := by
  refine ⟨⟨seq_turn _, by decide⟩, ok3 _ (by decide), ok3 _ (by decide), ?_, by and_intros <;> decide⟩
  exact ⟨_, _, _, _, rfl, by decide⟩

/-- One load outstanding, tag 3 set, and a wait's tag mask in s2; s10 = one tag. -/
def sqTags : Seq := { sq0 with regs := tput sq0.regs 10 8, tags := 8, outs := [{ id := 1 }, { id := 2, cls := .tiles }] }
/-- The same with a request of the sequencer in flight. -/
def busy : State :=
  { seqS sqTags with m := { (seqS sqTags).m with bus := { reqs := [{ id := 1, agent := (W.of (seqS sqTags)).seqAgent 0, src := .seq 0 1, kind := .read }] } } }
theorem witness_FencesWaitsAndTags :
    (SeqTurn (seqS sq0) 0 sq0 ∧ (W.of (seqS sq0)).loadsOrdered ((W.of (seqS sq0)).seqEye 0) 5 = true ∧
      (W.of (seqS sq0)).agentPerformed ((W.of (seqS sq0)).seqEye 0) 5 = true) ∧
    (SeqTurn busy 0 sqTags ∧ (W.of busy).agentPerformed ((W.of busy).seqEye 0) 3 = false ∧ (W.of busy).loadsOrdered ((W.of busy).seqEye 0) 3 = false ∧ sqTags.wait = none ∧ sqTags.rquad = 0 ∧
      ¬ (sqTags.count .loads ≤ 0 ∧ sqTags.count .stores ≤ 0 ∧ sqTags.count .copies ≤ 0 ∧ sqTags.count .tiles ≤ 0) ∧
      sqTags.outs.any (fun o => o.cls == .tiles && o.reg == 0) = true) ∧
    (sqTags.stalls [10] = false ∧ (3 < 64 ∧ (sqTags.tags &&& sqTags.reg 10).getLsbD 3 = true ∧ ∀ j < 3, (sqTags.tags &&& sqTags.reg 10).getLsbD j = false) ∧
      sqTags.tagsAt.1 ≠ 4 + 1 ∧ ({ sqTags with tagsAt := (5, [(3, {})]) } : Seq).tagsAt.1 = 4 + 1 ∧ sqTags.tags &&& sqTags.reg 10 = sqTags.reg 10 ∧ sqTags.reg 2 ≠ 0 ∧ sqTags.tags &&& sqTags.reg 2 = 0 ∧ sqTags.reg 0 = 0) ∧
    (((seqS sq0).bar (Bar.partCtl sq0.part)).getLsbD 1 = false ∧ tget (seqS sq0).m.regions sq0.region = some quad ∧ scratchSpan (sq0.reg 5) 32 32 = some 64 ∧
      scratchSpan (sq0.reg 1) 32 32 = none) :=
  ⟨⟨seq_turn _, by decide⟩, ⟨⟨rfl, rfl⟩, by decide⟩, by decide, by decide⟩

def sqSleep (x : SeqWait) : Seq := { sq0 with wait := some x }
theorem witness_Sleeping :
    (SeqTurn (seqS sq0) 0 sq0 ∧ sq0.stalls [1] = false ∧ sq0.wait = none ∧ (sq0.reg 0 + (0 : BitVec 15).signExtend 64).toInt ≤ 0 ∧
      0 < (sq0.reg 1 + (0 : BitVec 15).signExtend 64).toInt) ∧
    (∀ x ∈ ([{ stage := 3, num := 5, start := 195 }, { stage := 3, num := 6, start := 195 }] : List SeqWait),
      tget (seqS (sqSleep x)).m.seqs 0 = some (sqSleep x) ∧ x.stage = 3 ∧ x.ready = false) ∧ 195 + 5 ≤ (seqS sq0).ns ∧ (seqS sq0).ns < 195 + 6 ∧
    SeqTurn (seqS (sqSleep { ready := true })) 0 (sqSleep { ready := true }) ∧ ∃ t, exec (.drainPreempt 0) (seqS sq0) = .next t :=
  ⟨⟨seq_turn _, by decide⟩, by decide, by decide, by decide, seq_turn _, ⟨_, rfl⟩⟩

theorem witness_MemoryWait :
    (SeqTurn (seqS sq0) 0 sq0 ∧ sq0.stalls [1, 4] = false ∧ sq0.wait = none ∧ inScratch (sq0.reg 4 + 8) = true) ∧
    (sq0.stalls [1, 3] = false ∧ inScratch (sq0.reg 3) = false ∧ (sq0.reg 3).toNat < 2 ^ 56 ∧ (sq0.reg 3).toNat % 8 = 0 ∧
      ∃ w ls ps ts, (W.of (seqS sq0)).placed (.seq 0 0) 0 (sq0.reg 3) 8 .read (.near 0) 0xE = (w, .ok (ls, ps, ts))) ∧
    SeqTurn (seqS (sqSleep { ready := true })) 0 (sqSleep { ready := true }) :=
  ⟨⟨seq_turn _, by decide⟩, ⟨by decide, by decide, by decide, by decide, ok3 _ (by decide)⟩, seq_turn _⟩

/-- HE set; HE and PEND set; HE and INH set. -/
def sqStat (v : BitVec 4) : Seq := { sq0 with status := v }
theorem witness_HandlerAndControlRegisters :
    (∀ v : BitVec 4, SeqTurn (seqS (sqStat v)) 0 (sqStat v)) ∧ (∀ c, sq0.count c ≤ 64) ∧ SeqTurn (seqS sqTags) 0 sqTags ∧ (sqStat 2).he = true ∧ (sqStat 2).inh = false ∧ (sqStat 0).he = false ∧ (sqStat 6).inh = true ∧
    (sqStat 0xA).pend = true ∧ (sqStat 0xA).he = true ∧ (sqStat 0xA).inh = false ∧ sq0.stalls [1] = false ∧ sq0.count .loads = 0 ∧
    sq0.count .stores = 0 ∧ sq0.count .copies = 0 ∧ sqTags.count .loads ≠ 0 :=
  ⟨fun _ => seq_turn _, fun c => by cases c <;> decide, seq_turn _, by decide +kernel⟩

/-- Cell 0, a memory cell, with a queue of two tokens: QPOP in slot 0, or QPUSH. -/
def queued (opc : W64) (q : List Token) : Region :=
  { quad with elems := [(0, { word := opc })], cells := [(0, { f3 := 2 ^ 83, queue := q })] }
def withBar (b : Tbl W64) (s : State) : State := { s with m := { s.m with bar := b ++ s.m.bar } }
def withRegion (g : Region) (s : State) : State := { s with m := { s.m with regions := [(0, g)] } }
theorem witness_FabricControl :
    (SeqTurn (seqS { sq0 with rquad := 1 }) 0 { sq0 with rquad := 1 } ∧ SeqTurn (seqS sq0) 0 sq0 ∧ sq0.rquad = 0 ∧ sq0.count .tiles < 64 ∧
      (W.of (seqS sq0)).agentPerformed ((W.of (seqS sq0)).seqEye 0) (max 2 sq0.startScope) = true ∧
      (W.of (seqS sq0)).agentPerformed ((W.of (seqS sq0)).seqEye 0) 4 = true) ∧
    (sq0.stalls [1] = false ∧ 0 < (sq0.reg 1).toNat ∧ (sq0.reg 1).toNat < 2 ^ 32 ∧ 2 ^ 40 ≤ (sq0.reg 6).toNat ∧ (sq0.reg 0).toNat = 0) ∧
    (sq0.stalls [4, 0] = false ∧ scratchSpan (sq0.reg 4) 64 64 = some 0 ∧ queueCell (queued 0x8A00_0000_0000_0000 []) (sq0.reg 0) 0x8A 0x89 = some 0 ∧
      (let s := withRegion (queued 0x8A00_0000_0000_0000 []) (seqS sq0)
       (s.cell 0 0).qcap = 2 ∧ (W.of s).mayNow ((W.of s).seqAgent 0) [] = true ∧ (s.cell 0 0).seqTurn (s.clk.now / 4) ((W.of s).seqAgent 0) = true ∧
       ({ s.cell 0 0 with queue := [{}, {}] } : Cell).qcap ≤ 2) ∧ queueCell quad (sq0.reg 0) 0x8A 0x89 = none) ∧
    (queueCell (queued 0x8900_0000_0000_0000 []) (sq0.reg 0) 0x89 0x8A = some 0 ∧
      ((withRegion (queued 0x8900_0000_0000_0000 [{}]) (seqS sq0)).cell 0 0).queue = [{}] ∧ ({} : Token).landed < (seqS sq0).clk.now ∧
      ((withRegion (queued 0x8900_0000_0000_0000 [{}]) (seqS sq0)).cell 0 0).seqTurn ((seqS sq0).clk.now / 4) ((W.of (seqS sq0)).seqAgent 0) = true) :=
  ⟨⟨seq_turn _, seq_turn _, by decide⟩, by and_intros <;> decide +kernel⟩

/-- A COPYX descriptor of one row of 64 bytes at scratch 0x80; its first word is the length. -/
def sqDesc (bs : List (Nat × Byte)) : Seq := { sq0 with scratch := bs }
/-- An acquire of the sequencer is still to be performed. -/
def acquiring : State :=
  { seqS sq0 with m := { (seqS sq0).m with bus := { reqs := [{ id := 1, agent := (W.of (seqS sq0)).seqAgent 0, src := .seq 0 1, kind := .read, acq := true, scope := 4 }] } } }
theorem witness_EngineRequests :
    (SeqTurn (seqS sq0) 0 sq0 ∧ sq0.stalls [3, 3, 1] = false ∧ (sq0.reg 0).toNat = 0 ∧ 2 ^ 40 < (sq0.reg 6).toNat ∧ (sq0.reg 9).toNat = 2 ^ 40 ∧
      operandOk ((seqS sq0).region 0) (sq0.reg 3) (sq0.reg 9).toNat = true ∧ operandOk ((seqS sq0).region 0) (sq0.reg 7) 5 = false ∧ sq0.count .copies < 64 ∧
      (W.of (seqS sq0)).mayNow ((W.of (seqS sq0)).seqAgent 0) [] = true ∧ (W.of acquiring).mayNow ((W.of acquiring).seqAgent 0) [] = false) ∧
    (let sq := sqDesc [(0x80, 64)]
     let v := leNat (memBytes sq.scratch 0x80 32)
     SeqTurn (seqS sq) 0 sq ∧ scratchSpan (sq.reg 8) 32 32 = some 0x80 ∧ copyxOk ((seqS sq).region 0) (sq.reg 3) (sq.reg 3) v = true ∧
      operandOk ((seqS sq).region 0) (sq.reg 3) (copyxSpan v (descField v 24 4)) = true) ∧
    (let sq := sqDesc [(0x98, 1), (0x9A, 1)]
     let v := leNat (memBytes sq.scratch 0x80 32)
     let ctl := BitVec.ofNat 64 (descField v 24 8)
     collCtlOk ctl = true ∧ descField v 8 8 % 8 = 0 ∧ operandOk ((seqS sq).region 0) (sq.reg 3) (collSpan ctl (descField v 0 8) 1).1 = true ∧
      operandOk ((seqS sq).region 0) (sq.reg 3) (collSpan ctl (descField v 0 8) 1).2 = true) :=
  ⟨⟨seq_turn _, by decide⟩, ⟨seq_turn _, by decide⟩, by decide⟩

/-- A packet of TYPE 1 at scratch 0x40; a queue's descriptor at 0x1000, which is offset 0 of die 1, with 4 slots at 0x2000. -/
def sqPkt : Seq := { sq0 with scratch := [(0x40, 1)] }
def qappS (sq : Seq) : State := { seqS sq with mem := [(2 ^ 40 + 0x11, 0x20), (2 ^ 40 + 0x18, 4)] }
theorem witness_QueueAndRingAppends :
    (∀ sq ∈ [sqPkt, { sqPkt with wait := some { stage := 6 } }, { sqPkt with wait := some { stage := 6, num := 4 } }],
      let s := qappS sq
      let w := ((W.of s).seqKey 0 (sq.reg 3) 32 .atomic .home).1
      let e := (W.of s).seqEye 0
      SeqTurn s 0 sq ∧ (sq.stalls [3, 5] = false ∧ scratchSpan (sq.reg 5) 64 64 = some 64 ∧ leNat (memBytes sq.scratch 64 1) ≠ 0 ∧
      inScratch (sq.reg 3) = false ∧ (sq.reg 3).toNat < 2 ^ 56 ∧ (sq.reg 3).toNat % 8 = 0 ∧ sq.count .stores < 64) ∧
      (W.of s).seqKey 0 (sq.reg 3) 32 .atomic .home = (w, .ok (2 ^ 40, 0)) ∧ (w.seqOpen 0 [2 ^ 40] = true ∧ w.seqOpen 0 [] = true ∧
      leNat (w.viewBytes e (2 ^ 40 + 24) 4) = 4 ∧ leNat (w.viewBytes e (2 ^ 40 + 16) 8) = 0x2000 ∧
      w.seesAll e (w.owed e 4 (w.sources e false { key := 2 ^ 40 + 8, len := 8 })) = true) ∧
      (∃ w1 p, w.seqKey 0 0x2000 64 .write (.near 0) = (w1, .ok p)) ∧
      (let w2 := (w.readRd 0 (2 ^ 40) 4).1
       w2.seqOpen 0 [2 * 2 ^ 40] = true ∧ (w.readRd 0 (2 ^ 40) 4).2.1 = 0 ∧
       ∃ w5 ls ps ts, (w2.setSeq 0 fun sq => sq).placed (.seq 0 0) 0 0x2000 8 .write (.near 0) 0xE = (w5, .ok (ls, ps, ts)))) ∧
    (0 : W64).toNat < 0 + 4 ∧ 0 + 4 ≤ (4 : W64).toNat ∧
    (scratchSpan (sq0.reg 5) 64 (64 * 2) = some 64 ∧ (sq0.reg 3).toNat % 64 = 0 ∧ scratchSpan (sq0.reg 1) 64 (64 * 1) = none ∧
      SeqTurn (seqS (sqSleep { ready := true })) 0 (sqSleep { ready := true })) := by
  refine ⟨fun sq h => ?_, by decide, by decide, by decide, by decide, by decide, seq_turn _⟩
  simp only [List.mem_cons, List.not_mem_nil, or_false] at h
  rcases h with rfl | rfl | rfl
  all_goals
    exact ⟨⟨rfl, rfl⟩, by decide +kernel, rfl, by decide +kernel, ok_of _ (by decide +kernel), by decide +kernel, by decide +kernel, ok3 _ (by decide +kernel)⟩

/-! ### Elements -/

/-- Region 0 with one element x, whose turn it is. -/
def elemS (x : Elem) (cell : Nat := 0) (slot : Nat := 1) : State :=
  { world with m := { world.m with cur := .elem 0 cell slot, regions := [(0, { quad with elems := [(8 * cell + slot, x)] })] } }
def at1 : ERef := ⟨0, 0, 1⟩
/-- A token at each position: 5 and a tail at L, an empty lane 1 at R, 1 at P. -/
def full3 : Elem := { word := 0x0160_0000_0000_0000, named := 7, inL := some { data := 5 }, inR := some { data := 9, empty := 2 }, inP := some { data := 1 } }
/-- Every form of use fires on it. -/
theorem fires_full3 (u : Uses) : ∃ i, Fires (elemS full3) at1 full3 u i ∧ i.anyNull = false ∧ (∀ t ∈ i.toks, t.log = none) ∧ i.rel = none := by
  rcases u with ⟨_ | _, _ | _, _ | _, _ | _, _ | _⟩
  all_goals exact ⟨_, ⟨rfl, ⟨_, rfl, rfl⟩, by decide +kernel, rfl, by decide +kernel⟩, by and_intros <;> decide +kernel⟩
/-- An element that fires. -/
theorem fires_of {x : Elem} {u : Uses} {i : Ins} (cell slot : Nat) (h : tget [(8 * cell + slot, x)] (ERef.key ⟨0, cell, slot⟩) = some x)
    (m : (W.of (elemS x cell slot)).mayFire ⟨0, cell, slot⟩ = true) (j : x.inputs u = some i) (g : (W.of (elemS x cell slot)).grantBoth ⟨0, cell, slot⟩ = true) :
    Fires (elemS x cell slot) ⟨0, cell, slot⟩ x u i := ⟨rfl, ⟨_, rfl, h⟩, m, j, g⟩

theorem witness_Firings : (∃ i, Fires (elemS full3) at1 full3 { r := true } i ∧ (∀ t ∈ i.toks, t.log = none) ∧ i.rel = none ∧
      tget (elemS full3).m.regions 0 = some { quad with elems := [(1, full3)] } ∧ ({ quad with elems := [(1, full3)] } : Region).sink ≠ at1.key) ∧
    (127 < 16 * (32 / 4) ∧ 4 ∈ [4, 8, 16, 32]) ∧
    ∃ i, Fires (elemS { full3 with inL := some { null := true } }) at1 { full3 with inL := some { null := true } } {} i ∧ i.anyNull = true := by
  refine ⟨?_, by decide +kernel, ?_⟩
  · obtain ⟨i, h, _, a, b⟩ := fires_full3 { r := true }
    exact ⟨i, h, a, b, rfl, by decide +kernel⟩
  · exact ⟨_, fires_of 0 1 rfl (by decide +kernel) rfl (by decide +kernel), by decide +kernel⟩

theorem witness_VectorInteger : ∀ u ∈ ([{}, { r := true }, { r := true, p := true }] : List Uses), ∃ i, Fires (elemS full3) at1 full3 u i ∧ i.anyNull = false := by
  intro u _
  obtain ⟨i, a, b, _⟩ := fires_full3 u
  exact ⟨i, a, b⟩
theorem witness_VectorFloat : ∀ u ∈ ([{}, { r := true }, { r := true, p := true }] : List Uses), ∃ i, Fires (elemS full3) at1 full3 u i ∧ i.anyNull = false :=
  witness_VectorInteger

/-- A QNT4 burst of seven collected tokens, and its eighth with the tail mark; DQNT.Q4's row with R and one token held; a first token with the head mark, one that
continues a burst, and a null inside one. -/
def burst7 : Elem := { full3 with inL := some { tail := true }, opened := true, buf := List.replicate 7 {} }
def burstQ : Elem := { full3 with inL := some { tail := true }, opened := true, buf := [{ data := 9 }, {}] }
def burst0 : Elem := { full3 with inL := some { head := true } }
def burst3 : Elem := { full3 with inL := some {}, opened := true, buf := List.replicate 3 {} }
def burstNull : Elem := { burst3 with inL := some { null := true } }
/-- The output stage of an element holds nothing for the k edges from n edges after this one. -/
def open' (x : Elem) (n k : Nat) : Bool := x.unreserved ((W.of (elemS x)).edgeOf ((elemS x).region 0) 0 + x.pass + n) k
theorem witness_VectorConversions :
    (∃ i, Fires (elemS full3) at1 full3 {} i ∧ i.anyNull = false) ∧ (∃ i, Fires (elemS full3) at1 full3 { r := true } i ∧ i.anyNull = false) ∧
    (∃ i, Fires (elemS burst7) at1 burst7 {} i ∧ i.anyNull = false ∧ burst7.opened = true ∧ burst7.buf.length + 1 = 8 / perLane 0 ∧ i.l.head = false ∧ i.l.tail = true ∧
      open' burst7 4 2 = true) ∧
    (∃ i, Fires (elemS burstQ) at1 burstQ { r := true && !burstQ.opened } i ∧ i.anyNull = false ∧ burstQ.opened = true ∧ (burstQ.buf.drop 1).length + 1 = 2 ∧
      i.l.head = false ∧ i.l.tail = true ∧ open' burstQ 3 8 = true) ∧
    (∃ i, Fires (elemS burst0) at1 burst0 {} i ∧ i.anyNull = false ∧ burst0.opened = false ∧ i.l.head = true ∧ i.l.tail = false ∧ 1 < 8 / perLane 0) ∧
    (∃ i, Fires (elemS burst0) at1 burst0 { r := true && !burst0.opened } i ∧ i.anyNull = false ∧ i.l.head = true ∧ i.l.tail = false ∧ 1 < 2) ∧
    (∃ i, Fires (elemS burst3) at1 burst3 {} i ∧ i.anyNull = false ∧ burst3.opened = true ∧ burst3.buf.length + 1 < 8 / perLane 0 ∧ i.l.head = false ∧ i.l.tail = false) ∧
    (∃ i, Fires (elemS burstNull) at1 burstNull {} i ∧ i.anyNull = true ∧ open' burstNull 1 1 = true) ∧
    ∃ i, Fires (elemS full3) at1 full3 {} i ∧ i.anyNull = false ∧ i.l.head = full3.opened := by
  obtain ⟨i, a, b, _⟩ := fires_full3 {}
  obtain ⟨j, c, d, _⟩ := fires_full3 { r := true }
  refine ⟨⟨i, a, b⟩, ⟨j, c, d⟩, ?_, ?_, ?_, ?_, ?_, ?_, ?_⟩
  all_goals exact ⟨_, fires_of 0 1 rfl (by decide +kernel) rfl (by decide +kernel), by decide +kernel⟩

/-- LPACK with 15 elements buffered, with one token of the tail mark, and with a null. -/
def packed : Elem := { full3 with pack := List.replicate 15 3 }
def packTail : Elem := { full3 with inL := some { tail := true } }
def packNull : Elem := { full3 with inL := some { null := true } }
theorem witness_LaneInstructions :
    (∀ u ∈ ([{}, { r := true }] : List Uses), ∃ i, Fires (elemS full3) at1 full3 u i ∧ i.anyNull = false) ∧
    (∃ i, Fires (elemS packed) at1 packed {} i ∧ i.l.null = false ∧ i.l.tail = false ∧ 16 ≤ packed.pack.length + 16 ∧ open' packed 1 1 = true ∧
      (packed.lpack (ef 0 0 1) i.l).1.length = 1) ∧
    (∃ i, Fires (elemS { full3 with inL := some { empty := 0xFFFE } }) at1 { full3 with inL := some { empty := 0xFFFE } } {} i ∧ i.l.null = false ∧ i.l.tail = false) ∧
    (∃ i, Fires (elemS packTail) at1 packTail {} i ∧ i.l.null = false ∧ i.l.tail = true ∧ open' packTail 1 2 = true) ∧ ∃ i, Fires (elemS packNull) at1 packNull {} i ∧ i.l.null = true := by
  refine ⟨fun u h => witness_VectorInteger u (by
    simp only [List.mem_cons, List.not_mem_nil, or_false] at h ⊢
    rcases h with rfl | rfl <;> simp), ?_⟩
  exact ⟨⟨_, fires_of 0 1 rfl (by decide +kernel) rfl (by decide +kernel), by decide +kernel⟩, ⟨_, fires_of 0 1 rfl (by decide +kernel) rfl (by decide +kernel), by decide +kernel⟩,
    ⟨_, fires_of 0 1 rfl (by decide +kernel) rfl (by decide +kernel), by decide +kernel⟩, ⟨_, fires_of 0 1 rfl (by decide +kernel) rfl (by decide +kernel), by decide +kernel⟩⟩

def twoNulls : Elem := { packNull with inR := some { null := true } }
def rightNull : Elem := { full3 with inR := some { null := true } }
theorem witness_FunctionsAndTokens :
    (∃ i, Fires (elemS full3) at1 full3 { p := true } i ∧ i.anyNull = false ∧ i.p.emptyAt 0 = false ∧ i.p.lane 0 ≠ 0) ∧
    (∃ i, Fires (elemS { full3 with inP := some {} }) at1 { full3 with inP := some {} } { p := true } i ∧ i.anyNull = false ∧ i.p.lane 0 = 0) ∧
    (∃ i, Fires (elemS packTail) at1 packTail {} i ∧ i.l.null = false ∧ i.l.tail = true) ∧
    (∃ i, Fires (elemS full3) at1 full3 { r := true } i ∧ i.l.null = false ∧ i.r.null = false) ∧
    (∃ i, Fires (elemS twoNulls) at1 twoNulls { r := true } i ∧ i.l.null = true ∧ i.r.null = true) ∧
    (∃ i, Fires (elemS packNull) at1 packNull { r := true } i ∧ i.l.null = true ∧ i.r.null = false) ∧
    ∃ i, Fires (elemS rightNull) at1 rightNull { r := true } i ∧ i.l.null = false ∧ i.r.null = true :=
  ⟨⟨_, fires_of 0 1 rfl (by decide +kernel) rfl (by decide +kernel), by decide +kernel⟩, ⟨_, fires_of 0 1 rfl (by decide +kernel) rfl (by decide +kernel), by decide +kernel⟩,
    ⟨_, fires_of 0 1 rfl (by decide +kernel) rfl (by decide +kernel), by decide +kernel⟩, ⟨_, fires_of 0 1 rfl (by decide +kernel) rfl (by decide +kernel), by decide +kernel⟩,
    ⟨_, fires_of 0 1 rfl (by decide +kernel) rfl (by decide +kernel), by decide +kernel⟩, ⟨_, fires_of 0 1 rfl (by decide +kernel) rfl (by decide +kernel), by decide +kernel⟩,
    ⟨_, fires_of 0 1 rfl (by decide +kernel) rfl (by decide +kernel), by decide +kernel⟩⟩

def disarmed : Elem := { full3 with armed := false, count := 1 }
theorem witness_OrderedSwitches :
    (∃ i, Fires (elemS full3) at1 full3 {} i ∧ full3.armed = true ∧ full3.count.toNat < (ef 0 0 0x11).lo4) ∧
    (∃ i, Fires (elemS disarmed) at1 disarmed { l := false, r := true } i ∧ disarmed.armed = false ∧ (ef 0 0 0x11).lo4 ≤ disarmed.count.toNat) ∧
    ∃ i, Fires (elemS disarmed) at1 disarmed {} i ∧ (ef 0 0 0x11).lo4 ≤ disarmed.count.toNat :=
  ⟨⟨_, fires_of 0 1 rfl (by decide +kernel) rfl (by decide +kernel), by decide +kernel⟩, ⟨_, fires_of 0 1 rfl (by decide +kernel) rfl (by decide +kernel), by decide +kernel⟩,
    ⟨_, fires_of 0 1 rfl (by decide +kernel) rfl (by decide +kernel), by decide +kernel⟩⟩

/-! ### Memory cells -/

/-- An element of cell 0, a memory cell, with an address token at L. -/
def addrElem (a : W512) : Elem := { full3 with inL := some { data := a } }
theorem cellFires_of {x : Elem} {u : Uses} {i : Ins} {store : Bool} (m : (W.of (elemS x)).globalTurn at1 store = true) (j : x.inputs u = some i) :
    CellFires (elemS x) at1 x u store i := ⟨rfl, ⟨_, rfl, rfl⟩, m, j⟩
/-- A placed access of cell 0, of an address below 2 MiB. -/
theorem cellPlaced_of (s : State) (e : ERef) (va : W64) (len align : Nat) (a : Access) (t : Touch) (h : va.toNat % align = 0 ∧ va.toNat < 2 ^ 56 ∧ inScratch va = false)
    (p : ((W.of s).placed (.elem e.r e.cell e.slot) (s.region e.r).part va len a t 0xA).2.toOption.isSome = true) :
    ∃ w ls ps ts, CellPlaced s e va len align a t w ls ps ts := by
  obtain ⟨w, ls, ps, ts, h'⟩ := ok3 _ p
  exact ⟨w, ls, ps, ts, h.1, h.2.1, h.2.2, h'⟩
/-- The same, its place known. -/
theorem placed_of {s : State} {e : ERef} {va : W64} {len align : Nat} {a : Access} {t : Touch} {w : W} {ls : List Leaf} {ps : List Piece} {ts : List Nat}
    (h : va.toNat % align = 0 ∧ va.toNat < 2 ^ 56 ∧ inScratch va = false)
    (p : (W.of s).placed (.elem e.r e.cell e.slot) (s.region e.r).part va len a t 0xA = (w, .ok (ls, ps, ts))) : CellPlaced s e va len align a t w ls ps ts :=
  { aligned := h.1, low := h.2.1, global := h.2.2, placed := p }
/-- The same of pages of PLACE REPLICA. -/
def replica (s : State) : State := { s with m := { s.m with mmu := { tlb := tlbs.map fun t => { t with leaf := 0xBF } } } }

theorem witness_CellLoads :
    (∃ i, CellFires (elemS packNull) at1 packNull {} false i ∧ i.l.va = none) ∧
    (∃ i, CellFires (elemS (addrElem 0x1044)) at1 (addrElem 0x1044) {} false i ∧ i.l.va = some 0x1044) ∧
    (∃ i, CellFires (elemS (addrElem 0x1000)) at1 (addrElem 0x1000) { r := true } false i ∧ i.l.va = some 0x1000 ∧ i.r.null = false) ∧
    (∃ w ls ps ts, CellPlaced (elemS (addrElem 0x1044)) at1 0x1040 64 1 .read (.near 0) w ls ps ts) ∧
    (∃ w ls ps ts, CellPlaced (elemS (addrElem 0x1020)) at1 0x1020 96 32 .read (.near 0) w ls ps ts) ∧
    (∃ w ls ps ts, CellPlaced (replica (elemS (addrElem 0x1044))) at1 0x1040 64 1 .read .dies w ls ps ts ∧ ∀ l ∈ ls, l.place = 2) ∧
    (∃ w ls ps ts, CellPlaced (elemS (addrElem 0x1044)) at1 0x1040 64 1 .read .dies w ls ps ts ∧ ∃ l ∈ ls, l.place ≠ 2) ∧
    (∃ w ls ps ts, CellPlaced (elemS (addrElem 0x1000)) at1 0x1000 8 8 .read (.near 0) w ls ps ts ∧ ∀ l ∈ ls, l.place < 3) ∧
    (∃ i, Fires (elemS (addrElem 0x1044)) at1 (addrElem 0x1044) {} i ∧ i.l.va = some 0x1044 ∧ ∃ l o k,
      ((W.of (elemS (addrElem 0x1044))).consume at1 i).lookup (((W.of (elemS (addrElem 0x1044))).consume at1 i).unitsOf (.elem 0 0 1)) 0 0x1044 .none = .ok l o k) ∧
    (0x1044 : W64).toNat % 32 ≠ 0 ∧ (0x1044 : W64).toNat % 8 ≠ 0 ∧ 2 ^ 56 ≤ (0xFFFFFFFFFFFFFFC0 : W64).toNat ∧ inScratch 0xFFFFFFFFFFC000 = true := by
  and_intros
  -- the firings of the cells' loads; their places, also of a kind; a firing of another element; the numbers
  iterate 3 exact ⟨_, cellFires_of (by decide +kernel) rfl, by decide +kernel⟩
  iterate 2 exact cellPlaced_of _ _ _ _ _ _ _ (by decide +kernel) (by decide +kernel)
  iterate 3 exact ⟨_, _, _, _, placed_of (by decide +kernel) rfl, by decide +kernel⟩
  · exact ⟨_, fires_of 0 1 rfl (by decide +kernel) rfl (by decide +kernel), by decide +kernel, _, _, _, rfl⟩
  all_goals decide +kernel

theorem witness_CellStores :
    (∃ i, CellFires (elemS (addrElem 0x1044)) at1 (addrElem 0x1044) { r := true } true i ∧ i.l.va = some 0x1044 ∧ i.r.null = false) ∧
    (∃ w ls ps ts, CellPlaced (elemS (addrElem 0x1044)) at1 0x1040 64 1 .write (.near 0) w ls ps ts) ∧
    (∃ w ls ps ts, CellPlaced (replica (elemS (addrElem 0x1044))) at1 0x1040 64 1 .write .copies w ls ps ts ∧ ∀ l ∈ ls, l.place = 2) ∧
    (∃ i, CellFires (elemS { addrElem 0x1040 with inR := some { null := true } }) at1 { addrElem 0x1040 with inR := some { null := true } } { r := true } true i ∧ i.r.null = true) ∧
    (let x := { addrElem 0x1040 with inR := some {} }
     ∃ i, CellFires (elemS x) at1 x { r := true } true i ∧ i.r.null = false ∧ (i.r.policy x.empty x.k).emptyAt 0 = false ∧ (i.r.policy x.empty x.k).emptyAt 1 = false) ∧
    (∃ w ls ps ts, CellPlaced (elemS (addrElem 0x1040)) at1 0x1040 8 8 .write (.near 0) w ls ps ts ∧ ∀ l ∈ ls, l.place < 3) ∧
    (∃ w ls ps ts, CellPlaced (elemS (addrElem 0x1040)) at1 0x1040 64 1 .atomic .home w ls ps ts ∧ ∀ l ∈ ls, l.place ≠ 3) ∧
    (∃ i, CellFires (elemS (addrElem 0x1040)) at1 (addrElem 0x1040) { r := true, p := true } true i ∧ i.r.null = false ∧ i.p.null = false) ∧
    ∃ i, CellFires (elemS (addrElem 0x1040)) at1 (addrElem 0x1040) {} true i := by
  and_intros
  · exact ⟨_, cellFires_of (by decide +kernel) rfl, by decide +kernel⟩
  · exact cellPlaced_of _ _ _ _ _ _ _ (by decide +kernel) (by decide +kernel)
  · exact ⟨_, _, _, _, placed_of (by decide +kernel) rfl, by decide +kernel⟩
  iterate 2 exact ⟨_, cellFires_of (by decide +kernel) rfl, by decide +kernel⟩
  iterate 2 exact ⟨_, _, _, _, placed_of (by decide +kernel) rfl, by decide +kernel⟩
  · exact ⟨_, cellFires_of (by decide +kernel) rfl, by decide +kernel⟩
  · exact ⟨_, cellFires_of (by decide +kernel) rfl⟩

theorem bankFires_of {x : Elem} {i : Ins} {wr : Bool} (m : (W.of (elemS x)).bankReady at1 = true) (b : (W.of (elemS x)).bankSlot at1 wr = true)
    (j : (W.of (elemS x)).bankInputs at1 = some i) : BankFires (elemS x) at1 x wr i := ⟨rfl, ⟨_, rfl, rfl⟩, m, b, j⟩
/-- LDL, STL, QPUSH and QPOP with the bank offset a at L. -/
def bankElem (opc : W64) (a : W512) : Elem := { addrElem a with word := opc }
theorem witness_BanksAndMemory :
    (∃ i, BankFires (elemS (bankElem 0x8200_0000_0000_0000 0x3FFFC)) at1 (bankElem 0x8200_0000_0000_0000 0x3FFFC) false i ∧ i.l.bankOff = some 0x3FFFC ∧
      ((elemS full3).cell 0 0).reserved 0x3FFFC = false) ∧
    (∃ i, BankFires (elemS (bankElem 0x8250_0000_0000_0000 0x3FFA0)) at1 (bankElem 0x8250_0000_0000_0000 0x3FFA0) false i ∧ i.l.bankOff = some 0x3FFA0 ∧
      0x3FFA0 % 32 = 0 ∧ 0x3FFA0 + 96 ≤ 0x40000 ∧ open' (bankElem 0x8250_0000_0000_0000 0x3FFA0) 4 2 = true) ∧
    (∃ i, BankFires (elemS (bankElem 0x8300_0000_0000_0000 0x40)) at1 (bankElem 0x8300_0000_0000_0000 0x40) true i ∧ i.l.bankOff = some 0x40 ∧ i.r.null = false) ∧
    (∃ i, BankFires (elemS (bankElem 0x8200_0000_0000_0000 0x40000)) at1 (bankElem 0x8200_0000_0000_0000 0x40000) false i ∧ i.l.bankOff = some 0x40000) ∧
    (∃ i, Fires (elemS full3) at1 full3 { l := false } i ∧ full3.inL = some { data := 5 }) ∧
    ((withRegion (queued 0x8A00_0000_0000_0000 [{}]) world).cell 0 0).reserved 0x7F = true ∧
    (memPut [] 5 [1, 0, 2]).wf = true ∧ (Memory.wf [(1, 1), (3, 2)]) = true :=
  ⟨⟨_, bankFires_of (by decide +kernel) (by decide +kernel) rfl, by decide +kernel⟩, ⟨_, bankFires_of (by decide +kernel) (by decide +kernel) rfl, by decide +kernel⟩,
    ⟨_, bankFires_of (by decide +kernel) (by decide +kernel) rfl, by decide +kernel⟩, ⟨_, bankFires_of (by decide +kernel) (by decide +kernel) rfl, by decide +kernel⟩,
    ⟨_, fires_of 0 1 rfl (by decide +kernel) rfl (by decide +kernel), rfl⟩, by and_intros <;> decide +kernel⟩

/-! ### Matrix cells -/

/-- The matrix cell 133 with the state m and the frame bits f3, and its element x in slot 1, whose turn it is. -/
def mxS (x : Elem) (m : Mx) (f3 : BitVec 192 := 0) : State :=
  { world with m := { world.m with
      cur := .elem 0 133 1, regions := [(0, { quad with elems := [(1065, x)], mxs := [(133, m)], cells := [(133, { f3 := f3 })] })] } }
def atM : ERef := ⟨0, 133, 1⟩
theorem mxFires_of {x : Elem} {u : Uses} {i : Ins} {m : Mx} {f3 : BitVec 192} (h : (W.of (mxS x m f3)).mayFire atM = true) (j : x.inputs u = some i)
    (g : (W.of (mxS x m f3)).grantBoth atM = true) : Fires (mxS x m f3) atM x u i := ⟨rfl, ⟨_, rfl, rfl⟩, h, j, g⟩
/-- An element of the cell with the word w and the token t at L. -/
def mxElem (w : W64) (t : Token) : Elem := { word := w, named := 1, inL := some t }
/-- MLDB's tail of a tile of 256 tokens; a row of A waiting beside an active tile, MMA's R naming row 9. -/
def loadMx : Mx := { loading := List.replicate 255 0, loadOpen := true }
def rowMx : Mx := { rows := [[{}, {}]], active := some [], ramp := some { start := 900, table := 0xFFFF }, idleAt := 1000 }
def mmaX (row : W512) : Elem := { word := 0x7182_0000_0000_0000, named := 3, inR := some { data := row } }

theorem witness_MatrixTilesAndRows :
    (∃ i, Fires (mxS (mxElem 0x7080_0000_0000_0000 { tail := true }) loadMx) atM (mxElem 0x7080_0000_0000_0000 { tail := true }) {} i ∧ loadMx.swapDue = none ∧
      i.l.null = false ∧ i.l.head = !loadMx.loadOpen ∧ i.l.tail = decide (loadMx.loading.length + 1 = 256) ∧ i.l.emptyAt 0 = false) ∧
    (∃ i, Fires (mxS (mxElem 0x7080_0000_0000_0000 {}) loadMx) atM (mxElem 0x7080_0000_0000_0000 {}) {} i ∧ i.l.null = false ∧
      i.l.tail ≠ decide (loadMx.loading.length + 1 = 256)) ∧
    (∀ a ∈ [999, 1000], ∃ i, Fires (mxS (mxElem 0x7280_0000_0000_0000 {}) { swapDue := some (a, 998) }) atM (mxElem 0x7280_0000_0000_0000 {}) {} i ∧ i.l.null = false ∧ i.l.emptyAt 0 = false) ∧
    (∀ a ∈ [999, 1000], (W.of (mxS {} { swapDue := some (a, 998) })).onEdge ((mxS {} { swapDue := some (a, 998) }).region 0) 133 = true) ∧
    999 < world.clk.now ∧ world.clk.now ≤ 1000 ∧
    (∃ i, Fires (mxS (mxElem 0x7182_0000_0000_0000 { head := true }) {}) atM (mxElem 0x7182_0000_0000_0000 { head := true }) {} i ∧ i.l.head = true ∧ i.l.null = false ∧
      i.l.tail = decide (0 + 1 = 2) ∧ (mxElem 0x7182_0000_0000_0000 { head := true }).names 1 = false) ∧
    (∀ row ∈ ([191, 192, 1] : List W512), ∃ i, Fires (mxS (mmaX row) rowMx) atM (mmaX row) { l := false, ro := true } i ∧ (mmaX row).inL = none ∧ (mmaX row).names 0 = true ∧
      ((mxS (mmaX row) rowMx).region 0).slotOf 133 0x71 = some (mmaX row) ∧ (W.of (mxS (mmaX row) rowMx)).swapFirst 0 133 = false ∧
      (W.of (mxS (mmaX row) rowMx)).inHand atM row.toNat = false ∧ (W.of (mxS (mmaX row) rowMx)).drainFirst atM [row.toNat] = false ∧
      (W.of (mxS (mmaX row) rowMx)).edgeOf ((mxS (mmaX row) rowMx).region 0) 133 = 1011 ∧ i.rT = true ∧ i.r.null = false ∧ i.r.emptyAt 0 = false ∧ (i.r.lane 0).toNat = row.toNat) ∧
    191 < ({} : Cell).rowCount ∧ ({} : Cell).rowCount ≤ 192 ∧ ({ fold := [(0, true)] } : Mx).isHigh 1 = true ∧
    rowMx.filler = 0 ∧ rowMx.holdTo ≤ 1011 ∧ rowMx.fillEnd ≤ 1011 ∧ rowMx.needsRamp 1011 = false ∧ ({ start := 900, table := 0xFFFF } : Ramp).admits 1011 8 = true ∧ rowMx.free 1011 = true ∧ rowMx.held {} 1011 = false := by
  refine ⟨⟨_, mxFires_of (by decide +kernel) rfl (by decide +kernel), by decide +kernel⟩, ⟨_, mxFires_of (by decide +kernel) rfl (by decide +kernel), by decide +kernel⟩,
    ?_, by decide +kernel, by decide, by decide, ⟨_, mxFires_of (by decide +kernel) rfl (by decide +kernel), by decide +kernel⟩, ?_, by decide +kernel⟩
  · intro a h
    simp only [List.mem_cons, List.not_mem_nil, or_false] at h
    rcases h with rfl | rfl
    all_goals exact ⟨_, mxFires_of (by decide +kernel) rfl (by decide +kernel), by decide +kernel⟩
  intro row h
  simp only [List.mem_cons, List.not_mem_nil, or_false] at h
  rcases h with rfl | rfl | rfl
  all_goals exact ⟨_, mxFires_of (by decide +kernel) rfl (by decide +kernel), by decide +kernel⟩

/-- A firing of an I8 row that is due. -/
def due0 : Firing := { slot := 1, fmt := 8, tokens := [{}, {}], tile := [], frees := 1000, commit := 1004 }
theorem witness_MatrixAccumulation :
    (let s := mxS {} { firings := [due0] } (2 ^ 64)
     tget s.m.regions 0 ≠ none ∧ (s.mx 0 133).firings = [due0] ∧ (W.of s).onEdge (s.region 0) 133 = true ∧ due0.suspect = false ∧
      due0.commit ≤ (W.of s).edgeOf (s.region 0) 133 ∧ (s.mx 0 133).holdTo ≤ (W.of s).edgeOf (s.region 0) 133 ∧ due0.void (s.cell 0 133).scaled = false ∧
      (s.cell 0 133).afmt = 1 ∧ (s.mx 0 133).ccb = [] ∧ ccbFits (s.mx 0 133).ccb due0.row (due0.intRow (s.mx 0 133)).2 = true ∧
      (s.mx 0 133).isHigh due0.row = false ∧ (s.mx 0 133).spill.length ≤ 4096) ∧
    (let s := mxS {} { firings := [{ due0 with fmt := 3 }] }
     (s.cell 0 133).afmt = 0 ∧ (W.of s).onEdge (s.region 0) 133 = true ∧ ({ due0 with fmt := 3 } : Firing).void (s.cell 0 133).scaled = false) := by
  decide +kernel

/-- ACCRD and its like, of the opcode op, with R naming row r; two rows from there on. -/
def drainX (op : W64) (r : W512) : Elem := { word := op * 2 ^ 56, named := 2, inR := some { data := r }, k := 2 }
/-- A matrix cell with an earlier firing into row 190. -/
def before190 : Mx := { firings := [{ due0 with row := 190 }] }
theorem witness_MatrixDrains :
    (∀ op ∈ ([0x73, 0x75, 0x77, 0x78] : List W64), ∀ r ∈ ([190, 192] : List W512), let x := drainX op r
      (∃ i, Fires (mxS x {}) atM x { ro := true } i ∧ i.anyNull = false ∧ i.rT = true ∧ i.r.emptyAt 0 = false ∧ (i.r.lane 0).toNat = r.toNat) ∧
      x.flights = [] ∧ x.opc = op.toNat ∧ (W.of (mxS x {})).drainTurn atM (drainSpan {} x r.toNat []) = true ∧
      (r = 190 → (W.of (mxS x before190)).drainTurn atM (drainSpan {} x 190 []) = false ∧ ∀ k ∈ drainSpan {} x 190 [], k < ({} : Cell).rowCount) ∧
      (r = 192 → ∃ k ∈ drainSpan {} x 192 [], ({} : Cell).rowCount ≤ k)) ∧
    (∃ i, Fires (mxS (drainX 0x73 191) {}) atM (drainX 0x73 191) { ro := true } i ∧ (W.of (mxS (drainX 0x73 191) {})).drainTurn atM [191] = true) ∧
    (∃ i, Fires (mxS { word := 0x7300_0000_0000_0000, named := 2, inR := some { null := true } } {}) atM { word := 0x7300_0000_0000_0000, named := 2, inR := some { null := true } }
      { ro := true } i ∧ i.anyNull = true) ∧
    (190 + 1 < ({} : Cell).rowCount ∧ 191 % 2 = 1 ∧ ({} : Mx).isHigh 190 = false ∧ ({} : Mx).folded 190 = false ∧ ({} : Cell).afmt = 0 ∧ ({ f3 := 2 ^ 64 } : Cell).afmt = 1) ∧
    (∀ k < 128, -(2 ^ 23) ≤ ({} : Mx).countOf 190 k ∧ ({} : Mx).countOf 190 k ≤ 2 ^ 23 - 1) ∧ ({ fold := [(0, true)] } : Mx).isHigh 1 = true := by
  refine ⟨?_, ⟨_, mxFires_of (by decide +kernel) rfl (by decide +kernel), by decide +kernel⟩, ⟨_, mxFires_of (by decide +kernel) rfl (by decide +kernel), by decide +kernel⟩,
    by and_intros <;> decide +kernel⟩
  intro op ho r h
  simp only [List.mem_cons, List.not_mem_nil, or_false] at ho h
  rcases ho with rfl | rfl | rfl | rfl <;> rcases h with rfl | rfl
  all_goals exact ⟨⟨_, mxFires_of (by decide +kernel) rfl (by decide +kernel), by decide +kernel⟩, by decide +kernel⟩

/-- ACCWR's first token and its eighth; a block header of no rows, and one of another AFMT. -/
def wrX (b : List Token) (t : Token) : Elem := { word := 0x7400_0000_0000_0000, named := 1, inL := some t, opened := !b.isEmpty, buf := b }
theorem witness_MatrixWrites :
    (∃ i, Fires (mxS (wrX [] { head := true }) {}) atM (wrX [] { head := true }) {} i ∧ i.l.null = false ∧ i.l.head = !(wrX [] { head := true }).opened ∧ i.l.tail = false) ∧
    (∃ i, Fires (mxS (wrX (List.replicate 7 {}) { tail := true }) {}) atM (wrX (List.replicate 7 {}) { tail := true }) { ro := true } i ∧ i.l.null = false ∧
      i.l.head = !(wrX (List.replicate 7 {}) { tail := true }).opened ∧ i.l.tail = true ∧ ((wrX (List.replicate 7 {}) { tail := true }).buf ++ [i.l]).length = 8) ∧
    (∃ i, Fires (mxS (wrX [{}] { tail := true }) {}) atM (wrX [{}] { tail := true }) { ro := true } i ∧ ((wrX [{}] { tail := true }).buf ++ [i.l]).length ≠ 8) ∧
    (∀ b ∈ [List.replicate 7 {}, [{}]], (W.of (mxS (wrX b { tail := true }) {})).drainTurn atM [0] = true ∧ (W.of (mxS (wrX b { tail := true }) {})).drainTurn atM [] = true) ∧
    0 < ({} : Cell).rowCount ∧ ({} : Mx).isHigh 0 = false ∧ accldRows {} 0 [{ head := true, tail := true }] = .ok [] ∧ blkLane [{ head := true, tail := true }] 3 = 0 ∧
    accldRows {} 0 [{ data := 0x1_0000_0000_0000_0000, head := true, tail := true }] = .error 0x212 :=
  ⟨⟨_, mxFires_of (by decide +kernel) rfl (by decide +kernel), by decide +kernel⟩, ⟨_, mxFires_of (by decide +kernel) rfl (by decide +kernel), by decide +kernel⟩,
    ⟨_, mxFires_of (by decide +kernel) rfl (by decide +kernel), by decide +kernel⟩, by and_intros <;> decide +kernel⟩

/-! ### Address generators, the range server and controllers -/

/-- A CNT over counter 0 of an AG cell with the bound 3 at L; one whose run is in progress. -/
def cntX : Elem := { word := 0xA000_0000_0000_0000, named := 1, inL := some { data := 3 } }
def cntRun : Elem := { cntX with run := some { pos := [2], bounds := [3] } }
theorem witness_Counters :
    ([0, 2].length = [1, 3].length ∧ (∀ j < 2, [0, 2].getD j 0 < [1, 3].getD j 0) ∧ stepPos [0, 1] [1, 3] = some [0, 2]) ∧
    (∀ x ∈ [cntX, cntRun, { cntX with armed := false }, { cntX with inL := some {} }], (W.of (elemS x)).mayFire at1 = true ∧ (W.of (elemS x)).grantBoth at1 = true ∧
      ((elemS x).region 0).startLine 0 = none ∧ field ((elemS x).bar (Bar.partDbg 0)) 7 3 = 0 ∧ ((elemS x).region 0).sink ≠ at1.key) ∧
    ElemTurn (elemS cntX) at1 { quad with elems := [(1, cntX)] } cntX ∧ ElemTurn (elemS cntRun) at1 { quad with elems := [(1, cntRun)] } cntRun ∧
    (∃ i, cntX.inputs {} = some i ∧ i.l.log = none ∧ i.l.rel = none ∧ i.l.last = false ∧ i.anyNull = false ∧ (i.l.policy cntX.empty cntX.k).emptyAt 0 = false ∧
      ((i.l.policy cntX.empty cntX.k).lane 0).toNat = 3) :=
  ⟨by decide, by decide +kernel, ⟨rfl, rfl, rfl⟩, ⟨rfl, rfl, rfl⟩, ⟨_, rfl, by decide +kernel⟩⟩

/-- GATH of stride 64 over one full lane, no longer armed. -/
def gathX : Elem := { word := 0xA700_0600_0000_0000, named := 1, inL := some { data := 3, empty := 0xFFFE }, armed := false }
theorem witness_Addresses :
    (∃ i, Fires (elemS full3) at1 full3 { r := full3.armed && full3.names 1 } i ∧ i.l.null = false) ∧
    (∃ i, Fires (elemS gathX) at1 gathX { r := gathX.armed && gathX.names 1 } i ∧ gathX.base = some 0 ∧ i.l.null = false ∧ (i.l.policy gathX.empty gathX.k).emptyAt 15 = true) ∧
    (ElemTurn (elemS gathX) at1 { quad with elems := [(1, gathX)] } gathX ∧ (W.of (elemS gathX)).mayFire at1 = true ∧ (W.of (elemS gathX)).grantBoth at1 = true ∧
      ∃ i, gathX.inputs { r := false } = some i ∧ i.l.null = false ∧ ∀ t ∈ i.toks, t.log = none ∧ t.rel = none ∧ t.last = false) ∧
    (∃ i, Fires (elemS full3) at1 full3 {} i ∧ i.anyNull = false ∧ (i.l.policy full3.empty full3.k).empty = 0 ∧ (i.l.policy full3.empty full3.k).emptyAt 15 = false) ∧
    ∃ i, Fires (elemS full3) at1 full3 { r := true } i ∧ i.anyNull = false ∧ (i.r.policy full3.empty full3.k).emptyAt 0 = false :=
  ⟨⟨_, fires_of 0 1 rfl (by decide +kernel) rfl (by decide +kernel), by decide +kernel⟩, ⟨_, fires_of 0 1 rfl (by decide +kernel) rfl (by decide +kernel), by decide +kernel⟩,
    ⟨⟨rfl, rfl, rfl⟩, by decide +kernel, by decide +kernel, ⟨_, rfl, by decide +kernel⟩⟩,
    ⟨_, fires_of 0 1 rfl (by decide +kernel) rfl (by decide +kernel), by decide +kernel⟩, ⟨_, fires_of 0 1 rfl (by decide +kernel) rfl (by decide +kernel), by decide +kernel⟩⟩

/-- A region whose range server has been asked by element 1, or by the sequencer of quad 0. -/
def asked (a : Ask) (r : Range) : Region := { quad with elems := [(1, full3)], range := { r with asks := [a] } }
theorem witness_RangeServer :
    (ElemTurn (elemS full3) at1 { quad with elems := [(1, full3)] } full3 ∧ (W.of (elemS full3)).onTurn at1 = true ∧
      ∃ i, full3.inputs {} = some i ∧ i.l.null = false ∧ full3.ended = false ∧ full3.pulls < 8 ∧ full3.flights.length < 16 ∧ (i.l.policy full3.empty full3.k).emptyAt 0 = false) ∧
    (∀ g ∈ [asked { who := 1 } { count := 1 }, asked { who := 1 } {}, asked { raise := true, who := 1, n := 1 } { count := 2 ^ 32 - 2 },
        asked { raise := true, who := 1, n := 1 } { final := true }, asked { raise := true, who := 1 } { final := true }, asked { raise := true, who := 1, n := 1 } { count := 2 ^ 32 - 1 }],
      tget (withRegion g world).m.regions 0 = some g ∧ g.runsAt world.clk.now = true ∧ tget g.elems 1 = some full3 ∧ field ((withRegion g world).bar (Bar.partDbg g.part)) 7 3 = 0) ∧
    (let s := withRegion (asked { raise := true, bySeq := true, n := 1 } {}) (seqS (sqSleep { stage := 4 }))
     tget s.m.seqs 0 = some (sqSleep { stage := 4 }) ∧ (sqSleep { stage := 4 }).wait = some { stage := 4 }) :=
  ⟨⟨⟨rfl, rfl, rfl⟩, by decide +kernel, ⟨_, rfl, by decide +kernel⟩⟩, by decide +kernel, rfl, rfl⟩

/-- A controller in slot 6 of cell 0 with the word op and the count 1 at L; each line of pend holds a pulse for it. -/
def nodeX (op : W64) : Elem := { word := op, named := 1, inL := some { data := 1 } }
def nodeS (op : W64) (n : Node) (pend : List Nat) : State :=
  { world with m := { world.m with
      cur := .elem 0 0 6
      regions := [(0, { quad with
        elems := [(6, nodeX op)], nodes := [(6, n)]
        lines := pend.map fun h => (h, { listeners := [6], pend := [(6, {})] }) })] } }
def atN : ERef := ⟨0, 0, 6⟩
/-- CSEQ of two children: its lines 0 and 1, its children's 2 to 5. -/
def cseqW : W64 := 0xB001_00E0_010E_0008
theorem witness_ControllerNodes :
    ((W.of (nodeS cseqW {} [0])).onOwnEdge atN = true ∧ (W.of (nodeS 0xB101_00E0_010E_0008 {} [0])).onOwnEdge atN = true ∧
      (W.of (nodeS 0xB201_00E0_010E_0008 {} [0])).onOwnEdge atN = true) ∧
    (∀ op, (W.of (nodeS op {} [0])).pendingOn 0 0 6 = some {} ∧ (W.of (nodeS op {} [])).pendingOn 0 0 6 = none) ∧
    ElemTurn (nodeS cseqW {} [0]) atN ((nodeS cseqW {} [0]).region 0) (nodeX cseqW) ∧ (∃ i, (nodeX cseqW).inputs {} = some i ∧ i.l.null = false ∧
      i.l.emptyAt 0 = false ∧ (i.l.lane 0).toNat ≠ 0) ∧ field (nodeX cseqW).fields.ta 16 3 = 1 ∧ field (nodeX cseqW).fields.tb 16 3 = 2 ∧ (nodeX cseqW).fields.mod.toNat + 1 = 2 ∧
    (let n : Node := { running := true, n := 1, fin := [0, 0], busy := [true, false] }
     (W.of (nodeS cseqW n [3])).onOwnEdge atN = true ∧ (W.of (nodeS cseqW n [3])).pendingOn 0 3 6 = some {} ∧ n.busy.length = 2 ∧
      n.fin.length = 2 ∧ n.busy.getD 0 false = true ∧ n.busy.getD 1 false = false ∧ (W.of (nodeS cseqW n [])).canPulse 0 2 = true) ∧
    (let n : Node := { running := true, n := 1, fin := [1, 1], busy := [false, false] }
     n.busy.any id = false ∧ n.fin = List.replicate 2 n.n ∧ (W.of (nodeS cseqW n [])).canPulse 0 1 = true) := by
  exact ⟨by decide +kernel, fun _ => ⟨rfl, rfl⟩, ⟨rfl, rfl, rfl⟩, ⟨_, rfl, by decide +kernel⟩, by and_intros <;> decide +kernel⟩

/-- CBAR of one line 3, and RCFG on line 0, with pulses; a result that is due on an edge. -/
def barrier : State := nodeS 0xB300_01E0_019E_0008 {} [3]
def landing (due : Nat) : State := elemS { word := 0x0160_0000_0008_0018, flights := [{ due := due, a := some {} }] }
theorem witness_PulsesAndLandings :
    (∃ x, ElemTurn barrier atN (barrier.region 0) x ∧ (W.of barrier).onTurn atN = true ∧ x.fields.imm.toNat = 1 ∧ field x.fields.tb 16 3 = 3 ∧
      (W.of barrier).pendingOn 0 3 6 = some {} ∧ (W.of barrier).canPulse 0 (field x.fields.ta 16 3) = true) ∧
    ((W.of (nodeS 0xB400_0700_000E_0008 {} [0])).pendingOn 0 0 6 = some {} ∧ (W.of (nodeS 0xB400_0700_000E_0008 {} [0])).onTurn atN = true) ∧
    (let s := withRegion { quad with lines := [(1, { listeners := [6], held := [{}] })] } world
     (s.line 0 1).held = [{}] ∧ (W.of s).pulseLands (s.region 0) {} = true ∧ (W.of s).pulseLands (s.region 0) { lands := 1001 } = false ∧ (∀ k ∈ (s.line 0 1).listeners, tget (s.line 0 1).pend k = none) ∧ (s.region 0).runsAt s.clk.now = true ∧ (W.of s).stopDue (s.region 0) = false ∧ (s.part 0).halted = false) ∧
    (let s := withRegion { quad with elems := [(1, { full3 with done := true, lastSeen := true })], cells := [(0, { f3 := 2 ^ 48 })] } world
     (W.of s).onEdge (s.region 0) 0 = true ∧ (W.of s).leafDone 0 0 = true ∧ (s.region 0).doneLine 0 = 1 ∧ (W.of s).canPulse 0 1 = true) ∧
    (∀ d ∈ [1011, 1012], (W.of (landing d)).onEdge ((landing d).region 0) 0 = true ∧ (W.of (landing d)).edgeOf ((landing d).region 0) 0 = 1011 ∧
      ((landing d).elem at1).flights = [{ due := d, a := some {} }] ∧ (W.of (landing d)).canLand 0 (((landing d).elem at1).flightA { due := d, a := some {} }) = true) := by
  refine ⟨⟨_, ⟨rfl, rfl, rfl⟩, by decide +kernel⟩, by and_intros <;> decide +kernel⟩

/-! ### Encodings, the step, memory and reset -/

theorem witness_RoundTrip : (Instr.amo 3 10 21 5 1 8).kind = .seq ∧ WellFormed (.amo 3 10 21 5 1 8) = true ∧ (Instr.atom (ef 9 5 6 0x80018)).kind = .elem ∧
    WellFormed (.atom (ef 9 5 6 0x80018)) = true := by decide
theorem witness_DecodedWords : decodeSeq 0x0000_004A = .ok .halt ∧ decodeElem 0x0160_0000_0008_0018 = .ok (.pass (ef 6 0 0 0x80018)) ∧ (Instr.powerLoss).kind = .event :=
  ⟨rfl, rfl, rfl⟩
/-- A sequencer at the word w; an element with the word w: their turns. -/
def atWord (w : W32) (rel : Bool) : State :=
  { (seqS { sq0 with store := [(3, w)], released := rel }) with clk := { world.clk with agenda := [{ dt := 1, act := .seq 0 }] } }
def atPass (w : W64) : State := { elemS { full3 with word := w } with clk := { world.clk with agenda := [{ dt := 1, act := .elem 0 0 1 }] } }
/-- A higher agent id has written into the quad's pennant ring on the cycle of the turn. -/
def lateTurn : State :=
  { atWord 0x4B true with m := { (atWord 0x4B true).m with rings := [(0, { lastAt := 1002, lastBy := (W.of (atWord 0x4B true)).seqAgent 0 + 1 })] } }
theorem witness_StepRunsTheDecoded :
    (∃ sq, (atWord 0x4B true).turn.1 = .seq 0 ∧ tget (atWord 0x4B true).turn.2.m.seqs 0 = some sq ∧
      (W.of (atWord 0x4B true).turn.2).inOrder (.seq 0) = true ∧ sq.issues (atWord 0x4B true).turn.2.m ((W.of (atWord 0x4B true).turn.2).seqAgent 0) 1001 = true ∧
      sq.nextAt ≤ (atWord 0x4B true).turn.2.clk.now ∧ sq.pc.toNat < 4096 ∧ tget sq.store sq.pc.toNat = some 0x4B) ∧ decodeSeq 0x4B = .ok .nop ∧
    (∃ sq, tget (atWord 0x4B false).turn.2.m.seqs 0 = some sq ∧ sq.issues (atWord 0x4B false).turn.2.m ((W.of (atWord 0x4B false).turn.2).seqAgent 0) 1001 = false) ∧
    (W.of lateTurn.turn.2).inOrder lateTurn.turn.1 = false ∧
    (∃ sq, tget { atWord 0x4B true with m := { (atWord 0x4B true).m with seqs := [(0, { sq0 with nextAt := 1006 })] } }.turn.2.m.seqs 0 = some sq ∧ (atWord 0x4B true).turn.2.clk.now < sq.nextAt) ∧
    (∀ w : W64, ∃ g x, (atPass w).turn.1 = .elem at1.r at1.cell at1.slot ∧ tget (atPass w).turn.2.m.regions 0 = some g ∧ tget g.elems 1 = some x ∧ x.word = w) ∧
    decodeElem 0x0160_0000_0000_0000 = .ok (.pass (ef 6 0 0)) ∧ State.reset.turn.1 = .ev (.powerOnReset {} 0) :=
  ⟨⟨_, rfl, rfl, by decide +kernel⟩, rfl, ⟨_, rfl, by decide +kernel⟩, by decide +kernel, ⟨_, rfl, by decide +kernel⟩, fun _ => ⟨_, _, rfl, rfl, rfl, rfl⟩, rfl, rfl⟩
theorem witness_TurnsAndTime : (atWord 0x4B true).clk.agenda = [{ dt := 1, act := .seq 0 }] ∧ ∃ t, step (atWord 0x4B true) = .next t := ⟨rfl, _, rfl⟩
theorem witness_MemoryForm : (qappS sqPkt).mem.wf = true ∧ ∃ t, step (atWord 0x4B true) = .next t := ⟨by decide, _, rfl⟩
theorem witness_ResetState : quad.resume = none ∧ ∀ n < 16, State.reset.bar (Bar.partCtl n) = 0x380000 := ⟨rfl, by decide +kernel⟩
theorem witness_InterleavedHomes : (0x4000 : Nat) % 2 ^ 14 = 0 ∧ (3 : Nat) < 4 ∧ 192 * 2 ^ 30 - 1 < 192 * 2 ^ 30 := by decide

/-! ### Responses, engines -/

/-- The world with one request of the sequencer of quad 0, or with requests and writes not seen everywhere. -/
def rq (k : ReqKind) : Req :=
  { id := 1, agent := 7, src := .seq 0 1, kind := k, pieces := [{ key := 2 ^ 40, len := 8 }], size := 8, data := 5, data2 := 9, mask := 2 ^ 8 - 1 }
def onBus (b : Bus) (s : State := world) : State := { s with m := { s.m with bus := b } }
def hid (id die key num : Nat) : Unseen := { id := id, die := die, key := key, num := num }
/-- The hub's accesses of VA 0x1000 in the world: one location, with one copy. -/
theorem hub_all : ∃ l off, world.hubAt 0 0x1000 .read l off ∧ world.hubAt 0 0x1000 .write l off ∧ world.hubAt 0 0x1000 .atomic l off ∧ hubKey l off = 2 ^ 40 ∧ hubCopies l off = [2 ^ 40] :=
  ⟨_, _, ⟨_, rfl⟩, ⟨_, rfl⟩, ⟨_, rfl⟩, by decide +kernel⟩
theorem witness_HomeWrites :
    (∀ k ∈ ([.write, .atomic 16, .atomic 31, .cas] : List ReqKind), let s := onBus { reqs := [rq k] }
      s.mem.wf = true ∧ s.req 1 = some (rq k) ∧ mayPerform s.m.bus.reqs (rq k) = true ∧ (W.of s).relReady (rq k) = true ∧ (rq k).left.head? = some 0 ∧
      ((2 ^ 40 : Nat) % 64 + 8 ≤ 64) ∧ (rq k).die < 6 ∧ (rq k).agent < 2 ^ 50 ∧ (W.of s).homeOpen ((W.of s).reqEye (rq k)) (2 ^ 40) = true) ∧
    (let s := onBus { reqs := [rq .write], tie := [(1, (1001, 2 ^ 40))] }
     s.req 1 = some (rq .write) ∧ (W.of s).homeOpen ((W.of s).reqEye (rq .write)) (((rq .write).pieces.getD 0 {}).key) = false) ∧
    ((∀ v ∈ [hid 1 2 0 1] ++ [hid 2 2 64 2], v.id ≠ 3 ∨ v.die ≠ 2) ∧
      (∀ v ∈ [hid 1 2 0 1] ++ [hid 2 2 64 2], v.die = 2 → v.src < 5 → (hid 3 2 128 3).cov.vec.getD v.src 0 < v.num) ∧
      (hid 3 2 128 3).die ≠ (hid 3 2 128 3).src ∧ (hid 3 2 128 3).die ≠ 5 ∧
      (∃ v ∈ [hid 1 2 0 1] ++ [], v.die = 2 ∧ v.src < 5 ∧ v.num ≤ ({ hid 3 2 128 3 with cov := { vec := [1] } } : Unseen).cov.vec.getD v.src 0) ∧
      (let u : Unseen := { hid 3 2 128 3 with src := 2 }
       u.die = u.src ∧ (∀ v ∈ [hid 1 2 0 1], v.die = 2 → u.cov.binds v = true → 7 ∈ v.seers) ∧
       ∃ v ∈ [hid 1 2 0 1], v.die = 2 ∧ ({ u with cov := { near := [1] } } : Unseen).cov.binds v = true ∧ 7 ∉ v.seers)) ∧
    ((W.of world).unitsOf (.cp 0) = [4] ∧ (0x1000 : W64).toNat % 64 + 8 ≤ 64 ∧ (2 ^ 40 : Nat) % 64 + 8 ≤ 64) ∧
    -- the hub sees what it reads; it does not: a write that it sees comes after one that it does not; DRAM has failed there
    (∀ p ∈ ([({}, true), ({ bad := [2 ^ 40] }, true), ({ unseen := [{ hid 2 0 (2 ^ 40) 2 with mask := 0xFF, agent := 9, cov := { vec := [1] } }, hid 1 4 0 1] }, false)] :
        List (Bus × Bool)), let w := W.of (onBus p.1)
      let e := hubAgent (w.srcAgent (.cp 0))
      w.wayOpen (2 ^ 40) = true ∧ w.homeOpen e (2 ^ 40) = true ∧ w.seesAll e (w.owed e 5 (w.sources e false { key := 2 ^ 40, len := 8 })) = p.2) ∧
    sectorKey (2 ^ 40) = 2 ^ 40 ∧
    ∃ l off, world.hubAt 0 0x1000 .read l off ∧ world.hubAt 0 0x1000 .write l off ∧ world.hubAt 0 0x1000 .atomic l off ∧ hubKey l off = 2 ^ 40 ∧ hubCopies l off = [2 ^ 40] :=
  ⟨by decide +kernel, by decide +kernel, by decide +kernel, ⟨rfl, by decide⟩, by decide +kernel, by decide, hub_all⟩

/-- A sequencer whose s1 awaits request 1, and the same asleep on its read. -/
def sqAsk : Seq := { sq0 with outs := [{ id := 1 }], regAt := [(1, 1)] }
def sqMwait (thr : W64) : Seq := { sqAsk with wait := some { req := some 1, num := thr } }
def askS (sq : Seq) (r : Req) (unseen : List Unseen := []) : State := onBus { reqs := [r], unseen := unseen } (seqS sq)
theorem witness_SequencerResponses :
    (∀ k ∈ ([.read, .cas, .atomic 16, .pnrd, .write] : List ReqKind), (askS sqAsk (rq k)).req 1 = some (rq k) ∧
      mayPerform (askS sqAsk (rq k)).m.bus.reqs (rq k) = true ∧ (W.of (askS sqAsk (rq k))).relReady (rq k) = true ∧
      (W.of (askS sqAsk (rq k))).mayRead (rq k) { key := 2 ^ 40, len := 8 } = true ∧
      (W.of (askS sqAsk (rq k))).seesAll ((W.of (askS sqAsk (rq k))).reqEye (rq k)) (rq k).after = true) ∧
    tget (askS sqAsk (rq .read)).m.seqs 0 = some sqAsk ∧ (W.of (askS sqAsk (rq .pnrd))).resolve 0 0 = none ∧
    (rq .read).did = [] ∧ (rq .read).acq = false ∧ sqAsk.wait = none ∧ tget sqAsk.regAt 1 = some 1 ∧
    (let r : Req := { rq .write with rel := true, did := [0], writes := [3], scope := 4 }
     let me := (W.of (askS sqAsk r)).reqEye r
     (W.of (askS sqAsk r)).performed me r.scope r.writes r.cov = true ∧ (W.of (askS sqAsk r [hid 3 2 0 1])).performed me r.scope r.writes r.cov = false) ∧
    (∀ thr, (sqMwait thr).wait = some { req := some 1, num := thr }) ∧ ({ req := some 1 } : SeqWait).reads = 0 ∧ (W.of (askS (sqMwait 1) (rq .read))).mayRead (rq .read) { key := 2 ^ 40, len := 8 } = true ∧
    leNat ((List.range 8).map fun b => (askS (sqMwait 1) (rq .read)).view ((W.of (askS (sqMwait 1) (rq .read))).reqEye (rq .read)) (2 ^ 40 + b)) = 0 :=
  ⟨by decide +kernel, rfl, by decide +kernel, rfl, rfl, rfl, rfl, by decide +kernel, fun _ => rfl, rfl, by decide +kernel, by decide +kernel⟩

/-- Element 1 of cell 0 awaiting request 1; the same with a SIGLD. -/
def elemRq (k : ReqKind) (n : Nat) : Req :=
  { id := 1, agent := 7, src := .elem 0 0 1, kind := k, pieces := [{ key := 2 ^ 40, len := n }], size := n, fmt := 6, data := 5, mask := 2 ^ 64 - 1 }
def waiting (sig : Option SigWait) : Elem := { word := 0x8400_0000_0000_0000, sig := sig, flights := [{ req := some 1, a := some { rel := some {} } }] }
def elemAsk (x : Elem) (r : Req) : State := onBus { reqs := [r], unseen := [hid 3 2 0 1] } (elemS x)
theorem witness_CellResponses :
    (∀ k ∈ ([(.read, 64), (.read, 8), (.write, 8), (.mfence 2, 8), (.rdcp 0 4, 64), (.cas, 64), (.atomic 0, 64)] : List (ReqKind × Nat)),
      (elemAsk (waiting none) (elemRq k.1 k.2)).req 1 = some (elemRq k.1 k.2) ∧ mayPerform (elemAsk (waiting none) (elemRq k.1 k.2)).m.bus.reqs (elemRq k.1 k.2) = true ∧
      tget (elemAsk (waiting none) (elemRq k.1 k.2)).m.regions at1.r = some { quad with elems := [(1, waiting none)] } ∧ (elemRq k.1 k.2).did = [] ∧
      (W.of (elemAsk (waiting none) (elemRq k.1 k.2))).relReady (elemRq k.1 k.2) = true ∧
      (W.of (elemAsk (waiting none) (elemRq k.1 k.2))).mayRead (elemRq k.1 k.2) { key := 2 ^ 40, len := k.2 } = true) ∧
    tget ({ quad with elems := [(1, waiting none)] } : Region).elems at1.key = some (waiting none) ∧
    (∀ thr ∈ [0, 1], (waiting (some { thr := thr, req := some 1 })).sig = some { thr := thr, req := some 1 }) ∧
    (let s := elemAsk (waiting none) (elemRq .read 8)
     leNat ((List.range 8).map fun b => s.view ((W.of s).reqEye (elemRq .read 8)) (2 ^ 40 + b)) = 0 ∧
      (W.of s).mayRead (elemRq .read 8) { key := 2 ^ 40, len := 8 } = true) ∧
    (let r : Req := { elemRq .write 8 with rel := true, did := [0], writes := [3], scope := 4 }
     let s := elemAsk (waiting none) r
     (W.of s).performed ((W.of s).reqEye r) 4 [3] r.cov = false ∧ (W.of s).performed ((W.of s).reqEye r) 4 [4] r.cov = true) ∧
    (let s := elemAsk (waiting none) { elemRq (.mfence 2) 8 with scope := 3 }
     ∀ u ∈ s.m.bus.unseen, u.outside 3 ((W.of s).reqEye { elemRq (.mfence 2) 8 with scope := 3 }) = false) ∧
    (let s := elemAsk (waiting none) (elemRq (.rdcp 0 4) 64)
     (W.of s).homeOpen ((W.of s).reqEye (elemRq (.rdcp 0 4) 64)) (2 ^ 40) = true) ∧ (2 ^ 40 : Nat) % 64 = 0 ∧ world.mem.wf = true ∧
    ((0x1000 : W64).toNat % 8 = 0 ∧ (0x1000 : W64).toNat + 8 ≤ maxInterleave ∧ 1 ≠ field (world.bar Bar.devLoc) 12 0 ∧ keyDie (homeDie 0x1000) (dieOffset 0x1000) = 2 ^ 40 ∧
      (W.of world).homeOpen { die := 5, agent := 2 ^ 41 + 1, id := 7 + 2 ^ 19 } (2 ^ 40) = true) := by
  decide +kernel

/-- A copy of 64 bytes from VA 0x1000 to the bank of cell 0, on engine 0, for the sequencer of quad 0; its one tile goes to slot 1 of cell 0. -/
def cp1 : Copy := { id := 1, src := .seq 0 0, dst := 0x8000_0000_0000_0000, from' := 0x1000, len := 64, popped := true, landen := true, lslot := 1 }
def cpIn : Copy := { cp1 with reads := [(0, 5)] }
def cpDone : Copy := { cp1 with done := [0] }
def cpOver : Copy := { cpDone with landed := 1, writes := [3], tag := 2 }
def landX : Elem := { word := 0x0160_0000_0000_0000, named := 1 }
def copyS (c : Copy) (unseen : List Unseen := []) (x : Elem := landX) : State :=
  let s := onBus { unseen := unseen } (seqS sqAsk)
  { s with m := { s.m with regions := [(0, { quad with elems := [(1, x)] })], hub := { copies := [c] } } }
/-- An engine-fed RECV in slot 1, and a copy that feeds it. -/
def recvX : Elem := { word := 0x8C00_0000_0000_0000, named := 1 }
def cpFeed : Copy := { cpIn with landen := false, feed := some 1 }
theorem witness_CopyEngines :
    (let c : Copy := { cp1 with popped := false }
     let d : Copy := { c with id := 2, agent := 1, num := 1 }
     (∃ ref, (copyS c).m.hub.copies = [] ++ c :: [] ∧ c.eng ≠ 48 ∧ ((copyS c).part 0).halted = false ∧
      ref = ((W.of (copyS c)).pennant (engRing c.eng) 0 ⟨(W.of (copyS c)).engAgent 0, 0, 0, 200, 200, 200, 0x30, 0⟩).2) ∧
     (∀ x ∈ [c] ++ [], x.id ≠ d.id) ∧ (∀ x ∈ [c], x.eng ≠ d.eng ∨ x.agent ≠ d.agent ∨ x.popped = true) ∧
     ∃ x ∈ [c] ++ [], x.eng = d.eng ∧ x.popped = false ∧ x.sent = d.sent ∧ x.agent < d.agent) ∧
    ((∃ w bs, (W.of (copyS cp1)).engRead 0 0 cp1.src 0 (cp1.from' + BitVec.ofNat 64 0) 64 = (w, .ok bs)) ∧ (∀ c ∈ [cp1, cpIn, cpFeed, cpDone, cpOver], (W.of (copyS c)).copy 1 = some c ∧ ((copyS c).part c.part).halted = false) ∧
      pieceCount cp1.dst.toNat cp1.len = 1 ∧ pieceAt cp1.dst.toNat cp1.len 0 = (0, 64) ∧ 0 / 2 ^ 36 < cp1.rows ∧ 0 ∉ cp1.done ∧
      ((sourceParts cp1.from'.toNat 0 64).find? fun j => (tget cp1.reads (0 * 2 ^ 36 + j)).isNone) = some 0 ∧ (0, 64) = pieceAt cp1.from'.toNat cp1.len 0 ∧
      (∀ j ∈ sourceParts cpIn.from'.toNat 0 64, (tget cpIn.reads (0 * 2 ^ 36 + j)).isSome = true) ∧
      isBank (cpIn.dst + BitVec.ofNat 64 0) = true ∧ (W.of (copyS cpIn)).engineSlot 0 (bankCell (cpIn.dst + BitVec.ofNat 64 0)) true = true ∧
      (W.of (copyS cpIn)).mayWrite cpIn.src cpIn.num cpIn.fence cpIn.ord = true ∧ cpIn.feed = none ∧ cpIn.redop = 0 ∧
      (let s := copyS cpFeed [] recvX
       cpFeed.upTo 0 = true ∧ cpFeed.overlaps cpFeed.dst = false ∧ (W.of s).earlierFeeds cpFeed.src cpFeed.eng cpFeed.num = false ∧ (W.of s).feedable ⟨0, 0, 1⟩ true = true ∧
        (s.region 0).fedRecv 0 = some 1 ∧ ((copyS cpIn).region 0).fedRecv 0 = none) ∧
      (let late : Copy := { cpIn with id := 2, num := 1, ord := true }
       let s := copyS late
       (W.of { s with m := { s.m with hub := { copies := [cp1, late] } } }).mayWrite late.src late.num late.fence late.ord = false)) ∧
    (tget ({ quad with elems := [(1, landX)] } : Region).elems (ERef.key ⟨0, 0, 1⟩) = some landX ∧ (W.of (copyS cpDone)).feedable ⟨0, 0, 1⟩ false = true ∧
      (W.of (copyS cpDone)).earlierFeeds cpDone.src cpDone.eng cpDone.num = false ∧ cpDone.landed < cpDone.tiles ∧ cpDone.tileIn 0 = true ∧ cp1.tileIn 0 = false) ∧
    (let me := issuerEye cpOver.src cpOver.agent cpOver.region
     cpOver.ends = none ∧ cpOver.complete = true ∧ cpOver.tiles ≤ cpOver.landed ∧ (W.of (copyS cpOver)).ownedDone 1 = true ∧
      (W.of (copyS cpOver)).performed me cpOver.scope cpOver.writes {} = true ∧ (W.of (copyS cpOver [hid 3 0 0 1])).performed me cpOver.scope cpOver.writes {} = false ∧
      (W.of (copyS cpOver)).performed me cpOver.scope ([8] ++ cpOver.writes) {} = true ∧ (W.of (copyS cpOver [hid 8 0 0 1])).performed me cpOver.scope ([8] ++ cpOver.writes) {} = false ∧
      ((W.of (copyS cpOver)).engEye 0).die = 0 ∧
      ∃ w ls ts, (W.of (copyS cpOver)).placed (.engine 0) 0 0x1000 8 .write (.near 0) 0xF = (w, .ok (ls, [{ key := 2 ^ 40, len := 8 }], ts)) ∧
        w.homeOpen ((W.of (copyS cpOver)).engEye 0) (2 ^ 40) = true) ∧
    (let c : Coll := { id := 1, src := .seq 0 0, popped := true, ranks := 1, recv := 0x1000, count := 16, done := [0] }
     ([c].find? fun x => x.id == 1) = some c ∧ (∀ j < c.total, j ∈ c.done) ∧ c.ends = none ∧ c.stamp = 0 ∧ field c.ctl 37 36 = 0 ∧
      (W.of (copyS cpOver)).performed (issuerEye c.src c.agent c.region) c.scope c.writes {} = true ∧
      (W.of (copyS cpOver [hid 3 0 0 1])).performed (issuerEye c.src c.agent c.region) c.scope [3] {} = false) := by
  refine ⟨⟨⟨_, rfl, by decide, by decide, rfl⟩, by and_intros <;> decide⟩, ⟨ok_of _ (by decide +kernel), by decide +kernel⟩, by decide +kernel,
    ?_, by decide +kernel⟩
  and_intros
  iterate 9 decide +kernel
  exact ⟨_, _, _, rfl, by decide +kernel⟩

/-! ### The command processor -/

/-- A packet of a TYPE with its six words, at an address of a graph or in a slot; a packet's bytes stand at VA 0x1000. -/
def pkBytes (typ : Byte) (ws : List W64) : List Byte := typ :: List.replicate 15 0 ++ ws.flatMap (fun x => leBytes 8 x.toNat) ++ List.replicate (48 - 8 * ws.length) 0
def pk (typ : Byte) (ws : List W64) (va : W64 := 0) : Packet := { bytes := pkBytes typ ws, va := va }
def cpS (u : Queue) (bs : List Byte := []) : State := { world with mem := memPut [] (2 ^ 40) bs, m := { world.m with queues := [(0, u)] } }
def qSlot : Queue := { on := true, armed := true, base := 0x2000, slotBase := 0x1000, slots := 4, wr := 1 }
def qNode : Queue := { qSlot with next := 0x1000 }
def qCur (p : Packet) : Queue := { qSlot with cur := some p }
def copyW : List W64 := [0x1000, 0x1040, 64, 0, 0, 0]
theorem witness_QueueHeads :
    (let s := cpS qSlot (pkBytes 2 copyW)
     s.queue 0 = qSlot ∧ (W.of s).serves 0 = true ∧ qSlot.slotBase + BitVec.ofNat 64 (64 * (qSlot.rd % max qSlot.slots 1)) = 0x1000) ∧
    (∃ w bs r w2 w3 i2 i3, (W.of (cpS qSlot (pkBytes 2 copyW))).hubGet (.cp 0) 0 0x1000 64 .read 5 8 = (w, .ok (bs, r)) ∧ leNat (bs.take 1) ≠ 0 ∧
      w.hubPut (.cp 0) 0 0x1000 {} (leBytes 8 0) = (w2, .ok i2) ∧ w2.hubPut (.cp 0) 0 (0x2000 + 8) { scope := 5, agent := (W.of (cpS qSlot (pkBytes 2 copyW))).cpAgent 0 } (leBytes 8 1) = (w3, .ok i3)) ∧
    ((pk 2 copyW).fault = none ∧ (pk 10 copyW).fault = some 0x0F0 ∧ (pk 2 [0x1000, 0x1000]).fault = some 0x0F1 ∧ (pk 7 [8, 1]).fault = some 0x0F2 ∧ (pk 2 copyW 0x1000).f 2 1 = 0) ∧
    (∃ w bs r, (W.of (cpS qNode (pkBytes 2 copyW))).hubGet (.cp 0) 0 0x1000 64 = (w, .ok (bs, r))) ∧
    (∃ w bs r, (W.of (cpS qSlot)).hubGet (.cp 0) 0 0x2000 8 = (w, .ok (bs, r))) ∧
    MayRaise (cpS qSlot) 0 ((W.of (cpS qSlot)).cpAgent 0) ∧ (∃ l off, (cpS qSlot).hubAt 0 0x2000 .read l off ∧ keyHome (hubKey l off) = 2) ∧
    ((∀ x ∈ (cpS qSlot).m.queues, (W.of (cpS qSlot)).hubLookup ((W.of (cpS qSlot)).queuePart x.1) ((cpS qSlot).queue x.1).base .read ≠ .miss) ∧
      ((W.of (cpS qSlot)).watchesDie 0 2).2 = true ∧ qSlot.away = false ∧ qSlot.stopping = false) ∧
    ∃ w bs r, (((W.of (cpS qSlot)).setHub fun h => { h with retrain := h.retrain.filter (· != 2) }).arm 0).hubGet (.cp 0) 0 0x2000 8 = (w, .ok (bs, r)) :=
  ⟨by decide +kernel, ⟨_, _, _, _, _, _, _, rfl, by decide +kernel, rfl, rfl⟩, by decide +kernel, ok2 _ (by decide +kernel), ok2 _ (by decide +kernel), ⟨rfl, by decide⟩,
    ⟨_, _, ⟨_, rfl⟩, by decide +kernel⟩, ⟨by decide +kernel, by decide +kernel, rfl, rfl⟩, ok2 _ (by decide +kernel)⟩

/-- The CP issues a packet at the head of queue 0. -/
theorem issues_of (typ : Nat) (p : Packet) (bs : List Byte) (h : p.typ = typ) (t : (W.of (cpS (qCur p) bs)).cpTurn 0 = true)
    (b : (((W.of (cpS (qCur p) bs)).issueHead 0 p).1.nodeBusy 0 p).2.toOption.isSome = true) : ∃ w, Issues (cpS (qCur p) bs) 0 typ p w := by
  obtain ⟨w, a, e⟩ := ok_of _ b
  exact ⟨w, rfl, h, t, a, e⟩
/-- Each TYPE is issued, in a slot and in a node of a graph. -/
theorem issues_types :
    (∃ w, Issues (cpS (qCur (pk 1 [0x1000, 0, 0, 0, 0, 0]))) 0 1 (pk 1 [0x1000, 0, 0, 0, 0, 0]) w) ∧ (∃ w, Issues (cpS (qCur (pk 2 copyW))) 0 2 (pk 2 copyW) w) ∧
    (∃ w, Issues (cpS (qCur (pk 2 copyW 0x1000))) 0 2 (pk 2 copyW 0x1000) w) ∧ (∃ w, Issues (cpS (qCur (pk 3 []))) 0 3 (pk 3 []) w) ∧
    (∃ w, Issues (cpS (qCur (pk 4 [0x1000, 1, 9]))) 0 4 (pk 4 [0x1000, 1, 9]) w) ∧ (∃ w, Issues (cpS (qCur (pk 5 [0x1000, 1, 2]))) 0 5 (pk 5 [0x1000, 1, 2]) w) ∧
    (∃ w, Issues (cpS (qCur (pk 6 [0x1000, 1, 2]))) 0 6 (pk 6 [0x1000, 1, 2]) w) ∧ (∃ w, Issues (cpS (qCur (pk 7 [0x1000, 1] 0x1000))) 0 7 (pk 7 [0x1000, 1] 0x1000) w) ∧
    (∃ w, Issues (cpS (qCur (pk 8 [0x1000, 0x2000, 64]))) 0 8 (pk 8 [0x1000, 0x2000, 64]) w) ∧ ∃ w, Issues (cpS (qCur (pk 9 []))) 0 9 (pk 9 []) w := by
  and_intros <;> exact issues_of _ _ _ (by decide +kernel) (by decide +kernel) (by decide +kernel)

/-- An image header whose QW and QH are in their ranges. -/
def hdr11 : List Byte := [0, 0, 0, 0, 0, 1, 1]
def afterIssue (u : Queue) (p : Packet) (bs : List Byte) : W := (((W.of (cpS u bs)).issueHead 0 p).1.nodeBusy 0 p).1
/-- The same with a page that may only be read. -/
def sealedS (u : Queue) (bs : List Byte := []) : State :=
  { cpS u bs with m := { (cpS u bs).m with mmu := { tlb := [{ id := 5, unit := 4, size := 21, leaf := 0x7 }] } } }
/-- The release of a SIGNAL with MOD 2 in queue 0. -/
def sigRel : Rel := { scope := 3, agent := (W.of world).cpAgent 0, ref := ((afterIssue (qCur (pk 4 [0x1000, 1, 9])) (pk 4 [0x1000, 1, 9]) []).queue 0).ref }
/-- A queue with one job that is done, one that waits for a word to be 0, and one that waits for it to be 1. -/
def qJob (j : Job) : Queue := { qSlot with jobs := [{ j with id := 1 }], hold := if j.done then none else some 1 }
def jobDone : Job := { done := true, sigop := 1, sig := 0x1000 }
theorem witness_PacketWork :
    ((∀ p ∈ [pk 2 copyW, pk 3 [], pk 4 [0x1000, 1, 9]], ∀ j ∈ ((cpS (qCur p)).queue 0).jobs, j.id ≠ (cpS (qCur p)).m.nextId + 1) ∧ 0 = (W.of (cpS (qCur (pk 2 copyW)))).queuePart 0) ∧
    (∃ w' a, (afterIssue (qCur (pk 4 [0x1000, 1, 9])) (pk 4 [0x1000, 1, 9]) []).hubSignal (.cp 0) 0 0x1000 1 1 sigRel true = (w', .ok a)) ∧
    ((∃ w, Issues (sealedS (qCur (pk 4 [0x1000, 1, 9]))) 0 4 (pk 4 [0x1000, 1, 9]) w ∧ ∃ w' c va, w.hubSignal (.cp 0) 0 0x1000 1 1 sigRel true = (w', .error (.fault c va))) ∧
      MayRaise (sealedS (qCur (pk 4 [0x1000, 1, 9]))) 0 ((W.of (sealedS (qCur (pk 4 [0x1000, 1, 9])))).cpAgent 0)) ∧
    (∃ w bs r, (afterIssue (qCur (pk 1 [0x1000])) (pk 1 [0x1000]) hdr11).hubGet (.engine 49) 0 0x1000 64 .image = (w, .ok (bs, r)) ∧ (headerOf bs).qw = 1 ∧ (headerOf bs).qh = 1) ∧
    (∃ w bs r, (afterIssue (qCur (pk 1 [0x1000])) (pk 1 [0x1000]) []).hubGet (.engine 49) 0 0x1000 64 .image = (w, .ok (bs, r)) ∧ (headerOf bs).qw = 0) ∧
    (∃ w bs r wins, (afterIssue (qCur (pk 1 [0x1000, 0x1000])) (pk 1 [0x1000, 0x1000]) []).hubGet (.cp 0) 0 0x1000 128 = (w, .ok (bs, r)) ∧ windowTable bs = some wins) ∧
    (let s := cpS (qCur (pk 4 [0x1000, 1, 9]))
     let w := afterIssue (qCur (pk 4 [0x1000, 1, 9])) (pk 4 [0x1000, 1, 9]) []
     ({ scope := field ((pk 4 [0x1000, 1, 9]).word 2) 4 2 + 1, agent := (W.of s).cpAgent 0, ref := (w.queue 0).ref, step := (w.queue 0).step } : Rel) = sigRel) ∧
    (W.of (cpS (qJob jobDone))).cpRuns 0 = true ∧ ((cpS (qJob jobDone)).job 0 1 = some { jobDone with id := 1 } ∧
      (∀ p ∈ [([], true), ([hid 3 2 0 1], false)], let w := W.of (onBus { unseen := p.1 } (cpS (qJob { jobDone with writes := [3], scope := 4 })))
        w.performed (hubAgent (w.cpAgent 0)) 4 [3] {} = p.2) ∧
      ∃ y ids, (W.of (cpS (qJob jobDone))).hubSignal (.cp 0) 0 0x1000 1 0 { scope := 4, agent := (W.of (cpS (qJob jobDone))).cpAgent 0 } false = (y, .ok ids)) :=
  ⟨by decide +kernel, ok_of _ (by decide +kernel), ⟨⟨_, ⟨rfl, by decide +kernel, by decide +kernel, _, rfl⟩, _, _, _, rfl⟩, rfl, by decide⟩, ⟨_, _, _, rfl, by decide +kernel⟩, ⟨_, _, _, rfl, by decide +kernel⟩,
    ⟨_, _, _, _, rfl, rfl⟩, by decide +kernel, by decide +kernel, rfl, by decide +kernel, ok_of _ (by decide +kernel)⟩

theorem witness_WaitsAndConditions :
    (∀ cmp ∈ [0, 1, 2, 3, 4, 5], cmpWord cmp 0 0 = (cmp == 0 || cmp == 2 || cmp == 4) ∧ cmpWord cmp 0 (BitVec.allOnes 64) = (cmp == 1 || cmp == 3 || cmp == 4)) ∧
    (∃ w bs r, (afterIssue (qCur (pk 5 [0x1000, 0, 2])) (pk 5 [0x1000, 0, 2]) []).hubGet (.cp 0) 0 0x1000 8 = (w, .ok (bs, r)) ∧ cmpWord 2 (BitVec.ofNat 64 (leNat bs)) 0 = true ∧
      cmpWord 1 (BitVec.ofNat 64 (leNat bs)) 0 = false) ∧ (qCur (pk 5 [0x1000, 0, 2])).hold = none ∧
    (∀ v : W64, (cpS (qJob { typ := 5, sig := 0x1000, sigval := v })).job 0 1 = some { id := 1, typ := 5, sig := 0x1000, sigval := v }) ∧
    (W.of (cpS (qJob { typ := 5, sig := 0x1000, sigval := 1 }))).serves 0 = true ∧ (qJob { typ := 5 }).hold = some 1 ∧
    ∃ w bs r, (W.of (cpS (qJob { typ := 5, sig := 0x1000, sigval := 1 }))).hubGet (.cp 0) 0 0x1000 8 = (w, .ok (bs, r)) ∧ leNat bs = 0 :=
  ⟨by decide +kernel, ⟨_, _, _, rfl, by decide +kernel⟩, rfl, fun _ => rfl, by decide +kernel, rfl, _, _, _, rfl, by decide +kernel⟩

/-- A REARM of the node at VA 0x1000, whose block is that node. -/
def pkRearm : Packet := pk 7 [0x1000, 1] 0x1000
theorem witness_Rearm :
    (∃ (l : Nat → Leaf) (off : Nat → Nat) (l0 : Leaf) (off0 : Nat) (w x y : W) (i0 ids : List Nat), Issues (cpS (qCur pkRearm)) 0 7 pkRearm w ∧
      w.hubPut (.cp 0) 0 (pkRearm.va + 2) {} [2] = (x, .ok i0) ∧
      (List.range 1).foldl (fun (a : Tried (List Nat)) i => andThen a fun w _ => w.hubPut (.cp 0) 0 (pkRearm.word 0 + BitVec.ofNat 64 (64 * i + 2)) {} [0]) (x, .ok []) = (y, .ok ids) ∧
      (cpS (qCur pkRearm)).hubAt 0 (pkRearm.va + 2) .write l0 off0 ∧
      ∀ i < 1, (cpS (qCur pkRearm)).hubAt 0 (pkRearm.word 0 + BitVec.ofNat 64 (64 * i + 2)) .write (l i) (off i)) ∧
    (pkRearm.va ≠ 0 ∧ (pkRearm.word 1).toNat = 1) ∧
    (∃ w bs r, (W.of (cpS qNode [2, 0, 1])).hubGet (.cp 0) 0 0x1000 64 = (w, .ok (bs, r)) ∧ leNat ((bs.drop 2).take 1) ≠ 0) ∧
    qNode.cur = none ∧ qNode.hold = none ∧ qNode.next ≠ 0 := by
  refine ⟨⟨fun _ => ⟨0, 0, 0, 0⟩, fun _ => 0x1002, ⟨0, 0, 0, 0⟩, 0x1002, _, _, _, _, _, ⟨rfl, by decide +kernel, by decide +kernel, _, rfl⟩, rfl, rfl, ⟨_, rfl⟩, fun i h => ?_⟩,
    by decide, ⟨_, _, _, rfl, by decide +kernel⟩, by decide⟩
  obtain rfl : i = 0 := by omega
  exact ⟨_, rfl⟩

/-- A ring descriptor at VA 0x1000: host base 0x10000, 4 slots, vector 7, COAL_N 2, COAL_T 5, WR, RD 0, HOST_WR 0x20000. -/
def ringBs (wr : Nat) : List Byte := leBytes 8 0x10000 ++ leBytes 4 4 ++ leBytes 2 7 ++ leBytes 2 2 ++ leBytes 4 5 ++ leBytes 4 0 ++ leBytes 8 wr ++ leBytes 8 0 ++ leBytes 8 0x20000
def app1 : Append := { id := 1, ring := 0x1000, recs := List.replicate 64 1 }
def ringS (wr : Nat) (h : Hub) (u : Queue := qSlot) : State := { cpS u (ringBs wr) with m := { (cpS u (ringBs wr)).m with hub := h } }
theorem witness_RingsAndInterrupts :
    (let s := ringS 3 { appends := [{ app1 with recs := [], from' := 0x2000, len := 64 }], memo := [(2 ^ 20 + 1, [(0x80, {})])] }
     s.m.hub.appends.find? (fun b => b.id == 1) = some { app1 with recs := [], from' := 0x2000, len := 64 } ∧
      ∃ w bs, (W.of s).longGet (2 ^ 20 + 1) (.engine 50) 0 0x2000 64 .read = (w, .ok bs)) ∧
    (∃ w, ([] : List Nat).foldl (fun (x : Tried Unit) k => andThen x fun w _ => w.flushRing (.cp 0) k) (afterIssue (qCur (pk 9 [])) (pk 9 []) [], .ok ()) = (w, .ok ())) ∧
    (∀ wr, wr = 3 ∨ wr = 4 → ∃ w bs r, (W.of (ringS wr { appends := [app1] })).hubGet (.engine 50) 0 0x1000 64 = (w, .ok (bs, r)) ∧
      (let s := ringS wr { appends := [app1] }
       s.mem.wf = true ∧ s.m.hub.appends.find? (fun b => b.id == 1) = some app1 ∧ (s.m.hub.appends.filter fun b => b.len == 0 && ringKey b.part b.ring == ringKey 0 0x1000).head? = some app1 ∧
        app1.len = 0 ∧ app1.ring.toNat % 64 = 0 ∧ app1.recs.length % 64 = 0 ∧ (tgetD s.m.hub.rings (ringKey 0 0x1000) {}).flushed ≠ s.clk.now + 1 ∧
        (ringDesc bs).ok = true ∧ (ringDesc bs).wr = wr ∧ (ringDesc bs).slots = 4 ∧ (tgetD s.m.hub.rings (ringKey 0 0x1000) {}).pending + 1 < (ringDesc bs).coalN)) ∧
    (let w := W.of (ringS 3 { appends := [app1] })
     w.homeOpen (hubAgent (w.srcAgent (.engine 50))) (2 ^ 40 + 24) = true) ∧
    (∃ l off, (ringS 3 {}).hubAt 0 (0x1000 + 24) .write l off ∧ l.place ≠ 3 ∧ hubKey l off = 2 ^ 40 + 24) ∧
    (let x : HRing := { pending := 1 }
     tgetD (ringS 3 { rings := [(ringKey 0 0x1000, x)] }).m.hub.rings (ringKey 0 0x1000) {} = x ∧ ringPart (ringKey 0 0x1000) = 0 ∧ ringVa (ringKey 0 0x1000) = 0x1000 ∧ x.since + 1000 * 5 ≤ 5000 ∧
      { ringS 3 {} with clk := { now := 25000, gtime := 25000 * 1000000 } }.ns = 5000) ∧
    ((0 : Nat) = field (world.bar (Bar.partCtl 0)) 31 28 ∧ ({} : HRing).sentAt ≠ 25000 + 1 ∧ ({ sentAt := 25001 } : HRing).sentAt = 25000 + 1) ∧
    -- function 1 with an event of each kind, one of them due; its partition enabled, and not
    (∀ b ∈ [[(Bar.fnIrq 1, 0x3000500000000), (Bar.partCtl 2, 0x10000001)], [(Bar.fnIrq 1, 0x3000500000000)]],
      let s := withBar b (ringS 3 { fns := [(2, { pending := 2 }), (3, { pending := 3 })] })
      field (s.bar (Bar.fnIrq 1)) 55 48 = 3 ∧ field (s.bar (Bar.fnIrq 1)) 47 32 = 5 ∧ (tgetD s.m.hub.fns (2 * 1) {}).pending = 2 ∧ s.ns < (tgetD s.m.hub.fns (2 * 1) {}).since + 1000 * 5 ∧
      (tgetD s.m.hub.fns (2 * 1 + 1) {}).pending = 3) ∧
    (let s := withBar [(Bar.partCtl 2, 0x10000001)] world
     (W.of s).enabled 2 = true ∧ field (s.bar (Bar.partCtl 2)) 31 28 = 1) ∧
    (∀ n < 16, (W.of world).enabled n = true → field (world.bar (Bar.partCtl n)) 31 28 ≠ 1) :=
  ⟨⟨by decide +kernel, ok_of _ (by decide +kernel)⟩, ⟨_, rfl⟩, fun wr h => by rcases h with rfl | rfl <;> exact ⟨_, _, _, rfl, by decide +kernel⟩, by decide +kernel,
    ⟨_, _, ⟨_, rfl⟩, by decide +kernel, by decide +kernel⟩, by and_intros <;> decide +kernel⟩

/-! ### Power, rates, regions -/

/-- A cell with a row of A beside an active tile. -/
def rowsM : Mx := { rows := [[{}, {}]], active := some [] }
def mmaE : Elem := { word := 0x7180_0000_0000_0000, named := 1 }
def resumeM : Mx := { rowsM with ramp := some { start := 900, table := 0xE4 }, filler := 3, fillEnd := 1011, idleAt := 1000 }
def fillerM : Mx := { ramp := some { start := 900, table := 0xFFFF, spent := 1 }, idleAt := 980 }
/-- A firing whose one column passes the positive limit, with a CCB of 64 records of other rows. -/
def overflow : Firing := { due0 with tokens := [{ data := 1 }, {}], tile := [1] }
def fullM : Mx := { firings := [overflow], acc := [(0, 0x7FFFFF)], ccb := (List.range 64).map fun k => { row := 5, col := k, count := 1 } }
def ramping (g : Nat) : Mx := { ramp := some { grid := g } }
theorem witness_RampsAndReplays :
    (∀ m ∈ [rowsM, resumeM, fillerM], (W.of (mxS mmaE m)).onEdge ((mxS mmaE m).region 0) 133 = true ∧ (W.of (mxS mmaE m)).edgeOf ((mxS mmaE m).region 0) 133 = 1011 ∧
      siteQuad ((mxS mmaE m).region 0) 133 = 0 ∧ ((mxS mmaE m).region 0).boundary 0 1000 = 1000 ∧ (((mxS mmaE m).region 0).islandOf 133).edge 1000 = 1011 ∧
      (((mxS mmaE m).region 0).islandOf 133).since = 0 ∧ (((mxS mmaE m).region 0).islandOf 133).edge 999 = 1010) ∧
    ((W.of (mxS mmaE rowsM)).rowReady 0 133 = true ∧ (W.of (mxS mmaE rowsM)).readyCycle 0 133 ≤ 1000 ∧ rowsM.needsRamp 1011 = true ∧ rowsM.filler ≠ 3 ∧ ((mxS mmaE rowsM).region 0).mxCells 0 = [133] ∧ rowsM.ramp = none) ∧
    ((W.of (mxS mmaE resumeM)).rowReady 0 133 = true ∧ resumeM.filler = 3 ∧ resumeM.fillEnd ≤ 1011 ∧
      (W.of (mxS mmaE resumeM)).readyCycle 0 133 ≤ 1000 ∧ (((mxS mmaE resumeM).region 0).islandOf 133).edge ((W.of (mxS mmaE resumeM)).readyCycle 0 133) < resumeM.idleAt + 32) ∧
    ((W.of (mxS mmaE fillerM)).rowReady 0 133 = false ∧ fillerM.filler = 0 ∧ fillerM.free 1011 = true ∧ ({ start := 900, table := 0xFFFF, spent := 1 } : Ramp).duty 1011 = 4 ∧
      1011 < fillerM.idleAt + 32 ∧ ({ fillerM with filler := 2, fillEnd := 1011 } : Mx).fillEnd ≤ 1011) ∧
    (let g : Region := { quad with mxs := [(133, rowsM), (134, ramping 1000), (135, ramping 1000)] }
     g.mxCells 0 = [133, 134, 135] ∧ (ramping 1000).ramp = some { grid := 1000 } ∧ g.boundary 0 1000 ≤ 1000) ∧
    (let m : Mx := { firings := [{ due0 with suspect := true }], ramp := some { start := 900, table := 0xFFFF }, idleAt := 1000 }
     m.filler = 0 ∧ m.held {} 1011 = false ∧ m.holdTo ≤ 1011 ∧ fullM.held { f3 := 2 ^ 64 } 1011 = true ∧ m.slewAdmits 1011 (busyOf due0.fmt) = true ∧ ({ m with ramp := none } : Mx).slewAdmits 1011 (busyOf due0.fmt) = false ∧ due0.parity = false ∧
      ({ due0 with parity := true } : Firing).parity = true) ∧
    (let c : Cell := { f3 := 2 ^ 64 }
     (mxS mmaE fullM (2 ^ 64)).cell 0 133 = c ∧ fullM.held c 1011 = true ∧ c.trap = false ∧ fullM.holdTo ≤ 1011 ∧ fullM.spill.length < 4096) ∧
    MayRaise (mxS mmaE fullM) 0 ((W.of (mxS mmaE fullM)).elemAgent ⟨0, 133, 1⟩) ∧ (List.replicate 4096 ({} : CRec)).length = 4096 :=
  by and_intros <;> first | decide +kernel | exact ⟨rfl, by decide⟩

/-- The world at a time in ns, with a rail or a sector; the region's one sector is sector 0 of die 0. -/
def atNs (n : Nat) (s : State := world) : State := { s with clk := { now := 5 * n, gtime := 5 * n * 1000000 } }
def railS (n : Nat) (r : Rail) : State := atNs n { world with m := { world.m with rails := [(0, r)] } }
def secR : Region := { quad with secIsl := [(0, 0)], elems := [(1, {})], mxs := [(133, { firings := [due0] })] }
def sectorS (n : Nat) (x : Sector) (g : Region := secR) : State :=
  atNs n { world with m := { world.m with sectors := [(0, x)], regions := [(0, g)], bar := [(Bar.railCfg 0, 0x2100)] } }
theorem witness_RailsAndSectors :
    ((railS 50000 { st := 2 }).ns = 50000 ∧ (0 + 50000 ≤ 50000) ∧ (railS 50000 { st := 2, since := 1 }).ns < 1 + 50000 ∧
      ({ mv := 540, target := 542, st := 1 } : Rail).volt (railS 200 {}).ns = 542 ∧ ({ mv := 540, target := 539, st := 3 } : Rail).volt (railS 200 {}).ns = 539) ∧
    ((W.of (sectorS 50 {})).sectorRegion 0 = some (0, secR) ∧ ((secR.secIsl.map fun s => sectorSite s.1).find? fun c => secR.inSector 0 c).getD 0 = 0 ∧ secR.runsAt (sectorS 50 {}).clk.now = true ∧ ({} : Sector).droop = false ∧
      (0 + 64 ≤ (W.of (sectorS 50 {})).edgeOf secR 0) ∧ (W.of (sectorS 50 {} { secR with rootDone := true })).allHalted { secR with rootDone := true } = true ∧
      tget (sectorS 50 {} { secR with rootDone := true }).m.regions 0 = some { secR with rootDone := true }) ∧
    (((sectorS 20000 {}).bar (Bar.railCfg (0 / 160))).getLsbD 8 = true ∧ ({ world with m := { world.m with bar := [(Bar.railCfg 0, 0x4000)] } }.bar (Bar.railCfg 0)).getLsbD 8 = false ∧ (0 + 20000 ≤ (sectorS 20000 {}).ns) ∧
      { secR with mxs := [] }.quietSector 0 = true) ∧
    (∀ up ∈ [0, 1], let s := sectorS 250 { gate := 3, upNs := some up }
      (W.of s).wakesWaiting (0 / 160) = [] ∧ (up = 0 → up + 250 ≤ s.ns) ∧ (up = 1 → s.ns < up + 250)) ∧
    (let s := sectorS 250 { gate := 3, wakeNs := 240 }
     (W.of s).wakesWaiting (0 / 160) = [0] ∧ max 0 240 ≤ s.ns ∧ s.ns < max 0 240 + 250) ∧
    (10 * field ((sectorS 50 {}).bar (Bar.railCfg 0)) 15 12 ≤ 20 ∧ 19 < 10 * field ((sectorS 50 {}).bar (Bar.railCfg 0)) 15 12 ∧ ({} : Sector).droop = false) ∧
    tget secR.mxs 133 = some { firings := [due0] } ∧ secR.inSector 0 133 = true ∧ secR.inSector 0 0 = true :=
  by and_intros <;> decide +kernel

/-- A region that waits for a rate, at a switch cycle, with the result of a solve; partitions' cycles. -/
def grantR : Region := { quad with phase := .unsolved, trigger := true }
/-- A frame of an image: cell, kind, number and body (R134, R136). -/
def frameBytes (cell kind num body : Nat) : List Byte :=
  leBytes 4 (crc32 (leBytes 24 body)).toNat ++ leBytes 4 (256 * num + 4096 * kind + 65536 * cell + 1) ++ leBytes 24 body
/-- A running region whose one slot is marked clonable (R138). -/
def cloneR : Region :=
  { quad with trigger := true, frames := indexed 0 [frameOf (frameBytes 0 2 0 0x8A00_0000_0000_0000), frameOf (frameBytes 0 2 3 8)], elems := [(0, { word := 0x8A00_0000_0000_0000 })] }
def pendR : Region := { grantR with secIsl := [(0, 0)], pending := some ([(0, 1, 2)], 7, false, 9) }
def regS (now : Nat) (g : Region) (b : Tbl W64 := []) (p : Part := {}) : State :=
  { world with clk := { now := now, gtime := now * 1000000 }, m := { world.m with regions := [(0, g)], bar := b, parts := [(0, p)], seqs := [(0, sq0)] } }
theorem witness_RatesAndBudgets :
    (tget (regS 0 grantR).m.regions 0 = some grantR ∧ grantR.phase = .unsolved ∧ grantR.trigger = true ∧ grantR.pending = none ∧ ((regS 0 grantR).part 0).halted = false ∧
      (regS 0 grantR).m.hub.solves = []) ∧
    (cloneR.runs = true ∧ cloneR.runsAt 0 = true ∧ cloneR.trigger = true ∧ cloneR.pending = none ∧ (Layout.of cloneR.frames).operators = [[0]] ∧ (([0] : List Nat).map fun k => siteQuad cloneR (k / 8)).eraseDups = [0] ∧
      ∀ k ∈ ([0] : List Nat), (tgetD cloneR.elems k {}).copies = []) ∧
    (Layout.of grantR.frames).operators = [] ∧
    (∃ o, o = (graphOf grantR.frames grantR.ints grantR.sink grantR.secIsl 1).solve 1000000 0 1 (fun _ => true)) ∧
    (4095 % 4096 ≠ 0 ∧ 4096 % 4096 = 0 ∧ pendR.pending = some ([(0, 1, 2)], 7, false, 9) ∧ regionQuads pendR = [0] ∧ (tgetD (regS 4096 pendR).m.rails 0 {}).st ≠ 1 ∧
      (W.of (regS 4096 pendR)).quadVote 0 ≤ (tgetD (regS 4096 pendR).m.rails 0 {}).volt (regS 4096 pendR).ns ∧ ([(0, 1, 2)].map (·.1)).Nodup ∧ pendR.solvedAt < 4096 ∧
      4096 ≤ { pendR with solvedAt := 4096 }.solvedAt ∧ ∀ n ∈ pendR.secIsl, (tgetD (regS 4096 pendR).m.sectors (siteSector pendR (sectorSite n.1)) {}).gate ≠ 3 ∧
        (tgetD (regS 4096 pendR).m.sectors (siteSector pendR (sectorSite n.1)) {}).droop = false) ∧
    (let g := { quad with pressedAt := some 0 }
     g.runs = true ∧ quad.pressedAt = none ∧ 0 + 100000 ≤ (regS 500000 g).ns ∧ (regS 499999 g).ns < 0 + 100000) ∧
    (((regS 5000000 quad).part 0).refilled.1 ≠ (regS 5000000 quad).clk.now + 1 ∧ ({ refilled := (5000001, 0) } : Part).refilled.1 = (regS 5000000 quad).clk.now + 1) ∧
    (let s := regS 5000000 quad [(Bar.partCtl 0, 0x0005000300000001)]
     (s.bar (Bar.partCtl 0)).getLsbD 0 = true ∧ (s.part 0).refills < s.ns / 1000000 ∧ (s.part 0).meters < s.ns / 1000000 ∧ field (s.bar (Bar.partCtl 0)) 55 40 = 0x500 ∧
      field (s.bar (Bar.partCtl 0)) 39 32 = 3) ∧
    (let s := regS 5000000 quad [(Bar.partPcap 0, 0x10)] { overCap := 1 }
     ∃ c, (W.of s).capOf 0 = some c ∧ 1000 * c < 1000 * c + 1 ∧ (s.part 0).overCap = 1) ∧
    (s16 ((BitVec.ofInt 16 (-5)).toNat) ≤ (W.of world).tlim 0 ∧ (W.of world).tlim 0 < s16 ((BitVec.ofInt 16 2000).toNat)) := by
  and_intros <;> first | decide +kernel | exact ⟨_, rfl⟩

/-! ### The loader -/

/-- An image of one quad, one island and one memory cell of one QPOP, with a section that rewrites its queue's frame (R306 to R308): header 64 bytes, island table at 64, two main
frames at 128, section table at 192, the section's frame at 224. -/
def imgTab : List Byte := leBytes 20 (1 + 2 + 2 ^ 16 + 2 ^ 17) ++ leBytes 12 0
def imgHead : List Byte :=
  leBytes 4 0x4E474B34 ++ [1, 1, 1, 0] ++ leBytes 2 1 ++ leBytes 2 1 ++ leBytes 4 0 ++ leBytes 4 2 ++ leBytes 4 0 ++ leBytes 8 1000000 ++ leBytes 4 64 ++ leBytes 4 128 ++ leBytes 4 192
def secFrm : List Byte := frameBytes 0 2 3 (2 ^ 83 + 2 ^ 95)
def img : List Byte :=
  imgHead ++ leBytes 4 (crc32 (imgHead ++ imgTab)).toNat ++ leBytes 16 0 ++ imgTab ++ leBytes 32 0 ++ frameBytes 0 2 0 0x8A00_0000_0000_0000 ++ frameBytes 0 2 3 (2 ^ 83 + 2 ^ 94) ++
  ([1, 0, 0, 0] ++ leBytes 4 224 ++ leBytes 4 1 ++ leBytes 4 (crc32 secFrm).toNat) ++ leBytes 16 0 ++ secFrm
/-- The four sectors of such an image at VA 0x1000, as the loader has read them for region 0. -/
def heldOf (bs : List Byte) : Tbl Held := (List.range 4).map fun k => (64 + k, { data := BitVec.ofNat 512 (leNat ((bs.drop (64 * k)).take 64)) })
def imgR : Region := { quad with phase := .allocated, image := 0x1000 }
def imgS (bs : List Byte) (g : Region) (us : Tbl Queue := []) : State :=
  { world with
    mem := memPut [] (2 ^ 40) bs, m := { world.m with regions := [(0, g)], queues := us, bar := [(Bar.partPtb 0, 1), (Bar.partQmask 0 0, 1)], hub := { memo := [(0, heldOf bs)] } } }
/-- The loader before it reads for a region, or for a request of one, which carries no reference. -/
def ldW (bs : List Byte) (g : Region) : W := (W.of (imgS bs g)).setHub fun h => { h with loadRef := newer h.loadRef 0 }
/-- The loader's reading ends with a value. -/
def read (x : Loaded (Tables × List Frame)) : Option (Tables × List Frame) := match x.2 with | .ok (.ok a) => some a | _ => none
theorem read_failed (x : Loaded (Tables × List Frame)) (h : (match x.2 with | .ok (.error _) => true | _ => false) = true) : ∃ w f, x = (w, .ok (.error f)) := by
  obtain ⟨w, _ | f | _⟩ := x
  · simp at h
  · exact ⟨w, f, rfl⟩
  · simp at h
/-- The region as the loader configures it from the image, running, with a request for section 1. -/
def mainFrames : List Frame := indexed 0 [frameOf (frameBytes 0 2 0 0x8A00_0000_0000_0000), frameOf (frameBytes 0 2 3 (2 ^ 83 + 2 ^ 94))]
/-- Whether the agents of region 0 see what its LAUNCH's binding has acquired, once the loader has read its image. -/
def loadSees (w : W) (g : Region) : Option Bool :=
  match w.readImage 0 g.part g.image g.qw g.qh with
  | (w, .ok (.ok (tb, fs))) =>
    let g' := { g.configure tb fs with rate := (match g.resume with | some (_, n) => n | none => (g.configure tb fs).rate), resume := none }
    some ((((w.loadDone 0).setRegion 0 fun _ => g').loadSeqs g (Layout.of fs)).regionSees 0 g')
  | _ => none
theorem loadSees_ok {w0 : W} {g : Region} {b : Bool} (h : loadSees w0 g = some b) : ∃ w tb fs g', w0.readImage 0 g.part g.image g.qw g.qh = (w, .ok (.ok (tb, fs))) ∧
    g' = { g.configure tb fs with rate := (match g.resume with | some (_, n) => n | none => (g.configure tb fs).rate), resume := none } ∧
    (((w.loadDone 0).setRegion 0 fun _ => g').loadSeqs g (Layout.of fs)).regionSees 0 g' = b := by
  unfold loadSees at h
  split at h
  · rename_i w tb fs e
    exact ⟨w, tb, fs, _, e, rfl, by simpa using h⟩
  · simp at h
/-- The image's region, whose binding comes after a write that its die does not see yet. -/
def lateR : Region := { imgR with cov := { vec := [1] } }
def lateS : State := onBus { unseen := [hid 3 0 0 1] } (imgS img lateR)
set_option maxRecDepth 100000 in
theorem image_seen : loadSees (ldW img imgR) imgR = some true ∧ loadSees ((W.of lateS).setHub fun h => { h with loadRef := newer h.loadRef lateR.popRef }) lateR = some false := by
  decide +kernel
set_option maxRecDepth 100000 in
theorem image_loads : (read ((ldW img imgR).readImage 0 0 0x1000 1 1)).map (fun x => (x.1.h.rate, x.2)) = some (1000000, mainFrames) := by decide +kernel
def mainR : Region :=
  { quad with frames := mainFrames, rate := 1000000, secIsl := [(0, 0), (1, 0), (16, 0), (17, 0)], image := 0x1000, secQ := [{ sec := 1 }], elems := [(0, { word := 0x8A00_0000_0000_0000 })] }
/-- The section k of region 0's image, read for it: it passes the checks, and rewrites the cell 0 and no other. -/
def secLoads (w : W) (g : Region) (k : Nat) : Bool :=
  match w.readSection 0 g k with
  | (_, .ok (.ok (tb, ses, e, first, bytes))) =>
    (sectionFail g.qw g.qh g.frames g.ints (sectionInts tb.ints 1) g.sink g.rate g.isl.length g.secIsl (ses.map (·.num)) e bytes first).isNone &&
      rewritten (Layout.of g.frames) (Layout.of (applyFrames g.frames (indexed first ((chunks 32 e.nf bytes).map frameOf)))) == [0]
  | _ => false
theorem secLoads_ok {w0 : W} {g : Region} {k : Nat} (h : secLoads w0 g k = true) : ∃ w tb ses e first bytes, w0.readSection 0 g k = (w, .ok (.ok (tb, ses, e, first, bytes))) ∧
    sectionFail g.qw g.qh g.frames g.ints (sectionInts tb.ints 1) g.sink g.rate g.isl.length g.secIsl (ses.map (·.num)) e bytes first = none ∧
    rewritten (Layout.of g.frames) (Layout.of (applyFrames g.frames (indexed first ((chunks 32 e.nf bytes).map frameOf)))) = [0] := by
  unfold secLoads at h
  split at h
  · rename_i w tb ses e first bytes read
    simp only [Bool.and_eq_true, Option.isNone_iff_eq_none, beq_iff_eq] at h
    exact ⟨w, tb, ses, e, first, bytes, read, h⟩
  · simp at h
def secE : SecEntry := { num := 1, zero := true, off := 224, nf := 1, crc := (crc32 secFrm).toNat }
set_option maxRecDepth 100000 in
theorem section_loads : secLoads (ldW img mainR) mainR 1 = true := by decide +kernel
set_option maxRecDepth 100000 in
theorem section_fails : (sectionFail 1 1 mainFrames [] (sectionInts [] 1) 0 1000000 1 mainR.secIsl [1] { secE with crc := 0 } secFrm 2).isSome = true := by decide +kernel
set_option maxRecDepth 100000 in
theorem image_solves : ((graphOf mainFrames [] 0 mainR.secIsl 1).solve 1000000 0 1 (fun _ => true)).isSome = true := by decide +kernel

def launch1 : Launch := { job := 1 }
def qLaunch : Queue := { qSlot with launches := [launch1] }
def allocS (gs : Tbl Region) : State := { imgS [] quad [(0, qLaunch)] with m := { (imgS [] quad [(0, qLaunch)]).m with regions := gs } }
def doneR : Region := { quad with rootDone := true }
def switchR (t : Option Token) : Region :=
  { mainR with secQ := [], applying := some { sec := 1 }, secFrames := [frameOf secFrm], secLeft := [(0, 1)], elems := [(0, { word := 0x8A00_0000_0000_0000, named := 1, inL := t })] }
theorem witness_RegionsAndImages :
    ((W.of (allocS [])).waiting.find? (fun x => x.1 == 0 && x.2.2.saved.isNone && ((W.of (allocS [])).grantOf x).isSome) = some (0, 0, launch1) ∧
      (W.of (allocS [])).grantOf (0, 0, launch1) = some (0, 0, 0) ∧ ((allocS []).part 0).parked = false ∧
      ∀ x ∈ (W.of (allocS [(0, quad)])).waiting, (W.of (allocS [(0, quad)])).grantOf x = none) ∧
    (tget (imgS img imgR).m.regions 0 = some imgR ∧ imgR.phase = .allocated ∧ ((imgS img imgR).part 0).halted = false ∧
      (∃ w tb fs g', (ldW img imgR).readImage 0 imgR.part imgR.image imgR.qw imgR.qh = (w, .ok (.ok (tb, fs))) ∧
        g' = { imgR.configure tb fs with rate := (match imgR.resume with | some (_, n) => n | none => (imgR.configure tb fs).rate), resume := none } ∧
        (((w.loadDone 0).setRegion 0 fun _ => g').loadSeqs imgR (Layout.of fs)).regionSees 0 g' = true) ∧
      (∃ w tb fs g', ((W.of lateS).setHub fun h => { h with loadRef := newer h.loadRef lateR.popRef }).readImage 0 lateR.part lateR.image lateR.qw lateR.qh = (w, .ok (.ok (tb, fs))) ∧
        g' = { lateR.configure tb fs with rate := (match lateR.resume with | some (_, n) => n | none => (lateR.configure tb fs).rate), resume := none } ∧
        (((w.loadDone 0).setRegion 0 fun _ => g').loadSeqs lateR (Layout.of fs)).regionSees 0 g' = false) ∧
      (∃ w f, (ldW [] imgR).readImage 0 0 0x1000 1 1 = (w, .ok (.error f))) ∧ MayRaise (imgS [] imgR) 0 (W.of (imgS [] imgR)).loaderAgent) ∧
    (let s := { imgS [] doneR with m := { (imgS [] doneR).m with seqs := [(0, { sq0 with halted := true })] } }
     tget s.m.regions 0 = some doneR ∧ doneR.phase = .running ∧ doneR.rootDone = true ∧ tget s.m.seqs 0 = some { sq0 with halted := true }) ∧
    (tget (imgS img mainR).m.regions 0 = some mainR ∧ mainR.secQ = { sec := 1 } :: [] ∧ mainR.runsAt (imgS img mainR).clk.now = true ∧ (W.of (imgS img mainR)).loaderFree { sec := 1 } = true ∧ ({ sec := 1 } : SecReq).at' < (imgS img mainR).clk.now ∧
      (∃ w tb ses e first bytes, (ldW img mainR).readSection 0 mainR 1 = (w, .ok (.ok (tb, ses, e, first, bytes))) ∧
        sectionFail mainR.qw mainR.qh mainR.frames mainR.ints (sectionInts tb.ints 1) mainR.sink mainR.rate mainR.isl.length mainR.secIsl (ses.map (·.num)) e bytes first = none ∧
        rewritten (Layout.of mainR.frames) (Layout.of (applyFrames mainR.frames (indexed first ((chunks 32 e.nf bytes).map frameOf)))) = [0])) ∧
    (let x : Elem := { word := 0x0160_0000_0008_0018 }
     x.opc < 0xB0 ∧ x.targetB = none ∧ (x.targetA.map fun t => t.pos != 3) = some true) ∧
    ((W.of (imgS [] (switchR none))).onEdge (switchR none) 0 = true ∧ tget (switchR none).secLeft 0 = some 1 ∧ (switchR none).applying = some { sec := 1 } ∧
      (∃ y, ({ named := 1, inL := some { reconf := true } } : Elem).inAt 0 = some y ∧ y.reconf = true) ∧ ({ named := 1 } : Elem).inAt 0 = none ∧ (1 : Nat).testBit 1 = false ∧ (1 : Nat).testBit 2 = false) := by
  exact ⟨by decide +kernel, ⟨rfl, rfl, rfl, loadSees_ok image_seen.1, loadSees_ok image_seen.2, read_failed _ (by decide +kernel), rfl, by decide⟩, ⟨rfl, rfl, rfl, rfl⟩,
    ⟨rfl, rfl, rfl, by decide +kernel, by decide, secLoads_ok section_loads⟩, by decide +kernel, by decide +kernel, rfl, rfl, ⟨_, rfl, rfl⟩, rfl, by decide⟩

/-! ### Saving and restoring -/

/-- A context area at VA 0x1000 whose entry 0 has 72 MiB at 1 MiB and, in its last fields, a shape and an image; one page of 1 GiB. -/
def bigTlb : TlbE := { id := 1, unit := 4, size := 30, leaf := 0x3F }
def ctxBytes (state : Byte) : List Byte :=
  leBytes 4 0x4E474358 ++ [1] ++ leBytes 59 0 ++ leBytes 8 0x100000 ++ leBytes 4 72 ++ [state, 1, 1, 0] ++ leBytes 4 0 ++ leBytes 4 1 ++ leBytes 8 0
def ctxS (bs : List Byte) (g : Region) (p : Part := {}) (us : Tbl Queue := []) (now : Nat := 1000) : State :=
  { clk := { now := now, gtime := now * 1000000 }, mem := memPut [] (2 ^ 40) bs
    m := { parts := [(0, p)], regions := [(0, g)], queues := us, mmu := { tlb := [bigTlb] }, bar := [(Bar.partPtb 0, 1), (Bar.partQmask 0 0, 1), (Bar.partCtxb 0, 0x1000)], nextId := 8 } }
theorem ctx_maps (bs : List Byte) (g : Region) (p : Part) (us : Tbl Queue) (now : Nat) : (W.of (ctxS bs g p us now)).Maps 0 0 (2 ^ 30) :=
  W.maps_of 0 _ 0 bigTlb ⟨0, 0, 0, 0⟩ rfl rfl rfl rfl (by simp only [W.bar, W.of, ctxS, ptbOf]; decide) (by decide +kernel) rfl (by decide) (by intro a; cases a <;> decide) (by decide) rfl
theorem ctx_fld (bs : List Byte) (g : Region) (p : Part) (us : Tbl Queue) (now : Nat) : (W.of (ctxS bs g p us now)).fld (Bar.partCtxb 0) 55 12 = 1 := by
  simp only [W.fld, W.bar, W.of, ctxS]; decide +kernel
theorem ctx_at {w v : W} (h : v.fld (Bar.partCtxb 0) 55 12 = 1) (k : v.Keeps 0 w) (n : Nat) (hn : n < 0x10000) : (w.ctxAt 0 n).toNat = 0x1000 + n := by
  rw [W.ctxAt_keeps k]
  simp only [W.ctxAt, h, BitVec.toNat_ofNat]
  omega
/-- Entry 0 is free for a task, and is written. -/
theorem ctx_free (size : Nat) (g : Region) (h : ((W.of (ctxS (ctxBytes 0) g)).freeEntry 0 0 size).2.toOption = some (some (0, 0x100000))) :
    ∃ w, (W.of (ctxS (ctxBytes 0) g)).freeEntry 0 0 size = (w, .ok (some (0, 0x100000))) ∧ (W.of (ctxS (ctxBytes 0) g)).Keeps 0 w := by
  obtain ⟨w, o, e, k⟩ := (W.of (ctxS (ctxBytes 0) g)).freeEntry_ok 0 0 size _ (ctx_maps _ _ _ _ _) (by
    rw [ctx_at (ctx_fld _ _ _ _ _) (.refl _ _) _ (by decide)]; decide)
  rw [e] at h ⊢
  exact ⟨w, by simpa [Except.toOption] using h, k⟩
theorem ctx_entry {v w : W} (m : v.Maps 0 0 (2 ^ 30)) (h : v.fld (Bar.partCtxb 0) 55 12 = 1) (k : v.Keeps 0 w) (r : Region) (hr : r.part = 0) (hq : r.queue = 0) (state : Nat) :
    ∃ w', w.putEntry r 0 state = (w', .ok ()) ∧ w.Keeps 0 w' := by
  have := w.putEntry_ok r 0 state (2 ^ 30) (by rw [hr, hq]; exact m.keep k) (fun i hi => by
    rw [hr, ctx_at h k _ (by simp only [entryOff]; omega)]
    simp only [entryOff]
    omega)
  rwa [hq] at this

def drainR : Region := { quad with phase := .saving true 900 }
def checkR : Region := { quad with phase := .saving false 900 }
theorem setSeq_none {w : W} (h : w.m.seqs = []) (q : Nat) (f : Seq → Seq) : w.setSeq q f = w := by
  rcases w with ⟨_, _, _, m⟩
  rcases m
  simp_all [W.setSeq, tmod, tget]
theorem regionSeqs_none {w : W} (h : w.m.seqs = []) (g : Region) : w.regionSeqs g = [] := by
  simp only [W.regionSeqs, h, tget]
  induction List.range (g.qw * g.qh) with
  | nil => rfl
  | cons a l ih => simp
theorem drain_saves : ∃ w w1 w2 w3 runs, (W.of (ctxS (ctxBytes 0) drainR)).freeEntry 0 0 3 = (w, .ok (some (0, 0x100000))) ∧
    w1 = (regionQuads drainR).foldl (fun w q => w.setSeq q fun sq => { sq with outs := [], wait := none, regAt := [] }) w ∧
    runs = (w1.regionSeqs drainR).flatMap (fun x => if x.2.released then (seqRuns x.2 (tgetD w1.m.rings (regionQuad drainR x.1) {})).map fun y => (0x10000 * x.1 + y.1, y.2) else []) ++
      (List.range (drainR.qw * drainR.qh)).map (fun k => (0x10000 * k + (w1.pmcRun (regionQuad drainR k)).1, (w1.pmcRun (regionQuad drainR k)).2)) ∧
    w1.putRuns 0 0 0x100000 runs = (w2, .ok ()) ∧ w2.putEntry drainR 0 2 = (w3, .ok ()) := by
  obtain ⟨w, e, k⟩ := ctx_free 3 drainR (by decide +kernel)
  have hs : w.m.seqs = [] := k.seqs
  have h1 : (regionQuads drainR).foldl (fun w q => w.setSeq q fun sq => { sq with outs := [], wait := none, regAt := [] }) w = w := by
    have : regionQuads drainR = [0] := by decide +kernel
    rw [this]
    exact setSeq_none hs _ _
  obtain ⟨w2, e2, k2⟩ := w.putRuns_ok 0 0 0x100000 [(0x158, (w.pmcRun 0).2)] (2 ^ 30) ((ctx_maps _ _ _ _ _).keep k) (by
    intro x hx
    rw [List.mem_singleton.1 hx]
    simp only [W.pmcRun_length]; decide)
  obtain ⟨w3, e3, -⟩ := ctx_entry (ctx_maps _ _ _ _ _) (ctx_fld _ _ _ _ _) (k.trans k2) drainR rfl rfl 2
  refine ⟨w, _, w2, w3, _, e, rfl, rfl, ?_, e3⟩
  rw [h1, regionSeqs_none hs]
  exact e2
/-- What a checkpoint writes lies in 128 MiB. -/
theorem mxRuns_bound (c : Cell) (one : Bool) : ∀ y ∈ mxRuns {} c one, y.1 + max y.2.length 1 ≤ 0x28000 := by
  have hr := Mx.rawStore_length {} c.afmt
  simp only [mxRuns, List.forall_mem_cons, leBytes_length]
  and_intros
  iterate 2 cases one <;> simp
  · omega
  all_goals simp
theorem seqRuns_bound : ∀ y ∈ seqRuns {} {} ++ seqMore {} {}, y.1 + max y.2.length 1 ≤ 0x10000 := by decide +kernel
theorem quadRuns_bound {w : W} (h : w.m.seqs = []) (hg : w.m.rings = []) (hr : w.m.regions = [(0, checkR)]) (y : Nat × List Byte) (hy : y ∈ w.quadRuns 0 0) : y.1 + max y.2.length 1 ≤ 0x8000000 := by
  have hm : ∀ c, w.mx 0 c = {} := by intro c; simp only [W.mx, show w.region 0 = checkR by simp [W.region, hr, tgetD, tget]]; rfl
  have hs : ∀ q, w.seq q = {} := by intro q; simp only [W.seq, h]; rfl
  have hp : ∀ q, tgetD w.m.rings q {} = {} := by intro q; rw [hg]; rfl
  simp only [W.quadRuns, hm, hs, hp, List.mem_append, List.mem_singleton, List.mem_map, List.mem_flatMap] at hy
  rcases hy with ((⟨x, hx, rfl⟩ | rfl) | ⟨x, hx, rfl⟩) | ⟨x, hx, z, hz, rfl⟩
  · have := seqRuns_bound x (List.mem_append.2 hx)
    simp only
    omega
  · simp only [W.pmcRun_length]
    show 0x10000 * 0 + 0x158 + max 72 1 ≤ 0x8000000
    decide
  · have := (List.of_mem_zip hx).1
    simp only [List.mem_range] at this
    simp only [memBytes_length, fabricOff]
    omega
  · have := (List.of_mem_zip hx).1
    simp only [List.mem_range] at this
    have := mxRuns_bound _ _ z hz
    simp only [fabricOff]
    omega
theorem one_quad {α : Type} (f : Nat → List α) : (List.range (checkR.qw * checkR.qh)).flatMap f = f 0 := by
  show (List.range 1).flatMap f = f 0
  simp
theorem checkpoint_saves : ∃ w w1 w2 w3, (W.of (ctxS (ctxBytes 0) checkR)).freeEntry 0 0 72 = (w, .ok (some (0, 0x100000))) ∧
    w.putRuns 0 0 0x100000 ((List.range (checkR.qw * checkR.qh)).flatMap (w.quadRuns 0)) = (w1, .ok ()) ∧
    w1.putPrivate 0 0 0x100000 ((List.range (checkR.qw * checkR.qh)).flatMap (privateAreas checkR.qw)) = (w2, .ok ()) ∧ w2.putEntry checkR 0 1 = (w3, .ok ()) := by
  obtain ⟨w, e, k⟩ := ctx_free 72 checkR (by decide +kernel)
  have m : w.Maps 0 0 (2 ^ 30) := (ctx_maps _ _ _ _ _).keep k
  obtain ⟨w1, e1, k1⟩ := w.putRuns_ok 0 0 0x100000 (w.quadRuns 0 0) (2 ^ 30) m (fun y hy => by
    have := quadRuns_bound k.seqs k.rings k.regions y hy
    show 0x100000 + y.1 + _ ≤ _
    omega)
  obtain ⟨w2, e2, k2⟩ := w1.putPrivate_ok 0 0 0x100000 (privateAreas 1 0) (2 ^ 30) (m.keep k1) (by decide +kernel)
  obtain ⟨w3, e3, -⟩ := ctx_entry (ctx_maps _ _ _ _ _) (ctx_fld _ _ _ _ _) ((k.trans k1).trans k2) checkR rfl rfl 1
  refine ⟨w, w1, w2, w3, e, ?_, ?_, e3⟩
  · rw [← e1, one_quad]
  · rw [← e2, one_quad]; rfl

/-- Nothing that has been written is before a task that has seen nothing. -/
theorem covers_none {u : Unseen} (h : u.num ≠ 0) : ({} : Cov).covers u = false := by simp [Cov.covers, h]
/-- A saved task, drained or checkpointed, waits in queue 0. -/
def savedY (drain : Bool) : Saved := { region := quad, drain := drain, base := 0x100000 }
def qBack : Queue := { qSlot with launches := [{ job := 1, saved := some 0 }] }
def backS (state : Byte) (saved : Tbl Saved) : State := let s := ctxS (ctxBytes state) quad { saved := saved } [(0, qBack)]; { s with m := { s.m with regions := [] } }
theorem back_maps (state : Byte) (saved : Tbl Saved) : (W.of (backS state saved)).Maps 0 0 (2 ^ 30) :=
  W.maps_of 0 _ 0 bigTlb ⟨0, 0, 0, 0⟩ rfl rfl rfl rfl (by simp only [W.bar, W.of, backS, ctxS, ptbOf]; decide) (by decide +kernel) rfl (by decide) (by intro a; cases a <;> decide) (by decide) rfl
theorem back_at {w : W} {state : Byte} {saved : Tbl Saved} (k : (W.of (backS state saved)).Keeps 0 w) (n : Nat) (hn : n < 0x10000) : (w.ctxAt 0 n).toNat = 0x1000 + n :=
  ctx_at (by simp only [W.fld, W.bar, W.of, backS, ctxS]; decide +kernel) k n hn
/-- The rest of a restore, after its checks. -/
theorem restores {w : W} {state : Byte} {saved : Tbl Saved} (k : (W.of (backS state saved)).Keeps 0 w) : ∃ w3 w4 w5 areas banks ids, w.readAreas 0 0 0x100000 [0] = (w3, .ok areas) ∧
    w3.readFabric 0 0 0x100000 1 1 = (w4, .ok banks) ∧ w4.hubPut (.cp 0) 0 (w4.ctxAt 0 (entryOff 0 + 12)) {} [0] = (w5, .ok ids) ∧
    ∀ u ∈ w5.m.bus.unseen, ({} : Cov).covers u = false := by
  have m := (back_maps state saved).keep k
  obtain ⟨w3, t, e3, k3⟩ := w.readAreas_ok 0 0 0x100000 [0] (2 ^ 30) m (by simp)
  obtain ⟨w4, b, e4, k4⟩ := w3.readFabric_ok 0 0 0x100000 1 (2 ^ 30) (m.keep k3) (by decide)
  obtain ⟨w5, ids, e5, k5⟩ := w4.hubPut_ok 0 0 (w4.ctxAt 0 (entryOff 0 + 12)) {} [0] (2 ^ 30) ((m.keep k3).keep k4) (by
    rw [back_at ((k.trans k3).trans k4) _ (by decide)]; decide)
  exact ⟨w3, w4, w5, t, b, ids, e3, e4, e5, fun u hu => covers_none ((((m.keep k3).keep k4).keep k5).clear.nums u hu)⟩
theorem restores_drain {w : W} {state : Byte} {saved : Tbl Saved} (k : (W.of (backS state saved)).Keeps 0 w) : ∃ w3 w5 areas ids, w.readAreas 0 0 0x100000 [0] = (w3, .ok areas) ∧
    w3.hubPut (.cp 0) 0 (w3.ctxAt 0 (entryOff 0 + 12)) {} [0] = (w5, .ok ids) ∧ ∀ u ∈ w5.m.bus.unseen, ({} : Cov).covers u = false := by
  have m := (back_maps state saved).keep k
  obtain ⟨w3, t, e3, k3⟩ := w.readAreas_ok 0 0 0x100000 [0] (2 ^ 30) m (by simp)
  obtain ⟨w5, ids, e5, k5⟩ := w3.hubPut_ok 0 0 (w3.ctxAt 0 (entryOff 0 + 12)) {} [0] (2 ^ 30) (m.keep k3) (by rw [back_at (k.trans k3) _ (by decide)]; decide)
  exact ⟨w3, w5, t, ids, e3, e5, fun u hu => covers_none (((m.keep k3).keep k5).clear.nums u hu)⟩
theorem back_checks (state : Byte) (drain : Bool)
    (h : ∃ w1 w2 hdr rh ent re, (W.of (backS state [(0, savedY drain)])).hubGet (.cp 0) 0 0x1000 16 = (w1, .ok (hdr, rh)) ∧ w1.hubGet (.cp 0) 0 0x1040 64 = (w2, .ok (ent, re)) ∧
      restoreOk hdr (taskEntryOf ent) (savedY drain) 0 = true) :
    ∃ w1 w2 hdr rh ent re, (W.of (backS state [(0, savedY drain)])).hubGet (.cp 0) 0 0x1000 16 = (w1, .ok (hdr, rh)) ∧ w1.hubGet (.cp 0) 0 0x1040 64 = (w2, .ok (ent, re)) ∧
      restoreOk hdr (taskEntryOf ent) (savedY drain) 0 = true ∧ (W.of (backS state [(0, savedY drain)])).Keeps 0 w2 := by
  obtain ⟨w1, w2, hdr, rh, ent, re, a, b, c⟩ := h
  have m := back_maps state [(0, savedY drain)]
  have k1 := W.hubGet_keeps m (by decide) a
  exact ⟨w1, w2, hdr, rh, ent, re, a, b, c, k1.trans (W.hubGet_keeps (m.keep k1) (by decide) b)⟩

/-- A sequencer's MWAIT has found its word too low. -/
def lowS : State := askS { sqAsk with wait := some { req := some 1, num := 1, reads := 1 } } { rq .read with watch := true }
theorem witness_SavingAndRestoring :
    (tget (ctxS (ctxBytes 0) drainR).m.regions 0 = some drainR ∧ drainR.phase = .saving true 900 ∧ (W.of (ctxS (ctxBytes 0) drainR)).drained drainR = true ∧
      (let s := { ctxS (ctxBytes 0) drainR with m := { (ctxS (ctxBytes 0) drainR).m with seqs := [(0, sq0)] } }
       (W.of s).drained drainR = false)) ∧
    (∃ w w1 w2 w3 runs, (W.of (ctxS (ctxBytes 0) drainR)).freeEntry 0 0 3 = (w, .ok (some (0, 0x100000))) ∧
      w1 = (regionQuads drainR).foldl (fun w q => w.setSeq q fun sq => { sq with outs := [], wait := none, regAt := [] }) w ∧
      runs = (w1.regionSeqs drainR).flatMap (fun x => if x.2.released then (seqRuns x.2 (tgetD w1.m.rings (regionQuad drainR x.1) {})).map fun y => (0x10000 * x.1 + y.1, y.2) else []) ++
        (List.range (drainR.qw * drainR.qh)).map (fun k => (0x10000 * k + (w1.pmcRun (regionQuad drainR k)).1, (w1.pmcRun (regionQuad drainR k)).2)) ∧
      w1.putRuns 0 0 0x100000 runs = (w2, .ok ()) ∧ w2.putEntry drainR 0 2 = (w3, .ok ())) ∧
    (checkR.phase = .saving false 900 ∧ (∀ x ∈ (ctxS (ctxBytes 0) checkR).m.bus.reqs, x.src.ofRegion 0 (regionQuads checkR) = false) ∧
      (∃ x ∈ busy.m.bus.reqs, x.src.ofRegion 0 (regionQuads checkR) = true ∧ (W.of busy).lowWait x = false) ∧
      (∃ x ∈ lowS.m.bus.reqs, x.src.ofRegion 0 (regionQuads checkR) = true ∧ (W.of lowS).lowWait x = true) ∧
      ∃ w w1 w2 w3, (W.of (ctxS (ctxBytes 0) checkR)).freeEntry 0 0 72 = (w, .ok (some (0, 0x100000))) ∧
        w.putRuns 0 0 0x100000 ((List.range (checkR.qw * checkR.qh)).flatMap (w.quadRuns 0)) = (w1, .ok ()) ∧
        w1.putPrivate 0 0 0x100000 ((List.range (checkR.qw * checkR.qh)).flatMap (privateAreas checkR.qw)) = (w2, .ok ()) ∧ w2.putEntry checkR 0 1 = (w3, .ok ())) ∧
    ((W.of (backS 2 [])).waiting.find? (fun x => x.1 == 0 && x.2.2.saved.isSome && ((W.of (backS 2 [])).grantOf x).isSome) = some (0, 0, { job := 1, saved := some 0 }) ∧
      (W.of (backS 2 [])).grantOf (0, 0, { job := 1, saved := some 0 }) = some (0, 0, 0) ∧ tget ((backS 2 []).part 0).saved 0 = none ∧
      MayRaise (backS 2 []) 0 ((W.of (backS 2 [])).cpAgent 0)) ∧
    (∃ w1 w2 hdr rh ent re, (W.of (backS 0 [(0, savedY true)])).hubGet (.cp 0) 0 0x1000 16 = (w1, .ok (hdr, rh)) ∧ w1.hubGet (.cp 0) 0 0x1040 64 = (w2, .ok (ent, re)) ∧
      restoreOk hdr (taskEntryOf ent) (savedY true) 0 = false) ∧
    (∃ w1 w2 hdr rh ent re w3 w5 areas ids, (W.of (backS 2 [(0, savedY true)])).hubGet (.cp 0) 0 0x1000 16 = (w1, .ok (hdr, rh)) ∧ w1.hubGet (.cp 0) 0 0x1040 64 = (w2, .ok (ent, re)) ∧
      restoreOk hdr (taskEntryOf ent) (savedY true) 0 = true ∧ w2.readAreas 0 0 0x100000 [0] = (w3, .ok areas) ∧
      w3.hubPut (.cp 0) 0 (w3.ctxAt 0 (entryOff 0 + 12)) {} [0] = (w5, .ok ids) ∧ ∀ u ∈ w5.m.bus.unseen, ({ job := 1, saved := some 0 } : Launch).cov.covers u = false) ∧
    ∃ w1 w2 hdr rh ent re w3 w4 w5 areas banks ids, (W.of (backS 1 [(0, savedY false)])).hubGet (.cp 0) 0 0x1000 16 = (w1, .ok (hdr, rh)) ∧ w1.hubGet (.cp 0) 0 0x1040 64 = (w2, .ok (ent, re)) ∧
      restoreOk hdr (taskEntryOf ent) (savedY false) 0 = true ∧ w2.readAreas 0 0 0x100000 [0] = (w3, .ok areas) ∧ w3.readFabric 0 0 0x100000 1 1 = (w4, .ok banks) ∧
      w4.hubPut (.cp 0) 0 (w4.ctxAt 0 (entryOff 0 + 12)) {} [0] = (w5, .ok ids) ∧ ∀ u ∈ w5.m.bus.unseen, (savedY false).region.cov.covers u = false := by
  refine ⟨⟨rfl, rfl, by decide +kernel, by decide +kernel⟩, drain_saves, ⟨rfl, by decide, by decide +kernel, by decide +kernel, checkpoint_saves⟩, ⟨by decide +kernel, by decide +kernel, rfl, rfl, by decide⟩,
    ⟨_, _, _, _, _, _, rfl, rfl, by decide +kernel⟩, ?_, ?_⟩
  · obtain ⟨w1, w2, hdr, rh, ent, re, a, b, c, k⟩ := back_checks 2 true ⟨_, _, _, _, _, _, rfl, rfl, by decide +kernel⟩
    obtain ⟨w3, w5, t, ids, e3, e5, n⟩ := restores_drain k
    exact ⟨w1, w2, hdr, rh, ent, re, w3, w5, t, ids, a, b, c, e3, e5, n⟩
  · obtain ⟨w1, w2, hdr, rh, ent, re, a, b, c, k⟩ := back_checks 1 false ⟨_, _, _, _, _, _, rfl, rfl, by decide +kernel⟩
    obtain ⟨w3, w4, w5, t, u, ids, e3, e4, e5, n⟩ := restores k
    exact ⟨w1, w2, hdr, rh, ent, re, w3, w4, w5, t, u, ids, a, b, c, e3, e4, e5, n⟩

/-! ### Faults, translation, links, start-up, registers -/

/-- An attempt whose value is known. -/
theorem tried_of {α ε : Type} {x : W × Except ε α} {a : α} (h : x.2.toOption = some a) : ∃ w, x = (w, .ok a) := by
  obtain ⟨w, e | b⟩ := x
  · simp [Except.toOption] at h
  · exact ⟨w, by simpa [Except.toOption] using h⟩
def halt2 : State := { world with m := { world.m with parts := [(0, { halts := [{ code := 0x1E0, agent := 9, time := 5 }, { code := 0x1E1, agent := 7, time := 5 }] })] } }
/-- A queue in whose partition T1 and T2 are 1 ms, at a time in ns. -/
def wdogS (n : Nat) (gs : Tbl Region := [(0, quad)]) : State :=
  withBar [(Bar.partWdog 0, 0x00010001)] { atNs n world with m := { world.m with queues := [(0, qJob { typ := 3 })], regions := gs } }
def lowR : Region := { quad with est := 10000 }
def wantS (tok : W64) (ls : List Launch := []) : State :=
  withBar [(Bar.partTok 0, tok), (Bar.partQmask 0 0, 1)] { world with m := { world.m with queues := [(0, { qSlot with launches := { level := 2 } :: ls })], regions := [(0, lowR)] } }
theorem witness_HaltsAndPreemption :
    ((halt2.part 0).halted = false ∧ (halt2.part 0).halts ≠ [] ∧ (world.part 0).halts = [] ∧
      (let s := withBar [(Bar.qCfg 3, 0x8000000000000000)] halt2
       (W.of s).queuePart 3 = 0 ∧ (s.bar (Bar.qCfg 3)).getLsbD 63 = true ∧ tget s.m.queues 3 = none)) ∧
    ((W.of (wdogS 1000000)).timerRuns 0 = true ∧ (W.of (wdogS 1000000)).t1 0 = 1000000 ∧ (W.of (wdogS 1000000)).timer 0 = 1000000 ∧ (qJob { typ := 3 }).t1 ≠ some (qJob { typ := 3 }).progress ∧
      ((wdogS 1000000).m.regions.filter fun g => g.2.queue == 0 && g.2.runs) = [(0, quad)] ∧ quad.preempt = none ∧ (∀ x ∈ (wdogS 1000000 []).m.regions, x.2.queue ≠ 0) ∧
      (W.of (wdogS 999999)).timer 0 < (W.of (wdogS 999999)).t1 0 ∧ (W.of (wdogS 2000000)).t1 0 + (W.of (wdogS 2000000)).t2 0 ≤ (W.of (wdogS 2000000)).timer 0 ∧
      (W.of (wdogS 1999999)).timer 0 < (W.of (wdogS 1999999)).t1 0 + (W.of (wdogS 1999999)).t2 0) ∧ MayRaise (wdogS 2000000) 0 ((W.of (wdogS 2000000)).cpAgent 0) ∧
    ((W.of (wantS 1)).waiting.filter (fun x => x.1 == 0) = [(0, 0, { level := 2 })] ∧ (let s := W.of (wantS 1 [{}]); s.waiting.filter (fun x => x.1 == 0) = [(0, 0, { level := 2 }), (0, 1, {})] ∧ s.decision 0 1 {} = none) ∧
      (W.of (wantS 1)).place 0 1 1 = none ∧ (W.of (wantS 1)).victims 0 { level := 2 } = [(0, lowR)] ∧
      field ((wantS 1).bar (Bar.partTok 0)) 15 0 = 1 ∧ (W.of (wantS 1)).purse 0 = 1 ∧ ((wantS 1).part 0).refilled.1 ≠ (wantS 1).clk.now + 1 ∧
      (let s := { wantS 1 with m := { (wantS 1).m with parts := [(0, { refilled := (1001, 0) })] } }
       (s.part 0).refilled.1 = s.clk.now + 1 ∧ (W.of s).purse 0 = 0) ∧ field ((wantS 1).bar Bar.devCfg) 47 32 < (W.of (wantS 1)).remaining lowR ∧ lowR.qw * lowR.qh + lowR.spare.length ≤ 1 ∧ 0 < lowR.qw * lowR.qh + lowR.spare.length ∧
      (W.of (wantS 1)).remaining quad ≤ field ((wantS 1).bar Bar.devCfg) 47 32) ∧
    (({ quad with preempt := some (2, 0) } : Region).preempt = some (2, 0) ∧ ∀ x, quad.preempt ≠ some (2, x)) ∧
    (∃ w, (W.of (ctxS (ctxBytes 0) { quad with preempt := some (0, 900) })).freeEntry 0 0 3 = (w, .ok (some (0, 0x100000)))) ∧
    (∃ w, (W.of (ctxS (ctxBytes 1) { quad with preempt := some (0, 900) })).freeEntry 0 0 3 = (w, .ok none)) ∧
    ((768 + 256 + 63) / 64 * 64 ≤ (ctxS (ctxBytes 0) quad {} [] 1024).clk.now ∧ (ctxS (ctxBytes 0) quad {} [] 1024).clk.now < (769 + 256 + 63) / 64 * 64 ∧
      ∃ w, (W.of (ctxS (ctxBytes 0) { quad with preempt := some (1, 768) } {} [] 1024)).freeEntry 0 0 72 = (w, .ok (some (0, 0x100000)))) ∧
    (∃ w, (W.of (ctxS (ctxBytes 1) { quad with preempt := some (1, 768) } {} [] 1024)).freeEntry 0 0 72 = (w, .ok none)) ∧
    (5 * (W.of (wdogS 1000000)).t2 0 ≤ (wdogS 1000000).clk.now - 0 ∧ (wdogS 1000000).clk.now - 1 < 5 * (W.of (wdogS 1000000)).t2 0) :=
  ⟨by decide +kernel, by decide +kernel, ⟨rfl, by decide⟩, by decide +kernel, ⟨rfl, by simp [quad]⟩, tried_of (by decide +kernel), tried_of (by decide +kernel),
    ⟨by decide +kernel, by decide, tried_of (by decide +kernel)⟩, tried_of (by decide +kernel), by decide +kernel⟩

/-- The walk of VA 2^30, asked for by the sequencer of quad 0; page tables at PA 0x1000, whose entry 0 points to the same table again and whose entry 1 is a leaf of 1 GiB. -/
def walk1 : Walk := { id := 1, va := 0x40000000, agents := [24576], unit := 14, srcs := [.seq 0 1] }
def walkS (bs : List Byte) (k : Walk) (fq : W64) : State :=
  withBar [(Bar.partPtb 0, 0x1001), (Bar.fqCfg 0, fq), (Bar.bootStat, 1)] { seqS sq0 with mem := memPut [] (2 ^ 40) bs, m := { (seqS sq0).m with mmu := { tlb := tlbs, walks := [k] } } }
def tables : List Byte := leBytes 8 0x1001 ++ leBytes 8 0x3F
def heldW : Walk := { walk1 with held := true, entry := some 3 }
def invS (b : W64) (xs : List Nat) (ws : List Nat := []) : State :=
  withBar [(Bar.bootStat, 1), (Bar.tlbInv, b)] { world with m := { world.m with bus := { reqs := [rq .read], unseen := [hid 3 1 (2 ^ 40) 1] }, mmu := { tlb := tlbs, inv := xs, writes := ws } } }
/-- A walk of die 0 behind as many others as its die has walkers. -/
def busyS : State := { world with m := { world.m with mmu := { tlb := tlbs, walks := ((List.range 64).map fun n => { walk1 with id := n + 2 }) ++ [walk1] } } }
theorem witness_TranslationAndHost :
    (((walkS tables walk1 0x2001).m.mmu.walks.find? (fun x => x.id == 1 && !x.held) = some walk1 ∧ walk1.pre = false ∧ (W.of (walkS tables walk1 0x2001)).walking walk1 = true ∧
        busyS.m.mmu.walks.find? (fun x => x.id == 1 && !x.held) = some walk1 ∧ (W.of busyS).walking walk1 = false) ∧ (W.of (walkS tables walk1 0)).walk 0 0x40000000 = .leaf 0x3F 30 ∧
      ((walkS tables walk1 0).m.mmu.tlb.filter fun x => x.unit == 0).length < unitCap 0 ∧ (W.of (walkS [] walk1 0x2001)).walk 0 0x40000000 = .absent 0 ∧
      (W.of (walkS [] walk1 0x2001)).fqOn 0 0 = true ∧ (W.of (walkS [] walk1 0x2001)).fqFull 0 = false ∧ (walkS [] walk1 0x2001).mem.wf = true ∧ 0x2000 + 32 ≤ maxInterleave ∧
      (W.of (walkS (leBytes 8 0x1005) walk1 0)).walk 0 0x40000000 = .broken ∧ (W.of (walkS [] walk1 0)).fqOn 0 0 = false) ∧
    (walk1.agents = [(W.of (walkS [] walk1 0)).seqAgent 0] ∧ walk1.srcs = [.seq 0 1]) ∧ MayRaise (walkS [] walk1 0) 0 ((W.of (walkS [] walk1 0)).seqAgent 0) ∧
    (((walkS [] walk1 0).bar Bar.bootStat).getLsbD 0 = true ∧ (W.of (walkS [] heldW 0x2001)).fqEntry 0 3 = some heldW ∧ (W.of (walkS [] heldW 0x2001)).fqEntry 0 4 = none) ∧
    (((invS 0 []).bar Bar.tlbInv).getLsbD 0 = false ∧ ((invS 1 []).bar Bar.tlbInv).getLsbD 0 = true ∧ (∃ x ∈ (invS 0 []).m.mmu.tlb, invNames 1 x = true) ∧ field (1 : W64) 8 7 ≠ 3 ∧
      field (1 : W64) 63 56 = 0 ∧ (∀ r ∈ (invS 1 []).m.bus.reqs, r.id ∈ (invS 1 []).m.mmu.inv → r.allDone = true) ∧
      (∀ u ∈ (invS 1 []).m.bus.unseen, u.id ∉ (invS 1 []).m.mmu.writes) ∧
      (∃ r ∈ (invS 1 [1]).m.bus.reqs, r.id ∈ (invS 1 [1]).m.mmu.inv ∧ r.allDone = false) ∧ (∃ u ∈ (invS 1 [] [3]).m.bus.unseen, u.id ∈ (invS 1 [] [3]).m.mmu.writes)) ∧
    (let s := withBar [(Bar.partCtl 0, 0x10000001)] world
     (W.of s).bar2Part 1 = some 0 ∧ (W.of s).bar2Part 2 = none ∧ (0x1000 : W64).toNat % 64 + 8 ≤ 64 ∧ (0x1000 : W64).toNat + 8 ≤ 2 ^ 36) ∧
    (∃ l off, world.hubAt 0 0x1000 .read l off ∧ world.hubAt 0 0x1000 .write l off ∧ world.hubAt 0 0x1000 .atomic l off ∧ hubKey l off = 2 ^ 40 ∧ hubCopies l off = [2 ^ 40]) ∧
    2 ^ 40 % 64 + 8 ≤ 64 ∧
    (let s := { world with m := { world.m with mmu := { tlb := [{ id := 1, unit := 4, size := 21, leaf := 0xBF }] } } }
     ∃ l off, s.hubAt 0 0x1000 .write l off ∧ (hubCopies l off).length = 4) :=
  ⟨by decide +kernel, by decide +kernel, ⟨rfl, by decide⟩, by and_intros <;> decide +kernel, by and_intros <;> decide +kernel, by decide +kernel, hub_all, by decide, _, _, ⟨_, rfl⟩, by decide +kernel⟩

def hoistS (h : Hoist) (rs : Tbl PRing) : State := { world with m := { world.m with parts := [(0, { hoists := [h] })], rings := rs } }
def hop0 : Hoist := { mark := 0 }
theorem witness_HoistsAndStops :
    (((hoistS hop0 []).part 0).hoists = hop0 :: [] ∧ hop0.ended = false ∧ field (0 : W32) 31 19 = field ((hoistS hop0 []).bar Bar.devLoc) 12 0 ∧ (W.of (hoistS hop0 [])).resolve 0 0 = none) ∧
    (∃ e, (W.of (hoistS hop0 [(0, { ents := [(0, {})] })])).resolve 0 0 = some e) ∧
    (field (0x80000 : W32) 31 19 ≠ field ((hoistS { hop0 with started := true, ref := 0x80000 } []).bar Bar.devLoc) 12 0) ∧
    ({ hop0 with ended := true } : Hoist).ended = true ∧
    (let s := withBar [(Bar.partDbg 0, 0x101), (Bar.partCtxb 0, 0x1000)] (ctxS (ctxBytes 0) quad)
     (s.bar (Bar.partDbg 0)).getLsbD 0 = true ∧ field (s.bar (Bar.partDbg 0)) 47 40 = 0 ∧ regionKey quad = 0 ∧ quad.isl.any (fun i => i.2.kept s.clk.now) = true ∧ tget s.m.regions 0 = some quad ∧ quad.phase = .running ∧
       field (s.bar (Bar.partDbg 0)) 39 8 ≤ quad.version.toNat ∧ quad.applying = none ∧ quad.quiescent = true ∧ (world.bar (Bar.partDbg 0)).getLsbD 0 = false) ∧
    (∃ w, (W.of (withBar [(Bar.partDbg 0, 0x101), (Bar.partCtxb 0, 0x1000)] (ctxS (ctxBytes 0) quad))).freeEntry 0 0 72 = (w, .ok (some (0, 0x100000)))) ∧
    (∃ w, (W.of (withBar [(Bar.partDbg 0, 0x101), (Bar.partCtxb 0, 0x1000)] (ctxS (ctxBytes 1) quad))).freeEntry 0 0 72 = (w, .ok none)) ∧
    (field ((withBar [(Bar.linkCtl 17, 0xA000000000000000)] world).bar (Bar.linkCtl 17)) 62 60 = 2 ∧ (world.bar Bar.devLoc).getLsbD 40 = false ∧
      ((withBar [(Bar.devLoc, 0x10000000000)] world).bar Bar.devLoc).getLsbD 40 = true ∧
      (∀ b ∈ [true, false], ((W.of (withBar [(Bar.linkCtl 17, 0xA000000000000000)] world)).setLink 17 fun x => { x with lat := 5, nearer := b }).steerLink = if b = true then some 17 else none)) :=
  ⟨by decide +kernel, ⟨_, rfl⟩, by decide +kernel, rfl, by decide +kernel, tried_of (by decide +kernel), tried_of (by decide +kernel), by decide +kernel⟩

def linkS (st : W64) (l : Nat) : State := withBar [(Bar.linkCtl l, (1 <<< 63) ||| (st <<< 60)), (Bar.bootStat, 1)] world
def scanS (x : Sector) (gs : Tbl Region) (h : Hub := {}) : State := { world with m := { world.m with sectors := [(0, x)], regions := gs, hub := h } }
theorem witness_LinksAndErrors :
    (∀ l ∈ [0, 17], field ((linkS 1 l).bar (Bar.linkCtl l)) 62 60 = 1 ∧ field ((linkS 2 l).bar (Bar.linkCtl l)) 62 60 = 2 ∧ field ((linkS 3 l).bar (Bar.linkCtl l)) 62 60 = 3 ∧
      ((linkS 1 l).bar Bar.bootStat).getLsbD 0 = true ∧ ((withBar [(Bar.bootStat, 1)] world).bar (Bar.linkCtl l)).getLsbD 63 = false ∧ (W.of (linkS 1 l)).neighbour (l / 3) < 2 ^ 13 ∧
      ((linkS 1 l).m.hub.tests.filter fun t => t.kind == 3 && t.unit == l) = [] ∧
      (∀ k < 18, k / 3 = l / 3 → k ≠ l → field ((linkS 2 l).bar (Bar.linkCtl k)) 62 60 ≠ 2) ∧
      -- flits 7, 8 and 9 are out: number 6 acknowledges none of them, and number 8 two; the second of the two links has failed seven in a row
      (∀ x ∈ ([{ next := 10, buf := [1, 2, 3] }, { next := 10, buf := [1, 2, 3], fails := 7 }] : List Link), (x.fails = 0 ∧ x.fails + 1 < 8 ∨ 8 ≤ x.fails + 1) ∧
        ∀ y ∈ ([(6, 0), (8, 2), (9, 3)] : List (Nat × Nat)), (y.1 + 1 + x.buf.length + 4096 - x.next % 4096) % 4096 = y.2 ∧ y.2 ≤ x.buf.length) ∧
      tgetD (linkS 2 l).m.hub.adrift (l / 3) [] = []) ∧
    (tgetD (scanS {} [] { spares := [(bankKey 0 0, 7)] }).m.hub.spares (bankKey 0 0) 0 = 7 ∧ tgetD (scanS {} [] { spares := [(bankKey 0 0, 8)] }).m.hub.spares (bankKey 0 0) 0 = 8) ∧
    (let h : Hub := { tests := [{ id := 1, kind := 1 }] }
     (scanS {} [] h).m.hub.tests.find? (fun t => t.id == 1 && t.kind == 1 && !t.scan) = some { id := 1, kind := 1 }) ∧
    ({ scan := true } = tgetD (scanS { scan := true } []).m.sectors 0 {} ∧ (∀ g ∈ (scanS { scan := true } []).m.regions, 0 / 4 ∉ regionQuads g.2 ∧ 0 / 4 ∉ g.2.spare) ∧
      ∃ g ∈ (scanS { scan := true } [(0, quad)]).m.regions, 0 / 4 ∈ regionQuads g.2) :=
  by and_intros <;> decide +kernel

/-- A machine that is READY, with a page of the PF's tables. The verification of a slot's image is a constant that is not given (log 16): a write of an image that verifies takes it as a premise. -/
def pfS (b : Tbl W64) (x : Boot := {}) : State :=
  withBar ((Bar.bootStat, 1) :: (Bar.pfPtb, 1) :: b) { world with m := { world.m with boot := x, mmu := { tlb := [{ id := 1, unit := 4, part := 16, size := 21, leaf := 0x3F }] } } }
theorem witness_StartUpsAndSlots :
    ((∀ c ∈ [false, true], field ((pfS [] { stage := 0, clear := c }).bar Bar.bootStat) 55 48 = 0 ∧ (pfS [] { stage := 0, clear := c }).m.boot.stage = 0) ∧
      ¬ (∃ bs, ({} : StartIn).update = some bs ∧ imageSigned bs = true ∧ 0 ≤ imageVersion bs) ∧
      ((W.of (pfS [] { recs := [{ step := 10 }], stage := 10 })).fld Bar.bootStat 55 48 = 0 ∧ (stepOptional 10 && ({ recs := [{ step := 10 }], stage := 10 } : Boot).recorded 10) = true) ∧
      (∀ n ∈ [1, 2, 4, 12], ({ stage := n } : Boot).failing n {} = [] ∧ (stepOptional n && ({ stage := n } : Boot).recorded n) = false) ∧
      (({ stage := 10 } : Boot).failing 10 { units := [1] } ≠ [] ∧ stepOptional 10 = true ∧ ({ stage := 10 } : Boot).recorded 10 = false) ∧
      (({ stage := 2 } : Boot).failing 2 { pufOk := false } ≠ [] ∧ stepOptional 2 = false ∧ stepAlters 2 = false) ∧
      (let b : Boot := { stage := 6, recs := [{ step := 6, die := 3 }] }
       b.failing 6 { units := [3] } = [3] ∧ b.altered 6 3 = true ∧ b.failing 6 { units := [2, 2] } = [2] ∧ b.altered 6 2 = false ∧ stepAlters 6 = true ∧ b.clear = false) ∧
      field ((withBar [(Bar.bootStat, 0x0001000000000000)] world).bar Bar.bootStat) 55 48 ≠ 0) ∧
    (9 ≤ field ((withBar [(Bar.bootStat, 0x900)] world).bar Bar.bootStat) 15 8 ∧ ((pfS []).bar Bar.bootStat).getLsbD 0 = true ∧ (0x8000000000000000 : W64).getLsbD 63 = true ∧
      ((W.of (pfS [])).hubPeek 16 0x1000 64).isSome = true ∧ (W.of (pfS [])).hubPeek 16 0xF0000000000000 64 = none ∧ (0x1001 : W64).getLsbD 0 = true ∧ ((pfS []).bar Bar.attCtl).getLsbD 0 = false) ∧
    (∃ l off, (pfS []).hubAt 16 0x1000 .read l off ∧ (pfS []).hubAt 16 0x1000 .write l off) ∧
    ((pfS []).m.boot.slotOk (field (0x10 : W64) 4 4) = true ∧ (pfS [] { slots := [(0, {}), (1, { torn := true })] }).m.boot.slotOk (field (0x10 : W64) 4 4) = false ∧
      (pfS [] { writing := some (1, {}) }).m.boot.writing = some (1, {}) ∧ ((pfS []).bar Bar.fwCtl).getLsbD 0 = false ∧ ((W.of (pfS [])).pfBytes 0x1000 1).2.isSome = true) :=
  ⟨⟨by decide +kernel, (by rintro ⟨_, h, -⟩; cases h), by decide +kernel⟩, by decide +kernel, ⟨_, _, ⟨_, rfl⟩, ⟨_, rfl⟩⟩, by decide +kernel⟩

def partS (b : Tbl W64) (u : Queue := qSlot) : State := withBar ((Bar.bootStat, 1) :: b) { world with m := { world.m with queues := [(0, u)] } }
/-- A descriptor of 4 slots at VA 0x1000. -/
def descBs : List Byte := leBytes 16 0 ++ leBytes 8 0x1000 ++ leBytes 4 4
theorem witness_PartitionsAndQueues :
    (((partS []).bar Bar.bootStat).getLsbD 0 = true ∧ ((partS []).bar (Bar.partCtl 15)).getLsbD 0 = false ∧ (0x10000001 : W64).getLsbD 0 = true ∧
      ¬ (field (0x10000001 : W64) 31 28 ≠ 0 ∧ ∃ m < 16, m ≠ 15 ∧ ((partS []).bar (Bar.partCtl m)).getLsbD 0 = true ∧ field ((partS []).bar (Bar.partCtl m)) 31 28 = field (0x10000001 : W64) 31 28) ∧
      (field (0x10000001 : W64) 31 28 ≠ 0 ∧ ∃ m < 16, m ≠ 15 ∧ ((partS [(Bar.partCtl 3, 0x10000001)]).bar (Bar.partCtl m)).getLsbD 0 = true ∧
        field ((partS [(Bar.partCtl 3, 0x10000001)]).bar (Bar.partCtl m)) 31 28 = field (0x10000001 : W64) 31 28) ∧
      ((partS [(Bar.partCtl 3, 0x10000001)]).bar (Bar.partCtl 3)).getLsbD 0 = true ∧
      ¬ (field (0x10000001 : W64) 31 28 ≠ 0 ∧ ∃ m < 16, m ≠ 3 ∧ ((partS [(Bar.partCtl 3, 0x10000001)]).bar (Bar.partCtl m)).getLsbD 0 = true ∧
        field ((partS [(Bar.partCtl 3, 0x10000001)]).bar (Bar.partCtl m)) 31 28 = field (0x10000001 : W64) 31 28)) ∧
    MayRaise (partS [(Bar.partCtl 0, 1)]) 0 (W.of (partS [(Bar.partCtl 0, 1)])).hostAgent ∧
    (let s := partS [(Bar.partCtl 0, 1)]
     (s.bar (Bar.qCfg 0)).getLsbD 63 = false ∧ field (0x8000000000001000 : W64) 62 59 = 0 ∧ BitVec.ofNat 64 (field (0x8000000000001000 : W64) 55 6 * 64) = 0x1000) ∧
    (∃ l off, (partS [(Bar.partCtl 0, 1)]).hubAt 0 0x1000 .read l off ∧ hubKey l off = 2 ^ 40 ∧ ({ (partS []).m.hub with retrain := [keyHome (2 ^ 40)] } : Hub).retrain.contains (keyHome (2 ^ 40)) = true) ∧
    (∀ m ∈ [memPut [] (2 ^ 40) descBs, []], let s := { partS [(Bar.partCtl 0, 1)] with mem := m }
     ∃ w bs r, (W.of s).hubGet (.cp 0) 0 0x1000 64 = (w, .ok (bs, r)) ∧ descOk bs = !m.isEmpty) ∧
    (((partS [(Bar.qCfg 0, 0x8000000000000000)]).bar (Bar.qCfg 0)).getLsbD 63 = true ∧ qSlot.idle = true ∧ (qCur (pk 2 copyW)).idle = false) :=
  ⟨by decide +kernel, ⟨rfl, by decide⟩, by decide +kernel, ⟨_, _, ⟨_, rfl⟩, by decide +kernel⟩, fun m hm => by
    rcases List.mem_cons.1 hm with rfl | hm
    · exact ⟨_, _, _, rfl, by decide +kernel⟩
    · rw [List.mem_singleton.1 hm]
      exact ⟨_, _, _, rfl, by decide +kernel⟩,
    by decide +kernel⟩

theorem witness_RegisterWrites :
    (((partS []).bar Bar.bootStat).getLsbD 0 = true ∧ field (0x0001000000000000 : W64) 51 48 ≠ 0 ∧ (W.of (partS [])).quadHeld 0 159 = false ∧ (W.of (partS [])).quadFenced 159 = false ∧
      (W.of (partS [])).quadRegion 159 = none ∧ (let s := partS [(Bar.partCtl 1, 1), (Bar.partQmask 1 2, 0x80000000)]; (W.of s).quadHeld 0 159 = true ∧ (W.of s).quadRegion 159 = none)) ∧
    (1000 ≤ field (1000 : W64) 11 0 ∧ field (2400 : W64) 11 0 ≤ 2400 ∧ ¬ field (2401 : W64) 11 0 ≤ 2400 ∧ ¬ 1000 ≤ field (999 : W64) 11 0) ∧
    ((∀ e < 7, field (0xE4E4 ||| 0xFF00 : W64) (2 * e + 1) (2 * e) ≤ field (0xE4E4 ||| 0xFF00 : W64) (2 * e + 3) (2 * e + 2)) ∧ field (1 : W64) 3 2 < field (1 : W64) 1 0 ∧
      field ((partS []).bar (Bar.pmsel 0)) 7 0 ≤ 15 ∧ 15 < field ((partS [(Bar.pmsel 0, 16)]).bar (Bar.pmsel 0)) 7 0) ∧
    ((∀ l < 18, ((partS []).bar (Bar.linkCtl l)).getLsbD 63 = false) ∧ (0 + 1) * (0 + 1) * (1 + 1) ≤ 8192 ∧ field (0x100000001 : W64) 12 0 < (field (0x100000001 : W64) 20 16 + 1) * (field (0x100000001 : W64) 28 24 + 1) * (field (0x100000001 : W64) 36 32 + 1) ∧
      ((linkS 1 17).bar (Bar.linkCtl 17)).getLsbD 63 = true) ∧
    ((W.of (partS [])).bar2Part 15 = none ∧ (4 ≠ 8 ∧ 4 % 8 ≠ 0) ∧ 9 ≤ field ((withBar [(Bar.bootStat, 0x901)] world).bar Bar.bootStat) 15 8) := by
  decide +kernel

/-! ## Single steps: results that the specification states -/

/-- A register of the sequencer of quad 0 after an instruction. -/
def after (i : Instr) (sq : Seq := sq0) : Option Seq := match exec i (seqS sq) with | .next t => some (t.seq 0) | _ => none
def regAfter (i : Instr) (r : Nat) (sq : Seq := sq0) : Option W64 := (after i sq).map fun x => tgetD x.regs r 0

/-- R256's table and its corners: wrap, DIV and REM by zero and of −2^63 by −1, shifts by b[5:0]; s0 takes nothing. -/
def corner : Seq := { sq0 with regs := [(1, 5), (2, 0x8000_0000_0000_0000), (7, BitVec.allOnes 64), (9, 65)] }
theorem test_seq_arithmetic : regAfter (.add 3 7 1) 3 = some 4 ∧ regAfter (.mulh 3 2 2) 3 corner = some 0x4000_0000_0000_0000 ∧ regAfter (.mul 3 7 7) 3 corner = some 1 ∧
    regAfter (.div 3 2 7) 3 corner = some 0x8000_0000_0000_0000 ∧ regAfter (.rem 3 2 7) 3 corner = some 0 ∧ regAfter (.div 3 1 0) 3 corner = some (BitVec.allOnes 64) ∧
    regAfter (.rem 3 1 0) 3 corner = some 5 ∧ regAfter (.shl 3 1 9) 3 corner = some 10 ∧ regAfter (.sar 3 2 9) 3 corner = some 0xC000_0000_0000_0000 ∧
    regAfter (.slt 3 7 1) 3 corner = some 1 ∧ regAfter (.sltu 3 7 1) 3 corner = some 0 ∧ regAfter (.add 0 1 1) 0 corner = some 0 := by decide +kernel
theorem test_seq_divide_flag : (match exec (.div 3 1 0) (seqS corner) with | .next t => some (t.part 0).flags | _ => none) = some Flags.dz ∧
    (match exec (.div 3 2 7) (seqS corner) with | .next t => some (t.part 0).flags | _ => none) = some 0 := by decide +kernel
/-- The three instructions that make scratch offset 0 (14_sequencer.md). -/
theorem test_seq_constant : ((after (.lih 3 0xFFFFC)).bind fun a => (after (.shli 3 3 8) a).bind fun b => (after (.shri 3 3 8) b).map fun c => tgetD c.regs 3 0) = some 0x00FF_FFFF_FFFF_C000 := by
  decide +kernel
theorem test_seq_sext : regAfter (.sext 3 1 3) 3 corner = some (BitVec.ofInt 64 (-3)) ∧ regAfter (.sext 3 1 64) 3 corner = some 5 := by decide +kernel
/-- Branches: signed and unsigned, relative to the branch; JAL keeps the next word (R260). -/
theorem test_seq_branches : (after (.blt 7 1 0x7FFE)).map (·.pc) = some 1 ∧ (after (.bltu 7 1 0x7FFE)).map (·.pc) = some 4 ∧ (after (.jal 5 0xFFFFF)).map (·.pc) = some 2 ∧
    regAfter (.jal 5 0xFFFFF) 5 = some 4 := by decide +kernel
/-- A byte stored in scratch is read zero-extended (R257). -/
theorem test_seq_scratch : ((after (.stb 7 4 0 3)).bind fun a => regAfter (.ldw 6 4 0 0) 6 a) = some 0xFF00_0000 := by decide +kernel

/-- Lane 0 of what a vector element sends, with its flags: a, b and c stand in lane 0 of L, R and P. -/
def lane0 (i : EFields → Instr) (fmt mod : BitVec 4) (imm : BitVec 8) (a b c : W512) : Option (W32 × Flags) :=
  let x : Elem := { word := 0x0160_0000_0008_0018, named := 7, inL := some { data := a }, inR := some { data := b }, inP := some { data := c } }
  match exec (i { fmt := fmt, mod := mod, imm := imm, tb := 0, ta := 0x80018 }) (elemS x) with
  | .next t => match (t.elem at1).flights with
    | [f] => f.a.map fun k => (k.lane 0, f.flags)
    | _ => none
  | _ => none
/-- The worked lanes of 10_vector_elements.md: packed I8. -/
theorem test_vector_packed : lane0 .vcAdd 8 0 0 0x7F80F010 0x01FFE0F8 0 = some (0x807FD008, 0) ∧ lane0 .adds 8 0 0 0x7F80F010 0x01FFE0F8 0 = some (0x7F80D008, Flags.sat) ∧
    lane0 .vcMulh 8 0 0 0x7F80F010 0x01FFE0F8 0 = some (0x000002FF, 0) ∧ lane0 .widen 7 0 0x18 0x7F80F010 0 0 = some (0x007FFF80, 0) := by decide +kernel
theorem test_vector_field : lane0 .bfx 6 0 8 0x00000A00 4 0 = some (0xFFFFFFFA, 0) := by decide +kernel
/-- The worked lanes of 10_vector_elements.md: F32 corners. -/
theorem test_vector_f32_add : lane0 .fadd 0 0 0 0x3F800000 0x33800000 0 = some (0x3F800000, Flags.nx) ∧ lane0 .fadd 0 3 0 0x3F800000 0x33800000 0 = some (0x3F800001, Flags.nx) ∧
    lane0 .fadd 0 0 0 0x3F800000 0xBF800000 0 = some (0, 0) ∧ lane0 .fadd 0 2 0 0x3F800000 0xBF800000 0 = some (0x80000000, 0) := by decide +kernel
theorem test_vector_f32_corners : lane0 .fnma 0 0 0 0x40400000 0x40000000 0x40C00000 = some (0, 0) ∧ lane0 .fma 0 0 0 0 0x7F800000 0x7FC00000 = some (0x7FC00000, Flags.nv) ∧
    lane0 .fmin 0 0 0 0x7FC00000 0x40000000 0 = some (0x40000000, 0) ∧ lane0 .fmin 0 0 0 0x7F800001 0x40000000 0 = some (0x40000000, Flags.nv) ∧
    lane0 .fcmp 0 2 0 0x7FC00000 0x3F800000 0 = some (0, Flags.nv) ∧ lane0 .fcmp 0 10 0 0x7FC00000 0x3F800000 0 = some (1, 0) ∧
    lane0 .fscale 0 0 0 0x3FC00000 0xFFFFFF6B 0 = some (2, Flags.uf ||| Flags.nx) ∧ lane0 .frint 0 1 0 0xC0300000 0 0 = some (0xC0000000, Flags.nx) := by decide +kernel

/-- The host's word check, on a word of a sequencer and one of an element: the word runs as the first instruction (00 and 0x4A of R269; PASS). -/
theorem test_first_word : decodeTableWord 32 0x4A = some .halt ∧
    (match step (State.reset.withFetchWord 32 0x4A) with | .next t => some (t.seq 0).halted | _ => none) = some true := by decide +kernel
theorem test_first_element : decodeTableWord 64 0x0160_0000_0008_0018 = some (.pass (ef 6 0 0 0x80018)) ∧ (∃ t, step (State.reset.withFetchWord 64 0x0160_0000_0008_0018) = .next t) :=
  ⟨by decide +kernel, _, rfl⟩

/-- A carry captured, spilled and folded (12_matrix_cells.md): six products 127 × 127, one 127 × 25 and one 51 × 1 in column 9 make the partial 100,000. -/
def rowA : Token := { data := 0x337F7F7F7F7F7F7F }
def tileB : List W512 := ([127, 127, 127, 127, 127, 127, 25, 1] : List W512).flatMap fun (b : W512) => [b <<< 72, 0]
def carryF : Firing := { due0 with row := 4, tokens := [rowA, {}], tile := tileB }
def carryM (ccb spill : List CRec) : Mx := { firings := [carryF], acc := [(accKey 4 9, 8300000)], ccb := ccb, spill := spill }
def oldest : CRec := { row := 2, col := 17, count := 1 }
def younger : List CRec := (List.range 63).map fun k => { row := 8, col := k, count := 1 }
theorem test_matrix_spill : (match exec (.ccbSpill 0 133) (mxS {} (carryM (oldest :: younger) []) (2 ^ 64)) with
    | .next t => some ((t.mx 0 133).spill, (t.mx 0 133).ccb.length, (t.mx 0 133).holdTo) | _ => none) = some ([oldest], 63, 1019) := by decide +kernel
theorem test_matrix_carry : (match exec (.mmaCommit 0 133) (mxS {} (carryM younger [oldest]) (2 ^ 64)) with
    | .next t => some ((t.mx 0 133).at' 4 9, (t.mx 0 133).ccb.length, (t.mx 0 133).ccb.getLast?, (t.mx 0 133).made) | _ => none) =
    some (0x802C80, 64, some { row := 4, col := 9, count := 1 }, 1) := by decide +kernel
/-- The handler (R280): TRAP 3 enters it at SQ_HVEC, from the next word, with CAUSE 0x3E3; ERET leaves it. -/
theorem test_seq_trap : (after (.trap 3) { sqStat 2 with hvec := 100 }).map (fun x => (x.pc, x.epc, x.cause, x.inh)) = some (100, 4, 0x3E3, true) ∧
    (after .eret { sqStat 6 with epc := 77 }).map (fun x => (x.pc, x.inh, x.he)) = some (77, false, true) := by decide +kernel
/-- SHAKE256 of no byte begins with the bytes that FIPS 202's example gives (R414). -/
theorem test_shake : shake256 4 [] = [0x46, 0xB9, 0xDD, 0x2B] := by decide +kernel

end Sys2Proof.Tests
end

section
/-! PROOFS. Turns and time: what the passing of time before a turn's instruction changes (00_scope.md R2, R404), and that no instruction changes time;
from them O36. -/

namespace Sys2Proof.Machine

/-! ## What counters of events change -/

/-- From m to m' only registers and what the quad counters have counted on a cycle (R388) may differ: what counting events may change. -/
def Mach.CountsTo (m m' : Mach) : Prop :=
  ∃ bar counted, m' = { m with bar := bar, hub := { m.hub with counted := counted } }

theorem Mach.CountsTo.refl (m : Mach) : m.CountsTo m := ⟨m.bar, m.hub.counted, rfl⟩

theorem Mach.CountsTo.trans {m m' m'' : Mach} (h : m.CountsTo m') (h' : m'.CountsTo m'') : m.CountsTo m'' := by
  obtain ⟨_, _, rfl⟩ := h
  obtain ⟨bar, counted, rfl⟩ := h'
  exact ⟨bar, counted, rfl⟩

theorem Mach.countQuad_countsTo (m : Mach) (quad k now n : Nat) : m.CountsTo (m.countQuad quad k now n) := ⟨_, _, rfl⟩

/-- A fold of changes, each of which only counts, only counts. -/
theorem Mach.foldl_countsTo {α : Type} (f : Mach → α → Mach) (h : ∀ (m : Mach) (a : α), m.CountsTo (f m a)) (l : List α) (m : Mach) :
    m.CountsTo (l.foldl f m) :=
  List.foldlRecOn l f (.refl m) fun m' hm a _ => hm.trans (h m' a)

/-- A count made only under a condition only counts. -/
theorem Mach.ite_countQuad_countsTo (c : Prop) [Decidable c] (m : Mach) (quad k now n : Nat) :
    m.CountsTo (if c then m.countQuad quad k now n else m) := by
  split
  · exact m.countQuad_countsTo quad k now n
  · exact .refl m

/-- The holds of commits that time goes on with (R214) only count: each cell of each region that runs counts for its quad, at most twice. -/
theorem tickHolds_countsTo (m : Mach) (t0 t1 : Nat) : m.CountsTo (tickHolds m t0 t1) := by
  refine Mach.foldl_countsTo _ (fun m ⟨_, g⟩ => ?_) _ m
  dsimp only
  split
  · exact .refl m
  refine Mach.foldl_countsTo _ (fun m ⟨cell, x⟩ => ?_) _ m
  dsimp only
  split
  · exact .refl m
  exact (Mach.ite_countQuad_countsTo _ m _ _ _ _).trans (Mach.ite_countQuad_countsTo _ _ _ _ _ _)

/-- The passing of time counts events, and brings sequencers' results to be read (R255); it changes nothing else. -/
theorem tick_eq (m : Mach) (t0 t1 : Nat) :
    ∃ bar counted, tick m t0 t1 = { m with
      bar := bar, hub := { m.hub with counted := counted }, seqs := m.seqs.map fun q => (q.1, q.2.ripen t1) } := by
  obtain ⟨bar, counted, h⟩ := tickHolds_countsTo m t0 t1
  exact ⟨_, counted, by rw [tick, h]⟩

/-! ## The turn's own time -/

/-- Taking a turn passes no time. -/
@[simp] theorem Clk.take_now (c : Clk) : c.take.2.now = c.now := by unfold Clk.take; split <;> rfl
@[simp] theorem Clk.take_gtime (c : Clk) : c.take.2.gtime = c.gtime := by unfold Clk.take; split <;> rfl

/-- A listed turn is taken from the head of the agenda. -/
theorem Clk.take_cons {c : Clk} {d : Turn} {ds : List Turn} (h : c.agenda = d :: ds) : c.take = (d, { c with agenda := ds }) := by
  unfold Clk.take
  rw [h]

theorem State.turn_clk (s : State) : s.turn.2.clk = s.clk.take.2.advance s.m.hub.steer s.clk.take.1.dt := rfl

theorem State.now_le_turn (s : State) : s.clk.now ≤ s.turn.2.clk.now := by
  simp [State.turn_clk, Clk.advance]

theorem State.ns_eq (s : State) : s.ns = s.clk.gtime / 5000000 := rfl

/-- Global time advances by a natural number of millionths, whatever the steering (R404). -/
theorem State.ns_le_turn (s : State) : s.ns ≤ s.turn.2.ns := by
  simp only [State.ns_eq, State.turn_clk, Clk.advance, Clk.take_gtime]
  exact Nat.div_le_div_right (Nat.le_add_right _ _)

/-- What a listed turn finds. -/
theorem State.turn_eq {s : State} {d : Turn} {ds : List Turn} (h : s.clk.agenda = d :: ds) :
    ∃ bar counted, s.turn = (d.act, {
      clk := { s.clk with agenda := ds, now := s.clk.now + d.dt, gtime := s.clk.gtime + ((d.dt : Int) * (1000000 + s.m.hub.steer)).toNat }
      mem := s.mem
      m := { s.m with
        bar := bar, hub := { s.m.hub with counted := counted }, seqs := s.m.seqs.map fun q => (q.1, q.2.ripen (s.clk.now + d.dt))
        cur := d.act.actor } }) := by
  obtain ⟨bar, counted, ht⟩ := tick_eq s.m s.clk.now (s.clk.now + d.dt)
  exact ⟨bar, counted, by simp only [State.turn, Clk.take_cons h, Clk.advance, ht]⟩

/-- A step's time is its turn's: whatever the turn then does, it leaves time as it found it. -/
theorem step_clk {s t : State} (h : step s = .next t) : t.clk = s.turn.2.clk := by
  simp only [step] at h
  split at h
  · cases h; rfl
  split at h
  · exact exec_clk h
  · cases h; rfl
  · cases h; rfl
  · cases h

/-- Settles O36: what a listed turn finds is `State.turn_eq`; an instruction changes no time (`step_clk`), and the turn's own time only adds. -/
theorem turnsAndTime : Obligations.TurnsAndTime := by
  refine ⟨fun s d ds h => State.turn_eq h, fun s t h => ?_⟩
  have hclk := step_clk h
  have hns : t.ns = s.turn.2.ns := by rw [State.ns_eq, State.ns_eq, hclk]
  exact ⟨hclk, hclk ▸ s.now_le_turn, hns ▸ s.ns_le_turn⟩

end Sys2Proof.Machine
end

section
/-! PROOFS. Translation: the entry that a fault queue gets for a walk to which no agent is joined (25_translation.md R376, R378); from it O55. -/

namespace Sys2Proof.Machine

/-- A walk in flight at die 0, no PREF's, to which no agent is joined. -/
def unjoinedWalk : Walk := { id := 1 }

/-- Reset, but for die 0's fault queue, which is enabled at PA 0, and the walk, which has found partition 0's translation off (R374) and so an absent entry. -/
def unjoinedState : State := { State.reset with m := { bar := [(Bar.fqCfg 0, 1)], mmu := { walks := [unjoinedWalk] } } }

/-- PAGE_WALK queues the entry at the queue's head with the host (kind 7, index 0xFFF) as its agent: byte 8, the lowest of the agent field, is 0xFF. -/
theorem unjoinedWalk_entry_names_host :
    ∃ t, exec (.pageWalk unjoinedWalk.id) unjoinedState = .next t ∧ (memBytes t.mem (keyDie (homeDie 0) (dieOffset 0)) 32)[8]? = some 0xFF :=
  ⟨_, rfl, by decide +kernel⟩

/-- Refutes O55: its clause on an absent entry gives the queued entry agent 0 where the walk has no agent, and asks only that the walk be no PREF's;
`W.fqHold` names the host there. The model makes no such walk itself, but the clause is about every state. In the state `unjoinedState` every hypothesis of the clause holds, at level 0, head 0 and PA 0, and the two entries differ in byte 8. -/
theorem not_translationAndHost : ¬ Obligations.TranslationAndHost := by
  unfold Obligations.TranslationAndHost
  rintro ⟨⟨-, hwalk, -⟩, -⟩
  have hfind : unjoinedState.m.mmu.walks.find? (fun x => x.id == unjoinedWalk.id && !x.held) = some unjoinedWalk := rfl
  have hwalking : (W.of unjoinedState).walking unjoinedWalk = true := by decide +kernel
  have habs : (W.of unjoinedState).walk unjoinedWalk.part unjoinedWalk.va = .absent 0 := by decide +kernel
  have hon : (W.of unjoinedState).fqOn 0 unjoinedWalk.part = true := by decide +kernel
  have hroom : (W.of unjoinedState).fqFull 0 = false := by decide +kernel
  have hhead : 0 = field (unjoinedState.bar (Bar.fqPtr 0)) 31 0 := by decide +kernel
  have hplace : 0 = field (unjoinedState.bar (Bar.fqCfg 0)) 51 12 * 2 ^ 12 + 32 * (0 % (W.of unjoinedState).fqSize 0) := by decide +kernel
  obtain ⟨-, habsent, -⟩ := hwalk unjoinedState unjoinedWalk hfind hwalking rfl
  obtain ⟨t, -, ht, hstated, -⟩ := habsent 0 0 0 0 habs rfl hon hroom rfl (by decide) hhead hplace (by decide)
  obtain ⟨u, hu, hhost⟩ := unjoinedWalk_entry_names_host
  obtain rfl : u = t := by rw [ht] at hu; cases hu; rfl
  rw [hstated] at hhost
  exact absurd hhost (by decide +kernel)

end Sys2Proof.Machine
end

section
/-! PROOFS. Frames: what accesses to global memory, translation, pennants, raised causes and the hub's records leave alone, and from it what an element's
firing leaves alone when it consumes its inputs (02_execution_model.md R17). -/

namespace Sys2Proof.Machine

/-! ## What the hub's own work does not touch -/

/-- What no access to global memory, no translation, no pennant, no raised cause and no interrupt touches: sequencers, regions, queues, rails, sectors and
start-up. -/
def Mach.aside (m : Mach) : Mach :=
  { m with bus := {}, mmu := {}, hub := {}, bar := [], parts := [], rings := [], links := [], draw := 0, nextId := 0 }

/-- From w to w' only memory and what `Mach.aside` forgets may have changed, and halts that wait for the hub still wait. -/
structure W.Aside (w w' : W) : Prop where
  clk   : w'.clk = w.clk
  rest  : w'.m.aside = w.m.aside
  halts : ∀ n, ∀ h ∈ (w.part n).halts, h ∈ (w'.part n).halts

theorem W.Aside.refl (w : W) : w.Aside w := ⟨rfl, rfl, fun _ _ h => h⟩
theorem W.Aside.trans {u v w : W} (a : u.Aside v) (b : v.Aside w) : u.Aside w :=
  ⟨b.clk.trans a.clk, b.rest.trans a.rest, fun n h k => b.halts n h (a.halts n h k)⟩
/-- A change that touches no partition. -/
theorem W.aside_of {w w' : W} (clk : w'.clk = w.clk) (rest : w'.m.aside = w.m.aside) (parts : w'.m.parts = w.m.parts) : w.Aside w' :=
  ⟨clk, rest, fun n h k => by simpa only [W.part, parts] using k⟩
theorem W.Aside.seqs {w w' : W} (a : w.Aside w') : w'.m.seqs = w.m.seqs := by have := congrArg Mach.seqs a.rest; exact this
theorem W.Aside.regions {w w' : W} (a : w.Aside w') : w'.m.regions = w.m.regions := by have := congrArg Mach.regions a.rest; exact this
theorem W.Aside.queues {w w' : W} (a : w.Aside w') : w'.m.queues = w.m.queues := by have := congrArg Mach.queues a.rest; exact this
theorem W.Aside.sectors {w w' : W} (a : w.Aside w') : w'.m.sectors = w.m.sectors := by have := congrArg Mach.sectors a.rest; exact this
theorem W.Aside.rails {w w' : W} (a : w.Aside w') : w'.m.rails = w.m.rails := by have := congrArg Mach.rails a.rest; exact this

/-- What a fold of changes leaves alone, each of which does. -/
theorem W.aside_foldl {α : Type} (f : W → α → W) (h : ∀ (w : W) (a : α), w.Aside (f w a)) (l : List α) (w : W) : w.Aside (l.foldl f w) :=
  List.foldlRecOn l f (.refl w) fun _ k a _ => k.trans (h _ a)
/-- The same of a fold that also gathers a result. -/
theorem W.aside_foldl_fst {α β : Type} (f : W × β → α → W × β) (h : ∀ (x : W × β) (a : α), x.1.Aside (f x a).1) (l : List α) (x : W × β) :
    x.1.Aside (l.foldl f x).1 :=
  List.foldlRecOn (motive := fun y => x.1.Aside y.1) l f (.refl x.1) fun _ k a _ => k.trans (h _ a)
/-- A change made only under a condition. -/
theorem W.aside_ite {c : Prop} [Decidable c] {w a b : W} (ha : w.Aside a) (hb : w.Aside b) : w.Aside (if c then a else b) := by
  split
  · exact ha
  · exact hb

theorem W.setBus_aside (w : W) (f : Bus → Bus) : w.Aside (w.setBus f) := W.aside_of rfl rfl rfl
theorem W.setMmu_aside (w : W) (f : Mmu → Mmu) : w.Aside (w.setMmu f) := W.aside_of rfl rfl rfl
theorem W.setHub_aside (w : W) (f : Hub → Hub) : w.Aside (w.setHub f) := W.aside_of rfl rfl rfl
theorem W.setBar_aside (w : W) (o : Nat) (v : W64) : w.Aside (w.setBar o v) := W.aside_of rfl rfl rfl
theorem W.setFld_aside (w : W) (o hi lo v : Nat) : w.Aside (w.setFld o hi lo v) := W.aside_of rfl rfl rfl
theorem W.setPart_aside (w : W) (n : Nat) {f : Part → Part} (hf : ∀ p, ∀ h ∈ p.halts, h ∈ (f p).halts) : w.Aside (w.setPart n f) := by
  refine ⟨rfl, rfl, fun k h m => ?_⟩
  simp only [W.part, W.setPart_parts] at m ⊢
  by_cases e : k = n
  · subst e; rw [tgetD_tput_self]; exact hf _ h m
  · rw [tgetD_tput_ne _ _ _ _ _ e]; exact m
theorem W.setLink_aside (w : W) (l : Nat) (f : Link → Link) : w.Aside (w.setLink l f) := W.aside_of rfl rfl rfl
theorem W.pmc_aside (w : W) (q e n : Nat) : w.Aside (w.pmc q e n) := W.aside_of rfl rfl rfl
theorem W.fresh_aside (w : W) : w.Aside w.fresh.1 := W.aside_of rfl rfl rfl
theorem W.freeBelow_aside (w : W) (n : Nat) : w.Aside (w.freeBelow n).1 := W.aside_of rfl rfl rfl
theorem W.write_aside (w : W) (a : Nat) (b : Byte) : w.Aside (w.write a b) := W.aside_of rfl rfl rfl

/-! ### What agents see -/

theorem W.gain_aside (w : W) (e : Eye) (c : Cov) : w.Aside (w.gain e c) := W.aside_ite (.refl w) (w.setBus_aside _)
theorem W.gainRel_aside (w : W) (e : Eye) (r : Rel) : w.Aside (w.gainRel e r) := W.aside_ite (w.gain_aside e _) (.refl w)

/-! ### Pennants, causes, flags -/

theorem W.pennant_aside (w : W) (ring part : Nat) (p : Pennant) : w.Aside (w.pennant ring part p).1 := by
  unfold W.pennant
  exact W.aside_ite (W.aside_of rfl rfl rfl) (W.aside_of rfl rfl rfl)
theorem W.raise_aside (w : W) (n : Nat) (h : Halt) : w.Aside (w.raise n h) := W.aside_ite (.refl w) (w.setPart_aside n fun _ _ k => List.mem_append_left _ k)
theorem W.raiseSeq_aside (w : W) (q code : Nat) (va : W64) : w.Aside (w.raiseSeq q code va) := w.raise_aside _ _
theorem W.raiseElem_aside (w : W) (e : ERef) (code : Nat) (va : W64) (t : Option Token) : w.Aside (w.raiseElem e code va t) := w.raise_aside _ _
theorem W.raiseHub_aside (w : W) (n code agent element : Nat) (va : W64) (latest : W32) : w.Aside (w.raiseHub n code agent element va latest) := w.raise_aside _ _
theorem W.orFlags_aside (w : W) (n : Nat) (f : Flags) : w.Aside (w.orFlags n f) := W.aside_ite (.refl w) (w.setPart_aside n fun _ _ k => k)

/-! ### Requests, writes at homes -/

theorem W.countAt_aside (w : W) (off : Nat) : w.Aside (w.countAt off) := W.aside_of rfl rfl rfl
theorem W.countOut_aside (w : W) (die home : Nat) : w.Aside (w.countOut die home) :=
  W.aside_ite (.refl w) (W.aside_ite (w.countAt_aside _) (W.aside_ite (w.countAt_aside _) (.refl w)))
theorem W.countIn_aside (w : W) (die home : Nat) : w.Aside (w.countIn die home) := W.aside_ite (.refl w) (w.countAt_aside _)
theorem W.countSent_aside (w : W) (die : Nat) (quad : Option Nat) (keys : List Nat) : w.Aside (w.countSent die quad keys) := by
  have h := W.aside_foldl (fun w k => W.countOut w die (keyHome k)) (fun w k => w.countOut_aside die _) keys w
  unfold W.countSent
  split
  · exact h.trans (W.pmc_aside _ _ _ _)
  · exact h
theorem W.countReqs_aside (w : W) (die : Nat) (quad : Option Nat) (keys : List Nat) : w.Aside (w.countReqs die quad keys) :=
  (w.countSent_aside die quad keys).trans (W.aside_foldl _ (fun w _ => w.countIn_aside die _) keys _)
theorem W.sendPeer_aside (w : W) (key n : Nat) : w.Aside (w.sendPeer key n) := by
  unfold W.sendPeer
  split
  · exact .refl w
  split
  · exact w.setLink_aside _ _
  · exact .refl w
theorem W.applyWrite_aside (w : W) (e : Eye) (sec : Nat) (bs : List (Nat × Byte)) (rel : Rel) (cov : Cov) (id : Nat) :
    w.Aside (w.applyWrite e sec bs rel cov id).1 := by
  refine .trans ?_ (W.sendPeer_aside _ _ _)
  refine .trans (w.fresh_aside.trans (W.setBus_aside _ _)) (W.aside_foldl _ (fun w _ => w.write_aside _ _) _ _)
theorem W.applyAll_aside (w : W) (e : Eye) (rel : Rel) (key : Nat) (bs : List Byte) : w.Aside (w.applyAll e rel key bs).1 := by
  unfold W.applyAll
  exact W.aside_foldl_fst (β := List Nat) _ (fun x _ => x.1.applyWrite_aside e _ _ rel _ _) _ (w, [])
theorem W.applyBytes_aside (w : W) (e : Eye) (rel : Rel) (key : Nat) (bs : List Byte) : w.Aside (w.applyBytes e rel key bs) := w.applyAll_aside e rel key bs
theorem W.issueOwned_aside (w : W) (e : Eye) (owner : Nat) (r : Req) : w.Aside (w.issueOwned e owner r) := by
  unfold W.issueOwned W.send
  exact (w.fresh_aside.trans (W.countSent_aside _ _ _ _)).trans (W.setBus_aside _ _)
theorem W.spread_aside (w : W) (e : Eye) (owner part : Nat) (rel : Rel) (keys : List Nat) (bs : List Byte) :
    w.Aside (w.spread e owner part rel keys bs).1 := by
  unfold W.spread
  split
  · exact .refl w
  · exact ((w.countReqs_aside _ _ _).trans (W.applyAll_aside _ _ _ _ _)).trans (W.aside_foldl _ (fun w _ => w.issueOwned_aside _ _ _) _ _)
theorem W.hubWrite_aside (w : W) (rel : Rel) (l : Leaf) (off : Nat) (bs : List Byte) : w.Aside (w.hubWrite rel l off bs).1 := w.spread_aside _ _ _ _ _ _
theorem W.hubStore_aside (w : W) (rel : Rel) (l : Leaf) (off : Nat) (bs : List Byte) : w.Aside (w.hubStore rel l off bs) := w.hubWrite_aside rel l off bs

/-! ### Interrupts and fault queues -/

theorem W.fireMsg_aside (w : W) (fn vec : Nat) : w.Aside (w.fireMsg fn vec) := W.aside_ite (w.setHub_aside _) (.refl w)
theorem W.fireEvents_aside (w : W) (fn kind : Nat) : w.Aside (w.fireEvents fn kind) := (w.fireMsg_aside fn _).trans (W.setHub_aside _ _)
theorem W.fnEvent_aside (w : W) (fn kind : Nat) : w.Aside (w.fnEvent fn kind) :=
  W.aside_ite ((w.setHub_aside _).trans (W.fireEvents_aside _ fn kind)) (w.setHub_aside _)
theorem W.event_aside (w : W) (part kind : Nat) : w.Aside (w.event part kind) :=
  (W.aside_ite (.refl w) (w.fnEvent_aside _ kind)).trans (W.fnEvent_aside _ 0 kind)
theorem W.fqAppend_aside (w : W) (die part : Nat) (va : W64) (agent access level : Nat) : w.Aside (w.fqAppend die part va agent access level).1 :=
  ((w.applyBytes_aside _ _ _ _).trans (W.setFld_aside _ _ _ _ _)).trans (W.event_aside _ _ _)
theorem W.fqHold_aside (w : W) (k : Walk) (level : Nat) : w.Aside (w.fqHold k level) := by
  have h := w.fqAppend_aside k.die k.part k.va (k.agents.headD w.hostAgent) k.access level
  unfold W.fqHold
  refine .trans ?_ (W.setMmu_aside _ _)
  split
  · exact h.trans (W.pmc_aside _ _ _ _)
  · exact h

/-! ### Translation -/

theorem W.tlbFill_aside (w : W) (u : Nat) (t : TlbE) : w.Aside (w.tlbFill u t) := by
  unfold W.tlbFill
  refine W.aside_ite (.refl w) ?_
  split
  rename_i v victim e
  have h : w.Aside v := by
    split at e <;> cases e
    · exact .refl w
    · exact w.freeBelow_aside (w.m.mmu.tlb.filter fun x => x.unit == u).length
  exact h.trans (W.setMmu_aside _ _)
theorem W.addWalk_aside (w : W) (src : Src) (agent part : Nat) (va : W64) (a : Access) (unit : Nat) (pre : Bool) :
    w.Aside (w.addWalk src agent part va a unit pre) :=
  W.aside_ite (.refl w) (W.aside_ite (w.setMmu_aside _) (w.fresh_aside.trans (W.setMmu_aside _ _)))
theorem W.hubWalk_aside (w : W) (part : Nat) (va : W64) (a : Access) : w.Aside (w.hubWalk part va a).1 := by
  unfold W.hubWalk
  dsimp only
  split
  · dsimp only
    exact (w.fresh_aside.trans (W.tlbFill_aside _ _ _)).trans (W.setMmu_aside _ _)
  · split
    · exact .refl w
    split
    · exact W.aside_ite (.refl w) (w.fqHold_aside _ _)
    · dsimp only
      exact (w.fresh_aside.trans (W.setMmu_aside _ _)).trans (W.fqHold_aside _ _ _)
  · exact .refl w
theorem W.hubXlate_aside (w : W) (part : Nat) (va : W64) (a : Access) : w.Aside (w.hubXlate part va a).1 := by
  have h := w.hubWalk_aside part va a
  unfold W.hubXlate
  split
  · exact .refl w
  · exact .refl w
  · exact .refl w
  · split <;> rename_i e <;> rw [e] at h
    · split
      · split <;> exact h
      · exact h
    · exact h
    · exact h
theorem W.hubFind_aside (w : W) (part : Nat) (va : W64) (a : Access) : w.Aside (w.hubFind part va a).1 := by
  have h := w.hubXlate_aside part va a
  unfold W.hubFind
  split <;> rename_i e <;> rw [e] at h
  · exact h
  · exact h.trans (W.aside_ite (.refl _) (W.raiseHub_aside _ _ _ _ _ _ _))

/-! ### Records of the hub -/

theorem W.areaAppend_aside (w : W) (off part unit size : Nat) (bs : List Byte) : w.Aside (w.areaAppend off part unit size bs) := by
  unfold W.areaAppend
  dsimp only
  refine W.aside_ite (w.setFld_aside _ _ _ _) ?_
  generalize BitVec.ofNat 64 _ = va
  have h := w.hubXlate_aside part va .write
  split <;> rename_i e <;> rw [e] at h
  · exact (h.trans (W.hubWrite_aside _ _ _ _ _)).trans (W.setHub_aside _ _)
  · exact h.trans (W.setFld_aside _ _ _ _ _)
theorem W.trace_aside (w : W) (e : ERef) (t : Token) (dropped : Bool) : w.Aside (w.trace e t dropped) := by
  unfold W.trace
  split
  · exact .refl w
  · exact w.areaAppend_aside _ _ _ _ _

end Sys2Proof.Machine
end

section
/-! PROOFS. What an element's firing leaves (02_execution_model.md R17 to R21): the record of the element after it has consumed its inputs and sent results. -/

namespace Sys2Proof.Machine

/-! ## The record of an element in a working state -/

/-- The working state holds the element e of the region g as x. -/
structure W.Has (w : W) (e : ERef) (g : Region) (x : Elem) : Prop where
  reg  : tget w.m.regions e.r = some g
  here : tget g.elems e.key = some x

theorem W.Has.region_eq {w : W} {e : ERef} {g : Region} {x : Elem} (h : w.Has e g x) : w.region e.r = g := by simp [W.region, tgetD, h.reg]
theorem W.Has.elem_eq {w : W} {e : ERef} {g : Region} {x : Elem} (h : w.Has e g x) : w.elem e = x := by simp [W.elem, h.region_eq, tgetD, h.here]
theorem W.Has.state_elem {s : State} {w : W} {e : ERef} {g : Region} {x : Elem} (h : w.Has e g x) : (w.commit s).elem e = x := h.elem_eq
theorem W.Has.state_region {s : State} {w : W} {e : ERef} {g : Region} {x : Elem} (h : w.Has e g x) : (w.commit s).region e.r = g := h.region_eq
theorem W.Has.of_regions {w w' : W} {e : ERef} {g : Region} {x : Elem} (h : w.Has e g x) (r : w'.m.regions = w.m.regions) : w'.Has e g x :=
  ⟨by rw [r]; exact h.reg, h.here⟩
theorem W.Has.setElem {w : W} {e : ERef} {g : Region} {x : Elem} (h : w.Has e g x) (f : Elem → Elem) :
    (w.setElem e f).Has e { g with elems := tput g.elems e.key (f x) } (f x) where
  reg := by simp [W.setElem, tmod_of_tget _ h.reg, tmod_of_tget _ h.here]
  here := by simp
theorem W.Has.raiseElem {w : W} {e : ERef} {g : Region} {x : Elem} (h : w.Has e g x) (code : Nat) (va : W64) (t : Option Token) :
    (w.raiseElem e code va t).Has e g x := h.of_regions (w.raiseElem_aside e code va t).regions
theorem Fires.has {s : State} {e : ERef} {x : Elem} {u : Uses} {i : Ins} (h : Fires s e x u i) : ∃ g, (W.of s).Has e g x :=
  h.reg.imp fun _ ⟨a, b⟩ => ⟨a, b⟩

/-- A change of an element's record is a change of its region's entry. -/
theorem W.Has.setElem_eq {w : W} {e : ERef} {g : Region} {x : Elem} (h : w.Has e g x) (f : Elem → Elem) :
    w.setElem e f = { w with m := { w.m with regions := tput w.m.regions e.r { g with elems := tput g.elems e.key (f x) } } } := by
  simp [W.setElem, W.setRegion, tmod_of_tget _ h.reg, tmod_of_tget _ h.here]

/-- The result that a firing sends, as its output stage holds it. -/
def W.flight (w : W) (e : ERef) (g : Region) (x : Elem) (lat : Nat) (a b : Option Token) (flags : Flags) : Flight :=
  { due := w.edgeOf g e.cell + lat + x.pass, a := a.map (hopOf w e.key), b := b.map (hopOf w e.key), flags := flags }

theorem W.Has.fly {w : W} {e : ERef} {g : Region} {x : Elem} (h : w.Has e g x) (lat : Nat) (a b : Option Token) (flags : Flags) :
    (w.fly e lat a b flags).Has e { g with elems := tput g.elems e.key { x with flights := x.flights ++ [w.flight e g x lat a b flags] } }
      { x with flights := x.flights ++ [w.flight e g x lat a b flags] } := by
  have := h.setElem fun x => { x with flights := x.flights ++ [w.flight e g x lat a b flags] }
  rw [W.fly, h.region_eq]
  exact this
theorem W.Has.flyBoth {w : W} {e : ERef} {g : Region} {x : Elem} (h : w.Has e g x) (lat : Nat) (t : Token) (flags : Flags) :
    (w.flyBoth e lat t flags).Has e { g with elems := tput g.elems e.key { x with flights := x.flights ++ [w.flight e g x lat (some t) (some t) flags] } }
      { x with flights := x.flights ++ [w.flight e g x lat (some t) (some t) flags] } := h.fly lat _ _ flags

/-- Results sent one after the other: each goes to the end of the output stage. -/
theorem W.Has.fly_list {α : Type} {w : W} {e : ERef} {g : Region} {x : Elem} (h : w.Has e g x) (lat : α → Nat) (t : α → Token) (fl : α → Flags) (l : List α) :
    ∃ g', (l.foldl (fun w a => w.fly e (lat a) (some (t a)) (some (t a)) (fl a)) w).Has e g'
      { x with flights := x.flights ++ l.map fun a => w.flight e g x (lat a) (some (t a)) (some (t a)) (fl a) } := by
  induction l generalizing w g x with
  | nil => exact ⟨g, by simpa using h⟩
  | cons a l ih =>
    obtain ⟨g', hf⟩ := ih (h.fly (lat a) (some (t a)) (some (t a)) (fl a))
    refine ⟨g', ?_⟩
    rw [List.append_assoc] at hf
    exact hf

@[simp] theorem hopOf_head (w : W) (k : Nat) (t : Token) : (hopOf w k t).head = t.head := by unfold hopOf; split <;> (try split) <;> (try split) <;> rfl
@[simp] theorem hopOf_tail (w : W) (k : Nat) (t : Token) : (hopOf w k t).tail = t.tail := by unfold hopOf; split <;> (try split) <;> (try split) <;> rfl
@[simp] theorem hopOf_data (w : W) (k : Nat) (t : Token) : (hopOf w k t).data = t.data := by unfold hopOf; split <;> (try split) <;> (try split) <;> rfl
@[simp] theorem hopOf_empty (w : W) (k : Nat) (t : Token) : (hopOf w k t).empty = t.empty := by unfold hopOf; split <;> (try split) <;> (try split) <;> rfl
@[simp] theorem hopOf_null (w : W) (k : Nat) (t : Token) : (hopOf w k t).null = t.null := by unfold hopOf; split <;> (try split) <;> (try split) <;> rfl
theorem hopOf_untraced (w : W) (k : Nat) {t : Token} (h : t.log = none) : hopOf w k t = t := by simp [hopOf, h]
theorem W.trace_untraced (w : W) (e : ERef) {t : Token} (h : t.log = none) (dropped : Bool) : w.trace e t dropped = w := by simp [W.trace, h]

/-! ## What consuming leaves -/

/-- An element but for its leaf's latest pennant, which an acquire may change (R31). -/
def Elem.plain (x : Elem) : Elem := { x with leafRef := 0 }
/-- A region but for the records that an acquire of a memory cell may change: its cells', and its elements' leaf references. -/
def Region.shape (g : Region) : Region × (Nat → Option Elem) := ({ g with cells := [], elems := [] }, fun k => (tget g.elems k).map Elem.plain)
/-- Time and the regions, each but for those records. -/
def W.fabric (w : W) : Clk × (Nat → Option (Region × (Nat → Option Elem))) := (w.clk, fun r => (tget w.m.regions r).map Region.shape)

theorem W.fabric_of {w w' : W} (c : w'.clk = w.clk) (r : w'.m.regions = w.m.regions) : w'.fabric = w.fabric := by simp [W.fabric, c, r]
theorem W.Aside.fabric {w w' : W} (a : w.Aside w') : w'.fabric = w.fabric := W.fabric_of a.clk a.regions

/-- A change of a region that its shape does not show. -/
theorem W.setRegion_fabric (w : W) (r : Nat) (f : Region → Region) (h : ∀ g, (f g).shape = g.shape) : (w.setRegion r f).fabric = w.fabric := by
  simp only [W.fabric, W.setRegion_clk, W.setRegion_regions, tget_tmod, Prod.mk.injEq, true_and]
  funext j
  split
  · subst j; cases tget w.m.regions r <;> simp [h]
  · rfl
theorem W.setCell_fabric (w : W) (r c : Nat) (f : Cell → Cell) : (w.setCell r c f).fabric = w.fabric := w.setRegion_fabric r _ fun _ => rfl
theorem leafRefs_plain (ref : W32) (ks : List Nat) (t : Tbl Elem) (k : Nat) :
    (tget (ks.foldl (fun t k => tmod t k fun x => { x with leafRef := ref }) t) k).map Elem.plain = (tget t k).map Elem.plain := by
  induction ks generalizing t with
  | nil => rfl
  | cons j ks ih =>
    rw [List.foldl_cons, ih, tget_tmod]
    split
    · subst k; cases tget t j <;> rfl
    · rfl
theorem W.leafPennant_fabric (w : W) (e : ERef) (ref : W32) : (w.leafPennant e ref).fabric = w.fabric :=
  w.setRegion_fabric _ _ fun g => by simp only [Region.shape, Prod.mk.injEq, true_and]; exact funext fun k => leafRefs_plain ref _ _ k
theorem W.cellRef_fabric (w : W) (r c : Nat) (ref : W32) : (w.cellRef r c ref).fabric = w.fabric := w.setCell_fabric r c _
theorem W.cellPennant_fabric (w : W) (e : ERef) (producer : Nat) (pref : W32) (start arrival kind : Nat) :
    (w.cellPennant e producer pref start arrival kind).fabric = w.fabric := by
  simp only [W.cellPennant]
  rw [W.leafPennant_fabric, W.setCell_fabric, (w.pennant_aside _ _ _).fabric]
theorem W.acquireBy_fabric (w : W) (e : ERef) (i : Ins) : (w.acquireBy e i).fabric = w.fabric := by
  have h (r : Rel) : ((w.cellRef e.r e.cell r.ref).gainRel (w.eyeOf (.elem e.r e.cell e.slot)) r).fabric = w.fabric := by
    rw [(W.gainRel_aside _ _ _).fabric, W.cellRef_fabric]
  unfold W.acquireBy
  split
  · rfl
  · split
    · rfl
    dsimp only
    split
    · exact h _
    split
    · exact h _
    · rw [W.cellPennant_fabric, h]
/-- An element whose inputs name no reference acquires nothing. -/
theorem W.acquireBy_unmarked (w : W) (e : ERef) {i : Ins} (h : i.rel = none) : w.acquireBy e i = w := by simp [W.acquireBy, h]

/-- What the fabric shows of an element and its region. -/
theorem W.Has.of_fabric {w w' : W} {e : ERef} {g : Region} {x : Elem} (h : w.Has e g x) (f : w'.fabric = w.fabric) :
    ∃ cells elems ref, w'.Has e { g with cells := cells, elems := elems } { x with leafRef := ref } := by
  have hr := congrFun (congrArg Prod.snd f) e.r
  simp only [W.fabric, h.reg, Option.map_some] at hr
  obtain ⟨g', hg, hs⟩ := Option.map_eq_some_iff.1 hr
  have hg' : g' = { g with cells := g'.cells, elems := g'.elems } := by
    have := congrArg (fun p => ({ p.1 with cells := g'.cells, elems := g'.elems } : Region)) hs
    exact this
  have hx := congrFun (congrArg Prod.snd hs) e.key
  simp only [Region.shape, h.here, Option.map_some] at hx
  obtain ⟨x', hk, hp⟩ := Option.map_eq_some_iff.1 hx
  have hx' : x' = { x with leafRef := x'.leafRef } := by
    have := congrArg (fun y : Elem => { y with leafRef := x'.leafRef }) hp
    exact this
  exact ⟨g'.cells, g'.elems, x'.leafRef, by rw [← hg']; exact hg, by rw [← hx']; exact hk⟩

/-- The record of an element that has consumed its inputs on a grid cycle. -/
def Elem.consumed (x : Elem) (i : Ins) (now : Nat) : Elem :=
  { x with
    inL := if i.lT then none else x.inL, inR := if i.rT then none else x.inR, inP := if i.pT then none else x.inP
    nextG := now + 1, heldAt := [], lastSeen := x.lastSeen || (x.done && i.last), turn := (x.turn + 1) % max x.copies.length 1 }

/-- Time and the regions are as before. -/
structure W.SameRegions (w w' : W) : Prop where
  clk     : w'.clk = w.clk
  regions : w'.m.regions = w.m.regions

theorem W.SameRegions.trans {u v w : W} (a : u.SameRegions v) (b : v.SameRegions w) : u.SameRegions w := ⟨b.clk.trans a.clk, b.regions.trans a.regions⟩
theorem W.SameRegions.refl (w : W) : w.SameRegions w := ⟨rfl, rfl⟩
theorem W.setQueue_sameRegions (w : W) (q : Nat) (f : Queue → Queue) : w.SameRegions (w.setQueue q f) := ⟨rfl, rfl⟩
theorem W.setSector_sameRegions (w : W) (n : Nat) (f : Sector → Sector) : w.SameRegions (w.setSector n f) := ⟨rfl, rfl⟩
theorem W.stir_sameRegions (w : W) (g : Region) (cell : Nat) : w.SameRegions (w.stir g cell) := w.setSector_sameRegions _ _
theorem W.Aside.same {w w' : W} (a : w.Aside w') : w.SameRegions w' := ⟨a.clk, a.regions⟩
theorem W.sameRegions_ite {c : Prop} [Decidable c] {w a b : W} (ha : w.SameRegions a) (hb : w.SameRegions b) : w.SameRegions (if c then a else b) := by
  split
  · exact ha
  · exact hb

/-- Behind the acquire and the change of the element's own record, consuming changes sectors, counters, a queue's progress and the trace area, and no region. -/
theorem W.consume_sameRegions (w : W) (e : ERef) (i : Ins) :
    ((w.acquireBy e i).setElem e fun x => x.consumed i (w.acquireBy e i).now).SameRegions (w.consume e i) := by
  have traced (v : W) : v.SameRegions (i.toks.foldl (fun v t => v.trace e (hopOf v e.key t) false) v) :=
    (W.aside_foldl _ (fun v t => v.trace_aside e _ _) _ v).same
  unfold W.consume
  extract_lets g q nulls empties acquired taken stirred counted risen x
  have hc : taken.SameRegions counted := (taken.stir_sameRegions g e.cell).trans
    (((stirred.pmc_aside q 2 1).trans (W.pmc_aside _ q 4 nulls)).trans (W.pmc_aside _ q 5 empties)).same
  have hr : taken.SameRegions risen := hc.trans (W.sameRegions_ite (counted.setQueue_sameRegions _ _) (.refl counted))
  exact W.sameRegions_ite (hr.trans (traced _)) hr

/-- The element's record after it has consumed its inputs, and its region's but for elements and cells. -/
theorem Fires.consume_has {s : State} {e : ERef} {x : Elem} {u : Uses} {i : Ins} {g : Region} (h : Fires s e x u i) (hg : tget s.m.regions e.r = some g) :
    ∃ cells elems ref, ((W.of s).consume e i).Has e { g with cells := cells, elems := elems } { x.consumed i s.clk.now with leafRef := ref } := by
  obtain ⟨g', hg', hx⟩ := h.reg
  obtain rfl : g' = g := Option.some.inj (hg'.symm.trans hg)
  obtain ⟨cells, elems, ref, ha⟩ := W.Has.of_fabric (w := W.of s) ⟨hg', hx⟩ ((W.of s).acquireBy_fabric e i)
  have now : ((W.of s).acquireBy e i).now = s.clk.now := congrArg (fun p => p.1.now) ((W.of s).acquireBy_fabric e i)
  exact ⟨cells, _, ref, now ▸ (ha.setElem fun y => y.consumed i ((W.of s).acquireBy e i).now).of_regions ((W.of s).consume_sameRegions e i).regions⟩
theorem W.consume_clk (w : W) (e : ERef) (i : Ins) : (w.consume e i).clk = w.clk :=
  (w.consume_sameRegions e i).clk.trans (congrArg Prod.fst (w.acquireBy_fabric e i))

end Sys2Proof.Machine
end

section
/-! PROOFS. Element instructions on data (10_vector_elements.md, 11_lanes_functions_switches.md): what the shared forms of a meaning do for an element that
fires; from them O15 and O19. -/

namespace Sys2Proof.Machine

/-! ## Lane-wise instructions -/

/-- A lane-wise instruction on data (R155): the operation on the operands, with the LFSR where its mode is SR. -/
theorem Fires.vecOp_eq {s : State} {e : ERef} {x : Elem} {u : Uses} {i : Ins} (h : Fires s e x u i) (hn : i.anyNull = false) (fmt mode : Nat) (sr : Bool) (lat : Nat)
    (op : Nat → ElemOp) : vecOp s fmt mode sr u lat op =
      .next (s.sends e i lat (laneWise (fmtWidth fmt) (sr && mode == 5) x.lfsr (x.operands u i) (op (fmtWidth fmt)))) := by
  unfold vecOp
  rw [h.runElem_eq, h.fire_eq hn]
  rfl

/-- A floating-point instruction on data: the row's operation in the format and under the mode of the word. -/
theorem Fires.fpOp_eq {s : State} {e : ERef} {x : Elem} {u : Uses} {i : Ins} (h : Fires s e x u i) (hn : i.anyNull = false) (f : EFields) (lat : Nat) (rnd : Bool)
    (op : Fmt → Nat → ElemOp) : fpOp s f u lat rnd op = .next (s.sends e i lat (laneWise (fmtWidth f.fmt.toNat) (rnd && f.mod.toNat == 5) x.lfsr (x.operands u i)
      (op (Fmt.ofCode f.fmt.toNat) f.mod.toNat))) := h.vecOp_eq hn _ _ _ _ _

/-- Settles O15: each row is the lane-wise form with the row's own operation. -/
theorem vectorFloat : Obligations.VectorFloat := by
  unfold Obligations.VectorFloat
  simp only [List.forall_mem_cons, List.not_mem_nil, false_implies, implies_true, and_true]
  refine ⟨?_, ?_, ?_, ?_, ?_, ?_, ?_, ?_, ?_, ?_, ?_, ?_, ?_, ?_, ?_, ?_, fun f s e x i h hn => ?rcomb⟩
  case rcomb =>
    show execRcomb f s = _
    exact h.vecOp_eq hn f.fmt.toNat f.mod.toNat true 3 _
  all_goals
    intro f s e x i h hn
    dsimp only [exec, execFadd, execFsub, execFmul, execFma, execFms, execFnma, execFmin, execFmax, execFabs, execFneg, execFcmp, execFclass, execRcp, execRsq,
      execFscale, execFrint]
    exact h.fpOp_eq hn f _ _ _

/-! ## Switches that keep an order (R197, R199) -/

/-- The position in the pattern of a + b units after a token, by cases of the token's marks. -/
theorem unitStep_eq (a b count : Nat) (opened : Bool) (t : Token) : unitStep a b count opened t =
    if t.null then (if opened then (count, true) else ((count + 1) % (a + b), false))
    else if t.tail then ((count + 1) % (a + b), false) else if t.head || opened then (count, true) else ((count + 1) % (a + b), false) := by
  unfold unitStep
  cases t.head <;> rfl

theorem Fires.carry_eq {s : State} {e : ERef} {x : Elem} {i : Ins} (f : EFields) (h : Fires s e x { l := x.armed, r := !x.armed } i) :
    exec (.carry f) s = .next (s.fired e i fun w => (w.setElem e fun x => { x with armed := false }).flyBoth e 1 (if x.armed then i.l else i.r) 0) := by
  show execCarry f s = _
  unfold execCarry
  rw [h.runElem_eq, h.elem_eq, h.fireAny_eq]
theorem Fires.split_eq {s : State} {e : ERef} {x : Elem} {i : Ins} (f : EFields) (h : Fires s e x {} i) :
    exec (.split f) s = .next (s.fired e i fun w =>
      let n := unitStep f.lo4 f.hi4 x.count.toNat x.opened i.l
      let w := w.setElem e fun x => { x with count := BitVec.ofNat 32 n.1, opened := n.2 }
      if x.count.toNat < f.lo4 then w.fly e 1 (some i.l) none 0 else w.fly e 1 none (some i.l) 0) := by
  show execSplit f s = _
  unfold execSplit
  rw [h.runElem_eq, useL, h.fireAny_eq]
theorem Fires.omerge_eq {s : State} {e : ERef} {x : Elem} {i : Ins} (f : EFields)
    (h : Fires s e x { l := decide (x.count.toNat < f.lo4), r := !decide (x.count.toNat < f.lo4) } i) :
    exec (.omerge f) s = .next (s.fired e i fun w =>
      let t := if x.count.toNat < f.lo4 then i.l else i.r
      let n := unitStep f.lo4 f.hi4 x.count.toNat x.opened t
      (w.setElem e fun x => { x with count := BitVec.ofNat 32 n.1, opened := n.2 }).flyBoth e 1 t 0) := by
  show execOmerge f s = _
  unfold execOmerge
  rw [h.runElem_eq, h.elem_eq, h.fireAny_eq]
  simp only [decide_eq_true_eq]

/-- Settles O19: each switch fires on the input whose turn it is, and its position is `unitStep`'s. -/
theorem orderedSwitches : Obligations.OrderedSwitches := by
  unfold Obligations.OrderedSwitches
  rintro f s e x i t n rfl
  simp only [← unitStep_eq]
  refine ⟨?_, ?_, ?_, ?_, ?_, ?_⟩
  · rintro rfl ha h
    have hc := Fires.carry_eq (x := x) f (by rw [ha]; exact h)
    rw [hc, ha, if_pos rfl]
  · rintro rfl ha h
    have hc := Fires.carry_eq (x := x) f (by rw [ha]; exact h)
    rw [hc, ha, if_neg (by simp)]
  · rintro rfl h hc
    rw [h.split_eq]
    simp only [hc, if_true]
  · rintro rfl h hc
    rw [h.split_eq]
    simp only [Nat.not_lt.2 hc, if_false]
  · rintro rfl h hc
    rw [Fires.omerge_eq (x := x) f (by simpa only [hc, decide_true, Bool.not_true] using h)]
    simp only [hc, if_true]
  · rintro rfl h hc
    have hc := Nat.not_lt.2 hc
    rw [Fires.omerge_eq (x := x) f (by simpa only [hc, decide_false, Bool.not_false] using h)]
    simp only [hc, if_false]

end Sys2Proof.Machine
end

section
/-! PROOFS. Function cells and whole tokens (11_lanes_functions_switches.md R189 to R200); from them O18. -/

namespace Sys2Proof.Machine

/-! ## An element that fires, and what it holds afterwards -/

/-- What a firing with no null at a used position leaves. -/
theorem Fires.run_fire {s : State} {e : ERef} {x : Elem} {u : Uses} {i : Ins} (h : Fires s e x u i) (hn : i.anyNull = false) (lat : Nat)
    (f : ERef → Elem → Ins → W → W) : runElem s (fun e w => w.fire e u lat (f e)) = .next (s.fired e i (f e x i)) := by rw [h.runElem_eq, h.fire_eq hn]
/-- What a firing with a null at a used position leaves (R21). -/
theorem Fires.run_null {s : State} {e : ERef} {x : Elem} {u : Uses} {i : Ins} (h : Fires s e x u i) (hn : i.anyNull = true) (lat : Nat)
    (f : ERef → Elem → Ins → W → W) : runElem s (fun e w => w.fire e u lat (f e)) = .next (s.fired e i fun w => w.flyBoth e lat i.nullOut 0) := by
  rw [h.runElem_eq, h.fire_null hn]
/-- The same as `run_fire` of a firing whatever the tokens. -/
theorem Fires.run_fireAny {s : State} {e : ERef} {x : Elem} {u : Uses} {i : Ins} (h : Fires s e x u i) (f : ERef → Elem → Ins → W → W) :
    runElem s (fun e w => w.fireAny e u (f e)) = .next (s.fired e i (f e x i)) := by rw [h.runElem_eq, h.fireAny_eq]

/-- An element whose change f acts on the record that has consumed, in its region and at the same time: the record that the firing leaves. -/
theorem Fires.fired_elem_at {s : State} {e : ERef} {x : Elem} {u : Uses} {i : Ins} {g : Region} (h : Fires s e x u i) (hg : tget s.m.regions e.r = some g) {f : W → W}
    {P : Elem → Prop} (hf : ∀ w cells elems ref, w.clk = s.clk → w.Has e { g with cells := cells, elems := elems } { x.consumed i s.clk.now with leafRef := ref } →
      ∃ g' y, (f w).Has e g' y ∧ P y) : P ((s.fired e i f).elem e) := by
  obtain ⟨cells, elems, ref, hc⟩ := h.consume_has hg
  obtain ⟨g', y, hy, hp⟩ := hf _ _ _ _ ((W.of s).consume_clk e i) hc
  rw [State.fired, hy.state_elem]
  exact hp
/-- The same where neither its region nor the time matters. -/
theorem Fires.fired_elem {s : State} {e : ERef} {x : Elem} {u : Uses} {i : Ins} (h : Fires s e x u i) {f : W → W} {P : Elem → Prop}
    (hf : ∀ w g ref, w.Has e g { x.consumed i s.clk.now with leafRef := ref } → ∃ g' y, (f w).Has e g' y ∧ P y) : P ((s.fired e i f).elem e) := by
  obtain ⟨g, hg, -⟩ := h.reg
  exact h.fired_elem_at hg fun w _ _ ref _ hw => hf w _ ref hw

/-! ## Function cells -/

/-- Consuming leaves the table stores alone. -/
theorem Fires.consume_pwlEntry {s : State} {e : ERef} {x : Elem} {u : Uses} {i : Ins} (h : Fires s e x u i) :
    ((W.of s).consume e i).pwlEntry e = (W.of s).pwlEntry e := by
  obtain ⟨g, hg, hx⟩ := h.reg
  obtain ⟨cells, elems, ref, hc⟩ := h.consume_has hg
  have hs : (W.of s).Has e g x := ⟨hg, hx⟩
  unfold W.pwlEntry
  rw [hc.region_eq, hs.region_eq]

theorem Fires.pwl_eq {s : State} {e : ERef} {x : Elem} {i : Ins} (h : Fires s e x {} i) (hn : i.anyNull = false) (f : EFields) :
    exec (.pwl f) s = .next (s.sends e i 2 (laneWise (fmtWidth f.fmt.toNat) (f.mod == 5) x.lfsr [i.l.policy x.empty x.k]
      fun l r => pwl f x.k ((W.of s).pwlEntry e (f.imm.toNat % 2)) (l.getD 0 0) r)) := by
  show execPwl f s = _
  unfold execPwl
  rw [useL, h.run_fire hn]
  simp only [State.sends, State.fired, h.consume_pwlEntry]
  rfl
theorem Fires.rred_eq {s : State} {e : ERef} {x : Elem} {i : Ins} (h : Fires s e x {} i) (hn : i.anyNull = false) (f : EFields) :
    exec (.rred f) s = .next (s.fired e i fun w =>
      (w.setElem e fun x' => { x' with lfsr := (laneWise (fmtWidth f.fmt.toNat) (f.mod == 5) x.lfsr [i.l.policy x.empty x.k] fun l _ =>
        ((rred f.fmt.toNat (f.imm.toNat % 2) (l.getD 0 0)).1, 0)).2.2 }).fly e 2
        (some (i.mark (laneWise (fmtWidth f.fmt.toNat) (f.mod == 5) x.lfsr [i.l.policy x.empty x.k] fun l _ =>
          ((rred f.fmt.toNat (f.imm.toNat % 2) (l.getD 0 0)).1, 0)).1))
        (some (i.mark (laneWise (fmtWidth f.fmt.toNat) false x.lfsr [i.l.policy x.empty x.k] fun l _ =>
          ((rred f.fmt.toNat (f.imm.toNat % 2) (l.getD 0 0)).2, 0)).1)) 0) := by
  show execRred f s = _
  unfold execRred
  rw [useL, h.run_fire hn]
  rfl

/-! ## Whole-token predicates (R193) -/

theorem predicate_eq (t : Token) : t.predicate = decide (t.emptyAt 0 = false ∧ t.lane 0 ≠ 0) := by
  unfold Token.predicate
  rw [Bool.eq_iff_iff]
  simp

theorem Fires.nullif_eq {s : State} {e : ERef} {x : Elem} {i : Ins} (h : Fires s e x { p := true } i) (hn : i.anyNull = false) (f : EFields) :
    exec (.nullif f) s = .next (s.fired e i fun w => w.flyBoth e 1 (if i.p.predicate != f.imm.getLsbD 0 then i.nullOut else i.mark i.l) 0) := by
  show execNullif f s = _
  unfold execNullif
  rw [useLP, h.run_fire hn]
theorem Fires.drop_eq {s : State} {e : ERef} {x : Elem} {i : Ins} (h : Fires s e x { p := true } i) (hn : i.anyNull = false) (f : EFields) :
    exec (.drop f) s = .next (s.fired e i fun w => if i.p.predicate != f.imm.getLsbD 0 then i.toks.foldl (fun w t => w.trace e (hopOf w e.key t) true) w
      else w.flyBoth e 1 (i.mark i.l) 0) := by
  show execDrop f s = _
  unfold execDrop
  rw [useLP, h.run_fire hn]
theorem Fires.steer_eq {s : State} {e : ERef} {x : Elem} {i : Ins} (h : Fires s e x { p := true } i) (hn : i.anyNull = false) (f : EFields) :
    exec (.steer f) s = .next (s.fired e i fun w => if i.p.predicate then w.fly e 1 (some (i.mark i.l)) (some { null := true, rel := i.rel, last := i.last }) 0
      else w.fly e 1 (some { null := true, rel := i.rel, last := i.last }) (some (i.mark i.l)) 0) := by
  show execSteer f s = _
  unfold execSteer
  rw [useLP, h.run_fire hn]
  rfl
theorem Fires.gate_eq {s : State} {e : ERef} {x : Elem} {i : Ins} (h : Fires s e x { p := true } i) (hn : i.anyNull = false) (f : EFields) :
    exec (.gate f) s = .next (s.fired e i fun w => w.flyBoth e 1 (i.mark i.l) 0) := by
  show execGate f s = _
  unfold execGate
  rw [useLP, h.run_fire hn]
theorem Fires.join_eq {s : State} {e : ERef} {x : Elem} {i : Ins} (h : Fires s e x { r := true } i) (hn : i.anyNull = false) (f : EFields) :
    exec (.join f) s = .next (s.fired e i fun w => w.flyBoth e 1
      (i.mark (laneToken fun l => if l < f.lo4 then i.l.laneOpt l else i.r.laneOpt (l - f.lo4))) 0) := by
  show execJoin f s = _
  unfold execJoin
  rw [useLR, h.run_fire hn]
theorem Fires.merge_eq {s : State} {e : ERef} {x : Elem} {i : Ins} (h : Fires s e x { r := true } i) (f : EFields) :
    exec (.merge f) s = .next (s.fired e i fun w =>
      if !i.l.null && !i.r.null then w.raiseElem e 0x250 0 (some i.l)
      else if i.l.null && i.r.null then w.flyBoth e 1 i.nullOut 0
      else w.flyBoth e 1 { (if i.l.null then i.r else i.l) with rel := i.rel, last := i.last, log := i.log } 0) := by
  show execMerge f s = _
  unfold execMerge
  rw [useLR, h.run_fireAny]
  rfl

/-! ## COUNT (R194) -/

/-- What COUNT adds for a token: one, or its full lanes under the empty policy. -/
def Elem.counts (x : Elem) (f : EFields) (l : Token) : Nat :=
  if f.imm.getLsbD 0 then ((List.range 16).filter fun j => !(l.policy x.empty x.k).emptyAt j).length else 1
theorem Fires.count_eq {s : State} {e : ERef} {x : Elem} {i : Ins} (h : Fires s e x {} i) (f : EFields) :
    exec (.count f) s = .next (s.fired e i fun w =>
      if i.l.null then w.flyBoth e 1 i.nullOut 0
      else if i.l.tail then (w.setElem e fun x => { x with count := 0, buf := [] }).flyBoth e 1
        { (lowLanes [(x.count + BitVec.ofNat 32 (x.counts f i.l)).toNat]).withMarks (keepMarks x.buf i.l) with head := true, tail := true } 0
      else w.setElem e fun y => { y with count := x.count + BitVec.ofNat 32 (x.counts f i.l), buf := keepMarks x.buf i.l }) := by
  show execCount f s = _
  unfold execCount
  rw [useL, h.run_fireAny]
  rfl
/-- A token with one low lane. -/
theorem lowLanes_one (c : W32) : (lowLanes [c.toNat]).data = c.zeroExtend 512 := by
  apply BitVec.eq_of_toNat_eq
  have := c.isLt
  simp only [lowLanes, packElems, BitVec.toNat_ofNat, BitVec.truncate_eq_setWidth, BitVec.toNat_setWidth]
  omega

theorem Fires.count_more {s : State} {e : ERef} {x : Elem} {i : Ins} (h : Fires s e x {} i) (f : EFields) (hn : i.l.null = false) (ht : i.l.tail = false) :
    ∃ t, exec (.count f) s = .next t ∧ (t.elem e).count = x.count + BitVec.ofNat 32 (x.counts f i.l) ∧ (t.elem e).flights = x.flights := by
  refine ⟨_, h.count_eq f, ?_⟩
  refine h.fired_elem (P := fun y => y.count = x.count + BitVec.ofNat 32 (x.counts f i.l) ∧ y.flights = x.flights) fun w g ref hw => ?_
  simp only [hn, ht, Bool.false_eq_true, if_false]
  exact ⟨_, _, hw.setElem _, rfl, rfl⟩
theorem Fires.count_last {s : State} {e : ERef} {x : Elem} {i : Ins} (h : Fires s e x {} i) (f : EFields) (hn : i.l.null = false) (ht : i.l.tail = true) :
    ∃ t y o, exec (.count f) s = .next t ∧ (t.elem e).count = 0 ∧ (t.elem e).flights = x.flights ++ [y] ∧ y.a = some o ∧ y.b = some o ∧
      o.data = (x.count + BitVec.ofNat 32 (x.counts f i.l)).zeroExtend 512 ∧ o.empty = 0 ∧ o.null = false ∧ o.head = true ∧ o.tail = true := by
  have key := h.fired_elem (f := fun w => if i.l.null then w.flyBoth e 1 i.nullOut 0
      else if i.l.tail then (w.setElem e fun x => { x with count := 0, buf := [] }).flyBoth e 1
        { (lowLanes [(x.count + BitVec.ofNat 32 (x.counts f i.l)).toNat]).withMarks (keepMarks x.buf i.l) with head := true, tail := true } 0
      else w.setElem e fun y => { y with count := x.count + BitVec.ofNat 32 (x.counts f i.l), buf := keepMarks x.buf i.l })
    (P := fun z => ∃ y o, z.count = 0 ∧ z.flights = x.flights ++ [y] ∧ y.a = some o ∧ y.b = some o ∧
      o.data = (x.count + BitVec.ofNat 32 (x.counts f i.l)).zeroExtend 512 ∧ o.empty = 0 ∧ o.null = false ∧ o.head = true ∧ o.tail = true) fun w g ref hw => by
    simp only [hn, ht, Bool.false_eq_true, if_false, if_true]
    refine ⟨_, _, (hw.setElem _).flyBoth _ _ _, _, _, rfl, rfl, rfl, rfl, ?_⟩
    simp only [hopOf_data, hopOf_empty, hopOf_null, hopOf_head, hopOf_tail, and_true]
    exact ⟨lowLanes_one _, rfl, rfl⟩
  obtain ⟨y, o, hy⟩ := key
  exact ⟨_, y, o, h.count_eq f, hy⟩

/-- Settles O18: each instruction's firing by the equations above; COUNT by the record that its firing leaves. -/
theorem functionsAndTokens : Obligations.FunctionsAndTokens := by
  unfold Obligations.FunctionsAndTokens
  refine ⟨?functions, ?predicates, ?count, ?switches⟩
  case functions =>
    rintro f s e x i t w' h hn rfl rfl
    exact ⟨h.pwl_eq hn f, h.rred_eq hn f⟩
  case predicates =>
    intro f s e x i p h hn hp
    rw [← predicate_eq] at hp
    refine ⟨fun hne => ?_, fun heq => ?_, fun ht => ?_, fun hf => ?_, h.gate_eq hn f⟩
    · have hb : (i.p.predicate != f.imm.getLsbD 0) = true := by rw [← hp]; exact bne_iff_ne.2 hne
      exact ⟨by simp only [h.nullif_eq hn, hb, if_true], by simp only [h.drop_eq hn, hb, if_true]⟩
    · have hb : (i.p.predicate != f.imm.getLsbD 0) = false := by rw [← hp, heq]; exact bne_self_eq_false _
      exact ⟨by simp only [h.nullif_eq hn, hb, Bool.false_eq_true, if_false], by simp only [h.drop_eq hn, hb, Bool.false_eq_true, if_false]⟩
    · simp [h.steer_eq hn, ← hp, ht]
    · simp [h.steer_eq hn, ← hp, hf]
  case count =>
    rintro f s e x i c h rfl
    refine ⟨fun hnull => ?_, h.count_more f, h.count_last f⟩
    simp [h.count_eq, hnull]
  case switches =>
    intro f s e x i h
    refine ⟨fun hl hr => ?_, fun hl hr => ?_, fun hl hr => ?_, fun hl hr => ?_, fun hn => h.join_eq hn f⟩ <;> simp [h.merge_eq, hl, hr]

end Sys2Proof.Machine
end

section
/-! PROOFS. Lane movers, reductions and LPACK (11_lanes_functions_switches.md R184 to R188); from them O17. -/

namespace Sys2Proof.Machine

/-! ## Movers, LMASK, reductions -/

theorem Fires.moveOp_eq {s : State} {e : ERef} {x : Elem} {u : Uses} {i : Ins} (h : Fires s e x u i) (hn : i.anyNull = false)
    (g : Nat → Token → Token → Nat → Option Nat) : moveOp s u g =
      .next (s.fired e i fun w => w.flyBoth e 1 (i.mark (laneToken (g x.k.toNat (i.l.policy x.empty x.k) (i.r.policy x.empty x.k)))) 0) := by
  unfold moveOp
  rw [h.run_fire hn]
theorem Fires.lmask_eq {s : State} {e : ERef} {x : Elem} {i : Ins} (h : Fires s e x { r := true } i) (hn : i.anyNull = false) (f : EFields) :
    exec (.lmask f) s = .next (s.fired e i fun w => w.flyBoth e 1 (i.mark (laneToken fun l =>
      if !((!i.r.emptyAt l && i.r.lane l != 0) != f.imm.getLsbD 0) then none else if f.imm.getLsbD 1 then some ((i.l.laneOpt l).getD 0) else i.l.laneOpt l)) 0) := by
  show execLmask f s = _
  unfold execLmask
  rw [useLR, h.run_fire hn]

@[simp] theorem Token.elems_length (t : Token) (w : Nat) : (t.elems w).length = 16 * (32 / w) := by simp [Token.elems]

/-- A reduction (R185): the tree of pairs over the operand's elements, in every element of the result. -/
theorem Fires.reduceOp_eq {s : State} {e : ERef} {x : Elem} {i : Ins} (h : Fires s e x {} i) (hn : i.anyNull = false) (f : EFields) (zero : Bool)
    (op : Nat → Nat → Nat × Flags) {t : Token} {w' : Nat} {gone : Bool} {r : List (Option Nat) × Flags} (ht : t = i.l.policy x.empty x.k)
    (hw : w' = fmtWidth f.fmt.toNat) (hg : gone = (t.empty == 0xFFFF || (x.empty == 0 && t.empty != 0)))
    (hr : r = treeFold op (Nat.log2 (16 * (32 / w'))) ((t.elems w').map fun o => if zero then some (o.getD 0) else o)) :
    reduceOp s f zero op = .next (s.fired e i fun w => w.flyBoth e 2
      (i.mark (if gone then { empty := 0xFFFF }
        else { data := BitVec.ofNat 512 (packElems w' (List.replicate (16 * (32 / w')) ((r.1.headD none).getD 0))) })) (if gone then 0 else r.2)) := by
  subst ht hw hg hr
  unfold reduceOp
  rw [useL, h.run_fire hn]
  simp only [List.length_map, Token.elems_length]

/-- LSCAN (R186): the doubling steps; a result lane is empty where it depends on an empty one, or has no full one. -/
theorem Fires.lscan_eq {s : State} {e : ERef} {x : Elem} {i : Ins} (h : Fires s e x {} i) (hn : i.anyNull = false) (f : EFields) {t : Token} {w' : Nat}
    {hole : Nat → Bool} {r : List Nat × Flags} (ht : t = i.l.policy x.empty x.k) (hw : w' = fmtWidth f.fmt.toNat)
    (hh : hole = fun l => if x.empty = 0 then (List.range (l + 1)).any t.emptyAt else (List.range (l + 1)).all t.emptyAt)
    (hr : r = scanSteps (sumStep f) (fun j => !hole (j / (32 / w'))) (Nat.log2 (16 * (32 / w'))) 1 ((t.elems w').map (·.getD 0))) :
    exec (.lscan f) s = .next (s.fired e i fun w => w.flyBoth e 2
      (i.mark (laneToken ({ data := BitVec.ofNat 512 (packElems w' r.1), empty := mask16 hole } : Token).laneOpt)) r.2) := by
  subst ht hw hh hr
  show execLscan f s = _
  unfold execLscan
  rw [useL, h.run_fire hn]
  simp only [List.length_map, Token.elems_length]

/-! ## LPACK (R188) -/

/-- What LPACK sends on a data token: its results with the marks of the tokens that they were made from. -/
def Elem.lpackSent (x : Elem) (f : EFields) (i : Ins) : List Token :=
  ((List.range (x.lpack f i.l).1.length).zip (x.lpack f i.l).1).map fun (j, o) =>
    let o := o.withMarks (keepMarks x.buf i.l)
    { o with head := x.headDue && j == 0, tail := i.l.tail && j + 1 == (x.lpack f i.l).1.length, last := o.last && j + 1 == (x.lpack f i.l).1.length }
/-- What LPACK keeps of itself after a data token. -/
def Elem.lpackKept (x : Elem) (f : EFields) (i : Ins) (y : Elem) : Elem :=
  { y with
    pack := if i.l.tail then [] else (x.lpack f i.l).2, headDue := i.l.tail || (y.headDue && (x.lpack f i.l).1.length == 0)
    buf := if (x.lpack f i.l).1.length = 0 then keepMarks x.buf i.l
      else if i.l.tail || (x.lpack f i.l).2.isEmpty then [] else (keepMarks [] i.l).map fun m => { m with last := false } }

/-- LPACK fires when no other result holds the edges on which what it sends lands (R18). -/
theorem Fires.lpack_eq {s : State} {e : ERef} {x : Elem} {i : Ins} (h : Fires s e x {} i) (f : EFields)
    (hu : x.unreserved ((W.of s).edgeOf (s.region e.r) e.cell + 1 + x.pass) (if i.l.null then 1 else (x.lpack f i.l).1.length) = true) :
    exec (.lpack f) s = .next (s.fired e i fun w =>
      if i.l.null then w.flyBoth e 1 i.nullOut 0
      else ((List.range (x.lpack f i.l).1.length).zip (x.lpackSent f i)).foldl (fun w (j, o) => w.fly e (1 + j) (some o) (some o) 0)
        (w.setElem e (x.lpackKept f i))) := by
  show execLpack f s = _
  unfold execLpack
  rw [useL, h.runElem_eq, h.fireAny_need _ _ hu]
  rfl

/-- The elements that LPACK holds once it has taken in a token. -/
def Elem.packed (x : Elem) (f : EFields) (l : Token) : List Nat :=
  x.pack ++ ((List.range 16).flatMap fun j =>
    if (l.policy x.empty x.k).emptyAt j then [] else (List.range (min f.imm.toNat (32 / fmtWidth f.fmt.toNat))).map fun k =>
      elemAt (fmtWidth f.fmt.toNat) (l.policy x.empty x.k).data (j * (32 / fmtWidth f.fmt.toNat) + k))
/-- A token that LPACK makes of elements, without marks. -/
def packToken (f : EFields) (l : List Nat) : Token :=
  { data := BitVec.ofNat 512 (packElems (fmtWidth f.fmt.toNat) l), empty := mask16 fun j => decide (l.length ≤ 32 / fmtWidth f.fmt.toNat * j) }

/-- What LPACK sends and keeps of a data token, by its buffer's fill. -/
theorem Elem.lpack_eq (x : Elem) (f : EFields) (l : Token) {cap : Nat} (hc : cap = 16 * (32 / fmtWidth f.fmt.toNat)) : x.lpack f l =
    (let full := if cap ≤ (x.packed f l).length then [packToken f ((x.packed f l).take cap)] else []
     let rest := if cap ≤ (x.packed f l).length then (x.packed f l).drop cap else x.packed f l
     (if l.tail then (if rest ≠ [] then full ++ [packToken f rest] else if full ≠ [] then full else [packToken f []]) else full, rest)) := by
  subst hc
  rfl
theorem Elem.lpack_more (x : Elem) (f : EFields) (l : Token) (ht : l.tail = false) (hl : (x.packed f l).length < 16 * (32 / fmtWidth f.fmt.toNat)) :
    x.lpack f l = ([], x.packed f l) := by
  simp only [x.lpack_eq f l rfl, ht, Nat.not_le.2 hl, if_false, Bool.false_eq_true]
theorem Elem.lpack_full (x : Elem) (f : EFields) (l : Token) (ht : l.tail = false) (hl : 16 * (32 / fmtWidth f.fmt.toNat) ≤ (x.packed f l).length) :
    x.lpack f l = ([packToken f ((x.packed f l).take (16 * (32 / fmtWidth f.fmt.toNat)))], (x.packed f l).drop (16 * (32 / fmtWidth f.fmt.toNat))) := by
  simp only [x.lpack_eq f l rfl, ht, hl, if_true, if_false, Bool.false_eq_true]
/-- A token with a tail sends at least one result. -/
theorem Elem.lpack_flush (x : Elem) (f : EFields) (l : Token) (ht : l.tail = true) : 0 < (x.lpack f l).1.length := by
  simp only [x.lpack_eq f l rfl, ht, if_true]
  generalize (if 16 * (32 / fmtWidth f.fmt.toNat) ≤ (x.packed f l).length then [packToken f _] else []) = full
  generalize (if 16 * (32 / fmtWidth f.fmt.toNat) ≤ (x.packed f l).length then _ else x.packed f l) = rest
  by_cases hr : rest = []
  · by_cases hf : full = []
    · simp [hr, hf]
    · simpa [hr, hf] using List.length_pos_iff.2 hf
  · simp [hr]
theorem Elem.lpackSent_length (x : Elem) (f : EFields) (i : Ins) : (x.lpackSent f i).length = (x.lpack f i.l).1.length := by simp [Elem.lpackSent]

section Data

variable {s : State} {e : ERef} {x : Elem} {i : Ins} (h : Fires s e x {} i) (f : EFields) (hn : i.l.null = false)
  (hu : x.unreserved ((W.of s).edgeOf (s.region e.r) e.cell + 1 + x.pass) (if i.l.null then 1 else (x.lpack f i.l).1.length) = true)
include h hn hu

/-- LPACK on a data token: its buffer, and as many results more in its output stage as it sends. -/
theorem Fires.lpack_data : ∃ t fs, exec (.lpack f) s = .next t ∧ fs.length = (x.lpack f i.l).1.length ∧ (t.elem e).flights = x.flights ++ fs ∧
    (t.elem e).pack = (x.lpackKept f i x).pack ∧ (t.elem e).headDue = (x.lpackKept f i x).headDue := by
  rw [h.lpack_eq f hu]
  simp only [hn, Bool.false_eq_true, if_false]
  obtain ⟨fs, hfs⟩ := h.fired_elem (f := fun w => ((List.range (x.lpack f i.l).1.length).zip (x.lpackSent f i)).foldl
      (fun w (j, o) => w.fly e (1 + j) (some o) (some o) 0) (w.setElem e (x.lpackKept f i)))
    (P := fun y => ∃ fs, fs.length = (x.lpack f i.l).1.length ∧ y.flights = x.flights ++ fs ∧ y.pack = (x.lpackKept f i x).pack ∧
      y.headDue = (x.lpackKept f i x).headDue) fun w g ref hw => by
    obtain ⟨g', hf⟩ := (hw.setElem (x.lpackKept f i)).fly_list (fun a => 1 + a.1) (fun a => a.2) (fun _ => 0)
      ((List.range (x.lpack f i.l).1.length).zip (x.lpackSent f i))
    exact ⟨g', _, hf, _, by rw [List.length_map, List.length_zip, List.length_range, x.lpackSent_length, Nat.min_self], rfl, rfl, rfl⟩
  exact ⟨_, fs, rfl, hfs⟩

/-- A full buffer goes out as one token. -/
theorem Fires.lpack_sendsFull (ht : i.l.tail = false) (hl : 16 * (32 / fmtWidth f.fmt.toNat) ≤ (x.packed f i.l).length) :
    ∃ t y o, exec (.lpack f) s = .next t ∧ (t.elem e).pack = (x.packed f i.l).drop (16 * (32 / fmtWidth f.fmt.toNat)) ∧
      (t.elem e).flights = x.flights ++ [y] ∧ y.a = some o ∧ y.b = some o ∧
      o.data = BitVec.ofNat 512 (packElems (fmtWidth f.fmt.toNat) ((x.packed f i.l).take (16 * (32 / fmtWidth f.fmt.toNat)))) ∧
      o.head = x.headDue ∧ o.tail = false ∧ (t.elem e).headDue = false := by
  rw [h.lpack_eq f hu]
  have full := x.lpack_full f i.l ht hl
  have one : (x.lpack f i.l).1.length = 1 := by rw [full]; rfl
  have sent : x.lpackSent f i = [{ ((packToken f ((x.packed f i.l).take (16 * (32 / fmtWidth f.fmt.toNat)))).withMarks (keepMarks x.buf i.l)) with
      head := x.headDue, tail := false }] := by
    simp [Elem.lpackSent, full, ht]
  simp only [hn, Bool.false_eq_true, if_false, one, sent]
  obtain ⟨y, o, hyo⟩ := h.fired_elem (f := fun w => ((List.range 1).zip [{ ((packToken f ((x.packed f i.l).take (16 * (32 / fmtWidth f.fmt.toNat)))).withMarks
      (keepMarks x.buf i.l)) with head := x.headDue, tail := false }]).foldl (fun w (j, o) => w.fly e (1 + j) (some o) (some o) 0) (w.setElem e (x.lpackKept f i)))
    (P := fun z => ∃ y o, z.pack = (x.packed f i.l).drop (16 * (32 / fmtWidth f.fmt.toNat)) ∧ z.flights = x.flights ++ [y] ∧ y.a = some o ∧ y.b = some o ∧
      o.data = BitVec.ofNat 512 (packElems (fmtWidth f.fmt.toNat) ((x.packed f i.l).take (16 * (32 / fmtWidth f.fmt.toNat)))) ∧
      o.head = x.headDue ∧ o.tail = false ∧ z.headDue = false) fun w g ref hw => by
    refine ⟨_, _, (hw.setElem (x.lpackKept f i)).fly 1 _ _ _, _, _, ?_, rfl, rfl, rfl, ?_⟩
    · simp [Elem.lpackKept, full, ht]
    · simp [Elem.lpackKept, one, ht, packToken, Token.withMarks]
  exact ⟨_, y, o, rfl, hyo⟩

end Data

/-- Settles O17: movers and reductions by their shared forms; LPACK by the record that its firing leaves, as its buffer is filling, full or flushed. -/
theorem laneInstructions : Obligations.LaneInstructions := by
  unfold Obligations.LaneInstructions
  refine ⟨⟨?movers, ?lmask⟩, ?reductions, ?lpack⟩
  case movers =>
    simp only [List.forall_mem_cons, List.not_mem_nil, false_implies, implies_true, and_true]
    refine ⟨?_, ?_, ?_, ?_⟩
    all_goals
      intro f s e x i h hn
      dsimp only [exec, execLshup, execLshdn, execLbcst, execLperm]
      exact h.moveOp_eq hn _
  case lmask =>
    rintro f s e x i sel h hn rfl
    rw [h.lmask_eq hn]
    simp only [Bool.not_eq_true']
  case reductions =>
    intro f s e x i t w' gone h hn ht hw hg
    refine ⟨?_, fun hole r hh hr => h.lscan_eq hn f ht hw hh hr⟩
    simp only [List.forall_mem_cons, List.not_mem_nil, false_implies, implies_true, and_true]
    exact ⟨fun r hr => h.reduceOp_eq hn f _ _ ht hw hg hr, fun r hr => h.reduceOp_eq hn f _ _ ht hw hg hr, fun r hr => h.reduceOp_eq hn f _ _ ht hw hg hr⟩
  case lpack =>
    rintro f s e x i t w' n all h rfl rfl rfl hall hu
    obtain rfl : all = x.packed f i.l := hall
    refine ⟨fun hnull => ?_, fun hn ht hl => ?_, fun hn ht hl => h.lpack_sendsFull f hn hu ht hl, fun hn ht => ?_⟩
    · rw [h.lpack_eq f hu]
      simp only [hnull, if_true]
    · obtain ⟨t, fs, he, hfs, hfl, hp, hd⟩ := h.lpack_data f hn hu
      have more := x.lpack_more f i.l ht hl
      obtain rfl : fs = [] := by simpa [more] using hfs
      exact ⟨t, he, by simp [hp, Elem.lpackKept, ht, more], by simpa using hfl, by simp [hd, Elem.lpackKept, ht, more]⟩
    · obtain ⟨t, fs, he, hfs, hfl, hp, hd⟩ := h.lpack_data f hn hu
      have := x.lpack_flush f i.l ht
      exact ⟨t, he, by simp [hp, Elem.lpackKept, ht], by simp [hd, Elem.lpackKept, ht], by rw [hfl, List.length_append]; omega⟩

end Sys2Proof.Machine
end

section
/-! PROOFS. Conversions, quantisation over bursts and AMAX (11_lanes_functions_switches.md R178 to R183, 04_memory_spaces.md R77, R78); from them O16. -/

namespace Sys2Proof.Machine

/-! ## Lane by lane -/

theorem Fires.convOp_eq {s : State} {e : ERef} {x : Elem} {i : Ins} (h : Fires s e x {} i) (hn : i.anyNull = false) (src dst part mode : Nat) (sr : Bool) (lat : Nat)
    (op : ElemOp) : convOp s src dst part mode sr lat op = .next (s.sends e i lat (laneConvert (fmtWidth src) (fmtWidth dst) part (sr && mode == 5) x.lfsr
      (i.l.policy x.empty x.k) (i.l.policy x.empty x.k).emptyAt op)) := by
  unfold convOp
  rw [useL, h.run_fire hn]
  rfl
theorem Fires.qnt_eq {s : State} {e : ERef} {x : Elem} {i : Ins} (h : Fires s e x { r := true } i) (hn : i.anyNull = false) (f : EFields) :
    exec (.qnt f) s = .next (s.sends e i 3 (laneConvert (fmtWidth f.lo4) (fmtWidth f.fmt.toNat) 0 (f.mod == 5) x.lfsr (i.l.policy x.empty x.k)
      (fun j => (scaleLane x i.r).isNone || (i.l.policy x.empty x.k).emptyAt j) fun a r => qnt f.lo4 f.fmt.toNat f.mod.toNat r ((scaleLane x i.r).getD 0) (a.getD 0 0))) := by
  show execQnt f s = _
  unfold execQnt
  rw [useLR, h.run_fire hn]
  rfl
theorem Fires.dqnt_eq {s : State} {e : ERef} {x : Elem} {i : Ins} (h : Fires s e x { r := true } i) (hn : i.anyNull = false) (f : EFields) (hf : f.lo4 ≠ 5) :
    exec (.dqnt f) s = .next (s.sends e i 3 (laneConvert (fmtWidth f.lo4) (fmtWidth f.fmt.toNat) f.hi4 (f.mod == 5) x.lfsr (i.l.policy x.empty x.k)
      (fun j => (scaleLane x i.r).isNone || (i.l.policy x.empty x.k).emptyAt j) fun a r => dqnt f.fmt.toNat f.mod.toNat r
        (if f.lo4 = 8 then .num (Ex.ofInt (sextNat 8 (a.getD 0 0))) else Fv.ofCode (Fmt.ofCode f.lo4) (a.getD 0 0)) ⟨false, 1, 1⟩ ((scaleLane x i.r).getD 0))) := by
  show execDqnt f s = _
  unfold execDqnt
  rw [if_pos hf, useLR, h.run_fire hn]
  rfl

/-! ## AMAX (R183) -/

theorem mask16_const (b : Bool) : (mask16 fun _ => b) = if b then 0xFFFF else 0 := by cases b <;> decide
/-- No lane is full just when the empty mask is all ones. -/
theorem fullLanes_isEmpty (t : Token) : ((List.range 16).filter fun l => !t.emptyAt l).isEmpty = decide (t.empty = 0xFFFF) := by
  rw [Bool.eq_iff_iff, List.isEmpty_iff, List.filter_eq_nil_iff, decide_eq_true_eq]
  simp only [List.mem_range, Token.emptyAt, Bool.not_eq_true, Bool.not_eq_false']
  constructor
  · intro h
    refine BitVec.eq_of_getLsbD_eq fun j hj => ?_
    rw [h j hj]
    revert j
    decide
  · intro h l hl
    rw [h]
    revert l
    decide

theorem Fires.amax_eq {s : State} {e : ERef} {x : Elem} {i : Ins} (h : Fires s e x {} i) (hn : i.anyNull = false) (f : EFields) {t : Token} {fm : Fmt} {n v : Nat}
    {els : List Nat} {gone : Bool} (ht : t = i.l.policy x.empty x.k) (hfm : fm = Fmt.ofCode f.fmt.toNat) (hnl : n = perLane f.fmt.toNat)
    (he : els = ((List.range 16).filter fun l => !t.emptyAt l).flatMap fun l => (List.range n).map fun j => elemAt (32 / n) t.data (l * n + j))
    (hg : gone = decide (t.empty = 0xFFFF ∨ (x.empty = 0 ∧ t.empty ≠ 0)))
    (hv : v = if gone then 0 else if els.any (fun c => (Fv.ofCode fm c).isNan) then fm.nan
      else els.foldl (fun m c => if Fv.lt (Fv.ofCode fm m) (Fv.ofCode fm c).abs then c % 2 ^ (fm.eb + fm.mb) else m) 0) :
    exec (.amax f) s = .next (s.fired e i fun w => w.flyBoth e 2
      (i.mark { data := BitVec.ofNat 512 (packElems (32 / n) (List.replicate (16 * n) v)), empty := if gone then 0xFFFF else 0 })
      (Flags.when (els.any (fun c => (Fv.ofCode fm c).isSig) && !gone) Flags.nv)) := by
  have hgone : gone = (((List.range 16).filter fun l => !t.emptyAt l).isEmpty || (decide (x.empty = 0) && t.empty != 0)) := by
    rw [hg, fullLanes_isEmpty, Bool.decide_or, Bool.decide_and]
    simp only [bne, decide_not, Bool.beq_eq_decide_eq]
  subst ht hfm hnl he hv
  show execAmax f s = _
  unfold execAmax
  rw [useL, h.run_fire hn]
  simp only [← hgone, mask16_const, List.any_map, List.foldl_map, Function.comp_def]

/-! ## Consumers of bursts (R77, R78) -/

/-- What a consumer of bursts does with the tokens that it has consumed. -/
def burstAct (useR : Bool) (n lat : Nat) (emit : Elem → Token → List Token → List Token × Flags × W32) (e : ERef) (x : Elem) (i : Ins) (w : W) : W :=
  let held := if useR then [if x.opened then x.buf.headD {} else i.r] else []
  if i.anyNull then w.flyBoth e 1 i.nullOut 0
  else match x.burst useR n i.l with
    | .broken => w.raiseElem e 0x201 0 (some i.l)
    | .more ts => w.setElem e fun x => { x with opened := true, buf := held ++ ts }
    | .whole ts =>
      let (out, fl, lf) := emit x (if x.opened then x.buf.headD {} else i.r) ts
      let all := ts ++ if useR && (x.opened || i.rT) then held else []
      (w.setElem e fun x => { x with opened := false, buf := [], lfsr := lf }).flyBurst e lat
        (out.map fun t => { t with rel := relOf all, last := all.any (·.last), log := all.findSome? (·.log) }) fl
/-- The edges that it needs: how many, and from how many edges on. -/
def burstNeed (useR : Bool) (n outs lat : Nat) (x : Elem) (i : Ins) : Nat × Nat :=
  if i.anyNull then (1, 1) else match x.burst useR n i.l with | .whole _ => (outs, lat) | _ => (0, 0)

section Burst

variable {s : State} {e : ERef} {x : Elem} {i : Ins} {useR : Bool} {n outs lat : Nat} {emit : Elem → Token → List Token → List Token × Flags × W32}
  (h : Fires s e x { r := useR && !x.opened } i)
include h

theorem Fires.burstOp_eq (hu : x.unreserved ((W.of s).edgeOf (s.region e.r) e.cell + (burstNeed useR n outs lat x i).2 + x.pass) (burstNeed useR n outs lat x i).1 = true) :
    burstOp s useR n outs lat emit = .next (s.fired e i (burstAct useR n lat emit e x i)) := by
  show runElem s (fun e w => w.fireAny e { r := useR && !(w.elem e).opened } (burstAct useR n lat emit e) (burstNeed useR n outs lat)) = _
  rw [h.runElem_eq, h.elem_eq, h.fireAny_need _ _ hu]

/-- A null makes a null one edge later, also inside a burst (R21, R176). -/
theorem Fires.burst_null (hn : i.anyNull = true) (hu : x.unreserved ((W.of s).edgeOf (s.region e.r) e.cell + x.pass + 1) 1 = true) :
    burstOp s useR n outs lat emit = .next (s.fired e i fun w => w.flyBoth e 1 i.nullOut 0) := by
  rw [h.burstOp_eq (by simpa only [burstNeed, hn, if_true, Nat.add_right_comm] using hu)]
  have act : burstAct useR n lat emit e x i = fun w => w.flyBoth e 1 i.nullOut 0 := funext fun w => by simp only [burstAct, hn, if_true]
  rw [act]

variable (hn : i.anyNull = false)
include hn

/-- A token that breaks the burst faults. -/
theorem Fires.burst_broken (hb : x.burst useR n i.l = .broken) :
    burstOp s useR n outs lat emit = .next (s.fired e i fun w => w.raiseElem e 0x201 0 (some i.l)) := by
  rw [h.burstOp_eq (by simp [burstNeed, hn, hb])]
  have act : burstAct useR n lat emit e x i = fun w => w.raiseElem e 0x201 0 (some i.l) :=
    funext fun w => by simp only [burstAct, hn, hb, Bool.false_eq_true, if_false]
  rw [act]

/-- A token that opens a burst or continues it is kept. -/
theorem Fires.burst_more {ts : List Token} (hb : x.burst useR n i.l = .more ts) : ∃ t, burstOp s useR n outs lat emit = .next t ∧ (t.elem e).opened = true ∧
    (t.elem e).buf = (if useR then [if x.opened then x.buf.headD {} else i.r] else []) ++ ts ∧ (t.elem e).flights = x.flights := by
  rw [h.burstOp_eq (by simp [burstNeed, hn, hb])]
  refine ⟨_, rfl, h.fired_elem (P := fun y => y.opened = true ∧ y.buf = (if useR then [if x.opened then x.buf.headD {} else i.r] else []) ++ ts ∧
    y.flights = x.flights) fun w g ref hw => ?_⟩
  simp only [burstAct, hn, hb, Bool.false_eq_true, if_false]
  exact ⟨_, _, hw.setElem _, rfl, rfl, rfl⟩

end Burst

/-- The marks of a burst's token, by its place (R26, R216). -/
def burstMark (n : Nat) (a : Nat × Token) : Token :=
  { a.2 with head := decide (a.1 = 0), tail := decide (a.1 + 1 = n), last := a.2.last && decide (a.1 + 1 = n) }
/-- The results of a burst stand at the end of the output stage, on successive edges. -/
theorem W.Has.flyBurst {w : W} {e : ERef} {g : Region} {x : Elem} (h : w.Has e g x) (lat : Nat) (ts : List Token) (flags : Flags) :
    ∃ g' fs, (w.flyBurst e lat ts flags).Has e g' { x with flights := x.flights ++ fs } ∧
      ∃ out : List Token, out.length = ts.length ∧ (∀ j < ts.length, (out.getD j {}).head = decide (j = 0) ∧ (out.getD j {}).tail = decide (j + 1 = ts.length)) ∧
        fs.map (fun y => (y.due, y.a, y.b)) = (List.range ts.length).map fun j =>
          (w.edgeOf g e.cell + x.pass + lat + j, some (out.getD j {}), some (out.getD j {})) := by
  obtain ⟨g', hf⟩ := h.fly_list (fun a => lat + a.1) (burstMark ts.length) (fun a => if a.1 = 0 then flags else 0) ((List.range ts.length).zip ts)
  refine ⟨g', _, hf, ((List.range ts.length).zip ts).map fun a => hopOf w e.key (burstMark ts.length a), by simp, fun j hj => ?_, ?_⟩
  · simp [List.getD_eq_getElem?_getD, hj, burstMark]
  · refine List.ext_getElem (by simp) fun j h1 h2 => ?_
    have hj : j < ts.length := by simpa using h2
    simp [List.getD_eq_getElem?_getD, hj, W.flight]
    omega

/-- The last token of a whole burst sends the results. -/
theorem Fires.burst_whole {s : State} {e : ERef} {x : Elem} {i : Ins} {g : Region} {useR : Bool} {n outs lat : Nat}
    {emit : Elem → Token → List Token → List Token × Flags × W32} (h : Fires s e x { r := useR && !x.opened } i) (hg : tget s.m.regions e.r = some g)
    (hn : i.anyNull = false) {ts : List Token} (hb : x.burst useR n i.l = .whole ts) (hout : ∀ y r, (emit y r ts).1.length = outs)
    (hu : x.unreserved ((W.of s).edgeOf g e.cell + x.pass + lat) outs = true) : ∃ t, burstOp s useR n outs lat emit = .next t ∧
      ∃ out : List Token, out.length = outs ∧ (∀ j < outs, (out.getD j {}).head = decide (j = 0) ∧ (out.getD j {}).tail = decide (j + 1 = outs)) ∧
        (t.elem e).flights.map (fun y => (y.due, y.a, y.b)) = x.flights.map (fun y => (y.due, y.a, y.b)) ++
          (List.range outs).map (fun j => ((W.of s).edgeOf g e.cell + x.pass + lat + j, some (out.getD j {}), some (out.getD j {}))) ∧
        (t.elem e).opened = false ∧ (t.elem e).buf = [] := by
  have hr : s.region e.r = g := by simp [State.region, W.region, tgetD, hg]
  rw [h.burstOp_eq (by simpa only [burstNeed, hn, hb, Bool.false_eq_true, if_false, hr, Nat.add_right_comm] using hu)]
  refine ⟨_, rfl, h.fired_elem_at hg (P := fun z => ∃ out : List Token, out.length = outs ∧
    (∀ j < outs, (out.getD j {}).head = decide (j = 0) ∧ (out.getD j {}).tail = decide (j + 1 = outs)) ∧
    z.flights.map (fun y => (y.due, y.a, y.b)) = x.flights.map (fun y => (y.due, y.a, y.b)) ++
      (List.range outs).map (fun j => ((W.of s).edgeOf g e.cell + x.pass + lat + j, some (out.getD j {}), some (out.getD j {}))) ∧
    z.opened = false ∧ z.buf = []) fun w cells elems ref hc hw => ?_⟩
  simp only [burstAct, hn, hb, Bool.false_eq_true, if_false]
  generalize he : emit x (if x.opened then x.buf.headD {} else i.r) ts = out
  obtain ⟨out, fl, lf⟩ := out
  have hlen : out.length = outs := by rw [← hout x (if x.opened then x.buf.headD {} else i.r), he]
  obtain ⟨g', fs, hf, sent, hs, hm, hd⟩ := (hw.setElem fun x => { x with opened := false, buf := [], lfsr := lf }).flyBurst lat
    (out.map fun t => { t with
      rel := relOf (ts ++ if useR && (x.opened || i.rT) then (if useR then [if x.opened then x.buf.headD {} else i.r] else []) else [])
      last := (ts ++ if useR && (x.opened || i.rT) then (if useR then [if x.opened then x.buf.headD {} else i.r] else []) else []).any (·.last)
      log := (ts ++ if useR && (x.opened || i.rT) then (if useR then [if x.opened then x.buf.headD {} else i.r] else []) else []).findSome? (·.log) }) fl
  rw [List.length_map, hlen] at hs hm hd
  have edge : (w.setElem e fun x => { x with opened := false, buf := [], lfsr := lf }).edgeOf g e.cell = (W.of s).edgeOf g e.cell := by
    unfold W.edgeOf W.now
    rw [show (w.setElem e fun x => { x with opened := false, buf := [], lfsr := lf }).clk = s.clk from hc]
    rfl
  refine ⟨g', _, hf, sent, hs, hm, ?_, rfl, rfl⟩
  rw [List.map_append, hd, ← edge]
  rfl

/-! ### The two consumers -/

theorem burst_open {x : Elem} {useR : Bool} {n : Nat} {l : Token} (ho : x.opened = false) (hh : l.head = true) (ht : l.tail = false) (hn : 1 < n) :
    x.burst useR n l = .more [l] := by
  have : ¬ n ≤ 1 := by omega
  simp [Elem.burst, burstTake, ho, hh, ht, this]
theorem burst_continue {x : Elem} {useR : Bool} {n : Nat} {l : Token} (ho : x.opened = true) (hh : l.head = false) (ht : l.tail = false)
    (hn : (if useR then x.buf.drop 1 else x.buf).length + 1 < n) : x.burst useR n l = .more ((if useR then x.buf.drop 1 else x.buf) ++ [l]) := by
  unfold Elem.burst
  generalize (if useR then x.buf.drop 1 else x.buf) = buf at hn ⊢
  simp [burstTake, ho, hh, ht, hn]
theorem burst_end {x : Elem} {useR : Bool} {n : Nat} {l : Token} (ho : x.opened = true) (hh : l.head = false) (ht : l.tail = true)
    (hn : (if useR then x.buf.drop 1 else x.buf).length + 1 = n) : x.burst useR n l = .whole ((if useR then x.buf.drop 1 else x.buf) ++ [l]) := by
  unfold Elem.burst
  generalize (if useR then x.buf.drop 1 else x.buf) = buf at hn ⊢
  simp [burstTake, ho, hh, ht, hn]
theorem burst_break {x : Elem} {useR : Bool} {n : Nat} {l : Token} (hh : l.head = x.opened) : x.burst useR n l = .broken := by
  simp [Elem.burst, burstTake, hh]

/-- QNT4 and the DQNT of a Q4 row are consumers of bursts, each with as many results as the statement says. -/
theorem exec_burst {f : EFields} {s : State} {m : Nat} {useR : Bool} {op : EFields → Instr} {k lat : Nat}
    (h : (op = .qnt4 ∧ useR = false ∧ m = 8 / perLane f.lo4 ∧ k = 2 ∧ lat = 4) ∨
      (op = .dqnt ∧ f.lo4 = 5 ∧ useR = true ∧ m = 2 ∧ k = 8 / perLane f.fmt.toNat ∧ lat = 3)) :
    ∃ emit, exec (op f) s = burstOp s useR m k lat emit ∧ ∀ y r ts, (emit y r ts).1.length = k := by
  rcases h with ⟨rfl, rfl, rfl, rfl, rfl⟩ | ⟨rfl, hf, rfl, rfl, rfl, rfl⟩
  · show ∃ emit, execQnt4 f s = _ ∧ _
    unfold execQnt4
    exact ⟨_, rfl, fun _ _ _ => rfl⟩
  · show ∃ emit, execDqnt f s = _ ∧ _
    unfold execDqnt
    rw [if_neg (not_not.2 hf)]
    exact ⟨_, rfl, fun _ _ _ => by simp⟩

/-- Settles O16: conversions by their shared form, AMAX by its equation, and the consumers of bursts by the cases of the token in hand. -/
theorem vectorConversions : Obligations.VectorConversions := by
  unfold Obligations.VectorConversions
  refine ⟨⟨?lanes, ?scaled⟩, ?bursts, ?amax⟩
  case lanes =>
    simp only [List.forall_mem_cons, List.not_mem_nil, false_implies, implies_true, and_true]
    refine ⟨?_, ?_, ?_, ?_, ?_⟩
    all_goals
      intro f s e x i h hn
      dsimp only [exec, execNarrow, execWiden, execFcvt, execFtoi, execItof]
      exact h.convOp_eq hn _ _ _ _ _ _ _
  case scaled =>
    rintro f s e x i l sc h hn rfl rfl
    exact ⟨h.qnt_eq hn f, h.dqnt_eq hn f⟩
  case bursts =>
    rintro f s e x i g m useR op k lat now ts h hg hop rfl rfl
    obtain ⟨emit, hx, hlen⟩ := exec_burst (s := s) hop
    have hr : s.region e.r = g := by simp [State.region, W.region, tgetD, hg]
    rw [hx]
    refine ⟨fun hn ho hm hh ht hu => h.burst_whole hg hn (burst_end ho hh ht hm) (fun y r => hlen y r _) hu, fun hn ho hh ht hm => ?_,
      fun hn ho hm hh ht => ?_, fun hn hu => h.burst_null hn (by rw [hr]; exact hu), fun hn hh => h.burst_broken hn (burst_break hh)⟩
    · simpa only [ho, Bool.false_eq_true, if_false] using h.burst_more (outs := k) (lat := lat) (emit := emit) hn (burst_open ho hh ht hm)
    · simpa only [ho, if_true, List.append_assoc] using h.burst_more (outs := k) (lat := lat) (emit := emit) hn (burst_continue ho hh ht hm)
  case amax =>
    intro f s e x i t fm n v els gone h hn ht hfm hnl he hg hv
    exact h.amax_eq hn f ht hfm hnl he hg hv

end Sys2Proof.Machine
end

section
/-! PROOFS. Firings (02_execution_model.md R17 to R22, 10_vector_elements.md R155, R156): the lane-wise work element by element, what a firing that sends leaves,
and nulls; from them O13. -/

namespace Sys2Proof.Machine

/-! ## Packed elements (R38) -/

/-- Element i of packed elements. -/
theorem packElems_elem (w : Nat) (l : List Nat) (i : Nat) : packElems w l / 2 ^ (w * i) % 2 ^ w = l.getD i 0 % 2 ^ w := by
  induction l generalizing i with
  | nil => simp [packElems]
  | cons x l ih =>
    cases i with
    | zero => simp [packElems]
    | succ i =>
      rw [packElems, Nat.mul_succ, Nat.add_comm (w * i) w, Nat.pow_add, ← Nat.div_div_eq_div_mul, Nat.add_mul_div_left _ _ (Nat.two_pow_pos w),
        Nat.div_eq_of_lt (Nat.mod_lt _ (Nat.two_pow_pos w)), Nat.zero_add, ih i, List.getD_cons_succ]
theorem packElems_lt (w : Nat) (l : List Nat) : packElems w l < 2 ^ (w * l.length) := by
  induction l with
  | nil => simp [packElems]
  | cons x l ih =>
    have hx := Nat.mod_lt x (Nat.two_pow_pos w)
    calc x % 2 ^ w + 2 ^ w * packElems w l < 2 ^ w * (packElems w l + 1) := by rw [Nat.mul_succ]; omega
      _ ≤ 2 ^ w * 2 ^ (w * l.length) := Nat.mul_le_mul_left _ ih
      _ = 2 ^ (w * (l.length + 1)) := by rw [← Nat.pow_add, Nat.mul_succ, Nat.add_comm]
/-- Element i of a token's data that is packed from no more elements than fit. -/
theorem elemAt_packed {w : Nat} {l : List Nat} (i : Nat) (h : w * l.length ≤ 512) : elemAt w (BitVec.ofNat 512 (packElems w l)) i = l.getD i 0 % 2 ^ w := by
  have hlt := Nat.lt_of_lt_of_le (packElems_lt w l) (Nat.pow_le_pow_right Nat.two_pos h)
  rw [elemAt, BitVec.extractLsb'_toNat, BitVec.toNat_ofNat, Nat.mod_eq_of_lt hlt, Nat.shiftRight_eq_div_pow, packElems_elem]
/-- Bit l of a mask of 16 bits. -/
theorem mask16_getLsbD (f : Nat → Bool) {l : Nat} (h : l < 16) : (mask16 f).getLsbD l = f l := by
  have hp := packElems_elem 1 ((List.range 16).map fun l => if f l then 1 else 0) l
  rw [Nat.one_mul, List.getD_eq_getElem?_getD, List.getElem?_map, List.getElem?_range h] at hp
  rw [mask16, BitVec.getLsbD_ofNat, Nat.testBit_eq_decide_div_mod_eq]
  simp only [pow_one] at hp
  rw [hp]
  cases hf : f l <;> simp [h, hf]

/-! ## Lane-wise work (R155, R47) -/

section LaneWise

variable (w : Nat) (sr : Bool) (lfsr : W32) (ts : List Token) (op : ElemOp)

/-- The accumulated work of `laneWise` over its first k elements. -/
def laneAcc (k : Nat) : Acc :=
  (List.range k).foldl (fun (a : Acc) i => a.step sr (ts.any (·.emptyAt (i / (32 / w)))) (ts.map fun t => elemAt w t.data i) op) { lfsr := lfsr }
/-- The LFSR after k elements have been passed: it steps for each under SR. -/
def laneLfsr (k : Nat) : W32 := if sr then lfsrStep^[k] lfsr else lfsr
/-- What op gives for element i. -/
def laneOut (i : Nat) : Nat × Flags := op (ts.map fun t => elemAt w t.data i) ((laneLfsr sr lfsr (i + 1)).toNat % 2 ^ 16)
/-- Element i of the result: zero of an empty lane. -/
def laneVal (i : Nat) : Nat := if ts.any (·.emptyAt (i / (32 / w))) then 0 else (laneOut w sr lfsr ts op i).1

theorem laneLfsr_succ (k : Nat) : laneLfsr sr lfsr (k + 1) = if sr then lfsrStep (laneLfsr sr lfsr k) else laneLfsr sr lfsr k := by
  cases sr <;> simp [laneLfsr, Function.iterate_succ_apply']
theorem laneAcc_succ (k : Nat) : laneAcc w sr lfsr ts op (k + 1) =
    (laneAcc w sr lfsr ts op k).step sr (ts.any (·.emptyAt (k / (32 / w)))) (ts.map fun t => elemAt w t.data k) op := by
  simp [laneAcc, List.range_succ]
theorem laneAcc_lfsr (k : Nat) : (laneAcc w sr lfsr ts op k).lfsr = laneLfsr sr lfsr k := by
  induction k with
  | zero => cases sr <;> rfl
  | succ k ih => rw [laneAcc_succ, laneLfsr_succ, ← ih, Acc.step]; split <;> rfl
theorem laneAcc_out (k : Nat) : (laneAcc w sr lfsr ts op k).out.reverse = (List.range k).map (laneVal w sr lfsr ts op) := by
  induction k with
  | zero => rfl
  | succ k ih =>
    rw [List.range_succ, List.map_append, ← ih, laneAcc_succ, List.map_singleton, laneVal, laneOut, laneLfsr_succ, ← laneAcc_lfsr w sr lfsr ts op k, Acc.step]
    split <;> simp
/-- The flags of a full element that has been passed are among the work's. -/
theorem laneAcc_flags (k : Nat) {i : Nat} (hi : i < k) (he : ts.any (·.emptyAt (i / (32 / w))) = false) :
    (laneAcc w sr lfsr ts op k).flags ||| (laneOut w sr lfsr ts op i).2 = (laneAcc w sr lfsr ts op k).flags := by
  induction k with
  | zero => omega
  | succ k ih =>
    rw [laneAcc_succ, Acc.step]
    rcases Nat.lt_succ_iff_lt_or_eq.1 hi with h | rfl
    · split
      · exact ih h
      · dsimp only
        rw [BitVec.or_assoc, BitVec.or_comm (op _ _).2, ← BitVec.or_assoc, ih h]
    · rw [if_neg (by simp [he]), laneOut, laneLfsr_succ, laneAcc_lfsr]
      dsimp only
      rw [BitVec.or_assoc, BitVec.or_self]

theorem laneWise_eq : laneWise w sr lfsr ts op =
    ({ data := BitVec.ofNat 512 (packElems w ((List.range (16 * (32 / w))).map (laneVal w sr lfsr ts op))), empty := mask16 fun l => ts.any (·.emptyAt l) },
      (laneAcc w sr lfsr ts op (16 * (32 / w))).flags, laneLfsr sr lfsr (16 * (32 / w))) := by
  rw [← laneAcc_out, ← laneAcc_lfsr]
  rfl
/-- Element i of the result of a lane-wise operation. -/
theorem laneWise_elem {i : Nat} (hw : w * (16 * (32 / w)) = 512) (hi : i < 16 * (32 / w)) :
    elemAt w (laneWise w sr lfsr ts op).1.data i = laneVal w sr lfsr ts op i % 2 ^ w := by
  rw [laneWise_eq, elemAt_packed i (by simp [hw]), List.getD_eq_getElem?_getD, List.getElem?_map, List.getElem?_range hi]
  rfl

end LaneWise

/-! ## A firing that sends -/

/-- Consuming tokens that carry no mark and no log, elsewhere than at L of the sink: positions, sector and counters. -/
theorem W.consume_plain {w : W} {e : ERef} {i : Ins} (hlog : ∀ t ∈ i.toks, t.log = none) (hrel : i.rel = none) (hs : (w.region e.r).sink ≠ e.key ∨ i.lT = false) :
    ∃ b, w.consume e i = { (w.setElem e fun x => x.consumed i w.now).stir (w.region e.r) e.cell with
      m := { ((w.setElem e fun x => x.consumed i w.now).stir (w.region e.r) e.cell).m with bar := b } } := by
  have untraced (v : W) (ts : List Token) (h : ∀ t ∈ ts, t.log = none) : ts.foldl (fun w t => w.trace e (hopOf w e.key t) false) v = v := by
    induction ts with
    | nil => rfl
    | cons t ts ih =>
      have ht := h t (by simp)
      rw [List.foldl_cons, hopOf_untraced _ _ ht, W.trace_untraced _ _ ht, ih fun t m => h t (by simp [m])]
  have hns : ¬ ((w.region e.r).sink = e.key ∧ i.lT = true) := by
    rintro ⟨a, b⟩
    rcases hs with c | c
    · exact c a
    · rw [c] at b; cases b
  unfold W.consume
  simp only [w.acquireBy_unmarked e hrel, hns, if_false, untraced _ _ hlog, ite_self]
  exact ⟨_, rfl⟩

theorem Ins.mark_log {i : Ins} (h : ∀ t ∈ i.toks, t.log = none) (t : Token) : (i.mark t).log = none := by
  show i.toks.findSome? (·.log) = none
  exact List.findSome?_eq_none_iff.2 h

/-- The record of an element that has fired and sent a result to both targets. -/
def Elem.sent (x : Elem) (i : Ins) (now edge lat : Nat) (r : Token × Flags × W32) : Elem :=
  { x.consumed i now with
    lfsr := r.2.2, flights := x.flights ++ [{ due := edge + lat + x.pass, a := some (i.mark r.1), b := some (i.mark r.1), flags := r.2.1 }] }

/-- A firing that sends, when its tokens carry no mark and no log: the element's record, its sector and registers change, and nothing else. -/
theorem Fires.sends_plain {s : State} {e : ERef} {x : Elem} {u : Uses} {i : Ins} {g : Region} (h : Fires s e x u i) (hg : tget s.m.regions e.r = some g)
    (hlog : ∀ t ∈ i.toks, t.log = none) (hrel : i.rel = none) (hs : g.sink ≠ e.key ∨ i.lT = false) (lat : Nat) (r : Token × Flags × W32) :
    ∃ b sec, s.sends e i lat r = { s with m := { s.m with
      regions := tput s.m.regions e.r { g with elems := tput g.elems e.key (x.sent i s.clk.now ((W.of s).edgeOf g e.cell) lat r) }, bar := b, sectors := sec } } := by
  obtain ⟨g', hg', hx⟩ := h.reg
  obtain rfl : g' = g := Option.some.inj (hg'.symm.trans hg)
  have hw : (W.of s).Has e g' x := ⟨hg', hx⟩
  obtain ⟨b, hc⟩ := W.consume_plain (w := W.of s) hlog hrel (by rwa [hw.region_eq])
  have hop (w : W) : hopOf w e.key (i.mark r.1) = i.mark r.1 := hopOf_untraced _ _ (Ins.mark_log hlog _)
  have hc : (W.of s).consume e i = { W.of s with m := { s.m with
      regions := tput s.m.regions e.r { g' with elems := tput g'.elems e.key (x.consumed i s.clk.now) }, bar := b
      sectors := ((W.of s).stir ((W.of s).region e.r) e.cell).m.sectors } } := by
    rw [hc, hw.setElem_eq]
    rfl
  have h1 : ((W.of s).consume e i).Has e { g' with elems := tput g'.elems e.key (x.consumed i s.clk.now) } (x.consumed i s.clk.now) := by
    rw [hc]; exact ⟨tget_tput_self _ _ _, tget_tput_self _ _ _⟩
  have h2 := h1.setElem fun x => { x with lfsr := r.2.2 }
  refine ⟨b, ((W.of s).stir ((W.of s).region e.r) e.cell).m.sectors, ?_⟩
  rw [State.sends, State.fired, W.flyBoth, W.fly, h2.region_eq, h2.setElem_eq, h1.setElem_eq, hc]
  simp only [W.commit, W.of, applyLog, tput_tput, Option.map_some, hop]
  rfl

/-- Settles O13: a plain firing by `Fires.sends_plain`, an element of a lane-wise result by `laneWise_elem` and the work's accumulated flags and LFSR, and a null
by the shared form of a firing. -/
theorem firings : Obligations.Firings := by
  unfold Obligations.Firings
  refine ⟨?plain, ?lanes, ?nulls⟩
  case plain =>
    intro s e x u i lat r g h hg hlog hrel hs
    obtain ⟨b, sec, ht⟩ := h.sends_plain hg hlog hrel hs lat r
    rw [ht]
    exact ⟨rfl, rfl, rfl, rfl, rfl, rfl, fun j hj => tget_tput_ne _ _ _ _ hj, _, tget_tput_self _ _ _, rfl⟩
  case lanes =>
    rintro w sr lfsr ts op i z hw hi rfl
    have fits : w * (16 * (32 / w)) = 512 := by
      simp only [List.mem_cons, List.not_mem_nil, or_false] at hw
      rcases hw with rfl | rfl | rfl | rfl <;> rfl
    have hl : i / (32 / w) < 16 := Nat.div_lt_of_lt_mul (by rwa [Nat.mul_comm] at hi)
    have hz : (if sr then lfsrStep^[i + 1] lfsr else lfsr) = laneLfsr sr lfsr (i + 1) := rfl
    rw [laneWise_elem w sr lfsr ts op fits hi, hz]
    refine ⟨?_, fun he => ?_, fun he => ⟨?_, ?_⟩, ?_⟩
    · rw [laneWise_eq]; exact mask16_getLsbD _ hl
    · rw [laneVal, if_pos he, Nat.zero_mod]
    · rw [laneVal, if_neg (by simp [he])]; rfl
    · rw [laneWise_eq]; exact laneAcc_flags w sr lfsr ts op _ hi he
    · rw [laneWise_eq]; rfl
  case nulls =>
    simp only [List.forall_mem_cons, List.not_mem_nil, false_implies, implies_true, and_true]
    refine ⟨?_, ?_, ?_, ?_, ?_, ?_, ?_, ?_, ?_, ?_, ?_, ?_, ?_, ?_, ?_, ?_, ?_, ?_, ?_, ?_, ?_, ?_, ?_, ?_, ?_, ?_, ?_, ?_, ?_, ?_, ?_, ?_⟩
    all_goals
      intro f s e x i h hn
      dsimp only [exec, intOp, satOp, fpOp, vecOp, convOp, moveOp, reduceOp, execPass, execVcAdd, execVcSub, execAdds, execSubs, execVcMul, execMad, execAbs, execSel,
        execNarrow, execFadd, execFma, execRcp, execFcvt, execQnt, execAmax, execLshup, execLperm, execLradd, execLscan, execLmask, execPwl, execRred, execRcomb,
        execNullif, execDrop, execSteer, execGate, execJoin, execIdx, execLast, execBnd]
      exact h.run_null hn _ _

end Sys2Proof.Machine
end

section
/-! PROOFS. The range server (02_execution_model.md R34; 13_memory_and_address_cells.md R249, R250; 14_sequencer.md R275); from them O29. -/

namespace Sys2Proof.Machine

/-! ## Asking -/

theorem ElemTurn.has {s : State} {e : ERef} {g : Region} {x : Elem} (h : ElemTurn s e g x) : (W.of s).Has e g x := ⟨h.reg, h.here⟩
/-- A meaning of the element whose turn it is. -/
theorem ElemTurn.runElem_eq {s : State} {e : ERef} {g : Region} {x : Elem} (h : ElemTurn s e g x) (f : ERef → W → W) : runElem s f = .next ((f e (W.of s)).commit s) := by
  have hx := h.here
  simp only [ERef.key] at hx
  simp [runElem, run, h.cur, h.reg, hx]

theorem W.Has.setRegion {w : W} {e : ERef} {g : Region} {x : Elem} (h : w.Has e g x) (f : Region → Region) (hf : (f g).elems = g.elems) :
    (w.setRegion e.r f).Has e (f g) x where
  reg := by simp [tmod_of_tget _ h.reg]
  here := by rw [hf]; exact h.here

/-- The record of an element that has consumed its inputs, from the element's turn alone. -/
theorem ElemTurn.consume_has {s : State} {e : ERef} {g : Region} {x : Elem} (h : ElemTurn s e g x) (i : Ins) :
    ∃ cells elems ref, ((W.of s).consume e i).Has e { g with cells := cells, elems := elems } { x.consumed i s.clk.now with leafRef := ref } := by
  obtain ⟨cells, elems, ref, ha⟩ := h.has.of_fabric ((W.of s).acquireBy_fabric e i)
  have now : ((W.of s).acquireBy e i).now = s.clk.now := congrArg (fun p => p.1.now) ((W.of s).acquireBy_fabric e i)
  exact ⟨cells, _, ref, now ▸ (ha.setElem fun y => y.consumed i ((W.of s).acquireBy e i).now).of_regions ((W.of s).consume_sameRegions e i).regions⟩

/-- An element asks the range server: its ask is the last, and its answer's flight waits. -/
theorem W.Has.askRange {w : W} {e : ERef} {g : Region} {x : Elem} (h : w.Has e g x) (i : Ins) (raise : Bool) (n : Nat) : ∃ ref step y g',
    (w.askRange e i raise n).Has e g' { x with flights := x.flights ++ [y] } ∧
      g'.range = { g.range with asks := g.range.asks ++ [{ raise := raise, who := e.key, n := n, ref := ref, step := step }] } :=
  ⟨_, _, _, _, (h.setRegion _ rfl).setElem _, rfl⟩

section Ask

variable {s : State} {e : ERef} {g : Region} {x : Elem} {i : Ins} (f : EFields) (h : ElemTurn s e g x) (ht : (W.of s).onTurn e = true) (hi : x.inputs {} = some i)
include h

theorem ElemTurn.rngp_held (hx : x.ended = true ∨ 8 ≤ x.pulls ∨ 16 ≤ x.flights.length) : exec (.rngp f) s = .next s := by
  have : ((W.of s).onTurn e && !x.ended && decide (x.pulls < 8) && x.mayAsk) = false := by
    rw [Bool.and_eq_false_iff, Bool.and_eq_false_iff, Bool.and_eq_false_iff, Elem.mayAsk]
    rcases hx with a | a | a
    · exact .inl (.inl (.inr (by rw [a]; rfl)))
    · exact .inl (.inr (decide_eq_false (by omega)))
    · exact .inr (decide_eq_false (by omega))
  show execRngp f s = _
  unfold execRngp
  rw [h.runElem_eq]
  simp only [h.has.elem_eq, W.guard, this, Bool.false_eq_true, if_false, W.of_commit]
theorem ElemTurn.rngx_held (hx : 16 ≤ x.flights.length) : exec (.rngx f) s = .next s := by
  have : x.mayAsk = false := decide_eq_false (by omega)
  show execRngx f s = _
  unfold execRngx
  rw [h.runElem_eq]
  simp only [h.has.elem_eq, W.guard, this, Bool.and_false, Bool.false_eq_true, if_false, W.of_commit]

include ht hi

/-- RNGP that may pull: a null passes, and a data token asks. -/
theorem ElemTurn.rngp_eq (he : x.ended = false) (hp : x.pulls < 8) (hf : x.flights.length < 16) : exec (.rngp f) s = .next (s.fired e i fun w =>
    if i.l.null then w.flyBoth e 1 i.nullOut 0 else (w.askRange e i false 0).setElem e fun y => { y with
      pulls := y.pulls + 1
      dryAt := if (!x.flights.any fun f => f.req.isNone) && y.dryAt.isNone then some (w.edgeOf (w.region e.r) e.cell, w.ns) else y.dryAt }) := by
  show execRngp f s = _
  unfold execRngp
  rw [h.runElem_eq]
  simp only [h.has.elem_eq, W.guard, ht, he, hp, hi, Elem.mayAsk, hf, decide_true, Bool.not_false, Bool.and_self, if_true]
  rfl
theorem ElemTurn.rngx_eq (hf : x.flights.length < 16) : exec (.rngx f) s = .next (s.fired e i fun w =>
    if i.l.null then w.flyBoth e 1 i.nullOut 0
    else (w.laneOrFree (i.l.policy x.empty x.k)).1.askRange e i true (w.laneOrFree (i.l.policy x.empty x.k)).2) := by
  show execRngx f s = _
  unfold execRngx
  rw [h.runElem_eq]
  simp only [h.has.elem_eq, W.guard, ht, hi, Elem.mayAsk, hf, decide_true, Bool.and_self, if_true]
  rfl

/-- A data token's pull: the server's last ask, and one more outstanding. -/
theorem ElemTurn.rngp_asks (hn : i.l.null = false) (he : x.ended = false) (hp : x.pulls < 8) (hf : x.flights.length < 16) : ∃ t ref st, exec (.rngp f) s = .next t ∧
    (t.region e.r).range = { g.range with asks := g.range.asks ++ [{ who := e.key, ref := ref, step := st }] } ∧ (t.elem e).pulls = x.pulls + 1 ∧
    (t.elem e).inL = if i.lT then none else x.inL := by
  rw [h.rngp_eq f ht hi he hp hf]
  obtain ⟨cells, elems, lref, hc⟩ := h.consume_has i
  obtain ⟨ref, st, y, g', hask, hr⟩ := hc.askRange i false 0
  simp only [State.fired, hn, Bool.false_eq_true, if_false]
  have hd := hask.setElem fun z => { z with
    pulls := z.pulls + 1
    dryAt := if (!x.flights.any fun f => f.req.isNone) && z.dryAt.isNone
      then some (((W.of s).consume e i).edgeOf (((W.of s).consume e i).region e.r) e.cell, ((W.of s).consume e i).ns) else z.dryAt }
  exact ⟨_, ref, st, rfl, by rw [hd.state_region]; exact hr, by rw [hd.state_elem]; rfl, by rw [hd.state_elem]; rfl⟩
/-- A data token's raise by its lane 0. -/
theorem ElemTurn.rngx_asks (hn : i.l.null = false) (hl : (i.l.policy x.empty x.k).emptyAt 0 = false) (hf : x.flights.length < 16) : ∃ t ref st, exec (.rngx f) s = .next t ∧
    (t.region e.r).range = { g.range with asks := g.range.asks ++
      [{ raise := true, who := e.key, n := ((i.l.policy x.empty x.k).lane 0).toNat, ref := ref, step := st }] } ∧
    (t.elem e).inL = if i.lT then none else x.inL := by
  rw [h.rngx_eq f ht hi hf]
  obtain ⟨cells, elems, lref, hc⟩ := h.consume_has i
  obtain ⟨ref, st, y, g', hask, hr⟩ := hc.askRange i true ((i.l.policy x.empty x.k).lane 0).toNat
  simp only [State.fired, hn, W.laneOrFree, hl, Bool.false_eq_true, if_false]
  exact ⟨_, ref, st, rfl, by rw [hask.state_region]; exact hr, by rw [hask.state_elem]; rfl⟩

end Ask

/-! ## Answering -/

/-- A source's token that is not sampled goes on as it is. -/
theorem W.Has.birth {w : W} {e : ERef} {g : Region} {x : Elem} (h : w.Has e g x) (hd : w.fld (Bar.partDbg g.part) 7 3 = 0) (t : Token) :
    w.birth e t = (w.setElem e fun x => { x with seqNo := x.seqNo + 1 }, t) := by
  unfold W.birth
  simp only [h.region_eq, hd, ne_eq, not_true_eq_false, false_and, if_false]

/-- The element that an ask names. -/
def Ask.elem (a : Ask) (r : Nat) : ERef := ⟨r, a.who / 8, a.who % 8⟩
theorem Ask.elem_key (a : Ask) (r : Nat) : (a.elem r).key = a.who := Nat.div_add_mod' a.who 8

section Answer

variable {s : State} {r : Nat} {g : Region} {a : Ask} {rest : List Ask} {x : Elem} (hg : tget s.m.regions r = some g) (hrun : g.runsAt s.clk.now = true)
  (ha : g.range.asks = a :: rest) (hx : tget g.elems a.who = some x)

/-- The region's record with the range as the server leaves it. -/
def W.served (w : W) (r : Nat) (rg : Range) : W := w.setRegion r fun g => { g with range := rg }

include hg
theorem served_region (rg : Range) : tget ((W.of s).served r rg).m.regions r = some { g with range := rg } := by
  have := tmod_of_tget (fun g : Region => { g with range := rg }) hg
  simpa [W.served, W.setRegion] using congrArg (tget · r) this
theorem region_of_tget : (W.of s).region r = g := by simp [W.region, tgetD, W.of, hg]
include hx
theorem served_has (rg : Range) : ((W.of s).served r rg).Has (a.elem r) { g with range := rg } x := ⟨served_region hg rg, by rw [a.elem_key]; exact hx⟩

theorem elem_of_tget : (W.of s).elem ⟨r, a.who / 8, a.who % 8⟩ = x := W.Has.elem_eq (w := W.of s) (e := a.elem r) ⟨hg, by rw [a.elem_key]; exact hx⟩

include hrun ha

section Pull

variable (hr : a.raise = false) (hd : field (s.bar (Bar.partDbg g.part)) 7 3 = 0)
include hr

/-- A pull that the server answers with an index, or the first time with the final answer: the token is born at the element. -/
theorem pull_answers (final : Bool) (rg : Range) (h : decide (g.range.count ≤ g.range.given) = final)
    (hrg : rg = { g.range with asks := rest, final := g.range.final || final, given := if final then g.range.given else g.range.given + 1 }) (he : (x.ended && final) = false)
    (hd : field (s.bar (Bar.partDbg g.part)) 7 3 = 0) :
    ∃ t, exec (.rangeServerPull r) s = .next t ∧ (t.region r).range = rg ∧
      (t.elem (a.elem r)).ended = (x.ended || final) ∧ (t.elem (a.elem r)).pulls = x.pulls - 1 ∧
      (t.elem (a.elem r)).flights = answerAsk ((W.of s).edgeOf g (a.elem r).cell)
        (some (answerWith { scope := 4, agent := (W.of s).rangeAgent, ref := g.range.latest }
          { lowLanes [if final then 0 else (g.range.first + g.range.given) % 2 ^ 32, if final then 1 else 0] with tail := final })) x.flights := by
  have hs := served_has hg hx rg
  have hb := hs.birth hd { lowLanes [if final then 0 else (g.range.first + g.range.given) % 2 ^ 32, if final then 1 else 0] with tail := final }
  have run : g.runsAt (W.of s).now = true := hrun
  rw [hrg] at hb hs
  simp only [W.served, Ask.elem] at hs hb
  show ∃ t, execRangeServerPull r s = _ ∧ _
  simp only [execRangeServerPull, Sys2Proof.Machine.run, region_of_tget hg, ha, hr, run, elem_of_tget hg hx, h, he, hb, Bool.not_true, Bool.or_self, Bool.false_eq_true, if_false]
  have hp := (hs.setElem fun y => { y with seqNo := y.seqNo + 1 }).setElem fun y => { y with
    pulls := y.pulls - 1, ended := y.ended || final
    dryAt := match x.dryAt with
      | some (d, t0) => if d < (W.of s).edgeOf g (a.who / 8) then some (d, t0) else none
      | none => none
    flights := answerAsk ((W.of s).edgeOf g (a.who / 8)) (some (answerWith { scope := 4, agent := (W.of s).rangeAgent, ref := g.range.latest }
      { lowLanes [if final then 0 else (g.range.first + g.range.given) % 2 ^ 32, if final then 1 else 0] with tail := final })) y.flights }
  exact ⟨_, rfl, (congrArg Region.range hp.state_region).trans hrg.symm, congrArg Elem.ended hp.state_elem, congrArg Elem.pulls hp.state_elem,
    congrArg Elem.flights hp.state_elem⟩

theorem pull_next (hc : g.range.given < g.range.count) (hd : field (s.bar (Bar.partDbg g.part)) 7 3 = 0) :
    ∃ t, exec (.rangeServerPull r) s = .next t ∧ (t.region r).range = { g.range with asks := rest, given := g.range.given + 1 } ∧
      (t.elem (a.elem r)).ended = x.ended ∧ (t.elem (a.elem r)).pulls = x.pulls - 1 ∧
      (t.elem (a.elem r)).flights = answerAsk ((W.of s).edgeOf g (a.elem r).cell)
        (some (answerWith { scope := 4, agent := (W.of s).rangeAgent, ref := g.range.latest } { lowLanes [(g.range.first + g.range.given) % 2 ^ 32, 0] with tail := false })) x.flights := by
  have h := pull_answers hg hrun ha hx hr false { g.range with asks := rest, given := g.range.given + 1 } (decide_eq_false (by omega)) (by simp) (Bool.and_false _) hd
  rwa [Bool.or_false] at h
theorem pull_final (hc : g.range.count ≤ g.range.given) (hd : field (s.bar (Bar.partDbg g.part)) 7 3 = 0) :
    ∃ t, exec (.rangeServerPull r) s = .next t ∧ (t.region r).range = { g.range with asks := rest, final := true } ∧
      (t.elem (a.elem r)).ended = true ∧ (t.elem (a.elem r)).pulls = x.pulls - 1 ∧
      (t.elem (a.elem r)).flights = answerAsk ((W.of s).edgeOf g (a.elem r).cell)
        (if x.ended then none else some (answerWith { scope := 4, agent := (W.of s).rangeAgent, ref := g.range.latest } { lowLanes [0, 1] with tail := true })) x.flights := by
  have hf : decide (g.range.count ≤ g.range.given) = true := decide_eq_true hc
  cases he : x.ended with
  | false =>
    have h := pull_answers hg hrun ha hx hr true { g.range with asks := rest, final := true } hf (by simp) (by rw [he]; rfl) hd
    rwa [Bool.or_true] at h
  | true =>
    have hs := served_has hg hx { g.range with asks := rest, final := g.range.final || true, given := g.range.given }
    have run : g.runsAt (W.of s).now = true := hrun
    show ∃ t, execRangeServerPull r s = _ ∧ _
    simp only [execRangeServerPull, Sys2Proof.Machine.run, region_of_tget hg, ha, hr, run, elem_of_tget hg hx, hf, he, Bool.not_true, Bool.or_self, Bool.and_self, Bool.false_eq_true, if_false, if_true]
    have hp := hs.setElem fun y => { y with
      pulls := y.pulls - 1, flights := answerAsk ((W.of s).edgeOf g (a.who / 8)) none y.flights, dryAt := if y.pulls ≤ 1 then none else y.dryAt }
    simp only [W.served, Ask.elem] at hp
    exact ⟨_, rfl, (congrArg Region.range hp.state_region).trans (by simp), (congrArg Elem.ended hp.state_elem).trans he, congrArg Elem.pulls hp.state_elem,
      congrArg Elem.flights hp.state_elem⟩

end Pull

end Answer

/-! ## Raises -/

/-- A pennant of the range server's ring is counted nowhere. -/
theorem W.pennant_server_bar (w : W) (part : Nat) (p : Pennant) : (w.pennant 0xF1 part p).1.m.bar = w.m.bar := rfl

/-- What the range's record holds once the server has taken a raise, and the reference that its answer carries. -/
def W.counted (w : W) (r : Nat) (g : Region) (a : Ask) (rest : List Ask) (refused : Bool) : W × W32 :=
  let w := w.setRegion r fun g => { g with range := { g.range with asks := rest } }
  let producer := if a.bySeq then w.seqAgent a.who else w.elemAgent ⟨r, a.who / 8, a.who % 8⟩
  let p :=
    if refused || a.n == 0 then (w, g.range.latest)
    else w.pennant 0xF1 g.part {
      waiter := w.rangeAgent, producer := producer, pref := a.ref, start := w.ns, arrival := w.ns, stop := w.ns, kind := 0x24, step := a.step }
  (if refused || a.n == 0 then p.1 else p.1.setRegion r fun g => { g with range := { g.range with count := g.range.count + a.n, latest := p.2 } }, p.2)

/-- An element's raise is answered with a token that the asking token's marks go into. -/
def W.answerElem (w : W) (e : ERef) (g : Region) (ref : W32) (k : Token → Token) : W :=
  w.setElem e fun x => { x with
    flights := answerAsk (w.edgeOf g e.cell) (some fun t => answerWith { scope := 4, agent := w.rangeAgent, ref := ref } (k t) t) x.flights }
/-- The oldest ask, a raise: it is counted, and answered. -/
theorem raise_eq {s : State} {r : Nat} {g : Region} {a : Ask} {rest : List Ask} (hg : tget s.m.regions r = some g) (hrun : g.runsAt s.clk.now = true)
    (ha : g.range.asks = a :: rest) (hr : a.raise = true) {past refused : Bool} (hp : decide (2 ^ 32 - 1 < g.range.count + a.n) = past)
    (hf : (past || (g.range.final && (a.bySeq || a.n != 0))) = refused) {w : W} {ref : W32} (hc : (W.of s).counted r g a rest refused = (w, ref)) :
    exec (.rangeServerRaise r) s = .next ((
      if a.bySeq then
        w.answerRaise a.who ref (if refused then 0 else BitVec.ofNat 64 (a.n % 2 ^ 32 * 2 ^ 32 + (g.range.first + g.range.count) % 2 ^ 32)) (if past then 0x2E0 else 0)
      else if past then w.raiseElem ⟨r, a.who / 8, a.who % 8⟩ 0x2B0
      else w.answerElem ⟨r, a.who / 8, a.who % 8⟩ g ref fun k =>
        if refused then nullToken else { lowLanes [(g.range.first + g.range.count) % 2 ^ 32, a.n] with head := k.head, tail := k.tail }).commit s) := by
  have run : g.runsAt (W.of s).now = true := hrun
  obtain rfl : ((W.of s).counted r g a rest refused).1 = w := congrArg Prod.fst hc
  obtain rfl : ((W.of s).counted r g a rest refused).2 = ref := congrArg Prod.snd hc
  show execRangeServerRaise r s = _
  simp only [execRangeServerRaise, Sys2Proof.Machine.run, region_of_tget hg, ha, hr, run, hp, hf, Bool.not_true, Bool.or_self, Bool.false_eq_true, if_false]
  rfl

/-- The world once the server has taken a raise, and written its pennant: the region's record, and what stands. -/
structure Counted (s : State) (r : Nat) (g : Region) (rg : Range) (w : W) : Prop where
  region : tget w.m.regions r = some { g with range := rg }
  seqs   : w.m.seqs = s.m.seqs
  clk    : w.clk = s.clk
  bar    : w.m.bar = s.m.bar

theorem Counted.pennant {s : State} {r : Nat} {g : Region} {rg : Range} {w : W} (h : Counted s r g rg w) (part : Nat) (p : Pennant) :
    Counted s r g rg (w.pennant 0xF1 part p).1 where
  region := (congrArg (tget · r) (w.pennant_aside 0xF1 part p).regions).trans h.region
  seqs := (w.pennant_aside 0xF1 part p).seqs.trans h.seqs
  clk := (w.pennant_aside 0xF1 part p).clk.trans h.clk
  bar := (w.pennant_server_bar part p).trans h.bar
theorem Counted.setRange {s : State} {r : Nat} {g : Region} {rg : Range} {w : W} (h : Counted s r g rg w) (f : Range → Range) :
    Counted s r g (f rg) (w.setRegion r fun g => { g with range := f g.range }) where
  region := by simpa [W.setRegion] using congrArg (tget · r) (tmod_of_tget (fun g : Region => { g with range := f g.range }) h.region)
  seqs := h.seqs
  clk := h.clk
  bar := h.bar
theorem Counted.setCount {s : State} {r : Nat} {g : Region} {rg : Range} {w : W} (h : Counted s r g rg w) (n : Nat) (ref : W32) :
    Counted s r g { rg with count := rg.count + n, latest := ref } (w.setRegion r fun g => { g with range := { g.range with count := g.range.count + n, latest := ref } }) :=
  h.setRange fun x => { x with count := x.count + n, latest := ref }

section Counting

variable {s : State} {r : Nat} {g : Region} {a : Ask} {rest : List Ask} (hg : tget s.m.regions r = some g)

/-- A raise that is refused, or of 0, changes nothing but the asks. -/
theorem counted_unchanged {refused : Bool} (h : (refused || a.n == 0) = true) :
    (W.of s).counted r g a rest refused = ((W.of s).setRegion r fun g => { g with range := { g.range with asks := rest } }, g.range.latest) := by
  simp only [W.counted, h, if_true]

include hg
theorem asked_counted : Counted s r g { g.range with asks := rest } ((W.of s).setRegion r fun g => { g with range := { g.range with asks := rest } }) :=
  Counted.setRange (rg := g.range) ⟨hg, rfl, rfl, rfl⟩ fun x => { x with asks := rest }
/-- A raise that is applied. -/
theorem counted_applied : ∃ w ref, (W.of s).counted r g a rest false = (w, ref) ∧ Counted s r g { g.range with asks := rest, count := g.range.count + a.n, latest := ref } w := by
  have hq := asked_counted (rest := rest) hg
  by_cases hn : a.n = 0
  · refine ⟨_, _, counted_unchanged (by simp [hn]), ?_⟩
    rw [hn]
    exact hq
  · have h0 : (false || a.n == 0) = false := by simp [hn]
    refine ⟨_, _, Prod.mk.eta.symm, ?_⟩
    simp only [W.counted, h0, Bool.false_eq_true, if_false]
    exact (hq.pennant _ _).setCount _ _

end Counting

section Raise

variable {s : State} {r : Nat} {g : Region} {a : Ask} {rest : List Ask} (hg : tget s.m.regions r = some g) (hrun : g.runsAt s.clk.now = true)
  (ha : g.range.asks = a :: rest) (hr : a.raise = true)

/-- The answer to an element's raise goes into its waiting flight. -/
theorem Counted.answers {rg : Range} {x : Elem} {w : W} (h : Counted s r g rg w) (hx : tget g.elems a.who = some x) (ref : W32) (k : Token → Token) :
    (((w.answerElem (a.elem r) g ref k).commit s).region r).range = rg ∧ (((w.answerElem (a.elem r) g ref k).commit s).elem (a.elem r)).flights =
      answerAsk ((W.of s).edgeOf g (a.elem r).cell) (some fun t => answerWith { scope := 4, agent := (W.of s).rangeAgent, ref := ref } (k t) t) x.flights := by
  have here : w.Has (a.elem r) { g with range := rg } x := ⟨h.region, by rw [a.elem_key]; exact hx⟩
  have edge : w.edgeOf g (a.elem r).cell = (W.of s).edgeOf g (a.elem r).cell := by simp only [W.edgeOf, W.now, h.clk]; rfl
  have agent : w.rangeAgent = (W.of s).rangeAgent := by simp only [W.rangeAgent, W.agentId, W.fld, W.bar, h.bar]; rfl
  have hs := here.setElem fun x => { x with
    flights := answerAsk (w.edgeOf g (a.elem r).cell) (some fun t => answerWith { scope := 4, agent := w.rangeAgent, ref := ref } (k t) t) x.flights }
  exact ⟨congrArg Region.range hs.state_region, (congrArg Elem.flights hs.state_elem).trans (by rw [edge, agent])⟩

/-- The answer to a sequencer's raise. -/
theorem Counted.answerSeq {rg : Range} {q : Seq} {y : SeqWait} {w : W} (h : Counted s r g rg w) (hq : tget s.m.seqs a.who = some q) (hy : q.wait = some y) (ref : W32) (v : W64) :
    (((w.answerRaise a.who ref v 0).commit s).region r).range = rg ∧ (((w.answerRaise a.who ref v 0).commit s).seq a.who).wait =
      some { y with ready := true, num := v, agent := (W.of s).rangeAgent, ref := ref, arr := s.ns } := by
  have agent : w.rangeAgent = (W.of s).rangeAgent := by simp only [W.rangeAgent, W.agentId, W.fld, W.bar, h.bar]; rfl
  have ns : w.ns = s.ns := by simp only [W.ns, h.clk]; rfl
  have hm := tmod_of_tget (fun q : Seq => { q with wait := q.wait.map fun x => { x with ready := true, num := v, agent := w.rangeAgent, ref := ref, arr := w.ns } })
    ((congrArg (tget · a.who) h.seqs).trans hq)
  constructor
  · exact congrArg Region.range (region_of_tget (s := (w.answerRaise a.who ref v 0).commit s) h.region)
  · have hseq : ((w.answerRaise a.who ref v 0).commit s).seq a.who = _ := congrArg (fun l => tgetD l a.who ({} : Seq)) hm
    rw [hseq]
    simp [tgetD, hy, agent, ns]

include hg hrun ha hr

section ByElement

variable {x : Elem} (hs : a.bySeq = false) (hx : tget g.elems a.who = some x)
include hs hx

theorem elem_raise_applied (hf : g.range.final = false) (hc : g.range.count + a.n ≤ 2 ^ 32 - 1) :
    ∃ t ref, exec (.rangeServerRaise r) s = .next t ∧ (t.region r).range = { g.range with asks := rest, count := g.range.count + a.n, latest := ref } ∧
      (t.elem (a.elem r)).flights = answerAsk ((W.of s).edgeOf g (a.elem r).cell) (some fun k =>
        answerWith { scope := 4, agent := (W.of s).rangeAgent, ref := ref } { lowLanes [(g.range.first + g.range.count) % 2 ^ 32, a.n] with head := k.head, tail := k.tail } k)
        x.flights := by
  obtain ⟨w, ref, hw, h⟩ := counted_applied (a := a) (rest := rest) hg
  have he := raise_eq hg hrun ha hr (decide_eq_false (by omega)) (by rw [hf]; rfl) hw
  simp only [hs, Bool.false_eq_true, if_false] at he
  exact ⟨_, ref, he, h.answers hx ref _⟩
/-- A raise by 0 after the range's final answer is answered, and changes nothing. -/
theorem elem_raise_zero (hn : a.n = 0) (hc : g.range.count ≤ 2 ^ 32 - 1) :
    ∃ t, exec (.rangeServerRaise r) s = .next t ∧ (t.region r).range = { g.range with asks := rest } ∧
      (t.elem (a.elem r)).flights = answerAsk ((W.of s).edgeOf g (a.elem r).cell) (some fun k =>
        answerWith { scope := 4, agent := (W.of s).rangeAgent, ref := g.range.latest } { lowLanes [(g.range.first + g.range.count) % 2 ^ 32, 0] with head := k.head, tail := k.tail } k)
        x.flights := by
  have h := asked_counted (rest := rest) hg
  have he := raise_eq hg hrun ha hr (decide_eq_false (by omega)) (by rw [hs, hn]; simp) (counted_unchanged (refused := false) (by simp [hn]))
  simp only [hs, hn, Bool.false_eq_true, if_false] at he
  exact ⟨_, he, h.answers hx _ _⟩
theorem elem_raise_refused (hf : g.range.final = true) (hn : a.n ≠ 0) (hc : g.range.count + a.n ≤ 2 ^ 32 - 1) :
    ∃ t, exec (.rangeServerRaise r) s = .next t ∧ (t.region r).range = { g.range with asks := rest } ∧
      (t.elem (a.elem r)).flights = answerAsk ((W.of s).edgeOf g (a.elem r).cell)
        (some (answerWith { scope := 4, agent := (W.of s).rangeAgent, ref := g.range.latest } nullToken)) x.flights := by
  have h := asked_counted (rest := rest) hg
  have he := raise_eq hg hrun ha hr (decide_eq_false (by omega)) (by rw [hf]; simp [hn]) (counted_unchanged (refused := true) rfl)
  simp only [hs, Bool.false_eq_true, if_false, if_true] at he
  exact ⟨_, he, h.answers hx _ _⟩

omit hx in
theorem elem_raise_past (hc : 2 ^ 32 - 1 < g.range.count + a.n) :
    exec (.rangeServerRaise r) s = .next ((((W.of s).setRegion r fun g => { g with range := { g.range with asks := rest } }).raiseElem (a.elem r) 0x2B0).commit s) := by
  have he := raise_eq hg hrun ha hr (decide_eq_true hc) rfl (counted_unchanged (refused := true) rfl)
  simp only [hs, Bool.false_eq_true, if_false, if_true] at he
  exact he

end ByElement

section BySequencer

variable {q : Seq} {y : SeqWait} (hs : a.bySeq = true) (hq : tget s.m.seqs a.who = some q) (hy : q.wait = some y)

include hs

theorem seq_raise_past (hc : 2 ^ 32 - 1 < g.range.count + a.n) :
    exec (.rangeServerRaise r) s = .next ((((W.of s).setRegion r fun g => { g with range := { g.range with asks := rest } }).raiseSeq a.who 0x2E0).commit s) := by
  have he := raise_eq hg hrun ha hr (decide_eq_true hc) rfl (counted_unchanged (refused := true) rfl)
  simpa only [hs, W.answerRaise, if_true, ne_eq, reduceCtorEq, not_false_eq_true] using he

include hq hy

theorem seq_raise_applied (hf : g.range.final = false) (hc : g.range.count + a.n ≤ 2 ^ 32 - 1) :
    ∃ t ref, exec (.rangeServerRaise r) s = .next t ∧ (t.region r).range = { g.range with asks := rest, count := g.range.count + a.n, latest := ref } ∧
      (t.seq a.who).wait = some { y with
        ready := true, agent := (W.of s).rangeAgent, ref := ref, arr := s.ns
        num := BitVec.ofNat 64 (a.n % 2 ^ 32 * 2 ^ 32 + (g.range.first + g.range.count) % 2 ^ 32) } := by
  obtain ⟨w, ref, hw, h⟩ := counted_applied (a := a) (rest := rest) hg
  have he := raise_eq hg hrun ha hr (decide_eq_false (by omega)) (by rw [hf]; rfl) hw
  simp only [hs, Bool.false_eq_true, if_false, if_true] at he
  exact ⟨_, ref, he, h.answerSeq hq hy ref _⟩
theorem seq_raise_refused (hf : g.range.final = true) (hc : g.range.count + a.n ≤ 2 ^ 32 - 1) :
    ∃ t, exec (.rangeServerRaise r) s = .next t ∧ (t.region r).range = { g.range with asks := rest } ∧
      (t.seq a.who).wait = some { y with ready := true, agent := (W.of s).rangeAgent, ref := g.range.latest, arr := s.ns, num := 0 } := by
  have h := asked_counted (rest := rest) hg
  have he := raise_eq hg hrun ha hr (decide_eq_false (by omega)) (by rw [hf, hs]; rfl) (counted_unchanged (refused := true) rfl)
  simp only [hs, Bool.false_eq_true, if_false, if_true] at he
  exact ⟨_, he, h.answerSeq hq hy _ _⟩

end BySequencer

end Raise

/-- Settles O29: the oldest ask alone is answered, by the case that its kind, its asker and the range's record give. -/
theorem rangeServer : Obligations.RangeServer := by
  refine ⟨fun f s e g x i h ht hi => ⟨fun hn he hp hf => h.rngp_asks f ht hi hn he hp hf, h.rngp_held f, h.rngx_held f, fun hn hf => ⟨?_, fun he hp => ?_⟩,
    fun hn hl hf => h.rngx_asks f ht hi hn hl hf⟩, fun s r g a rest e x rel hg hrun ha he hrel => ?_⟩
  · rw [h.rngx_eq f ht hi hf]; simp only [hn, if_true]
  · rw [h.rngp_eq f ht hi he hp hf]; simp only [hn, if_true]
  · obtain rfl : e = a.elem r := he
    subst hrel
    exact ⟨fun hr hx hd => ⟨fun hc => pull_next hg hrun ha hx hr hc hd, fun hc => pull_final hg hrun ha hx hr hc hd⟩,
      fun hr hs hx => ⟨elem_raise_applied hg hrun ha hr hs hx, fun _ => elem_raise_zero hg hrun ha hr hs hx, elem_raise_refused hg hrun ha hr hs hx,
        elem_raise_past hg hrun ha hr hs⟩,
      fun q y hr hs hq hy => ⟨seq_raise_applied hg hrun ha hr hs hq hy, seq_raise_refused hg hrun ha hr hs hq hy, seq_raise_past hg hrun ha hr hs⟩⟩

end Sys2Proof.Machine
end

section
/-! PROOFS. STEP: the cycle on which a sequencer's pennant was written stands in its record (14_sequencer.md R276, R283); from it O6. -/

namespace Sys2Proof.Machine

/-- Reset, but for the sequencer of quad 0 and a region, both as they are configured at first; it is the sequencer's turn. -/
def steppingState : State := { State.reset with m := { cur := .seq 0, seqs := [(0, {})], regions := [(0, {})] } }

/-- After STEP the sequencer's record says that its pennant was written on sequencer cycle 0, so that no completion of that cycle overrides the reference. -/
theorem step_marks_pennant : ∃ t, exec (.step 0 0) steppingState = .next t ∧ (t.seq 0).pennAt = 1 := ⟨_, rfl, by decide +kernel⟩

/-- Refutes O6: its clause on STEP lists what changes in the sequencer's record, s[D], LATEST and STEP_NO among them, but not the cycle of the pennant (`pennAt`), which
`W.seqPennant` sets with LATEST. In the state `steppingState` every hypothesis of the clause holds, and the two records differ there: 1 as executed, 0 as stated. -/
theorem not_fencesWaitsAndTags : ¬ Obligations.FencesWaitsAndTags := by
  unfold Obligations.FencesWaitsAndTags
  rintro ⟨-, -, -, hclause⟩
  have hturn : SeqTurn steppingState 0 {} := ⟨rfl, rfl⟩
  have hwalk : (steppingState.bar (Bar.partCtl ({} : Seq).part)).getLsbD 1 = false := by decide +kernel
  obtain ⟨hstep, -, -⟩ := hclause 0 0 0 steppingState 0 {} hturn (by decide)
  have hstated := hstep {} _ _ _ hwalk rfl rfl rfl
  obtain ⟨t, ht, hmark⟩ := step_marks_pennant
  rw [hstated] at ht
  cases ht
  exact absurd hmark (by decide +kernel)

end Sys2Proof.Machine
end

section
/-! PROOFS. Controller nodes: what pulses, pennants and a node's record leave alone (02_execution_model.md R27, R28, R31); from them O30. -/

namespace Sys2Proof.Machine

/-! ## Where an element stands as an agent -/

/-- Counting events changes no register but the counters. -/
theorem barGet_pmcAdd (t : Tbl W64) (q ev n : Nat) {off : Nat} (h : ∀ i, i < 8 → off ≠ Bar.pmc q i) : barGet (pmcAdd t q ev n) off = barGet t off := by
  unfold pmcAdd
  split
  · rfl
  · refine List.foldlRecOn (motive := fun u : Tbl W64 => barGet u off = barGet t off) _ _ rfl fun u hu i hi => ?_
    split
    · rw [barGet, barPut, tgetD_tput_ne _ _ _ _ _ (h i (List.mem_range.mp hi))]; exact hu
    · exact hu
/-- A pennant leaves the device's place in the fabric. -/
theorem W.pennant_devLoc (w : W) (ring part : Nat) (p : Pennant) : (w.pennant ring part p).1.fld Bar.devLoc 12 0 = w.fld Bar.devLoc 12 0 := by
  unfold W.pennant
  dsimp only
  split
  · rename_i h
    refine congrArg (field · 12 0) (barGet_pmcAdd _ ring 11 1 fun i hi => ?_)
    simp only [Bar.devLoc, Bar.pmc, Bar.pmsel]
    omega
  · rfl

/-- An element's id as an agent: its record, its region's place and the device's. -/
theorem W.Has.elemAgent_eq {w w' : W} {e : ERef} {g g' : Region} {x x' : Elem} (h : w.Has e g x) (h' : w'.Has e g' x') (hx : (x'.copies, x'.turn) = (x.copies, x.turn))
    (hg : siteQuad g' e.cell = siteQuad g e.cell) (hd : w'.fld Bar.devLoc 12 0 = w.fld Bar.devLoc 12 0) : w'.elemAgent e = w.elemAgent e := by
  injection hx with hc ht
  simp only [W.elemAgent, W.agentId, W.penQuad, h.elem_eq, h'.elem_eq, h.region_eq, h'.region_eq, hc, ht, hg, hd]

/-! ## Pulses, lines and node records -/

section Has

variable {w : W} {e : ERef} {g : Region} {x : Elem}

/-- The line of a region, and a node's record, as its region holds them. -/
def Region.line (g : Region) (h : Nat) : Line := tgetD g.lines h {}
def Region.node (g : Region) (k : Nat) : Node := tgetD g.nodes k {}

theorem W.Has.line_eq (h : w.Has e g x) (l : Nat) : w.line e.r l = g.line l := by rw [W.line, h.region_eq]; rfl
theorem W.Has.node_eq (h : w.Has e g x) : w.node e = g.node e.key := by rw [W.node, h.region_eq]; rfl

theorem W.Has.setNode (h : w.Has e g x) (f : Node → Node) : (w.setNode e f).Has e { g with nodes := tput g.nodes e.key (f (g.node e.key)) } x :=
  h.setRegion (fun g : Region => { g with nodes := tput g.nodes e.key (f (tgetD g.nodes e.key {})) }) rfl
theorem W.Has.setLine (h : w.Has e g x) (l : Nat) (f : Line → Line) : (w.setLine e.r l f).Has e { g with lines := tput g.lines l (f (g.line l)) } x :=
  h.setRegion (fun g : Region => { g with lines := tput g.lines l (f (tgetD g.lines l {})) }) rfl
theorem W.Has.takePulse (h : w.Has e g x) (l k : Nat) :
    (w.takePulse e.r l k).Has e { g with lines := tput g.lines l { g.line l with pend := tdel (g.line l).pend k } } x := h.setLine l _

@[simp] theorem Region.node_tput (g : Region) (k : Nat) (n : Node) : Region.node { g with nodes := tput g.nodes k n } k = n := by simp [Region.node]

/-- What the lines of a region hold for their listeners. -/
def Region.pends (g : Region) (h : Nat) : Tbl Pulse := (g.line h).pend

theorem Region.pends_tput_pend (g : Region) (l h : Nat) (u : Line) (hu : u.pend = (g.line l).pend) : Region.pends { g with lines := tput g.lines l u } h = g.pends h := by
  by_cases hl : h = l
  · subst hl; simp [Region.pends, Region.line, hu]
  · simp only [Region.pends, Region.line, tgetD_tput_ne _ _ _ _ _ hl]

/-- A pulse that a driver sends takes nothing from any listener. -/
theorem W.Has.pulse (h : w.Has e g x) (l : Nat) (ref : W32) (agent : Nat) (cov : Cov) : ∃ g', (w.pulse e.r l ref agent cov).Has e g' x ∧ g'.nodes = g.nodes ∧ g'.pends = g.pends :=
  ⟨_, h.setLine l _, rfl, funext fun k => g.pends_tput_pend l k _ rfl⟩
theorem W.Has.pulses (h : w.Has e g x) (ref : W32) (cov : Cov) (line : Nat → Nat) (cs : List Nat) :
    ∃ g', (cs.foldl (fun w k => w.pulse e.r (line k) ref (w.elemAgent e) cov) w).Has e g' x ∧ g'.nodes = g.nodes ∧ g'.pends = g.pends := by
  induction cs generalizing w g with
  | nil => exact ⟨g, h, rfl, rfl⟩
  | cons k cs ih =>
    obtain ⟨g₁, h₁, hn₁, hp₁⟩ := h.pulse (line k) ref (w.elemAgent e) cov
    obtain ⟨g₂, h₂, hn₂, hp₂⟩ := ih h₁
    exact ⟨g₂, h₂, hn₂.trans hn₁, hp₂.trans hp₁⟩

end Has

/-- A node's record when it has taken its START. -/
def Node.started (n : Node) (p : Pulse) (count children ns : Nat) : Node :=
  { n with
    running := true, n := count, fin := List.replicate children 0, busy := List.replicate children false
    startNs := ns, latest := newer n.latest p.ref, lastRef := p.ref, cov := p.cov, lastG := 0, lastNs := 0, lastAgent := 0, lastChild := 0 }

/-- A node's pennant becomes its latest, and changes nothing else of it. -/
theorem W.nodePennant_eq (w : W) (e : ERef) (producer : Nat) (pref : W32) (start arrival kind : Nat) : ∃ ring part p, w.nodePennant e producer pref start arrival kind =
    ((w.pennant ring part p).1.setNode e fun n => { n with latest := (w.pennant ring part p).2 }, (w.pennant ring part p).2) := ⟨_, _, _, rfl⟩
/-- A node's pennant leaves the node's id as an agent. -/
theorem W.Has.nodePennant_elemAgent {w : W} {e : ERef} {g : Region} {x : Elem} (h : w.Has e g x) (producer : Nat) (pref : W32) (start arrival kind : Nat) :
    (w.nodePennant e producer pref start arrival kind).1.elemAgent e = w.elemAgent e := by
  obtain ⟨ring, part, p, hp⟩ := w.nodePennant_eq e producer pref start arrival kind
  rw [hp]
  have hw : (w.pennant ring part p).1.Has e g x := h.of_regions (w.pennant_aside ring part p).regions
  exact h.elemAgent_eq (hw.setNode fun n => { n with latest := (w.pennant ring part p).2 }) rfl rfl (w.pennant_devLoc ring part p)

/-! ## A tree node's turn -/

/-- An idle node takes a START with its count. -/
theorem W.nodeStart_takes (w : W) {e : ERef} (f : EFields) (c : Nat) (h : (w.node e).running = false) {p : Pulse} {i : Ins}
    (hp : w.pendingOn e.r (nodeLine f - 1) e.key = some p) (hi : (w.elem e).inputs {} = some i) (hl : i.l.null = false) (he : i.l.emptyAt 0 = false) :
    w.nodeStart e f c = ((w.consume e i).takePulse e.r (nodeLine f - 1) e.key).setNode e fun n =>
      n.started p (i.l.lane 0).toNat c ((w.consume e i).takePulse e.r (nodeLine f - 1) e.key).ns := by
  unfold W.nodeStart
  simp only [h, hp, hi, hl, he, Bool.false_eq_true, if_false]
  rfl
/-- A START is taken by an idle node alone, and a START that has not come by none. -/
theorem W.nodeStart_running (w : W) {e : ERef} (f : EFields) (c : Nat) (h : (w.node e).running = true) : w.nodeStart e f c = w := by
  unfold W.nodeStart
  simp only [h, if_true]
theorem W.nodeStart_idle (w : W) {e : ERef} (f : EFields) (c : Nat) (h : (w.node e).running = false) (hp : w.pendingOn e.r (nodeLine f - 1) e.key = none) :
    w.nodeStart e f c = w := by
  unfold W.nodeStart
  simp only [h, hp, Bool.false_eq_true, if_false]

/-- What the state shows of a node that has taken a START. -/
theorem W.Has.taken {w : W} {e : ERef} {g : Region} {x : Elem} (h : w.Has e g x) (s : State) {n : Node} {l : Nat} (hn : g.node e.key = n) (hp : tget (g.pends l) e.key = none) :
    ((w.commit s).node e).running = n.running ∧ ((w.commit s).node e).n = n.n ∧ ((w.commit s).node e).fin = n.fin ∧
      tget ((w.commit s).line e.r l).pend e.key = none ∧ ((w.commit s).elem e).inL = x.inL := by
  have hnode : (w.commit s).node e = g.node e.key := h.node_eq
  have hline : (w.commit s).line e.r l = g.line l := h.line_eq _
  rw [hnode, hline, h.state_elem, hn]
  exact ⟨rfl, rfl, rfl, hp, rfl⟩

section Tree

variable {s : State} {e : ERef} {g : Region} {x : Elem} (f : EFields) (next : Nat → Nat → List Nat → List Bool → Option (List Nat)) (h : ElemTurn s e g x)
  (edge : (W.of s).onOwnEdge e = true)
include h edge

/-- An idle node without a START stays as it is. -/
theorem treeNode_idle (hr : (s.node e).running = false) (hp : (W.of s).pendingOn e.r (nodeLine f - 1) e.key = none) : treeNode f next s = .next s := by
  have hs : (W.of s).nodeStart e f (f.mod.toNat + 1) = W.of s := (W.of s).nodeStart_idle f _ hr hp
  unfold treeNode
  rw [h.runElem_eq]
  simp only [edge, hs, show (W.of s).node e = s.node e from rfl, hr, Bool.not_true, Bool.not_false, Bool.false_eq_true, if_false, if_true, W.of_commit]

/-- A running node starts the children that it may. -/
theorem treeNode_starts (hr : (s.node e).running = true) {cs : List Nat} (hn : next (s.node e).n (f.mod.toNat + 1) (s.node e).fin (s.node e).busy = some cs)
    (hc : ∀ k ∈ cs, (W.of s).canPulse e.r (nodeBase f + 2 * k) = true) :
    treeNode f next s = .next (((cs.foldl (fun w k => w.pulse e.r (nodeBase f + 2 * k) (s.node e).latest (w.elemAgent e) (s.node e).cov) (W.of s)).setNode e fun n =>
      { n with busy := (List.range (f.mod.toNat + 1)).map fun k => n.busy.getD k false || cs.contains k }).commit s) := by
  have hs : (W.of s).nodeStart e f (f.mod.toNat + 1) = W.of s := (W.of s).nodeStart_running f _ hr
  have hall : (cs.all fun k => (W.of s).canPulse e.r (nodeBase f + 2 * k)) = true := List.all_eq_true.mpr hc
  unfold treeNode
  rw [h.runElem_eq]
  simp only [edge, hs, show (W.of s).node e = s.node e from rfl, hr, hn, hall, Bool.not_true, Bool.false_eq_true, if_false, if_true]

/-- A node whose run is over writes its pennant and pulses its line. -/
theorem treeNode_ends (hr : (s.node e).running = true) (hn : next (s.node e).n (f.mod.toNat + 1) (s.node e).fin (s.node e).busy = none) (h0 : (s.node e).n ≠ 0)
    (hc : (W.of s).canPulse e.r (nodeLine f) = true) :
    ∃ w ref, treeNode f next s = .next (((w.pulse e.r (nodeLine f) ref ((W.of s).elemAgent e) (s.node e).cov).setNode e fun n => { n with running := false }).commit s) ∧
      (W.of s).nodePennant e (s.node e).lastAgent (s.node e).lastRef (s.node e).startNs (s.node e).lastNs 0x10 = (w, ref) := by
  refine ⟨_, _, ?_, Prod.mk.eta.symm⟩
  have hs : (W.of s).nodeStart e f (f.mod.toNat + 1) = W.of s := (W.of s).nodeStart_running f _ hr
  have agent := h.has.nodePennant_elemAgent (s.node e).lastAgent (s.node e).lastRef (s.node e).startNs (s.node e).lastNs 0x10
  unfold treeNode
  rw [h.runElem_eq]
  simp only [edge, hs, show (W.of s).node e = s.node e from rfl, hr, hn, hc, h0, agent, Bool.not_true, Bool.false_eq_true, if_false]

/-- An idle node with a START and its count takes both, and starts the children that it may. -/
theorem treeNode_takes (hr : (s.node e).running = false) {p : Pulse} {i : Ins} (hp : (W.of s).pendingOn e.r (nodeLine f - 1) e.key = some p) (hi : x.inputs {} = some i)
    (hl : i.l.null = false) (he : i.l.emptyAt 0 = false)
    (hn : ∃ cs, next (i.l.lane 0).toNat (f.mod.toNat + 1) (List.replicate (f.mod.toNat + 1) 0) (List.replicate (f.mod.toNat + 1) false) = some cs) :
    ∃ t, treeNode f next s = .next t ∧ (t.node e).running = true ∧ (t.node e).n = (i.l.lane 0).toNat ∧ (t.node e).fin = List.replicate (f.mod.toNat + 1) 0 ∧
      tget (t.line e.r (nodeLine f - 1)).pend e.key = none ∧ (t.elem e).inL = if i.lT then none else x.inL := by
  obtain ⟨cs, hn⟩ := hn
  obtain ⟨cells, elems, lref, hc⟩ := h.consume_has i
  have hs := (W.of s).nodeStart_takes f (f.mod.toNat + 1) hr hp (h.has.elem_eq ▸ hi) hl he
  obtain ⟨w, hwn, g', hw, hnode, hpend⟩ : ∃ w, (W.of s).nodeStart e f (f.mod.toNat + 1) = w ∧ ∃ g', w.Has e g' { x.consumed i s.clk.now with leafRef := lref } ∧
      g'.node e.key = (g.node e.key).started p (i.l.lane 0).toNat (f.mod.toNat + 1) (((W.of s).consume e i).takePulse e.r (nodeLine f - 1) e.key).ns ∧
      tget (g'.pends (nodeLine f - 1)) e.key = none :=
    ⟨_, hs, _, (hc.takePulse _ _).setNode _, by simp [Region.node], by simp [Region.pends, Region.line]⟩
  unfold treeNode
  rw [h.runElem_eq]
  simp only [edge, hwn, hw.node_eq, hnode, Node.started, hn, Bool.not_true, Bool.false_eq_true, if_false]
  split
  · obtain ⟨g₁, h₁, hn₁, hp₁⟩ := hw.pulses (newer (g.node e.key).latest p.ref) p.cov (fun k => nodeBase f + 2 * k) cs
    have node₁ : g₁.node e.key = _ := (congrArg (fun l => tgetD l e.key ({} : Node)) hn₁).trans hnode
    exact ⟨_, rfl, (h₁.setNode _).taken s ((g₁.node_tput _ _).trans (congrArg _ node₁)) (hp₁ ▸ hpend)⟩
  · exact ⟨_, rfl, hw.taken s hnode hpend⟩

end Tree

/-! ## The children that may start -/

theorem foldl_add_replicate (c n : Nat) : (List.replicate c n).foldl (· + ·) 0 = n * c := by
  rw [← List.sum_eq_foldl_nat, List.sum_replicate_nat, Nat.mul_comm]

/-- Which children CSEQ lets start, as `seqNext` says when none runs. -/
def cseqNext (n c : Nat) (fin : List Nat) (busy : List Bool) : Option (List Nat) := if busy.any id then some [] else seqNext n c fin

theorem cseqNext_some {n c : Nat} {fin : List Nat} {busy : List Bool} (h : (decide (fin.foldl (· + ·) 0 < n * c) || busy.any id) = true) :
    cseqNext n c fin busy = some (if busy.any id then [] else [fin.foldl (· + ·) 0 % c]) := by
  cases hb : busy.any id with
  | true => simp [cseqNext, hb]
  | false => simp_all [cseqNext, seqNext]
theorem strmNext_some {n c : Nat} {fin : List Nat} {busy : List Bool} (h : (decide (fin.headD 0 < n) || busy.any id) = true) :
    strmNext n c fin busy = some (if busy.any id then [] else List.range c) := by
  cases hb : busy.any id with
  | true => simp [strmNext, hb]
  | false => simp_all [strmNext]
theorem pipeNext_some {n c : Nat} {fin : List Nat} {busy : List Bool} (h : decide (fin.getD (c - 1) 0 < n) = true) :
    pipeNext n c fin busy = some ((List.range c).filter fun i =>
      !busy.getD i false && decide (fin.getD i 0 < n) && (i == 0 || decide (fin.getD i 0 + 1 ≤ fin.getD (i - 1) 0)) &&
      (i + 1 == c || decide (fin.getD i 0 ≤ fin.getD (i + 1) 0 + 1))) := if_pos (of_decide_eq_true h)

/-- The three nodes' rules: what may start at a START, and that nothing may when every child has done every iteration. -/
structure NodeRule (next : Nat → Nat → List Nat → List Bool → Option (List Nat)) : Prop where
  starts : ∀ n c, n ≠ 0 → ∃ cs, next n (c + 1) (List.replicate (c + 1) 0) (List.replicate (c + 1) false) = some cs
  ends   : ∀ n c busy, busy.any id = false → next n (c + 1) (List.replicate (c + 1) n) busy = none

theorem cseqNext_rule : NodeRule cseqNext where
  starts n c h := ⟨_, cseqNext_some (by rw [foldl_add_replicate]; simp; omega)⟩
  ends n c busy h := by simp [cseqNext, seqNext, h, foldl_add_replicate]
theorem strmNext_rule : NodeRule strmNext where
  starts n c h := ⟨_, strmNext_some (by simp [List.replicate_succ]; omega)⟩
  ends n c busy h := by simp [strmNext, h, List.replicate_succ]
theorem pipeNext_rule : NodeRule pipeNext where
  starts n c h := ⟨_, pipeNext_some (by simp; omega)⟩
  ends n c busy h := by simp [pipeNext]

theorem treeOp_rule : ∀ op ∈ ([.cseq, .cpipe, .cstrm] : List (EFields → Instr)), ∃ next, NodeRule next ∧ ∀ f s, exec (op f) s = treeNode f next s := by
  simp only [List.forall_mem_cons, List.not_mem_nil, false_imp_iff, implies_true, and_true]
  exact ⟨⟨_, cseqNext_rule, fun _ _ => rfl⟩, ⟨_, pipeNext_rule, fun _ _ => rfl⟩, ⟨_, strmNext_rule, fun _ _ => rfl⟩⟩

/-! ## A child's DONE -/

/-- A node's record when a child's DONE has come. -/
def Node.childDone (n : Node) (k : Nat) (p : Pulse) (later : Bool) : Node :=
  let n := { n with busy := n.busy.set k false, fin := n.fin.set k (n.fin.getD k 0 + 1), latest := newer n.latest p.ref, cov := n.cov.join p.cov }
  if later then { n with lastG := p.landed, lastChild := k, lastNs := p.landedNs, lastRef := p.ref, lastAgent := p.agent } else n
theorem Node.childDone_busy (n : Node) (k : Nat) (p : Pulse) (later : Bool) : (n.childDone k p later).busy = n.busy.set k false := by cases later <;> rfl
theorem Node.childDone_fin (n : Node) (k : Nat) (p : Pulse) (later : Bool) : (n.childDone k p later).fin = n.fin.set k (n.fin.getD k 0 + 1) := by cases later <;> rfl

section Child

variable {s : State} {e : ERef} {g : Region} {x : Elem} {k : Nat} {p : Pulse} (h : ElemTurn s e g x) (hop : x.opc = 0xB0 ∨ x.opc = 0xB1 ∨ x.opc = 0xB2)
  (edge : (W.of s).onOwnEdge e = true) (hk : k < x.fields.mod.toNat + 1) (hp : (W.of s).pendingOn e.r (nodeBase x.fields + 2 * k + 1) e.key = some p)
include h hop edge hk hp

/-- A child's DONE comes to a node on an edge of its own, whatever it then finds. -/
theorem childDone_eq : exec (.nodeChildDone e.r e.cell e.slot k) s = .next ((
    if !(s.node e).running || !(s.node e).busy.getD k false then ((W.of s).takePulse e.r (nodeBase x.fields + 2 * k + 1) e.key).raiseElem e 0x251
    else ((W.of s).takePulse e.r (nodeBase x.fields + 2 * k + 1) e.key).setNode e fun n => n.childDone k p
      (decide ((s.node e).lastG < p.landed) || ((s.node e).lastG == p.landed && decide (k ≤ (s.node e).lastChild)))).commit s) := by
  have hcode : [0xB0, 0xB1, 0xB2].contains x.opc = true := by rcases hop with hop | hop | hop <;> rw [hop] <;> rfl
  show execNodeChildDone e.r e.cell e.slot k s = _
  unfold execNodeChildDone run
  simp only [h.has.elem_eq, W.guard, edge, hcode, hp, show (W.of s).node e = s.node e from rfl, decide_eq_true (Nat.le_of_lt_succ hk), Bool.and_self, if_true]
  rfl

theorem childDone_counts (hr : (s.node e).running = true) (hb : (s.node e).busy.getD k false = true) : ∃ t, exec (.nodeChildDone e.r e.cell e.slot k) s = .next t ∧
    (t.node e).busy = (s.node e).busy.set k false ∧ (t.node e).fin = (s.node e).fin.set k ((s.node e).fin.getD k 0 + 1) ∧
    tget (t.line e.r (nodeBase x.fields + 2 * k + 1)).pend e.key = none := by
  have hn : s.node e = g.node e.key := h.has.node_eq
  have hw := (h.has.takePulse (nodeBase x.fields + 2 * k + 1) e.key).setNode fun n => n.childDone k p
    (decide ((s.node e).lastG < p.landed) || ((s.node e).lastG == p.landed && decide (k ≤ (s.node e).lastChild)))
  obtain ⟨-, -, hfin, hpend, -⟩ := hw.taken s (l := nodeBase x.fields + 2 * k + 1) (Region.node_tput _ _ _) (by simp [Region.pends, Region.line])
  have hbusy := (congrArg Node.busy (hw.node_eq.trans (Region.node_tput _ _ _))).trans (Node.childDone_busy _ _ _ _)
  rw [childDone_eq h hop edge hk hp, hr, hb]
  exact ⟨_, rfl, hn ▸ hbusy, hn ▸ hfin.trans (Node.childDone_fin _ _ _ _), hpend⟩
theorem childDone_raises (hr : (s.node e).running = false ∨ (s.node e).busy.getD k false = false) :
    exec (.nodeChildDone e.r e.cell e.slot k) s = .next ((((W.of s).takePulse e.r (nodeBase x.fields + 2 * k + 1) e.key).raiseElem e 0x251).commit s) := by
  have hno : (!(s.node e).running || !(s.node e).busy.getD k false) = true := by
    rcases hr with hr | hr <;> rw [hr] <;> simp
  rw [childDone_eq h hop edge hk hp, if_pos hno]

end Child

/-- Settles O30: the three nodes are `treeNode` with a rule each, which says what may start at a START and at each later turn, and that nothing may when all is done. -/
theorem controllerNodes : Obligations.ControllerNodes := by
  intro f s e g x n c d b done h hn hc hd hb hdone
  subst hn hc hd hb hdone
  refine ⟨?_, ?_, ?_, ?_⟩
  · intro op hop edge hr
    obtain ⟨next, rule, hop⟩ := treeOp_rule op hop
    simp only [hop]
    exact ⟨fun p i hp hi hl he h0 => treeNode_takes f next h edge hr hp hi hl he (rule.starts _ _ h0), treeNode_idle f next h edge hr⟩
  · simp only [List.forall_mem_cons, List.not_mem_nil, false_imp_iff, implies_true, and_true]
    exact ⟨fun edge hr hm hs => treeNode_starts f cseqNext h edge hr (cseqNext_some hm) hs, fun edge hr hm hs => treeNode_starts f strmNext h edge hr (strmNext_some hm) hs,
      fun edge hr hm hs => treeNode_starts f pipeNext h edge hr (pipeNext_some hm) hs⟩
  · intro op hop edge hr hb h0 hf hc
    obtain ⟨next, rule, hop⟩ := treeOp_rule op hop
    rw [hop]
    exact treeNode_ends f next h edge hr (by rw [hf]; exact rule.ends _ _ _ hb) h0 hc
  · intro k p hf hop edge hk _ _ hp
    subst hf
    exact ⟨childDone_counts h hop edge hk hp, childDone_raises h hop edge hk hp⟩

end Sys2Proof.Machine
end

section
/-! PROOFS. Pulses and landings: CBAR, RCFG, a line's delivery, a leaf's DONE and a result's landing (02_execution_model.md R18, R23, R24, R29, R30); from them O31. -/

namespace Sys2Proof.Machine

/-! ## CBAR -/

/-- The pulse that a scan for the latest ends at: one that landed after every other. -/
theorem foldl_latest_pulse {z : Pulse} (ps : List Pulse) (a : Pulse) (hz : z ∈ ps ∨ a = z) (h : ∀ p ∈ ps, p ≠ z → p.landed < z.landed) (ha : a ≠ z → a.landed < z.landed) :
    ps.foldl (fun (a : Pulse) p => if a.landed < p.landed then p else a) a = z := by
  induction ps generalizing a with
  | nil => exact hz.resolve_left (by simp)
  | cons p ps ih =>
    have hp := h p (by simp)
    refine ih _ ?_ (fun q hq => h q (by simp [hq])) ?_
    · by_cases ea : a = z
      · subst ea
        by_cases ep : p = a
        · simp [ep]
        · exact .inr (if_neg (Nat.lt_asymm (hp ep)))
      · have := ha ea
        by_cases ep : p = z
        · subst ep; exact .inr (if_pos this)
        · exact .inl ((List.mem_cons.mp (hz.resolve_right ea)).resolve_left (Ne.symm ep))
    · dsimp only
      split <;> assumption
/-- A scan for the earliest time is at most every time that it has seen. -/
theorem foldl_earliest_le (ps : List Pulse) (n : Nat) :
    ps.foldl (fun a p => min a p.landedNs) n ≤ n ∧ ∀ p ∈ ps, ps.foldl (fun a p => min a p.landedNs) n ≤ p.landedNs := by
  induction ps generalizing n with
  | nil => simp
  | cons p ps ih =>
    obtain ⟨h1, h2⟩ := ih (min n p.landedNs)
    simp only [List.foldl_cons, List.forall_mem_cons]
    exact ⟨h1.trans (Nat.min_le_left _ _), h1.trans (Nat.min_le_right _ _), h2⟩
theorem filterMap_of_map_some {α β : Type} {f : α → Option β} {l : List α} {ps : List β} (h : l.map f = ps.map some) : l.filterMap f = ps := by
  have := congrArg (List.filterMap id) h
  simpa [List.filterMap_map] using this

/-- Taking pulses from lines leaves the node's id as an agent. -/
theorem W.Has.takePulses {w : W} {e : ERef} {g : Region} {x : Elem} (h : w.Has e g x) (k : Nat) (ls : List Nat) : ∃ lines,
    (ls.foldl (fun w l => w.takePulse e.r l k) w).Has e { g with lines := lines } x ∧ (ls.foldl (fun w l => w.takePulse e.r l k) w).m.bar = w.m.bar := by
  induction ls generalizing w g with
  | nil => exact ⟨g.lines, h, rfl⟩
  | cons l ls ih =>
    obtain ⟨lines, h1, h2⟩ := ih (h.takePulse l k)
    exact ⟨lines, h1, h2⟩

theorem cbar_joins {f : EFields} {s : State} {e : ERef} {g : Region} {x : Elem} {ls : List Nat} {ps : List Pulse} {z : Pulse} (h : ElemTurn s e g x)
    (turn : (W.of s).onTurn e = true) (hls : ls = (List.range f.imm.toNat).map (nodeBase f + ·))
    (hps : ls.map (fun l => (W.of s).pendingOn e.r l e.key) = ps.map some) (hz : z ∈ ps) (hlast : ∀ p ∈ ps, p ≠ z → p.landed < z.landed)
    (hc : (W.of s).canPulse e.r (nodeLine f) = true) :
    ∃ w ref first, exec (.cbar f) s =
      .next ((w.pulse e.r (nodeLine f) ref ((W.of s).elemAgent e) (ps.foldl (fun (c : Cov) p => c.join p.cov) {})).commit s) ∧ (∀ p ∈ ps, first ≤ p.landedNs) ∧
      (ls.foldl (fun w l => w.takePulse e.r l e.key) (W.of s)).nodePennant e z.agent z.ref first z.landedNs 0x11 = (w, ref) := by
  have hlen : ps.length = ls.length := by simpa using (congrArg List.length hps).symm
  have hpne : ps ≠ [] := List.ne_nil_of_mem hz
  have hlatest : ps.foldl (fun (a : Pulse) p => if a.landed < p.landed then p else a) (ps.headD {}) = z := by
    cases ps with
    | nil => exact absurd rfl hpne
    | cons p ps => exact foldl_latest_pulse _ _ (.inl hz) hlast (hlast p (by simp))
  obtain ⟨lines, hw, hbar⟩ := h.has.takePulses e.key ls
  have agent := (hw.nodePennant_elemAgent z.agent z.ref (ps.foldl (fun a p => min a p.landedNs) z.landedNs) z.landedNs 0x11).trans
    (h.has.elemAgent_eq hw rfl rfl (by simp only [W.fld, W.bar, hbar]))
  refine ⟨_, _, ps.foldl (fun a p => min a p.landedNs) z.landedNs, ?_, (foldl_earliest_le ps _).2, Prod.mk.eta.symm⟩
  show execCbar f s = _
  unfold execCbar
  rw [h.runElem_eq]
  simp only [turn, ← hls, filterMap_of_map_some hps, hlen, hpne, hc, hlatest, agent, ne_eq, not_true_eq_false, Bool.not_true, Bool.false_eq_true, or_self, if_false]

/-! ## RCFG -/

theorem rcfg_asks {f : EFields} {s : State} {e : ERef} {g : Region} {x : Elem} {p : Pulse} (h : ElemTurn s e g x) (turn : (W.of s).onTurn e = true)
    (hr : (s.node e).running = false) (hp : (W.of s).pendingOn e.r (nodeLine f - 1) e.key = some p) :
    ∃ t, exec (.rcfg f) s = .next t ∧ (t.node e).running = true ∧
      (t.region e.r).secQ = secInsert { sec := f.imm.toNat, byElem := true, who := e.key, agent := (W.of s).elemAgent e, at' := s.clk.now
                                        ref := newer (s.node e).latest p.ref } g.secQ ∧ t.mem = s.mem := by
  have hw := (h.has.takePulse (nodeLine f - 1) e.key).setNode fun n =>
    { n with running := true, startNs := ((W.of s).takePulse e.r (nodeLine f - 1) e.key).ns, latest := newer n.latest p.ref, lastRef := p.ref, cov := p.cov }
  have agent := h.has.elemAgent_eq hw rfl rfl rfl
  have hq := hw.setRegion (fun g => { g with secQ := secInsert { sec := f.imm.toNat, byElem := true, who := e.key, agent := (W.of s).elemAgent e, at' := s.clk.now
                                                                 ref := newer (s.node e).latest p.ref } g.secQ }) rfl
  have hnode := hq.node_eq.trans (Region.node_tput _ _ _)
  show ∃ t, execRcfg f s = _ ∧ _
  unfold execRcfg
  rw [h.runElem_eq]
  simp only [W.guard, turn, show (W.of s).node e = s.node e from rfl, hr, hp, agent, Bool.not_false, Bool.and_self, if_true]
  exact ⟨_, rfl, congrArg Node.running hnode, congrArg Region.secQ hq.state_region, rfl⟩

/-! ## A line's delivery -/

/-- From w to w' regions, sequencers and memory are as before. -/
structure W.Wakes (w w' : W) : Prop where
  regions : w'.m.regions = w.m.regions
  seqs    : w'.m.seqs = w.m.seqs
  log     : w'.log = w.log

theorem W.Wakes.refl (w : W) : w.Wakes w := ⟨rfl, rfl, rfl⟩
theorem W.Wakes.trans {u v w : W} (a : u.Wakes v) (b : v.Wakes w) : u.Wakes w := ⟨b.regions.trans a.regions, b.seqs.trans a.seqs, b.log.trans a.log⟩
/-- A wake asks for power, and no more. -/
theorem W.wakeAt_wakes (w : W) (r cell : Nat) : w.Wakes (w.wakeAt r cell) := by
  unfold W.wakeAt
  dsimp only
  split
  · exact ⟨rfl, rfl, rfl⟩
  · exact .refl w
theorem W.wakeListeners (w : W) (r : Nat) (ls : List Nat) : w.Wakes (ls.foldl (fun w k => if k = seqListener then w else w.wakeAt r (k / 8)) w) :=
  List.foldlRecOn ls _ (.refl w) fun v hv k _ => by
    split
    · exact hv
    · exact hv.trans (v.wakeAt_wakes r _)

/-- What every key of a list holds when each has been given a value. -/
theorem tget_foldl_tput {α : Type} (ks : List Nat) (f : Nat → α) (t : Tbl α) {k : Nat} (h : k ∈ ks ∨ tget t k = some (f k)) :
    tget (ks.foldl (fun t k => tput t k (f k)) t) k = some (f k) := by
  induction ks generalizing t with
  | nil => exact h.resolve_left (by simp)
  | cons j ks ih =>
    refine ih _ ?_
    by_cases hj : k = j
    · exact .inr (by simp [hj])
    · exact h.imp (fun hm => (List.mem_cons.mp hm).resolve_left hj) fun ht => by rw [tget_tput_ne _ _ _ _ hj]; exact ht

/-- What the landing on h1 does besides: the root is done, and the oldest START run of the sequencer that waits retires. -/
def W.rootLands (w : W) (r quad : Nat) (p : Pulse) : W :=
  let w := w.setRegion r fun g => { g with rootDone := true }
  match (w.seq quad).outs.find? fun o => o.cls == .tiles && o.reg == 0 && !o.done with
  | some o => w.setSeq quad fun q => q.finish o.id p.agent p.ref w.ns p.cov
  | none => w
theorem W.rootLands_regions (w : W) (r quad : Nat) (p : Pulse) : (w.rootLands r quad p).m.regions = tmod w.m.regions r fun g => { g with rootDone := true } := by
  unfold W.rootLands
  dsimp only
  split <;> rfl
theorem W.rootLands_log (w : W) (r quad : Nat) (p : Pulse) : (w.rootLands r quad p).log = w.log := by
  unfold W.rootLands
  dsimp only
  split <;> rfl

/-- A line, and a region, of a state. -/
theorem line_of_tget {s : State} {r : Nat} {g : Region} (hg : tget s.m.regions r = some g) (h : Nat) : s.line r h = g.line h := by
  rw [State.line, W.line, region_of_tget hg]; rfl
theorem region_at {s : State} {r : Nat} {g : Region} (hg : tget s.m.regions r = some g) : s.region r = g := region_of_tget hg

section Deliver

variable {s : State} {r h : Nat} {g : Region} {p : Pulse} {rest : List Pulse} (hg : tget s.m.regions r = some g) (hh : (s.line r h).held = p :: rest)
include hg hh

/-- A pulse that its driver holds stays there until it can land. -/
theorem deliver_waits (hl : (W.of s).pulseLands g p = false) : exec (.halyardPulseDeliver r h) s = .next s := by
  show execHalyardPulseDeliver r h s = _
  unfold execHalyardPulseDeliver Sys2Proof.Machine.run
  simp only [region_of_tget hg, show (W.of s).line r h = s.line r h from rfl, hh, W.guard, hl, Bool.and_false, Bool.false_and, Bool.false_eq_true, if_false, W.of_commit]

variable (run : g.runsAt s.clk.now = true) (go : (W.of s).stopDue g = false) (up : (s.part g.part).halted = false)
  (hl : (W.of s).pulseLands g p = true) (hf : ∀ k ∈ (s.line r h).listeners, tget (s.line r h).pend k = none)
include run go up hl hf

/-- A pulse that can land reaches every listener, and wakes what it reaches. -/
theorem deliver_eq : ∃ w,
    ((W.of s).setLine r h fun l => { l with
      held := rest, pend := (s.line r h).listeners.foldl (fun t k => tput t k { p with landed := s.clk.now, landedNs := s.ns }) (s.line r h).pend }).Wakes w ∧
    exec (.halyardPulseDeliver r h) s = .next ((if h ≠ 1 then w else w.rootLands r (regionQuad g 0) p).commit s) := by
  have hall : ((s.line r h).listeners.all fun k => (tget (s.line r h).pend k).isNone) = true := List.all_eq_true.mpr fun k hk => by rw [hf k hk]; rfl
  have hrun : g.runsAt (W.of s).now = true := run
  have hup : ((W.of s).part g.part).halted = false := up
  refine ⟨_, W.wakeListeners _ r (s.line r h).listeners, ?_⟩
  show execHalyardPulseDeliver r h s = _
  unfold execHalyardPulseDeliver Sys2Proof.Machine.run
  simp only [region_of_tget hg, show (W.of s).line r h = s.line r h from rfl, hh, W.guard, hl, hall, hrun, go, hup, Bool.not_false, Bool.and_self, if_true]
  rfl

theorem deliver_lands : ∃ t, exec (.halyardPulseDeliver r h) s = .next t ∧
    (t.line r h).held = rest ∧ t.mem = s.mem ∧ (∀ k ∈ (s.line r h).listeners, tget (t.line r h).pend k = some { p with landed := s.clk.now, landedNs := s.ns }) ∧
    (h = 1 → (t.region r).rootDone = true) ∧ (h ≠ 1 → t.m.seqs = s.m.seqs) := by
  obtain ⟨w, hw, hexec⟩ := deliver_eq hg hh run go up hl hf
  refine ⟨_, hexec, ?_⟩
  have hr : tget w.m.regions r = _ := (congrArg (tget · r) (hw.regions.trans (tmod_of_tget _ hg))).trans (tget_tput_self _ _ _)
  have hp : ∀ k ∈ (s.line r h).listeners, tget ((s.line r h).listeners.foldl (fun t k => tput t k { p with landed := s.clk.now, landedNs := s.ns }) (s.line r h).pend) k =
      some { p with landed := s.clk.now, landedNs := s.ns } := fun k hk => tget_foldl_tput _ (fun _ => { p with landed := s.clk.now, landedNs := s.ns }) _ (.inl hk)
  by_cases h1 : h = 1
  · rw [if_neg (by simp [h1])]
    have hr' : tget ((w.rootLands r (regionQuad g 0) p).commit s).m.regions r = _ :=
      (congrArg (tget · r) ((w.rootLands_regions r _ p).trans (tmod_of_tget _ hr))).trans (tget_tput_self _ _ _)
    rw [line_of_tget hr', region_at hr']
    refine ⟨by simp [Region.line], ?_, fun k hk => by simpa [Region.line] using hp k hk, fun _ => rfl, fun hne => absurd h1 hne⟩
    rw [W.commit_mem, w.rootLands_log, hw.log]
    rfl
  · rw [if_pos h1]
    have hr' : tget (w.commit s).m.regions r = _ := hr
    rw [line_of_tget hr']
    refine ⟨by simp [Region.line], ?_, fun k hk => by simpa [Region.line] using hp k hk, fun he => absurd he h1, fun _ => hw.seqs⟩
    rw [W.commit_mem, hw.log]
    rfl

end Deliver

/-! ## A leaf's DONE -/

/-- What a leaf's DONE carries: what the leaf's agents have released. -/
def W.leafCov (w : W) (g : Region) (r line : Nat) : Cov := (g.leafCells line).foldl (fun (c : Cov) k => c.join (w.releases (w.eyeOf (.elem r k 0)) 2)) {}

/-- The quad of an agent of a region: the region's place, and where the copies of its elements stand. -/
theorem W.penQuad_congr {w w' : W} {r : Nat} {g g' : Region} (hr' : w'.region r = g') (hr : w.region r = g) (hg : siteQuad g' = siteQuad g)
    (he : ∀ k, ((tgetD g'.elems k {}).copies, (tgetD g'.elems k {}).turn) = ((tgetD g.elems k {}).copies, (tgetD g.elems k {}).turn)) (c slot : Nat) :
    w'.penQuad ⟨r, c, slot⟩ = w.penQuad ⟨r, c, slot⟩ := by
  have hk := he (ekey c slot)
  injection hk with hc ht
  simp only [W.penQuad, W.elem, hr, hr', ERef.key, hc, ht, hg]

section Leaf

variable {s : State} {e : ERef} {g : Region} {x : Elem} {d : Nat} (hg : tget s.m.regions e.r = some g) (hx : tget g.elems e.key = some x)
  (edge : (W.of s).onEdge g e.cell = true) (hd : d = g.doneLine e.cell)
include hg hx

/-- The world once a done source has used its mark, and its leaf is free again. -/
theorem leafFreed (l : Nat) : ∃ w, ((W.of s).setElem e fun x => { x with lastSeen := false }).setRegion e.r (fun g => { g with leafBusy := tdel g.leafBusy l }) = w ∧
    w.Has e { g with elems := tput g.elems e.key { x with lastSeen := false }, leafBusy := tdel g.leafBusy l } { x with lastSeen := false } ∧
    w.elemAgent e = (W.of s).elemAgent e ∧ w.clk = s.clk ∧ ∀ line, w.leafCov g e.r line = (W.of s).leafCov g e.r line := by
  have h : (W.of s).Has e g x := ⟨hg, hx⟩
  have hw := (h.setElem fun x => { x with lastSeen := false }).setRegion (fun g => { g with leafBusy := tdel g.leafBusy l }) rfl
  refine ⟨_, rfl, hw, h.elemAgent_eq hw rfl rfl rfl, rfl, fun line => ?_⟩
  have eye : ∀ k, (((W.of s).setElem e fun x => { x with lastSeen := false }).setRegion e.r fun g => { g with leafBusy := tdel g.leafBusy l }).eyeOf (.elem e.r k 0) =
      (W.of s).eyeOf (.elem e.r k 0) := fun k => by
    have quad := W.penQuad_congr hw.region_eq h.region_eq (g' := { g with elems := tput g.elems e.key { x with lastSeen := false }, leafBusy := tdel g.leafBusy l }) rfl
      (fun j => by
        by_cases hj : j = e.key
        · subst hj; simp [tgetD, hx]
        · simp only [tgetD_tput_ne _ _ _ _ _ hj]) k 0
    simp only [W.eyeOf, W.dieOf, W.orderOf, W.srcRegion, W.srcAgent, W.elemAgent, quad, hw.region_eq, h.region_eq]
    rfl
  simp only [W.leafCov, eye]
  rfl

include hd

theorem leafDone_waits (hl : (W.of s).leafDone e.r (d - 1) = false) : exec (.leafDone e.r e.cell e.slot) s = .next s := by
  have h : (W.of s).Has e g x := ⟨hg, hx⟩
  show execLeafDone e.r e.cell e.slot s = _
  unfold execLeafDone Sys2Proof.Machine.run
  simp only [h.region_eq, ← hd, hl, W.guard, Bool.and_false, Bool.false_and, Bool.false_eq_true, if_false, W.of_commit]

include edge

theorem leafDone_pulses (hdone : x.done = true) (hlast : x.lastSeen = true) (hc : (W.of s).canPulse e.r d = true) (hl : (W.of s).leafDone e.r (d - 1) = true) :
    ∃ t, exec (.leafDone e.r e.cell e.slot) s = .next t ∧ (t.elem e).lastSeen = false ∧
      (t.line e.r d).held = [{ ref := x.leafRef, agent := (W.of s).elemAgent e, landed := s.clk.now, landedNs := s.ns, lands := s.clk.now + 1
                               cov := (W.of s).leafCov g e.r (d - 1) }] := by
  have h : (W.of s).Has e g x := ⟨hg, hx⟩
  obtain ⟨w, hw, hhas, agent, clk, cov⟩ := leafFreed hg hx (d - 1)
  obtain ⟨held, -⟩ := Bool.and_eq_true_iff.mp hc
  have hempty : (g.line d).held = [] := by rw [← h.line_eq]; exact List.isEmpty_iff.mp held
  have hp := hhas.setLine d fun l => { l with held := l.held ++ [{
    ref := x.leafRef, agent := w.elemAgent e, landed := w.now, landedNs := w.ns, lands := w.now + 1, cov := w.leafCov g e.r (d - 1) }] }
  have hline := hp.line_eq d
  refine ⟨_, ?_, congrArg Elem.lastSeen (hp.state_elem (s := s)), ?_⟩
  · show execLeafDone e.r e.cell e.slot s = _
    unfold execLeafDone Sys2Proof.Machine.run
    simp only [h.region_eq, h.elem_eq, ← hd, hl, hdone, hlast, edge, hc, W.guard, Bool.and_self, if_true]
    rw [hw]
    rfl
  · refine (congrArg Line.held hline).trans ?_
    simp only [Region.line, tgetD_tput_self, show (tgetD g.lines d {}).held = [] from hempty, List.nil_append, agent, cov, W.now, W.ns, clk]
    rfl

end Leaf

/-! ## A result's landing -/

section Land

variable {s : State} {e : ERef} {g : Region} {x : Elem} {y : Flight} {ys : List Flight} (hg : tget s.m.regions e.r = some g) (hx : tget g.elems e.key = some x)
  (edge : (W.of s).onEdge g e.cell = true) (hf : x.flights = y :: ys) (hr : y.req = none)
include hg hx

/-- A result's landing, of an element that is no RNGP. -/
theorem resultLand_eq (hop : x.opc ≠ 0xA5) : exec (.resultLand e.r e.cell e.slot) s = .next (((W.of s).resultLand e).commit s) := by
  have h : (W.of s).Has e g x := ⟨hg, hx⟩
  have hno : (x.opc == 0xA5) = false := beq_eq_false_iff_ne.mpr hop
  show execResultLand e.r e.cell e.slot s = _
  unfold execResultLand Sys2Proof.Machine.run
  simp only [h.elem_eq, hno, hop, Bool.false_and, false_and, if_false]

include edge hf hr

theorem W.resultLand_due (hd : y.due ≤ (W.of s).edgeOf g e.cell) (ha : (W.of s).canLand e.r (x.flightA y) = true) (hb : (W.of s).canLand e.r (x.flightB y) = true) :
    (W.of s).resultLand e = ((((W.of s).setElem e fun x => { x with flights := ys }).landFlags e y.flags).deliver e (x.flightA y) y.a).deliver e (x.flightB y) y.b := by
  have h : (W.of s).Has e g x := ⟨hg, hx⟩
  unfold W.resultLand
  simp only [h.region_eq, h.elem_eq, edge, hf, hr, decide_eq_true hd, ha, hb, Option.isNone_none, Bool.or_true, Bool.and_self, Bool.not_true, Bool.false_eq_true, if_false, if_true]
theorem W.resultLand_early (hd : (W.of s).edgeOf g e.cell < y.due) : (W.of s).resultLand e = W.of s := by
  have h : (W.of s).Has e g x := ⟨hg, hx⟩
  unfold W.resultLand
  simp only [h.region_eq, h.elem_eq, edge, hf, hr, decide_eq_false (Nat.not_le_of_lt hd), Bool.and_false, Bool.not_true, Bool.false_eq_true, if_false]

end Land

/-- Settles O31: each event is guarded, and what it changes beyond its own records is asked for, woken or raised elsewhere. -/
theorem pulsesAndLandings : Obligations.PulsesAndLandings := by
  refine ⟨fun f s e g x ls ps z h turn hls _ hps hz hlast hc => cbar_joins h turn hls hps hz hlast hc, fun f s e g x p h turn hr hp => rcfg_asks h turn hr hp,
    fun s r h g p rest hg run go up hh => ⟨deliver_waits hg hh, deliver_lands hg hh run go up⟩,
    fun s e g x d hg hx hd edge hdone hlast hc => ⟨leafDone_pulses hg hx edge hd hdone hlast hc, leafDone_waits hg hx hd⟩,
    fun s e g x y ys hg hx edge hf hr hop => ?_⟩
  rw [resultLand_eq hg hx hop]
  exact ⟨fun hd ha hb => by rw [W.resultLand_due hg hx edge hf hr hd ha hb], fun hd => by rw [W.resultLand_early hg hx edge hf hr hd, W.of_commit]⟩

end Sys2Proof.Machine
end

section
/-! PROOFS. Fields of registers: what a field reads after a write of the same and of another field, and of a register after a write of another (00_scope.md R6). -/

namespace Sys2Proof

/-- The bits of a register after a field's write: the field's from the value, the others as before. -/
theorem getLsbD_setField {n : Nat} (v : BitVec n) (hi lo x i : Nat) :
    (setField v hi lo x).getLsbD i = if i < n ∧ lo ≤ i ∧ i - lo < hi - lo + 1 then x.testBit (i - lo) else v.getLsbD i := by
  by_cases hn : i < n
  · simp only [setField, BitVec.getLsbD_or, BitVec.getLsbD_and, BitVec.getLsbD_not, BitVec.getLsbD_ofNat, Nat.testBit_shiftLeft, Nat.testBit_two_pow_sub_one, hn,
      decide_true, Bool.true_and, true_and, ge_iff_le]
    by_cases h : lo ≤ i ∧ i - lo < hi - lo + 1
    · simp only [h.1, h.2, decide_true, Bool.and_true, Bool.true_and, Bool.not_true, Bool.and_false, Bool.false_or, and_self, if_true]
    · have hm : (decide (lo ≤ i) && decide (i - lo < hi - lo + 1)) = false := by simpa using h
      simp only [hm, h, Bool.not_false, Bool.and_true, Bool.and_false, Bool.or_false, if_false]
  · simp [setField, hn, BitVec.getLsbD_of_ge _ _ (Nat.le_of_not_lt hn)]

/-- The bits of a field. -/
theorem testBit_field {n : Nat} (v : BitVec n) (hi lo i : Nat) : (field v hi lo).testBit i = (decide (i < hi - lo + 1) && v.getLsbD (lo + i)) := by
  simp [field, Nat.testBit_mod_two_pow, Nat.testBit_shiftRight, BitVec.getLsbD]

theorem field_lt {n : Nat} (v : BitVec n) (hi lo : Nat) : field v hi lo < 2 ^ (hi - lo + 1) := Nat.mod_lt _ (Nat.two_pow_pos _)

/-- A field reads what has been written to it. -/
theorem field_setField_same {n : Nat} (v : BitVec n) {hi lo x : Nat} (hn : hi < n) (hl : lo ≤ hi) (hx : x < 2 ^ (hi - lo + 1)) : field (setField v hi lo x) hi lo = x := by
  refine Nat.eq_of_testBit_eq fun i => ?_
  rw [testBit_field, getLsbD_setField]
  by_cases hi' : i < hi - lo + 1
  · rw [if_pos (by omega)]
    simp [hi']
  · simp [hi', Nat.testBit_lt_two_pow (lt_of_lt_of_le hx (Nat.pow_le_pow_right (by omega) (Nat.le_of_not_lt hi')))]

/-- A field stands when another is written. -/
theorem field_setField_other {n : Nat} (v : BitVec n) {hi lo hi' lo' : Nat} (x : Nat) (hl : lo ≤ hi) (hl' : lo' ≤ hi') (h : hi' < lo ∨ hi < lo') :
    field (setField v hi lo x) hi' lo' = field v hi' lo' := by
  refine Nat.eq_of_testBit_eq fun i => ?_
  rw [testBit_field, testBit_field, getLsbD_setField]
  by_cases hi' : i < hi' - lo' + 1
  · rw [if_neg (by omega)]
  · simp [hi']

namespace Machine

@[simp] theorem W.setBar_bar_same (w : W) (o : Nat) (v : W64) : (w.setBar o v).bar o = v := by simp [W.bar, W.setBar, barGet, barPut]
theorem W.setBar_bar_other (w : W) {o p : Nat} (v : W64) (h : p ≠ o) : (w.setBar o v).bar p = w.bar p := by
  simp [W.bar, W.setBar, barGet, barPut, tgetD_tput_ne _ _ _ _ _ h]
theorem W.setFld_bar_other (w : W) {o p : Nat} (hi lo x : Nat) (h : p ≠ o) : (w.setFld o hi lo x).bar p = w.bar p := w.setBar_bar_other _ h
theorem W.setFld_fld_same (w : W) (o : Nat) {hi lo x : Nat} (hn : hi < 64) (hl : lo ≤ hi) (hx : x < 2 ^ (hi - lo + 1)) : (w.setFld o hi lo x).fld o hi lo = x := by
  simp [W.fld, W.setFld, field_setField_same _ hn hl hx]
theorem W.setFld_fld_other (w : W) (o : Nat) {hi lo hi' lo' : Nat} (x : Nat) (hl : lo ≤ hi) (hl' : lo' ≤ hi') (h : hi' < lo ∨ hi < lo') :
    (w.setFld o hi lo x).fld o hi' lo' = w.fld o hi' lo' := by
  simp [W.fld, W.setFld, field_setField_other _ x hl hl' h]

end Machine
end Sys2Proof
end

section
/-! PROOFS. Rates and budgets: triggers, solves, switch cycles, tokens, energy and temperature (07_islands_and_rates.md R112 to R115; 26_power_control.md R382 to
R384; 30_fleet_operation.md R416, R417); from them O51. -/

namespace Sys2Proof.Machine

/-! ## Triggers of a re-solve -/

/-- An entry of a table whose entries have all been changed, each by its key. -/
theorem tget_map_entries {α : Type} (t : Tbl α) (f : Nat → α → α) (k : Nat) : tget (t.map fun x => (x.1, f x.1 x.2)) k = (tget t k).map (f k) := by
  induction t with
  | nil => rfl
  | cons x t ih =>
    by_cases hk : x.1 = k
    · subst hk; simp [tget]
    · simp [tget, hk, ih]

/-- A region after a trigger of those that a test picks out. -/
theorem tget_triggerSolve (w : W) (p : Nat → Region → Bool) (k : Nat) :
    tget (w.triggerSolve p).m.regions k = (tget w.m.regions k).map fun g => if p k g then { g with trigger := true } else g := by
  refine .trans (congrArg (tget · k) (List.map_congr_left fun x _ => ?_)) (tget_map_entries w.m.regions (fun k g => if p k g then { g with trigger := true } else g) k)
  dsimp only
  split <;> rfl

/-- A region that the test picks out waits for a solve. -/
theorem triggered_region (s : State) {w : W} {p : Nat → Region → Bool} {k : Nat} {g : Region} (h : tget w.m.regions k = some g) (hp : p k g = true) :
    (((w.triggerSolve p).commit s).region k).trigger = true := by
  have ht : tget ((w.triggerSolve p).commit s).m.regions k = some { g with trigger := true } := by
    rw [W.commit_m, tget_triggerSolve, h, Option.map_some, if_pos hp]
  rw [State.region, region_of_tget ht]

section Pressure

variable {s : State} {r : Nat} {g : Region} (hg : tget s.m.regions r = some g)
include hg

theorem backPressure_eq : exec (.backPressureThreshold r) s = .next (((W.of s).guard (g.runs && match g.pressedAt with | some t => decide (t + 100000 ≤ s.ns) | none => false) fun w =>
    (w.triggerSolve fun k _ => k == r).setRegion r fun g => { g with press := 0, pressedAt := none }).commit s) := by
  show execBackPressureThreshold r s = _
  unfold execBackPressureThreshold run
  simp only [region_of_tget hg]
  rfl

theorem backPressure_triggers {n : Nat} (hr : g.runs = true) (hp : g.pressedAt = some n) (hn : n + 100000 ≤ s.ns) : ∃ t, exec (.backPressureThreshold r) s = .next t ∧
    t.mem = s.mem ∧ tget t.m.regions r = some { g with trigger := true, press := 0, pressedAt := none } ∧ ∀ j, j ≠ r → tget t.m.regions j = tget s.m.regions j := by
  have ht : ∀ j, tget ((W.of s).triggerSolve fun k _ => k == r).m.regions j = (tget s.m.regions j).map fun g => if j == r then { g with trigger := true } else g :=
    tget_triggerSolve (W.of s) fun k _ => k == r
  rw [backPressure_eq hg, hr, hp]
  simp only [W.guard, decide_eq_true hn, Bool.and_self, if_true]
  refine ⟨_, rfl, rfl, ?_, fun j hj => ?_⟩
  · simp only [W.commit_m, W.setRegion_regions, tget_tmod_self, ht, hg, Option.map_some, beq_self_eq_true, if_true]
  · simp only [W.commit_m, W.setRegion_regions, tget_tmod_ne _ _ _ _ hj, ht, beq_eq_false_iff_ne.mpr hj, Bool.false_eq_true, if_false, Option.map_id']

theorem backPressure_stands (hn : ∀ n, g.pressedAt = some n → s.ns < n + 100000) : exec (.backPressureThreshold r) s = .next s := by
  have hno : (match g.pressedAt with | some t => decide (t + 100000 ≤ s.ns) | none => false) = false := by
    cases hp : g.pressedAt with
    | none => rfl
    | some n => exact decide_eq_false (Nat.not_le_of_lt (hn n hp))
  rw [backPressure_eq hg, hno]
  simp only [W.guard, Bool.and_false, Bool.false_eq_true, if_false, W.of_commit]

end Pressure

/-! ## Tokens, energy, temperature -/

theorem tokenRefill_adds {s : State} {n : Nat} (hr : (s.part n).refills < s.ns / 1000000) (hc : (s.part n).refilled.1 ≠ s.clk.now + 1) : ∃ t, exec (.prioTokenRefill n) s = .next t ∧ t.mem = s.mem ∧
    field (t.bar (Bar.partTok n)) 15 0 =
      max (field (s.bar (Bar.partTok n)) 15 0) (min (field (s.bar (Bar.partCtl n)) 55 40) (field (s.bar (Bar.partTok n)) 15 0 + field (s.bar (Bar.partCtl n)) 39 32)) ∧
    (t.part n).refills = (s.part n).refills + 1 := by
  have hg : decide (((W.of s).part n).refills < (W.of s).ns / 1000000 ∧ ((W.of s).part n).refilled.1 ≠ (W.of s).now + 1) = true := decide_eq_true ⟨hr, hc⟩
  have htok := field_lt (s.bar (Bar.partTok n)) 15 0
  have htop := field_lt (s.bar (Bar.partCtl n)) 55 40
  show ∃ t, execPrioTokenRefill n s = _ ∧ _
  unfold execPrioTokenRefill run
  simp only [W.guard, hg, if_true]
  refine ⟨_, rfl, rfl, ?_, ?_⟩
  · exact W.setFld_fld_same (W.of s) _ (by omega) (by omega) (by
      show max (field (s.bar (Bar.partTok n)) 15 0) (min (field (s.bar (Bar.partCtl n)) 55 40) _) < _
      omega)
  · simp [State.part, W.part, W.setFld, W.setBar]
theorem tokenRefill_once {s : State} {n : Nat} (hc : (s.part n).refilled.1 = s.clk.now + 1) : exec (.prioTokenRefill n) s = .next s := by
  have hg : decide (((W.of s).part n).refills < (W.of s).ns / 1000000 ∧ ((W.of s).part n).refilled.1 ≠ (W.of s).now + 1) = false := decide_eq_false fun h => h.2 hc
  show execPrioTokenRefill n s = _
  unfold execPrioTokenRefill run
  simp only [W.guard, hg, Bool.false_eq_true, if_false, W.of_commit]

/-- Bringing an estimate up to now changes the partition's record alone, and neither its count of intervals nor that of those above its cap. -/
theorem W.closeEstimate_stands (w : W) (n : Nat) : (w.closeEstimate n).1.log = w.log ∧ (w.closeEstimate n).1.m.bar = w.m.bar ∧
    (w.closeEstimate n).1.m.regions = w.m.regions ∧ ((w.closeEstimate n).1.part n).meters = (w.part n).meters := by
  refine ⟨rfl, rfl, rfl, ?_⟩
  simp [W.closeEstimate, W.noteEstimate, W.part]

/-- The intervals in a row that a partition has been above its cap, with one more. -/
def W.intervals (w : W) (n uj : Nat) : Nat :=
  if (match w.capOf n with | some c => decide (1000 * c < uj) | none => false) then (w.part n).overCap + 1 else 0
theorem W.intervals_within {w : W} {n uj : Nat} (h : ∀ c, w.capOf n = some c → uj ≤ 1000 * c) : w.intervals n uj = 0 := by
  unfold W.intervals
  cases hc : w.capOf n with
  | none => rfl
  | some c => simp [Nat.not_lt_of_le (h c hc)]
theorem W.intervals_above {w : W} {n uj c : Nat} (hc : w.capOf n = some c) (h : 1000 * c < uj) : w.intervals n uj = (w.part n).overCap + 1 := by
  simp [W.intervals, hc, h]

/-- The energy and the credit of one more interval. -/
def W.counts (w : W) (n uj credit : Nat) : W :=
  let w := w.setBar (Bar.partEnergy n) (w.bar (Bar.partEnergy n) + BitVec.ofNat 64 uj)
  w.setBar (Bar.partCredit n) (w.bar (Bar.partCredit n) + BitVec.ofNat 64 credit)
/-- The partition's record with them, k intervals in a row above its cap. -/
def W.metered (w : W) (n uj credit k : Nat) : W :=
  let p := (w.counts n uj credit).closeEstimate n
  p.1.setPart n fun q => { q with meters := q.meters + 1, overCap := if 2 ≤ k then 0 else k, lastUj := uj, lastEst := p.2 }

theorem W.counts_bar_other (w : W) (n uj credit : Nat) {o : Nat} (he : o ≠ Bar.partEnergy n) (hc : o ≠ Bar.partCredit n) : (w.counts n uj credit).bar o = w.bar o := by
  rw [W.counts, W.setBar_bar_other _ _ hc, W.setBar_bar_other _ _ he]
theorem W.counts_energy (w : W) (n uj credit : Nat) : (w.counts n uj credit).bar (Bar.partEnergy n) = w.bar (Bar.partEnergy n) + BitVec.ofNat 64 uj := by
  rw [W.counts, W.setBar_bar_other _ _ (by simp [Bar.partEnergy, Bar.partCredit]), W.setBar_bar_same]
theorem W.counts_credit (w : W) (n uj credit : Nat) : (w.counts n uj credit).bar (Bar.partCredit n) = w.bar (Bar.partCredit n) + BitVec.ofNat 64 credit := by
  rw [W.counts, W.setBar_bar_same, W.setBar_bar_other _ _ (by simp [Bar.partEnergy, Bar.partCredit])]
theorem W.counts_capOf (w : W) (n uj credit : Nat) : (w.counts n uj credit).capOf n = w.capOf n := by
  simp only [W.capOf, W.fld, w.counts_bar_other n uj credit (o := Bar.partPcap n) (by simp [Bar.partEnergy]) (by simp [Bar.partCredit]),
    w.counts_bar_other n uj credit (o := Bar.pkgPlim) (by simp only [Bar.partEnergy, Bar.partPcap, Bar.pkgPlim]; omega)
      (by simp only [Bar.partCredit, Bar.partPcap, Bar.pkgPlim]; omega)]
  rfl

/-- An interval of a partition is counted; the second in a row above its cap triggers a re-solve of its running regions. -/
theorem energy_eq {s : State} {n : Nat} (uj credit : Nat) (hn : n < 16) (hm : (s.part n).meters < s.ns / 1000000) : ∃ f, (∀ p : Part, (f p).meters = p.meters) ∧ exec (.energyMeterUpdate n uj credit) s =
    .next ((if (W.of s).intervals n uj < 2 then (W.of s).metered n uj credit ((W.of s).intervals n uj)
      else (((W.of s).metered n uj credit ((W.of s).intervals n uj)).setPart n f).triggerSolve fun _ g => g.part == n && g.runs).commit s) := by
  have hg : decide (((W.of s).part n).meters < (W.of s).ns / 1000000 ∧ n < 16) = true := decide_eq_true ⟨hm, hn⟩
  have hc := (W.of s).counts_capOf n uj credit
  refine ⟨fun q => if max 1 ((s.part n).lastEst + (((W.of s).counts n uj credit).closeEstimate n).2) < 1000 * ((s.part n).lastUj + uj)
    then { q with scaleN := 1000 * ((s.part n).lastUj + uj), scaleD := max 1 ((s.part n).lastEst + (((W.of s).counts n uj credit).closeEstimate n).2) }
    else { q with scaleN := 1, scaleD := 1 }, fun p => by dsimp only; split <;> rfl, ?_⟩
  show execEnergyMeterUpdate n uj credit s = _
  unfold execEnergyMeterUpdate run
  simp only [W.guard, hg, if_true]
  unfold W.counts at hc
  rw [hc]
  rfl

/-- What stands, and what has been counted, once an interval has been counted with k in a row above the cap. -/
structure Metered (s : State) (n uj credit k : Nat) (w : W) : Prop where
  log     : w.log = []
  energy  : w.bar (Bar.partEnergy n) = s.bar (Bar.partEnergy n) + BitVec.ofNat 64 uj
  credit  : w.bar (Bar.partCredit n) = s.bar (Bar.partCredit n) + BitVec.ofNat 64 credit
  regions : w.m.regions = s.m.regions
  meters  : (w.part n).meters = (s.part n).meters + 1
  inARow  : (w.part n).overCap = if 2 ≤ k then 0 else k
theorem metered (s : State) (n uj credit k : Nat) : Metered s n uj credit k ((W.of s).metered n uj credit k) where
  log := rfl
  energy := (W.of s).counts_energy n uj credit
  credit := (W.of s).counts_credit n uj credit
  regions := rfl
  meters := by simp [W.metered, W.closeEstimate, W.noteEstimate, State.part, W.part, W.counts, W.setBar]
  inARow := by simp [W.metered, W.closeEstimate, W.noteEstimate, W.part, W.counts, W.setBar]
theorem W.setPart_scale_meters (w : W) (n : Nat) {f : Part → Part} (h : ∀ p, (f p).meters = p.meters) : ((w.setPart n f).part n).meters = (w.part n).meters := by
  simp [W.part, h]

theorem energy_counts {s : State} {n : Nat} (uj credit : Nat) (hn : n < 16) (hm : (s.part n).meters < s.ns / 1000000) :
    ∃ t, exec (.energyMeterUpdate n uj credit) s = .next t ∧ t.mem = s.mem ∧
    t.bar (Bar.partEnergy n) = s.bar (Bar.partEnergy n) + BitVec.ofNat 64 uj ∧ t.bar (Bar.partCredit n) = s.bar (Bar.partCredit n) + BitVec.ofNat 64 credit ∧
    (t.part n).meters = (s.part n).meters + 1 ∧
    ((∀ c, (W.of s).capOf n = some c → uj ≤ 1000 * c) → (t.part n).overCap = 0 ∧ t.m.regions = s.m.regions) ∧
    ∀ c, (W.of s).capOf n = some c → 1000 * c < uj → (s.part n).overCap = 1 → ∀ k g, tget s.m.regions k = some g → g.part = n → g.runs = true → (t.region k).trigger = true := by
  obtain ⟨f, hf, he⟩ := energy_eq uj credit hn hm
  have hw := metered s n uj credit ((W.of s).intervals n uj)
  generalize (W.of s).metered n uj credit ((W.of s).intervals n uj) = w at he hw
  refine ⟨_, he, ?_⟩
  by_cases h2 : (W.of s).intervals n uj < 2
  · simp only [h2, if_true]
    refine ⟨by rw [W.commit_mem, hw.log]; rfl, hw.energy, hw.credit, hw.meters, fun hcap => ⟨?_, hw.regions⟩, fun c hc ho h1 => ?_⟩
    · have hk := hw.inARow
      rw [W.intervals_within hcap] at hk
      exact hk
    · rw [W.intervals_above hc ho, show ((W.of s).part n).overCap = 1 from h1] at h2
      omega
  · simp only [h2, if_false]
    refine ⟨?_, ?_, ?_, ?_, fun hcap => ?_, fun c hc ho h1 k g hk hp hr => ?_⟩
    · rw [W.commit_mem]; exact congrArg (applyLog s.mem) hw.log
    · exact hw.energy
    · exact hw.credit
    · exact (W.setPart_scale_meters w n hf).trans hw.meters
    · rw [W.intervals_within hcap] at h2
      omega
    · exact triggered_region s (w := w.setPart n f) (hw.regions ▸ hk) (by rw [hp, hr]; simp)

/-- A die's register with a sample: TEMP, and MAX when the sample is above it. -/
def W.sampled (w : W) (d : Nat) (temp : BitVec 16) : W :=
  let w := w.setFld (Bar.temp d) 15 0 temp.toNat
  if s16 (w.fld (Bar.temp d) 31 16) < w.temp d then w.setFld (Bar.temp d) 31 16 temp.toNat else w

theorem W.sampled_rest (w : W) (d : Nat) (temp : BitVec 16) : (w.sampled d temp).log = w.log ∧ (w.sampled d temp).m.hub = w.m.hub := by
  unfold W.sampled
  dsimp only
  split <;> exact ⟨rfl, rfl⟩
theorem W.sampled_fields (w : W) (d : Nat) (temp : BitVec 16) : (w.sampled d temp).fld (Bar.temp d) 15 0 = temp.toNat ∧
    s16 ((w.sampled d temp).fld (Bar.temp d) 31 16) = max (s16 (w.fld (Bar.temp d) 31 16)) (s16 temp.toNat) ∧
    (w.sampled d temp).fld (Bar.temp d) 47 32 = w.fld (Bar.temp d) 47 32 := by
  have ht : temp.toNat < 2 ^ 16 := temp.isLt
  have now : (w.setFld (Bar.temp d) 15 0 temp.toNat).fld (Bar.temp d) 15 0 = temp.toNat := w.setFld_fld_same _ (by omega) (by omega) ht
  have top : (w.setFld (Bar.temp d) 15 0 temp.toNat).fld (Bar.temp d) 31 16 = w.fld (Bar.temp d) 31 16 := w.setFld_fld_other _ _ (by omega) (by omega) (by omega)
  have lim : (w.setFld (Bar.temp d) 15 0 temp.toNat).fld (Bar.temp d) 47 32 = w.fld (Bar.temp d) 47 32 := w.setFld_fld_other _ _ (by omega) (by omega) (by omega)
  unfold W.sampled
  simp only [W.temp, now, top]
  split
  case isTrue h =>
    refine ⟨(W.setFld_fld_other _ _ _ (by omega) (by omega) (by omega)).trans now, ?_, (W.setFld_fld_other _ _ _ (by omega) (by omega) (by omega)).trans lim⟩
    rw [W.setFld_fld_same _ _ (by omega) (by omega) ht, max_eq_right h.le]
  case isFalse h => exact ⟨now, by rw [top, max_eq_left (not_lt.mp h)], lim⟩

/-- The package's change of throttle changes no temperature and no memory. -/
theorem W.setThrottle_stands (w : W) (b : Bool) : (w.setThrottle b).log = w.log ∧ (w.setThrottle b).m.hub.throttle = b ∧
    ∀ d, (w.setThrottle b).bar (Bar.temp d) = w.bar (Bar.temp d) :=
  ⟨rfl, rfl, fun d => W.setBar_bar_other _ _ (by simp only [Bar.temp, Bar.health]; omega)⟩

/-- What a sample leaves, but for the package's throttle. -/
structure Sampled (s : State) (d : Nat) (temp : BitVec 16) (w : W) : Prop where
  log : w.log = []
  now : field (w.bar (Bar.temp d)) 15 0 = temp.toNat
  top : s16 (field (w.bar (Bar.temp d)) 31 16) = max (s16 (field (s.bar (Bar.temp d)) 31 16)) (s16 temp.toNat)
  lim : w.tlim d = (W.of s).tlim d

theorem Sampled.setThrottle {s : State} {d : Nat} {temp : BitVec 16} {w : W} (h : Sampled s d temp w) (b : Bool) : Sampled s d temp (w.setThrottle b) := by
  obtain ⟨log, -, bar⟩ := w.setThrottle_stands b
  exact ⟨log.trans h.log, by rw [bar]; exact h.now, by rw [bar]; exact h.top, by rw [W.tlim, W.fld, bar]; exact h.lim⟩

/-- The time since which every die has been 5 °C below its limit, as a sample finds it. -/
def W.cooled (w : W) : W :=
  let cool := (List.range 5).all fun d => decide (w.temp d < w.tlim d - 40)
  w.setHub fun h => { h with coolNs := if cool then some (h.coolNs.getD w.ns) else none }

theorem W.cooled_throttle (w : W) : w.cooled.m.hub.throttle = w.m.hub.throttle := rfl

/-- A sample is recorded, and then the package enters throttle, leaves it or neither. -/
theorem tempSample_eq (s : State) {d : Nat} (temp : BitVec 16) (hd : d < 5) : ∃ w, Sampled s d temp w ∧ w.m.hub.throttle = s.m.hub.throttle ∧
    exec (.tempSample d temp) s = .next ((if w.tlim d < w.temp d then (if w.m.hub.throttle then w else w.setThrottle true)
      else match w.m.hub.coolNs with
        | some t => if w.m.hub.throttle ∧ t + 10000000 ≤ w.ns then w.setThrottle false else w
        | none => w).commit s) := by
  obtain ⟨now, top, lim⟩ := (W.of s).sampled_fields d temp
  obtain ⟨log, hub⟩ := (W.of s).sampled_rest d temp
  refine ⟨((W.of s).sampled d temp).cooled, ⟨log, now, top, congrArg s16 lim⟩, (W.cooled_throttle _).trans (congrArg Hub.throttle hub), ?_⟩
  show execTempSample d temp s = _
  unfold execTempSample run
  simp only [W.guard, decide_eq_true hd, if_true]
  rfl
/-- A die above its limit puts the package into throttle; one at most at it does not. -/
theorem tempSample_ends (s : State) {d : Nat} (temp : BitVec 16) (hd : d < 5) : ∃ w, Sampled s d temp w ∧ ((W.of s).tlim d < s16 temp.toNat → w.m.hub.throttle = true) ∧
    (s16 temp.toNat ≤ (W.of s).tlim d → s.m.hub.throttle = false → w.m.hub.throttle = false) ∧ exec (.tempSample d temp) s = .next (w.commit s) := by
  obtain ⟨w, hw, hthr, he⟩ := tempSample_eq s temp hd
  have htemp : w.temp d = s16 temp.toNat := congrArg s16 hw.now
  rw [he, htemp, hw.lim]
  by_cases hl : (W.of s).tlim d < s16 temp.toNat
  · by_cases ht : w.m.hub.throttle = true
    · exact ⟨w, hw, fun _ => ht, fun h => absurd hl (not_lt.mpr h), by rw [if_pos hl, if_pos ht]⟩
    · exact ⟨_, hw.setThrottle true, fun _ => rfl, fun h => absurd hl (not_lt.mpr h), by rw [if_pos hl, if_neg ht]⟩
  · rw [if_neg hl]
    split
    · split
      · exact ⟨_, hw.setThrottle false, fun h => absurd h hl, fun _ _ => rfl, rfl⟩
      · exact ⟨w, hw, fun h => absurd h hl, fun _ h => hthr.trans h, rfl⟩
    · exact ⟨w, hw, fun h => absurd h hl, fun _ h => hthr.trans h, rfl⟩
theorem tempSample_records (s : State) {d : Nat} (temp : BitVec 16) (hd : d < 5) : ∃ t, exec (.tempSample d temp) s = .next t ∧ t.mem = s.mem ∧
    field (t.bar (Bar.temp d)) 15 0 = temp.toNat ∧ s16 (field (t.bar (Bar.temp d)) 31 16) = max (s16 (field (s.bar (Bar.temp d)) 31 16)) (s16 temp.toNat) ∧
    ((W.of s).tlim d < s16 temp.toNat → t.m.hub.throttle = true) ∧ (s16 temp.toNat ≤ (W.of s).tlim d → s.m.hub.throttle = false → t.m.hub.throttle = false) := by
  obtain ⟨w, hw, hot, cold, he⟩ := tempSample_ends s temp hd
  exact ⟨_, he, by rw [W.commit_mem, hw.log]; rfl, hw.now, hw.top, hot, cold⟩

end Sys2Proof.Machine
end

section
/-! PROOFS. Solves and switch cycles (02_execution_model.md R36; 07_islands_and_rates.md R112 to R115); from them and the budgets O51. -/

namespace Sys2Proof.Machine

/-! ## What solves leave alone -/

/-- From w to w' memory, time, sequencers, rails and registers are as before. -/
structure W.Solves (w w' : W) : Prop where
  log   : w'.log = w.log
  clk   : w'.clk = w.clk
  seqs  : w'.m.seqs = w.m.seqs
  rails : w'.m.rails = w.m.rails
  bar   : w'.m.bar = w.m.bar

theorem W.Solves.refl (w : W) : w.Solves w := ⟨rfl, rfl, rfl, rfl, rfl⟩
theorem W.Solves.trans {u v w : W} (a : u.Solves v) (b : v.Solves w) : u.Solves w :=
  ⟨b.log.trans a.log, b.clk.trans a.clk, b.seqs.trans a.seqs, b.rails.trans a.rails, b.bar.trans a.bar⟩
theorem W.setRegion_solves (w : W) (r : Nat) (f : Region → Region) : w.Solves (w.setRegion r f) := ⟨rfl, rfl, rfl, rfl, rfl⟩

/-- A region after a change of its record. -/
theorem W.tget_setRegion {w : W} {r : Nat} {g : Region} (h : tget w.m.regions r = some g) (f : Region → Region) : tget (w.setRegion r f).m.regions r = some (f g) := by
  rw [W.setRegion_regions, tget_tmod_self, h, Option.map_some]
theorem W.region_of {w : W} {r : Nat} {g : Region} (h : tget w.m.regions r = some g) : w.region r = g := by rw [W.region, tgetD, h, Option.getD_some]

/-- Votes change rails alone. -/
theorem W.revoteAll_stands (w : W) (qs : List Nat) : (w.revoteAll qs).log = w.log ∧ (w.revoteAll qs).clk = w.clk ∧ (w.revoteAll qs).m.seqs = w.m.seqs ∧
    (w.revoteAll qs).m.regions = w.m.regions :=
  List.foldlRecOn (motive := fun v : W => v.log = w.log ∧ v.clk = w.clk ∧ v.m.seqs = w.m.seqs ∧ v.m.regions = w.m.regions) qs _ ⟨rfl, rfl, rfl, rfl⟩ fun _ h _ _ => h

/-! ## Copies of operators -/

/-- The quads of a region's die that copies can take, and those that an operator lies in. -/
def W.spareQuads (w : W) (g : Region) : List Nat := ((List.range 40).map (40 * g.die + ·)).filter (w.quadFree g.part)
def Region.opQuads (g : Region) (op : List Nat) : List Nat := (op.map fun k => siteQuad g (k / 8)).eraseDups

/-- The quads of the copies of an element of an operator: its own, and of the quads that n copies of the operator have got those that stand for it. -/
def Region.copyPlaces (g : Region) (op : List Nat) (n : Nat) (got : List Nat) (k : Nat) : List Nat :=
  siteQuad g (k / 8) :: (List.range n).map fun j =>
    got.getD (j * (g.opQuads op).length + (g.opQuads op).findIdx (· == siteQuad g (k / 8))) (siteQuad g (k / 8))
/-- An element with copies, one of an operator whose results leave it or not. -/
def Elem.cloned (x : Elem) (places : List Nat) (leaves : Bool) : Elem := { x with copies := places, turn := 0, pass := if leaves then 2 else 0 }
/-- An element's results leave its operator. -/
def Layout.leaves (l : Layout) (op : List Nat) (k : Nat) : Bool := l.edges.any fun e => e.1 == k && !op.contains e.2

/-- One operator's turn: whether its elements have copies already decides, and then a free number of copies. -/
def W.cloneOp (l : Layout) (r : Nat) (w : W) (op : List Nat) : W :=
  let g := w.region r
  if op.any fun k => !(tgetD g.elems k {}).copies.isEmpty then w
  else
    let p := w.freeBelow ((w.spareQuads g).length / max (g.opQuads op).length 1 + 1)
    if p.2 = 0 then p.1
    else
      let got := (w.spareQuads g).take (p.2 * (g.opQuads op).length)
      p.1.setRegion r fun g' => { g' with
        spare := g'.spare ++ got
        elems := op.foldl (fun t k => tmod t k fun x => x.cloned (g.copyPlaces op p.2 got k) (l.leaves op k)) g'.elems }
theorem W.cloneOps_eq (w : W) (r : Nat) : w.cloneOps r = (Layout.of (w.region r).frames).operators.foldl (W.cloneOp (Layout.of (w.region r).frames) r) w := rfl

theorem W.freeBelow_solves (w : W) (n : Nat) : w.Solves (w.freeBelow n).1 := ⟨rfl, rfl, rfl, rfl, rfl⟩
/-- A region but for its copies, which cloning adds to. -/
def Region.uncloned (g : Region) : Region := { g with spare := [], elems := [] }

theorem W.cloneOp_stands {w : W} {r : Nat} {g : Region} (h : tget w.m.regions r = some g) (l : Layout) (op : List Nat) :
    w.Solves (w.cloneOp l r op) ∧ ∃ g', tget (w.cloneOp l r op).m.regions r = some g' ∧ g'.uncloned = g.uncloned := by
  unfold W.cloneOp
  extract_lets g0 p got
  split
  · exact ⟨.refl w, g, h, rfl⟩
  split
  · exact ⟨w.freeBelow_solves _, g, h, rfl⟩
  · exact ⟨(w.freeBelow_solves _).trans (p.1.setRegion_solves r _), _, W.tget_setRegion (w := p.1) h _, rfl⟩
/-- Cloning changes nothing of a region but what copies it has, and of the world but regions and the free choices. -/
theorem W.cloneOps_stands {w : W} {r : Nat} {g : Region} (h : tget w.m.regions r = some g) :
    w.Solves (w.cloneOps r) ∧ ∃ g', tget (w.cloneOps r).m.regions r = some g' ∧ g'.uncloned = g.uncloned := by
  rw [W.cloneOps_eq]
  refine List.foldlRecOn (motive := fun v : W => w.Solves v ∧ ∃ g', tget v.m.regions r = some g' ∧ g'.uncloned = g.uncloned) _ _ ⟨.refl w, g, h, rfl⟩ fun v hv op _ => ?_
  obtain ⟨hs, g1, h1, e1⟩ := hv
  obtain ⟨hs', g2, h2, e2⟩ := W.cloneOp_stands h1 (Layout.of (w.region r).frames) op
  exact ⟨hs.trans hs', g2, h2, e2.trans e1⟩

/-- A table after changes of entries that are each made once or again to the same effect. -/
theorem tget_foldl_tmod {α : Type} (ks : List Nat) (f : Nat → α → α) (hf : ∀ k x, f k (f k x) = f k x) (t : Tbl α) (k : Nat) :
    tget (ks.foldl (fun t k => tmod t k (f k)) t) k = if k ∈ ks then (tget t k).map (f k) else tget t k := by
  induction ks generalizing t with
  | nil => simp
  | cons j ks ih =>
    rw [List.foldl_cons, ih, tget_tmod]
    by_cases hk : k = j
    · subst hk
      cases tget t k <;> simp [hf]
    · simp [hk]

/-- A marked operator that has no copies may get some, whole, into spare quads. -/
theorem W.cloneOp_copies {w : W} {r : Nat} {g : Region} (h : tget w.m.regions r = some g) (l : Layout) {op : List Nat} (hop : ∀ k ∈ op, (tgetD g.elems k {}).copies = []) :
    ∃ n got g', got <+: w.spareQuads g ∧ got.length = n * (g.opQuads op).length ∧ tget (w.cloneOp l r op).m.regions r = some g' ∧ g'.spare = g.spare ++ got ∧
      ∀ k x, tget g.elems k = some x → ∃ y, tget g'.elems k = some y ∧ y.word = x.word ∧ y.copies = if k ∈ op ∧ n ≠ 0 then g.copyPlaces op n got k else x.copies := by
  have hnone : (op.any fun k => !(tgetD g.elems k {}).copies.isEmpty) = false := by
    rw [List.any_eq_false]
    intro k hk
    rw [hop k hk]
    decide
  have hn : (w.freeBelow ((w.spareQuads g).length / max (g.opQuads op).length 1 + 1)).2 ≤ _ := Nat.lt_succ_iff.mp (Nat.mod_lt _ (Nat.succ_pos _))
  have hv : tget (w.freeBelow ((w.spareQuads g).length / max (g.opQuads op).length 1 + 1)).1.m.regions r = some g := h
  unfold W.cloneOp
  simp only [W.region_of h, hnone, Bool.false_eq_true, if_false]
  generalize w.freeBelow ((w.spareQuads g).length / max (g.opQuads op).length 1 + 1) = p at hn hv
  obtain ⟨v, n⟩ := p
  by_cases h0 : n = 0
  · simp only [h0, if_true]
    exact ⟨0, [], g, List.nil_prefix, by simp, hv, (List.append_nil _).symm, fun k x hx => ⟨x, hx, rfl, by simp⟩⟩
  · simp only [h0, if_false]
    have hlen : n * (g.opQuads op).length ≤ (w.spareQuads g).length := by
      by_cases hz : (g.opQuads op).length = 0
      · simp [hz]
      · rw [max_eq_left (Nat.one_le_iff_ne_zero.mpr hz)] at hn
        exact (Nat.mul_le_mul_right _ hn).trans (Nat.div_mul_le_self _ _)
    obtain ⟨got, hgot⟩ : ∃ got, (w.spareQuads g).take (n * (g.opQuads op).length) = got := ⟨_, rfl⟩
    have hlen' : got.length = n * (g.opQuads op).length := by rw [← hgot, List.length_take, min_eq_left hlen]
    rw [hgot]
    refine ⟨n, got, _, hgot ▸ List.take_prefix _ _, hlen', W.tget_setRegion hv _, rfl, fun k x hx => ?_⟩
    have hk := tget_foldl_tmod op (fun k x => x.cloned (g.copyPlaces op n got k) (l.leaves op k)) (fun _ _ => rfl) g.elems k
    rw [hk, hx]
    by_cases hk : k ∈ op
    · rw [if_pos hk, if_pos ⟨hk, h0⟩]
      exact ⟨_, rfl, rfl, rfl⟩
    · rw [if_neg hk, if_neg fun hc => hk hc.1]
      exact ⟨x, rfl, rfl, rfl⟩

/-! ## A solve -/

/-- A region's record as a solve leaves it: with a grant to switch to and its votes, or as it is. -/
def Region.solved (g : Region) (now : Nat) : Option Graph.Grant → Region
  | none => { g with trigger := false }
  | some x => { g with
      trigger := false, pending := some (x.fr.map fun f => (f.1, f.2.num.toNat, f.2.den), x.rate, decide (x.rate < g.rate), x.power), plainNext := x.plain, solvedAt := now
      isl := (x.fr.map fun f => (f.1, f.2.num.toNat, f.2.den)).foldl (fun t f => tmod t f.1 fun i => { i with vote := max i.vote (Graph.voteOf f.2.1 f.2.2) }) g.isl }
def W.solvedTo (w : W) (r : Nat) (quads : List Nat) (o : Option Graph.Grant) : W :=
  let w' := w.setRegion r fun g => g.solved w.now o
  if o.isSome then w'.revoteAll quads else w'
/-- A region before its solve: copied, if it runs, and with its pressure forgotten. -/
def W.cloned (w : W) (r : Nat) (runs : Bool) : W := (if runs then w.cloneOps r else w).setRegion r fun g => { g with press := 0, pressedAt := none }

/-- Votes only rise by a solve, and an island's pattern stands until the switch. -/
theorem votes_rise (ps : List (Nat × Nat × Nat)) (t : Tbl Island) {i : Nat} {y : Island} (h : tget t i = some y) :
    ∃ z, tget (ps.foldl (fun t f => tmod t f.1 fun i => { i with vote := max i.vote (Graph.voteOf f.2.1 f.2.2) }) t) i = some z ∧ z.p = y.p ∧ z.q = y.q ∧ y.vote ≤ z.vote := by
  induction ps generalizing t y with
  | nil => exact ⟨y, h, rfl, rfl, Nat.le_refl _⟩
  | cons f ps ih =>
    have h1 : ∃ u, tget (tmod t f.1 fun i => { i with vote := max i.vote (Graph.voteOf f.2.1 f.2.2) }) i = some u ∧ u.p = y.p ∧ u.q = y.q ∧ y.vote ≤ u.vote := by
      rw [tget_tmod]
      by_cases hi : i = f.1
      · subst hi; rw [if_pos rfl, h]; exact ⟨_, rfl, rfl, rfl, le_max_left _ _⟩
      · rw [if_neg hi]; exact ⟨y, h, rfl, rfl, Nat.le_refl _⟩
    obtain ⟨u, hu, hp, hq, hv⟩ := h1
    obtain ⟨z, hz, hp', hq', hv'⟩ := ih _ hu
    exact ⟨z, hz, hp'.trans hp, hq'.trans hq, hv.trans hv'⟩

/-- What a solve leaves, of a world whose region it finds as h. -/
theorem W.solvedTo_stands {w : W} {r : Nat} {h : Region} (hr : tget w.m.regions r = some h) (quads : List Nat) (o : Option Graph.Grant) :
    tget (w.solvedTo r quads o).m.regions r = some (h.solved w.now o) ∧ (w.solvedTo r quads o).log = w.log ∧ (w.solvedTo r quads o).m.seqs = w.m.seqs ∧
      (o = none → (w.solvedTo r quads o).m.rails = w.m.rails) := by
  have hr' := W.tget_setRegion hr fun g => g.solved w.now o
  cases o with
  | none => exact ⟨hr', rfl, rfl, fun _ => rfl⟩
  | some x =>
    obtain ⟨hl, -, hs, hm⟩ := (w.setRegion r fun g => g.solved w.now (some x)).revoteAll_stands quads
    exact ⟨(congrArg (tget · r) hm).trans hr', hl, hs, fun h => nomatch h⟩

section Solve

variable {s : State} {r : Nat} {g : Region} (hg : tget s.m.regions r = some g)

/-- The solve's grant, at a TRIM: the first rate that fits within the partition's cap and the package's budget. -/
def State.grantAt (s : State) (r : Nat) (g : Region) (trim : Nat) : Option Graph.Grant :=
  (graphOf g.frames g.ints g.sink g.secIsl g.isl.length).solve g.rate (trim / 10) (((s.part g.part).scaleN : Rat) / ((s.part g.part).scaleD : Rat))
    (fun n => (match (W.of s).capOf g.part with
        | some c => decide ((W.of s).estimateOf (fun k x => k != r && x.part == g.part) + n ≤ c * 1000000)
        | none => true) &&
      decide ((W.of s).estimateOf (fun k _ => k != r) + n ≤ (W.of s).budget))

theorem W.cloned_stands {w : W} {r : Nat} {g : Region} (h : tget w.m.regions r = some g) (runs : Bool) :
    w.Solves (w.cloned r runs) ∧ ∃ g', tget (w.cloned r runs).m.regions r = some g' ∧ g'.uncloned = { g.uncloned with press := 0, pressedAt := none } := by
  cases runs with
  | false => exact ⟨w.setRegion_solves r _, _, W.tget_setRegion h _, rfl⟩
  | true =>
    obtain ⟨hs, g', hg', hu⟩ := W.cloneOps_stands h
    exact ⟨hs.trans (W.setRegion_solves _ r _), _, W.tget_setRegion hg' _, congrArg (fun g : Region => { g with press := 0, pressedAt := none }) hu⟩

include hg
theorem rateSolve_eq (hph : g.phase = .unsolved ∨ g.runsAt s.clk.now = true) (ht : g.trigger = true) (hp : g.pending = none) (hh : (s.part g.part).halted = false)
    (hs : s.m.hub.solves = []) : exec (.rateSolve r) s = .next ((((W.of s).cloned r g.runs).solvedTo r (regionQuads g) (s.grantAt r g ((W.of s).trim (regionQuad g 0)))).commit s) := by
  have hhub : (W.of s).setHub (fun h => { h with solves := h.solves.filter (· != r) }) = W.of s := by
    have : ({ s.m.hub with solves := s.m.hub.solves.filter (· != r) } : Hub) = s.m.hub := by rw [hs]; exact congrArg (fun l => { s.m.hub with solves := l }) hs.symm
    simp only [W.setHub, W.of, this]
  have hready : ((g.phase == .unsolved || g.runsAt (W.of s).now) && g.trigger && g.pending.isNone && !((W.of s).part g.part).halted &&
      (!(W.of s).m.hub.solves.contains r || (W.of s).m.hub.solves.head? == some r)) = true := by
    have h1 : (g.phase == .unsolved || g.runsAt (W.of s).now) = true := by
      rcases hph with h | h
      · rw [h]; rfl
      · rw [show g.runsAt (W.of s).now = true from h, Bool.or_true]
    rw [h1, ht, hp, show ((W.of s).part g.part).halted = false from hh, show (W.of s).m.hub.solves = [] from hs]
    rfl
  show execRateSolve r s = _
  unfold execRateSolve run
  simp only [show tget (W.of s).m.regions r = some g from hg, W.guard, hready, if_true, hhub]
  have htrim : ((W.of s).cloned r g.runs).trim (regionQuad g 0) = (W.of s).trim (regionQuad g 0) := by
    simp only [W.trim, W.fld, W.bar, (W.cloned_stands (w := W.of s) hg g.runs).1.bar]
  rw [← htrim]
  refine congrArg (fun v : W => Host.Outcome.next (v.commit s)) ?_
  refine Eq.trans (b := match s.grantAt r g (((W.of s).cloned r g.runs).trim (regionQuad g 0)) with
    | none => ((W.of s).cloned r g.runs).setRegion r fun y => y.solved ((W.of s).cloned r g.runs).now none
    | some x => (((W.of s).cloned r g.runs).setRegion r fun y => y.solved ((W.of s).cloned r g.runs).now (some x)).revoteAll (regionQuads g)) rfl ?_
  cases s.grantAt r g (((W.of s).cloned r g.runs).trim (regionQuad g 0)) <;> rfl

variable (hph : g.phase = .unsolved ∨ g.runsAt s.clk.now = true) (ht : g.trigger = true) (hp : g.pending = none) (hh : (s.part g.part).halted = false)
  (hs : s.m.hub.solves = [])
include hph ht hp hh hs

/-- A solve leaves memory and sequencers, and the region's record as the solver found it, but for its copies, with the grant. -/
theorem rateSolve_leaves : ∃ t h, exec (.rateSolve r) s = .next t ∧ t.mem = s.mem ∧ t.m.seqs = s.m.seqs ∧
    t.region r = h.solved s.clk.now (s.grantAt r g ((W.of s).trim (regionQuad g 0))) ∧ h.uncloned = { g.uncloned with press := 0, pressedAt := none } ∧
    (s.grantAt r g ((W.of s).trim (regionQuad g 0)) = none → t.m.rails = s.m.rails) ∧ tget ((W.of s).cloned r g.runs).m.regions r = some h := by
  obtain ⟨hc, h, hh', hu⟩ := W.cloned_stands (w := W.of s) hg g.runs
  obtain ⟨hr, hl, hq, hrails⟩ := W.solvedTo_stands hh' (regionQuads g) (s.grantAt r g ((W.of s).trim (regionQuad g 0)))
  refine ⟨_, h, rateSolve_eq hg hph ht hp hh hs, ?_, hq.trans hc.seqs, ?_, hu, fun ho => (hrails ho).trans hc.rails, hh'⟩
  · rw [W.commit_mem, hl, hc.log]; rfl
  · have hn : ((W.of s).cloned r g.runs).now = s.clk.now := congrArg Clk.now hc.clk
    rw [← hn]
    exact W.region_of hr

theorem rateSolve_none (ho : s.grantAt r g ((W.of s).trim (regionQuad g 0)) = none) : ∃ t, exec (.rateSolve r) s = .next t ∧ t.mem = s.mem ∧ (t.region r).trigger = false ∧
    (t.region r).pending = none ∧ (t.region r).granted = g.granted ∧ (t.region r).isl = g.isl ∧ t.m.rails = s.m.rails ∧
    (g.runs = false ∨ (Layout.of g.frames).operators = [] → t.region r = { g with trigger := false, press := 0, pressedAt := none }) := by
  obtain ⟨t, h, he, hm, -, hr, hu, hrails, hc⟩ := rateSolve_leaves hg hph ht hp hh hs
  rw [ho] at hr
  have hgr : h.granted = g.granted := by have := congrArg Region.granted hu; exact this
  have hisl : h.isl = g.isl := by have := congrArg Region.isl hu; exact this
  have hpend : h.pending = none := by have := congrArg Region.pending hu; exact this.trans hp
  refine ⟨t, he, hm, by rw [hr]; rfl, ?_, ?_, ?_, hrails ho, fun hn => ?_⟩
  · rw [hr]; exact hpend
  · rw [hr]; exact hgr
  · rw [hr]; exact hisl
  · have hsame : (if g.runs then (W.of s).cloneOps r else W.of s) = W.of s := by
      rcases hn with hn | hn
      · rw [hn]; rfl
      · rw [W.cloneOps_eq, W.region_of (w := W.of s) hg, hn]; exact ite_self _
    rw [W.cloned, hsame, W.tget_setRegion (w := W.of s) hg] at hc
    rw [hr, ← Option.some.inj hc]
    rfl

theorem rateSolve_some {x : Graph.Grant} (ho : s.grantAt r g ((W.of s).trim (regionQuad g 0)) = some x) : ∃ t, exec (.rateSolve r) s = .next t ∧ t.mem = s.mem ∧
    (t.region r).trigger = false ∧ (t.region r).granted = g.granted ∧ t.m.seqs = s.m.seqs ∧
    (t.region r).pending = some (x.fr.map fun f => (f.1, f.2.num.toNat, f.2.den), x.rate, decide (x.rate < g.rate), x.power) ∧
    ∀ i y, tget g.isl i = some y → ∃ z, tget (t.region r).isl i = some z ∧ z.p = y.p ∧ z.q = y.q ∧ y.vote ≤ z.vote := by
  obtain ⟨t, h, he, hm, hq, hr, hu, -, -⟩ := rateSolve_leaves hg hph ht hp hh hs
  rw [ho] at hr
  have hgr : h.granted = g.granted := by have := congrArg Region.granted hu; exact this
  have hrate : h.rate = g.rate := by have := congrArg Region.rate hu; exact this
  have hisl : h.isl = g.isl := by have := congrArg Region.isl hu; exact this
  refine ⟨t, he, hm, by rw [hr]; rfl, ?_, hq, ?_, fun i y hy => ?_⟩
  · rw [hr]; exact hgr
  · rw [hr, ← hrate]; rfl
  · rw [hr]; exact votes_rise _ h.isl (hisl ▸ hy)

/-- A marked operator of a running region that has no copies may be cloned whole. -/
theorem rateSolve_clones {op : List Nat} (hrun : g.runs = true) (hop : (Layout.of g.frames).operators = [op]) (hcop : ∀ k ∈ op, (tgetD g.elems k {}).copies = []) :
    ∃ t n got, exec (.rateSolve r) s = .next t ∧ t.mem = s.mem ∧ got <+: (W.of s).spareQuads g ∧ got.length = n * (g.opQuads op).length ∧ (t.region r).spare = g.spare ++ got ∧
      ∀ k x, tget g.elems k = some x → ∃ y, tget (t.region r).elems k = some y ∧ y.word = x.word ∧ y.copies = if k ∈ op ∧ n ≠ 0 then g.copyPlaces op n got k else x.copies := by
  obtain ⟨t, h, he, hm, -, hr, -, -, hc⟩ := rateSolve_leaves hg hph ht hp hh hs
  obtain ⟨n, got, g', hpre, hlen, hg', hspare, helems⟩ := W.cloneOp_copies (w := W.of s) hg (Layout.of g.frames) hcop
  have hclone : (W.of s).cloneOps r = (W.of s).cloneOp (Layout.of g.frames) r op := by rw [W.cloneOps_eq, W.region_of (w := W.of s) hg, hop]; rfl
  rw [W.cloned, hrun, if_pos rfl, hclone, W.tget_setRegion hg'] at hc
  have hspare' : (t.region r).spare = g'.spare := by
    rw [hr, ← Option.some.inj hc]; cases s.grantAt r g ((W.of s).trim (regionQuad g 0)) <;> rfl
  have helems' : (t.region r).elems = g'.elems := by
    rw [hr, ← Option.some.inj hc]; cases s.grantAt r g ((W.of s).trim (regionQuad g 0)) <;> rfl
  refine ⟨t, n, got, he, hm, hpre, hlen, hspare'.trans hspare, fun k x hx => ?_⟩
  rw [helems']
  exact helems k x hx

end Solve

/-! ## A switch cycle -/

/-- A region's record from its switch on: the islands' new patterns, the grant, and the first switch's start. -/
def Region.switched (g : Region) (rate power : Nat) (lower : Bool) (isl : Tbl Island) (phase : Phase) : Region :=
  { g with isl := isl, pending := none, granted := rate, lower := lower, power := power, plain := g.plainNext, solveNo := (g.solveNo + 1) % 256, phase := phase }
/-- An island that takes a pattern on a cycle. -/
def Island.switch (i : Island) (p q now : Nat) : Island := { i with p := p, q := q, edges := i.edge (now - 1), since := now, vote := Graph.voteOf p q }
/-- The islands' patterns after a switch. -/
def switchIsl (ps : List (Nat × Nat × Nat)) (now : Nat) (t : Tbl Island) : Tbl Island := ps.foldl (fun t f => tmod t f.1 fun i => i.switch f.2.1 f.2.2 now) t
/-- The sequencers of a region are released at its first switch. -/
def Seq.release (q : Seq) : Seq := { q with released := true }
def W.releaseSeqs (w : W) (quads : List Nat) : W := quads.foldl (fun w q => w.setSeq q Seq.release) w

theorem switchIsl_other (ps : List (Nat × Nat × Nat)) (now : Nat) (t : Tbl Island) {i : Nat} (h : i ∉ ps.map (·.1)) : tget (switchIsl ps now t) i = tget t i := by
  induction ps generalizing t with
  | nil => rfl
  | cons f ps ih =>
    rw [List.map_cons, List.mem_cons, not_or] at h
    exact (ih _ h.2).trans (tget_tmod_ne _ _ _ _ h.1)
/-- An island of a switch takes its pattern on the switch's cycle, with the edges that it had before. -/
theorem switchIsl_of (ps : List (Nat × Nat × Nat)) (now : Nat) (t : Tbl Island) (hd : (ps.map (·.1)).Nodup) {i p q : Nat} (hi : (i, p, q) ∈ ps) {y : Island} (hy : tget t i = some y) :
    tget (switchIsl ps now t) i = some (y.switch p q now) := by
  induction ps generalizing t with
  | nil => cases hi
  | cons f ps ih =>
    rw [List.map_cons, List.nodup_cons] at hd
    rcases List.mem_cons.mp hi with h | h
    · subst h
      exact (switchIsl_other ps now _ hd.1).trans (by rw [tget_tmod_self, hy, Option.map_some])
    · have hne : i ≠ f.1 := fun he => hd.1 (he ▸ List.mem_map_of_mem (f := (·.1)) h)
      exact ih _ hd.2 h ((tget_tmod_ne _ _ _ _ hne).trans hy)

theorem W.releaseSeqs_stands (w : W) (quads : List Nat) : (w.releaseSeqs quads).log = w.log ∧ (w.releaseSeqs quads).m.regions = w.m.regions :=
  List.foldlRecOn (motive := fun v : W => v.log = w.log ∧ v.m.regions = w.m.regions) quads _ ⟨rfl, rfl⟩ fun _ h _ _ => h
theorem W.releaseSeqs_seqs (w : W) (quads : List Nat) : (w.releaseSeqs quads).m.seqs = quads.foldl (fun t q => tmod t q Seq.release) w.m.seqs := by
  unfold W.releaseSeqs
  induction quads generalizing w with
  | nil => rfl
  | cons q quads ih => exact ih _
theorem W.releaseSeqs_seq (w : W) {quads : List Nat} {q : Nat} (hq : q ∈ quads) {sq : Seq} (h : tget w.m.seqs q = some sq) :
    tget (w.releaseSeqs quads).m.seqs q = some sq.release := by
  have := tget_foldl_tmod quads (fun _ => Seq.release) (fun _ _ => rfl) w.m.seqs q
  rw [W.releaseSeqs_seqs, this, if_pos hq, h, Option.map_some]

section Switch

variable {s : State} {r : Nat} {g : Region} {ps : List (Nat × Nat × Nat)} {rate power : Nat} {lower : Bool} (hg : tget s.m.regions r = some g)
  (hp : g.pending = some (ps, rate, lower, power))
include hg hp

theorem switchCycle_waits (h : s.clk.now % 4096 ≠ 0 ∨ s.clk.now ≤ g.solvedAt) : exec (.switchCycle r) s = .next s := by
  have hno : ((W.of s).now % 4096 == 0 && decide (g.solvedAt < (W.of s).now)) = false := by
    rcases h with h | h
    · rw [show ((W.of s).now % 4096 == 0) = false from beq_eq_false_iff_ne.mpr h]; rfl
    · rw [show decide (g.solvedAt < (W.of s).now) = false from decide_eq_false (not_lt.mpr h), Bool.and_false]
  show execSwitchCycle r s = _
  unfold execSwitchCycle run
  simp only [show tget (W.of s).m.regions r = some g from hg, hp, W.guard, hno, Bool.false_and, Bool.false_eq_true, if_false, W.of_commit]

theorem switchCycle_eq (h0 : s.clk.now % 4096 = 0) (h1 : g.solvedAt < s.clk.now)
    (hsec : ∀ n ∈ g.secIsl, (tgetD s.m.sectors (siteSector g (sectorSite n.1)) {}).gate ≠ 3 ∧ (tgetD s.m.sectors (siteSector g (sectorSite n.1)) {}).droop = false)
    (hrail : ∀ q ∈ regionQuads g, (tgetD s.m.rails q {}).st ≠ 1 ∧ (W.of s).quadVote q ≤ (tgetD s.m.rails q {}).volt s.ns)
    (hph : g.phase = .unsolved ∨ g.runsAt s.clk.now = true) (hh : (s.part g.part).halted = false) : ∃ w : W,
    w = ((W.of s).noteEstimate g.part).setRegion r (fun g' => g'.switched rate power lower (switchIsl ps s.clk.now g.isl) (if g.phase == .unsolved then .running else g'.phase)) ∧
    exec (.switchCycle r) s = .next (((if g.phase == .unsolved then w.releaseSeqs (regionQuads g) else w).revoteAll (regionQuads g)).commit s) := by
  have ready : ((regionQuads g).all fun q => ((W.of s).rail q).st != 1 && decide ((W.of s).quadVote q ≤ ((W.of s).rail q).volt (W.of s).ns)) = true :=
    List.all_eq_true.mpr fun q hq => by
      obtain ⟨hst, hv⟩ := hrail q hq
      rw [Bool.and_eq_true_iff]
      exact ⟨bne_iff_ne.mpr hst, decide_eq_true hv⟩
  have agreed : (g.secIsl.all fun n => let x := (W.of s).sector (siteSector g (sectorSite n.1)); x.gate != 3 && !x.droop) = true :=
    List.all_eq_true.mpr fun n hn => by
      obtain ⟨hgate, hd⟩ := hsec n hn
      rw [Bool.and_eq_true_iff]
      exact ⟨bne_iff_ne.mpr hgate, by rw [show ((W.of s).sector (siteSector g (sectorSite n.1))).droop = false from hd]; rfl⟩
  have turn : (g.phase == .unsolved || g.runsAt (W.of s).now) = true := by
    rcases hph with h | h
    · rw [h]; rfl
    · rw [show g.runsAt (W.of s).now = true from h, Bool.or_true]
  refine ⟨_, rfl, ?_⟩
  show execSwitchCycle r s = _
  unfold execSwitchCycle run
  simp only [show tget (W.of s).m.regions r = some g from hg, hp, W.guard, ready, agreed, turn, show ((W.of s).now % 4096 == 0) = true from beq_iff_eq.mpr h0,
    show decide (g.solvedAt < (W.of s).now) = true from decide_eq_true h1, show ((W.of s).part g.part).halted = false from hh, Bool.not_false, Bool.and_self, if_true]
  rfl

theorem switchCycle_takes (h0 : s.clk.now % 4096 = 0) (h1 : g.solvedAt < s.clk.now)
    (hsec : ∀ n ∈ g.secIsl, (tgetD s.m.sectors (siteSector g (sectorSite n.1)) {}).gate ≠ 3 ∧ (tgetD s.m.sectors (siteSector g (sectorSite n.1)) {}).droop = false)
    (hrail : ∀ q ∈ regionQuads g, (tgetD s.m.rails q {}).st ≠ 1 ∧ (W.of s).quadVote q ≤ (tgetD s.m.rails q {}).volt s.ns)
    (hph : g.phase = .unsolved ∨ g.runsAt s.clk.now = true) (hh : (s.part g.part).halted = false) (hd : (ps.map (·.1)).Nodup) :
    ∃ t, exec (.switchCycle r) s = .next t ∧ t.mem = s.mem ∧ (t.region r).pending = none ∧ (t.region r).granted = rate ∧
      (t.region r).lower = lower ∧ (t.region r).solveNo = (g.solveNo + 1) % 256 ∧ (t.region r).phase = (if g.phase = .unsolved then .running else g.phase) ∧
      (∀ i p q y, (i, p, q) ∈ ps → tget g.isl i = some y → ∃ z, tget (t.region r).isl i = some z ∧ z.p = p ∧ z.q = q ∧ z.since = s.clk.now ∧
        z.edges = y.edge (s.clk.now - 1) ∧ z.vote = Graph.voteOf p q) ∧
      (∀ q sq, q ∈ regionQuads g → g.phase = .unsolved → tget s.m.seqs q = some sq → tget t.m.seqs q = some { sq with released := true }) ∧
      (g.phase ≠ .unsolved → t.m.seqs = s.m.seqs) := by
  obtain ⟨w, hw, he⟩ := switchCycle_eq hg hp h0 h1 hsec hrail hph hh
  have hwr : tget w.m.regions r = some (g.switched rate power lower (switchIsl ps s.clk.now g.isl) (if g.phase == .unsolved then .running else g.phase)) := by
    rw [hw]; exact W.tget_setRegion (w := (W.of s).noteEstimate g.part) hg _
  have hwl : w.log = [] := by rw [hw]; rfl
  have hws : w.m.seqs = s.m.seqs := by rw [hw]; rfl
  obtain ⟨v, hv, hvl, hvr, hvs, hvs'⟩ : ∃ v, (if g.phase == .unsolved then w.releaseSeqs (regionQuads g) else w) = v ∧ v.log = [] ∧ v.m.regions = w.m.regions ∧
      (∀ q sq, q ∈ regionQuads g → g.phase = .unsolved → tget s.m.seqs q = some sq → tget v.m.seqs q = some sq.release) ∧ (g.phase ≠ .unsolved → v.m.seqs = s.m.seqs) := by
    by_cases hu : g.phase = .unsolved
    · obtain ⟨hl, hr⟩ := w.releaseSeqs_stands (regionQuads g)
      rw [hu]
      exact ⟨_, rfl, hl.trans hwl, hr, fun q sq hq _ hsq => w.releaseSeqs_seq hq (hws ▸ hsq), fun hne => absurd rfl hne⟩
    · rw [show (g.phase == .unsolved) = false from beq_eq_false_iff_ne.mpr hu]
      exact ⟨_, rfl, hwl, rfl, fun _ _ _ h => absurd h hu, fun _ => hws⟩
  rw [hv] at he
  obtain ⟨hl, -, hs, hr⟩ := v.revoteAll_stands (regionQuads g)
  have hreg : ((v.revoteAll (regionQuads g)).commit s).region r = _ := W.region_of ((congrArg (tget · r) (hr.trans hvr)).trans hwr)
  refine ⟨_, he, ?_, ?_, ?_, ?_, ?_, ?_, fun i p q y hi hy => ?_, fun q sq hq hu hsq => ?_, fun hne => hs.trans (hvs' hne)⟩
  · rw [W.commit_mem, hl, hvl]; rfl
  · rw [hreg]; rfl
  · rw [hreg]; rfl
  · rw [hreg]; rfl
  · rw [hreg]; rfl
  · rw [hreg]
    by_cases hu : g.phase = .unsolved
    · rw [if_pos hu]; simp [Region.switched, hu]
    · rw [if_neg hu]; simp [Region.switched, hu]
  · rw [hreg]
    exact ⟨_, switchIsl_of ps s.clk.now g.isl hd hi hy, rfl, rfl, rfl, rfl, rfl⟩
  · exact (congrArg (tget · q) hs).trans (hvs q sq hq hu hsq)

end Switch

/-- Settles O51: a solve is its copies and its grant (`rateSolve_eq`), a switch its patterns and its first release (`switchCycle_eq`); the budgets are sums and fields of registers. -/
theorem ratesAndBudgets : Obligations.RatesAndBudgets := by
  refine ⟨fun s r g o hg hph ht hp hh hs ho => ?_, fun s r g ps rate power lower hg hp => ⟨switchCycle_waits hg hp, fun h0 h1 hsec hrail hph hh hd => switchCycle_takes hg hp h0 h1 hsec hrail hph hh hd⟩,
    fun s r g hg => ⟨fun n hr hp hn => backPressure_triggers hg hr hp hn, fun hp => backPressure_stands hg (by simp [hp]), fun n hp hn => backPressure_stands hg fun m hm => ?_⟩,
    fun s n k top rate _ hk htop hrate hr => ?_, fun s n uj credit hn hm => energy_counts uj credit hn hm, fun s d temp hd => tempSample_records s temp hd⟩
  · have ho' : o = s.grantAt r g ((W.of s).trim (regionQuad g 0)) := ho
    refine ⟨fun hn => rateSolve_none hg hph ht hp hh hs (ho'.symm.trans hn), fun op own hrun hop hown hcop => ?_, fun x hx => rateSolve_some hg hph ht hp hh hs (ho'.symm.trans hx)⟩
    subst hown
    exact rateSolve_clones hg hph ht hp hh hs hrun hop hcop
  · rw [hp] at hm
    cases hm
    exact hn
  · subst hk htop hrate
    exact ⟨tokenRefill_adds hr, tokenRefill_once⟩

end Sys2Proof.Machine
end

section
/-! PROOFS. Reads of the loader: what a read of an image or a section that succeeds leaves alone (20_configuration_image.md R309, R311, R313). -/

namespace Sys2Proof.Machine

/-- From w to w' an agent of the hub has read: memory, partitions, agents' names and what no access touches are as before. -/
structure W.Reads (w w' : W) : Prop where
  aside : w.Aside w'
  log   : w'.log = w.log
  parts : w'.m.parts = w.m.parts
  loc   : w'.fld Bar.devLoc 12 0 = w.fld Bar.devLoc 12 0

theorem W.Reads.refl (w : W) : w.Reads w := ⟨.refl w, rfl, rfl, rfl⟩
theorem W.Reads.trans {u v w : W} (a : u.Reads v) (b : v.Reads w) : u.Reads w :=
  ⟨a.aside.trans b.aside, b.log.trans a.log, b.parts.trans a.parts, b.loc.trans a.loc⟩
theorem W.Reads.part {w w' : W} (h : w.Reads w') (n : Nat) : w'.part n = w.part n := by simp only [W.part, h.parts]
theorem W.Reads.loaderAgent {w w' : W} (h : w.Reads w') : w'.loaderAgent = w.loaderAgent := by
  simp only [W.loaderAgent, W.agentId, h.loc]

theorem W.setBus_reads (w : W) (f : Bus → Bus) : w.Reads (w.setBus f) := ⟨w.setBus_aside f, rfl, rfl, rfl⟩
theorem W.setMmu_reads (w : W) (f : Mmu → Mmu) : w.Reads (w.setMmu f) := ⟨w.setMmu_aside f, rfl, rfl, rfl⟩
theorem W.setHub_reads (w : W) (f : Hub → Hub) : w.Reads (w.setHub f) := ⟨w.setHub_aside f, rfl, rfl, rfl⟩
theorem W.draw_reads (w : W) : w.Reads (w.setM fun m => { m with draw := m.draw + 1 }) := ⟨W.aside_of rfl rfl rfl, rfl, rfl, rfl⟩
/-- A change made only under a condition. -/
theorem W.reads_ite {c : Prop} [Decidable c] {w a b : W} (ha : w.Reads a) (hb : w.Reads b) : w.Reads (if c then a else b) := by
  split
  · exact ha
  · exact hb
theorem W.gain_reads (w : W) (e : Eye) (c : Cov) : w.Reads (w.gain e c) := W.reads_ite (.refl w) (w.setBus_reads _)

/-- What a fold of reads leaves alone. -/
theorem W.reads_foldl {α : Type} (f : W → α → W) (h : ∀ (w : W) (a : α), w.Reads (f w a)) (l : List α) (w : W) : w.Reads (l.foldl f w) :=
  List.foldlRecOn l f (.refl w) fun _ k a _ => k.trans (h _ a)

theorem W.tlbFill_reads (w : W) (u : Nat) (t : TlbE) : w.Reads (w.tlbFill u t) := by
  unfold W.tlbFill
  refine W.reads_ite (.refl w) ?_
  split
  rename_i v victim e
  have h : w.Reads v := by
    split at e <;> cases e
    · exact .refl w
    · exact w.draw_reads
  exact h.trans (W.setMmu_reads _ _)

/-- Requests of a hub agent are counted in other registers than that which names agents. -/
theorem W.countReqs_reads (w : W) (keys : List Nat) : w.Reads (w.countReqs 4 none keys) := by
  have k := w.countReqs_keeps 0 keys
  refine ⟨w.countReqs_aside 4 none keys, ?_, by have := congrArg Mach.parts k.still; exact this, by simp only [W.fld, k.bar Bar.devLoc (by decide)]⟩
  refine .trans (List.foldlRecOn (motive := fun v : W => v.log = (keys.foldl (fun w k => w.countOut 4 (keyHome k)) w).log) keys _ rfl fun v h k _ => ?_)
    (List.foldlRecOn (motive := fun v : W => v.log = w.log) keys _ rfl fun v h k _ => ?_)
  · unfold W.countIn
    split <;> exact h
  · unfold W.countOut
    split
    · exact h
    · split
      · exact h
      · split <;> exact h

/-! ## Attempts that succeed -/

/-- From w an attempt that succeeds has only read. -/
def W.ReadsIn {α : Type} (w : W) (x : Tried α) : Prop := ∀ a, x.2 = .ok a → w.Reads x.1

theorem W.readsIn_error {α : Type} (w v : W) (e : EngStop) : w.ReadsIn (α := α) (v, .error e) := by rintro a ⟨⟩
theorem W.Reads.gives {α : Type} {w v : W} (h : w.Reads v) (a : α) : w.ReadsIn (v, .ok a) := fun _ _ => h
theorem W.ReadsIn.andThen {α β : Type} {w : W} {x : Tried α} {f : W → α → Tried β} (h : w.ReadsIn x) (k : ∀ v a, w.Reads v → w.ReadsIn (f v a)) :
    w.ReadsIn (andThen x f) := by
  obtain ⟨v, r⟩ := x
  cases r with
  | error e => exact w.readsIn_error v e
  | ok a => exact k v a (h a rfl)
theorem W.Reads.readsIn {α : Type} {w v : W} {x : Tried α} (h : w.Reads v) (k : v.ReadsIn x) : w.ReadsIn x := fun a e => h.trans (k a e)

/-- A check of an image goes on after one that it passes. -/
theorem W.ReadsIn.loaded {α β : Type} {w : W} {x : Loaded α} {f : W → α → Loaded β} (h : w.ReadsIn x) (k : ∀ v a, w.Reads v → w.ReadsIn (f v a)) :
    w.ReadsIn (loaded x f) := by
  refine h.andThen fun v a hv => ?_
  cases a with
  | ok a => exact k v a hv
  | error e => exact hv.gives _
theorem W.Reads.checked {β : Type} {w v : W} (h : w.Reads v) (c : Option LoadFail) {f : W → Loaded β} (k : w.ReadsIn (f v)) : w.ReadsIn (checked v c f) := by
  cases c with
  | none => exact k
  | some e => exact h.gives _

/-! ## Sectors, images, sections -/

/-- An access that is placed fills inner TLBs at most. -/
theorem W.placed_reads (w : W) (src : Src) (part : Nat) (va : W64) (len : Nat) (a : Access) (t : Touch) (unit : Nat) {v : W} {ps : List Leaf × List Piece × List Nat}
    (h : w.placed src part va len a t unit = (v, .ok ps)) : w.Reads v := by
  suffices ∀ ps, (w.placed src part va len a t unit).2 = .ok ps → w.Reads (w.placed src part va len a t unit).1 by
    have := this ps (by rw [h])
    rwa [h] at this
  refine List.foldlRecOn (motive := fun (x : W × Placed) => ∀ ps, x.2 = .ok ps → w.Reads x.1) _ _ (fun _ _ => .refl w) ?_
  rintro ⟨v, r⟩ ih s - 
  dsimp only
  cases r with
  | error x => rintro _ ⟨⟩
  | ok y =>
    have hv := ih y rfl
    obtain ⟨ls, ps, ts⟩ := y
    dsimp only
    split
    · intro _ _
      dsimp only
      split
      · exact hv.trans (W.reads_foldl _ (fun w u => w.tlbFill_reads u _) _ v)
      · exact hv
    · rintro _ ⟨⟩
    · rintro _ ⟨⟩

theorem W.holdSector_reads (w : W) (who : Nat) (src : Src) (part sec : Nat) (a : Access) : w.ReadsIn (w.holdSector who src part sec a) := by
  unfold W.holdSector
  split
  · exact (W.Reads.refl w).gives _
  split
  · exact w.readsIn_error _ _
  split
  · exact w.readsIn_error _ _
  next v ls ps ts h =>
    have hv := w.placed_reads _ _ _ _ _ _ _ h
    dsimp only
    split
    · exact w.readsIn_error _ _
    split
    · exact w.readsIn_error _ _
    · exact (hv.trans (W.setHub_reads _ _)).gives _
theorem W.holdSectors_reads (who : Nat) (src : Src) (part : Nat) (a : Access) (n : Nat) : ∀ (w : W) (left : List Nat), w.ReadsIn (w.holdSectors who src part a n left) := by
  induction n with
  | zero => exact fun w _ => (W.Reads.refl w).gives _
  | succ n ih =>
    intro w left
    cases left with
    | nil => exact (W.Reads.refl w).gives _
    | cons x left =>
      refine W.ReadsIn.andThen (W.Reads.readsIn ?_ (W.holdSector_reads _ _ _ _ _ _)) fun v _ hv => hv.readsIn (ih v _)
      split
      · exact .refl w
      · exact w.draw_reads
theorem W.longGet_reads (w : W) (who : Nat) (src : Src) (part : Nat) (va : W64) (n : Nat) (a : Access) : w.ReadsIn (w.longGet who src part va n a) :=
  (W.holdSectors_reads _ _ _ _ _ w _).andThen fun _ _ hv => hv.gives _
theorem W.longDone_reads (w : W) (who : Nat) (src : Src) : w.Reads (w.longDone who src).1 := by
  unfold W.longDone
  dsimp only
  exact ((w.countReqs_reads _).trans (W.gain_reads _ _ _)).trans (W.setHub_reads _ _)
theorem W.loadDone_reads (w : W) (r : Nat) : w.Reads (w.loadDone r) := by
  unfold W.loadDone
  exact (w.longDone_reads r (.engine 49)).trans (W.setHub_reads _ _)
theorem W.imageRead_reads (w : W) (r part : Nat) (image : W64) (off n : Nat) (first : Option Nat) : w.ReadsIn (w.imageRead r part image off n first) :=
  (w.setHub_reads _).readsIn (W.longGet_reads _ _ _ _ _ _ _)

theorem W.readTables_reads (w : W) (r part : Nat) (image : W64) (qw qh : Nat) : w.ReadsIn (w.readTables r part image qw qh) := by
  refine (w.imageRead_reads _ _ _ _ _ _).andThen fun v hb hv => hv.checked _ ?_
  refine (hv.readsIn (v.imageRead_reads _ _ _ _ _ _)).andThen fun u tb hu => ?_
  dsimp only
  split
  · exact hu.gives _
  · exact hu.checked _ (hu.gives _)
theorem W.readSections_reads (w : W) (r part : Nat) (image : W64) (h : Header) : w.ReadsIn (w.readSections r part image h) :=
  (w.imageRead_reads _ _ _ _ _ _).andThen fun _ _ hv => hv.gives _
theorem W.checkSections_reads (r part : Nat) (image : W64) (t : Tables) (run : List Frame) (secs : List Nat) (es : List SecEntry) :
    ∀ (w : W) (before : List Nat) (first : Nat), w.ReadsIn (w.checkSections r part image t run secs es before first) := by
  induction es with
  | nil => exact fun w _ _ => (W.Reads.refl w).gives _
  | cons e es ih =>
    intro w before first
    refine (W.Reads.refl w).checked _ ((w.imageRead_reads _ _ _ _ _ _).andThen fun v bytes hv => hv.checked _ (hv.readsIn (ih v _ _)))
/-- A whole image. -/
theorem W.readImage_reads (w : W) (r part : Nat) (image : W64) (qw qh : Nat) : w.ReadsIn (w.readImage r part image qw qh) := by
  refine (w.readTables_reads _ _ _ _ _).loaded fun v t hv => ?_
  refine (hv.readsIn (v.imageRead_reads _ _ _ _ _ _)).andThen fun v fb hv => ?_
  refine (hv.readsIn (v.readSections_reads _ _ _ _)).andThen fun v ses hv => hv.checked _ ?_
  exact (hv.readsIn (W.checkSections_reads _ _ _ _ _ _ _ v _ _)).loaded fun v _ hv => hv.gives _
/-- A section's entry and frames. -/
theorem W.readSection_reads (w : W) (r : Nat) (g : Region) (sec : Nat) : w.ReadsIn (w.readSection r g sec) := by
  refine (w.readTables_reads _ _ _ _ _).loaded fun v t hv => ?_
  refine (hv.readsIn (v.readSections_reads _ _ _ _)).andThen fun v ses hv => ?_
  dsimp only
  split
  · exact hv.gives _
  · exact hv.checked _ ((hv.readsIn (v.imageRead_reads _ _ _ _ _ _)).andThen fun v _ hv => hv.gives _)

end Sys2Proof.Machine
end

section
/-! PROOFS. The allocator: where a waiting LAUNCH is placed, and what its region takes (02_execution_model.md R35; 23_host_and_command_processor.md R350). -/

namespace Sys2Proof.Machine

/-! ## Where a LAUNCH is placed -/

/-- A place is a rectangle of free quads. -/
theorem placeAt_free {free : Nat → Bool} {qw qh : Nat} {p : Nat × Nat × Nat} (h : placeAt free qw qh = some p) :
    (regionQuads { die := p.1, qx := p.2.1, qy := p.2.2, qw := qw, qh := qh }).all free = true := by
  obtain ⟨d, -, h⟩ := List.exists_of_findSome?_eq_some h
  obtain ⟨y, -, h⟩ := List.exists_of_findSome?_eq_some h
  obtain ⟨x, -, h⟩ := List.exists_of_findSome?_eq_some h
  dsimp only at h
  split at h
  next c =>
    obtain rfl := Option.some.inj h
    exact c.2.2
  · cases h
/-- So is the place of a LAUNCH, in its partition. -/
theorem W.grantOf_free {w : W} {q i : Nat} {l : Launch} {p : Nat × Nat × Nat} (h : w.grantOf (q, i, l) = some p) :
    ∀ x ∈ regionQuads (l.region (w.queuePart q) q p), w.quadFree (w.queuePart q) x = true := by
  unfold W.grantOf at h
  split at h
  · cases h
  next p' hp =>
    split at h
    · cases h
    · obtain rfl := Option.some.inj h
      exact List.all_eq_true.1 (placeAt_free hp)

/-! ## The flag word -/

/-- An address that the hub's TLB translates is found there, and nothing changes. -/
theorem W.hubFind_of_lookup {w : W} {part : Nat} {va : W64} {a : Access} {l : Leaf} {off x : Nat} (h : w.hubLookup part va a = .ok l off x) :
    w.hubFind part va a = (w, some (l, off)) := by
  simp only [W.hubFind, W.hubXlate, h]

theorem W.hubTake_aside (w : W) (part : Nat) (va : W64) (n : Nat) : w.Aside (w.hubTake part va n).1 := by
  have h := w.hubFind_aside part va .read
  unfold W.hubTake
  split <;> rename_i e <;> rw [e] at h
  · exact h.trans (W.countReqs_aside _ _ _ _)
  · exact h
/-- SQ_FLAGS are taken from the flag word without a change of anything that runs. -/
theorem W.unparkFlags_aside (w : W) (part : Nat) : w.Aside (w.unparkFlags part) := by
  have h := w.hubTake_aside part (w.ctxAt part 8) 8
  unfold W.unparkFlags
  refine W.aside_ite (.refl w) ?_
  split <;> rename_i e <;> rw [e] at h <;> exact h.trans (W.setPart_aside _ _ fun _ _ k => k)
/-- Where they do not stand, nothing is taken. -/
theorem W.unparkFlags_unparked {w : W} {part : Nat} (h : w.anyRunning part = true ∨ (w.part part).parked = false) : w.unparkFlags part = w := by
  unfold W.unparkFlags
  rw [if_pos (by rcases h with h | h <;> simp [h])]
/-- Where the hub's TLB finds the flag word, taking it writes nothing. -/
theorem W.unparkFlags_log {w : W} {part : Nat} (h : w.anyRunning part = true ∨ (w.part part).parked = false ∨ ∃ l off x, w.hubLookup part (w.ctxAt part 8) .read = .ok l off x) :
    (w.unparkFlags part).log = w.log := by
  rcases h with h | h | ⟨l, off, x, h⟩
  · rw [W.unparkFlags_unparked (.inl h)]
  · rw [W.unparkFlags_unparked (.inr h)]
  · have take : w.hubTake part (w.ctxAt part 8) 8 = (w.countReqs 4 none (sectorKeys (hubKey l off) 8), some (w.viewBytes w.hubEye (hubKey l off) 8)) := by
      simp only [W.hubTake, W.hubFind_of_lookup h]
    unfold W.unparkFlags
    split
    · rfl
    · rw [take]
      exact (w.countReqs_reads _).log

/-! ## The quads -/

/-- One sector of a new region's. -/
def W.wakeSector (g : Region) (w : W) (n : Nat) : W :=
  w.setSector n fun s => { s with gate := 0, lastNs := w.ns, lastEdge := w.edgeOf g (g.siteOfSector n), upNs := none, wakeEdge := 0 }
/-- The sectors of a region, in the order in which they are woken. -/
def Region.sectorList (g : Region) : List Nat := (regionQuads g).flatMap fun q => (List.range 4).map fun i => 4 * q + i

theorem W.takeQuads_eq (w : W) (g : Region) : w.takeQuads g = (g.sectorList.foldl (W.wakeSector g) w).countWakes g.die := by
  simp only [Region.sectorList, List.foldl_flatMap, List.foldl_map]
  rfl
/-- Sectors that wake change nothing else. -/
theorem W.takeQuads_stands (w : W) (g : Region) : (w.takeQuads g).log = w.log ∧ (w.takeQuads g).m.seqs = w.m.seqs ∧ (w.takeQuads g).m.regions = w.m.regions ∧
    (w.takeQuads g).m.queues = w.m.queues ∧ (w.takeQuads g).m.parts = w.m.parts ∧ (w.takeQuads g).clk = w.clk := by
  rw [W.takeQuads_eq]
  exact List.foldlRecOn (motive := fun v : W => v.log = w.log ∧ v.m.seqs = w.m.seqs ∧ v.m.regions = w.m.regions ∧ v.m.queues = w.m.queues ∧ v.m.parts = w.m.parts ∧ v.clk = w.clk)
    g.sectorList (W.wakeSector g) ⟨rfl, rfl, rfl, rfl, rfl, rfl⟩ fun _ h _ _ => h
/-- They are awake. -/
theorem W.wakeSectors_awake (g : Region) {n : Nat} (ns : List Nat) : ∀ (w : W), (n ∈ ns ∨ ∃ y, tget w.m.sectors n = some y ∧ y.gate = 0) →
    ∃ y, tget (ns.foldl (W.wakeSector g) w).m.sectors n = some y ∧ y.gate = 0 := by
  induction ns with
  | nil => intro w h; simpa using h
  | cons k ns ih =>
    intro w h
    refine ih _ ?_
    by_cases hk : n = k
    · subst hk
      exact .inr ⟨_, tget_tput_self _ _ _, rfl⟩
    · rcases h with h | ⟨y, hy, h0⟩
      · exact .inl ((List.mem_cons.1 h).resolve_left hk)
      · exact .inr ⟨y, .trans (tget_tput_ne _ _ _ _ hk) hy, h0⟩
theorem W.takeQuads_awake (w : W) (g : Region) {q k : Nat} (hq : q ∈ regionQuads g) (hk : k < 4) : ∃ y, tget (w.takeQuads g).m.sectors (4 * q + k) = some y ∧ y.gate = 0 := by
  rw [W.takeQuads_eq]
  exact W.wakeSectors_awake g g.sectorList w (.inl (List.mem_flatMap.2 ⟨q, hq, List.mem_map.2 ⟨k, List.mem_range.2 hk, rfl⟩⟩))

/-! ## REGION_ALLOCATE -/

section Allocate

variable {s : State} {q n i : Nat} {l : Launch} {p : Nat × Nat × Nat} {g : Region}
  (hf : (W.of s).waiting.find? (fun x => x.1 == q && x.2.2.saved.isNone && ((W.of s).grantOf x).isSome) = some (q, i, l))
  (hn : n = (W.of s).queuePart q) (hg : g = l.region n q p) (hp : (W.of s).grantOf (q, i, l) = some p)

/-- The world in which a LAUNCH's region has been made. -/
def W.allocated (w : W) (n : Nat) (g : Region) : W := (w.unparkFlags n).setM fun m => { m with regions := tput m.regions (regionKey g) g }

include hf hn hg hp in
theorem regionAllocate_eq : exec (.regionAllocate q) s = .next ((((W.of s).allocated n g).takeQuads g).stepQueue q (fun u => u.placed i ((W.of s).allocated n g).ns) |>.commit s) := by
  subst hn hg
  show execRegionAllocate q s = _
  unfold execRegionAllocate run
  simp only [hf, hp]
  rfl

/-- What the allocator's turn leaves: the region, its sectors awake, and the LAUNCH no longer waiting. -/
theorem regionAllocate_places (s : State) (q n i : Nat) (g : Region) : ∃ t, t = ((((W.of s).allocated n g).takeQuads g).stepQueue q (fun u => u.placed i ((W.of s).allocated n g).ns)).commit s ∧
    ((W.of s).anyRunning n = true ∨ (s.part n).parked = false ∨ (∃ m off, s.hubAt n ((W.of s).ctxAt n 8) .read m off) → t.mem = s.mem) ∧ t.m.seqs = s.m.seqs ∧
    tget t.m.regions (regionKey g) = some g ∧ (∀ j, j ≠ regionKey g → tget t.m.regions j = tget s.m.regions j) ∧
    ((W.of s).anyRunning n = true ∨ (s.part n).parked = false → (t.part n).flags = (s.part n).flags) ∧
    t.queue q = { (s.queue q).placed i s.ns with
      since := if (s.queue q).ready = false ∧ ((s.queue q).placed i s.ns).ready = true then s.ns else (s.queue q).since } ∧
    ∀ x ∈ regionQuads g, ∀ k < 4, ∃ y, tget t.m.sectors (4 * x + k) = some y ∧ y.gate = 0 := by
  have hu := (W.of s).unparkFlags_aside n
  obtain ⟨log, seqs, regions, queues, parts, clk⟩ := ((W.of s).allocated n g).takeQuads_stands g
  have hq : (((W.of s).allocated n g).takeQuads g).queue q = s.queue q := by
    simp only [W.queue, queues, State.queue]
    exact congrArg (tgetD · q {}) hu.queues
  have hc : (((W.of s).allocated n g).takeQuads g).clk = s.clk := clk.trans hu.clk
  have regions : (((W.of s).allocated n g).takeQuads g).m.regions = tput s.m.regions (regionKey g) g :=
    regions.trans (congrArg (tput · (regionKey g) g) hu.regions)
  refine ⟨_, rfl, fun h => ?_, seqs.trans hu.seqs, ?_, fun j hj => ?_, fun h => ?_, ?_, fun x hx k hk => W.takeQuads_awake _ g hx hk⟩
  · show applyLog s.mem _ = _
    have h0 : (((W.of s).allocated n g).takeQuads g).log = [] := by
      refine log.trans (W.unparkFlags_log ?_)
      rcases h with h | h | ⟨m, off, x, h⟩
      · exact .inl h
      · exact .inr (.inl h)
      · exact .inr (.inr ⟨m, off, x, h⟩)
    rw [W.stepQueue, W.setQueue_log, h0]; rfl
  · exact (congrArg (tget · _) regions).trans (tget_tput_self _ _ _)
  · exact (congrArg (tget · _) regions).trans (tget_tput_ne _ _ _ _ hj)
  · have : ((((W.of s).allocated n g).takeQuads g).part n).flags = (((W.of s).unparkFlags n).part n).flags := by rw [W.part, parts]; rfl
    refine this.trans ?_
    rw [W.unparkFlags_unparked h]; rfl
  · generalize ((W.of s).allocated n g).takeQuads g = v at hq hc
    have hns : ((W.of s).allocated n g).ns = s.ns := congrArg (fun c : Clk => c.gtime / 5000000) hu.clk
    have hnv : v.ns = s.ns := congrArg (fun c : Clk => c.gtime / 5000000) hc
    rw [hns]
    show tgetD (tput v.m.queues q _) q {} = _
    rw [tgetD_tput_self, hq, hnv]
    dsimp only
    have since : ((s.queue q).placed i s.ns).since = (s.queue q).since := rfl
    cases (s.queue q).ready <;> cases ((s.queue q).placed i s.ns).ready <;> simp <;> rfl

/-- Where no LAUNCH of the queue can be placed, nothing happens. -/
theorem regionAllocate_waits (h : ∀ x ∈ (W.of s).waiting, x.1 = q → x.2.2.saved = none → (W.of s).grantOf x = none) : exec (.regionAllocate q) s = .next s := by
  have none : (W.of s).waiting.find? (fun x => x.1 == q && x.2.2.saved.isNone && ((W.of s).grantOf x).isSome) = none := by
    refine List.find?_eq_none.2 fun x hx hc => ?_
    simp only [Bool.and_eq_true, beq_iff_eq, Option.isNone_iff_eq_none] at hc
    obtain ⟨⟨hq, hs⟩, hg⟩ := hc
    rw [h x hx hq hs] at hg
    cases hg
  show execRegionAllocate q s = _
  unfold execRegionAllocate run
  simp only [none]
  rfl

end Allocate

end Sys2Proof.Machine
end

section
/-! PROOFS. The return of a region's quads, and of a region whose root has finished (02_execution_model.md R35; R346, R356, R367). -/

namespace Sys2Proof.Machine

/-! ## What the allocator takes back -/

/-- The region is gone, its requests orphaned, its estimate noted. -/
def W.letGo (w : W) (r : Nat) (g : Region) : W :=
  ((w.orphans fun s => s.ofRegion r (regionQuads g ++ g.spare)).noteEstimate g.part).setM fun m =>
    { m with regions := tdel m.regions r, seqs := (regionQuads g ++ g.spare).foldl tdel m.seqs }
/-- Cleared mask bits of its quads are gone, and it waits for no solve. -/
def W.unmask (w : W) (r : Nat) (g : Region) : W :=
  (((((w.part g.part).clears.filter (regionQuads g ++ g.spare).contains).foldl (fun w q => w.setMask g.part q false) w).setPart g.part fun p =>
    { p with clears := p.clears.filter fun q => !(regionQuads g ++ g.spare).contains q })).setHub fun h =>
      { h with solves := h.solves.filter (· != r), memo := tdel h.memo r, loading := tdel h.loading r }
/-- Its votes have ended, and regions of other partitions are tried again. -/
def W.retried (w : W) (g : Region) : W := (w.revoteAll (regionQuads g ++ g.spare)).triggerSolve fun _ x => x.phase == .unsolved && x.part != g.part

theorem W.freeRegion_eq {w : W} {r : Nat} {g : Region} (h : tget w.m.regions r = some g) : w.freeRegion r = (((w.letGo r g).unmask r g).retried g).parkFlags g.part := by
  simp only [W.freeRegion, h]
  rfl

/-- What a region's return leaves, while its flags are not yet parked. -/
structure W.Frees (w w' : W) (r : Nat) (g : Region) : Prop where
  log    : w'.log = w.log
  clk    : w'.clk = w.clk
  seqs   : w'.m.seqs = (regionQuads g ++ g.spare).foldl tdel w.m.seqs
  queues : w'.m.queues = w.m.queues
  gone   : tget w'.m.regions r = none
  others : ∀ k y, k ≠ r → tget w.m.regions k = some y → ∃ y', tget w'.m.regions k = some y' ∧ y'.part = y.part
  halts  : ∀ n, ∀ h ∈ (w.part n).halts, h ∈ (w'.part n).halts

theorem W.letGo_frees (w : W) (r : Nat) (g : Region) : w.Frees (w.letGo r g) r g where
  log := rfl
  clk := rfl
  seqs := rfl
  queues := rfl
  gone := tget_tdel_self _ _
  others _ y hk h := ⟨y, .trans (tget_tdel_ne _ _ _ hk) h, rfl⟩
  halts := (((w.setBus_aside _).trans (W.setMmu_aside _ _)).trans (W.setPart_aside (f := fun p => { p with
    estSum := p.estSum + (w.orphans fun s => s.ofRegion r (regionQuads g ++ g.spare)).plainOf g.part * (w.ns - p.estAt), estAt := w.ns }) _ _ fun _ _ k => k)).halts
theorem W.Frees.aside {w v u : W} {r : Nat} {g : Region} (h : w.Frees v r g) (a : v.Aside u) (log : u.log = v.log) : w.Frees u r g where
  log := log.trans h.log
  clk := a.clk.trans h.clk
  seqs := a.seqs.trans h.seqs
  queues := a.queues.trans h.queues
  gone := by rw [a.regions]; exact h.gone
  others := by rw [a.regions]; exact h.others
  halts n x k := a.halts n x (h.halts n x k)
theorem W.unmask_aside (w : W) (r : Nat) (g : Region) : w.Aside (w.unmask r g) := by
  unfold W.unmask
  refine .trans (.trans (W.aside_foldl (fun (w : W) q => w.setMask g.part q false) (fun w q => w.setFld_aside _ _ _ _) _ w) (W.setPart_aside _ _ ?_)) (W.setHub_aside _ _)
  exact fun _ _ k => k
theorem W.unmask_log (w : W) (r : Nat) (g : Region) : (w.unmask r g).log = w.log :=
  List.foldlRecOn (motive := fun v : W => v.log = w.log) _ (fun (w : W) q => w.setMask g.part q false) rfl fun _ h _ _ => h
/-- Votes change no partition. -/
theorem W.revoteAll_others (w : W) (qs : List Nat) : (w.revoteAll qs).m.parts = w.m.parts ∧ (w.revoteAll qs).m.queues = w.m.queues :=
  List.foldlRecOn (motive := fun v : W => v.m.parts = w.m.parts ∧ v.m.queues = w.m.queues) qs _ ⟨rfl, rfl⟩ fun _ h _ _ => h
theorem W.Frees.retried {w v : W} {r : Nat} {g : Region} (h : w.Frees v r g) : w.Frees (v.retried g) r g := by
  obtain ⟨log, clk, seqs, regions⟩ := v.revoteAll_stands (regionQuads g ++ g.spare)
  obtain ⟨parts, queues⟩ := v.revoteAll_others (regionQuads g ++ g.spare)
  refine ⟨log.trans h.log, clk.trans h.clk, seqs.trans h.seqs, queues.trans h.queues, ?_, fun k y hk hy => ?_, fun n x k => ?_⟩
  · rw [W.retried, tget_triggerSolve, regions, h.gone]; rfl
  · obtain ⟨z, hz, hp⟩ := h.others k y hk hy
    rw [W.retried, tget_triggerSolve, regions, hz]
    refine ⟨_, rfl, ?_⟩
    dsimp only
    split <;> exact hp
  · have := h.halts n x k
    simpa only [W.retried, W.triggerSolve, W.part, parts] using this
theorem W.freed_frees (w : W) (r : Nat) (g : Region) : w.Frees (((w.letGo r g).unmask r g).retried g) r g :=
  ((w.letGo_frees r g).aside (W.unmask_aside _ _ _) (W.unmask_log _ _ _)).retried

/-! ## The flag word -/

/-- A table that finds an entry holds it. -/
theorem mem_of_tget {α : Type} {t : Tbl α} {k : Nat} {v : α} (h : tget t k = some v) : (k, v) ∈ t := by
  induction t with
  | nil => cases h
  | cons x t ih =>
    obtain ⟨j, u⟩ := x
    by_cases e : j = k
    · subst e
      simp only [tget, if_true, Option.some.injEq] at h
      subst h
      exact List.mem_cons_self
    · rw [tget, if_neg e] at h
      exact List.mem_cons_of_mem _ (ih h)
theorem W.anyRunning_of {w : W} {n k : Nat} {y : Region} (h : tget w.m.regions k = some y) (hp : y.part = n) : w.anyRunning n = true :=
  List.any_eq_true.2 ⟨(k, y), mem_of_tget h, by simp [hp]⟩
theorem W.parkFlags_running {w : W} {n : Nat} (h : w.anyRunning n = true) : w.parkFlags n = w := by
  unfold W.parkFlags
  rw [if_pos h]
theorem W.parkFlags_aside (w : W) (n : Nat) : w.Aside (w.parkFlags n) := by
  have h := w.hubFind_aside n (w.ctxAt n 8) .write
  unfold W.parkFlags
  refine W.aside_ite (.refl w) ?_
  split <;> rename_i e <;> rw [e] at h
  · exact (h.trans (W.hubStore_aside _ _ _ _ _)).trans (W.setPart_aside _ _ fun _ _ k => k)
  · exact h

/-- What a region's return leaves: it and its sequencers are gone, halts wait as before, and memory stands while another task of the partition runs. -/
theorem W.freeRegion_returns {w : W} {r : Nat} {g : Region} (h : tget w.m.regions r = some g) :
    ((∃ k y, k ≠ r ∧ tget w.m.regions k = some y ∧ y.part = g.part) → (w.freeRegion r).log = w.log) ∧ (w.freeRegion r).clk = w.clk ∧
    (w.freeRegion r).m.seqs = (regionQuads g ++ g.spare).foldl tdel w.m.seqs ∧ (w.freeRegion r).m.queues = w.m.queues ∧ tget (w.freeRegion r).m.regions r = none ∧
    ∀ n, ∀ x ∈ (w.part n).halts, x ∈ ((w.freeRegion r).part n).halts := by
  have f := w.freed_frees r g
  have a := W.parkFlags_aside (((w.letGo r g).unmask r g).retried g) g.part
  rw [W.freeRegion_eq h]
  refine ⟨?_, a.clk.trans f.clk, a.seqs.trans f.seqs, a.queues.trans f.queues, by rw [a.regions]; exact f.gone, fun n x k => a.halts n x (f.halts n x k)⟩
  rintro ⟨k, y, hk, hy, hp⟩
  obtain ⟨z, hz, hzp⟩ := f.others k y hk hy
  rw [W.parkFlags_running (W.anyRunning_of hz (hzp.trans hp))]
  exact f.log

/-! ## REGION_RELEASE -/

/-- Deleted entries of a table are gone, and the others stand. -/
theorem tget_foldl_tdel {α : Type} (ks : List Nat) (k : Nat) : ∀ t : Tbl α, tget (ks.foldl tdel t) k = if k ∈ ks then none else tget t k := by
  induction ks with
  | nil => intro t; simp
  | cons j ks ih =>
    intro t
    rw [List.foldl_cons, ih, tget_tdel]
    by_cases h : k ∈ ks <;> by_cases e : k = j <;> simp [h, e]

/-- Every sequencer that a region has released has halted. -/
theorem W.allHalted_of {w : W} {g : Region} (h : ∀ q ∈ regionQuads g, ∀ sq, tget w.m.seqs q = some sq → sq.released = true → sq.halted = true) : w.allHalted g = true := by
  refine List.all_eq_true.2 fun q hq => ?_
  cases e : tget w.m.seqs q with
  | none => rfl
  | some sq =>
    have := h q hq sq e
    cases hr : sq.released <;> simp_all

/-- A job that is over. -/
def Job.over (j : Job) (agent : Nat) (ref : W32) (ns step : Nat) (killed : Bool) : Job :=
  { j with done := true, agent := agent, ref := ref, doneNs := ns, step := step, killed := j.killed || killed }
/-- The work of a LAUNCH that is over is the job of its number. -/
theorem find_map_job (f : Job → Job) (hf : ∀ j, (f j).id = j.id) (id : Nat) (js : List Job) {j : Job} (h : js.find? (fun j => j.id == id) = some j) :
    (js.map fun j => if j.id == id then f j else j).find? (fun j => j.id == id) = some (f j) := by
  induction js with
  | nil => cases h
  | cons x js ih =>
    cases e : x.id == id with
    | true =>
      simp only [List.find?_cons, e, Option.some.injEq] at h
      subst h
      rw [List.map_cons, if_pos e, List.find?_cons, hf, e]
    | false =>
      rw [List.find?_cons, e] at h
      simp only [List.map_cons, e, Bool.false_eq_true, if_false, List.find?_cons]
      exact ih h
theorem W.launchOver_job (s : State) (w : W) (g : Region) (agent : Nat) (ref : W32) (step : Nat) (killed : Bool) {j : Job} (h : (w.queue g.queue).jobs.find? (fun j => j.id == g.job) = some j) :
    ((w.launchOver g agent ref step killed).commit s).job g.queue g.job = some (j.over agent ref w.ns step killed) := by
  have q : (w.launchOver g agent ref step killed).queue g.queue = { w.queue g.queue with
      jobs := (w.queue g.queue).jobs.map fun j => if j.id == g.job then j.over agent ref w.ns step killed else j } := tgetD_tput_self _ _ _ _
  show ((w.launchOver g agent ref step killed).queue g.queue).jobs.find? _ = _
  rw [q]
  exact find_map_job (Job.over · agent ref w.ns step killed) (fun _ => rfl) _ _ h

section Release

variable {s : State} {r : Nat} {g : Region} (hg : tget s.m.regions r = some g)
include hg

theorem regionRelease_eq (hph : g.phase = .running) (hd : g.rootDone = true) (hs : (W.of s).allHalted g = true) (hp : (s.part g.part).halted = false) :
    ∃ w ref step, (W.of s).Aside w ∧ w.log = [] ∧
      exec (.regionRelease r) s = .next (((w.freeRegion r).launchOver g ((W.of s).seqAgent (regionQuad g 0)) ref step false).commit s) := by
  have run : (g.phase == .running && g.rootDone && (W.of s).allHalted g && !((W.of s).part g.part).halted) = true := by
    rw [hph, hd, hs, show ((W.of s).part g.part).halted = false from hp]; rfl
  refine ⟨(W.of s).gain (hubAgent ((W.of s).cpAgent g.queue)) ((W.of s).regionCovers r),
    if (tget s.m.seqs (regionQuad g 0)).isSome then ((W.of s).seq (regionQuad g 0)).latest else g.popRef, (W.of s).stepOf (regionQuad g 0), W.gain_aside _ _ _, (W.gain_reads _ _ _).log, ?_⟩
  show execRegionRelease r s = _
  unfold execRegionRelease Sys2Proof.Machine.run
  simp only [show tget (W.of s).m.regions r = some g from hg, W.guard, run, if_true]
  rfl

/-- A region whose root is not done stays. -/
theorem regionRelease_stays (hd : g.rootDone = false) : exec (.regionRelease r) s = .next s := by
  show execRegionRelease r s = _
  unfold execRegionRelease run
  simp only [show tget (W.of s).m.regions r = some g from hg, W.guard, hd, Bool.and_false, Bool.false_and, Bool.false_eq_true, if_false]
  rfl

/-- One that is done, with every sequencer halted, returns, and its LAUNCH's work is over. -/
theorem regionRelease_returns (hph : g.phase = .running) (hd : g.rootDone = true)
    (hs : ∀ q ∈ regionQuads g, ∀ sq, tget s.m.seqs q = some sq → sq.released = true → sq.halted = true) (hp : (s.part g.part).halted = false) :
    ∃ t, exec (.regionRelease r) s = .next t ∧
      ((∃ k y, k ≠ r ∧ tget s.m.regions k = some y ∧ y.part = g.part) → t.mem = s.mem) ∧
      tget t.m.regions r = none ∧ (∀ q ∈ regionQuads g, tget t.m.seqs q = none) ∧ (∀ q, q ∉ regionQuads g → q ∉ g.spare → tget t.m.seqs q = tget s.m.seqs q) ∧
      ∀ j, s.job g.queue g.job = some j → ∃ k, t.job g.queue g.job = some k ∧ k.done = true ∧ k.agent = (W.of s).seqAgent (regionQuad g 0) ∧ k.sigop = j.sigop ∧ k.killed = j.killed := by
  obtain ⟨w, ref, step, a, log, e⟩ := regionRelease_eq hg hph hd (W.allHalted_of hs) hp
  have regions : w.m.regions = s.m.regions := a.regions
  obtain ⟨mem, -, seqs, queues, gone, -⟩ := W.freeRegion_returns (w := w) (r := r) (g := g) (by rw [regions]; exact hg)
  have seqs : (w.freeRegion r).m.seqs = (regionQuads g ++ g.spare).foldl tdel s.m.seqs := seqs.trans (congrArg (List.foldl tdel · _) a.seqs)
  have queues : (w.freeRegion r).m.queues = s.m.queues := queues.trans a.queues
  generalize w.freeRegion r = v at *
  refine ⟨_, e, fun h => ?_, gone, fun q hq => ?_, fun q hq hq' => ?_, fun j hj => ?_⟩
  · show applyLog s.mem v.log = _
    rw [mem (by rw [regions]; exact h), log]; rfl
  · refine (congrArg (tget · q) seqs).trans ?_
    rw [tget_foldl_tdel, if_pos (List.mem_append_left _ hq)]
  · refine (congrArg (tget · q) seqs).trans ?_
    rw [tget_foldl_tdel, if_neg (by simp [hq, hq'])]
  · have hq : v.queue g.queue = s.queue g.queue := congrArg (fun t : Tbl Queue => tgetD t g.queue {}) queues
    refine ⟨_, W.launchOver_job s v g _ ref step false (by rw [hq]; exact hj), rfl, rfl, rfl, Bool.or_false _⟩

end Release

end Sys2Proof.Machine
end

section
/-! PROOFS. The load of a region's image (20_configuration_image.md R309, R310; R72). -/

namespace Sys2Proof.Machine

/-! ## The loader raises a cause -/

/-- The loader, having only read, raises a cause of a partition that it may still halt. -/
theorem raiseLoader_raised {s : State} {w : W} {n : Nat} (h : (W.of s).Reads w) (m : MayRaise s n (W.of s).loaderAgent) (code : Nat) (va : W64) (frame : Nat) (version : W32) :
    ∃ x ∈ ((w.raiseLoader n code va frame version).part n).halts, x.agent = (W.of s).loaderAgent ∧ x.code = code := by
  obtain ⟨runs, none⟩ := m
  have hp : w.part n = s.part n := h.part n
  unfold W.raiseLoader W.raise
  rw [if_neg, W.part, W.setPart_parts, tgetD_tput_self]
  · exact ⟨_, List.mem_append_right _ (List.mem_singleton_self _), h.loaderAgent, rfl⟩
  · rw [hp, runs, Bool.false_or, List.any_eq_true]
    rintro ⟨x, hx, he⟩
    simp only [Halt.same, Bool.and_eq_true, beq_iff_eq] at he
    exact none x hx (he.1.trans h.loaderAgent)
theorem W.raiseLoader_log (w : W) (n code : Nat) (va : W64) (frame : Nat) (version : W32) : (w.raiseLoader n code va frame version).log = w.log := by
  unfold W.raiseLoader W.raise
  split <;> rfl
theorem W.raiseLoader_aside (w : W) (n code : Nat) (va : W64) (frame : Nat) (version : W32) : w.Aside (w.raiseLoader n code va frame version) := w.raise_aside _ _

/-! ## The control stores -/

/-- One sequencer gets its code. -/
def W.loadSeq (g : Region) (w : W) (c : Nat × Tbl W32) : W :=
  w.setM fun m => { m with
    seqs := tput m.seqs (regionQuad g c.1) (g.newSeq c.1 c.2)
    rings := if g.resumes c.1 then m.rings else tmod m.rings (regionQuad g c.1) fun r => { r with next := 0, wrap := 0 } }
theorem W.loadSeqs_eq (w : W) (g : Region) (l : Layout) :
    w.loadSeqs g l = l.code.foldl (W.loadSeq g) (w.setM fun m => { m with seqs := (regionQuads g).foldl tdel m.seqs }) := rfl
/-- Their load changes sequencers and rings alone. -/
theorem W.loadSeqs_stands (w : W) (g : Region) (l : Layout) : (w.loadSeqs g l).log = w.log ∧ (w.loadSeqs g l).m.regions = w.m.regions := by
  rw [W.loadSeqs_eq]
  exact List.foldlRecOn (motive := fun v : W => v.log = w.log ∧ v.m.regions = w.m.regions) l.code (W.loadSeq g) ⟨rfl, rfl⟩ fun _ h _ _ => h
/-- Other quads' sequencers stand. -/
theorem W.loadSeqs_other (w : W) (g : Region) (l : Layout) {q : Nat} (hq : q ∉ regionQuads g) (hc : ∀ c ∈ l.code, regionQuad g c.1 ≠ q) :
    tget (w.loadSeqs g l).m.seqs q = tget w.m.seqs q := by
  rw [W.loadSeqs_eq]
  refine List.foldlRecOn (motive := fun v : W => tget v.m.seqs q = tget w.m.seqs q) l.code (W.loadSeq g) ?_ fun v h c m => ?_
  · refine (tget_foldl_tdel _ _ _).trans ?_
    rw [if_neg hq]
  · exact (tget_tput_ne _ _ _ _ (Ne.symm (hc c m))).trans h
theorem W.regionGains_reads (w : W) (r : Nat) (g : Region) : w.Reads (w.regionGains r g) := W.reads_foldl _ (fun w e => w.gain_reads e _) _ w

/-! ## IMAGE_LOAD -/

section Load

variable {s : State} {r : Nat} {g : Region} {w0 w : W} (hg : tget s.m.regions r = some g) (hph : g.phase = .allocated) (hp : (s.part g.part).halted = false)
  (h0 : w0 = (W.of s).setHub (fun h => { h with loadRef := newer h.loadRef g.popRef }))
include hg hph hp h0

/-- The loader reads the image of a region that waits for it. -/
theorem imageLoad_failed {f : LoadFail} (hr : w0.readImage r g.part g.image g.qw g.qh = (w, .ok (.error f))) :
    exec (.imageLoad r) s = .next (((w.loadDone r).loadFails r g.part f).commit s) := by
  subst h0
  show execImageLoad r s = _
  unfold execImageLoad run
  simp only [show tget (W.of s).m.regions r = some g from hg, W.guard, hph, show ((W.of s).part g.part).halted = false from hp, hr]
  rfl
theorem imageLoad_read {tb : Tables} {fs : List Frame} {g' : Region} (hr : w0.readImage r g.part g.image g.qw g.qh = (w, .ok (.ok (tb, fs))))
    (hg' : g' = { g.configure tb fs with rate := (match g.resume with | some (_, n) => n | none => (g.configure tb fs).rate), resume := none }) :
    exec (.imageLoad r) s = .next ((if (((w.loadDone r).setRegion r fun _ => g').loadSeqs g (Layout.of fs)).regionSees r g' = true
      then (((w.loadDone r).setRegion r fun _ => g').loadSeqs g (Layout.of fs)).regionGains r g' else w0).commit s) := by
  subst h0 hg'
  show execImageLoad r s = _
  unfold execImageLoad run
  simp only [show tget (W.of s).m.regions r = some g from hg, W.guard, hph, show ((W.of s).part g.part).halted = false from hp, hr]
  rfl
omit hg hph hp in
theorem imageLoad_reads {x : Except LoadFail (Tables × List Frame)} (hr : w0.readImage r g.part g.image g.qw g.qh = (w, .ok x)) : (W.of s).Reads (w.loadDone r) := by
  have h : w0.Reads w := by
    have := w0.readImage_reads r g.part g.image g.qw g.qh x (by rw [hr])
    rwa [hr] at this
  exact (h0 ▸ W.setHub_reads _ _ : (W.of s).Reads w0).trans (h.trans (w.loadDone_reads r))

/-- A good image configures its region, once the region's agents see what its binding has acquired. -/
theorem imageLoad_loads {tb : Tables} {fs : List Frame} {g' : Region} (hr : w0.readImage r g.part g.image g.qw g.qh = (w, .ok (.ok (tb, fs))))
    (hg' : g' = { g.configure tb fs with rate := (match g.resume with | some (_, n) => n | none => (g.configure tb fs).rate), resume := none }) :
    ∃ t, exec (.imageLoad r) s = .next t ∧ t.mem = s.mem ∧
      ((((w.loadDone r).setRegion r fun _ => g').loadSeqs g (Layout.of fs)).regionSees r g' = true → tget t.m.regions r = some g') ∧
      ((((w.loadDone r).setRegion r fun _ => g').loadSeqs g (Layout.of fs)).regionSees r g' = false → t.m.regions = s.m.regions ∧ t.m.seqs = s.m.seqs) ∧
      (∀ j, j ≠ r → tget t.m.regions j = tget s.m.regions j) ∧
      ∀ q, q ∉ regionQuads g → (∀ c ∈ (Layout.of fs).code, regionQuad g c.1 ≠ q) → tget t.m.seqs q = tget s.m.seqs q := by
  have a := imageLoad_reads (s := s) h0 hr
  have e := imageLoad_read hg hph hp h0 hr hg'
  cases hs : (((w.loadDone r).setRegion r fun _ => g').loadSeqs g (Layout.of fs)).regionSees r g' with
  | false =>
    rw [hs] at e
    subst h0
    exact ⟨_, e, rfl, nofun, fun _ => ⟨rfl, rfl⟩, fun _ _ => rfl, fun _ _ _ => rfl⟩
  | true =>
    rw [if_pos hs] at e
    obtain ⟨log, regions⟩ := ((w.loadDone r).setRegion r fun _ => g').loadSeqs_stands g (Layout.of fs)
    have other := fun q => ((w.loadDone r).setRegion r fun _ => g').loadSeqs_other g (Layout.of fs) (q := q)
    generalize ((w.loadDone r).setRegion r fun _ => g').loadSeqs g (Layout.of fs) = v at *
    have b := v.regionGains_reads r g'
    have regions : (v.regionGains r g').m.regions = tmod s.m.regions r fun _ => g' :=
      (b.aside.regions.trans regions).trans (congrArg (fun t : Tbl Region => tmod t r fun _ => g') a.aside.regions)
    refine ⟨_, e, ?_, fun _ => ?_, nofun, fun j hj => ?_, fun q hq hc => ?_⟩
    · show applyLog s.mem _ = _
      rw [b.log, log]
      exact congrArg (applyLog s.mem) a.log
    · refine (congrArg (tget · r) regions).trans ?_
      rw [tget_tmod_self, hg]; rfl
    · exact (congrArg (tget · j) regions).trans (tget_tmod_ne _ _ _ _ hj)
    · refine (congrArg (tget · q) b.aside.seqs).trans ((other q hq hc).trans ?_)
      exact congrArg (tget · q) a.aside.seqs

/-- One that fails a check halts the partition with the check's code, and the region returns. -/
theorem imageLoad_fails {f : LoadFail} (hr : w0.readImage r g.part g.image g.qw g.qh = (w, .ok (.error f))) (hm : MayRaise s g.part (W.of s).loaderAgent) :
    ∃ t, exec (.imageLoad r) s = .next t ∧ ((∃ k y, k ≠ r ∧ tget s.m.regions k = some y ∧ y.part = g.part) → t.mem = s.mem) ∧
      t.raised g.part (W.of s).loaderAgent (0x080 + 16 * f.unit + f.cond) ∧ tget t.m.regions r = none := by
  have a := imageLoad_reads (s := s) h0 hr
  obtain ⟨x, hx, agent, code⟩ := raiseLoader_raised a hm f.code 0 f.frame 0
  have c := W.raiseLoader_aside (w.loadDone r) g.part f.code 0 f.frame 0
  have log := W.raiseLoader_log (w.loadDone r) g.part f.code 0 f.frame 0
  refine ⟨_, imageLoad_failed hg hph hp h0 hr, ?_⟩
  unfold W.loadFails
  generalize (w.loadDone r).raiseLoader g.part f.code 0 f.frame 0 = v at *
  have regions : v.m.regions = s.m.regions := c.regions.trans a.aside.regions
  obtain ⟨mem, -, -, -, gone, halts⟩ := W.freeRegion_returns (w := v) (r := r) (g := g) (by rw [regions]; exact hg)
  refine ⟨fun h => ?_, ⟨x, halts g.part x hx, agent, code⟩, gone⟩
  show applyLog s.mem _ = _
  rw [mem (by rw [regions]; exact h), log]
  exact congrArg (applyLog s.mem) a.log

end Load

end Sys2Proof.Machine
end

section
/-! PROOFS. Partial reconfiguration: the application of a section, and the switch of its stages (20_configuration_image.md R312 to R316); from them O52. -/

namespace Sys2Proof.Machine

/-! ## Reconfiguration tokens -/

/-- A producer of one target sends it a token behind its results. -/
theorem mark_targetA {x : Elem} {due : Nat} {p : Nat → Bool} {t : Target} {c : Nat} (ho : x.opc < 0xB0) (hb : x.targetB = none) (ha : x.targetA = some t)
    (hp : t.pos ≠ 3) (hc : c = ekey t.cell t.port) :
    x.mark due p = if p c = true then { x with flights := x.flights ++ [{ due := due, a := some { reconf := true }, via := some x.word }] } else x := by
  subst hc
  cases h : p (ekey t.cell t.port) <;> simp [Elem.mark, ha, hb, hp, h, Nat.not_le.2 ho]
/-- A result that is added or not joins what is in flight, and changes nothing else. -/
theorem ite_flights {c : Prop} [Decidable c] (x : Elem) (f : Flight) : ∃ fl, (if c then x else { x with flights := x.flights ++ [f] }) = { x with flights := fl } := by
  split
  · exact ⟨x.flights, rfl⟩
  · exact ⟨_, rfl⟩
/-- So does a mark. -/
theorem mark_flights (x : Elem) (due : Nat) (p : Nat → Bool) : ∃ fl, x.mark due p = { x with flights := fl } := ite_flights x _
theorem mark_inAt (x : Elem) (due : Nat) (p : Nat → Bool) (n : Nat) : (x.mark due p).inAt n = x.inAt n := by
  obtain ⟨fl, h⟩ := mark_flights x due p
  rw [h]; rfl

/-! ## The end of an application -/

/-- While a stage is left to switch, an application goes on. -/
theorem W.sectionEnds_left {w : W} {r : Nat} {g : Region} (hg : tget w.m.regions r = some g) (h : g.secLeft ≠ []) : w.sectionEnds r = w := by
  have h : g.secLeft.isEmpty = false := by cases e : g.secLeft <;> simp_all
  simp only [W.sectionEnds, W.region_of hg, h, Bool.not_false, if_true]
  split <;> rfl

/-! ## SECTION_APPLY -/

/-- A region to which a section is being applied: its stages are to switch, and their producers that stay are marked. -/
def Region.applied (g : Region) (q : SecReq) (rest : List SecReq) (fs : List Frame) (secInts : List (Nat × Nat × Nat)) (ks : List Nat) (now : Nat) : Region :=
  { g with
    secQ := rest, applying := some q, secFrames := fs, secInts := applyInts g.ints ks secInts
    secLeft := ks.foldl (fun t k => tput t k (tgetD g.elems k {}).named) []
    elems := g.elems.map fun x => if ks.contains x.1 then x else (x.1, x.2.mark ((g.islandOf (x.1 / 8)).edge now + 1) ks.contains) }
theorem applied_left (g : Region) (q : SecReq) (rest : List SecReq) (fs : List Frame) (secInts : List (Nat × Nat × Nat)) {ks : List Nat} (now : Nat) {k : Nat} (h : k ∈ ks) :
    tget (g.applied q rest fs secInts ks now).secLeft k = some (tgetD g.elems k {}).named :=
  tget_foldl_tput ks (fun k => (tgetD g.elems k {}).named) [] (.inl h)
theorem applied_elem (g : Region) (q : SecReq) (rest : List SecReq) (fs : List Frame) (secInts : List (Nat × Nat × Nat)) (ks : List Nat) (now : Nat) {k : Nat} {x : Elem}
    (h : tget g.elems k = some x) :
    tget (g.applied q rest fs secInts ks now).elems k = some (if k ∈ ks then x else x.mark ((g.islandOf (k / 8)).edge now + 1) ks.contains) := by
  have : (g.applied q rest fs secInts ks now).elems =
      g.elems.map fun x => (x.1, (fun k y => if k ∈ ks then y else y.mark ((g.islandOf (k / 8)).edge now + 1) ks.contains) x.1 x.2) := by
    refine List.map_congr_left fun x _ => ?_
    by_cases m : x.1 ∈ ks <;> simp [m]
  rw [this]
  refine (tget_map_entries g.elems (fun k y => if k ∈ ks then y else y.mark ((g.islandOf (k / 8)).edge now + 1) ks.contains) k).trans ?_
  rw [h]; rfl

section Apply

variable {s : State} {r : Nat} {g : Region} {q : SecReq} {rest : List SecReq} {w : W} {tb : Tables} {ses : List SecEntry} {e : SecEntry} {first : Nat} {bytes : List Byte}
  (hg : tget s.m.regions r = some g) (hq : g.secQ = q :: rest) (hrun : g.runsAt s.clk.now = true) (hfree : (W.of s).loaderFree q = true)
  (hat : q.at' < s.clk.now) (hp : (s.part g.part).halted = false)
  (hr : ((W.of s).setHub fun h => { h with loadRef := newer h.loadRef q.ref }).readSection r g q.sec = (w, .ok (.ok (tb, ses, e, first, bytes))))

include hr in
theorem sectionApply_reads : (W.of s).Reads (w.loadDone r) := by
  have h := W.readSection_reads ((W.of s).setHub fun h => { h with loadRef := newer h.loadRef q.ref }) r g q.sec (.ok (tb, ses, e, first, bytes)) (by rw [hr])
  rw [hr] at h
  exact (W.setHub_reads _ _).trans (h.trans (w.loadDone_reads r))

/-- How the check of a section that has been read answers. -/
abbrev secCheck (g : Region) (q : SecReq) (tb : Tables) (ses : List SecEntry) (e : SecEntry) (first : Nat) (bytes : List Byte) : Option LoadFail :=
  sectionFail g.qw g.qh g.frames g.ints (sectionInts tb.ints q.sec) g.sink g.rate g.isl.length g.secIsl (ses.map (·.num)) e bytes first
/-- The frames that it applies. -/
def secFramesOf (e : SecEntry) (first : Nat) (bytes : List Byte) : List Frame := indexed first ((chunks 32 e.nf bytes).map frameOf)
/-- The stages that it rewrites. -/
def secStages (g : Region) (e : SecEntry) (first : Nat) (bytes : List Byte) : List Nat :=
  rewritten (Layout.of g.frames) (Layout.of (applyFrames g.frames (secFramesOf e first bytes)))

include hg hq hrun hfree hat hp hr

omit hq hr in
/-- It is the request's turn. -/
theorem sectionApply_may : tget (W.of s).m.regions r = some g ∧
    (g.runsAt (W.of s).now && (W.of s).loaderFree q && decide (q.at' < (W.of s).now) && !((W.of s).part g.part).halted) = true := by
  refine ⟨hg, ?_⟩
  rw [show (W.of s).now = s.clk.now from rfl, hrun, hfree, decide_eq_true hat, show ((W.of s).part g.part).halted = false from hp]; rfl
theorem sectionApply_failed {f : LoadFail} (hf : secCheck g q tb ses e first bytes = some f) :
    exec (.sectionApply r) s = .next (((w.loadDone r).raiseLoader g.part f.code 0 f.frame g.version).commit s) := by
  obtain ⟨here, may⟩ := sectionApply_may hg hrun hfree hat hp
  show execSectionApply r s = _
  unfold execSectionApply run
  simp only [here, hq, W.guard, may, if_true, hr, hf]
theorem sectionApply_passed (hf : secCheck g q tb ses e first bytes = none) : exec (.sectionApply r) s = .next ((((w.loadDone r).setRegion r fun g' =>
    g'.applied q rest (secFramesOf e first bytes) (sectionInts tb.ints q.sec) (secStages g e first bytes) (w.loadDone r).now).sectionEnds r).commit s) := by
  obtain ⟨here, may⟩ := sectionApply_may hg hrun hfree hat hp
  show execSectionApply r s = _
  unfold execSectionApply run
  simp only [here, hq, W.guard, may, if_true, hr, hf]
  rfl

/-- A section that fails a check halts the partition with the check's code. -/
theorem sectionApply_fails {f : LoadFail} (hf : secCheck g q tb ses e first bytes = some f) (hm : MayRaise s g.part (W.of s).loaderAgent) :
    ∃ t, exec (.sectionApply r) s = .next t ∧ t.mem = s.mem ∧ t.raised g.part (W.of s).loaderAgent (0x080 + 16 * f.unit + f.cond) ∧ t.region r = g := by
  have a := sectionApply_reads hr
  refine ⟨_, sectionApply_failed hg hq hrun hfree hat hp hr hf, ?_, raiseLoader_raised a hm f.code 0 f.frame g.version, ?_⟩
  · show applyLog s.mem _ = _
    rw [W.raiseLoader_log]
    exact congrArg (applyLog s.mem) a.log
  · refine region_of_tget (r := r) (.trans (congrArg (tget · r) (W.raiseLoader_aside (w.loadDone r) g.part f.code 0 f.frame g.version).regions) ?_)
    rw [a.aside.regions]; exact hg

/-- One that passes: its stages are to switch, and their producers that stay send a reconfiguration token. -/
theorem sectionApply_applies (hf : secCheck g q tb ses e first bytes = none) {ks : List Nat} (hk : ks = secStages g e first bytes) (hn : ks ≠ []) :
    ∃ t, exec (.sectionApply r) s = .next t ∧ t.mem = s.mem ∧
      (t.region r).secQ = rest ∧ (t.region r).applying = some q ∧ (t.region r).version = g.version ∧ (∀ k ∈ ks, tget (t.region r).secLeft k = some (tgetD g.elems k {}).named) ∧
      ∀ k x, tget g.elems k = some x → tget (t.region r).elems k = some (if k ∈ ks then x else x.mark ((g.islandOf (k / 8)).edge s.clk.now + 1) ks.contains) := by
  have a := sectionApply_reads hr
  have ex := sectionApply_passed hg hq hrun hfree hat hp hr hf
  have hnow : (w.loadDone r).now = s.clk.now := congrArg Clk.now a.aside.clk
  rw [← hk, hnow] at ex
  generalize secFramesOf e first bytes = fs at ex
  generalize sectionInts tb.ints q.sec = si at ex
  have hw : tget (w.loadDone r).m.regions r = some g := by rw [a.aside.regions]; exact hg
  have here := W.tget_setRegion hw fun g' => g'.applied q rest fs si ks s.clk.now
  rw [W.sectionEnds_left here] at ex
  · have region : ∀ (t : State), t = (((w.loadDone r).setRegion r fun g' => g'.applied q rest fs si ks s.clk.now).commit s) → t.region r = g.applied q rest fs si ks s.clk.now := by
      rintro _ rfl
      exact W.region_of here
    refine ⟨_, ex, congrArg (applyLog s.mem) a.log, ?_⟩
    rw [region _ rfl]
    exact ⟨rfl, rfl, rfl, fun k hk => applied_left g q rest fs si _ hk, fun k x hx => applied_elem g q rest fs si ks _ hx⟩
  · obtain ⟨k, ks', rfl⟩ := List.exists_cons_of_ne_nil hn
    intro h
    have := applied_left g q rest fs si s.clk.now (List.mem_cons_self (a := k) (l := ks'))
    rw [h] at this
    cases this

end Apply

/-! ## A stage that switches -/

theorem rearm_word (x : Elem) : x.rearm.word = x.word := rfl
/-- It has its new word. -/
theorem switch_word (x y : Elem) (named : Nat) (counters leafless : Bool) (v : W32) (now : Nat) : (x.switch y named counters leafless v now).word = y.word := by
  unfold Elem.switch
  dsimp only
  split
  · rw [rearm_word]; split <;> rfl
  · split <;> rfl
/-- Its named positions are empty, and what it holds at the others stays. -/
theorem switch_inAt (x y : Elem) (named : Nat) (counters leafless : Bool) (v : W32) (now : Nat) {p : Nat} (hp : p < 3) :
    (x.switch y named counters leafless v now).inAt p = if named.testBit p = true then none else x.inAt p := by
  have leaf : ∀ z : Elem, (if leafless = true then z.rearm else z).inAt p = z.inAt p := by
    intro z
    split <;> rfl
  unfold Elem.switch
  dsimp only
  rw [leaf]
  obtain rfl | rfl | rfl : p = 0 ∨ p = 1 ∨ p = 2 := by omega
  all_goals rfl

/-! ### What the switch of a cell's last stage and the end of an application change -/

/-- What O52 says of a stage: its word, and what it holds. -/
def Elem.core (x : Elem) : W64 × Option Token × Option Token × Option Token := (x.word, x.inL, x.inR, x.inP)
/-- What it says of a region: the stages left, the request that is applied, the version, the trigger, and the stage at a key. -/
def Region.core (g : Region) (k : Nat) : Tbl Nat × Option SecReq × W32 × Bool × Option (W64 × Option Token × Option Token × Option Token) :=
  (g.secLeft, g.applying, g.version, g.trigger, (tget g.elems k).map Elem.core)

/-- A change of every stage that leaves what it holds. -/
theorem tget_map_core (t : Tbl Elem) (f : Nat → Elem → Elem) (hf : ∀ k x, (f k x).core = x.core) (k : Nat) :
    (tget (t.map fun x => (x.1, f x.1 x.2)) k).map Elem.core = (tget t k).map Elem.core := by
  rw [tget_map_entries]
  cases tget t k with
  | none => rfl
  | some x => simp [hf]
theorem takeFrames_core (g : Region) (l : Layout) (cell k : Nat) : (g.takeFrames l cell).core k = g.core k := by
  have e : (g.takeFrames l cell).elems = g.elems.map fun x => (x.1, (fun k (y : Elem) => if k / 8 = cell then { y with f4 := none } else y) x.1 x.2) := by
    refine List.map_congr_left fun x _ => ?_
    by_cases m : x.1 / 8 = cell <;> simp [m]
  have h := tget_map_core g.elems (fun k (y : Elem) => if k / 8 = cell then { y with f4 := none } else y) (fun k x => by split <;> rfl) k
  rw [← e] at h
  simp only [Region.core, h]
  rfl
/-- The positions of a stage at which tokens are then awaited. -/
def Region.awaited (g : Region) (l : Layout) (done : Nat → Bool) (k : Nat) (x : Elem) : Nat :=
  if (tget g.secLeft k).isSome then x.named
  else if done k then l.named k
  else (g.elems.flatMap fun x => if 0xB0 ≤ x.2.opc then [] else [x.2.targetA, x.2.targetB].filterMap fun t => match t with
      | some t => if t.pos = 3 then none else some (ekey t.cell t.port, t.pos)
      | none => none).foldl (fun n e => if e.1 = k then n ||| 2 ^ e.2 else n) 0
theorem renamed_elems (g : Region) (l : Layout) (done : Nat → Bool) :
    (g.renamed l done).elems = g.elems.map fun x => (x.1, { x.2 with named := g.awaited l done x.1 x.2 }) := by
  refine List.map_congr_left fun x _ => ?_
  unfold Region.awaited
  split
  · rfl
  · split <;> rfl
theorem renamed_core (g : Region) (l : Layout) (done : Nat → Bool) (k : Nat) : (g.renamed l done).core k = g.core k := by
  have h := tget_map_core g.elems (fun k (y : Elem) => { y with named := g.awaited l done k y }) (fun _ _ => rfl) k
  rw [← renamed_elems] at h
  simp only [Region.core, h]
  rfl

/-- A table without the entries that a test leaves out. -/
theorem tget_filter_of {α : Type} (P : Nat × α → Bool) {k : Nat} {v : α} (hv : P (k, v) = true) : ∀ t : Tbl α, tget t k = some v → tget (t.filter P) k = some v := by
  intro t
  induction t with
  | nil => exact id
  | cons x t ih =>
    obtain ⟨j, u⟩ := x
    intro h
    by_cases e : j = k
    · subst e
      simp only [tget, if_true, Option.some.injEq] at h
      subst h
      rw [List.filter_cons_of_pos hv, tget, if_pos rfl]
    · rw [tget, if_neg e] at h
      rw [List.filter_cons]
      split
      · rw [tget, if_neg e]; exact ih h
      · exact ih h

/-- The region of an application that has ended, before its cells take their frames. -/
def Region.ended (g : Region) (l : Layout) (fs : List Frame) : Region :=
  { g with
    version := g.version + 1, frames := fs, ints := g.secInts, secFrames := [], secInts := [], applying := none, trigger := true, lines := l.lines g.lines
    elems := (g.elems.filter fun x => x.2.word != 0 || !x.2.flights.isEmpty).map fun x => (x.1, { x.2 with version := g.version + 1 }) }
theorem ended_elem (g : Region) (l : Layout) (fs : List Frame) {k : Nat} {x : Elem} (h : tget g.elems k = some x) (hw : x.word ≠ 0) :
    (tget (g.ended l fs).elems k).map Elem.core = some x.core := by
  refine (tget_map_core _ (fun _ y => { y with version := g.version + 1 }) (fun _ _ => rfl) k).trans ?_
  rw [tget_filter_of (fun x => x.2.word != 0 || !x.2.flights.isEmpty) (Bool.or_eq_true _ _ ▸ .inl (bne_iff_ne.2 hw)) _ h]; rfl
theorem foldl_takeFrames_core (l : Layout) (k : Nat) (cs : List Nat) (g : Region) : (cs.foldl (fun g c => g.takeFrames l c) g).core k = g.core k :=
  List.foldlRecOn (motive := fun h : Region => h.core k = g.core k) cs _ rfl fun h e c _ => (takeFrames_core h l c k).trans e
/-- The pulse of an RCFG's line changes none of it. -/
theorem W.sectionDone_core (w : W) (r k : Nat) (q : SecReq) : (tget (w.sectionDone r q).m.regions r).map (Region.core · k) = (tget w.m.regions r).map (Region.core · k) := by
  unfold W.sectionDone
  split
  · refine (congrArg (Option.map (Region.core · k)) ((tget_tmod_self _ _ _).trans (congrArg (Option.map _) (tget_tmod_self _ _ _)))).trans ?_
    cases tget w.m.regions r <;> rfl
  · rfl
theorem W.sectionDone_log (w : W) (r : Nat) (q : SecReq) : (w.sectionDone r q).log = w.log := by
  unfold W.sectionDone
  split <;> rfl
/-- Two changes of a region are one. -/
theorem W.setRegion_twice {w : W} {r : Nat} {g : Region} (hg : tget w.m.regions r = some g) (f h : Region → Region) :
    (w.setRegion r f).setRegion r h = w.setRegion r fun _ => h (f g) := by
  unfold W.setRegion
  rw [tmod_of_tget _ hg, tmod_of_tget _ hg, tmod_of_tget _ (tget_tput_self _ _ _), tput_tput]
/-- With no stage left the application ends. -/
theorem W.sectionEnds_eq {w : W} {r : Nat} {g : Region} {q : SecReq} (hg : tget w.m.regions r = some g) (ha : g.applying = some q) (h : g.secLeft = []) :
    ∃ (v : W) (l : Layout) (fs : List Frame), w.sectionEnds r = v.sectionDone r q ∧ v.log = w.log ∧ tget v.m.regions r = some ((l.cells.foldl (fun g c => g.takeFrames l c) (g.ended l fs))) := by
  refine ⟨w.setRegion r fun _ => (Layout.of (applyFrames g.frames g.secFrames)).cells.foldl (fun h c => h.takeFrames (Layout.of (applyFrames g.frames g.secFrames)) c)
    (g.ended (Layout.of (applyFrames g.frames g.secFrames)) (applyFrames g.frames g.secFrames)), _, _, ?_, rfl, W.tget_setRegion hg _⟩
  simp only [W.sectionEnds, W.region_of hg, ha, h, List.isEmpty_nil, Bool.not_true, Bool.false_eq_true, if_false]
  rw [W.setRegion_twice hg]
  rfl

/-- What is left of a region whose application has ended. -/
theorem W.sectionEnds_ended {w : W} {r : Nat} {g : Region} {q : SecReq} (hg : tget w.m.regions r = some g) (ha : g.applying = some q) (h : g.secLeft = []) (k : Nat) :
    (w.sectionEnds r).log = w.log ∧ ∃ h, tget (w.sectionEnds r).m.regions r = some h ∧ h.secLeft = [] ∧ h.applying = none ∧ h.version = g.version + 1 ∧ h.trigger = true ∧
      ∀ x, tget g.elems k = some x → x.word ≠ 0 → (tget h.elems k).map Elem.core = some x.core := by
  obtain ⟨v, l, fs, e, log, hv⟩ := W.sectionEnds_eq hg ha h
  have c := v.sectionDone_core r k q
  rw [hv, Option.map_some, foldl_takeFrames_core] at c
  refine ⟨by rw [e, W.sectionDone_log, log], ?_⟩
  rw [e]
  obtain ⟨g', hg', c⟩ := Option.map_eq_some_iff.1 c
  simp only [Region.core, Prod.mk.injEq] at c
  obtain ⟨left, applying, version, trigger, elem⟩ := c
  exact ⟨g', hg', left.trans h, applying, version, trigger, fun x hx hw => elem.trans (ended_elem g l fs hx hw)⟩

/-! ### STAGE_SWITCH -/

section Switch

variable {s : State} {r cell slot k named : Nat} {g : Region} {x : Elem} {q : SecReq} {l : Layout} (hk : k = ekey cell slot) (hg : tget s.m.regions r = some g)
  (hx : tget g.elems k = some x) (hn : tget g.secLeft k = some named)

/-- The stage takes its new record, and is no longer left to switch. -/
def Region.restaged (g : Region) (k : Nat) (y : Elem) (l : Layout) : Region :=
  { g with secLeft := tdel g.secLeft k, elems := tput g.elems k y, nodes := if 0xB0 ≤ l.opc k then tput g.nodes k {} else g.nodes }

/-- All the positions that it names hold reconfiguration tokens. -/
def Elem.reconfigures (x : Elem) (named p : Nat) : Bool := !named.testBit p || (match x.inAt p with | some t => t.reconf | none => false)

/-- A stage may switch: it has an edge, its named positions hold the tokens, and a node or a CBAR is idle with no pulse pending. -/
def W.maySwitch (w : W) (r cell slot named : Nat) (g : Region) (x : Elem) : Bool :=
  w.onEdge g cell && x.reconfigures named 0 && x.reconfigures named 1 && x.reconfigures named 2 &&
    (decide (x.opc < 0xB0) || (!(w.node ⟨r, cell, slot⟩).running && g.lines.all fun l => (tget l.2.pend (ekey cell slot)).isNone))
/-- The record that a stage takes. -/
def W.stageTaken (w : W) (r cell named : Nat) (g : Region) (x : Elem) (l : Layout) (k : Nat) : Elem :=
  { (x.mark (w.edgeOf g cell + 1) fun t => (tget (tdel g.secLeft k) t).isSome).switch (l.elem k) named (l.cell4 cell != (w.cell r cell).f4) (g.leavesOf k).isEmpty
      (g.version + 1) w.now with f4 := if l.cell4 cell != (w.cell r cell).f4 then some (l.cell4 cell) else none }
/-- Its region: with the last stage of a cell the cell's frames take effect, and the positions at which tokens are awaited are named anew. -/
def Region.staged (g : Region) (l : Layout) (cell k : Nat) (y : Elem) : Region :=
  (if !(tdel g.secLeft k).any fun y => y.1 / 8 == cell then (g.restaged k y l).takeFrames l cell else g.restaged k y l).renamed l
    (rewritten (Layout.of g.frames) l).contains
theorem stageTaken_word (w : W) (r cell named : Nat) (g : Region) (x : Elem) (l : Layout) (k : Nat) : (w.stageTaken r cell named g x l k).word = l.word k :=
  switch_word _ (l.elem k) _ _ _ _ _
theorem stageTaken_inAt (w : W) (r cell named : Nat) (g : Region) (x : Elem) (l : Layout) (k : Nat) {p : Nat} (hp : p < 3) :
    (w.stageTaken r cell named g x l k).inAt p = if named.testBit p = true then none else x.inAt p := by
  rw [← mark_inAt x (w.edgeOf g cell + 1) (fun t => (tget (tdel g.secLeft k) t).isSome) p]
  exact switch_inAt _ (l.elem k) named _ _ _ _ hp
theorem staged_core (g : Region) (l : Layout) (cell k : Nat) (y : Elem) :
    (g.staged l cell k y).core k = (tdel g.secLeft k, g.applying, g.version, g.trigger, some y.core) := by
  have e : (g.restaged k y l).core k = (tdel g.secLeft k, g.applying, g.version, g.trigger, some y.core) := by
    simp [Region.restaged, Region.core]
  unfold Region.staged
  rw [renamed_core]
  split
  · rw [takeFrames_core, e]
  · exact e

include hk hg hx hn

theorem stageSwitch_eq (hl : l = Layout.of (applyFrames g.frames g.secFrames)) (hedge : (W.of s).onEdge g cell = true) (ho : x.opc < 0xB0)
    (hr : ∀ p < 3, x.reconfigures named p = true) : ∃ w : W, w.log = [] ∧
      tget w.m.regions r = some (g.staged l cell k ((W.of s).stageTaken r cell named g x l k)) ∧ exec (.stageSwitch r cell slot) s = .next ((w.sectionEnds r).commit s) := by
  subst hk hl
  have he : (W.of s).elem ⟨r, cell, slot⟩ = x := W.Has.elem_eq (w := W.of s) (e := ⟨r, cell, slot⟩) ⟨hg, hx⟩
  have c : (W.of s).maySwitch r cell slot named g x = true := by
    rw [W.maySwitch, hedge, hr 0 (by omega), hr 1 (by omega), hr 2 (by omega), decide_eq_true ho]; rfl
  refine ⟨((W.of s).pmc (siteQuad g cell) 15 (((List.range 3).filter named.testBit).length)).setRegion r fun _ =>
    g.staged (Layout.of (applyFrames g.frames g.secFrames)) cell (ekey cell slot) ((W.of s).stageTaken r cell named g x _ (ekey cell slot)), rfl, W.tget_setRegion hg _, ?_⟩
  show execStageSwitch r cell slot s = _
  unfold execStageSwitch run
  simp only [show tget (W.of s).m.regions r = some g from hg, hn, he, W.guard]
  refine congrArg (fun w : W => Host.Outcome.next (w.commit s)) ((if_pos c).trans ?_)
  rw [W.setRegion_twice (g := g) hg]
  rfl

/-- A stage whose named positions hold reconfiguration tokens switches; with the last one the application ends. -/
theorem stageSwitch_takes (ha : g.applying = some q) (hl : l = Layout.of (applyFrames g.frames g.secFrames)) (hedge : (W.of s).onEdge g cell = true) (ho : x.opc < 0xB0)
    (hr : ∀ p < 3, named.testBit p = true → ∃ y, x.inAt p = some y ∧ y.reconf = true) : ∃ t, exec (.stageSwitch r cell slot) s = .next t ∧ t.mem = s.mem ∧
      (l.word k ≠ 0 ∨ tdel g.secLeft k ≠ [] → (t.elem ⟨r, cell, slot⟩).word = l.word k ∧
        ∀ p < 3, (t.elem ⟨r, cell, slot⟩).inAt p = if named.testBit p = true then none else x.inAt p) ∧
      tget (t.region r).secLeft k = none ∧ (t.region r).version = (if tdel g.secLeft k = [] then g.version + 1 else g.version) ∧
      ((t.region r).applying = if tdel g.secLeft k = [] then none else some q) ∧
      (tdel g.secLeft k = [] → (t.region r).trigger = true) := by
  have hr : ∀ p < 3, x.reconfigures named p = true := fun p hp => by
    unfold Elem.reconfigures
    cases e : named.testBit p with
    | false => rfl
    | true =>
      obtain ⟨y, hy, ht⟩ := hr p hp e
      rw [hy]; exact ht
  obtain ⟨w, log, hw, ex⟩ := stageSwitch_eq hk hg hx hn hl hedge ho hr
  have word := stageTaken_word (W.of s) r cell named g x l k
  have inAt := fun p => stageTaken_inAt (W.of s) r cell named g x l k (p := p)
  generalize (W.of s).stageTaken r cell named g x l k = y at *
  have core := staged_core g l cell k y
  generalize g.staged l cell k y = g1 at *
  simp only [Region.core, Prod.mk.injEq] at core
  obtain ⟨left, applying, version, -, elem⟩ := core
  have told : ∀ g' : Region, (tget g'.elems k).map Elem.core = some y.core → ∀ t : State, t.region r = g' → (t.elem ⟨r, cell, slot⟩).word = l.word k ∧
      ∀ p < 3, (t.elem ⟨r, cell, slot⟩).inAt p = if named.testBit p = true then none else x.inAt p := by
    intro g' hz t ht
    obtain ⟨z, hz, hc⟩ := Option.map_eq_some_iff.1 hz
    have e : t.elem ⟨r, cell, slot⟩ = z := by
      subst ht hk
      exact tgetD_of_tget _ hz
    simp only [Elem.core, Prod.mk.injEq] at hc
    obtain ⟨w0, i0, i1, i2⟩ := hc
    rw [e]
    refine ⟨w0.trans word, fun p hp => ?_⟩
    rw [← inAt p hp]
    simp only [Elem.inAt, i0, i1, i2]
  refine ⟨_, ex, ?_⟩
  by_cases h : tdel g.secLeft k = []
  · obtain ⟨log', g2, hg2, left', applying', version', trigger, elem'⟩ := W.sectionEnds_ended hw (applying.trans ha) (left.trans h) k
    have hreg : ((w.sectionEnds r).commit s).region r = g2 := W.region_of hg2
    refine ⟨?_, fun hne => told g2 ?_ _ hreg, ?_, ?_, ?_, fun _ => ?_⟩
    · show applyLog s.mem _ = _
      rw [log', log]; rfl
    · obtain ⟨z, hz, hc⟩ := Option.map_eq_some_iff.1 elem
      rw [← hc]
      refine elem' z hz ?_
      rw [show z.word = y.word from congrArg Prod.fst hc, word]
      exact hne.resolve_right fun c => c h
    · rw [hreg, left']; rfl
    · rw [hreg, if_pos h, version', version]
    · rw [hreg, if_pos h, applying']
    · rw [hreg, trigger]
  · rw [W.sectionEnds_left hw (by rw [left]; exact h)]
    have hreg : (w.commit s).region r = g1 := W.region_of hw
    refine ⟨?_, fun _ => told g1 elem _ hreg, ?_, ?_, ?_, fun c => absurd c h⟩
    · show applyLog s.mem _ = _
      rw [log]; rfl
    · rw [hreg, left, tget_tdel_self]
    · rw [hreg, if_neg h, version]
    · rw [hreg, if_neg h, applying, ha]
/-- One of whose named positions is empty waits. -/
theorem stageSwitch_waits {p : Nat} (hp : p < 3) (hb : named.testBit p = true) (hi : x.inAt p = none) : exec (.stageSwitch r cell slot) s = .next s := by
  subst hk
  have he : (W.of s).elem ⟨r, cell, slot⟩ = x := W.Has.elem_eq (w := W.of s) (e := ⟨r, cell, slot⟩) ⟨hg, hx⟩
  have c : x.reconfigures named p = false := by simp [Elem.reconfigures, hb, hi]
  have c : ¬ (W.of s).maySwitch r cell slot named g x = true := by
    obtain rfl | rfl | rfl : p = 0 ∨ p = 1 ∨ p = 2 := by omega
    all_goals simp [W.maySwitch, c]
  show execStageSwitch r cell slot s = _
  unfold execStageSwitch run
  simp only [show tget (W.of s).m.regions r = some g from hg, hn, he, W.guard]
  exact congrArg (fun w : W => Host.Outcome.next (w.commit s)) (if_neg c)

end Switch

/-! ## O52 -/

/-- Settles O52: the allocator places what it has found a place for, the loader and the return of a region change their own region alone, and a section's application
goes stage by stage until none is left. -/
theorem regionsAndImages : Obligations.RegionsAndImages := by
  unfold Obligations.RegionsAndImages
  refine ⟨⟨fun s q n i l p g hf hn hg hp => ?_, fun s q h => regionAllocate_waits h, fun s r g w0 hg hph hp h0 =>
    ⟨fun w tb fs g' hr hg' => imageLoad_loads hg hph hp h0 hr hg', fun w f hr hm => imageLoad_fails hg hph hp h0 hr hm⟩,
    fun s r g hg => ⟨fun hph hd hs hp => regionRelease_returns hg hph hd hs hp, regionRelease_stays hg⟩⟩,
    fun s r g q rest w tb ses e first bytes hg hq hrun hfree hat hp hr => ⟨fun f hf hm => sectionApply_fails hg hq hrun hfree hat hp hr hf hm,
      fun ks hf hk hn => sectionApply_applies hg hq hrun hfree hat hp hr hf hk hn⟩,
    fun x due p c ho hb t ha hp hc => mark_targetA ho hb ha hp hc,
    fun s r cell slot k named g x q l hk hg hx hn ha hl hedge ho => ⟨stageSwitch_takes hk hg hx hn ha hl hedge ho, fun p hp hb hi => stageSwitch_waits hk hg hx hn hp hb hi⟩⟩
  obtain ⟨t, rfl, mem, seqs, here, others, flags, queue, awake⟩ := regionAllocate_places s q n i g
  refine ⟨_, regionAllocate_eq hf hn hg hp, mem, seqs, here, others, flags, queue, fun x hx => ?_, awake⟩
  subst hn hg
  exact W.grantOf_free hp x hx

end Sys2Proof.Machine
end

section
/-! PROOFS. Memory's canonical form, the model's own representation of byte memory (log 1 gives the byte of an unlisted address): every step keeps it; from it O37. -/

namespace Sys2Proof.Machine

/-- The passing of a turn's time leaves memory as it was. -/
theorem State.turn_mem (s : State) : s.turn.2.mem = s.mem := rfl

/-- Whatever a working state has written, committing it keeps the canonical form. -/
theorem W.commit_wf {s : State} (w : W) (h : s.mem.wf = true) : (w.commit s).mem.wf = true := applyLog_wf w.log h

/-- Settles O37: a turn's own time writes nothing; what follows is an instruction (`exec_mem_wf`), nothing, or the cause of a word that is not loaded. -/
theorem memoryForm : Obligations.MemoryForm := by
  intro s t hwf h
  have hturn : s.turn.2.mem.wf = true := by rw [State.turn_mem]; exact hwf
  simp only [step] at h
  split at h
  · cases h; exact hturn
  split at h
  · exact exec_mem_wf h hturn
  · cases h; exact hturn
  · cases h; exact W.commit_wf _ hturn
  · cases h

end Sys2Proof.Machine
end

section
/-! PROOFS. CSRs, the handler, HALT, NOP and TIME (14_sequencer.md R279 to R282, R285); from them O9. -/

namespace Sys2Proof.Machine

/-! ## SQ_STATUS and SQ_STAMPB as bits -/

/-- HE and PWOOB come from the value written, PEND and INH stand (R285). -/
theorem Seq.writeStatus_eq (sq : Seq) (v : W64) : sq.writeStatus v = { sq with status := sq.status.extractLsb' 2 2 ++ v.extractLsb' 0 2 } := by
  have bits : (sq.status &&& (0xC : BitVec 4)) ||| (v.truncate 4 &&& (0x3 : BitVec 4)) = sq.status.extractLsb' 2 2 ++ v.extractLsb' 0 2 := by
    refine BitVec.eq_of_getLsbD_eq fun i hi => ?_
    interval_cases i <;> simp only [BitVec.getLsbD_append] <;> simp
  simp only [Seq.writeStatus, bits]

/-- SQ_STAMPB keeps bits 55 to 9 of a value (R285). -/
theorem stampb_bits (v : W64) : v &&& (0x00FFFFFFFFFFFE00 : W64) = (v.extractLsb' 9 47).zeroExtend 64 <<< 9 := by
  have mask : ∀ i < 64, (0x00FFFFFFFFFFFE00 : W64).getLsbD i = decide (9 ≤ i ∧ i < 56) := by decide
  refine BitVec.eq_of_getLsbD_eq fun i hi => ?_
  rw [BitVec.getLsbD_and, mask i hi]
  by_cases h : 9 ≤ i
  · have hb : (i - 9 < 47) = (i < 56) := by simp only [eq_iff_iff]; omega
    simp [h, hi, hb, Bool.and_comm]
  · simp [h, Nat.lt_of_not_le h]

theorem Seq.enterHandler_trap (sq : Seq) (code : Nat) : sq.enterHandler false code =
    { sq with epc := (sq.pc + 1).truncate 12, cause := BitVec.ofNat 64 code, status := sq.status ||| 4, pc := sq.hvec.zeroExtend 64 } := by
  have bits (st : BitVec 4) : BitVec.ofBool (st.getLsbD 3) ++ BitVec.ofBool true ++ BitVec.ofBool (st.getLsbD 1) ++ BitVec.ofBool (st.getLsbD 0) = st ||| 4 := by
    decide +revert
  simp only [Seq.enterHandler, Seq.withStatus, Seq.pend, Seq.he, Seq.pwoob, Bool.not_false, Bool.and_true, bits, causeWord, Bool.false_eq_true, if_false, Nat.zero_add]

theorem Seq.enterHandler_preempt (sq : Seq) : sq.enterHandler true 1 =
    { sq with epc := (sq.pc + 1).truncate 12, cause := 2 ^ 63 + 1, status := sq.status &&& 3 ||| 4, pc := sq.hvec.zeroExtend 64 } := by
  have bits (st : BitVec 4) : BitVec.ofBool false ++ BitVec.ofBool true ++ BitVec.ofBool (st.getLsbD 1) ++ BitVec.ofBool (st.getLsbD 0) = st &&& 3 ||| 4 := by
    decide +revert
  have word : BitVec.ofNat 64 (2 ^ 63 + 1) = (2 ^ 63 + 1 : W64) := by decide +kernel
  simp only [Seq.enterHandler, Seq.withStatus, Seq.pend, Seq.he, Seq.pwoob, Bool.not_true, Bool.and_false, bits, causeWord, if_true, word]

theorem Seq.leaveHandler_eq (sq : Seq) : sq.leaveHandler = { sq with pc := sq.epc.zeroExtend 64, status := sq.status &&& 0xB } := by
  have bits (st : BitVec 4) : BitVec.ofBool (st.getLsbD 3) ++ BitVec.ofBool false ++ BitVec.ofBool (st.getLsbD 1) ++ BitVec.ofBool (st.getLsbD 0) = st &&& 0xB := by
    decide +revert
  simp only [Seq.leaveHandler, Seq.withStatus, Seq.pend, Seq.he, Seq.pwoob, bits]

/-! ## Writes of a CSR -/

/-- What a write of a CSR that only the sequencer's own record holds changes there, in sequencer cycle c: none where it is not writable (R285). -/
def csrWrites (c : Nat) : List (BitVec 15 × (Seq → W64 → Seq)) := [
  (1, fun sq v => { sq with status := sq.status.extractLsb' 2 2 ++ v.extractLsb' 0 2 }), (3, fun sq v => { sq with epc := v.truncate 12 }),
  (4, fun sq v => { sq with hvec := v.truncate 12 }), (5, fun sq v => sq.writeTags c v),
  (7, fun sq v => if sq.inh && v.getLsbD 0 then { sq with ready := true } else sq),
  (8, fun sq v => { sq with stampb := (v.extractLsb' 9 47).zeroExtend 64 <<< 9 }), (2, fun sq _ => sq), (6, fun sq _ => sq), (0x10, fun sq _ => sq),
  (0x11, fun sq _ => sq), (0x12, fun sq _ => sq), (0x13, fun sq _ => sq), (0x20, fun sq _ => sq), (0x21, fun sq _ => sq), (0x22, fun sq _ => sq),
  (0x30, fun sq _ => sq), (0x31, fun sq _ => sq)]

/-- An instruction that writes such a CSR and completes: the write is the first change of the sequencer's record. -/
theorem W.csrPut_seqDone (w : W) (q : Nat) (v : W64) (g : Seq → Seq) :
    ∀ p ∈ csrWrites (w.now / 4), (w.csrPut q p.1.toNat v).seqDone q g = w.seqDone q fun sq => g (p.2 sq v) := by
  simp only [csrWrites, List.forall_mem_cons, List.not_mem_nil, false_implies, implies_true, and_true]
  refine ⟨?status, ?epc, ?hvec, ?tags, ?ready, ?stampb, rfl, rfl, rfl, rfl, rfl, rfl, rfl, rfl, rfl, rfl, rfl⟩
  case status => simp only [← Seq.writeStatus_eq]; exact w.setSeq_seqDone q g _
  case stampb => simp only [← stampb_bits]; exact w.setSeq_seqDone q g _
  all_goals exact w.setSeq_seqDone q g _

section Csr
variable {s : State} {q : Nat} {sq : Seq}

theorem SeqTurn.csrr_eq (h : SeqTurn s q sq) (d : BitVec 5) (c : BitVec 15) : exec (.csrr d c) s = .next (s.issued q (sq.put d ((W.of s).csrRead q c.toNat)).after) := by
  show runSeq s _ = _
  rw [runSeq_turn h, W.seqDone_commit h.here]

/-- CSRW and CSRS: the CSR takes a value, and its old value goes to s[D]. -/
theorem SeqTurn.csrw_eq (h : SeqTurn s q sq) (d : BitVec 5) {a : BitVec 5} (c : BitVec 15) (hs : sq.stalls [a] = false) : exec (.csrw d a c) s =
    .next ((((W.of s).csrPut q c.toNat (sq.reg a)).seqDone q fun sq => sq.put d ((W.of s).csrRead q c.toNat)).commit s) := by
  show runSeq s _ = _
  rw [runSeq_turn h]
  simp only [hs, Bool.false_eq_true, if_false]
theorem SeqTurn.csrs_eq (h : SeqTurn s q sq) (d : BitVec 5) {a : BitVec 5} (c : BitVec 15) (hs : sq.stalls [a] = false) : exec (.csrs d a c) s =
    .next ((((W.of s).csrPut q c.toNat ((W.of s).csrRead q c.toNat ||| sq.reg a)).seqDone q fun sq => sq.put d ((W.of s).csrRead q c.toNat)).commit s) := by
  show runSeq s _ = _
  rw [runSeq_turn h]
  simp only [hs, Bool.false_eq_true, if_false]

/-- The flags that have arrived on this sequencer cycle, which come after a write of SQ_FLAGS (R62). -/
def State.lateFlags (s : State) (n : Nat) : Flags := if (s.part n).flagsAt.1 = s.clk.now / 4 + 1 then (s.part n).flagsAt.2 else 0

/-- A write of SQ_FLAGS by an instruction that completes. -/
theorem flagsWrite_commit (h : tget s.m.seqs q = some sq) (v : W64) (g : Seq → Seq) :
    ∃ t, t = (((W.of s).csrPut q 0 v).seqDone q g).commit s ∧ (t.part sq.part).flags = v.truncate 7 ||| s.lateFlags sq.part ∧ t.mem = s.mem ∧
      (∀ n, n ≠ sq.part → t.part n = s.part n) ∧ t.seq q = { (g sq).after with nextAt := s.nextIssue } := by
  refine ⟨_, rfl, ?_⟩
  have hsq : (W.of s).seq q = sq := tgetD_of_tget _ h
  have hw : (W.of s).csrPut q 0 v = (W.of s).setPart sq.part fun p => { p with flags := v.truncate 7 ||| (if p.flagsAt.1 = s.clk.now / 4 + 1 then p.flagsAt.2 else 0) } := by
    rw [← hsq]
    rfl
  rw [hw, W.seqDone_commit_of (sq := sq) (by simpa using h)]
  refine ⟨?_, rfl, fun n hn => ?_, ?_⟩
  · simp only [State.part, W.part, W.of_m, W.setPart_parts, tgetD_tput_self, State.lateFlags]
    rfl
  · simp [State.part, W.part, tgetD_tput_ne _ _ _ _ _ hn]
  · simp [State.seq, W.seq, State.nextIssue, W.seqCycle, W.now]

theorem SeqTurn.csrWrite_eq (h : SeqTurn s q sq) (d : BitVec 5) {a : BitVec 5} (hs : sq.stalls [a] = false) : ∀ p ∈ csrWrites (s.clk.now / 4),
    exec (.csrw d a p.1) s = .next (s.issued q ((p.2 sq (sq.reg a)).put d ((W.of s).csrRead q p.1.toNat)).after) ∧
    exec (.csrs d a p.1) s =
      .next (s.issued q ((p.2 sq ((W.of s).csrRead q p.1.toNat ||| sq.reg a)).put d ((W.of s).csrRead q p.1.toNat)).after) := by
  intro p hp
  have write (v : W64) (g : Seq → Seq) := (W.of s).csrPut_seqDone q v g p hp
  exact ⟨by rw [h.csrw_eq d p.1 hs, write, W.seqDone_commit h.here], by rw [h.csrs_eq d p.1 hs, write, W.seqDone_commit h.here]⟩

/-- The OR of a value into SQ_FLAGS, read as the 64 bits of the CSR. -/
theorem truncate_flags_or (f : Flags) (v : W64) : (f.zeroExtend 64 ||| v).truncate 7 = f ||| v.truncate 7 := by
  refine BitVec.eq_of_getLsbD_eq fun i hi => ?_
  simp [hi, Nat.lt_trans hi (by decide : 7 < 64)]

theorem SeqTurn.flags_eq (h : SeqTurn s q sq) : (W.of s).csrRead q 0 = (s.part sq.part).flags.zeroExtend 64 := by
  simp only [W.csrRead, h.seq_eq]
  rfl

theorem SeqTurn.flagsWrite_eq (h : SeqTurn s q sq) (d : BitVec 5) {a : BitVec 5} (hs : sq.stalls [a] = false) :
    (∃ t, exec (.csrw d a 0) s = .next t ∧ (t.part sq.part).flags = (sq.reg a).truncate 7 ||| s.lateFlags sq.part ∧ t.mem = s.mem ∧
      (∀ n, n ≠ sq.part → t.part n = s.part n) ∧ t.seq q = { (sq.put d ((s.part sq.part).flags.zeroExtend 64)).after with nextAt := s.nextIssue }) ∧
    ∃ t, exec (.csrs d a 0) s = .next t ∧ (t.part sq.part).flags = ((s.part sq.part).flags ||| (sq.reg a).truncate 7) ||| s.lateFlags sq.part ∧ t.mem = s.mem ∧
      (∀ n, n ≠ sq.part → t.part n = s.part n) ∧ t.seq q = { (sq.put d ((s.part sq.part).flags.zeroExtend 64)).after with nextAt := s.nextIssue } := by

  have old : (W.of s).csrRead q (0 : BitVec 15).toNat = (s.part sq.part).flags.zeroExtend 64 := h.flags_eq
  constructor
  · obtain ⟨t, ht, hf⟩ := flagsWrite_commit h.here (sq.reg a) fun x => x.put d ((s.part sq.part).flags.zeroExtend 64)
    exact ⟨t, by rw [h.csrw_eq d 0 hs, old, ht]; rfl, hf⟩
  · obtain ⟨t, ht, hf⟩ := flagsWrite_commit h.here ((s.part sq.part).flags.zeroExtend 64 ||| sq.reg a) fun x => x.put d ((s.part sq.part).flags.zeroExtend 64)
    rw [truncate_flags_or] at hf
    exact ⟨t, by rw [h.csrs_eq d 0 hs, old, ht]; rfl, hf⟩

/-! ## What the CSRs of a sequencer read as (R285) -/

theorem Seq.counts_eq (hc : ∀ c, sq.count c ≤ 64) :
    sq.counts = sq.count .loads + 2 ^ 8 * sq.count .stores + 2 ^ 16 * sq.count .copies + 2 ^ 24 * sq.count .tiles := by
  have hl := hc .loads
  have hs := hc .stores
  have hp := hc .copies
  have ht := hc .tiles
  simp only [Seq.counts, packFields]
  omega

/-! ## The handler (R280, R281) -/

theorem SeqTurn.trap_enters (h : SeqTurn s q sq) (n : BitVec 20) (he : sq.he = true) (hi : sq.inh = false) : exec (.trap n) s = .next (s.issued q { sq with
    epc := (sq.pc + 1).truncate 12, cause := BitVec.ofNat 64 (0x3E0 + n.toNat), status := sq.status ||| 4, pc := sq.hvec.zeroExtend 64, wait := none }) := by
  show runSeq s _ = _
  simp only [runSeq_turn h, he, hi, Bool.not_false, Bool.and_self, if_true, W.seqJump_commit h.here, Seq.enterHandler_trap]
theorem SeqTurn.trap_fatal (h : SeqTurn s q sq) (n : BitVec 20) (hf : sq.he = false ∨ sq.inh = true) : exec (.trap n) s = .next (s.seqRaised q (0x3E0 + n.toNat)) := by
  have closed : (sq.he && !sq.inh) = false := by rcases hf with hf | hf <;> simp [hf]
  show runSeq s _ = _
  simp only [runSeq_turn h, closed, Bool.false_eq_true, if_false]
  rfl
theorem SeqTurn.yield_enters (h : SeqTurn s q sq) (hp : sq.pend = true) (he : sq.he = true) (hi : sq.inh = false) : exec .yield s = .next (s.issued q { sq with
    epc := (sq.pc + 1).truncate 12, cause := 2 ^ 63 + 1, status := sq.status &&& 3 ||| 4, pc := sq.hvec.zeroExtend 64, wait := none }) := by
  show runSeq s _ = _
  simp only [runSeq_turn h, hp, he, hi, Bool.not_false, Bool.and_self, if_true, W.seqJump_commit h.here, Seq.enterHandler_preempt]
theorem SeqTurn.yield_passes (h : SeqTurn s q sq) (hf : sq.pend = false ∨ sq.he = false ∨ sq.inh = true) : exec .yield s = .next (s.issued q sq.after) := by
  have closed : (sq.pend && sq.he && !sq.inh) = false := by rcases hf with hf | hf | hf <;> simp [hf]
  show runSeq s _ = _
  simp only [runSeq_turn h, closed, Bool.false_eq_true, if_false, W.seqDone_commit h.here, id]
theorem SeqTurn.eret_returns (h : SeqTurn s q sq) (hi : sq.inh = true) :
    exec .eret s = .next (s.issued q { sq with pc := sq.epc.zeroExtend 64, status := sq.status &&& 0xB, wait := none }) := by
  show runSeq s _ = _
  simp only [runSeq_turn h, hi, if_true, W.seqJump_commit h.here, Seq.leaveHandler_eq]
theorem SeqTurn.eret_faults (h : SeqTurn s q sq) (hi : sq.inh = false) : exec .eret s = .next (s.seqRaised q 0x166) := by
  show runSeq s _ = _
  simp only [runSeq_turn h, hi, Bool.false_eq_true, if_false]
  rfl

/-! ## HALT, NOP, TIME (R282) -/

theorem SeqTurn.halt_stops (h : SeqTurn s q sq) (hl : sq.count .loads = 0) (hs : sq.count .stores = 0) (hc : sq.count .copies = 0) :
    exec .halt s = .next (s.issued q { sq with halted := true }.after) := by
  show runSeq s _ = _
  simp only [runSeq_turn h, W.guard, hl, hs, hc, beq_self_eq_true, Bool.and_self, if_true, W.seqDone_commit h.here]
theorem SeqTurn.halt_waits (h : SeqTurn s q sq) (ho : sq.count .loads ≠ 0 ∨ sq.count .stores ≠ 0 ∨ sq.count .copies ≠ 0) : exec .halt s = .next s := by
  have busy : (sq.count .loads == 0 && sq.count .stores == 0 && sq.count .copies == 0) = false := by rcases ho with ho | ho | ho <;> simp [ho]
  show runSeq s _ = _
  simp only [runSeq_turn h, W.guard, busy, Bool.false_eq_true, if_false, W.of_commit]
theorem SeqTurn.nop_eq (h : SeqTurn s q sq) : exec .nop s = .next (s.issued q sq.after) := by
  show runSeq s _ = _
  simp only [runSeq_turn h, W.seqDone_commit h.here, id]
theorem SeqTurn.time_eq (h : SeqTurn s q sq) (d : BitVec 5) : exec (.time d) s = .next (s.issued q (sq.put d (BitVec.ofNat 64 s.ns)).after) := by
  show runSeq s _ = _
  simp only [runSeq_turn h, W.seqDone_commit h.here]
  rfl

end Csr

/-! ## The packed CSRs (R285) -/

theorem rateWord_eq (g : Region) : packFields [(40, g.granted), (8, g.solveNo), (15, 0), (1, if g.lower then 1 else 0)] =
    g.granted % 2 ^ 40 + 2 ^ 40 * (g.solveNo % 2 ^ 8) + 2 ^ 63 * g.lower.toNat := by
  cases g.lower <;> simp only [packFields, Bool.toNat_true, Bool.toNat_false, if_true, Bool.false_eq_true, if_false] <;> omega
theorem pennantWord_eq (latest : W32) (next wrap : Nat) : packFields [(32, latest.toNat), (8, next), (3, wrap)] =
    latest.toNat + 2 ^ 32 * (next % 2 ^ 8) + 2 ^ 40 * (wrap % 2 ^ 3) := by
  simp only [packFields, Nat.mod_eq_of_lt latest.isLt]
  omega
theorem agentWord_eq (agent rquad : Nat) : packFields [(32, agent), (6, rquad), (1, if rquad = 0 then 1 else 0)] =
    agent % 2 ^ 32 + 2 ^ 32 * (rquad % 2 ^ 6) + 2 ^ 38 * (if rquad = 0 then 1 else 0) := by
  simp only [packFields]
  split <;> omega

/-- Settles O9: CSRs by `SeqTurn.csrr_eq`, `SeqTurn.csrWrite_eq` and `SeqTurn.flagsWrite_eq`, what they read as by the reading's own table and the packed
words, the handler and HALT, NOP and TIME by their cases. -/
theorem handlerAndControlRegisters : Obligations.HandlerAndControlRegisters := by
  refine ⟨fun d a c s q sq h => ⟨h.csrr_eq d c, h.csrWrite_eq d, ?flags, fun hs => ⟨⟨_, h.csrw_eq d c hs⟩, _, h.csrs_eq d c hs⟩⟩, fun s q sq h => ?table,
    fun n s q sq h => ⟨h.trap_enters n, h.trap_fatal n, h.yield_enters, h.yield_passes, h.eret_returns, h.eret_faults⟩,
    fun d s q sq h => ⟨h.halt_stops, h.halt_waits, h.nop_eq, h.time_eq d⟩⟩
  case flags =>
    rintro hs late rfl
    exact h.flagsWrite_eq d hs
  case table =>
    have hsq : (W.of s).seq q = sq := tgetD_of_tget _ h
    refine ⟨?_, ?_, ?_, ?_, ?_, ?_, ?_, ?_, fun hc => ?counts, ?_, ?rate, fun r hr => ?pennant, ?agent, ?_, rfl, rfl, rfl, rfl⟩
    all_goals simp only [W.csrRead, hsq]
    case counts => rw [Seq.counts_eq hc]
    case rate => exact congrArg _ (rateWord_eq _)
    case pennant => subst hr; exact congrArg _ (pennantWord_eq _ _ _)
    case agent => exact congrArg _ (agentWord_eq _ _)
    all_goals rfl

end Sys2Proof.Machine
end

section
/-! PROOFS. Tiles and rows of a matrix cell (12_matrix_cells.md R207 to R212): MLDB, MSCL, the swap and MMA; from them O23. -/

namespace Sys2Proof.Machine

/-! ## The matrix cell's record -/

/-- Two changes of a matrix cell that agree on its record are one. -/
theorem W.setMx_congr {w : W} {r c : Nat} {m : Mx} {f f' : Mx → Mx} (hm : w.mx r c = m) (h : f m = f' m) : w.setMx r c f = w.setMx r c f' := by
  subst hm
  cases hg : tget w.m.regions r with
  | none => simp [W.setMx, W.setRegion, tmod, hg]
  | some g =>
    simp only [W.mx, W.region, tgetD_of_tget _ hg] at h
    simp only [W.setMx, W.setRegion, tmod_of_tget _ hg, h]

/-- What an element's record and its region's become when it consumes any tokens: `Fires.consume_has`, for inputs other than its own. -/
theorem W.Has.consume {w : W} {e : ERef} {g : Region} {x : Elem} (h : w.Has e g x) (j : Ins) :
    ∃ cells elems ref, (w.consume e j).Has e { g with cells := cells, elems := elems } { x.consumed j w.now with leafRef := ref } := by
  obtain ⟨cells, elems, ref, ha⟩ := h.of_fabric (w.acquireBy_fabric e j)
  have now : (w.acquireBy e j).now = w.now := congrArg (fun p => p.1.now) (w.acquireBy_fabric e j)
  exact ⟨cells, _, ref, now ▸ (ha.setElem fun y => y.consumed j (w.acquireBy e j).now).of_regions (w.consume_sameRegions e j).regions⟩

/-- Consuming leaves the matrix cells of the region as they were. -/
theorem W.Has.consume_mx {w : W} {e : ERef} {g : Region} {x : Elem} (h : w.Has e g x) (j : Ins) (c : Nat) : (w.consume e j).mx e.r c = w.mx e.r c := by
  obtain ⟨cells, elems, ref, hc⟩ := h.consume j
  rw [W.mx, hc.region_eq, W.mx, h.region_eq]
theorem Fires.consume_mx {s : State} {e : ERef} {x : Elem} {u : Uses} {i : Ins} (h : Fires s e x u i) (j : Ins) (c : Nat) :
    ((W.of s).consume e j).mx e.r c = s.mx e.r c := by
  obtain ⟨g, hg⟩ := h.has
  exact hg.consume_mx j c

theorem W.mx_setMx {w : W} {r c : Nat} {g : Region} (hg : tget w.m.regions r = some g) (f : Mx → Mx) : (w.setMx r c f).mx r c = f (w.mx r c) := by
  simp [W.setMx, W.mx, W.region, tmod_of_tget _ hg, tgetD_of_tget _ hg]
theorem W.Has.setMx {w : W} {e : ERef} {g : Region} {x : Elem} (h : w.Has e g x) (c : Nat) (f : Mx → Mx) :
    (w.setMx e.r c f).Has e { g with mxs := tput g.mxs c (f (tgetD g.mxs c {})) } x :=
  ⟨by simp [W.setMx, tmod_of_tget _ h.reg], h.here⟩

theorem W.consume_now (w : W) (e : ERef) (i : Ins) : (w.consume e i).now = w.now := congrArg Clk.now (w.consume_clk e i)

/-! ## MLDB, MSCL (R207, R208) -/

/-- The cell after MLDB has taken a token of a tile on a grid cycle. -/
def Mx.loaded (m : Mx) (f : EFields) (t : Token) (now : Nat) : Mx :=
  { m with
    active := if f.fmt = 1 ∧ t.head = true then none else m.active, loadOpen := !t.tail
    loading := m.loading ++ [lanes fun l =>
      if f.fmt = 5 then q4Lane (m.loading.length % 2 == 1) t l else if t.emptyAt l then 0 else (t.lane l).toNat]
    swapDue := if t.tail then some (now, t.landed) else none }

section
variable {s : State} {e : ERef} {x : Elem} {i : Ins} {m : Mx} {g : Region}

/-- An MLDB that may take its data token: no swap is due, and no head of a BF16 tile waits for the rows of the tile before. -/
theorem Fires.mldb_eq (h : Fires s e x {} i) (hm : m = s.mx e.r e.cell) (hg : tget s.m.regions e.r = some g) (f : EFields) (hs : m.swapDue = none)
    (ht : f.fmt ≠ 1 ∨ m.loadOpen = true ∨ (m.free ((W.of s).edgeOf g e.cell) = true ∧ m.rows = [] ∧ g.hold e.cell = false)) (hn : i.l.null = false) :
    exec (.mldb f) s = .next (s.fired e i fun w =>
      if i.l.head == m.loadOpen then w.raiseElem e 0x210 0 (some i.l)
      else if i.l.tail != decide (m.loading.length + 1 = if f.fmt = 1 then 512 else 256) then w.raiseElem e 0x210 0 (some i.l)
      else w.setMx e.r e.cell fun m => m.loaded f i.l s.clk.now) := by
  have hreg : (W.of s).region e.r = g := tgetD_of_tget _ hg
  have hmx : (W.of s).mx e.r e.cell = m := hm.symm
  have hin : x.inputs useL = some i := h.ins
  have taken : (decide (f.fmt = 1) && i.l.head && !i.l.null && !m.loadOpen && (!m.free ((W.of s).edgeOf g e.cell) || !m.rows.isEmpty ||
      (g.hold e.cell && (m.rowOpen || g.earlyRow e.cell ((W.of s).now + 1))))) = false := by
    rcases ht with ht | ht | ⟨hf, hr, hh⟩
    · simp only [decide_eq_false ht, Bool.false_and]
    · simp [ht]
    · simp [hf, hr, hh]
  show execMldb f s = _
  unfold execMldb
  rw [h.runElem_eq]
  simp only [h.may, h.elem_eq, hin, hreg, hmx, taken]
  simp only [hs, hn, Option.isSome_none, Bool.or_self, Bool.not_true, Bool.false_eq_true, if_false, State.fired, List.length_append, List.length_singleton,
    decide_eq_true_eq, W.consume_now]
  rw [W.setMx_congr (f' := fun m => m.loaded f i.l s.clk.now) ((h.consume_mx i e.cell).trans hm.symm)]
  simp [Mx.loaded, W.now]
theorem Fires.mldb_waits (h : Fires s e x {} i) (hm : m = s.mx e.r e.cell) (f : EFields) (hs : m.swapDue ≠ none) : exec (.mldb f) s = .next s := by
  have hin : x.inputs useL = some i := h.ins
  have hmx : (W.of s).mx e.r e.cell = m := hm.symm
  have due : m.swapDue.isSome = true := Option.isSome_iff_ne_none.2 hs
  show execMldb f s = _
  unfold execMldb
  rw [h.runElem_eq]
  simp only [h.may, h.elem_eq, hin, hmx, due, Bool.true_or, if_true, Bool.not_true, Bool.false_eq_true, if_false, W.of_commit]

/-- A firing that changes its matrix cell: the change is that of the record before. -/
theorem Fires.fired_setMx {u : Uses} (h : Fires s e x u i) (hm : m = s.mx e.r e.cell) (j : Ins) {put put' : Mx → Mx} (hp : put m = put' m) :
    (s.fired e j fun w => w.setMx e.r e.cell put) = s.fired e j fun w => w.setMx e.r e.cell put' :=
  congrArg (W.commit s) (W.setMx_congr ((h.consume_mx j e.cell).trans hm.symm) hp)

/-- MSCL's scale on a grid cycle: the loading half's, or the next tile's once a tail has been taken (R208). -/
def Mx.scaled (m : Mx) (v : W32) (now : Nat) : Mx :=
  match m.swapDue with
  | some (t, _) => if t < now then { m with scaleN := some v } else { m with scaleL := v }
  | none => { m with scaleL := v }

theorem Fires.mscl_eq (h : Fires s e x {} i) (f : EFields) (hn : i.l.null = false) (h0 : i.l.emptyAt 0 = false) :
    exec (.mscl f) s = .next (s.fired e i fun w => w.setMx e.r e.cell fun m => m.scaled (i.l.lane 0) s.clk.now) := by
  have now : ((W.of s).consume e i).now = s.clk.now := W.consume_now _ _ _
  show execMscl f s = _
  unfold execMscl
  rw [h.runElem_eq, show useL = {} from rfl, h.fireAny_eq]
  simp only [hn, h0, Bool.or_self, Bool.false_eq_true, if_false, State.fired, now]
  rfl

/-! ## The swap (R69, R212) -/

theorem tileSwap_eq {r cell a b : Nat} (hg : tget s.m.regions r = some g) (hm : m = s.mx r cell) (hs : m.swapDue = some (a, b)) (he : (W.of s).onEdge g cell = true)
    (hh : g.hold cell = false) : exec (.tileSwap r cell) s = .next (((W.of s).guard (decide (a < s.clk.now)) fun w => w.setMx r cell fun m => { m with
      active := some m.loading, tileAt := s.clk.now, loading := [], swapDue := none, scaleA := m.scaleL, scaleL := m.scaleN.getD 0x3F800000, scaleN := none }).commit s) := by
  have hreg : (W.of s).region r = g := tgetD_of_tget _ hg
  have hmx : (W.of s).mx r cell = m := hm.symm
  show execTileSwap r cell s = _
  simp only [execTileSwap, run, hreg, hmx, hs, he, hh, Bool.true_and, Bool.not_false, Bool.true_or, Bool.and_true]
  rfl

/-! ## MMA: the intake of a row (R212) -/

theorem W.resumeFiller_none {w : W} {r cell : Nat} (h : (w.mx r cell).filler = 0) : w.resumeFiller r cell = w := by
  unfold W.resumeFiller
  cases hr : (w.mx r cell).ramp <;> simp [h, hr]

/-- An engine that is free has no withheld firing (R215). -/
theorem Mx.free_unwithheld {m : Mx} {edge : Nat} (h : m.free edge = true) : m.firings.any (·.suspect) = false := by
  simp only [Mx.free, List.all_eq_true, Bool.and_eq_true, Bool.not_eq_true'] at h
  simpa using fun f hf => (h f hf).2

/-- No row issues without an active tile: `rowReady` then speaks of withheld firings alone, which keep the engine. -/
theorem W.issueRow_tileless {w : W} {e : ERef} (h : (w.mx e.r e.cell).active = none) : w.issueRow e = none := by
  unfold W.issueRow
  dsimp only
  split
  · refine if_neg ?_
    simp only [Bool.and_eq_true, not_and, W.rowReady, h, Bool.or_eq_true]
    rintro ⟨⟨⟨⟨⟨ready, -⟩, -⟩, free⟩, -⟩, -⟩ -
    rw [Mx.free_unwithheld free] at ready
    split at ready <;> simp at ready
  · rfl

/-- Inputs that read R only if a target names it: it is real where one does. -/
theorem Elem.inputs_ro_rT {x : Elem} (h : x.inputs { l := false, ro := true } = some i) : i.rT = x.names 1 := by
  unfold Elem.inputs at h
  cases hn : x.names 1
  · simp [hn] at h; simp [← h]
  · cases ht : x.take 1 with
    | none => simp [hn, ht] at h
    | some r =>
      have : r.2 = true := by
        simp only [Elem.take, hn, if_true] at ht
        split at ht
        · split at ht
          · cases ht
          · cases ht; rfl
        · cases ht
      simp [hn, ht] at h
      simp [← h, this]

theorem W.rowIssue_tileless {w : W} {e : ERef} (h : (w.mx e.r e.cell).active = none) (hr : (w.elem e).names 1 = false) (f : EFields) : w.rowIssue e f = w := by
  cases hrows : (w.mx e.r e.cell).rows with
  | nil => simp only [W.rowIssue, hrows]
  | cons row rest =>
    cases hi : (w.elem e).inputs { l := false, ro := true } with
    | none => simp only [W.rowIssue, hrows, hi]
    | some i =>
      have rT := Elem.inputs_ro_rT hi
      simp only [W.rowIssue, hi, hrows, rT, hr, Bool.false_and, Bool.false_eq_true, if_false, W.issueRow_tileless h]

/-- The cell after MMA has taken a token of its row on a grid cycle. -/
def Mx.rowTaken (m : Mx) (t : Token) (now : Nat) : Mx :=
  if t.tail then { m with rowBuf := [], rowOpen := false, rows := m.rows ++ [m.rowBuf ++ [t]], rowsAt := now }
  else { m with rowBuf := m.rowBuf ++ [t], rowOpen := true }

theorem Fires.rowIntake_eq (h : Fires s e x {} i) (hm : m = s.mx e.r e.cell) (hg : tget s.m.regions e.r = some g) (f : EFields) (hrows : m.rows = []) (hh : g.hold e.cell = false)
    (hn : i.l.null = false) (hd : i.l.head = !m.rowOpen)
    (ht : i.l.tail = decide (m.rowBuf.length + 1 = if f.fmt = 1 then 4 else if f.fmt = 3 ∧ (s.cell e.r e.cell).scaled = true then 3 else 2)) :
    (W.of s).rowIntake e f = ((W.of s).consume e { i with l := { i.l with last := false } }).setMx e.r e.cell fun m => m.rowTaken i.l s.clk.now := by
  have hreg : (W.of s).region e.r = g := tgetD_of_tget _ hg
  have hmx : (W.of s).mx e.r e.cell = m := hm.symm
  have hin : x.inputs useL = some i := h.ins
  have hshut : (W.of s).rowShut e.r e.cell = none := by simp [W.rowShut, hreg, hh]
  unfold W.rowIntake
  have room : (!m.rowOpen && !i.l.null && (decide (2 ≤ m.rows.length + if m.free ((W.of s).edgeOf g e.cell) = true then 0 else 1) || false)) = false := by
    rw [hrows]
    split <;> simp
  have opens : (i.l.head == m.rowOpen) = false := by rw [hd]; cases m.rowOpen <;> rfl
  simp only [h.elem_eq, hin, hreg, hmx, hshut, room]
  simp only [hn, opens, Bool.and_false, Bool.false_eq_true, if_false, List.length_append, List.length_singleton, Bool.and_eq_true, decide_eq_true_eq]
  have whole : (i.l.tail != decide (m.rowBuf.length + 1 = if f.fmt = 1 then 4 else if f.fmt = 3 ∧ ((W.of s).cell e.r e.cell).scaled = true then 3 else 2)) = false :=
    bne_eq_false_iff_eq.2 ht
  simp only [whole, Bool.false_eq_true, if_false, W.consume_now]
  have same (j : Ins) : ((W.of s).consume e j).mx e.r e.cell = m := (h.consume_mx j e.cell).trans hm.symm
  split
  · next tail => exact W.setMx_congr (same _) (by simp only [Mx.rowTaken, tail, if_true, hrows, List.isEmpty_nil]; rfl)
  · next tail => exact W.setMx_congr (same _) (by simp only [Mx.rowTaken, tail, Bool.false_eq_true, if_false])

/-- MMA takes a token of a row, and issues nothing while no tile is active. -/
theorem Fires.mma_takes (h : Fires s e x {} i) (hm : m = s.mx e.r e.cell) (hg : tget s.m.regions e.r = some g) (f : EFields) (hfill : m.filler = 0) (hrows : m.rows = [])
    (ha : m.active = none) (hr : x.names 1 = false) (hh : g.hold e.cell = false) (hn : i.l.null = false) (hd : i.l.head = !m.rowOpen)
    (ht : i.l.tail = decide (m.rowBuf.length + 1 = if f.fmt = 1 then 4 else if f.fmt = 3 ∧ (s.cell e.r e.cell).scaled = true then 3 else 2)) :
    exec (.mma f) s = .next (s.fired e { i with l := { i.l with last := false } } fun w => w.setMx e.r e.cell fun m => m.rowTaken i.l s.clk.now) := by
  obtain ⟨g0, has⟩ := h.has
  obtain ⟨cells, elems, ref, hc⟩ := has.consume { i with l := { i.l with last := false } }
  have after := hc.setMx e.cell fun m => m.rowTaken i.l s.clk.now
  have taken : (((W.of s).consume e { i with l := { i.l with last := false } }).setMx e.r e.cell fun m => m.rowTaken i.l s.clk.now).mx e.r e.cell = m.rowTaken i.l s.clk.now := by
    rw [W.mx_setMx hc.reg, h.consume_mx, hm]
  have idle : (m.rowTaken i.l s.clk.now).active = none ∧ (m.rowTaken i.l s.clk.now).filler = 0 := by
    unfold Mx.rowTaken
    split <;> exact ⟨ha, hfill⟩
  show execMma f s = _
  unfold execMma
  rw [h.runElem_eq]
  simp only [h.may, Bool.not_true, Bool.false_eq_true, if_false]
  rw [h.rowIntake_eq hm hg f hrows hh hn hd ht, W.resumeFiller_none (by rw [taken]; exact idle.2),
    W.rowIssue_tileless (by rw [taken]; exact idle.1) (by rw [after.elem_eq]; exact hr)]
  rfl

/-! ## MMA: the issue of a row (R210) -/

/-- The firing of a row that issues on an island edge from an MMA's record, with the scale and its flags. -/
def Firing.issued (x : Elem) (slot : Nat) (f : EFields) (row : Nat) (tokens : List Token) (tile : List W512) (v : Nat × Flags) (edge busy : Nat) : Firing :=
  { slot := slot, fmt := f.fmt.toNat, empty := x.empty, gamma := x.k, zero := f.mod.getLsbD 0, fade := f.mod.getLsbD 2, row := row, tokens := tokens, tile := tile
    scale := BitVec.ofNat 32 v.1, flags := v.2, frees := edge + busy, commit := edge + busy + 4 }

theorem busyOf_eq (fmt : BitVec 4) : busyOf fmt.toNat = if fmt = 1 then 16 else if fmt = 5 then 4 else 8 := by
  decide +revert

theorem W.laneOrFree_full {w : W} {t : Token} (h : t.emptyAt 0 = false) : w.laneOrFree t = (w, (t.lane 0).toNat) := by simp [W.laneOrFree, h]

/-- The conditions of R210 (with R205, R206, R212, R118) under which an MMA issues the oldest whole row of its cell m on an island edge: for the store's row r, on the
active tile, with the engine busy for b cycles of it. The element is x, its inputs i, the cell's region g and its frames c. -/
structure RowIssues (s : State) (e : ERef) (x : Elem) (i : Ins) (m : Mx) (g : Region) (c : Cell) (edge r b : Nat) (row : List Token) (rest : List (List Token))
    (tile : List W512) : Prop where
  fires  : Fires s e x { l := false, ro := true } i
  reg    : tget s.m.regions e.r = some g
  atMx   : (W.of s).mx e.r e.cell = m
  atCell : (W.of s).cell e.r e.cell = c
  atEdge : (W.of s).edgeOf g e.cell = edge
  named  : x.names 0 = true
  noL    : x.inL = none
  slot   : g.slotOf e.cell 0x71 = some x
  rows   : m.rows = row :: rest
  active : m.active = some tile
  noSwap : (W.of s).swapFirst e.r e.cell = false
  free   : m.free edge = true
  spilled : m.holdTo ≤ edge
  unheld : m.held c edge = false
  full   : i.rT = true → i.r.null = false ∧ i.r.emptyAt 0 = false
  rowNo  : r = x.fields.imm.toNat + (if i.rT then (i.r.lane 0).toNat else 0)
  hands  : (W.of s).inHand e r = false
  drains : (W.of s).drainFirst e [r] = false
  busy   : busyOf x.fields.fmt.toNat = b
  unfilled : m.filler = 0
  slew   : m.slewAdmits edge b = true

/-- A ramp that has started, needs no other first, and whose allowance admits b cycles (R118). -/
theorem Mx.slewAdmits_of {p : Ramp} {edge b : Nat} (hp : m.ramp = some p) (hf : m.filler = 0) (hn : m.needsRamp edge = false) (he : m.fillEnd ≤ edge)
    (ha : p.admits edge b = true) : m.slewAdmits edge b = true := by
  simp [Mx.slewAdmits, hp, hf, hn, he, ha]

section Issue
variable {c : Cell} {edge r b : Nat} {row : List Token} {rest : List (List Token)} {tile : List W512}

theorem RowIssues.region_eq (h : RowIssues s e x i m g c edge r b row rest tile) : (W.of s).region e.r = g := tgetD_of_tget _ h.reg
theorem RowIssues.null_eq (h : RowIssues s e x i m g c edge r b row rest tile) : (i.rT && i.r.null) = false := by
  cases hr : i.rT
  · rfl
  · simp [(h.full hr).1]

/-- A token at R that a firing reads is no reconfiguration token (R314). -/
theorem Elem.inR_of_inputs (h : x.inputs { l := false, ro := true } = some i) (hn : x.names 1 = true) : ∃ t, x.inR = some t ∧ t.reconf = false ∧ i.r = t := by
  unfold Elem.inputs at h
  cases ht : x.take 1 with
  | none => simp [hn, ht] at h
  | some v =>
    simp only [Elem.take, hn, if_true] at ht
    split at ht
    · next t hi =>
      split at ht
      · cases ht
      · next hr =>
        cases ht
        simp [hn, Elem.take, hi, hr] at h
        exact ⟨t, hi, by simpa using hr, by rw [← h]⟩
    · cases ht

theorem RowIssues.rowReady (h : RowIssues s e x i m g c edge r b row rest tile) : (W.of s).rowReady e.r e.cell = true := by
  simp only [W.rowReady, h.atMx, h.region_eq, h.slot, h.rows, h.active, List.isEmpty_cons, Bool.not_false, Option.isSome_some, Bool.true_and]
  cases hn : x.names 1 with
  | false => simp
  | true =>
    obtain ⟨t, ht, hr, rfl⟩ := Elem.inR_of_inputs h.fires.ins hn
    have full := h.full ((Elem.inputs_ro_rT h.fires.ins).trans hn)
    simp [ht, hr, full.1]

theorem RowIssues.issueRow (h : RowIssues s e x i m g c edge r b row rest tile) : (W.of s).issueRow e = some r := by
  have fires := h.fires
  have row : (x.fields.imm.toNat + if i.rT = true then ((W.of s).laneOrFree i.r).2 else 0) = r := by
    rw [h.rowNo]
    cases hr : i.rT
    · rfl
    · simp only [if_true, W.laneOrFree_full (h.full hr).2]
  unfold W.issueRow
  simp only [fires.elem_eq, fires.ins, h.atMx, h.rows, h.region_eq, h.atCell, h.atEdge, h.rowReady, h.null_eq, h.noSwap, h.free, h.spilled, h.unheld, h.busy, h.slew,
    row, h.hands, h.drains, decide_true, Bool.not_false, Bool.and_self, if_true, Bool.or_self, Bool.false_eq_true, if_false]

/-- The oldest whole row has left the row buffer: R's token is consumed, and the done source has seen the row's last mark. -/
def W.rowGone (w : W) (e : ERef) (i : Ins) (row : List Token) (rest : List (List Token)) (now : Nat) : W :=
  ((w.consume e { i with pT := false }).setElem e fun x => { x with lastSeen := x.lastSeen || (x.done && row.any (·.last)) }).setMx e.r e.cell fun m =>
    { m with rows := rest, rowsAt := now }

/-- The scale that a row brings: lane 0 of its head where the cell scales FP8 rows, else 1.0 (R79, R210). -/
def rowScale (x : Elem) (c : Cell) (row : List Token) : Nat :=
  if x.fields.fmt = 3 ∧ c.scaled = true then ((row.getD 0 {}).lane 0).toNat else 0x3F800000

theorem W.rowScale_eq (w : W) {x : Elem} {c : Cell} {row : List Token} (h : x.fields.fmt = 3 → c.scaled = true → (row.getD 0 {}).emptyAt 0 = false) :
    (if x.fields.fmt = 3 ∧ c.scaled = true then w.laneOrFree (row.getD 0 {}) else (w, 0x3F800000)) = (w, rowScale x c row) := by
  unfold rowScale
  split
  · next hc => exact W.laneOrFree_full (h hc.1 hc.2)
  · rfl

/-- The cell with a firing that begins on an island edge and keeps the engine for b cycles. -/
def Mx.begun (m : Mx) (k : Firing) (edge b : Nat) : Mx := { m.spend edge b with firings := m.firings ++ [k] }

theorem RowIssues.rowGone_mx (h : RowIssues s e x i m g c edge r b row rest tile) (now : Nat) :
    ((W.of s).rowGone e i row rest now).mx e.r e.cell = { m with rows := rest, rowsAt := now } := by
  obtain ⟨g0, has⟩ := h.fires.has
  obtain ⟨cells, elems, ref, hc⟩ := has.consume { i with pT := false }
  have seen := hc.setElem fun x => { x with lastSeen := x.lastSeen || (x.done && row.any (·.last)) }
  rw [W.rowGone, W.mx_setMx seen.reg, W.mx, seen.region_eq]
  have same := has.consume_mx { i with pT := false } e.cell
  rw [W.mx, hc.region_eq, h.atMx] at same
  exact congrArg (fun m : Mx => { m with rows := rest, rowsAt := now }) same

/-- What MMA does with the row that issues: the causes of a row beyond the store and of a folded pair's high row, or the firing. -/
theorem RowIssues.mma_eq (h : RowIssues s e x i m g c edge r b row rest tile)
    (hs : r < c.rowCount → m.isHigh r = false → x.fields.fmt = 3 → c.scaled = true → (row.getD 0 {}).emptyAt 0 = false) :
    exec (.mma x.fields) s = .next ((
      if c.rowCount ≤ r then (W.of s).raiseElem e 0x110 0 (some (if i.rT then i.r else row.getLastD {}))
      else if m.isHigh r then (W.of s).raiseElem e 0x111 0 (some (if i.rT then i.r else row.getLastD {}))
      else ((W.of s).rowGone e i row rest s.clk.now).setMx e.r e.cell fun y =>
        y.begun (.issued x e.slot x.fields r row tile (fmulF (Fmt.ofCode 0) 0 0 (rowScale x c row) m.scaleA.toNat) edge b) edge b).commit s) := by
  have fires := h.fires
  have intake : (W.of s).rowIntake e x.fields = W.of s := by
    have none : x.inputs useL = none := by
      simp [Elem.inputs, useL, Elem.take, h.named, Elem.inAt, h.noL]
    simp only [W.rowIntake, fires.elem_eq, none]
  have lane : (if i.rT = true then ((W.of s).laneOrFree i.r).1 else W.of s) = W.of s := by
    split
    · next hr => rw [W.laneOrFree_full (h.full hr).2]
    · rfl
  show execMma x.fields s = _
  unfold execMma
  rw [fires.runElem_eq]
  simp only [fires.may, Bool.not_true, Bool.false_eq_true, if_false, intake]
  rw [W.resumeFiller_none (by rw [h.atMx]; exact h.unfilled)]
  unfold W.rowIssue
  simp only [fires.elem_eq, fires.ins, h.atMx, h.rows, h.region_eq, h.atCell, h.atEdge, h.null_eq, h.issueRow, h.busy, Bool.false_eq_true, if_false, lane]
  split
  · rfl
  split
  · rfl
  next inStore low =>
  have head := hs (Nat.lt_of_not_le inStore) (Bool.eq_false_iff.2 low)
  simp only [W.rowScale_eq _ head]
  have now : (((W.of s).consume e { i with pT := false }).setElem e fun x => { x with lastSeen := x.lastSeen || (x.done && row.any (·.last)) }).now = s.clk.now :=
    W.consume_now _ _ _
  simp only [now]
  refine congrArg (fun w => Host.Outcome.next (W.commit s w)) (W.setMx_congr (h.rowGone_mx s.clk.now) ?_)
  simp only [h.active]
  rfl

end Issue

end

/-- Settles O23: MLDB and MSCL by `Fires.mldb_eq` and `Fires.mscl_eq`, the swap by `tileSwap_eq`, the intake of a row by `Fires.mma_takes`, its issue by
`RowIssues.mma_eq`. -/
theorem matrixTilesAndRows : Obligations.MatrixTilesAndRows := by
  refine ⟨⟨fun f s e x i m g n h hm hg hn => ⟨fun hs ht => ⟨fun nul head tail => ?load, fun nul broken => ?broken⟩, h.mldb_waits hm f, fun nul full => ⟨fun due => ?scale, fun a b due late => ?next⟩⟩,
    fun s r cell m g a b hg hm hs he hh => ⟨fun later => ?swap, fun early => ?early⟩⟩,
    fun f s e x m g c n edge hm hx hg hc he hfill hn => ⟨fun i h hrows ha hr hh nul head tail => ?take, ?issue⟩⟩
  case load =>
    have fits : (i.l.head == m.loadOpen) = false := by rw [head]; cases m.loadOpen <;> rfl
    rw [h.mldb_eq hm hg f hs ht nul, ← hn]
    simp only [fits, tail, bne_self_eq_false, Bool.false_eq_true, if_false]
    simp only [Mx.loaded, tail]
  case broken =>
    rw [h.mldb_eq hm hg f hs ht nul, ← hn]
    rcases broken with head | tail
    · simp only [head, beq_self_eq_true, if_true]
    · simp only [bne_iff_ne.2 tail, if_true, ite_self]
  case scale =>
    rw [h.mscl_eq f nul full]
    refine congrArg _ (h.fired_setMx hm i ?_)
    rcases due with due | ⟨a, due⟩ <;> simp [Mx.scaled, due]
  case next =>
    rw [h.mscl_eq f nul full]
    exact congrArg _ (h.fired_setMx hm i (by simp [Mx.scaled, due, late]))
  case swap => rw [tileSwap_eq hg hm hs he hh, decide_eq_true later]; rfl
  case early => rw [tileSwap_eq hg hm hs he hh, decide_eq_false (Nat.not_lt.2 early)]; exact congrArg _ (W.of_commit s)
  case take =>
    rw [hn, hc] at tail
    exact h.mma_takes hm hg f hfill hrows ha hr hh nul head tail
  case issue =>
    intro i row rest tile p r sa b v h hL hname hslot hrows ha hsw hfree hto hheld hR hr hhand hfirst hb hramp hneeds hend hadm
    have busy : busyOf x.fields.fmt.toNat = b := by rw [busyOf_eq, hx, hb]
    have issues : RowIssues s e x i m g c edge r b row rest tile := {
      fires := h, reg := hg, atMx := hm.symm, atCell := hc.symm, atEdge := he.symm, named := hname, noL := hL, slot := hslot, rows := hrows, active := ha
      noSwap := hsw, free := hfree, spilled := hto, unheld := hheld, full := hR, rowNo := hx ▸ hr, hands := hhand, drains := hfirst, busy := busy
      unfilled := hfill, slew := Mx.slewAdmits_of hramp hfill hneeds hend hadm }
    subst hx
    refine ⟨fun beyond => ?_, fun inStore high => ?_, fun inStore low head hsa hv => ?_⟩
    · rw [issues.mma_eq fun inStore => absurd inStore (Nat.not_lt.2 beyond), if_pos beyond]
    · rw [issues.mma_eq fun _ low => absurd (high.symm.trans low) (by decide), if_neg (Nat.not_le.2 inStore), if_pos high]
    · rw [issues.mma_eq fun _ _ => head, if_neg (Nat.not_le.2 inStore), if_neg (by rw [low]; decide), hv, hsa]
      rfl

end Sys2Proof.Machine
end

section
/-! PROOFS. LDL of a Q4 row whose offset is null: its firing waits for two free landing edges (02_execution_model.md R18; 13_memory_and_address_cells.md R231); from it O22. -/

namespace Sys2Proof.Machine

/-- An LDL of Q4 with a null at L, whose output stage holds a result due on island edge 6. -/
def reservedLdl : Elem := { word := 0x8250_0000_0000_0000, named := 1, inL := some { null := true }, flights := [{ due := 6 }] }

/-- Reset, but for a running region whose island keeps every grid cycle, with that element in slot 0 of cell 0; it is the element's turn, on island edge 1. -/
def reservedState : State := { State.reset with m := {
  cur := .elem 0 0 0, regions := [(0, { phase := .running, isl := [(0, { p := 1, q := 1 })], elems := [(0, reservedLdl)] })] } }

def reservedAt : ERef := ⟨0, 0, 0⟩

/-- The element would fire but for the reservation: its null is at L, the bank's read slot is its own, its targets grant. -/
theorem reserved_fires : BankFires reservedState reservedAt reservedLdl false { l := { null := true }, lT := true } where
  cur := rfl
  reg := ⟨_, rfl, rfl⟩
  ready := by decide +kernel
  slot := by decide +kernel
  ins := rfl

/-- LDL of Q4 leaves the null where it is: edges 5 and 6, on which a row's tokens would land, are not both free. -/
theorem reserved_waits : ∃ t, exec (.ldl reservedLdl.fields) reservedState = .next t ∧ (t.elem reservedAt).inL.isSome = true := ⟨_, rfl, by decide +kernel⟩

/-- Refutes O22: its clause on an LDL without an offset fires whatever the format, but LDL of Q4 needs the landing edges of a row's two tokens, also where the offset
turns out to be null (`W.bankFire` asks for them before it looks at the token). The clause on a row of data has that hypothesis; this one has not. In the state
`reservedState` the clause's hypotheses hold; as executed the null stays at L, as stated it is consumed. -/
theorem not_banksAndMemory : ¬ Obligations.BanksAndMemory := by
  unfold Obligations.BanksAndMemory
  rintro ⟨hbank, -⟩
  obtain ⟨-, -, -, -, -, -, -, hnull⟩ := hbank reservedLdl.fields reservedState reservedAt reservedLdl _ 0 _ rfl
  have hstated := hnull reserved_fires (by decide +kernel)
  obtain ⟨t, ht, hstays⟩ := reserved_waits
  rw [hstated] at ht
  cases ht
  exact absurd hstays (by decide +kernel)

end Sys2Proof.Machine
end

section
/-! PROOFS. The commit of an FP8 row while the CCB holds more than 64 records (12_matrix_cells.md R210, R214); from it O24. -/

namespace Sys2Proof.Machine

/-- An FP8 firing of one row on an empty tile, due since island edge 0; an empty element would be an error to it, so none makes it void. -/
def overfullFiring : Firing := { fmt := 3, empty := 1 }

/-- A cell with that firing and 65 records in its CCB. -/
def overfullMx : Mx := { firings := [overfullFiring], ccb := List.replicate 65 {} }

/-- Reset, but for a running region whose island keeps every grid cycle, with that record for its cell 0, whose store is F32. -/
def overfullState : State := { State.reset with m := { regions := [(0, { phase := .running, isl := [(0, { p := 1, q := 1 })], mxs := [(0, overfullMx)] })] } }

/-- MMA_COMMIT leaves the firing uncommitted: the CCB, which an F32 commit changes nothing in, counts as unable to take its (no) changes. -/
theorem overfull_held : ∃ t, exec (.mmaCommit 0 0) overfullState = .next t ∧ (t.mx 0 0).firings ≠ [] := ⟨_, rfl, by decide +kernel⟩

/-- Refutes O24: its clause on F32 stores says nothing of the CCB, but `Mx.held` withholds any commit of a cell whose CCB has more than 64 records, also one that
changes no count (`ccbFits` compares the length alone). The model makes no such CCB itself, but the clause is about every state. In `overfullState` the clause's
hypotheses hold; as executed the firing stays, as stated it has committed. The clause on INT24 stores has the hypothesis that this one lacks. -/
theorem not_matrixAccumulation : ¬ Obligations.MatrixAccumulation := by
  unfold Obligations.MatrixAccumulation
  intro h
  obtain ⟨-, hF32⟩ := h overfullState 0 0 _ overfullMx {} overfullFiring [] rfl rfl rfl rfl (by decide +kernel) rfl (by decide +kernel) (by decide +kernel)
    (by decide +kernel)
  obtain ⟨t, ht, hcommitted, -⟩ := hF32 (by decide +kernel)
  obtain ⟨u, hu, hstays⟩ := overfull_held
  rw [ht] at hu
  cases hu
  exact hstays hcommitted

end Sys2Proof.Machine
end

section
/-! PROOFS. Reset: the sequencers of a fresh region and the registers' homes, none of which has been written (R285, R409); from it O38. -/

namespace Sys2Proof.Machine

/-- A register that nothing has written reads as its "At reset" column says. -/
theorem State.reset_bar (o : Nat) : State.reset.bar o = Bar.resetValue o := rfl

/-- A sequencer of a region that resumes no drained task is one with its image loaded and nothing else set. -/
theorem Region.newSeq_fresh {g : Region} (h : g.resume = none) (k : Nat) (store : Tbl W32) :
    g.newSeq k store = { store := store, part := g.part, region := regionKey g, rquad := k, latest := g.popRef } := by
  simp only [Region.newSeq, h]

/-- A sequencer in whose registers nothing has been written reads 0 in each. -/
theorem Seq.reg_of_unwritten {sq : Seq} (h : sq.regs = []) (r : BitVec 5) : sq.reg r = 0 := by
  simp [Seq.reg, h, tgetD, tget]

/-- Settles O38: memory, tables and records are their defaults, the registers' homes are empty (`State.reset_bar`), and a sequencer of a region that resumes
nothing is fresh (`Region.newSeq_fresh`). -/
theorem resetState : Obligations.ResetState := by
  refine ⟨rfl, rfl, rfl, rfl, rfl, rfl, rfl, rfl, rfl, rfl, rfl, rfl, ?_⟩
  simp only [State.reset_bar]
  refine ⟨rfl, rfl, rfl, rfl, rfl, ?parts, ?rails, ?quads, ?temps, fun i _ => rfl, fun g k store hg => ?seq⟩
  case parts => decide +kernel
  case rails => decide +kernel
  case quads => decide +kernel
  case temps => decide +kernel
  case seq =>
    rw [Region.newSeq_fresh hg]
    exact ⟨rfl, Seq.reg_of_unwritten rfl, rfl, rfl, rfl, rfl, rfl⟩

end Sys2Proof.Machine
end

section
/-! PROOFS. The interleaved space: homes and die offsets of its addresses (04_memory_spaces.md R74); from it O39. -/

namespace Sys2Proof.Machine

/-! ## Parities -/

/-- The XOR of bits i, i + 2, … is the parity of their sum. -/
theorem xorBits_toNat (n k i : Nat) : (xorBits n k i).toNat = ((List.range k).map fun j => n / 2 ^ (i + 2 * j) % 2).sum % 2 := by
  induction k generalizing i with
  | zero => rfl
  | succ k ih =>
    have hbit : (n.testBit i).toNat = n / 2 ^ i % 2 := by rw [Nat.toNat_testBit]
    have hrest : ((List.range k).map fun j => n / 2 ^ (i + 2 * (j + 1)) % 2) = (List.range k).map fun j => n / 2 ^ (i + 2 + 2 * j) % 2 :=
      List.map_congr_left fun j _ => by rw [show i + 2 * (j + 1) = i + 2 + 2 * j by omega]
    have hxor (a b : Bool) : (a ^^ b).toNat = (a.toNat + b.toNat) % 2 := by decide +revert
    simp only [xorBits, hxor, ih, hbit, List.range_succ_eq_map, List.map_cons, List.map_map, Function.comp_def, List.sum_cons, Nat.succ_eq_add_one, hrest,
      Nat.mul_zero, Nat.add_zero]
    omega

/-- The XOR of bits from 14 on is that of the address's 16 KiB block. -/
theorem xorBits_block (n k i : Nat) : xorBits n k (14 + i) = xorBits (n / 2 ^ 14) k i := by
  induction k generalizing i with
  | zero => rfl
  | succ k ih => rw [xorBits, xorBits, Nat.testBit_div_two_pow, Nat.add_assoc, ih, Nat.add_comm]

/-- The home die as the number of its two parities (R74). -/
theorem homeDie_eq (pa : Nat) : homeDie pa = 2 * (xorBits pa 20 13).toNat + (xorBits pa 20 12).toNat := by
  unfold homeDie
  cases xorBits pa 20 13 <;> cases xorBits pa 20 12 <;> rfl

/-! ## The granules of a block -/

/-- What a block's own bits contribute to the homes of its granules. -/
def blockHome (b : Nat) : Nat := 2 * (xorBits b 19 1).toNat + (xorBits b 19 0).toNat

theorem blockHome_lt (b : Nat) : blockHome b < 4 := by
  have h1 := Bool.toNat_lt (xorBits b 19 1)
  have h0 := Bool.toNat_lt (xorBits b 19 0)
  unfold blockHome
  omega

/-- Byte r of granule k of block b. -/
def granuleByte (b k r : Nat) : Nat := 2 ^ 14 * b + 2 ^ 12 * k + r

/-- The home of granule k of block b is k XORed with what the block contributes. -/
theorem homeDie_granuleByte (b : Nat) {k r : Nat} (hk : k < 4) (hr : r < 2 ^ 12) : homeDie (granuleByte b k r) = blockHome b ^^^ k := by
  have hblock : granuleByte b k r / 2 ^ 14 = b := by unfold granuleByte; omega
  have h13 : (granuleByte b k r).testBit 13 = k.testBit 1 := by
    simp only [Nat.testBit_eq_decide_div_mod_eq, granuleByte]; congr 2; omega
  have h12 : (granuleByte b k r).testBit 12 = k.testBit 0 := by
    simp only [Nat.testBit_eq_decide_div_mod_eq, granuleByte]; congr 2; omega
  have hodd : xorBits (granuleByte b k r) 20 13 = (k.testBit 1 ^^ xorBits b 19 1) := by
    rw [xorBits, h13, xorBits_block _ 19 1, hblock]
  have heven : xorBits (granuleByte b k r) 20 12 = (k.testBit 0 ^^ xorBits b 19 0) := by
    rw [xorBits, h12, xorBits_block _ 19 0, hblock]
  rw [homeDie_eq, hodd, heven, blockHome]
  generalize xorBits b 19 1 = x
  generalize xorBits b 19 0 = y
  interval_cases k <;> decide +revert

/-- The die offset of a byte keeps its block and its place in the granule (R74). -/
theorem dieOffset_granuleByte (b : Nat) {k r : Nat} (hk : k < 4) (hr : r < 2 ^ 12) : dieOffset (granuleByte b k r) = 2 ^ 12 * b + r := by
  unfold dieOffset granuleByte
  omega

/-- Every address is a byte of a granule of a block. -/
theorem exists_granuleByte (pa : Nat) : ∃ b k r, k < 4 ∧ r < 2 ^ 12 ∧ pa = granuleByte b k r :=
  ⟨pa / 2 ^ 14, pa / 2 ^ 12 % 4, pa % 2 ^ 12, by omega, by omega, by unfold granuleByte; omega⟩

/-- XORing with a number is undone by itself: so of a block's granules, the one at home on die d is number `blockHome b ^^^ d`. -/
theorem xor_eq_iff_eq_xor (a k d : Nat) : a ^^^ k = d ↔ k = a ^^^ d := by
  constructor <;> rintro rfl <;> rw [Nat.xor_xor_cancel_left]

theorem dieOffset_eq_or (pa : Nat) : dieOffset pa = ((pa >>> 14) <<< 12) ||| (pa % 2 ^ 12) := by
  rw [← Nat.shiftLeft_add_eq_or_of_lt (Nat.mod_lt _ (by decide)), Nat.shiftLeft_eq, Nat.shiftRight_eq_div_pow, dieOffset]

theorem blockHome_xor_lt (b : Nat) {d : Nat} (hd : d < 4) : blockHome b ^^^ d < 4 := Nat.xor_lt_two_pow (n := 2) (blockHome_lt b) hd

/-- Settles O39: the parities by `xorBits_toNat`, the offset by its bits; a block's granule on die d is number `blockHome b ^^^ d`, and a die offset names block and
byte. -/
theorem interleavedHomes : Obligations.InterleavedHomes := by
  refine ⟨fun pa => ⟨?parities, dieOffset_eq_or pa⟩, fun l off hl => ?keys, fun a d ha hd => ?granules, fun d o hd ho => ?once⟩
  case parities => rw [homeDie_eq, xorBits_toNat, xorBits_toNat]
  case keys => simp only [leafKeys, hl]
  case granules =>
    refine ⟨blockHome (a / 2 ^ 14) ^^^ d, blockHome_xor_lt _ hd, fun k hk => ?_⟩
    have hbyte : a + 2 ^ 12 * k = granuleByte (a / 2 ^ 14) k 0 := by unfold granuleByte; omega
    rw [hbyte, homeDie_granuleByte _ hk (by decide), xor_eq_iff_eq_xor]
  case once =>
    have hg := blockHome_xor_lt (o / 2 ^ 12) hd
    refine ⟨granuleByte (o / 2 ^ 12) (blockHome (o / 2 ^ 12) ^^^ d) (o % 2 ^ 12), by unfold granuleByte; omega, fun pb _ => ?_⟩
    obtain ⟨b, k, r, hk, hr, rfl⟩ := exists_granuleByte pb
    rw [homeDie_granuleByte b hk hr, dieOffset_granuleByte b hk hr, xor_eq_iff_eq_xor]
    constructor
    · rintro ⟨rfl, rfl⟩
      have hb : (2 ^ 12 * b + r) / 2 ^ 12 = b := by omega
      have hr : (2 ^ 12 * b + r) % 2 ^ 12 = r := by omega
      rw [hb, hr]
    · intro h
      unfold granuleByte at h
      have hb : b = o / 2 ^ 12 := by omega
      exact ⟨by subst hb; omega, by omega⟩

end Sys2Proof.Machine
end

section
/-! PROOFS. The sequencer's scratch and parameter windows (14_sequencer.md R257 to R259; R70, R71); from them O4. -/

namespace Sys2Proof.Machine

/-! ## Words of bytes -/

theorem leNat_lt (l : List Byte) : leNat l < 2 ^ (8 * l.length) := by
  induction l with
  | nil => simp [leNat]
  | cons b l ih =>
    have hb : b.toNat < 256 := b.isLt
    simp only [leNat, List.length_cons, Nat.mul_add, Nat.mul_one, Nat.pow_add]
    omega

theorem leNat_memBytes_lt (m : Memory) (a n : Nat) : leNat (memBytes m a n) < 2 ^ (8 * n) := by
  have := leNat_lt (memBytes m a n)
  rwa [memBytes_length] at this

theorem sextNat_toNat {w : Nat} (hw : 0 < w) (x : BitVec w) : sextNat w x.toNat = x.toInt := by
  obtain ⟨k, rfl⟩ : ∃ k, w = k + 1 := ⟨w - 1, by omega⟩
  have hpow : 2 ^ (k + 1) = 2 * 2 ^ k := by rw [Nat.pow_succ]; omega
  have hcast : (2 : Int) ^ (k + 1) = 2 * (2 ^ k : Nat) := by push_cast; ring
  simp only [sextNat, BitVec.toInt_eq_toNat_cond, Nat.add_sub_cancel, hcast, hpow]
  split <;> split <;> omega

/-- The AMO operations on words of w bits, by their number (R258). -/
def amoOps : List (BitVec 4 × ((w : Nat) → BitVec w → BitVec w → BitVec w)) := [
  (0, fun _ x y => x + y), (1, fun _ x y => if y.toInt < x.toInt then y else x), (2, fun _ x y => if x.toInt < y.toInt then y else x),
  (3, fun _ x y => if y.toNat < x.toNat then y else x), (4, fun _ x y => if x.toNat < y.toNat then y else x),
  (5, fun _ x y => x &&& y), (6, fun _ x y => x ||| y), (7, fun _ x y => x ^^^ y), (8, fun _ _ y => y)]

/-- The model's AMO on numbers is the operation on words. -/
theorem amoWord_eq {w : Nat} (hw : 0 < w) (x y : BitVec w) : ∀ p ∈ amoOps, amoWord w p.1.toNat x.toNat y.toNat = (p.2 w x y).toNat := by
  simp only [amoOps, List.forall_mem_cons, List.not_mem_nil, false_implies, implies_true, and_true]
  refine ⟨?add, ?min, ?max, ?minu, ?maxu, ?and, ?or, ?xor, rfl⟩
  case add => exact (BitVec.toNat_add x y).symm
  case min => simp only [apply_ite BitVec.toNat, ← sextNat_toNat hw]; rfl
  case max => simp only [apply_ite BitVec.toNat, ← sextNat_toNat hw]; rfl
  case minu => show min _ _ = _; split <;> omega
  case maxu => show max _ _ = _; split <;> omega
  case and => exact (BitVec.toNat_and x y).symm
  case or => exact (BitVec.toNat_or x y).symm
  case xor => exact (BitVec.toNat_xor x y).symm

/-- An AMO's step on one word. -/
theorem atomicStep_amo {w mask : Nat} (f x y z : Nat) (hm : mask.testBit 0 = true) (hx : x < 2 ^ w) (hy : y < 2 ^ w) :
    atomicStep (.atomic (16 + f)) 0 1 w mask x y z = (amoWord w f x y % 2 ^ w, 0) := by
  simp [atomicStep, hm, Nat.mod_eq_of_lt hx, Nat.mod_eq_of_lt hy, packElems]

/-- A compare and swap's step on one word. -/
theorem atomicStep_cas {w mask : Nat} (x y z : Nat) (hm : mask.testBit 0 = true) (hx : x < 2 ^ w) (hy : y < 2 ^ w) (hz : z < 2 ^ w) :
    atomicStep .cas 0 1 w mask x y z = (if x = y then z else x, 0) := by
  have hnew : (if x = y then z else x) < 2 ^ w := by split <;> assumption
  simp [atomicStep, hm, Nat.mod_eq_of_lt hx, Nat.mod_eq_of_lt hy, Nat.mod_eq_of_lt hz, packElems, Nat.mod_eq_of_lt hnew]

/-- Every word that an atomic touches has a byte, and its mask names it. -/
theorem atomSize_pos (z : BitVec 1) : 0 < 8 * atomSize z := by unfold atomSize; split <;> decide
theorem atomSize_mask (z : BitVec 1) : (2 ^ atomSize z - 1).testBit 0 = true := by unfold atomSize; split <;> decide

/-! ## Scratch -/

/-- An aligned address of scratch faults with nothing. -/
theorem eaFault_scratch {ea : W64} {n : Nat} (hs : inScratch ea = true) (ha : ea.toNat % n = 0) : eaFault ea n = none := by
  simp [eaFault, hs, ha]

theorem Seq.put_status (sq : Seq) (r : BitVec 5) (v : W64) : (sq.put r v).status = sq.status := by
  unfold Seq.put Seq.setReg
  split <;> rfl

theorem Seq.not_full {sq : Seq} {c : Cls} (h : sq.count c < 64) : sq.full c = false := by simpa [Seq.full] using h

/-- A register that comes to await a load, of a sequencer whose status is set: in either order. -/
theorem Seq.loading_status (sq : Seq) (d : BitVec 5) (id : Nat) (st : BitVec 4) :
    (({ sq with status := st }.put d ({ sq with status := st }.reg d)).add id .loads d.toNat).await d id =
      { ((sq.put d (sq.reg d)).add id .loads d.toNat).await d id with status := st } := by
  unfold Seq.await Seq.put Seq.setReg
  split <;> rfl

theorem Seq.loading_keeps_status (sq : Seq) (d : BitVec 5) (id : Nat) : (((sq.put d (sq.reg d)).add id .loads d.toNat).await d id).status = sq.status := by
  unfold Seq.await Seq.put Seq.setReg
  split <;> rfl

section Turn
variable {s : State} {q : Nat} {sq : Seq} (h : SeqTurn s q sq)
include h

theorem SeqTurn.loadOp_scratch {d a : BitVec 5} {sc : BitVec 3} {o : BitVec 12} {n : Nat} {ea : W64} (hr : sq.stalls [a] = false)
    (he : ea = sq.reg a + o.signExtend 64) (hs : inScratch ea = true) (ha : ea.toNat % n = 0) : loadOp n d a sc o s =
      .next (s.issued q (sq.putLate d (BitVec.ofNat 64 (leNat (memBytes sq.scratch (ea.toNat - scratchBase) n))) ((W.of s).seqCycle 2)).after) := by
  subst he
  simp only [loadOp, runSeq_turn h, hr, sext64, eaFault_scratch hs ha, hs, Bool.false_eq_true, if_false, if_true, W.seqDone_commit h.here]
  rfl

theorem SeqTurn.storeSeqOp_scratch {d a : BitVec 5} {sc : BitVec 3} {o : BitVec 12} {n : Nat} {ea : W64} (hr : sq.stalls [d, a] = false)
    (he : ea = sq.reg a + o.signExtend 64) (hs : inScratch ea = true) (ha : ea.toNat % n = 0) : storeSeqOp n d a sc o s =
      .next (s.issued q { sq with scratch := memPut sq.scratch (ea.toNat - scratchBase) (leBytes n (sq.reg d).toNat) }.after) := by
  subst he
  simp only [storeSeqOp, runSeq_turn h, hr, sext64, eaFault_scratch hs ha, hs, Bool.false_eq_true, if_false, if_true, W.seqDone_commit h.here]
  rfl

/-- An atomic on an aligned word of scratch: its step's word is put there, and s[D] receives the old one. -/
theorem SeqTurn.atomSeqOp_scratch {kind : ReqKind} {host : Bool} {rs : List (BitVec 5)} {d a : BitVec 5} {n : Nat} {sc : BitVec 3} {x y : Seq → W64} {old new : Nat}
    {fl : Flags} (hr : sq.stalls rs = false) (hs : inScratch (sq.reg a) = true) (ha : (sq.reg a).toNat % n = 0)
    (ho : old = leNat (memBytes sq.scratch ((sq.reg a).toNat - scratchBase) n))
    (hn : atomicStep kind 0 1 (8 * n) (2 ^ n - 1) old ((x sq).toNat % 2 ^ (8 * n)) ((y sq).toNat % 2 ^ (8 * n)) = (new, fl)) :
    atomSeqOp kind host rs d a n sc x y s = .next (s.issued q
      ((sq.scratchPut ((sq.reg a).toNat - scratchBase) (leBytes n new)).putLate d (BitVec.ofNat 64 old) ((W.of s).seqCycle 2)).after) := by
  have hold : sq.scratchNat (scratchOff (sq.reg a)) n = old := ho.symm
  simp only [atomSeqOp, runSeq_turn h, hr, eaFault_scratch hs ha, hs, Bool.false_eq_true, if_false, if_true, hold, hn, W.seqDone_commit h.here]
  rfl

theorem SeqTurn.amo_scratch {d a b : BitVec 5} {sc : BitVec 3} {z : BitVec 1} {n old : Nat} (p : BitVec 4 × ((w : Nat) → BitVec w → BitVec w → BitVec w))
    (hp : p ∈ amoOps) (hr : sq.stalls [a, b] = false) (hn : n = atomSize z) (hs : inScratch (sq.reg a) = true) (ha : (sq.reg a).toNat % n = 0)
    (ho : old = leNat (memBytes sq.scratch ((sq.reg a).toNat - scratchBase) n)) : exec (.amo d a b sc z p.1) s = .next (s.issued q
      ((sq.scratchPut ((sq.reg a).toNat - scratchBase)
        (leBytes n (p.2 (8 * n) (BitVec.ofNat (8 * n) old) ((sq.reg b).truncate (8 * n))).toNat)).putLate d (BitVec.ofNat 64 old) ((W.of s).seqCycle 2)).after) := by
  have hold : old < 2 ^ (8 * n) := ho ▸ leNat_memBytes_lt _ _ _
  have hop := amoWord_eq (hn ▸ atomSize_pos z) (BitVec.ofNat (8 * n) old) ((sq.reg b).truncate (8 * n)) p hp
  rw [BitVec.toNat_ofNat, Nat.mod_eq_of_lt hold, BitVec.toNat_setWidth] at hop
  have hstep := atomicStep_amo p.1.toNat old ((sq.reg b).toNat % 2 ^ (8 * n)) (0 % 2 ^ (8 * n)) (hn ▸ atomSize_mask z) hold (Nat.mod_lt _ (Nat.two_pow_pos _))
  rw [hop, Nat.mod_eq_of_lt (BitVec.isLt _)] at hstep
  show execAmo d a b sc z p.1 s = _
  rw [execAmo, ← hn]
  exact h.atomSeqOp_scratch hr hs ha ho hstep

theorem SeqTurn.acas_scratch {d a b : BitVec 5} {sc : BitVec 3} {z : BitVec 1} {n old : Nat} (hr : sq.stalls [d, a, b] = false) (hn : n = atomSize z)
    (hs : inScratch (sq.reg a) = true) (ha : (sq.reg a).toNat % n = 0) (ho : old = leNat (memBytes sq.scratch ((sq.reg a).toNat - scratchBase) n)) :
    exec (.acas d a b sc z) s = .next (s.issued q
      ((sq.scratchPut ((sq.reg a).toNat - scratchBase)
        (leBytes n (if BitVec.ofNat (8 * n) old = (sq.reg d).truncate (8 * n) then ((sq.reg b).truncate (8 * n)).toNat else old))).putLate d
          (BitVec.ofNat 64 old) ((W.of s).seqCycle 2)).after) := by
  have hold : old < 2 ^ (8 * n) := ho ▸ leNat_memBytes_lt _ _ _
  have hlow (x : W64) : x.toNat % 2 ^ (8 * n) < 2 ^ (8 * n) := Nat.mod_lt _ (Nat.two_pow_pos _)
  have hsame : (BitVec.ofNat (8 * n) old = (sq.reg d).truncate (8 * n)) = (old = (sq.reg d).toNat % 2 ^ (8 * n)) := by
    rw [← BitVec.toNat_inj, BitVec.toNat_ofNat, Nat.mod_eq_of_lt hold, BitVec.toNat_setWidth]
  have hstep := atomicStep_cas old ((sq.reg d).toNat % 2 ^ (8 * n)) ((sq.reg b).toNat % 2 ^ (8 * n)) (hn ▸ atomSize_mask z) hold (hlow _) (hlow _)
  show execAcas d a b sc z s = _
  rw [execAcas, ← hn]
  simp only [hsame, BitVec.toNat_setWidth]
  exact h.atomSeqOp_scratch hr hs ha ho hstep

/-! ## Parameter windows -/

theorem SeqTurn.prd_unbound {d n : BitVec 5} {o : BitVec 15} (hw : tget (s.region sq.region).windows n.toNat = none) :
    exec (.prd d n o) s = .next (s.seqRaised q 0x162) := by
  show execPrd d n o s = _
  rw [State.region] at hw
  simp only [execPrd, runSeq_turn h, hw]
  rfl

theorem SeqTurn.plen_eq {d n : BitVec 5} : exec (.plen d n) s = .next (s.issued q
    (sq.put d (match tget (s.region sq.region).windows n.toNat with | some (_, b) => b.zeroExtend 64 | none => 0)).after) := by
  show execPlen d n s = _
  simp only [execPlen, runSeq_turn h, W.seqDone_commit h.here]
  rfl

section Bound
variable {d n : BitVec 5} {o : BitVec 15} {base : W64} {bound : W32} (hw : tget (s.region sq.region).windows n.toNat = some (base, bound))
include hw

/-- A read wholly beyond the bound makes no access. -/
theorem SeqTurn.prd_beyond (hb : bound.toNat ≤ o.toNat) : exec (.prd d n o) s = .next (s.issued q { sq.put d 0 with status := sq.status ||| 1 }.after) := by
  show execPrd d n o s = _
  rw [State.region] at hw
  simp only [execPrd, runSeq_turn h, hw, hb, if_true, W.seqDone_commit h.here, Seq.put_status]

theorem SeqTurn.prd_misaligned {ea : W64} (hb : o.toNat < bound.toNat) (he : ea = base + BitVec.ofNat 64 o.toNat) (hc : sq.count .loads < 64)
    (ha : ea.toNat % 8 ≠ 0) : exec (.prd d n o) s = .next (s.seqRaised q 0x160 ea) := by
  show execPrd d n o s = _
  rw [State.region] at hw
  subst he
  simp only [execPrd, runSeq_turn h, hw, Nat.not_le.mpr hb, Seq.not_full hc, ha, Bool.false_eq_true, if_false, if_true, ne_eq, not_false_eq_true]
  rfl

theorem SeqTurn.prd_outside {ea : W64} (hb : o.toNat < bound.toNat) (he : ea = base + BitVec.ofNat 64 o.toNat) (hc : sq.count .loads < 64)
    (ha : ea.toNat % 8 = 0) (ho : 2 ^ 56 ≤ ea.toNat) : exec (.prd d n o) s = .next (s.seqRaised q 0x161 ea) := by
  show execPrd d n o s = _
  rw [State.region] at hw
  subst he
  have hhigh : (base + BitVec.ofNat 64 o.toNat).toNat / 2 ^ 56 ≠ 0 := (Nat.div_pos ho (by decide)).ne'
  simp only [execPrd, runSeq_turn h, hw, Nat.not_le.mpr hb, Seq.not_full hc, ha, hhigh, Bool.false_eq_true, if_false, if_true, ne_eq, not_true_eq_false,
    not_false_eq_true]
  rfl

/-- A read within the window's reach is sent, of the bytes that the bound leaves. -/
theorem SeqTurn.prd_reads {ea : W64} {w : W} {ls : List Leaf} {ps : List Piece} {ts : List Nat} (hb : o.toNat < bound.toNat)
    (he : ea = base + BitVec.ofNat 64 o.toNat) (hc : sq.count .loads < 64) (ha : ea.toNat % 8 = 0) (hl : ea.toNat < 2 ^ 56)
    (hp : (W.of s).placed (.seq q d.toNat) sq.part ea 8 .read (.near (q / 40)) 0xE = (w, .ok (ls, ps, ts))) :
    exec (.prd d n o) s = .next ((w.seqSent q .loads
      { seqReq q sq d.toNat ea 8 ls ps ts with kind := .read, mask := 2 ^ (min 8 (bound.toNat - o.toNat)) - 1 } (some d)
      fun sq => if o.toNat + 8 ≤ bound.toNat then sq else { sq with status := sq.status ||| 1 }).commit s) := by
  show execPrd d n o s = _
  rw [State.region] at hw
  subst he
  have hlow : ¬ (base + BitVec.ofNat 64 o.toNat).toNat / 2 ^ 56 ≠ 0 := by simpa using Nat.div_eq_of_lt hl
  rw [← h.seq_eq] at hp
  simp only [execPrd, runSeq_turn h, hw, Nat.not_le.mpr hb, Seq.not_full hc, ha, hlow, Bool.false_eq_true, if_false, ne_eq, not_true_eq_false,
    W.seqAccess_ok (ok := anyPlace) hp rfl, W.seqSent]
  rw [h.seq_eq]
  by_cases hwhole : o.toNat + 8 ≤ bound.toNat
  · simp only [hwhole, decide_true, if_true]
    rfl
  · simp only [hwhole, decide_false, Bool.false_eq_true, if_false, Seq.loading_status, Seq.loading_keeps_status]
    rfl

end Bound
end Turn

/-- Settles O4: loads, stores and atomics of scratch by their shared forms, the atomics with their step on one word; the windows by their cases. -/
theorem scratchAndWindows : Obligations.ScratchAndWindows := by
  refine ⟨⟨?loads, ?stores⟩, ?atomics, fun d n o s q sq h => ⟨fun hw => ⟨h.prd_unbound hw, ?unbound⟩, fun base bound hw => ⟨?bound, h.prd_beyond hw, ?within⟩⟩⟩
  case loads =>
    simp only [List.forall_mem_cons, List.not_mem_nil, false_implies, implies_true, and_true]
    exact ⟨fun _ _ _ _ _ _ _ _ h => h.loadOp_scratch, fun _ _ _ _ _ _ _ _ h => h.loadOp_scratch, fun _ _ _ _ _ _ _ _ h => h.loadOp_scratch,
      fun _ _ _ _ _ _ _ _ h => h.loadOp_scratch⟩
  case stores =>
    simp only [List.forall_mem_cons, List.not_mem_nil, false_implies, implies_true, and_true]
    exact ⟨fun _ _ _ _ _ _ _ _ h => h.storeSeqOp_scratch, fun _ _ _ _ _ _ _ _ h => h.storeSeqOp_scratch, fun _ _ _ _ _ _ _ _ h => h.storeSeqOp_scratch,
      fun _ _ _ _ _ _ _ _ h => h.storeSeqOp_scratch⟩
  case atomics =>
    intro d a b sc z s q sq n old h hn hs ha ho
    exact ⟨fun p hp hr => h.amo_scratch p hp hr hn hs ha ho, fun hr => h.acas_scratch hr hn hs ha ho⟩
  case unbound => rw [h.plen_eq, hw]
  case bound => rw [h.plen_eq, hw]
  case within =>
    intro w ls ps ts ea hb he hc
    exact ⟨h.prd_misaligned hw hb he hc, h.prd_outside hw hb he hc, h.prd_reads hw hb he hc⟩
end Sys2Proof.Machine
end

section
/-! PROOFS. Writes of registers by fields: which registers and which bits a copy of a field into a register changes (00_scope.md R6). -/

namespace Sys2Proof.Machine

/-! ## Bits of a register after a field's write -/

theorem W.setFld_bar (w : W) (o hi lo x : Nat) : (w.setFld o hi lo x).bar o = setField (w.bar o) hi lo x := w.setBar_bar_same o _

/-- The register after a copy of a field: the field's bits are those of the word written. -/
theorem W.take_bit (w : W) (o : Nat) {hi lo : Nat} (v : W64) (i : Nat) (hn : hi < 64) (hl : lo ≤ hi) :
    ((w.take o hi lo v).bar o).getLsbD i = if lo ≤ i ∧ i ≤ hi then v.getLsbD i else (w.bar o).getLsbD i := by
  rw [W.take, W.setFld_bar, getLsbD_setField]
  by_cases h : lo ≤ i ∧ i ≤ hi
  · rw [if_pos (by omega), if_pos h, testBit_field, Nat.add_sub_cancel' h.1, decide_eq_true (by omega), Bool.true_and]
  · rw [if_neg (by omega), if_neg h]

/-- Two words with the same bits in a field have the same field. -/
theorem field_eq_of_bits {a b : W64} {hi lo : Nat} (hl : lo ≤ hi) (h : ∀ i, lo ≤ i → i ≤ hi → a.getLsbD i = b.getLsbD i) : field a hi lo = field b hi lo := by
  refine Nat.eq_of_testBit_eq fun i => ?_
  rw [testBit_field, testBit_field]
  by_cases hi' : i < hi - lo + 1
  · rw [h (lo + i) (by omega) (by omega)]
  · simp [hi']

theorem W.take_fld_same (w : W) (o : Nat) {hi lo : Nat} (v : W64) (hn : hi < 64) (hl : lo ≤ hi) : (w.take o hi lo v).fld o hi lo = field v hi lo :=
  w.setFld_fld_same o hn hl (field_lt v hi lo)
theorem W.take_fld_other (w : W) (o : Nat) {hi lo hi' lo' : Nat} (v : W64) (hl : lo ≤ hi) (hl' : lo' ≤ hi') (h : hi' < lo ∨ hi < lo') :
    (w.take o hi lo v).fld o hi' lo' = w.fld o hi' lo' := w.setFld_fld_other o _ hl hl' h
/-- A field whose value is out of its range stays as it is. -/
theorem W.takeIf_fld_same (w : W) (o : Nat) {hi lo : Nat} (v : W64) (p : Nat → Bool) (hn : hi < 64) (hl : lo ≤ hi) :
    (w.takeIf o hi lo v p).fld o hi lo = if p (field v hi lo) then field v hi lo else w.fld o hi lo := by
  rw [W.takeIf, W.guard]
  split
  · exact w.take_fld_same o v hn hl
  · rfl
theorem W.takeIf_fld_other (w : W) (o : Nat) {hi lo hi' lo' : Nat} (v : W64) (p : Nat → Bool) (hl : lo ≤ hi) (hl' : lo' ≤ hi') (h : hi' < lo ∨ hi < lo') :
    (w.takeIf o hi lo v p).fld o hi' lo' = w.fld o hi' lo' := by
  rw [W.takeIf, W.guard]
  split
  · exact w.take_fld_other o v hl hl' h
  · rfl

/-! ## Which registers a write changes -/

/-- From w to w' only registers of a set may have changed. -/
structure W.OnlyBars (S : Nat → Prop) (w w' : W) : Prop where
  clk  : w'.clk = w.clk
  log  : w'.log = w.log
  rest : ∃ t, w'.m = { w.m with bar := t }
  bar  : ∀ j, ¬ S j → w'.bar j = w.bar j

section Only
variable {S : Nat → Prop}

theorem W.OnlyBars.refl (w : W) : w.OnlyBars S w := ⟨rfl, rfl, ⟨_, rfl⟩, fun _ _ => rfl⟩
theorem W.OnlyBars.trans {u v w : W} (a : u.OnlyBars S v) (b : v.OnlyBars S w) : u.OnlyBars S w := by
  obtain ⟨t, ht⟩ := a.rest
  obtain ⟨t', ht'⟩ := b.rest
  exact ⟨b.clk.trans a.clk, b.log.trans a.log, ⟨t', by rw [ht', ht]⟩, fun j hj => (b.bar j hj).trans (a.bar j hj)⟩
theorem W.OnlyBars.mono {T : Nat → Prop} {w w' : W} (a : w.OnlyBars S w') (h : ∀ j, S j → T j) : w.OnlyBars T w' :=
  ⟨a.clk, a.log, a.rest, fun j hj => a.bar j fun hs => hj (h j hs)⟩

theorem W.OnlyBars.mem {s : State} {w : W} (a : (W.of s).OnlyBars S w) : (w.commit s).mem = s.mem := by rw [W.commit_mem, a.log]; rfl
theorem W.OnlyBars.parts {w w' : W} (a : w.OnlyBars S w') : w'.m.parts = w.m.parts := by obtain ⟨t, ht⟩ := a.rest; rw [ht]
theorem W.OnlyBars.regions {w w' : W} (a : w.OnlyBars S w') : w'.m.regions = w.m.regions := by obtain ⟨t, ht⟩ := a.rest; rw [ht]
theorem W.OnlyBars.hub {w w' : W} (a : w.OnlyBars S w') : w'.m.hub = w.m.hub := by obtain ⟨t, ht⟩ := a.rest; rw [ht]
theorem W.OnlyBars.bus {w w' : W} (a : w.OnlyBars S w') : w'.m.bus = w.m.bus := by obtain ⟨t, ht⟩ := a.rest; rw [ht]

theorem W.OnlyBars.guard {w : W} {c : Bool} {f : W → W} (h : w.OnlyBars S (f w)) : w.OnlyBars S (w.guard c f) := by
  rw [W.guard]
  split
  · exact h
  · exact .refl w
theorem W.OnlyBars.ite {c : Prop} [Decidable c] {w a b : W} (ha : w.OnlyBars S a) (hb : w.OnlyBars S b) : w.OnlyBars S (if c then a else b) := by
  split
  · exact ha
  · exact hb
theorem W.onlyBars_foldl {α : Type} {f : W → α → W} {l : List α} (h : ∀ (w : W), ∀ a ∈ l, w.OnlyBars S (f w a)) (w : W) : w.OnlyBars S (l.foldl f w) :=
  List.foldlRecOn l f (.refl w) fun _ k a ha => k.trans (h _ a ha)

variable {o : Nat} (ho : S o)
include ho
theorem W.setBar_only (w : W) (v : W64) : w.OnlyBars S (w.setBar o v) :=
  ⟨rfl, rfl, ⟨_, rfl⟩, fun _ hj => w.setBar_bar_other v fun e => hj (e ▸ ho)⟩
theorem W.setFld_only (w : W) (hi lo x : Nat) : w.OnlyBars S (w.setFld o hi lo x) := w.setBar_only ho _
theorem W.take_only (w : W) (hi lo : Nat) (v : W64) : w.OnlyBars S (w.take o hi lo v) := w.setFld_only ho hi lo _
theorem W.takeIf_only (w : W) (hi lo : Nat) (v : W64) (p : Nat → Bool) : w.OnlyBars S (w.takeIf o hi lo v p) := .guard (w.take_only ho hi lo v)
end Only

/-! A write of one register. -/

theorem W.setBar_one (w : W) (o : Nat) (v : W64) : w.OnlyBars (· = o) (w.setBar o v) := w.setBar_only (S := (· = o)) rfl v
theorem W.setFld_one (w : W) (o hi lo x : Nat) : w.OnlyBars (· = o) (w.setFld o hi lo x) := w.setFld_only (S := (· = o)) rfl hi lo x
theorem W.take_one (w : W) (o hi lo : Nat) (v : W64) : w.OnlyBars (· = o) (w.take o hi lo v) := w.take_only (S := (· = o)) rfl hi lo v
theorem W.takeIf_one (w : W) (o hi lo : Nat) (v : W64) (p : Nat → Bool) : w.OnlyBars (· = o) (w.takeIf o hi lo v p) := w.takeIf_only (S := (· = o)) rfl hi lo v p

/-! ## Events that write registers -/

/-- An event that is enabled. -/
theorem run_enabled {s : State} {c : W → Bool} {f : W → W} (h : c (W.of s) = true) : run s (fun w => w.guard (c w) f) = .next ((f (W.of s)).commit s) := by
  simp only [run, W.guard, h, if_true]

/-- One number of a range, and those around it. -/
theorem range_split {b n : Nat} (h : b < n) : ∃ l r, List.range n = l ++ b :: r ∧ b ∉ l ∧ b ∉ r := by
  obtain ⟨l, r, he⟩ := List.append_of_mem (List.mem_range.mpr h)
  have hd := he ▸ List.nodup_range (n := n)
  rw [List.nodup_middle, List.nodup_cons, List.mem_append, not_or] at hd
  exact ⟨l, r, he, hd.1⟩

end Sys2Proof.Machine
end

section
/-! PROOFS. The host's writes of counters, masks, power registers and areas (23_host_and_command_processor.md R341 to R346; R382 to R388, R398 to R402, R416): each
event by its register's own operation. -/

namespace Sys2Proof.Machine

/-! ## Request counters (R343, R81) -/

/-- A counter is cleared, but for what this cycle has counted. -/
def W.clearCount (w : W) (o : Nat) : W := w.setBar o (BitVec.ofNat 64 (w.countedNow o))
/-- A die's three counters are, if the word written names them. -/
def W.clearReqs (w : W) (v : W64) (d : Nat) : W :=
  w.guard (v.getLsbD (48 + d)) fun w => ((w.clearCount (Bar.lreq d)).clearCount (Bar.rreqo d)).clearCount (Bar.rreqi d)

/-- The registers of a die's three counters. -/
def reqBars (d o : Nat) : Prop := o = Bar.lreq d ∨ o = Bar.rreqo d ∨ o = Bar.rreqi d

theorem W.clearReqs_only (w : W) (v : W64) (d : Nat) : w.OnlyBars (reqBars d) (w.clearReqs v d) := by
  have hl : reqBars d (Bar.lreq d) := .inl rfl
  have ho : reqBars d (Bar.rreqo d) := .inr (.inl rfl)
  have hi : reqBars d (Bar.rreqi d) := .inr (.inr rfl)
  refine .guard ?_
  exact ((W.setBar_only hl w _).trans (W.setBar_only ho _ _)).trans (W.setBar_only hi _ _)

theorem W.OnlyBars.countedNow {S : Nat → Prop} {w w' : W} (a : w.OnlyBars S w') (o : Nat) : w'.countedNow o = w.countedNow o := by
  unfold W.countedNow W.now
  rw [a.bus, a.clk]

/-- A counter that is cleared holds what this cycle has counted. -/
theorem W.clearReqs_bar (w : W) (v : W64) {d o : Nat} (hv : v.getLsbD (48 + d) = true) (ho : reqBars d o) :
    (w.clearReqs v d).bar o = BitVec.ofNat 64 (w.countedNow o) := by
  have hne : Bar.lreq d ≠ Bar.rreqo d ∧ Bar.lreq d ≠ Bar.rreqi d ∧ Bar.rreqo d ≠ Bar.rreqi d := by simp only [Bar.lreq, Bar.rreqo, Bar.rreqi]; omega
  obtain ⟨hlo, hli, hoi⟩ := hne
  simp only [W.clearReqs, W.guard, hv, if_true]
  obtain rfl | rfl | rfl := ho
  · rw [W.clearCount, W.setBar_bar_other _ _ hli, W.clearCount, W.setBar_bar_other _ _ hlo, W.clearCount, W.setBar_bar_same]
  · rw [W.clearCount, W.setBar_bar_other _ _ hoi, W.clearCount, W.setBar_bar_same]; rfl
  · rw [W.clearCount, W.setBar_bar_same]; rfl

/-- The counters of different dies, and DEV_CFG, are different registers. -/
theorem reqBars_apart {d e o : Nat} (h : reqBars d o) (he : e ≠ d) : ¬ reqBars e o ∧ o ≠ Bar.devCfg := by
  simp only [reqBars, Bar.lreq, Bar.rreqo, Bar.rreqi, Bar.devCfg] at h ⊢
  omega

/-- DEV_CFG's fields are written first, and then each die's counters. -/
theorem W.writeDevCfg_eq (w : W) (v : W64) : w.writeDevCfg v =
    (List.range 4).foldl (fun w d => w.clearReqs v d) ((w.take Bar.devCfg 47 32 v).takeIf Bar.devCfg 15 0 v (· != 0)) := rfl

/-- What a write of DEV_CFG leaves of the counters of a die: the clears of the others do not touch them. -/
theorem W.writeDevCfg_counters (w : W) (v : W64) {d : Nat} (hd : d < 4) : ∃ S T : Nat → Prop, (∀ o, reqBars d o → ¬ S o ∧ ¬ T o) ∧
    ∃ u, w.OnlyBars S u ∧ (u.clearReqs v d).OnlyBars T (w.writeDevCfg v) := by
  obtain ⟨l, r, hr, hl, hr'⟩ := range_split hd
  refine ⟨fun o => o = Bar.devCfg ∨ ∃ e ≠ d, reqBars e o, fun o => ∃ e ≠ d, reqBars e o, fun o ho => ⟨?_, ?_⟩,
    l.foldl (fun w d => w.clearReqs v d) ((w.take Bar.devCfg 47 32 v).takeIf Bar.devCfg 15 0 v (· != 0)), ?_, ?_⟩
  · rintro (h | ⟨e, he, h⟩)
    · exact (reqBars_apart ho (Nat.succ_ne_self d)).2 h
    · exact (reqBars_apart ho he).1 h
  · rintro ⟨e, he, h⟩
    exact (reqBars_apart ho he).1 h
  · refine ((W.take_only (.inl rfl) w 47 32 v).trans (W.takeIf_only (.inl rfl) _ 15 0 v _)).trans (W.onlyBars_foldl (fun w e he => ?_) _)
    exact (w.clearReqs_only v e).mono fun j hj => .inr ⟨e, fun h => hl (h ▸ he), hj⟩
  · rw [W.writeDevCfg_eq, hr, List.foldl_append, List.foldl_cons]
    exact W.onlyBars_foldl (fun w e he => (w.clearReqs_only v e).mono fun j hj => ⟨e, fun h => hr' (h ▸ he), hj⟩) _

theorem W.writeDevCfg_log (w : W) (v : W64) : (w.writeDevCfg v).log = w.log := by
  have h : w.OnlyBars (fun _ => True) (w.writeDevCfg v) := by
    rw [W.writeDevCfg_eq]
    exact ((W.take_only trivial w 47 32 v).trans (W.takeIf_only trivial _ 15 0 v _)).trans
      (W.onlyBars_foldl (fun w e _ => (w.clearReqs_only v e).mono fun _ _ => trivial) _)
  exact h.log

/-- A condition that an event adds to start-up's being complete. -/
theorem ready_and {w : W} {c : Bool} (hr : w.ready = true) (hc : c = true) : (w.ready && c) = true := by rw [hr, hc]; rfl

section Ready
variable {s : State} (hr : (W.of s).ready = true) (v : W64)
include hr

theorem reqCounterClear_eq (hv : field v 51 48 ≠ 0) : exec (.reqCounterClear v) s = .next (((W.of s).writeDevCfg v).commit s) := by
  show run s _ = _
  exact run_enabled (ready_and hr (by simpa using hv))
theorem reqCounterClear_changes (hv : field v 51 48 ≠ 0) :
    ∃ t, exec (.reqCounterClear v) s = .next t ∧ t.mem = s.mem ∧ ∀ d < 4,
      (v.getLsbD (48 + d) = true → ∀ o ∈ [Bar.lreq d, Bar.rreqo d, Bar.rreqi d], t.bar o = BitVec.ofNat 64 ((W.of s).countedNow o)) ∧
      (v.getLsbD (48 + d) = false → t.bar (Bar.lreq d) = s.bar (Bar.lreq d)) := by
  refine ⟨_, reqCounterClear_eq hr v hv, ?_, fun d hd => ?_⟩
  · rw [W.commit_mem, W.writeDevCfg_log]; rfl
  · obtain ⟨S, T, hST, u, hu, hT⟩ := (W.of s).writeDevCfg_counters v hd
    refine ⟨fun hb o ho => ?_, fun hb => ?_⟩
    · have ho : reqBars d o := by simpa [reqBars] using ho
      exact (hT.bar o (hST o ho).2).trans ((u.clearReqs_bar v hb ho).trans (by rw [hu.countedNow]))
    · have hl : reqBars d (Bar.lreq d) := .inl rfl
      have hsame : u.clearReqs v d = u := by simp only [W.clearReqs, W.guard, hb, Bool.false_eq_true, if_false]
      rw [hsame] at hT
      exact (hT.bar _ (hST _ hl).2).trans (hu.bar _ (hST _ hl).1)

end Ready
end Sys2Proof.Machine
end

section
/-! PROOFS. The host's writes of partitions' masks (23_host_and_command_processor.md R346). -/

namespace Sys2Proof.Machine

/-- A bit of a mask after a bit of it has been set. -/
theorem W.setMask_maskBit (w : W) (n q q' : Nat) (b : Bool) : (w.setMask n q b).maskBit n q' = if q' = q then b else w.maskBit n q' := by
  unfold W.maskBit W.setMask
  by_cases hw : q' / 64 = q / 64
  · rw [hw, W.setFld_bar, getLsbD_setField]
    by_cases hq : q' = q
    · subst hq
      rw [if_pos (by omega), if_pos rfl, Nat.sub_self]
      cases b <;> rfl
    · rw [if_neg (by omega), if_neg hq]
  · rw [W.setFld_bar_other _ _ _ _ (by unfold Bar.partQmask; omega), if_neg fun h => hw (congrArg (· / 64) h)]

/-- From w to w' only the mask of partition n, and its record, may have changed. -/
structure W.Masks (n : Nat) (w w' : W) : Prop where
  log     : w'.log = w.log
  regions : w'.m.regions = w.m.regions
  sectors : w'.m.sectors = w.m.sectors
  bar     : ∀ j, (∀ i < 3, j ≠ Bar.partQmask n i) → w'.bar j = w.bar j

theorem W.Masks.refl (n : Nat) (w : W) : w.Masks n w := ⟨rfl, rfl, rfl, fun _ _ => rfl⟩
theorem W.Masks.trans {n : Nat} {u v w : W} (a : u.Masks n v) (b : v.Masks n w) : u.Masks n w :=
  ⟨b.log.trans a.log, b.regions.trans a.regions, b.sectors.trans a.sectors, fun j hj => (b.bar j hj).trans (a.bar j hj)⟩
theorem W.setMask_masks (w : W) (n : Nat) {q : Nat} (b : Bool) (hq : q < 160) : w.Masks n (w.setMask n q b) :=
  ⟨rfl, rfl, rfl, fun _ hj => w.setFld_bar_other _ _ _ (hj (q / 64) (by omega))⟩
theorem W.setPart_masks (w : W) (n : Nat) (f : Part → Part) : w.Masks n (w.setPart n f) := ⟨rfl, rfl, rfl, fun _ _ => rfl⟩

theorem W.Masks.quadRegion {n : Nat} {w w' : W} (a : w.Masks n w') (q : Nat) : w'.quadRegion q = w.quadRegion q := by
  simp only [W.quadRegion, a.regions]
theorem W.Masks.quadFenced {n : Nat} {w w' : W} (a : w.Masks n w') (q : Nat) : w'.quadFenced q = w.quadFenced q := by
  simp only [W.quadFenced, W.sector, a.sectors]
/-- A mask's write is no other partition's: what the others hold stands. -/
theorem W.Masks.quadHeld {n : Nat} {w w' : W} (a : w.Masks n w') {q : Nat} (hq : q < 160) : w'.quadHeld n q = w.quadHeld n q := by
  unfold W.quadHeld
  refine congrArg (List.any _) (funext fun m => ?_)
  by_cases hm : m = n
  · simp [hm]
  · have hctl : w'.bar (Bar.partCtl m) = w.bar (Bar.partCtl m) := a.bar _ fun i hi => by simp only [Bar.partQmask, Bar.partCtl]; omega
    have hmask : w'.bar (Bar.partQmask m (q / 64)) = w.bar (Bar.partQmask m (q / 64)) := a.bar _ fun i hi => by simp only [Bar.partQmask, Bar.partCtl]; omega
    simp only [W.enabled, W.maskBit, hctl, hmask]

/-- A bit that a write would set stays clear where another partition holds the quad or a sector of it is fenced; one that it would clear under a region of the
partition waits for the region. -/
theorem W.writeMaskBit_cases (w : W) (n q : Nat) (b : Bool) :
    (∃ f, b = true ∧ w.quadHeld n q = false ∧ w.quadFenced q = false ∧ w.writeMaskBit n q b = (w.setMask n q true).setPart n f) ∨
    (∃ f x, (b = false ∨ w.quadHeld n q = true ∨ w.quadFenced q = true) ∧ w.quadRegion q = some x ∧ w.writeMaskBit n q b = w.setPart n f) ∨
    ((b = false ∨ w.quadHeld n q = true ∨ w.quadFenced q = true) ∧ w.writeMaskBit n q b = w.setMask n q false) := by
  unfold W.writeMaskBit
  dsimp only
  split
  · rename_i h
    simp only [Bool.and_eq_true, Bool.not_eq_true'] at h
    exact .inl ⟨_, h.1.1, h.1.2, h.2, rfl⟩
  · rename_i h
    have hc : b = false ∨ w.quadHeld n q = true ∨ w.quadFenced q = true := by
      revert h
      cases b <;> cases w.quadHeld n q <;> cases w.quadFenced q <;> decide
    cases hr : w.quadRegion q with
    | none => exact .inr (.inr ⟨hc, by simp⟩)
    | some x =>
      by_cases hm : (w.maskBit n q && x.2.part == n) = true
      · exact .inr (.inl ⟨_, x, hc, rfl, if_pos hm⟩)
      · exact .inr (.inr ⟨hc, if_neg hm⟩)

theorem W.writeMaskBit_masks (w : W) (n : Nat) {q : Nat} (b : Bool) (hq : q < 160) : w.Masks n (w.writeMaskBit n q b) := by
  obtain ⟨f, -, -, -, h⟩ | ⟨f, x, -, -, h⟩ | ⟨-, h⟩ := w.writeMaskBit_cases n q b <;> rw [h]
  · exact (w.setMask_masks n true hq).trans (W.setPart_masks _ n f)
  · exact w.setPart_masks n f
  · exact w.setMask_masks n false hq
theorem W.writeMaskBit_other (w : W) (n : Nat) {q q' : Nat} (b : Bool) (hq : q' ≠ q) : (w.writeMaskBit n q b).maskBit n q' = w.maskBit n q' := by
  obtain ⟨f, -, -, -, h⟩ | ⟨f, x, -, -, h⟩ | ⟨-, h⟩ := w.writeMaskBit_cases n q b <;> rw [h]
  · exact (w.setMask_maskBit n q q' true).trans (if_neg hq)
  · rfl
  · exact (w.setMask_maskBit n q q' false).trans (if_neg hq)
theorem W.writeMaskBit_sets (w : W) (n q : Nat) (hh : w.quadHeld n q = false) (hf : w.quadFenced q = false) : (w.writeMaskBit n q true).maskBit n q = true := by
  obtain ⟨f, -, -, -, h⟩ | ⟨f, x, hc, -, -⟩ | ⟨hc, -⟩ := w.writeMaskBit_cases n q true
  · rw [h]; exact (w.setMask_maskBit n q q true).trans (if_pos rfl)
  all_goals simp [hh, hf] at hc
theorem W.writeMaskBit_clears (w : W) (n q : Nat) {b : Bool} (hb : b = false ∨ w.quadHeld n q = true) (hr : ∀ x, w.quadRegion q ≠ some x) :
    (w.writeMaskBit n q b).maskBit n q = false := by
  obtain ⟨f, ht, hh, -, -⟩ | ⟨f, x, -, hx, -⟩ | ⟨-, h⟩ := w.writeMaskBit_cases n q b
  · simp [ht, hh] at hb
  · exact absurd hx (hr x)
  · rw [h]; exact (w.setMask_maskBit n q q false).trans (if_pos rfl)

/-- A word's write takes its bits one after another; each is a quad's own. -/
def W.maskStep (w : W) (n i : Nat) (v : W64) (b : Nat) : W :=
  w.guard (decide (64 * i + b < 160)) fun w => w.writeMaskBit n (64 * i + b) (v.getLsbD b)
theorem W.writeQmask_eq (w : W) (n i : Nat) (v : W64) : w.writeQmask n i v = (List.range 64).foldl (fun w b => w.maskStep n i v b) w := rfl

theorem W.maskStep_masks (w : W) (n i : Nat) (v : W64) (b : Nat) : w.Masks n (w.maskStep n i v b) := by
  unfold W.maskStep W.guard
  split
  · rename_i h
    exact w.writeMaskBit_masks n _ (of_decide_eq_true h)
  · exact .refl n w
theorem W.maskStep_other (w : W) (n i : Nat) (v : W64) {b c : Nat} (h : c ≠ b) : (w.maskStep n i v c).maskBit n (64 * i + b) = w.maskBit n (64 * i + b) := by
  unfold W.maskStep W.guard
  split
  · exact w.writeMaskBit_other n _ (by omega)
  · rfl
theorem W.maskSteps_masks (w : W) (n i : Nat) (v : W64) (l : List Nat) : w.Masks n (l.foldl (fun w b => w.maskStep n i v b) w) :=
  List.foldlRecOn l _ (.refl n w) fun _ h b _ => h.trans (W.maskStep_masks _ n i v b)
theorem W.maskSteps_other (w : W) (n i : Nat) (v : W64) {b : Nat} {l : List Nat} (h : b ∉ l) :
    (l.foldl (fun w b => w.maskStep n i v b) w).maskBit n (64 * i + b) = w.maskBit n (64 * i + b) :=
  List.foldlRecOn (motive := fun u : W => u.maskBit n (64 * i + b) = w.maskBit n (64 * i + b)) l _ rfl fun u hu c hc =>
    (u.maskStep_other n i v fun (e : c = b) => h (e ▸ hc)).trans hu

/-- A quad's bit after a word's write is what its own step leaves, in a state that shows the same of the others. -/
theorem W.writeQmask_bit (w : W) (n i : Nat) (v : W64) {b : Nat} (hb : b < 64) (hq : 64 * i + b < 160) :
    ∃ u, w.Masks n u ∧ (w.writeQmask n i v).maskBit n (64 * i + b) = (u.writeMaskBit n (64 * i + b) (v.getLsbD b)).maskBit n (64 * i + b) := by
  obtain ⟨l, r, hr, hl, hr'⟩ := range_split hb
  refine ⟨_, w.maskSteps_masks n i v l, ?_⟩
  have hstep (u : W) : u.maskStep n i v b = u.writeMaskBit n (64 * i + b) (v.getLsbD b) := by simp only [W.maskStep, W.guard, hq, decide_true, if_true]
  rw [W.writeQmask_eq, hr, List.foldl_append, List.foldl_cons, W.maskSteps_other _ n i v hr', hstep]

theorem qmaskWrite_eq {s : State} (hr : (W.of s).ready = true) (v : W64) {n i : Nat} (hn : n < 16) (hi : i < 3) :
    exec (.qmaskWrite n i v) s = .next (((W.of s).writeQmask n i v).commit s) := by
  show run s _ = _
  exact run_enabled (ready_and hr (decide_eq_true ⟨hn, hi⟩))
theorem qmaskWrite_changes {s : State} (hr : (W.of s).ready = true) (v : W64) {n i : Nat} (hn : n < 16) (hi : i < 3) :
    ∃ t, exec (.qmaskWrite n i v) s = .next t ∧ t.mem = s.mem ∧ t.m.regions = s.m.regions ∧ ∀ b < 64, ∀ q, q = 64 * i + b → q < 160 →
      (v.getLsbD b = true → (W.of s).quadHeld n q = false → (W.of s).quadFenced q = false → (W.of t).maskBit n q = true) ∧
      (v.getLsbD b = true → (W.of s).quadHeld n q = true → (∀ x, (W.of s).quadRegion q ≠ some x) → (W.of t).maskBit n q = false) ∧
      (v.getLsbD b = false → (∀ x, (W.of s).quadRegion q ≠ some x) → (W.of t).maskBit n q = false) := by
  have hall : (W.of s).Masks n ((W.of s).writeQmask n i v) := (W.of s).maskSteps_masks n i v _
  refine ⟨_, qmaskWrite_eq hr v hn hi, by rw [W.commit_mem, hall.log]; rfl, hall.regions, ?_⟩
  rintro b hb q rfl hq
  obtain ⟨u, hu, hbit⟩ := (W.of s).writeQmask_bit n i v hb hq
  rw [← hu.quadHeld hq, ← hu.quadFenced, ← hu.quadRegion]
  have hbit : (W.of (((W.of s).writeQmask n i v).commit s)).maskBit n (64 * i + b) = _ := hbit
  rw [hbit]
  refine ⟨fun hv hh hf => ?_, fun hv hh hr => u.writeMaskBit_clears n _ (.inr hh) hr, fun hv hr => u.writeMaskBit_clears n _ (.inl hv) hr⟩
  rw [hv]
  exact u.writeMaskBit_sets n _ hh hf

end Sys2Proof.Machine
end

section
/-! PROOFS. The host's writes of power registers, counters, areas and links (23_host_and_command_processor.md R341; R359, R382 to R388, R398 to R402, R416, R420): each
event by its register's own operation. -/

namespace Sys2Proof.Machine

/-! ## What does not touch registers -/

theorem W.revoteAll_bar (w : W) (qs : List Nat) : (w.revoteAll qs).m.bar = w.m.bar :=
  List.foldlRecOn (motive := fun v : W => v.m.bar = w.m.bar) qs _ rfl fun _ h _ _ => h
theorem W.endHolds_stands (w : W) (d : Nat) : (w.endHolds d).log = w.log ∧ (w.endHolds d).m.bar = w.m.bar := by
  unfold W.endHolds
  generalize List.range 160 = l
  refine List.foldlRecOn (motive := fun v : W => v.log = w.log ∧ v.m.bar = w.m.bar) l _ ⟨rfl, rfl⟩ fun v h k _ => ?_
  dsimp only
  split <;> exact h
theorem W.bar_of {w w' : W} (h : w'.m.bar = w.m.bar) (o : Nat) : w'.bar o = w.bar o := by rw [W.bar, W.bar, h]

/-- A change of the package limit triggers every running region. -/
theorem W.limitChanged_triggers (s : State) {w : W} {k : Nat} {g : Region} (h : tget w.m.regions k = some g) (hg : g.runs = true) :
    ((w.limitChanged.commit s).region k).trigger = true := by
  have hsame : (w.limitChanged.commit s).region k = ((w.triggerSolve fun _ g => g.runs || g.phase == .unsolved).commit s).region k := rfl
  rw [hsame]
  exact triggered_region s h (by simp [hg])

/-- RAIL_CFG's fields as they are written. -/
def W.railFields (w : W) (d : Nat) (v : W64) : W :=
  ((w.takeIf (Bar.railCfg d) 15 12 v fun n => decide (2 ≤ n ∧ n ≤ 6)).take (Bar.railCfg d) 8 8 v).take (Bar.railCfg d) 1 0 v
/-- What follows the fields of RAIL_CFG is no register's. -/
theorem W.writeRailCfg_stands (w : W) (d : Nat) (v : W64) : (w.writeRailCfg d v).log = (w.railFields d v).log ∧
    (w.writeRailCfg d v).m.bar = (w.railFields d v).m.bar := by
  have hends : ∀ c : Prop, [Decidable c] → (if c then w.railFields d v else (w.railFields d v).endHolds d).log = (w.railFields d v).log ∧
      (if c then w.railFields d v else (w.railFields d v).endHolds d).m.bar = (w.railFields d v).m.bar := fun c _ => by
    split
    · exact ⟨rfl, rfl⟩
    · exact (w.railFields d v).endHolds_stands d
  have hvotes (c : Prop) [Decidable c] (u : W) (l : List Nat) : (if c then u else u.revoteAll l).log = u.log ∧ (if c then u else u.revoteAll l).m.bar = u.m.bar := by
    split
    · exact ⟨rfl, rfl⟩
    · exact ⟨(u.revoteAll_stands l).1, u.revoteAll_bar l⟩
  obtain ⟨hl, hb⟩ := hends ((w.bar (Bar.railCfg d)).getLsbD 8 = ((w.railFields d v).bar (Bar.railCfg d)).getLsbD 8)
  exact ⟨(hvotes _ _ _).1.trans hl, (hvotes _ _ _).2.trans hb⟩

/-- The ramp table is checked by its neighbours. -/
theorem slewOk_iff (v : W64) : slewOk v = true ↔ ∀ e < 7, field v (2 * e + 1) (2 * e) ≤ field v (2 * e + 3) (2 * e + 2) := by
  simp [slewOk, List.all_eq_true]
/-- Ramps that start on this edge are the region's, not a register. -/
theorem W.writeSlew_stands (w : W) (q : Nat) {v : W64} (h : slewOk v = true) : (w.writeSlew q v).log = w.log ∧
    (w.writeSlew q v).m.bar = (w.take (Bar.slewTab q) 15 0 v).m.bar := by
  unfold W.writeSlew
  rw [h, Bool.not_true, if_neg Bool.false_ne_true]
  dsimp only
  split <;> exact ⟨rfl, rfl⟩

/-- An event that sets a register to x. -/
theorem W.setBar_changes (s : State) (o : Nat) (x : W64) : (((W.of s).setBar o x).commit s).mem = s.mem ∧ (((W.of s).setBar o x).commit s).bar o = x ∧
    ∀ p, p ≠ o → (((W.of s).setBar o x).commit s).bar p = s.bar p :=
  ⟨rfl, (W.of s).setBar_bar_same o x, fun _ hp => (W.of s).setBar_bar_other x hp⟩

section Ready
variable {s : State} (hr : (W.of s).ready = true) (v : W64)
include hr

/-! ## Power (R382 to R388) -/

theorem pkgPlimWrite_eq : exec (.pkgPlimWrite v) s = .next (((W.of s).writePlim v).commit s) := by
  show run s _ = _
  exact run_enabled hr
theorem pkgPlimWrite_changes : ∃ t, exec (.pkgPlimWrite v) s = .next t ∧ t.mem = s.mem ∧
    field (t.bar Bar.pkgPlim) 11 0 = (if 1000 ≤ field v 11 0 ∧ field v 11 0 ≤ 2400 then field v 11 0 else field (s.bar Bar.pkgPlim) 11 0) ∧
    (1000 ≤ field v 11 0 → field v 11 0 ≤ 2400 → field v 11 0 ≠ field (s.bar Bar.pkgPlim) 11 0 →
      ∀ k g, tget s.m.regions k = some g → g.runs = true → (t.region k).trigger = true) := by
  refine ⟨_, pkgPlimWrite_eq hr v, ?_⟩
  unfold W.writePlim W.guard
  dsimp only
  by_cases hin : 1000 ≤ field v 11 0 ∧ field v 11 0 ≤ 2400
  · rw [if_pos (decide_eq_true hin), if_pos hin]
    by_cases hsame : (W.of s).fld Bar.pkgPlim 11 0 = field v 11 0
    · rw [if_pos hsame]
      exact ⟨rfl, hsame, fun _ _ hne => absurd hsame.symm hne⟩
    · rw [if_neg hsame]
      exact ⟨rfl, (W.of s).setFld_fld_same _ (by decide) (by decide) (field_lt v 11 0),
        fun _ _ _ _ _ hg hrun => ((W.of s).setFld Bar.pkgPlim 11 0 (field v 11 0)).limitChanged_triggers s hg hrun⟩
  · rw [if_neg (by simpa using hin), if_neg hin]
    exact ⟨rfl, rfl, fun h1 h2 => absurd ⟨h1, h2⟩ hin⟩

theorem partPcapWrite_eq {n : Nat} (hn : n < 16) : exec (.partPcapWrite n v) s = .next (((W.of s).writePcap n v).commit s) := by
  show run s _ = _
  exact run_enabled (ready_and hr (decide_eq_true hn))
theorem partPcapWrite_changes {n : Nat} (hn : n < 16) : ∃ t, exec (.partPcapWrite n v) s = .next t ∧ t.mem = s.mem ∧
    field (t.bar (Bar.partPcap n)) 11 0 = field v 11 0 ∧
    ∀ k g, tget s.m.regions k = some g → g.part = n → g.runs = true → (t.region k).trigger = true := by
  refine ⟨_, partPcapWrite_eq hr v hn, rfl, (W.of s).take_fld_same _ v (by decide) (by decide), fun k g hg hp hrun => ?_⟩
  exact triggered_region s (w := ((W.of s).take (Bar.partPcap n) 11 0 v).setPart n fun p => { p with scaleN := 1, scaleD := 1, overCap := 0 }) hg (by simp [hp, hrun])

theorem partEnergyWrite_eq {n : Nat} (hn : n < 16) : exec (.partEnergyWrite n v) s = .next (((W.of s).setBar (Bar.partEnergy n) 0).commit s) := by
  show run s _ = _
  exact run_enabled (ready_and hr (decide_eq_true hn))
theorem partCreditWrite_eq {n : Nat} (hn : n < 16) : exec (.partCreditWrite n v) s = .next (((W.of s).setBar (Bar.partCredit n) 0).commit s) := by
  show run s _ = _
  exact run_enabled (ready_and hr (decide_eq_true hn))

theorem railCfgWrite_eq {d : Nat} (hd : d < 4) : exec (.railCfgWrite d v) s = .next (((W.of s).writeRailCfg d v).commit s) := by
  show run s _ = _
  exact run_enabled (ready_and hr (decide_eq_true hd))
theorem inrushStatWrite_eq {d : Nat} (hd : d < 4) : exec (.inrushStatWrite d v) s = .next (((W.of s).setFld (Bar.inrushStat d) 47 16 0).commit s) := by
  show run s _ = _
  exact run_enabled (ready_and hr (decide_eq_true hd))
theorem inrushStatWrite_changes {d : Nat} (hd : d < 4) : ∃ t, exec (.inrushStatWrite d v) s = .next t ∧ t.mem = s.mem ∧ field (t.bar (Bar.inrushStat d)) 47 16 = 0 :=
  ⟨_, inrushStatWrite_eq hr v hd, rfl, (W.of s).setFld_fld_same _ (by decide) (by decide) (by decide)⟩

theorem railCfgWrite_changes {d : Nat} (hd : d < 4) : ∃ t, exec (.railCfgWrite d v) s = .next t ∧ t.mem = s.mem ∧
    field (t.bar (Bar.railCfg d)) 1 0 = field v 1 0 ∧ (t.bar (Bar.railCfg d)).getLsbD 8 = v.getLsbD 8 ∧
    field (t.bar (Bar.railCfg d)) 15 12 = if 2 ≤ field v 15 12 ∧ field v 15 12 ≤ 6 then field v 15 12 else field (s.bar (Bar.railCfg d)) 15 12 := by
  obtain ⟨hlog, hbar⟩ := (W.of s).writeRailCfg_stands d v
  have honly : (W.of s).OnlyBars (· = Bar.railCfg d) ((W.of s).railFields d v) :=
    ((W.takeIf_one _ _ 15 12 v _).trans (W.take_one _ _ 8 8 v)).trans (W.take_one _ _ 1 0 v)
  have hreg : (((W.of s).writeRailCfg d v).commit s).bar (Bar.railCfg d) = ((W.of s).railFields d v).bar (Bar.railCfg d) := W.bar_of hbar _
  refine ⟨_, railCfgWrite_eq hr v hd, by rw [W.commit_mem, hlog, honly.log]; rfl, ?_⟩
  rw [hreg]
  refine ⟨W.take_fld_same _ _ v (by decide) (by decide), ?_, ?_⟩
  · rw [W.railFields, W.take_bit _ _ v 8 (by decide) (by decide), if_neg (by decide), W.take_bit _ _ v 8 (by decide) (by decide), if_pos (by decide)]
  · refine (W.take_fld_other _ _ v (by decide) (by decide) (by decide)).trans ((W.take_fld_other _ _ v (by decide) (by decide) (by decide)).trans ?_)
    exact (W.takeIf_fld_same _ _ v _ (by decide) (by decide)).trans (by simp only [decide_eq_true_eq]; rfl)

theorem slewTabWrite_eq {q : Nat} (hq : q < 160) : exec (.slewTabWrite q v) s = .next (((W.of s).writeSlew q v).commit s) := by
  show run s _ = _
  exact run_enabled (ready_and hr (decide_eq_true hq))
theorem slewTabWrite_changes {q : Nat} (hq : q < 160) (hv : ∀ e < 7, field v (2 * e + 1) (2 * e) ≤ field v (2 * e + 3) (2 * e + 2)) :
    ∃ t, exec (.slewTabWrite q v) s = .next t ∧ t.mem = s.mem ∧ field (t.bar (Bar.slewTab q)) 15 0 = field v 15 0 := by
  obtain ⟨hlog, hbar⟩ := (W.of s).writeSlew_stands q ((slewOk_iff v).mpr hv)
  have hreg : (((W.of s).writeSlew q v).commit s).bar (Bar.slewTab q) = ((W.of s).take (Bar.slewTab q) 15 0 v).bar (Bar.slewTab q) := W.bar_of hbar _
  exact ⟨_, slewTabWrite_eq hr v hq, by rw [W.commit_mem, hlog]; rfl, by rw [hreg]; exact W.take_fld_same _ _ v (by decide) (by decide)⟩
theorem slewTabWrite_refused {q e : Nat} (hq : q < 160) (he : e < 7) (hv : field v (2 * e + 3) (2 * e + 2) < field v (2 * e + 1) (2 * e)) :
    exec (.slewTabWrite q v) s = .next s := by
  have hbad : slewOk v = false := by
    rw [← Bool.not_eq_true, slewOk_iff]
    exact fun h => absurd (h e he) (Nat.not_le.mpr hv)
  rw [slewTabWrite_eq hr v hq, W.writeSlew, hbad, Bool.not_false, if_pos rfl, W.of_commit]

/-! ## Counters and temperatures (R388, R400, R416) -/

theorem quadCounterWrite_eq {q k : Nat} (hq : q < 160) (hk : k < 4) : exec (.quadCounterWrite q k v) s = .next (((W.of s).clearQuad q k).commit s) := by
  show run s _ = _
  exact run_enabled (ready_and hr (decide_eq_true ⟨hq, hk⟩))
theorem pmcWrite_eq {q i : Nat} (hq : q < 160) (hi : i < 8) : exec (.pmcWrite q i v) s = .next (((W.of s).writePmc q i v).commit s) := by
  show run s _ = _
  exact run_enabled (ready_and hr (decide_eq_true ⟨hq, hi⟩))
theorem pmcWrite_counts {q i : Nat} (hq : q < 160) (hi : i < 8) (he : field (s.bar (Bar.pmsel q)) (8 * i + 7) (8 * i) ≤ 15) :
    exec (.pmcWrite q i v) s = .next (((W.of s).setBar (Bar.pmc q i) (BitVec.ofNat 64 (v.toNat % 0xFFFFFFFFFFFFFFF0))).commit s) := by
  have hcounts : pmcCountable ((W.of s).fld (Bar.pmsel q) (8 * i + 7) (8 * i)) = true := decide_eq_true he
  rw [pmcWrite_eq hr v hq hi, W.writePmc, W.guard, if_pos hcounts]
  rfl
theorem pmcWrite_ignored {q i : Nat} (hq : q < 160) (hi : i < 8) (he : 15 < field (s.bar (Bar.pmsel q)) (8 * i + 7) (8 * i)) :
    exec (.pmcWrite q i v) s = .next s := by
  have hcounts : pmcCountable ((W.of s).fld (Bar.pmsel q) (8 * i + 7) (8 * i)) = false := decide_eq_false (Nat.not_le.mpr he)
  rw [pmcWrite_eq hr v hq hi, W.writePmc, W.guard, hcounts, if_neg Bool.false_ne_true, W.of_commit]

theorem tempWrite_eq {d : Nat} (hd : d < 5) : exec (.tempWrite d v) s = .next (((W.of s).writeTemp d v).commit s) := by
  show run s _ = _
  exact run_enabled (ready_and hr (decide_eq_true hd))
theorem tempWrite_changes {d : Nat} (hd : d < 5) : ∃ t, exec (.tempWrite d v) s = .next t ∧ t.mem = s.mem ∧
    field (t.bar (Bar.temp d)) 15 0 = field (s.bar (Bar.temp d)) 15 0 ∧ field (t.bar (Bar.temp d)) 31 16 = field (s.bar (Bar.temp d)) 15 0 ∧
    field (t.bar (Bar.temp d)) 47 32 = if 480 ≤ field v 47 32 ∧ field v 47 32 ≤ 880 then field v 47 32 else field (s.bar (Bar.temp d)) 47 32 := by
  have honly : (W.of s).OnlyBars (· = Bar.temp d) ((W.of s).writeTemp d v) := (W.takeIf_one _ _ 47 32 v _).trans (W.setFld_one _ _ 31 16 _)
  have hnow : ((W.of s).takeIf (Bar.temp d) 47 32 v fun n => decide (480 ≤ n ∧ n ≤ 880)).fld (Bar.temp d) 15 0 = (W.of s).fld (Bar.temp d) 15 0 :=
    W.takeIf_fld_other _ _ v _ (by decide) (by decide) (by decide)
  refine ⟨_, tempWrite_eq hr v hd, honly.mem, ?_, ?_, ?_⟩
  · exact (W.setFld_fld_other _ _ _ (by decide) (by decide) (by decide)).trans hnow
  · exact (W.setFld_fld_same _ _ (by decide) (by decide) (field_lt _ 15 0))
  · refine (W.setFld_fld_other _ _ _ (by decide) (by decide) (by decide)).trans ((W.takeIf_fld_same _ _ v _ (by decide) (by decide)).trans ?_)
    simp only [decide_eq_true_eq]
    rfl

/-! ## Areas (R359, R397, R398, R420) -/

theorem areaWrite_eq {n : Nat} (hn : n < 16) : ∀ p ∈ ([(.partStopWrite n v, Bar.partStop n), (.errLogWrite v, Bar.errLog), (.partTraceWrite n v, Bar.partTrace n), (.partHoistWrite n v, Bar.partHoist n)] : List (Instr × Nat)),
    exec p.1 s = .next (((W.of s).writeArea p.2 v).commit s) := by
  have hc := ready_and hr (decide_eq_true hn)
  simp only [List.forall_mem_cons, List.not_mem_nil, false_implies, implies_true, and_true]
  refine ⟨?_, ?_, ?_, ?_⟩ <;> show run s _ = _
  · exact run_enabled hc
  · exact run_enabled hr
  · exact run_enabled hc
  · exact run_enabled hc

omit hr in
theorem W.writeArea_only (w : W) (o : Nat) : w.OnlyBars (· = o) (w.writeArea o v) :=
  (((W.takeIf_one _ _ 63 60 v _).trans (W.take_one _ _ 55 12 v)).trans (W.setFld_one _ _ 59 58 0)).trans (W.setFld_one _ _ 11 0 0)

omit hr in
theorem W.writeArea_fields (w : W) (o : Nat) : (w.writeArea o v).fld o 55 12 = field v 55 12 ∧ (w.writeArea o v).fld o 59 58 = 0 ∧ (w.writeArea o v).fld o 11 0 = 0 ∧
    (w.writeArea o v).fld o 63 60 = if field v 63 60 ≤ 7 then field v 63 60 else w.fld o 63 60 := by
  unfold W.writeArea
  refine ⟨?_, ?_, ?_, ?_⟩
  · rw [W.setFld_fld_other _ _ _ (by decide) (by decide) (by decide), W.setFld_fld_other _ _ _ (by decide) (by decide) (by decide), W.take_fld_same _ _ _ (by decide) (by decide)]
  · rw [W.setFld_fld_other _ _ _ (by decide) (by decide) (by decide), W.setFld_fld_same _ _ (by decide) (by decide) (by decide)]
  · rw [W.setFld_fld_same _ _ (by decide) (by decide) (by decide)]
  · rw [W.setFld_fld_other _ _ _ (by decide) (by decide) (by decide), W.setFld_fld_other _ _ _ (by decide) (by decide) (by decide),
      W.take_fld_other _ _ _ (by decide) (by decide) (by decide), W.takeIf_fld_same _ _ _ _ (by decide) (by decide)]
    simp only [decide_eq_true_eq]

theorem areaWrite_changes {n : Nat} (hn : n < 16) (i : Instr) (o : Nat) 
    (h : (i, o) ∈ ([(.partStopWrite n v, Bar.partStop n), (.errLogWrite v, Bar.errLog), (.partTraceWrite n v, Bar.partTrace n), (.partHoistWrite n v, Bar.partHoist n)] : List (Instr × Nat))) :
    ∃ t, exec i s = .next t ∧ t.mem = s.mem ∧ t.m.parts = s.m.parts ∧ field (t.bar o) 55 12 = field v 55 12 ∧ field (t.bar o) 59 58 = 0 ∧ field (t.bar o) 11 0 = 0 ∧
      field (t.bar o) 63 60 = (if field v 63 60 ≤ 7 then field v 63 60 else field (s.bar o) 63 60) ∧ ∀ j, j ≠ o → t.bar j = s.bar j := by
  have honly := (W.of s).writeArea_only v o
  obtain ⟨hbase, hflags, hcount, hsize⟩ := (W.of s).writeArea_fields v o
  exact ⟨_, areaWrite_eq hr v hn _ h, honly.mem, honly.parts, hbase, hflags, hcount, hsize, honly.bar⟩

end Ready
end Sys2Proof.Machine
end

section
/-! PROOFS. The host's writes of PART_DBG, of DEV_LOC and of LINK_ERR (27_debug_trace.md R398, R399; 28_links_and_collectives.md R402). -/

namespace Sys2Proof.Machine

/-! ## PART_DBG bit by bit (R399) -/

theorem W.takeIf_bit (w : W) (o : Nat) {hi lo : Nat} (v : W64) (p : Nat → Bool) (i : Nat) (hn : hi < 64) (hl : lo ≤ hi) :
    ((w.takeIf o hi lo v p).bar o).getLsbD i = if p (field v hi lo) = true ∧ lo ≤ i ∧ i ≤ hi then v.getLsbD i else (w.bar o).getLsbD i := by
  unfold W.takeIf W.guard
  by_cases hp : p (field v hi lo) = true
  · simp only [hp, if_true, true_and, w.take_bit o v i hn hl]
  · simp only [hp, Bool.false_eq_true, if_false, false_and]

/-- A flag that a 1 clears. -/
theorem W.clearFlag_bit (w : W) (o k i : Nat) (c : Bool) : ((w.guard c fun w => w.setFld o k k 0).bar o).getLsbD i = ((w.bar o).getLsbD i && !(decide (i = k) && c)) := by
  unfold W.guard
  cases c with
  | false => simp
  | true =>
    rw [if_pos rfl, W.setFld_bar, getLsbD_setField]
    by_cases hik : i = k
    · subst hik
      by_cases hi : i < 64
      · simp [hi]
      · simp [BitVec.getLsbD_of_ge _ _ (Nat.le_of_not_lt hi)]
    · rw [if_neg (by omega)]
      simp [hik]

/-- PART_DBG's region and version, which an armed register keeps. -/
def W.dbgTarget (w : W) (o : Nat) (v : W64) : W := if (w.bar o).getLsbD 0 then w else (w.take o 47 40 v).take o 39 8 v
theorem W.dbgTarget_bit (w : W) (o : Nat) (v : W64) (i : Nat) :
    ((w.dbgTarget o v).bar o).getLsbD i = if (w.bar o).getLsbD 0 = false ∧ 8 ≤ i ∧ i ≤ 47 then v.getLsbD i else (w.bar o).getLsbD i := by
  unfold W.dbgTarget
  cases (w.bar o).getLsbD 0 with
  | true => simp
  | false =>
    rw [if_neg Bool.false_ne_true, W.take_bit _ _ _ _ (by decide) (by decide), W.take_bit _ _ _ _ (by decide) (by decide)]
    by_cases hlow : 8 ≤ i ∧ i ≤ 39
    · rw [if_pos hlow, if_pos ⟨rfl, by omega⟩]
    · by_cases hhigh : 40 ≤ i ∧ i ≤ 47
      · rw [if_neg hlow, if_pos hhigh, if_pos ⟨rfl, by omega⟩]
      · rw [if_neg hlow, if_neg hhigh, if_neg fun h => by omega]

theorem W.writePartDbg_eq (w : W) (n : Nat) (v : W64) : w.writePartDbg n v =
    (((((w.dbgTarget (Bar.partDbg n) v).takeIf (Bar.partDbg n) 7 3 v (decide <| · ≤ 24)).guard (v.getLsbD 2) fun w => w.setFld (Bar.partDbg n) 2 2 0).guard
      (v.getLsbD 1) fun w => w.setFld (Bar.partDbg n) 1 1 0)).take (Bar.partDbg n) 0 0 v := rfl

theorem W.writePartDbg_only (w : W) (n : Nat) (v : W64) : w.OnlyBars (· = Bar.partDbg n) (w.writePartDbg n v) := by
  rw [W.writePartDbg_eq]
  have htarget : w.OnlyBars (· = Bar.partDbg n) (w.dbgTarget (Bar.partDbg n) v) := .ite (.refl w) ((w.take_one _ 47 40 v).trans (W.take_one _ _ 39 8 v))
  exact ((((htarget.trans (W.takeIf_one _ _ 7 3 v _)).trans (.guard (W.setFld_one _ _ 2 2 0))).trans (.guard (W.setFld_one _ _ 1 1 0)))).trans (W.take_one _ _ 0 0 v)

/-- Each bit of PART_DBG after a write. -/
theorem W.writePartDbg_bit (w : W) (n : Nat) (v : W64) (i : Nat) : ((w.writePartDbg n v).bar (Bar.partDbg n)).getLsbD i =
    if i = 0 then v.getLsbD 0 else if i = 1 then (w.bar (Bar.partDbg n)).getLsbD 1 && !v.getLsbD 1 else if i = 2 then (w.bar (Bar.partDbg n)).getLsbD 2 && !v.getLsbD 2
    else if i ≤ 7 then (if 3 ≤ i ∧ field v 7 3 ≤ 24 then v.getLsbD i else (w.bar (Bar.partDbg n)).getLsbD i)
    else if (w.bar (Bar.partDbg n)).getLsbD 0 = false ∧ i ≤ 47 then v.getLsbD i else (w.bar (Bar.partDbg n)).getLsbD i := by
  rw [W.writePartDbg_eq, W.take_bit _ _ _ _ (by decide) (by decide), W.clearFlag_bit, W.clearFlag_bit, W.takeIf_bit _ _ _ _ _ (by decide) (by decide), W.dbgTarget_bit]
  simp only [decide_eq_true_eq]
  by_cases h0 : i = 0
  · subst h0; simp
  by_cases h1 : i = 1
  · subst h1; simp
  by_cases h2 : i = 2
  · subst h2; simp
  have h3 : 3 ≤ i := by omega
  simp only [h0, h1, h2, h3, if_false, decide_false, Bool.false_and, Bool.not_false, Bool.and_true, true_and, Nat.le_zero, and_false]
  by_cases h7 : i ≤ 7
  · have h8 : ¬ 8 ≤ i := by omega
    simp only [h7, h8, and_true, if_true, false_and, and_false, if_false]
  · have h8 : 8 ≤ i := by omega
    simp only [h7, h8, and_false, if_false, true_and]

section Ready
variable {s : State} (hr : (W.of s).ready = true) (v : W64)
include hr

theorem partDbgWrite_eq {n : Nat} (hn : n < 16) : exec (.partDbgWrite n v) s = .next (((W.of s).writePartDbg n v).commit s) := by
  show run s _ = _
  exact run_enabled (ready_and hr (decide_eq_true hn))
theorem partDbgWrite_changes {n : Nat} (hn : n < 16) : ∀ o, o = Bar.partDbg n → ∃ t, exec (.partDbgWrite n v) s = .next t ∧ t.mem = s.mem ∧
    (t.bar o).getLsbD 0 = v.getLsbD 0 ∧ field (t.bar o) 47 8 = (if (s.bar o).getLsbD 0 = true then field (s.bar o) 47 8 else field v 47 8) ∧
    field (t.bar o) 7 3 = (if field v 7 3 ≤ 24 then field v 7 3 else field (s.bar o) 7 3) ∧
    (t.bar o).getLsbD 2 = ((s.bar o).getLsbD 2 && !v.getLsbD 2) ∧ (t.bar o).getLsbD 1 = ((s.bar o).getLsbD 1 && !v.getLsbD 1) := by
  rintro o rfl
  have hbit := (W.of s).writePartDbg_bit n v
  refine ⟨_, partDbgWrite_eq hr v hn, ((W.of s).writePartDbg_only n v).mem, hbit 0, ?_, ?_, hbit 2, hbit 1⟩
  · split
    · rename_i harmed
      refine field_eq_of_bits (by decide) fun i hl hh => (hbit i).trans ?_
      rw [if_neg (by omega), if_neg (by omega), if_neg (by omega), if_neg (by omega), if_neg fun h => Bool.false_ne_true (h.1.symm.trans harmed)]
      rfl
    · rename_i hfree
      refine field_eq_of_bits (by decide) fun i hl hh => (hbit i).trans ?_
      rw [if_neg (by omega), if_neg (by omega), if_neg (by omega), if_neg (by omega), if_pos ⟨Bool.eq_false_of_not_eq_true hfree, hh⟩]
  · split
    · rename_i hexp
      refine field_eq_of_bits (by decide) fun i hl hh => (hbit i).trans ?_
      rw [if_neg (by omega), if_neg (by omega), if_neg (by omega), if_pos hh, if_pos ⟨hl, hexp⟩]
    · rename_i hexp
      refine field_eq_of_bits (by decide) fun i hl hh => (hbit i).trans ?_
      rw [if_neg (by omega), if_neg (by omega), if_neg (by omega), if_pos hh, if_neg fun h => hexp h.2]
      rfl

/-! ## Links (R402, R420) -/

theorem devLocWrite_eq : exec (.devLocWrite v) s = .next (((W.of s).writeDevLoc v).commit s) := by
  show run s _ = _
  exact run_enabled hr

omit hr in
/-- The fields of DEV_LOC after a write of all of them. -/
theorem W.devLoc_fields (w : W) : ∃ u, u = ((((w.take Bar.devLoc 40 40 v).take Bar.devLoc 36 32 v).take Bar.devLoc 28 24 v).take Bar.devLoc 20 16 v).take Bar.devLoc 12 0 v ∧
    w.OnlyBars (· = Bar.devLoc) u ∧ u.fld Bar.devLoc 12 0 = field v 12 0 ∧ u.fld Bar.devLoc 20 16 = field v 20 16 ∧ u.fld Bar.devLoc 28 24 = field v 28 24 ∧
    u.fld Bar.devLoc 36 32 = field v 36 32 ∧ (u.bar Bar.devLoc).getLsbD 40 = v.getLsbD 40 := by
  refine ⟨_, rfl, ((((w.take_one _ 40 40 v).trans (W.take_one _ _ 36 32 v)).trans (W.take_one _ _ 28 24 v)).trans (W.take_one _ _ 20 16 v)).trans (W.take_one _ _ 12 0 v),
    ?_, ?_, ?_, ?_, ?_⟩
  case refine_5 => simp (disch := decide) only [W.take_bit]; rfl
  all_goals simp (disch := decide) only [W.take_fld_same, W.take_fld_other]

/-- Every link is down. -/
def W.linksDown (w : W) : Bool := (List.range 18).all fun l => w.fld (Bar.linkCtl l) 63 63 == 0

omit hr in
theorem topBit_eq (a : W64) : field a 63 63 = (a.getLsbD 63).toNat := by
  simp only [field, Nat.shiftRight_eq_div_pow, BitVec.getLsbD, Nat.toNat_testBit]
  rfl
omit hr in
theorem linksDown_iff : (W.of s).linksDown = true ↔ ∀ l < 18, (s.bar (Bar.linkCtl l)).getLsbD 63 = false := by
  have hbit (l : Nat) : ((W.of s).fld (Bar.linkCtl l) 63 63 == 0) = !(s.bar (Bar.linkCtl l)).getLsbD 63 := by
    rw [W.fld, topBit_eq, State.bar]
    cases ((W.of s).bar (Bar.linkCtl l)).getLsbD 63 <;> rfl
  simp [W.linksDown, List.all_eq_true, hbit]

theorem devLocWrite_changes {x y z : Nat} (hx : x = field v 20 16) (hy : y = field v 28 24) (hz : z = field v 36 32)
    (hd : ∀ l < 18, (s.bar (Bar.linkCtl l)).getLsbD 63 = false) (hsize : (x + 1) * (y + 1) * (z + 1) ≤ 8192) (hid : field v 12 0 < (x + 1) * (y + 1) * (z + 1)) :
    ∃ t, exec (.devLocWrite v) s = .next t ∧ t.mem = s.mem ∧ field (t.bar Bar.devLoc) 12 0 = field v 12 0 ∧ field (t.bar Bar.devLoc) 20 16 = x ∧
      field (t.bar Bar.devLoc) 28 24 = y ∧ field (t.bar Bar.devLoc) 36 32 = z ∧ (t.bar Bar.devLoc).getLsbD 40 = v.getLsbD 40 ∧
      t.m.hub.steer = (if v.getLsbD 40 = true then 0 else s.m.hub.steer) := by
  subst hx hy hz
  obtain ⟨u, hu, honly, hfields⟩ := W.devLoc_fields v (if v.getLsbD 40 = true then (W.of s).setHub fun h => { h with steer := 0 } else W.of s)
  have hwrite : (W.of s).writeDevLoc v = u := by
    rw [hu]
    exact if_pos (by rw [Bool.and_eq_true]; exact ⟨linksDown_iff.mpr hd, decide_eq_true ⟨hsize, hid⟩⟩)
  refine ⟨_, devLocWrite_eq hr v, ?_, ?_⟩
  · rw [hwrite, W.commit_mem, honly.log]
    split <;> rfl
  · rw [hwrite]
    obtain ⟨hid, hx, hy, hz, hm⟩ := hfields
    refine ⟨hid, hx, hy, hz, hm, ?_⟩
    rw [W.commit_m, honly.hub]
    split <;> rfl
theorem devLocWrite_refused {l : Nat} (hl : l < 18) (hup : (s.bar (Bar.linkCtl l)).getLsbD 63 = true) : exec (.devLocWrite v) s = .next s := by
  have hdown : (W.of s).linksDown = false := by
    rw [← Bool.not_eq_true, linksDown_iff]
    exact fun h => absurd (h l hl) (by simp [hup])
  have hkeep : (W.of s).writeDevLoc v = W.of s := if_neg (by rw [Bool.and_eq_true]; exact fun h => Bool.false_ne_true (hdown.symm.trans h.1))
  rw [devLocWrite_eq hr v, hkeep, W.of_commit]

theorem linkErrWrite_eq {l : Nat} (hl : l < 18) : exec (.linkErrWrite l v) s = .next (((W.of s).setBar (Bar.linkErr l) 0).commit s) := by
  show run s _ = _
  exact run_enabled (ready_and hr (decide_eq_true hl))

theorem tlbInvalidate_eq : exec (.tlbInvalidate v) s = .next (((W.of s).writeTlbInv v).commit s) := by
  show run s _ = _
  exact run_enabled hr
theorem measurementExtend_eq : exec (.measurementExtend v) s = .next (((W.of s).writeMeasExt v).commit s) := by
  show execMeasurementExtend v s = _
  unfold execMeasurementExtend
  exact run_enabled hr

end Ready
end Sys2Proof.Machine
end

section
/-! PROOFS. REGISTER_WRITE: the register that an offset of a function's window names, and that its write does what the register's own event does
(23_host_and_command_processor.md R341, R342); from it O60. -/

namespace Sys2Proof.Machine

/-! ## The arrays of the PF's window, in the order in which a write looks through them -/

/-- An array of registers: its first offset, stride and count, and what a write of one of them does. -/
structure RegArray where
  base   : Nat
  stride : Nat
  count  : Nat
  write  : Nat → W → W

/-- The arrays that a write of a word looks through. -/
def regArrays (v : W64) : List RegArray := [
  ⟨Bar.partCtl 0, 0x40, 16, fun n w => w.writePartCtl n v⟩, ⟨Bar.partTok 0, 0x40, 16, fun n w => w.writePartTok n v⟩,
  ⟨Bar.partQmask 0 0, 0x40, 16, fun n w => w.writeQmask n 0 v⟩, ⟨Bar.partQmask 0 1, 0x40, 16, fun n w => w.writeQmask n 1 v⟩,
  ⟨Bar.partQmask 0 2, 0x40, 16, fun n w => w.writeQmask n 2 v⟩, ⟨Bar.partStop 0, 0x40, 16, fun n w => w.writeArea (Bar.partStop n) v⟩,
  ⟨Bar.partCtxb 0, 0x40, 16, fun n w => w.writePartCtxb n v⟩, ⟨Bar.partWdog 0, 0x40, 16, fun n w => w.writePartWdog n v⟩,
  ⟨Bar.qCfg 0, 8, 1024, fun q w => w.writeQCfg 0 q v⟩, ⟨Bar.fnIrq 0, 8, 16, fun f w => w.writeFnIrq f v⟩,
  ⟨Bar.partPtb 0, 8, 16, fun n w => w.writePtb (Bar.partPtb n) v⟩, ⟨Bar.fqCfg 0, 0x40, 5, fun d w => w.writeFqCfg d v⟩,
  ⟨Bar.fqPtr 0, 0x40, 5, fun d w => w.take (Bar.fqPtr d) 63 32 v⟩, ⟨Bar.fqReply 0, 0x40, 5, fun d w => w.writeFqReply d v⟩,
  ⟨Bar.partPcap 0, 0x20, 16, fun n w => w.writePcap n v⟩, ⟨Bar.partEnergy 0, 0x20, 16, fun n w => w.setBar (Bar.partEnergy n) 0⟩,
  ⟨Bar.partCredit 0, 0x20, 16, fun n w => w.setBar (Bar.partCredit n) 0⟩, ⟨Bar.railCfg 0, 0x40, 4, fun d w => w.writeRailCfg d v⟩,
  ⟨Bar.inrushStat 0, 0x40, 4, fun d w => w.setFld (Bar.inrushStat d) 47 16 0⟩, ⟨Bar.slewTab 0, 8, 160, fun q w => w.writeSlew q v⟩,
  ⟨Bar.quadCounter 0 0, 8, 640, fun k w => w.clearQuad (k / 4) (k % 4)⟩, ⟨Bar.partTrace 0, 0x20, 16, fun n w => w.writeArea (Bar.partTrace n) v⟩,
  ⟨Bar.partHoist 0, 0x20, 16, fun n w => w.writeArea (Bar.partHoist n) v⟩, ⟨Bar.partDbg 0, 0x20, 16, fun n w => w.writePartDbg n v⟩,
  ⟨Bar.linkCtl 0, 0x20, 18, fun l w => w.writeLinkCtl l v⟩, ⟨Bar.linkErr 0, 0x20, 18, fun l w => w.setBar (Bar.linkErr l) 0⟩,
  ⟨Bar.partComm 0, 8, 16, fun n w => w.take (Bar.partComm n) 55 11 v⟩, ⟨Bar.temp 0, 8, 5, fun d w => w.writeTemp d v⟩,
  ⟨Bar.pmsel 0, 0x80, 160, fun q w => w.setBar (Bar.pmsel q) v⟩]

/-- The first array that has an offset takes its write. -/
def W.routed (w : W) (off : Nat) (rest : W → W) : List RegArray → W
  | [] => rest w
  | a :: as => match Bar.index off a.base a.stride a.count with
    | some i => a.write i w
    | none => w.routed off rest as

/-- The registers that stand alone. -/
def loneRegs : List Nat :=
  [Bar.devCfg, Bar.pfPtb, Bar.tlbInv, Bar.pkgPlim, Bar.devLoc, Bar.bootStat, Bar.attCtl, Bar.measExt, Bar.errLog, Bar.fwCtl]

/-- The last of the arrays: the counters of a quad. -/
def W.writePmcAt (w : W) (off : Nat) (v : W64) : W :=
  match (List.range 8).find? fun i => (Bar.index off (Bar.pmc 0 i) 0x80 160).isSome with
  | some i => w.writePmc ((off - Bar.pmc 0 i) / 0x80) i v
  | none => w

/-- A write at any other offset looks through the arrays. -/
theorem W.writeReg_routed (w : W) {off : Nat} (v : W64) (h : off ∉ loneRegs) : w.writeReg off v = w.routed off (fun w => w.writePmcAt off v) (regArrays v) := by
  simp only [loneRegs, List.mem_cons, List.not_mem_nil, or_false, not_or] at h
  obtain ⟨h1, h2, h3, h4, h5, h6, h7, h8, h9, h10⟩ := h
  unfold W.writeReg
  rw [if_neg h1, if_neg h2, if_neg h3, if_neg h4, if_neg h5, if_neg h6, if_neg h7, if_neg h8, if_neg h9, if_neg h10]
  rfl

/-- A write of a register that stands alone. -/
theorem W.writeReg_lone (w : W) (v : W64) : w.writeReg Bar.errLog v = w.writeArea Bar.errLog v ∧ w.writeReg Bar.pkgPlim v = w.writePlim v ∧
    w.writeReg Bar.devLoc v = w.writeDevLoc v ∧ w.writeReg Bar.bootStat v = w.writeBootStat v ∧ w.writeReg Bar.tlbInv v = w.writeTlbInv v ∧
    w.writeReg Bar.measExt v = w.writeMeasExt v := by
  refine ⟨?_, ?_, ?_, ?_, ?_, ?_⟩ <;>
    simp [W.writeReg, Bar.devCfg, Bar.pfPtb, Bar.tlbInv, Bar.pkgPlim, Bar.devLoc, Bar.bootStat, Bar.attCtl, Bar.measExt, Bar.errLog]

/-- Where an offset is found: the number of its array, and its own in the array. -/
def regPlace (off : Nat) (as : List (Nat × Nat × Nat)) : Option (Nat × Nat) :=
  match as with
  | [] => none
  | a :: as => match Bar.index off a.1 a.2.1 a.2.2 with
    | some i => some (0, i)
    | none => (regPlace off as).map fun p => (p.1 + 1, p.2)

theorem W.routed_eq (w : W) (off : Nat) (rest : W → W) (as : List RegArray) : w.routed off rest as =
    match regPlace off (as.map fun a => (a.base, a.stride, a.count)) with
    | some p => (as[p.1]?.map fun a => a.write p.2 w).getD w
    | none => rest w := by
  induction as with
  | nil => rfl
  | cons a as ih =>
    simp only [W.routed, regPlace, List.map_cons]
    cases Bar.index off a.base a.stride a.count with
    | some i => rfl
    | none =>
      simp only [ih]
      cases regPlace off (as.map fun a => (a.base, a.stride, a.count)) <;> rfl

/-- The spans of the arrays, whatever is written. -/
def regSpans : List (Nat × Nat × Nat) := (regArrays 0).map fun a => (a.base, a.stride, a.count)

theorem regArrays_spans (v : W64) : ((regArrays v).map fun a => (a.base, a.stride, a.count)) = regSpans := by
  simp only [regSpans, regArrays, List.map_cons, List.map_nil]

theorem W.writeReg_eq (w : W) {off : Nat} (v : W64) {k i : Nat} {a : RegArray} (h : off ∉ loneRegs) (hp : regPlace off regSpans = some (k, i))
    (ha : (regArrays v)[k]? = some a) : w.writeReg off v = a.write i w := by
  rw [w.writeReg_routed v h, W.routed_eq, regArrays_spans, hp]
  simp only [ha, Option.map_some, Option.getD_some]
/-- An offset with no register, or with one that only reads. -/
theorem W.writeReg_none (w : W) {off : Nat} (v : W64) (h : off ∉ loneRegs) (hp : regPlace off regSpans = none)
    (hc : ((List.range 8).find? fun i => (Bar.index off (Bar.pmc 0 i) 0x80 160).isSome) = none) : w.writeReg off v = w := by
  rw [w.writeReg_routed v h, W.routed_eq, regArrays_spans, hp]
  simp only [W.writePmcAt, hc]

theorem partRegs_place : ∀ n < 16, ∀ p ∈ [(Bar.partQmask n 0, 2), (Bar.partStop n, 5), (Bar.fnIrq n, 9), (Bar.partPcap n, 14), (Bar.slewTab n, 19),
    (Bar.partTrace n, 21), (Bar.partHoist n, 22), (Bar.partDbg n, 23), (Bar.pmsel n, 28)],
    p.1 ∉ loneRegs ∧ regPlace p.1 regSpans = some (p.2, n) ∧ p.1 % 8 = 0 := by decide +kernel
theorem fqPtr_place : ∀ d < 5, Bar.fqPtr d ∉ loneRegs ∧ regPlace (Bar.fqPtr d) regSpans = some (12, d) ∧ Bar.fqPtr d % 8 = 0 := by decide +kernel
theorem readOnly_place : ∀ off ∈ Bar.health :: (List.range 4).map Bar.lreq, off ∉ loneRegs ∧ regPlace off regSpans = none ∧
    ((List.range 8).find? fun i => (Bar.index off (Bar.pmc 0 i) 0x80 160).isSome) = none ∧ off % 8 = 0 := by decide +kernel

/-! ## Writes of a register by its offset -/

section Ready
variable {s : State} (hr : (W.of s).ready = true) (v : W64)
include hr

theorem registerWrite_eq {off : Nat} (ha : off % 8 = 0) : exec (.registerWrite 0 8 off v) s = .next (((W.of s).writeReg off v).commit s) := by
  show run s _ = _
  exact run_enabled (by simp [hr, ha])
omit hr in
/-- A write that is not of 8 aligned bytes, or is no function's. -/
theorem registerWrite_bad {f size off : Nat} (h : size ≠ 8 ∨ off % 8 ≠ 0 ∨ 16 ≤ f) : exec (.registerWrite f size off v) s = .next s := by
  show run s _ = _
  have hc : (((W.of s).ready || ((W.of s).answers && f == 0 && off == Bar.bootStat)) && size == 8 && off % 8 == 0 && decide (f < 16)) = false := by
    rcases h with h | h | h <;> simp [h]
  simp only [run, hc, Bool.false_eq_true, if_false, W.of_commit]
omit hr in
/-- A write through the window of a VF that no partition has. -/
theorem registerWrite_unbound {f off : Nat} (hf : 1 ≤ f) (hn : (W.of s).bar2Part f = none) : exec (.registerWrite f 8 off v) s = .next s := by
  show run s _ = _
  have hvf : f ≠ 0 := by omega
  simp only [run, hvf, if_false, W.writeVfReg, hn, Option.isNone_none, if_true, ite_self, W.of_commit]

/-- The write of a register in an array does what the array's registers do. -/
theorem registerWrite_at {off k i : Nat} {a : RegArray} (h : off ∉ loneRegs ∧ regPlace off regSpans = some (k, i) ∧ off % 8 = 0) (ha : (regArrays v)[k]? = some a) :
    exec (.registerWrite 0 8 off v) s = .next ((a.write i (W.of s)).commit s) := by
  obtain ⟨hlone, hplace, halign⟩ := h
  rw [registerWrite_eq hr v halign, W.writeReg_eq _ v hlone hplace ha]

theorem registerWrite_partRegs {n : Nat} (hn : n < 16) : ∀ (i : Instr) (o : Nat), (i, o) ∈ [(.partStopWrite n v, Bar.partStop n), (.errLogWrite v, Bar.errLog),
      (.partTraceWrite n v, Bar.partTrace n), (.partHoistWrite n v, Bar.partHoist n),
      (.partPcapWrite n v, Bar.partPcap n), (.pkgPlimWrite v, Bar.pkgPlim), (.devLocWrite v, Bar.devLoc), (.partDbgWrite n v, Bar.partDbg n),
      (.qmaskWrite n 0 v, Bar.partQmask n 0), (.slewTabWrite n v, Bar.slewTab n), (.tlbInvalidate v, Bar.tlbInv), (.measurementExtend v, Bar.measExt)] →
    exec (.registerWrite 0 8 o v) s = exec i s := by
  have hplaces := partRegs_place n hn
  simp only [List.forall_mem_cons, List.not_mem_nil, false_implies, implies_true, and_true] at hplaces
  obtain ⟨hmask, hstop, -, hcap, hslew, htrace, hhoist, hdbg, -⟩ := hplaces
  have hareas := areaWrite_eq hr v hn
  simp only [List.forall_mem_cons, List.not_mem_nil, false_implies, implies_true, and_true] at hareas
  obtain ⟨hstopw, herrw, htracew, hhoistw⟩ := hareas
  obtain ⟨herr, hlim, hloc, -, hinv, hmeas⟩ := (W.of s).writeReg_lone v
  intro i o h
  simp only [List.mem_cons, Prod.mk.injEq, List.not_mem_nil, or_false] at h
  obtain ⟨rfl, rfl⟩ | ⟨rfl, rfl⟩ | ⟨rfl, rfl⟩ | ⟨rfl, rfl⟩ | ⟨rfl, rfl⟩ | ⟨rfl, rfl⟩ | ⟨rfl, rfl⟩ | ⟨rfl, rfl⟩ | ⟨rfl, rfl⟩ | ⟨rfl, rfl⟩ | ⟨rfl, rfl⟩ | ⟨rfl, rfl⟩ := h
  · exact (registerWrite_at hr v hstop rfl).trans hstopw.symm
  · rw [registerWrite_eq hr v rfl, herr, herrw]
  · exact (registerWrite_at hr v htrace rfl).trans htracew.symm
  · exact (registerWrite_at hr v hhoist rfl).trans hhoistw.symm
  · exact (registerWrite_at hr v hcap rfl).trans (partPcapWrite_eq hr v hn).symm
  · rw [registerWrite_eq hr v rfl, hlim, pkgPlimWrite_eq hr v]
  · rw [registerWrite_eq hr v rfl, hloc, devLocWrite_eq hr v]
  · exact (registerWrite_at hr v hdbg rfl).trans (partDbgWrite_eq hr v hn).symm
  · exact (registerWrite_at hr v hmask rfl).trans (qmaskWrite_eq hr v hn (by decide)).symm
  · exact (registerWrite_at hr v hslew rfl).trans (slewTabWrite_eq hr v (by omega)).symm
  · rw [registerWrite_eq hr v rfl, hinv, tlbInvalidate_eq hr v]
  · rw [registerWrite_eq hr v rfl, hmeas, measurementExtend_eq hr v]

theorem registerWrite_bootStat (h : 9 ≤ field (s.bar Bar.bootStat) 15 8) : exec (.registerWrite 0 8 Bar.bootStat v) s = exec (.bootStatClear v) s := by
  obtain ⟨-, -, -, hboot, -⟩ := (W.of s).writeReg_lone v
  have hclear : exec (.bootStatClear v) s = .next (((W.of s).writeBootStat v).commit s) := by
    show run s _ = _
    exact run_enabled (decide_eq_true h)
  rw [registerWrite_eq hr v rfl, hboot, hclear]

/-- FN_IRQ and PMSEL have no event of their own. -/
theorem registerWrite_plain {n : Nat} (hn : n < 16) (o : Nat) (ho : o = Bar.fnIrq n ∨ o = Bar.pmsel n) :
    ∃ t, exec (.registerWrite 0 8 o v) s = .next t ∧ t.mem = s.mem ∧ ∀ j, j ≠ o → t.bar j = s.bar j := by
  have hplaces := partRegs_place n hn
  simp only [List.forall_mem_cons, List.not_mem_nil, false_implies, implies_true, and_true] at hplaces
  obtain ⟨-, -, hirq, -, -, -, -, -, hsel⟩ := hplaces
  obtain rfl | rfl := ho
  · have honly : (W.of s).OnlyBars (· = Bar.fnIrq n) ((W.of s).writeFnIrq n v) := by
      unfold W.writeFnIrq
      exact (((W.takeIf_one _ _ 55 48 v _).trans (W.take_one _ _ 47 32 v)).trans (W.takeIf_one _ _ 31 16 v _)).trans (W.takeIf_one _ _ 15 0 v _)
    exact ⟨_, registerWrite_at hr v hirq rfl, honly.mem, honly.bar⟩
  · have honly := (W.of s).setBar_one (Bar.pmsel n) v
    exact ⟨_, registerWrite_at hr v hsel rfl, honly.mem, honly.bar⟩

theorem registerWrite_fqPtr {d : Nat} (hd : d < 5) : ∃ t, exec (.registerWrite 0 8 (Bar.fqPtr d) v) s = .next t ∧
    field (t.bar (Bar.fqPtr d)) 63 32 = field v 63 32 ∧ field (t.bar (Bar.fqPtr d)) 31 0 = field (s.bar (Bar.fqPtr d)) 31 0 :=
  ⟨_, registerWrite_at hr v (fqPtr_place d hd) rfl, (W.of s).take_fld_same _ v (by decide) (by decide), (W.of s).take_fld_other _ v (by decide) (by decide) (by decide)⟩

theorem registerWrite_readOnly {o : Nat} (h : o ∈ Bar.health :: (List.range 4).map Bar.lreq) : exec (.registerWrite 0 8 o v) s = .next s := by
  obtain ⟨hlone, hplace, hpmc, halign⟩ := readOnly_place o h
  rw [registerWrite_eq hr v halign, W.writeReg_none _ v hlone hplace hpmc, W.of_commit]

end Ready

/-- Settles O60: each register's own operation changes its register alone, and those fields of it that the word written may set; REGISTER_WRITE finds the operation
by the offset (`W.writeReg_eq`, `W.writeReg_lone`). -/
theorem registerWrites : Obligations.RegisterWrites := by
  refine ⟨fun s v hr => ⟨reqCounterClear_changes hr v, fun n i hn hi => qmaskWrite_changes hr v hn hi, pkgPlimWrite_changes hr v, fun n hn => ?part, fun d hd => ?die,
      fun q hq => ?quad, fun d hd => tempWrite_changes hr v hd⟩,
    fun s v hr => ⟨fun n hn => areaWrite_changes hr v hn, fun n hn => partDbgWrite_changes hr v hn, fun x y z ⟨hx, hy, hz⟩ => ?location, fun l hl => ?link,
      fun f size off => ?any, fun n hn => ?own, fun d hd => registerWrite_fqPtr hr v hd, fun f off hf _ hn => registerWrite_unbound v hf hn, fun d hd => ?readOnly⟩⟩
  case part =>
    exact ⟨partPcapWrite_changes hr v hn, ⟨_, partEnergyWrite_eq hr v hn, W.setBar_changes s _ 0⟩, _, partCreditWrite_eq hr v hn, W.setBar_changes s _ 0⟩
  case die => exact ⟨railCfgWrite_changes hr v hd, inrushStatWrite_changes hr v hd⟩
  case quad =>
    exact ⟨slewTabWrite_changes hr v hq, fun e he => slewTabWrite_refused hr v hq he, fun k hk => ⟨_, quadCounterWrite_eq hr v hq hk, W.setBar_changes s _ _⟩,
      fun i hi => ⟨fun h => ⟨_, pmcWrite_counts hr v hq hi h, W.setBar_changes s _ _⟩, pmcWrite_ignored hr v hq hi⟩⟩
  case location => exact ⟨devLocWrite_changes hr v hx hy hz, fun l hl => devLocWrite_refused hr v hl⟩
  case link => exact ⟨_, linkErrWrite_eq hr v hl, W.setBar_changes s _ 0⟩
  case any =>
    by_cases h : size ≠ 8 ∨ off % 8 ≠ 0 ∨ 16 ≤ f
    · exact ⟨s, registerWrite_bad v h, fun _ => rfl⟩
    · exact ⟨_, rfl, fun hbad => absurd hbad h⟩
  case own => exact ⟨registerWrite_partRegs hr v hn, registerWrite_bootStat hr v, registerWrite_plain hr v hn⟩
  case readOnly =>
    exact ⟨registerWrite_readOnly hr v (List.mem_cons_of_mem _ (List.mem_map_of_mem (List.mem_range.mpr hd))), registerWrite_readOnly hr v List.mem_cons_self⟩

end Sys2Proof.Machine
end

section
/-! PROOFS. Words as bytes, and the bytes that a working state reads and commits (03_numbers.md R38; 05_ordering_local.md R86). -/

namespace Sys2Proof.Machine

/-! ## Words as bytes -/

theorem leBytes_getD (n x i : Nat) (h : i < n) : (leBytes n x).getD i 0 = BitVec.ofNat 8 (x / 2 ^ (8 * i)) := by
  induction n generalizing x i with
  | zero => omega
  | succ n ih =>
    cases i with
    | zero => simp [leBytes]
    | succ i =>
      rw [leBytes, List.getD_cons_succ, ih _ _ (by omega), Nat.div_div_eq_div_mul, Nat.mul_add, Nat.mul_one, Nat.pow_add, Nat.mul_comm]
theorem leNat_leBytes (n x : Nat) : leNat (leBytes n x) = x % 2 ^ (8 * n) := by
  induction n generalizing x with
  | zero => simp [leBytes, leNat, Nat.mod_one]
  | succ n ih =>
    rw [leBytes, leNat, ih, BitVec.toNat_ofNat, show 8 * (n + 1) = 8 + 8 * n by omega, Nat.pow_add, Nat.mod_mul]
theorem leBytes_leNat (l : List Byte) : leBytes l.length (leNat l) = l := by
  induction l with
  | nil => rfl
  | cons b l ih =>
    have hb : b.toNat < 256 := b.isLt
    rw [List.length_cons, leBytes, leNat, show (b.toNat + 256 * leNat l) / 256 = leNat l by omega, ih]
    congr 1
    apply BitVec.eq_of_toNat_eq
    rw [BitVec.toNat_ofNat]
    omega
theorem leBytes_mod (n x : Nat) : leBytes n (x % 2 ^ (8 * n)) = leBytes n x := by
  have := leBytes_leNat (leBytes n x)
  rwa [leBytes_length, leNat_leBytes] at this
/-- A byte of a word that holds a list of bytes. -/
theorem extract_leNat {w i : Nat} (l : List Byte) (hi : i < l.length) (hw : 8 * l.length ≤ w) :
    (BitVec.ofNat w (leNat l)).extractLsb' (8 * i) 8 = l.getD i 0 := by
  have hlt : leNat l < 2 ^ w := Nat.lt_of_lt_of_le (leNat_lt l) (Nat.pow_le_pow_right (by omega) hw)
  conv_rhs => rw [← leBytes_leNat l, leBytes_getD _ _ _ hi]
  apply BitVec.eq_of_toNat_eq
  rw [BitVec.extractLsb'_toNat, BitVec.toNat_ofNat, BitVec.toNat_ofNat, Nat.mod_eq_of_lt hlt, Nat.shiftRight_eq_div_pow]

/-! ## Bytes of a memory -/

theorem memBytes_getD (m : Memory) (a n i : Nat) (h : i < n) : (memBytes m a n).getD i 0 = memRead m (a + i) := by
  induction n generalizing a i with
  | zero => omega
  | succ n ih =>
    cases i with
    | zero => rfl
    | succ i => rw [memBytes, List.getD_cons_succ, ih _ _ (by omega)]; congr 1; omega
/-- Bytes are a list when each of them is. -/
theorem memBytes_eq_of {m : Memory} {a n : Nat} {bs : List Byte} (hl : bs.length = n) (h : ∀ i < n, memRead m (a + i) = bs.getD i 0) : memBytes m a n = bs := by
  refine List.ext_getElem (by simp [hl]) fun i hi hj => ?_
  have hn : i < n := by simpa using hi
  have := memBytes_getD m a n i hn
  rw [h i hn, List.getD_eq_getElem _ _ hi, List.getD_eq_getElem _ _ hj] at this
  exact this
theorem memBytes_congr {m m' : Memory} {a n : Nat} (h : ∀ i < n, memRead m (a + i) = memRead m' (a + i)) : memBytes m a n = memBytes m' a n :=
  memBytes_eq_of (memBytes_length _ _ _) fun i hi => by rw [h i hi, memBytes_getD _ _ _ _ hi]

/-! ## What a working state reads, and what it commits -/

theorem W.read_write (w : W) (a c : Nat) (b : Byte) : (w.write a b).read c = if c = a then b else w.read c := by
  unfold W.read W.write
  by_cases h : c = a
  · simp [h]
  · simp [h, Ne.symm h]
/-- After writes at offsets from a place, each byte of them a function of its offset. -/
theorem W.read_foldl_write (g : Nat → Byte) (sec : Nat) (xs : List (Nat × Byte)) (hg : ∀ x ∈ xs, x.2 = g x.1) (w : W) (a : Nat) :
    (xs.foldl (fun w (x : Nat × Byte) => w.write (sec + x.1) x.2) w).read a = if ∃ x ∈ xs, sec + x.1 = a then g (a - sec) else w.read a := by
  induction xs generalizing w with
  | nil => simp
  | cons x xs ih =>
    rw [List.foldl_cons, ih (fun y hy => hg y (List.mem_cons_of_mem _ hy)), W.read_write]
    by_cases h : ∃ y ∈ xs, sec + y.1 = a
    · rw [if_pos h, if_pos (h.imp fun y hy => ⟨List.mem_cons_of_mem _ hy.1, hy.2⟩)]
    · rw [if_neg h]
      by_cases e : a = sec + x.1
      · rw [if_pos e, if_pos ⟨x, List.mem_cons_self, e.symm⟩, hg x List.mem_cons_self, e, Nat.add_sub_cancel_left]
      · rw [if_neg e, if_neg]
        rintro ⟨y, hy, hya⟩
        rcases List.mem_cons.1 hy with rfl | hy
        · exact e hya.symm
        · exact h ⟨y, hy, hya⟩
/-- What is committed at a place is what the working state reads there. -/
theorem W.commit_byte {s : State} {w : W} (hwf : s.mem.wf = true) (hb : w.base = s.mem) (a : Nat) : (w.commit s).byte a = w.read a := by
  unfold State.byte W.read
  rw [W.commit_mem, hb]
  induction w.log with
  | nil => rfl
  | cons c l ih =>
    rw [applyLog, List.find?_cons]
    by_cases h : c.1 = a
    · rw [beq_iff_eq.2 h, ← h]
      exact memRead_memWrite_self _ _ (applyLog_wf l hwf)
    · rw [beq_eq_false_iff_ne.2 h, memRead_memWrite_ne _ _ _ _ (Ne.symm h)]
      exact ih
theorem W.bytes_of (s : State) (a n : Nat) : (W.of s).bytes a n = memBytes s.mem a n := by
  induction n generalizing a with
  | zero => rfl
  | succ n ih => rw [W.bytes, memBytes, ih]; rfl
@[simp] theorem W.bytes_length (w : W) (a n : Nat) : (w.bytes a n).length = n := by
  induction n generalizing a with
  | zero => rfl
  | succ n ih => simp [W.bytes, ih]
theorem W.bytes_getD (w : W) (a n i : Nat) (h : i < n) : (w.bytes a n).getD i 0 = w.read (a + i) := by
  induction n generalizing a i with
  | zero => omega
  | succ n ih =>
    cases i with
    | zero => rfl
    | succ i => rw [W.bytes, List.getD_cons_succ, ih _ _ (by omega)]; congr 1; omega

end Sys2Proof.Machine
end

section
/-! PROOFS. What agents see: changes that no agent sees, and one write applied at its home (05_ordering_local.md R86, R94; 06_ordering_wide.md R95, R96). -/

namespace Sys2Proof.Machine

/-! ## Changes that no agent sees -/

/-- From w to w' neither the bytes of memory nor which writes are still hidden from whom have changed, nor which sectors are bad. -/
structure W.Quiet (w w' : W) : Prop where
  clk    : w'.clk = w.clk
  base   : w'.base = w.base
  log    : w'.log = w.log
  unseen : w'.m.bus.unseen = w.m.bus.unseen
  bad    : w'.m.bus.bad = w.m.bus.bad

theorem W.Quiet.refl (w : W) : w.Quiet w := ⟨rfl, rfl, rfl, rfl, rfl⟩
theorem W.Quiet.trans {u v w : W} (a : u.Quiet v) (b : v.Quiet w) : u.Quiet w :=
  ⟨b.clk.trans a.clk, b.base.trans a.base, b.log.trans a.log, b.unseen.trans a.unseen, b.bad.trans a.bad⟩
theorem W.Quiet.read {w w' : W} (h : w.Quiet w') (a : Nat) : w'.read a = w.read a := by simp only [W.read, h.base, h.log]
theorem W.Quiet.bytes {w w' : W} (h : w.Quiet w') (a n : Nat) : w'.bytes a n = w.bytes a n := by
  induction n generalizing a with
  | zero => rfl
  | succ n ih => rw [W.bytes, W.bytes, h.read, ih]
theorem W.Quiet.view {w w' : W} (h : w.Quiet w') (e : Eye) (k : Nat) : w'.view e k = w.view e k := by
  simp only [W.view, W.hiddenAt, h.unseen, h.read]
theorem W.Quiet.viewBytes {w w' : W} (h : w.Quiet w') (e : Eye) (k n : Nat) : w'.viewBytes e k n = w.viewBytes e k n := by
  induction n generalizing k with
  | zero => rfl
  | succ n ih => rw [W.viewBytes, W.viewBytes, h.view, ih]
theorem W.Quiet.mem {s : State} {w : W} (h : (W.of s).Quiet w) : (w.commit s).mem = s.mem := by rw [W.commit_mem, h.log]; rfl

theorem W.quiet_ite {c : Prop} [Decidable c] {w a b : W} (ha : w.Quiet a) (hb : w.Quiet b) : w.Quiet (if c then a else b) := by
  split
  · exact ha
  · exact hb
theorem W.quiet_foldl {α : Type} (f : W → α → W) (h : ∀ (w : W) (a : α), w.Quiet (f w a)) (l : List α) (w : W) : w.Quiet (l.foldl f w) :=
  List.foldlRecOn l f (.refl w) fun _ k a _ => k.trans (h _ a)

theorem W.setBus_quiet (w : W) (f : Bus → Bus) (h : (f w.m.bus).unseen = w.m.bus.unseen) (hb : (f w.m.bus).bad = w.m.bus.bad) : w.Quiet (w.setBus f) := ⟨rfl, rfl, rfl, h, hb⟩
theorem W.setHub_quiet (w : W) (f : Hub → Hub) : w.Quiet (w.setHub f) := ⟨rfl, rfl, rfl, rfl, rfl⟩
theorem W.setBar_quiet (w : W) (o : Nat) (v : W64) : w.Quiet (w.setBar o v) := ⟨rfl, rfl, rfl, rfl, rfl⟩
theorem W.setReq_quiet (w : W) (id : Nat) (f : Req → Req) : w.Quiet (w.setReq id f) := ⟨rfl, rfl, rfl, rfl, rfl⟩
theorem W.dropReq_quiet (w : W) (id : Nat) : w.Quiet (w.dropReq id) := ⟨rfl, rfl, rfl, rfl, rfl⟩
theorem W.ownerWrote_quiet (w : W) (o : Nat) (ids : List Nat) : w.Quiet (w.ownerWrote o ids) := ⟨rfl, rfl, rfl, rfl, rfl⟩
theorem W.fresh_quiet (w : W) : w.Quiet w.fresh.1 := ⟨rfl, rfl, rfl, rfl, rfl⟩
theorem W.draw_quiet (w : W) (n : Nat) : w.Quiet (w.freeBelow n).1 := ⟨rfl, rfl, rfl, rfl, rfl⟩
theorem W.sendPeer_quiet (w : W) (key n : Nat) : w.Quiet (w.sendPeer key n) := by
  unfold W.sendPeer
  split
  · exact .refl w
  split
  · exact ⟨rfl, rfl, rfl, rfl, rfl⟩
  · exact .refl w
theorem W.sendPeer_bus (w : W) (key n : Nat) : (w.sendPeer key n).m.bus = w.m.bus := by
  unfold W.sendPeer
  split
  · rfl
  split <;> rfl
theorem W.sendPeer_hub (w : W) (key n : Nat) : (w.sendPeer key n).m.hub = w.m.hub := by
  unfold W.sendPeer
  split
  · rfl
  split <;> rfl
theorem W.learn_quiet (w : W) (e : Eye) (id acq : Nat) (us : List Unseen) : w.Quiet (w.learn e id acq us) :=
  W.quiet_ite (.refl w) (w.setBus_quiet _ rfl rfl)
theorem W.countAt_quiet (w : W) (off : Nat) : w.Quiet (w.countAt off) := ⟨rfl, rfl, rfl, rfl, rfl⟩
theorem W.countOut_quiet (w : W) (die home : Nat) : w.Quiet (w.countOut die home) :=
  W.quiet_ite (.refl w) (W.quiet_ite (w.countAt_quiet _) (W.quiet_ite (w.countAt_quiet _) (.refl w)))
theorem W.countIn_quiet (w : W) (die home : Nat) : w.Quiet (w.countIn die home) := W.quiet_ite (.refl w) (w.countAt_quiet _)
theorem W.countSent_quiet (w : W) (die : Nat) (keys : List Nat) : w.Quiet (w.countSent die none keys) :=
  W.quiet_foldl _ (fun w _ => w.countOut_quiet die _) keys w
theorem W.countReqs_quiet (w : W) (die : Nat) (keys : List Nat) : w.Quiet (w.countReqs die none keys) :=
  (w.countSent_quiet die keys).trans (W.quiet_foldl _ (fun w _ => w.countIn_quiet die _) keys _)
theorem W.issueOwned_quiet (w : W) (e : Eye) (owner : Nat) (r : Req) : w.Quiet (w.issueOwned e owner r) := by
  unfold W.issueOwned W.send
  exact (w.fresh_quiet.trans (W.countSent_quiet _ _ _)).trans (W.setBus_quiet _ _ rfl rfl)

/-! ## The first hidden of some writes -/

theorem firstHidden_append_one (e : Eye) (us : List Unseen) (u : Unseen) :
    firstHidden e (us ++ [u]) = if u.hides e then (firstHidden e us).or (some u) else none := by simp [firstHidden]
/-- A change of writes that leaves alone from whom they are hidden. -/
theorem firstHidden_map (e : Eye) (h : Unseen → Unseen) (hh : ∀ u, (h u).hides e = u.hides e) (us : List Unseen) :
    firstHidden e (us.map h) = (firstHidden e us).map h := by
  have key : ∀ m : Option Unseen, (us.map h).foldl (fun m u => if u.hides e then m.or (some u) else none) (m.map h) =
      (us.foldl (fun m u => if u.hides e then m.or (some u) else none) m).map h := by
    induction us with
    | nil => intro m; rfl
    | cons u us ih =>
      intro m
      rw [List.map_cons, List.foldl_cons, List.foldl_cons, ← ih, hh]
      congr 1
      by_cases c : u.hides e = true
      · rw [if_pos c, if_pos c]; cases m <;> rfl
      · rw [if_neg c, if_neg c]; rfl
  exact key none

/-! ## A write applied at its home -/

/-- The bytes of a sector that a write's list names. -/
def maskOf (xs : List (Nat × Byte)) : W64 := xs.foldl (fun m x => m ||| (1#64 <<< x.1)) 0
theorem maskOf_getLsbD (xs : List (Nat × Byte)) {j : Nat} (hj : j < 64) : (maskOf xs).getLsbD j = xs.any (·.1 == j) := by
  have key : ∀ m : W64, (xs.foldl (fun m x => m ||| (1#64 <<< x.1)) m).getLsbD j = (m.getLsbD j || xs.any (·.1 == j)) := by
    induction xs with
    | nil => intro m; simp
    | cons x xs ih =>
      intro m
      rw [List.foldl_cons, ih, List.any_cons, BitVec.getLsbD_or, Bool.or_assoc]
      congr 2
      rw [BitVec.getLsbD_shiftLeft, BitVec.getLsbD_one, Bool.eq_iff_iff]
      simp [hj]
      omega
  exact (key 0).trans (by simp)

/-- A write of a list of bytes at a sector that a die is still to see: the entry that its home notes for an agent's write. -/
structure Unseen.Notes (u : Unseen) (e : Eye) (sec : Nat) (xs : List (Nat × Byte)) (old : List Byte) (d : Nat) : Prop where
  die   : u.die = d
  key   : u.key = sec
  mask  : u.mask = maskOf xs
  old   : u.old = BitVec.ofNat 512 (leNat old)
  seers : u.seers = if d = e.die then [e.agent] else []

/-- What the outside writes itself no longer hides there what stood before. -/
def overwrite (d sec : Nat) (mask : W64) (u : Unseen) : Unseen := if u.die == d && u.key == sec then { u with mask := u.mask &&& ~~~mask } else u

/-- A request but for what other requests' progress adds to it: what it will be causally after, the reads it owes, and what an acquire of it has obtained. -/
def Req.core (r : Req) : Req := { r with cov := {}, due := [], got := none, after := [] }

theorem map_core (f : Req → Req) (hf : ∀ r, (f r).core = r.core) (l : List Req) : (l.map f).map Req.core = l.map Req.core := by
  rw [List.map_map]
  exact List.map_congr_left fun r _ => hf r
theorem laterReqs_core (id agent : Nat) (f : Req → Req) (hf : ∀ q, (f q).core = q.core) (l : List Req) : (laterReqs id agent f l).map Req.core = l.map Req.core := by
  induction l with
  | nil => rfl
  | cons r t ih =>
    unfold laterReqs
    split
    · rw [List.map_cons, List.map_cons, List.map_map]
      congr 1
      refine List.map_congr_left fun q _ => ?_
      show (if q.agent = agent then f q else q).core = q.core
      split
      · exact hf q
      · rfl
    · rw [List.map_cons, List.map_cons, ih]
theorem Bus.learn_core (b : Bus) (e : Eye) (id : Nat) (load : Bool) (c o : Cov) : (b.learn e id load c o).reqs.map Req.core = b.reqs.map Req.core :=
  laterReqs_core id e.agent (fun q => { q with cov := q.cov.join (o.join (c.narrow (if q.rel then q.scope else 0))) }) (fun _ => rfl) b.reqs

theorem W.foldl_write_keeps (sec : Nat) (xs : List (Nat × Byte)) (w : W) :
    (xs.foldl (fun w (x : Nat × Byte) => w.write (sec + x.1) x.2) w).m = w.m ∧ (xs.foldl (fun w (x : Nat × Byte) => w.write (sec + x.1) x.2) w).base = w.base :=
  List.foldlRecOn (motive := fun v : W => v.m = w.m ∧ v.base = w.base) xs _ ⟨rfl, rfl⟩ fun _ h _ _ => h

section
variable (w : W) (e : Eye) (sec : Nat) (xs : List (Nat × Byte)) (rel : Rel) (cov : Cov) (id : Nat)

/-- A write at its home, in three steps: it is noted for the dies that are still to see it, its bytes are written, and it leaves for another device if its page is there. -/
theorem W.applyWrite_steps : ∃ (v : W) (g : Nat → Unseen),
    (w.applyWrite e sec xs rel cov id).1 = (xs.foldl (fun w (x : Nat × Byte) => w.write (sec + x.1) x.2) v).sendPeer sec (w.m.nextId + 1) ∧
    v.base = w.base ∧ v.log = w.log ∧ (∀ d, (g d).Notes e sec xs (w.bytes sec 64) d) ∧
    v.m.bus.unseen = (if e.die = 5 then w.m.bus.unseen.map (overwrite e.die sec (maskOf xs)) else w.m.bus.unseen) ++
      ((List.range 6).filter fun d => !(d == e.die && d == 5)).map g ∧
    v.m.bus.reqs.map Req.core = w.m.bus.reqs.map Req.core ∧ v.m.hub = w.m.hub := by
  refine ⟨_, _, rfl, rfl, rfl, ?notes, rfl, ?core, rfl⟩
  case notes =>
    intro d
    exact ⟨rfl, rfl, rfl, congrArg (fun b => BitVec.ofNat 512 (leNat b)) (w.fresh_quiet.bytes sec 64), rfl⟩
  case core =>
    refine (map_core _ (fun r => ?_) _).trans (Bus.learn_core w.m.bus e id false _ _)
    split <;> rfl

theorem W.applyWrite_base : (w.applyWrite e sec xs rel cov id).1.base = w.base := by
  obtain ⟨v, g, hw, hb, -⟩ := w.applyWrite_steps e sec xs rel cov id
  rw [hw, (W.sendPeer_quiet _ _ _).base, (W.foldl_write_keeps sec xs v).2, hb]
theorem W.applyWrite_cores : (w.applyWrite e sec xs rel cov id).1.m.bus.reqs.map Req.core = w.m.bus.reqs.map Req.core := by
  obtain ⟨v, g, hw, -, -, -, -, hr, -⟩ := w.applyWrite_steps e sec xs rel cov id
  rw [hw, W.sendPeer_bus, (W.foldl_write_keeps sec xs v).1, hr]
theorem W.applyWrite_hub : (w.applyWrite e sec xs rel cov id).1.m.hub = w.m.hub := by
  obtain ⟨v, g, hw, -, -, -, -, -, hh⟩ := w.applyWrite_steps e sec xs rel cov id
  rw [hw, W.sendPeer_hub, (W.foldl_write_keeps sec xs v).1, hh]
theorem W.applyWrite_unseen : ∃ g : Nat → Unseen, (∀ d, (g d).Notes e sec xs (w.bytes sec 64) d) ∧
    (w.applyWrite e sec xs rel cov id).1.m.bus.unseen = (if e.die = 5 then w.m.bus.unseen.map (overwrite e.die sec (maskOf xs)) else w.m.bus.unseen) ++
      ((List.range 6).filter fun d => !(d == e.die && d == 5)).map g := by
  obtain ⟨v, g, hw, -, -, hn, hu, -⟩ := w.applyWrite_steps e sec xs rel cov id
  exact ⟨g, hn, by rw [hw, W.sendPeer_bus, (W.foldl_write_keeps sec xs v).1, hu]⟩
variable {xs} {w}
/-- Each byte of the list stands at its place, and no other byte has changed. -/
theorem W.applyWrite_read {g : Nat → Byte} (hg : ∀ x ∈ xs, x.2 = g x.1) (a : Nat) :
    (w.applyWrite e sec xs rel cov id).1.read a = if ∃ x ∈ xs, sec + x.1 = a then g (a - sec) else w.read a := by
  obtain ⟨v, -, hw, hb, hl, -⟩ := w.applyWrite_steps e sec xs rel cov id
  rw [hw, (W.sendPeer_quiet _ _ _).read, W.read_foldl_write g sec xs hg]
  simp only [W.read, hb, hl]

/-! ## What its writer and the others see of a write -/

/-- A byte of the sector is one of those that the list names. -/
theorem written_iff (hs : sec % 64 = 0) (hx : ∀ x ∈ xs, x.1 < 64) (k : Nat) : (∃ x ∈ xs, sec + x.1 = k) ↔ sectorKey k = sec ∧ (maskOf xs).getLsbD (k % 64) = true := by
  rw [maskOf_getLsbD _ (Nat.mod_lt k (by decide)), List.any_eq_true]
  simp only [sectorKey, beq_iff_eq]
  constructor
  · rintro ⟨x, hm, rfl⟩
    have := hx x hm
    exact ⟨by omega, x, hm, by omega⟩
  · rintro ⟨hk, x, hm, he⟩
    exact ⟨x, hm, by omega⟩

/-- A write hides a byte from a die's agents. -/
def Unseen.isAt (u : Unseen) (d k : Nat) : Bool := u.die == d && u.key == sectorKey k && u.mask.getLsbD (k % 64)
theorem W.hiddenAt_eq (w : W) (e : Eye) (k : Nat) : w.hiddenAt e k = firstHidden e (w.m.bus.unseen.filter (·.isAt e.die k)) := rfl

theorem overwrite_hides (d sec : Nat) (m : W64) (u : Unseen) (f : Eye) : (overwrite d sec m u).hides f = u.hides f := by unfold overwrite; split <;> rfl
theorem overwrite_old (d sec : Nat) (m : W64) (u : Unseen) : (overwrite d sec m u).old = u.old := by unfold overwrite; split <;> rfl
/-- Overwriting uncovers the bytes of the mask, and no other byte of another die or place. -/
theorem overwrite_isAt (d sec : Nat) (m : W64) (u : Unseen) (c k : Nat) :
    (overwrite d sec m u).isAt c k = (u.isAt c k && !(c == d && sec == sectorKey k && m.getLsbD (k % 64))) := by
  have hk : k % 64 < 64 := Nat.mod_lt k (by decide)
  unfold overwrite Unseen.isAt
  by_cases hd : u.die = d
  · by_cases hs : u.key = sec
    · subst hd hs
      simp only [beq_self_eq_true, Bool.and_self, if_true, BitVec.getLsbD_and, BitVec.getLsbD_not, hk, decide_true, Bool.true_and]
      rw [Bool.eq_iff_iff]
      simp only [Bool.and_eq_true, beq_iff_eq, Bool.not_eq_true']
      grind
    · rw [if_neg (by simp [hs])]
      rw [Bool.eq_iff_iff]
      simp only [Bool.and_eq_true, beq_iff_eq, Bool.not_eq_true']
      grind
  · rw [if_neg (by simp [hd])]
    rw [Bool.eq_iff_iff]
    simp only [Bool.and_eq_true, beq_iff_eq, Bool.not_eq_true']
    grind

theorem range_filter_eq {n d : Nat} (h : d < n) : (List.range n).filter (· == d) = [d] := by
  obtain ⟨l, r, hr, hl, hr'⟩ := range_split h
  rw [hr, List.filter_append, List.filter_cons_of_pos (by simp), List.filter_eq_nil_iff.2, List.filter_eq_nil_iff.2]
  · rfl
  · intro a ha; simp; rintro rfl; exact hr' ha
  · intro a ha; simp; rintro rfl; exact hl ha

/-- Of the entries that a write's home notes, at most that of an observer's die hides a byte of it from the observer. -/
theorem notes_filter {g : Nat → Unseen} {old : List Byte} (hn : ∀ d, (g d).Notes e sec xs old d) {c : Nat} (hc : c < 6) (k : Nat) :
    (((List.range 6).filter fun d => !(d == e.die && d == 5)).map g).filter (·.isAt c k) =
      if (c ≠ 5 ∨ e.die ≠ 5) ∧ sectorKey k = sec ∧ (maskOf xs).getLsbD (k % 64) = true then [g c] else [] := by
  have hat : ∀ d, (g d).isAt c k = (d == c && (sec == sectorKey k && (maskOf xs).getLsbD (k % 64))) := fun d => by
    obtain ⟨hd, hk, hm, -, -⟩ := hn d
    simp only [Unseen.isAt, hd, hk, hm, Bool.and_assoc]
  rw [List.filter_map, List.filter_filter]
  by_cases h : (c ≠ 5 ∨ e.die ≠ 5) ∧ sectorKey k = sec ∧ (maskOf xs).getLsbD (k % 64) = true
  · rw [if_pos h, ← List.map_singleton (f := g), ← range_filter_eq hc]
    congr 1
    refine List.filter_congr fun d _ => ?_
    simp only [Function.comp_apply, hat]
    grind
  · rw [if_neg h, List.map_eq_nil_iff, List.filter_eq_nil_iff]
    intro d _
    simp only [Function.comp_apply, hat]
    grind

/-- What a view rests on: what stood before the first hidden write, if one is hidden. -/
theorem W.view_eq (w : W) (e : Eye) (k : Nat) : w.view e k = match (w.hiddenAt e k).map (·.old) with
    | some o => o.extractLsb' (8 * (k % 64)) 8
    | none => w.read k := by
  unfold W.view
  cases w.hiddenAt e k <;> rfl
/-- Of the writes before it, a write of the outside uncovers its own bytes to the outside, and none uncovers any other. -/
theorem earlier_hidden {us : List Unseen} {f : Eye} {k : Nat} (h : ¬ (e.die = 5 ∧ f.die = e.die ∧ sectorKey k = sec ∧ (maskOf xs).getLsbD (k % 64) = true)) :
    (firstHidden f ((if e.die = 5 then us.map (overwrite e.die sec (maskOf xs)) else us).filter (·.isAt f.die k))).map (·.old) =
      (firstHidden f (us.filter (·.isAt f.die k))).map (·.old) := by
  by_cases h5 : e.die = 5
  · have hc : ((·.isAt f.die k) ∘ overwrite e.die sec (maskOf xs)) = (·.isAt f.die k) := by
      funext u
      rw [Function.comp_apply, overwrite_isAt]
      grind
    rw [if_pos h5, List.filter_map, hc, firstHidden_map f _ (fun u => overwrite_hides _ _ _ u f), Option.map_map]
    congr 1
    funext u
    exact overwrite_old _ _ _ u
  · rw [if_neg h5]

/-- A write's own agent sees it at once. -/
theorem W.applyWrite_view_self (hd : e.die < 6) (hs : sec % 64 = 0) (hx : ∀ x ∈ xs, x.1 < 64) {g : Nat → Byte} (hg : ∀ x ∈ xs, x.2 = g x.1) (k : Nat) :
    (w.applyWrite e sec xs rel cov id).1.view e k = if ∃ x ∈ xs, sec + x.1 = k then g (k - sec) else w.view e k := by
  obtain ⟨n, hn, hu⟩ := w.applyWrite_unseen e sec xs rel cov id
  have hread := W.applyWrite_read (w := w) e sec rel cov id hg k
  have hself : (n e.die).hides e = false := by simp [Unseen.hides, (hn e.die).seers]
  have hlast := notes_filter e sec hn hd k
  rw [W.view_eq, W.hiddenAt_eq, hu, List.filter_append]
  by_cases hw : ∃ x ∈ xs, sec + x.1 = k
  · rw [if_pos hw] at hread ⊢
    obtain ⟨hk, hm⟩ := (written_iff sec hs hx k).1 hw
    have hnone : firstHidden e ((if e.die = 5 then w.m.bus.unseen.map (overwrite e.die sec (maskOf xs)) else w.m.bus.unseen).filter (·.isAt e.die k) ++
        (((List.range 6).filter fun d => !(d == e.die && d == 5)).map n).filter (·.isAt e.die k)) = none := by
      by_cases h5 : e.die = 5
      · rw [hlast, if_pos h5, List.filter_eq_nil_iff.2 fun u hu => ?_, if_neg (by simp [h5])]
        · rfl
        · obtain ⟨v, -, rfl⟩ := List.mem_map.1 hu
          simp [overwrite_isAt, hk, hm]
      · rw [hlast.trans (if_pos ⟨.inl h5, hk, hm⟩), firstHidden_append_one, hself]
        rfl
    rw [hnone]
    exact hread
  · have hw' : ¬ (sectorKey k = sec ∧ (maskOf xs).getLsbD (k % 64) = true) := fun h => hw ((written_iff sec hs hx k).2 h)
    rw [if_neg hw] at hread ⊢
    rw [hlast.trans (if_neg fun h => hw' h.2), List.append_nil, earlier_hidden e sec fun h => hw' h.2.2, W.view_eq, hread]
    rfl
/-- Every other agent still reads what it read. -/
theorem W.applyWrite_view_other (hs : sec % 64 = 0) (hx : ∀ x ∈ xs, x.1 < 64) {g : Nat → Byte} (hg : ∀ x ∈ xs, x.2 = g x.1) (ha : e.agent < 2 ^ 50) {f : Eye} (hf : f.die < 6)
    (hfa : f.agent ≠ e.agent) (hfd : f.die = e.die → e.die < 5) (k : Nat) : (w.applyWrite e sec xs rel cov id).1.view f k = w.view f k := by
  obtain ⟨n, hn, hu⟩ := w.applyWrite_unseen e sec xs rel cov id
  have hread := W.applyWrite_read (w := w) e sec rel cov id hg k
  have hother : (n f.die).hides f = true := by
    obtain ⟨hnd, -, -, -, hseen⟩ := hn f.die
    have : e.agent ≠ regionSeer f.reg := by unfold regionSeer; omega
    simp only [Unseen.hides, hnd, hseen]
    split
    · simp [hfa, Ne.symm this]
    · simp
  have hearly := earlier_hidden e sec (xs := xs) (us := w.m.bus.unseen) (f := f) (k := k) fun h => by omega
  have hlast := notes_filter e sec hn hf k
  rw [W.view_eq, W.hiddenAt_eq, hu, List.filter_append, W.view_eq w, W.hiddenAt_eq w, ← hearly]
  by_cases hw : ∃ x ∈ xs, sec + x.1 = k
  · obtain ⟨hk, hm⟩ := (written_iff sec hs hx k).1 hw
    have hold : (n f.die).old.extractLsb' (8 * (k % 64)) 8 = w.read k := by
      have hlt : k % 64 < 64 := Nat.mod_lt k (by decide)
      rw [(hn f.die).old, extract_leNat _ (by simpa using hlt) (by simp), W.bytes_getD _ _ _ _ hlt]
      congr 1
      unfold sectorKey at hk
      omega
    rw [hlast.trans (if_pos ⟨by omega, hk, hm⟩), firstHidden_append_one, hother, if_pos rfl]
    cases firstHidden f ((if e.die = 5 then w.m.bus.unseen.map (overwrite e.die sec (maskOf xs)) else w.m.bus.unseen).filter (·.isAt f.die k)) with
    | none => exact hold
    | some u => rfl
  · have hw' : ¬ (sectorKey k = sec ∧ (maskOf xs).getLsbD (k % 64) = true) := fun h => hw ((written_iff sec hs hx k).2 h)
    rw [if_neg hw] at hread
    rw [hlast.trans (if_neg fun h => hw' h.2), List.append_nil, hread]
end

end Sys2Proof.Machine
end

section
/-! PROOFS. HOME_WRITE_APPLY: a piece of a store or of an atomic, performed at its home (06_ordering_wide.md R94; 14_sequencer.md R258). -/

namespace Sys2Proof.Machine

/-! ## Requests by their numbers -/

theorem W.req_of_cores {w w' : W} (h : w'.m.bus.reqs.map Req.core = w.m.bus.reqs.map Req.core) {id : Nat} {q : Req} (hq : w.req id = some q) :
    ∃ q', w'.req id = some q' ∧ q'.core = q.core := by
  have key : ∀ l : List Req, (l.find? (·.id == id)).map Req.core = (l.map Req.core).find? (·.id == id) := fun l => by rw [List.find?_map]; rfl
  have hw : (w'.req id).map Req.core = (w.req id).map Req.core := by simp only [W.req, key, h]
  rw [hq] at hw
  obtain ⟨q', h1, h2⟩ := Option.map_eq_some_iff.1 hw
  exact ⟨q', h1, h2⟩
theorem W.req_setReq {w : W} {id : Nat} {q : Req} {f : Req → Req} (hf : ∀ r, (f r).id = r.id) (hq : w.req id = some q) : (w.setReq id f).req id = some (f q) := by
  have hid : q.id = id := by simpa using List.find?_some hq
  simp only [W.req, W.setReq, W.setBus] at hq ⊢
  rw [List.find?_map]
  have hc : ((fun r : Req => r.id == id) ∘ fun r => if r.id == id then f r else r) = fun r => r.id == id := by
    funext r
    simp only [Function.comp_apply]
    split
    · rw [hf]
    · rfl
  rw [hc, hq]
  simp [hid]

/-! ## A piece at its home -/

/-- A request of which one more piece has been performed, with what was read there and the numbers of its writes. -/
def Req.didPiece (q : Req) (i : Nat) (ids : List Nat) (vals : Tbl W512) (fl : Flags) : Req :=
  { q with did := q.did ++ [i], vals := vals, flags := q.flags ||| fl, writes := ids ++ q.writes }
/-- A piece of a request has been performed at its home: the home's controller has accepted it (R81), its bytes are written, and the request holds what was read there. -/
def W.applied (w : W) (r : Req) (i : Nat) (bs : List (Nat × Byte)) (vals : Tbl W512) (fl : Flags) (cov : Cov) (e : Eye) : W :=
  let p := r.pieces.getD i {}
  let w := w.countIn r.die (keyHome p.key)
  let (w, ids) := if bs.isEmpty then (w, [0]) else
    let (w, id) := w.applyWrite e (sectorKey p.key) bs (w.relMark r) cov r.id
    (if w.m.mmu.inv.contains r.id then w.setMmu fun x => { x with writes := id :: x.writes } else w, [id])
  w.setReq r.id fun q => q.didPiece i ids vals fl

theorem W.applyPiece_write {w : W} {r : Req} (h : r.kind = .write) (i : Nat) :
    w.applyPiece r i = w.applied r i (r.pieceBytes (r.pieces.getD i {})) r.vals 0 r.cov (w.reqEye r) := by
  unfold W.applyPiece
  simp only [h]
  rfl

theorem W.countIn_reqs (w : W) (die home : Nat) : (w.countIn die home).m.bus.reqs = w.m.bus.reqs := by
  unfold W.countIn
  split <;> rfl

section
variable (w : W) (r : Req) (i : Nat) (bs : List (Nat × Byte)) (vals : Tbl W512) (fl : Flags) (cov : Cov) (e : Eye)

/-- Up to what no agent sees, a piece at its home is one write of its bytes, or none. -/
theorem W.applied_steps : ∃ (v u : W) (ids : List Nat) (rel : Rel), w.Quiet v ∧ w.applied r i bs vals fl cov e = u.setReq r.id (fun q => q.didPiece i ids vals fl) ∧
    u.m.bus.reqs.map Req.core = w.m.bus.reqs.map Req.core ∧
    ((bs = [] ∧ v.Quiet u) ∨ (v.applyWrite e (sectorKey (r.pieces.getD i {}).key) bs rel cov r.id).1.Quiet u) := by
  unfold W.applied
  dsimp only
  have hq := w.countIn_quiet r.die (keyHome (r.pieces.getD i {}).key)
  have hr := w.countIn_reqs r.die (keyHome (r.pieces.getD i {}).key)
  generalize w.countIn r.die (keyHome (r.pieces.getD i {}).key) = v at hq hr ⊢
  by_cases hb : bs.isEmpty = true
  · rw [if_pos hb]
    exact ⟨v, v, _, {}, hq, rfl, congrArg _ hr, .inl ⟨List.isEmpty_iff.1 hb, .refl v⟩⟩
  · rw [if_neg hb]
    have hc := (v.applyWrite_cores e (sectorKey (r.pieces.getD i {}).key) bs (v.relMark r) cov r.id).trans (congrArg _ hr)
    refine ⟨v, _, _, v.relMark r, hq, rfl, ?_, .inr ?_⟩
    · split
      · exact hc
      · exact hc
    · split
      · exact ⟨rfl, rfl, rfl, rfl, rfl⟩
      · exact .refl _

theorem W.applied_base : (w.applied r i bs vals fl cov e).base = w.base := by
  obtain ⟨v, u, ids, rel, hv, he, -, ⟨-, hu⟩ | hu⟩ := w.applied_steps r i bs vals fl cov e
  · rw [he, (u.setReq_quiet _ _).base, hu.base, hv.base]
  · rw [he, (u.setReq_quiet _ _).base, hu.base, W.applyWrite_base, hv.base]
variable {w r}
theorem W.applied_req {q : Req} (hq : w.req r.id = some q) : ∃ q', (w.applied r i bs vals fl cov e).req r.id = some q' ∧ q'.did = q.did ++ [i] ∧ q'.vals = vals ∧ q'.pieces = q.pieces := by
  obtain ⟨v, u, ids, rel, -, he, hc, -⟩ := w.applied_steps r i bs vals fl cov e
  obtain ⟨q', hq', hcore⟩ := W.req_of_cores hc hq
  have hd : q'.core.did = q.core.did := by rw [hcore]
  have hp : q'.core.pieces = q.core.pieces := by rw [hcore]
  exact ⟨q'.didPiece i ids vals fl, he ▸ W.req_setReq (f := fun q => q.didPiece i ids vals fl) (fun _ => rfl) hq', congrArg (· ++ [i]) hd, rfl, hp⟩
variable {bs} {g : Nat → Byte} (hg : ∀ x ∈ bs, x.2 = g x.1)
include hg
theorem W.applied_read (a : Nat) : (w.applied r i bs vals fl cov e).read a =
    if ∃ x ∈ bs, sectorKey (r.pieces.getD i {}).key + x.1 = a then g (a - sectorKey (r.pieces.getD i {}).key) else w.read a := by
  obtain ⟨v, u, ids, rel, hv, he, -, ⟨hb, hu⟩ | hu⟩ := w.applied_steps r i bs vals fl cov e
  · rw [he, (u.setReq_quiet _ _).read, hu.read, hv.read, if_neg (by simp [hb])]
  · rw [he, (u.setReq_quiet _ _).read, hu.read, W.applyWrite_read _ _ _ _ _ hg, hv.read]
theorem W.applied_view_self (hd : e.die < 6) (hx : ∀ x ∈ bs, x.1 < 64) (k : Nat) : (w.applied r i bs vals fl cov e).view e k =
    if ∃ x ∈ bs, sectorKey (r.pieces.getD i {}).key + x.1 = k then g (k - sectorKey (r.pieces.getD i {}).key) else w.view e k := by
  have hs : sectorKey (r.pieces.getD i {}).key % 64 = 0 := by unfold sectorKey; omega
  obtain ⟨v, u, ids, rel, hv, he, -, ⟨hb, hu⟩ | hu⟩ := w.applied_steps r i bs vals fl cov e
  · rw [he, (u.setReq_quiet _ _).view, hu.view, hv.view, if_neg (by simp [hb])]
  · rw [he, (u.setReq_quiet _ _).view, hu.view, W.applyWrite_view_self _ _ _ _ _ hd hs hx hg, hv.view]
theorem W.applied_view_other (hx : ∀ x ∈ bs, x.1 < 64) (ha : e.agent < 2 ^ 50) {f : Eye} (hf : f.die < 6) (hfa : f.agent ≠ e.agent) (hfd : f.die = e.die → e.die < 5) (k : Nat) :
    (w.applied r i bs vals fl cov e).view f k = w.view f k := by
  have hs : sectorKey (r.pieces.getD i {}).key % 64 = 0 := by unfold sectorKey; omega
  obtain ⟨v, u, ids, rel, hv, he, -, ⟨hb, hu⟩ | hu⟩ := w.applied_steps r i bs vals fl cov e
  · rw [he, (u.setReq_quiet _ _).view, hu.view, hv.view]
  · rw [he, (u.setReq_quiet _ _).view, hu.view, W.applyWrite_view_other _ _ _ _ _ hs hx hg ha hf hfa hfd, hv.view]
end

/-! ## The event -/

/-- HOME_WRITE_APPLY performs the next piece of a request at its home; then a request without a sequencer may be done. -/
theorem homeWriteApply_eq {s : State} {r : Req} {i : Nat} (hr : s.req r.id = some r) (hk : r.kind.writes = true) (hm : ∀ b, r.kind ≠ .mcst b) (hp : mayPerform s.m.bus.reqs r = true)
    (hrel : (W.of s).relReady r = true) (hl : r.left.head? = some i) (ho : (W.of s).homeOpen ((W.of s).reqEye r) (r.pieces.getD i {}).key = true) :
    ∃ v, exec (.homeWriteApply r.id) s = .next (v.commit s) ∧ ((W.of s).applyPiece r i).Quiet v ∧ ∀ q d, r.src = .seq q d → v = (W.of s).applyPiece r i := by
  have hn : (W.of s).nextPiece r = (W.of s, some i) := by
    unfold W.nextPiece
    split
    · exact absurd ‹_› (hm _)
    · exact absurd ‹_› (hm _)
    · rw [hl]
  have hq : (W.of s).req r.id = some r := hr
  have hpm : mayPerform (W.of s).m.bus.reqs r = true := hp
  show ∃ v, execHomeWriteApply r.id s = _ ∧ _
  unfold execHomeWriteApply run
  simp only [hq, hk, hpm, hrel, hn, ho, Bool.and_self, if_true, Bool.not_true, Bool.false_eq_true, if_false]
  refine ⟨_, rfl, ?_, ?_⟩
  · split
    · split
      · exact (W.ownerWrote_quiet _ _ _).trans (W.dropReq_quiet _ _)
      · exact .refl _
    · split
      · exact W.dropReq_quiet _ _
      · exact .refl _
    · split
      · exact W.dropReq_quiet _ _
      · exact .refl _
    · split
      · exact W.dropReq_quiet _ _
      · exact .refl _
    · exact .refl _
  · intro q d hsrc
    rw [hsrc]
    split
    · contradiction
    · contradiction
    · contradiction
    · contradiction
    · rfl

end Sys2Proof.Machine
end

section
/-! PROOFS. HOME_WRITE_APPLY's effect on memory and on what agents see (06_ordering_wide.md R86, R94, R95); from it the first two parts of O40. -/

namespace Sys2Proof.Machine

/-- What is committed is seen as the working state sees it. -/
theorem W.commit_view {s : State} {w : W} (hwf : s.mem.wf = true) (hb : w.base = s.mem) (e : Eye) (k : Nat) : (w.commit s).view e k = w.view e k := by
  have hr : (W.of (w.commit s)).read k = w.read k := W.commit_byte hwf hb k
  simp only [State.view, W.view, hr]
  rfl

/-! ## Consecutive bytes from a place in a sector -/

/-- The bytes f i, of those i below n that c admits, as a write lists them from a place on. -/
def cellsAt (key n : Nat) (c : Nat → Bool) (f : Nat → Byte) : List (Nat × Byte) := ((List.range n).filter c).map fun i => (key % 64 + i, f i)

section
variable {key n : Nat} {c : Nat → Bool} {f : Nat → Byte}
theorem cellsAt_value : ∀ x ∈ cellsAt key n c f, x.2 = f (x.1 - key % 64) := by
  intro x hx
  obtain ⟨i, -, rfl⟩ := List.mem_map.1 hx
  simp
theorem cellsAt_lt (h : key % 64 + n ≤ 64) : ∀ x ∈ cellsAt key n c f, x.1 < 64 := by
  intro x hx
  obtain ⟨i, hi, rfl⟩ := List.mem_map.1 hx
  have := List.mem_range.1 (List.mem_filter.1 hi).1
  dsimp only
  omega
theorem cellsAt_congr {c' : Nat → Bool} (h : ∀ i < n, c i = c' i) : cellsAt key n c f = cellsAt key n c' f := by
  unfold cellsAt
  rw [List.filter_congr fun i hi => h i (List.mem_range.1 hi)]
theorem exists_cellsAt (k : Nat) : (∃ x ∈ cellsAt key n c f, sectorKey key + x.1 = k) ↔ key ≤ k ∧ k < key + n ∧ c (k - key) = true := by
  have hs : sectorKey key + key % 64 = key := by unfold sectorKey; omega
  constructor
  · rintro ⟨x, hx, rfl⟩
    obtain ⟨i, hi, rfl⟩ := List.mem_map.1 hx
    obtain ⟨hn, hc⟩ := List.mem_filter.1 hi
    have := List.mem_range.1 hn
    have he : sectorKey key + (key % 64 + i) - key = i := by omega
    exact ⟨by dsimp only; omega, by dsimp only; omega, by rw [he]; exact hc⟩
  · rintro ⟨h1, h2, h3⟩
    exact ⟨(key % 64 + (k - key), f (k - key)), List.mem_map.2 ⟨k - key, List.mem_filter.2 ⟨List.mem_range.2 (by omega), h3⟩, rfl⟩, by dsimp only; omega⟩
theorem cellsAt_offset (key k : Nat) : k - sectorKey key - key % 64 = k - key := by unfold sectorKey; omega
end

section
variable {w : W} {r : Req} {i : Nat} {p : Piece} (hp : p = r.pieces.getD i {}) (c : Nat → Bool) (f : Nat → Byte) (vals : Tbl W512) (fl : Flags) (cov : Cov) (e : Eye)
include hp
theorem W.applied_cells_read (k : Nat) : (w.applied r i (cellsAt p.key p.len c f) vals fl cov e).read k =
    if p.key ≤ k ∧ k < p.key + p.len ∧ c (k - p.key) = true then f (k - p.key) else w.read k := by
  subst hp
  rw [W.applied_read _ _ _ _ _ (g := fun o => f (o - _ % 64)) cellsAt_value, cellsAt_offset]
  exact if_congr (exists_cellsAt k) rfl rfl
variable (hl : p.key % 64 + p.len ≤ 64)
include hl
theorem W.applied_cells_view_self (hd : e.die < 6) (k : Nat) : (w.applied r i (cellsAt p.key p.len c f) vals fl cov e).view e k =
    if p.key ≤ k ∧ k < p.key + p.len ∧ c (k - p.key) = true then f (k - p.key) else w.view e k := by
  subst hp
  rw [W.applied_view_self _ _ _ _ _ (g := fun o => f (o - _ % 64)) cellsAt_value hd (cellsAt_lt hl), cellsAt_offset]
  exact if_congr (exists_cellsAt k) rfl rfl
theorem W.applied_cells_view_other (ha : e.agent < 2 ^ 50) {g : Eye} (hg : g.die < 6) (hga : g.agent ≠ e.agent) (hgd : g.die = e.die → e.die < 5) (k : Nat) :
    (w.applied r i (cellsAt p.key p.len c f) vals fl cov e).view g k = w.view g k := by
  subst hp
  exact W.applied_view_other _ _ _ _ _ (g := fun o => f (o - _ % 64)) cellsAt_value (cellsAt_lt hl) ha hg hga hgd k
end

/-! ## A store, and an atomic of one word -/

section
variable {s : State} {r : Req} {i : Nat} {p : Piece} {me : Eye} (hwf : s.mem.wf = true) (hr : s.req r.id = some r) (hme : me = (W.of s).reqEye r) (hm : mayPerform s.m.bus.reqs r = true)
  (hrel : (W.of s).relReady r = true) (hleft : r.left.head? = some i) (hp : p = r.pieces.getD i {}) (hl : p.key % 64 + p.len ≤ 64) (hd : r.die < 6) (ha : r.agent < 2 ^ 50)
  (ho : (W.of s).homeOpen me p.key = true)
include hwf hr hme hm hrel hleft hp ho

/-- An atomic writes the bytes of a new word, or, where it swaps nothing, none; its request holds the old word. -/
theorem homeWriteApply_word {n old new : Nat} {upd : Bool} (hk : r.kind.writes = true) (hmc : ∀ b, r.kind ≠ .mcst b) {q d : Nat} (hsrc : r.src = .seq q d) (hi : i = 0) (hps : r.pieces = [p])
    (hlen : p.len = n)
    (h : ∃ (v : W) (fl : Flags) (cov : Cov), (W.of s).Quiet v ∧ v.m.bus.reqs.map Req.core = s.m.bus.reqs.map Req.core ∧ (W.of s).applyPiece r i =
      v.applied r i (cellsAt p.key p.len (fun _ => upd) fun b => BitVec.ofNat 8 (new / 2 ^ (8 * b))) (tput r.vals i (BitVec.ofNat 512 old)) fl cov me) :
    ∃ t r', exec (.homeWriteApply r.id) s = .next t ∧ t.req r.id = some r' ∧ r'.allDone = true ∧ tgetD r'.vals 0 0 = BitVec.ofNat 512 old ∧
      memBytes t.mem p.key n = (if upd then leBytes n new else memBytes s.mem p.key n) ∧ ∀ k, k < p.key ∨ p.key + n ≤ k → t.byte k = s.byte k := by
  subst hme hlen
  obtain ⟨x, hx, -, hsame⟩ := homeWriteApply_eq hr hk hmc hm hrel hleft (hp ▸ ho)
  obtain ⟨v, fl, cov, hv, hc, he⟩ := h
  obtain ⟨q₀, hq₀, hcore⟩ := W.req_of_cores (w := W.of s) (w' := v) hc hr
  obtain ⟨q', hq', hdid, hvals, hpieces⟩ := W.applied_req i (cellsAt p.key p.len (fun _ => upd) fun b => BitVec.ofNat 8 (new / 2 ^ (8 * b))) (tput r.vals i (BitVec.ofNat 512 old)) fl cov
    ((W.of s).reqEye r) hq₀
  have hone : q₀.core.pieces = r.core.pieces := by rw [hcore]
  have hb : x.base = s.mem := by rw [hsame q d hsrc, he, W.applied_base, hv.base]; rfl
  have hbyte : ∀ k, (x.commit s).byte k = if p.key ≤ k ∧ k < p.key + p.len ∧ upd = true then BitVec.ofNat 8 (new / 2 ^ (8 * (k - p.key))) else s.byte k := fun k => by
    rw [W.commit_byte hwf hb, hsame q d hsrc, he, W.applied_cells_read hp, hv.read]
    rfl
  refine ⟨_, q', hx, ?_, ?_, ?_, ?_, fun k hk => ?_⟩
  · rw [← hq', ← he, ← hsame q d hsrc]
    rfl
  · have : q'.pieces = [p] := (hpieces.trans hone).trans hps
    simp only [Req.allDone, this, hdid, List.length_append, List.length_singleton, decide_eq_true_eq]
    omega
  · rw [hvals, hi, tgetD_tput_self]
  · cases upd with
    | true =>
      refine memBytes_eq_of (leBytes_length _ _) fun j hj => ?_
      rw [if_pos rfl, leBytes_getD _ _ _ hj]
      refine (hbyte (p.key + j)).trans ?_
      rw [if_pos ⟨by omega, by omega, rfl⟩, Nat.add_sub_cancel_left]
    | false => exact memBytes_congr fun j hj => (hbyte (p.key + j)).trans (if_neg fun h => Bool.false_ne_true h.2.2)
  · rw [hbyte k, if_neg fun h => by omega]
include hl hd ha

theorem homeWriteApply_store (hk : r.kind = .write) : ∃ t, exec (.homeWriteApply r.id) s = .next t ∧
    (∀ k, t.byte k = if p.key ≤ k ∧ k < p.key + p.len ∧ r.mask.testBit (p.off + (k - p.key)) = true then r.data.extractLsb' (8 * (p.off + (k - p.key))) 8 else s.byte k) ∧
    (∀ k, t.view me k = if p.key ≤ k ∧ k < p.key + p.len ∧ r.mask.testBit (p.off + (k - p.key)) = true then r.data.extractLsb' (8 * (p.off + (k - p.key))) 8 else s.view me k) ∧
    ∀ e : Eye, e.die < 6 → e.agent ≠ r.agent → (e.die = r.die → r.die < 5) → ∀ k, t.view e k = s.view e k := by
  subst hme
  obtain ⟨v, hv, hq, -⟩ := homeWriteApply_eq hr (by rw [hk]; rfl) (by simp [hk]) hm hrel hleft (hp ▸ ho)
  have hcells : r.pieceBytes p = cellsAt p.key p.len (fun i => r.mask.testBit (p.off + i)) (fun i => r.data.extractLsb' (8 * (p.off + i)) 8) := rfl
  rw [W.applyPiece_write hk, ← hp, hcells] at hq
  have hb : v.base = s.mem := by rw [hq.base, W.applied_base]; rfl
  refine ⟨_, hv, fun k => ?_, fun k => ?_, fun e he hea hed k => ?_⟩
  · rw [W.commit_byte hwf hb, hq.read, W.applied_cells_read hp]
    rfl
  · rw [W.commit_view hwf hb, hq.view, W.applied_cells_view_self hp _ _ _ _ _ _ hl hd]
    rfl
  · rw [W.commit_view hwf hb, hq.view, W.applied_cells_view_other hp _ _ _ _ _ _ hl ha he hea hed]
    rfl
end

/-! ## AMO and ACAS -/

theorem atomicStep_amo_fmt {w mask x : Nat} (fmt f y z : Nat) (hm : mask.testBit 0 = true) (hx : x < 2 ^ w) :
    atomicStep (.atomic (16 + f)) fmt 1 w mask x y z = (amoWord w f x (y % 2 ^ w) % 2 ^ w, 0) := by
  simp [atomicStep, hm, Nat.mod_eq_of_lt hx, packElems]
theorem atomicStep_cas_fmt {w mask x : Nat} (fmt y z : Nat) (hm : mask.testBit 0 = true) (hx : x < 2 ^ w) :
    atomicStep .cas fmt 1 w mask x y z = (if x = y % 2 ^ w then z % 2 ^ w else x, 0) := by
  have hnew : (if x = y % 2 ^ w then z % 2 ^ w else x) < 2 ^ w := by
    split
    · exact Nat.mod_lt _ (Nat.two_pow_pos w)
    · exact hx
  simp [atomicStep, hm, Nat.mod_eq_of_lt hx, packElems, Nat.mod_eq_of_lt hnew]

/-- An atomic has read at the home what it replaces: its agent knows those writes, and its response waits until the agent sees what they are after. -/
def W.readHome (w : W) (r : Req) (p : Piece) : W :=
  let us := w.sources (w.reqEye r) true p
  (w.learn (w.reqEye r) r.id (if r.acq then r.scope else 0) us).setReq r.id fun q => { q with
    got := if r.acq then w.acquiredHome (w.reqEye r) r.scope p.key p.len else none
    after := q.after ++ w.owed (w.reqEye r) (max 4 (if r.acq then r.scope else 0)) us }
theorem W.readHome_quiet (w : W) (r : Req) (p : Piece) : w.Quiet (w.readHome r p) := (W.learn_quiet _ _ _ _ _).trans (W.setReq_quiet _ _ _)
theorem W.readHome_cores (w : W) (r : Req) (p : Piece) : (w.readHome r p).m.bus.reqs.map Req.core = w.m.bus.reqs.map Req.core := by
  refine (map_core _ (fun q => ?_) _).trans ?_
  · split <;> rfl
  · unfold W.learn
    split
    · rfl
    · exact Bus.learn_core _ _ _ _ _ _

/-- An atomic of a sequencer, of 4 or 8 bytes: a piece at its home is a read of what stands there and one step on it. -/
theorem W.applyPiece_atomic {w : W} {r : Req} {p : Piece} {i width old : Nat} {x : Nat × Flags} (hp : p = r.pieces.getD i {}) (hw : width = 8 * r.size) (h64 : r.size ≠ 64)
    (hk : r.kind = .cas ∨ ∃ f, r.kind = .atomic (16 + f)) (hold : old = leNat (w.bytes p.key p.len))
    (hx : x = atomicStep r.kind r.fmt (8 * p.len / width) width r.mask old r.data.toNat r.data2.toNat) :
    w.applyPiece r i = (w.readHome r p).applied r i (cellsAt p.key p.len (fun b => r.mask.testBit (b / (width / 8) * (width / 8)) &&
        W.applyPiece.swaps r.kind width (b / (width / 8)) old r.data.toNat) fun b => BitVec.ofNat 8 (x.1 / 2 ^ (8 * b)))
      (tput r.vals i (BitVec.ofNat 512 old)) x.2 (r.cov.join (w.throughAll (w.reqEye r) (w.sources (w.reqEye r) true p))) (w.reqEye r) := by
  subst hx hold hw hp
  unfold W.applyPiece
  rcases hk with hk | ⟨f, hk⟩
  · simp only [hk, if_neg h64]
    rfl
  · simp only [hk, if_pos (Nat.le_add_right 16 f)]
    rfl

section
variable {s : State} {r : Req} {i n : Nat} {p : Piece} {me : Eye} {q d : Nat} (hwf : s.mem.wf = true) (hr : s.req r.id = some r) (hme : me = (W.of s).reqEye r)
  (hm : mayPerform s.m.bus.reqs r = true) (hrel : (W.of s).relReady r = true) (hleft : r.left.head? = some i) (hp : p = r.pieces.getD i {}) (ho : (W.of s).homeOpen me p.key = true)
  (hn : n = 4 ∨ n = 8) (hsrc : r.src = .seq q d) (hi : i = 0) (hps : r.pieces = [p]) (hlen : p.len = n) (hsize : r.size = n) (hmask : r.mask = 2 ^ n - 1) {old : Nat}
  (hold : old = leNat (memBytes s.mem p.key n))
include hn hlen hsize hmask hold

/-- The one word of an AMO or ACAS: every byte of it is in the mask. -/
theorem oneWord : old = leNat ((W.of s).bytes p.key p.len) ∧ old < 2 ^ (8 * n) ∧ 8 * p.len / (8 * r.size) = 1 ∧ r.size ≠ 64 ∧ r.mask.testBit 0 = true ∧
    ∀ b < p.len, b / r.size = 0 := by
  subst hlen hold
  refine ⟨by rw [W.bytes_of], leNat_memBytes_lt _ _ _, by rw [hsize]; exact Nat.div_self (by omega), by omega, ?_, fun b hb => Nat.div_eq_of_lt (by omega)⟩
  rw [hmask]
  rcases hn with h | h
  · rw [h]; decide
  · rw [h]; decide
include hwf hr hme hm hrel hleft hp ho hsrc hi hps

theorem homeWriteApply_amo {f : Nat} (hk : r.kind = .atomic (16 + f)) : ∃ t r', exec (.homeWriteApply r.id) s = .next t ∧ t.req r.id = some r' ∧ r'.allDone = true ∧
    tgetD r'.vals 0 0 = BitVec.ofNat 512 old ∧ memBytes t.mem p.key n = leBytes n (amoWord (8 * n) f old (r.data.toNat % 2 ^ (8 * n))) ∧
    ∀ k, k < p.key ∨ p.key + n ≤ k → t.byte k = s.byte k := by
  obtain ⟨hb, hlt, hone, h64, hbit, hdiv⟩ := oneWord hn hlen hsize hmask hold
  have hx : (amoWord (8 * r.size) f old (r.data.toNat % 2 ^ (8 * r.size)) % 2 ^ (8 * r.size), (0 : Flags)) =
      atomicStep r.kind r.fmt (8 * p.len / (8 * r.size)) (8 * r.size) r.mask old r.data.toNat r.data2.toNat := by
    rw [hk, hone, atomicStep_amo_fmt _ _ _ _ hbit (by rw [hsize]; exact hlt)]
  have he := W.applyPiece_atomic hp rfl h64 (.inr ⟨f, hk⟩) hb hx
  rw [cellsAt_congr (c' := fun _ => true) fun b hb => by simp [hdiv b hb, hbit, hk, W.applyPiece.swaps]] at he
  obtain ⟨t, r', h1, h2, h3, h4, h5, h6⟩ := homeWriteApply_word hwf hr hme hm hrel hleft hp ho (by rw [hk]; rfl) (by simp [hk]) hsrc hi hps hlen
    ⟨_, _, _, W.readHome_quiet _ _ _, W.readHome_cores _ _ _, hme ▸ he⟩
  exact ⟨t, r', h1, h2, h3, h4, by rw [h5, if_pos rfl, hsize, leBytes_mod], h6⟩

theorem homeWriteApply_cas (hk : r.kind = .cas) : ∃ t r', exec (.homeWriteApply r.id) s = .next t ∧ t.req r.id = some r' ∧ r'.allDone = true ∧
    tgetD r'.vals 0 0 = BitVec.ofNat 512 old ∧ memBytes t.mem p.key n = leBytes n (if old = r.data.toNat % 2 ^ (8 * n) then r.data2.toNat % 2 ^ (8 * n) else old) ∧
    ∀ k, k < p.key ∨ p.key + n ≤ k → t.byte k = s.byte k := by
  obtain ⟨hb, hlt, hone, h64, hbit, hdiv⟩ := oneWord hn hlen hsize hmask hold
  have hx : ((if old = r.data.toNat % 2 ^ (8 * r.size) then r.data2.toNat % 2 ^ (8 * r.size) else old), (0 : Flags)) =
      atomicStep r.kind r.fmt (8 * p.len / (8 * r.size)) (8 * r.size) r.mask old r.data.toNat r.data2.toNat := by
    rw [hk, hone, atomicStep_cas_fmt _ _ _ hbit (by rw [hsize]; exact hlt)]
  have he := W.applyPiece_atomic hp rfl h64 (.inl hk) hb hx
  have hlt' : old < 2 ^ (8 * r.size) := by rwa [hsize]
  rw [cellsAt_congr (c' := fun _ => decide (old = r.data.toNat % 2 ^ (8 * r.size))) fun b hb => by
    simp [hdiv b hb, hbit, hk, W.applyPiece.swaps, Nat.mod_eq_of_lt hlt', beq_eq_decide]] at he
  obtain ⟨t, r', h1, h2, h3, h4, h5, h6⟩ := homeWriteApply_word hwf hr hme hm hrel hleft hp ho (by rw [hk]; rfl) (by simp [hk]) hsrc hi hps hlen
    ⟨_, _, _, W.readHome_quiet _ _ _, W.readHome_cores _ _ _, hme ▸ he⟩
  refine ⟨t, r', h1, h2, h3, h4, ?_, h6⟩
  rw [h5, hsize]
  by_cases heq : old = r.data.toNat % 2 ^ (8 * n)
  · simp [heq]
  · have := leBytes_leNat (memBytes s.mem p.key n)
    rw [memBytes_length, ← hold] at this
    simp [heq, this]
end

/-! ## A home that has served a higher id -/

/-- A write that comes after one of a higher id waits for the next cycle. -/
theorem homeWriteApply_closed {s : State} {r : Req} {i : Nat} (hr : s.req r.id = some r) (hk : r.kind = .write) (hl : r.left.head? = some i)
    (ho : (W.of s).homeOpen ((W.of s).reqEye r) (r.pieces.getD i {}).key = false) : exec (.homeWriteApply r.id) s = .next s := by
  have hq : (W.of s).req r.id = some r := hr
  have hn : (W.of s).nextPiece r = (W.of s, some i) := by unfold W.nextPiece; rw [hk, hl]
  show execHomeWriteApply r.id s = _
  unfold execHomeWriteApply run
  simp only [hq, hn, ho, Bool.not_false, if_true, ite_self, W.of_commit]

end Sys2Proof.Machine
end

section
/-! PROOFS. CROSS_DIE_WRITE_VISIBLE (06_ordering_wide.md R95, R96); from it the third part of O40. -/

namespace Sys2Proof.Machine

theorem W.setFld_quiet (w : W) (o hi lo v : Nat) : w.Quiet (w.setFld o hi lo v) := w.setBar_quiet _ _
theorem W.countArea_quiet (w : W) (a : Nat × Nat × List Nat) : w.Quiet (w.countArea a) :=
  (w.setFld_quiet _ _ _ _).trans (W.quiet_ite (W.setFld_quiet _ _ _ _ _) (.refl _))
theorem W.countAreas_quiet (w : W) : w.Quiet w.countAreas := W.quiet_foldl _ (fun w a => (w.countArea_quiet a).trans (W.setHub_quiet _ _)) _ w
theorem W.countArea_aside (w : W) (a : Nat × Nat × List Nat) : w.Aside (w.countArea a) :=
  (w.setFld_aside _ _ _ _).trans (W.aside_ite (W.setFld_aside _ _ _ _ _) (.refl _))
theorem W.countAreas_aside (w : W) : w.Aside w.countAreas := W.aside_foldl _ (fun w a => (w.countArea_aside a).trans (W.setHub_aside _ _)) _ w

/-- What an observer of a die reads rests on that die's entries only. -/
theorem W.view_congr_die {w w' : W} {e : Eye} {k : Nat} (hb : w'.base = w.base) (hl : w'.log = w.log)
    (hu : w'.m.bus.unseen.filter (·.die == e.die) = w.m.bus.unseen.filter (·.die == e.die)) : w'.view e k = w.view e k := by
  have key : ∀ us : List Unseen, us.filter (·.isAt e.die k) = (us.filter (·.die == e.die)).filter (·.isAt e.die k) := fun us => by
    rw [List.filter_filter]
    refine List.filter_congr fun u _ => ?_
    unfold Unseen.isAt
    grind
  simp only [W.view, W.hiddenAt_eq, key w.m.bus.unseen, key w'.m.bus.unseen, hu, W.read, hb, hl]

/-- What other dies are still to see is as before, when a die comes to see a write, or some of its agents do. -/
theorem settle_filter {u : Unseen} {d : Nat} (hd : u.die ≠ d) (l : List Unseen) :
    (execCrossDieWriteVisible.settle u l).filter (·.die == d) = l.filter (·.die == d) := by
  induction l with
  | nil => rfl
  | cons v t ih =>
    unfold execCrossDieWriteVisible.settle
    by_cases hv : v.die = u.die
    · have hn : (v.die == d) = false := beq_eq_false_iff_ne.2 (hv ▸ hd)
      rw [List.filter_cons_of_neg (by simp [hn])]
      split
      · rfl
      · rw [List.filter_cons_of_neg (by split <;> simp [hn]), ih]
    · rw [if_neg (by simp [hv]), if_neg (by simp [hv]), List.filter_cons, List.filter_cons, ih]

section
variable {s : State} {a b : List Unseen} {u : Unseen} (hu : s.m.bus.unseen = a ++ u :: b) (hone : ∀ v ∈ a ++ b, v.id ≠ u.id ∨ v.die ≠ u.die)
include hu hone

theorem unseen_find : (W.of s).m.bus.unseen.find? (fun v => v.die == u.die && v.id == u.id) = some u := by
  show s.m.bus.unseen.find? _ = _
  rw [hu, List.find?_append, List.find?_eq_none.2 fun v hv => ?_]
  · simp
  · have := hone v (List.mem_append_left _ hv)
    simp
    tauto
theorem unseen_settle : execCrossDieWriteVisible.settle u s.m.bus.unseen =
    (a.map fun v => if v.die = u.die ∧ v.key = u.key then { v with mask := v.mask &&& ~~~u.mask } else v) ++ b := by
  rw [hu]
  replace hone : ∀ v ∈ a, v.id ≠ u.id ∨ v.die ≠ u.die := fun v hv => hone v (List.mem_append_left _ hv)
  clear hu
  induction a with
  | nil => simp [execCrossDieWriteVisible.settle]
  | cons v a ih =>
    have hv := hone v List.mem_cons_self
    rw [List.cons_append, execCrossDieWriteVisible.settle, if_neg (by simp; tauto), ih fun v hv => hone v (List.mem_cons_of_mem _ hv)]
    simp
/-- One more agent sees the write. -/
theorem unseen_seen (who : Nat) : s.m.bus.unseen.map (fun v => if v.die == u.die && v.id == u.id then { v with seers := v.seers ++ [who] } else v) =
    a ++ { u with seers := u.seers ++ [who] } :: b := by
  have hid : ∀ l : List Unseen, (∀ v ∈ l, v.id ≠ u.id ∨ v.die ≠ u.die) →
      l.map (fun v => if v.die == u.die && v.id == u.id then { v with seers := v.seers ++ [who] } else v) = l := fun l hl => by
    conv_rhs => rw [← List.map_id l]
    refine List.map_congr_left fun v hv => ?_
    have := hl v hv
    rw [if_neg (by simp; tauto)]
    rfl
  rw [hu, List.map_append, List.map_cons, hid a fun v hv => hone v (List.mem_append_left _ hv), hid b fun v hv => hone v (List.mem_append_right _ hv)]
  simp

/-- An observer may see the write when it sees every other write of its die that comes first for it. -/
theorem mayShow_iff (h5 : u.die ≠ 5) (sees : Unseen → Bool) (whole : Bool) : (W.of s).mayShow u sees whole = true ↔ ∀ v ∈ a ++ b, v.die = u.die →
    (if u.die = u.src then (if whole then u.cov.covers v else u.cov.binds v) else decide (v.src < 5 ∧ v.num ≤ u.cov.vec.getD v.src 0)) = true → sees v = true := by
  have hall : (W.of s).m.bus.unseen = a ++ u :: b := hu
  have hmem : ∀ v, v ∈ a ++ u :: b ↔ v = u ∨ v ∈ a ++ b := fun v => by simp [or_left_comm]
  simp only [W.mayShow, hall, if_neg h5, Bool.and_eq_true, List.all_eq_true, hmem, forall_eq_or_imp]
  constructor
  · rintro ⟨-, -, h⟩ v hv hd hc
    have := hone v hv
    have := h v hv
    grind
  · intro h
    refine ⟨by simp [h5], by simp, fun v hv => ?_⟩
    have := h v hv
    grind

/-- Another die may see the write when it sees every write that its counts cover. -/
theorem mayShow_far (hsrc : u.die ≠ u.src) (h5 : u.die ≠ 5) :
    (W.of s).mayShow u (fun _ => false) true = true ↔ ∀ v ∈ a ++ b, v.die = u.die → v.src < 5 → u.cov.vec.getD v.src 0 < v.num := by
  rw [mayShow_iff hu hone h5]
  refine forall₃_congr fun v _ _ => ?_
  simp [hsrc]
/-- An agent of the writer's die may see the write when it sees every write that binds the die's agents. -/
theorem mayShow_near (hsrc : u.die = u.src) (h5 : u.die < 5) (who : Nat) :
    (W.of s).mayShow u (fun v => v.seers.contains who) false = true ↔ ∀ v ∈ a ++ b, v.die = u.die → u.cov.binds v = true → who ∈ v.seers := by
  rw [mayShow_iff hu hone (by omega)]
  refine forall₃_congr fun v _ _ => ?_
  simp [hsrc]

/-- To see a write, or none: the event at another die. -/
theorem crossDieWriteVisible_far (hsrc : u.die ≠ u.src) (h5 : u.die ≠ 5) :
    ((∀ v ∈ a ++ b, v.die = u.die → v.src < 5 → u.cov.vec.getD v.src 0 < v.num) → ∃ t, exec (.crossDieWriteVisible ⟨u.die, 0⟩ u.id) s = .next t ∧ t.mem = s.mem ∧
      t.m.bus.unseen = (a.map fun v => if v.die = u.die ∧ v.key = u.key then { v with mask := v.mask &&& ~~~u.mask } else v) ++ b ∧ t.m.seqs = s.m.seqs ∧
      t.m.regions = s.m.regions ∧ ∀ e k, e.die ≠ u.die → t.view e k = s.view e k) ∧
    ((∃ v ∈ a ++ b, v.die = u.die ∧ v.src < 5 ∧ v.num ≤ u.cov.vec.getD v.src 0) → exec (.crossDieWriteVisible ⟨u.die, 0⟩ u.id) s = .next s) := by
  have hmay := mayShow_far hu hone hsrc h5
  have hexec : ∀ x, execCrossDieWriteVisible ⟨u.die, 0⟩ u.id s = x ↔ exec (.crossDieWriteVisible ⟨u.die, 0⟩ u.id) s = x := fun x => Iff.rfl
  simp only [← hexec]
  unfold execCrossDieWriteVisible run
  simp only [unseen_find hu hone, if_true]
  refine ⟨fun h => ?_, fun ⟨v, hv, hd, hs, hn⟩ => ?_⟩
  · rw [W.guard, if_pos (hmay.2 h)]
    refine ⟨_, rfl, ?_, ?_, ?_, ?_, fun e k he => ?_⟩
    · rw [W.commit_mem, (W.countAreas_quiet _).log]; rfl
    · rw [W.commit_m, (W.countAreas_quiet _).unseen]; exact unseen_settle hu hone
    · rw [W.commit_m, (W.countAreas_aside _).seqs]; rfl
    · rw [W.commit_m, (W.countAreas_aside _).regions]; rfl
    · refine W.view_congr_die ?_ ?_ ?_
      · rw [W.of, W.commit_mem, (W.countAreas_quiet _).log]; rfl
      · rfl
      · rw [W.of, W.commit_m, (W.countAreas_quiet _).unseen]
        exact settle_filter (Ne.symm he) _
  · rw [W.guard, if_neg fun h => by have := hmay.1 h v hv hd hs; omega]
    rw [W.of_commit]
/-- To see a write, or none: the event for an agent of the writer's die. -/
theorem crossDieWriteVisible_near (hsrc : u.die = u.src) (h5 : u.die < 5) (who : Nat) :
    ((∀ v ∈ a ++ b, v.die = u.die → u.cov.binds v = true → who ∈ v.seers) → ∃ t, exec (.crossDieWriteVisible ⟨u.die, who + 1⟩ u.id) s = .next t ∧ t.mem = s.mem ∧
      t.m.bus.unseen = a ++ { u with seers := u.seers ++ [who] } :: b ∧ t.m.seqs = s.m.seqs ∧ t.m.regions = s.m.regions ∧ ∀ e k, e.die ≠ u.die → t.view e k = s.view e k) ∧
    ((∃ v ∈ a ++ b, v.die = u.die ∧ u.cov.binds v = true ∧ who ∉ v.seers) → exec (.crossDieWriteVisible ⟨u.die, who + 1⟩ u.id) s = .next s) := by
  have hmay := mayShow_near hu hone hsrc h5 who
  have hexec : ∀ x, execCrossDieWriteVisible ⟨u.die, who + 1⟩ u.id s = x ↔ exec (.crossDieWriteVisible ⟨u.die, who + 1⟩ u.id) s = x := fun x => Iff.rfl
  simp only [← hexec]
  unfold execCrossDieWriteVisible run
  simp only [unseen_find hu hone, Nat.add_eq_zero_iff, Nat.one_ne_zero, and_false, if_false, Nat.add_sub_cancel]
  refine ⟨fun h => ?_, fun ⟨v, hv, hd, hs, hn⟩ => ?_⟩
  · rw [W.guard, if_pos (hmay.2 h)]
    refine ⟨_, rfl, rfl, unseen_seen hu hone who, rfl, rfl, fun e k he => W.view_congr_die rfl rfl ?_⟩
    refine (congrArg _ (unseen_seen hu hone who)).trans ?_
    show _ = s.m.bus.unseen.filter _
    rw [hu]
    simp [List.filter_append, beq_eq_false_iff_ne.2 (Ne.symm he)]
  · rw [W.guard, if_neg fun h => hn (hmay.1 h v hv hd hs)]
    rw [W.of_commit]
end

end Sys2Proof.Machine
end

section
/-! PROOFS. Bytes that an agent writes at the copies of a place in one sector (04_memory_spaces.md R76; 06_ordering_wide.md R94, R99). -/

namespace Sys2Proof.Machine

/-! ## The written copy -/

theorem eraseDups_of_all_eq {α : Type} [BEq α] [LawfulBEq α] {a : α} {l : List α} (hne : l ≠ []) (h : ∀ x ∈ l, x = a) : l.eraseDups = [a] := by
  cases l with
  | nil => exact absurd rfl hne
  | cons x t =>
    rw [List.eraseDups_cons, h x List.mem_cons_self, List.filter_eq_nil_iff.2]
    · rfl
    · intro y hy
      simp [h y (List.mem_cons_of_mem _ hy)]
theorem range_zip_eq (bs : List Byte) : (List.range bs.length).zip bs = (List.range bs.length).map fun i => (i, bs.getD i 0) := by
  refine List.ext_getElem (by simp) fun i h1 h2 => ?_
  have hi : i < bs.length := by simpa using h2
  simp [hi]

/-- A write of consecutive bytes within one sector is one write of a sector. -/
theorem W.applyAll_one (w : W) (e : Eye) (rel : Rel) {key : Nat} {bs : List Byte} (h1 : bs ≠ []) (h64 : key % 64 + bs.length ≤ 64) :
    (w.applyAll e rel key bs).1 =
      (w.applyWrite e (sectorKey key) (cellsAt key bs.length (fun _ => true) fun i => bs.getD i 0) rel (w.coverOf e (rel.scope != 0) rel.scope)).1 := by
  have hsec : ∀ i < bs.length, sectorKey (key + i) = sectorKey key := fun i hi => by unfold sectorKey; omega
  have hcells : ((List.range bs.length).zip bs).map (fun x => (key + x.1, x.2)) = (List.range bs.length).map fun i => (key + i, bs.getD i 0) := by
    rw [range_zip_eq, List.map_map]
    rfl
  have hsecs : (((List.range bs.length).map fun i => (key + i, bs.getD i 0)).map fun c => sectorKey c.1).eraseDups = [sectorKey key] := by
    refine eraseDups_of_all_eq (by simpa using h1) fun x hx => ?_
    simp only [List.map_map, List.mem_map, List.mem_range] at hx
    obtain ⟨i, hi, rfl⟩ := hx
    exact hsec i hi
  have hlist : (((List.range bs.length).map fun i => (key + i, bs.getD i 0)).filter fun c => sectorKey c.1 == sectorKey key).map (fun c => (c.1 - sectorKey key, c.2)) =
      cellsAt key bs.length (fun _ => true) fun i => bs.getD i 0 := by
    rw [List.filter_eq_self.2, cellsAt, List.filter_eq_self.2 fun _ _ => rfl, List.map_map]
    · refine List.map_congr_left fun i _ => ?_
      have : key + i - sectorKey key = key % 64 + i := by unfold sectorKey; omega
      simp only [Function.comp_apply, this]
    · intro x hx
      obtain ⟨i, hi, rfl⟩ := List.mem_map.1 hx
      exact beq_iff_eq.2 (hsec i (List.mem_range.1 hi))
  show (((((List.range bs.length).zip bs).map fun x => (key + x.1, x.2)).map fun c => sectorKey c.1).eraseDups.foldl _ (w, ([] : List Nat))).1 = _
  simp only [hcells, hsecs, List.foldl_cons, List.foldl_nil, hlist]

/-! ## The other copies -/

theorem W.countSent_reqs (w : W) (die : Nat) (keys : List Nat) : (w.countSent die none keys).m.bus.reqs = w.m.bus.reqs :=
  List.foldlRecOn (motive := fun v : W => v.m.bus.reqs = w.m.bus.reqs) keys _ rfl fun v h k _ => by
    unfold W.countOut
    split
    · exact h
    split
    · exact h
    split <;> exact h
/-- A request that an engine sends, as it joins the others. -/
def Req.owned (r : Req) (w : W) (e : Eye) (owner : Nat) : Req :=
  { r with id := w.fresh.2, agent := e.agent, die := e.die, src := .engine 51, owner := owner, gone := some (e.id, e.reg) }
theorem W.issueOwned_reqs (w : W) (e : Eye) (owner : Nat) (r : Req) : (w.issueOwned e owner r).m.bus.reqs = w.m.bus.reqs ++ [r.owned w e owner] :=
  congrArg (· ++ [_]) (W.countSent_reqs _ _ _)
theorem W.issueOwned_mem (w : W) (e : Eye) (owner : Nat) (r : Req) : r.owned w e owner ∈ (w.issueOwned e owner r).m.bus.reqs := by
  rw [W.issueOwned_reqs]
  simp
theorem W.issueAll_mono (e : Eye) (owner : Nat) (mk : W → Nat → Req) (ks : List Nat) (w : W) :
    ∀ r ∈ w.m.bus.reqs, r ∈ (ks.foldl (fun w k => w.issueOwned e owner (mk w k)) w).m.bus.reqs :=
  List.foldlRecOn (motive := fun v : W => ∀ r ∈ w.m.bus.reqs, r ∈ v.m.bus.reqs) ks _ (fun _ h => h) fun v h k _ r hr => by
    rw [W.issueOwned_reqs]
    exact List.mem_append_left _ (h r hr)

/-- The write of some bytes that waits for its turn at a further copy of their place. -/
def Req.Sends (r : Req) (agent key : Nat) (bs : List Byte) : Prop :=
  r.kind = .write ∧ r.agent = agent ∧ r.pieces = [{ key := key, off := 0, len := bs.length }] ∧ r.data = BitVec.ofNat 768 (leNat bs)

/-- Within one sector a span is one piece. -/
theorem sectorKeys_one {c n : Nat} (h1 : 1 ≤ n) (h : c % 64 + n ≤ 64) : sectorKeys c n = [sectorKey c] := by
  unfold sectorKeys
  rw [show (c % 64 + n + 63) / 64 = 1 by omega]
  rfl

section
variable (w : W) (e : Eye) (owner part : Nat) (rel : Rel) {k : Nat} {ks : List Nat} {bs : List Byte} (h1 : bs ≠ [])
include h1

/-- Up to what no agent sees, bytes written at the copies of a place are one write, at the first. -/
theorem W.spread_steps (h64 : k % 64 + bs.length ≤ 64) : ∃ (v : W), w.Quiet v ∧ ∃ cov,
    (v.applyWrite e (sectorKey k) (cellsAt k bs.length (fun _ => true) fun i => bs.getD i 0) rel cov).1.Quiet (w.spread e owner part rel (k :: ks) bs).1 := by
  refine ⟨_, w.countReqs_quiet e.die (sectorKeys k bs.length), (w.countReqs e.die none (sectorKeys k bs.length)).coverOf e (rel.scope != 0) rel.scope, ?_⟩
  rw [← W.applyAll_one _ e rel h1 h64]
  exact W.quiet_foldl _ (fun v c => v.issueOwned_quiet e owner _) ks _
theorem W.spread_base (h64 : k % 64 + bs.length ≤ 64) : (w.spread e owner part rel (k :: ks) bs).1.base = w.base := by
  obtain ⟨v, hv, cov, hq⟩ := w.spread_steps e owner part rel h1 h64
  rw [hq.base, W.applyWrite_base, hv.base]
theorem W.spread_read (h64 : k % 64 + bs.length ≤ 64) (a : Nat) : (w.spread e owner part rel (k :: ks) bs).1.read a =
    if k ≤ a ∧ a < k + bs.length then bs.getD (a - k) 0 else w.read a := by
  obtain ⟨v, hv, cov, hq⟩ := w.spread_steps e owner part rel h1 h64
  rw [hq.read, W.applyWrite_read _ _ _ _ _ (g := fun o => bs.getD (o - k % 64) 0) cellsAt_value, cellsAt_offset, hv.read]
  exact if_congr ((exists_cellsAt a).trans (by simp)) rfl rfl
/-- Each further copy waits for its own write. -/
theorem W.spread_other (h64 : ∀ c ∈ ks, c % 64 + bs.length ≤ 64) : ∀ c ∈ ks, ∃ r ∈ (w.spread e owner part rel (k :: ks) bs).1.m.bus.reqs, r.Sends e.agent c bs := by
  have hlen : 1 ≤ bs.length := List.length_pos_iff.2 h1
  unfold W.spread
  dsimp only
  generalize ((w.countReqs e.die none (sectorKeys k bs.length)).applyAll e rel k bs).1 = v
  induction ks generalizing v with
  | nil => simp
  | cons d ks ih =>
    intro c hc
    rw [List.foldl_cons]
    rcases List.mem_cons.1 hc with rfl | hc
    · have hc64 := h64 c List.mem_cons_self
      refine ⟨_, W.issueAll_mono e owner _ ks _ _ (W.issueOwned_mem _ e owner _), rfl, rfl, ?_, rfl⟩
      have hs : max (sectorKey c) c = c := by unfold sectorKey; omega
      have hm : min (sectorKey c + 64) (c + bs.length) - c = bs.length := by unfold sectorKey; omega
      simp only [sectorKeys_one hlen hc64, List.map_cons, List.map_nil, hs, hm, Nat.sub_self]
      rfl
    · exact ih (fun c hc => h64 c (List.mem_cons_of_mem _ hc)) _ c hc
end

/-- Bytes that an agent writes at the copies of a place stand at the first copy at once, and nowhere else; the other copies wait for their own writes. -/
theorem spread_committed {s : State} {w : W} {k n : Nat} {ks : List Nat} {bs : List Byte} (hwf : s.mem.wf = true) (hw : (W.of s).Quiet w) (e : Eye) (owner part : Nat) (rel : Rel)
    (hbs : bs.length = n) (h1 : 1 ≤ n) (h64 : k % 64 + n ≤ 64) (hks : ∀ c ∈ ks, c % 64 = k % 64) :
    memBytes ((w.spread e owner part rel (k :: ks) bs).1.commit s).mem k n = bs ∧
    (∀ a, a < k ∨ k + n ≤ a → ((w.spread e owner part rel (k :: ks) bs).1.commit s).byte a = s.byte a) ∧
    ∀ c ∈ ks, ∃ r ∈ ((w.spread e owner part rel (k :: ks) bs).1.commit s).m.bus.reqs, r.kind = .write ∧ r.agent = e.agent ∧ r.pieces = [{ key := c, off := 0, len := n }] ∧
      r.data = BitVec.ofNat 768 (leNat bs) := by
  subst hbs
  have hne : bs ≠ [] := List.length_pos_iff.1 h1
  have hbyte : ∀ a, ((w.spread e owner part rel (k :: ks) bs).1.commit s).byte a = if k ≤ a ∧ a < k + bs.length then bs.getD (a - k) 0 else s.byte a := fun a => by
    rw [W.commit_byte hwf ((W.spread_base w e owner part rel hne h64).trans hw.base), W.spread_read w e owner part rel hne h64, hw.read]
    rfl
  refine ⟨memBytes_eq_of rfl fun i hi => ?_, fun a ha => ?_, fun c hc => W.spread_other w e owner part rel hne (fun c hc => by rw [hks c hc]; exact h64) c hc⟩
  · refine (hbyte (k + i)).trans ?_
    rw [if_pos ⟨by omega, by omega⟩, Nat.add_sub_cancel_left]
  · rw [hbyte a, if_neg (by omega)]

/-! ## The hub's own records -/

theorem W.hub_foldl {α : Type} (f : W → α → W) (h : ∀ (w : W) (a : α), (f w a).m.hub = w.m.hub) (l : List α) (w : W) : (l.foldl f w).m.hub = w.m.hub :=
  List.foldlRecOn (motive := fun v : W => v.m.hub = w.m.hub) l f rfl fun _ k a _ => (h _ a).trans k
theorem W.countOut_hub (w : W) (die home : Nat) : (w.countOut die home).m.hub = w.m.hub := by
  unfold W.countOut
  split
  · rfl
  split
  · rfl
  split <;> rfl
theorem W.countIn_hub (w : W) (die home : Nat) : (w.countIn die home).m.hub = w.m.hub := by
  unfold W.countIn
  split <;> rfl
theorem W.countSent_hub (w : W) (die : Nat) (keys : List Nat) : (w.countSent die none keys).m.hub = w.m.hub :=
  W.hub_foldl _ (fun w _ => w.countOut_hub die _) keys w
theorem W.countReqs_hub (w : W) (die : Nat) (keys : List Nat) : (w.countReqs die none keys).m.hub = w.m.hub :=
  (W.hub_foldl _ (fun w _ => w.countIn_hub die _) keys _).trans (w.countSent_hub die keys)
theorem W.issueOwned_hub (w : W) (e : Eye) (owner : Nat) (r : Req) : (w.issueOwned e owner r).m.hub = w.m.hub := (w.fresh.1.countSent_hub _ _ :)
theorem W.applyAll_hub (w : W) (e : Eye) (rel : Rel) (key : Nat) (bs : List Byte) : (w.applyAll e rel key bs).1.m.hub = w.m.hub :=
  List.foldlRecOn (motive := fun v : W × List Nat => v.1.m.hub = w.m.hub) _ _ rfl fun v h _ _ => (v.1.applyWrite_hub _ _ _ _ _ _).trans h
theorem W.spread_hub (w : W) (e : Eye) (owner part : Nat) (rel : Rel) (keys : List Nat) (bs : List Byte) : (w.spread e owner part rel keys bs).1.m.hub = w.m.hub := by
  unfold W.spread
  split
  · rfl
  · exact ((W.hub_foldl _ (fun v _ => v.issueOwned_hub e owner _) _ _).trans (W.applyAll_hub _ _ _ _ _)).trans (w.countReqs_hub _ _)

end Sys2Proof.Machine
end

section
/-! PROOFS. Accesses of the hub's agents at the home copy of a place (04_memory_spaces.md R76; 06_ordering_wide.md R94, R99); from them and the two events O40. -/

namespace Sys2Proof.Machine

/-! ## Where an access goes -/

theorem sectorsOf_one {va n : Nat} (h1 : 1 ≤ n) (h : va % 64 + n ≤ 64) : sectorsOf va n = [(va, 0, n)] := by
  unfold sectorsOf
  rw [show (va + n - 1) / 64 - va / 64 + 1 = 1 by omega]
  show [((va, va - va, min (va + n) ((va / 64 + 0 + 1) * 64) - va) : Nat × Nat × Nat)] = _
  rw [Nat.sub_self, show min (va + n) ((va / 64 + 0 + 1) * 64) - va = n by omega]
/-- An access of a hub agent within one sector, of a page that the hub's TLB holds. -/
theorem W.placed_hub (w : W) {src : Src} {part n : Nat} {va : W64} {a : Access} {l : Leaf} {off x : Nat} (hu : w.unitsOf src = [4]) (h1 : 1 ≤ n) (h64 : va.toNat % 64 + n ≤ 64)
    (hl : w.hubLookup part va a = .ok l off x) (t : Touch) (unit : Nat) :
    w.placed src part va n a t unit = (w, .ok ([l], (t.keys l off).map fun k => { key := k, off := 0, len := n }, [x])) := by
  have hl' : w.lookup [4] part va a = .ok l off x := hl
  unfold W.placed
  rw [hu, sectorsOf_one h1 h64]
  simp only [List.foldl_cons, List.foldl_nil, BitVec.ofNat_toNat, BitVec.setWidth_eq, hl', List.nil_append]
  cases w.m.mmu.tlb.find? (fun t => t.id == x) <;> simp

/-- A page that is no REPLICA page has one copy of each byte. -/
theorem leafKeys_single {l : Leaf} (h : l.place ≠ 2) (off : Nat) : leafKeys l off = [hubKey l off] := by
  rw [hubKey, if_neg h]
  unfold leafKeys
  split
  · rfl
  · rfl
  · exact absurd ‹_› h
  · rfl
  · rfl
theorem home_keys (l : Leaf) (off : Nat) : Touch.home.keys l off = [hubKey l off] := by
  unfold Touch.keys
  split
  · rw [hubKey, if_pos ‹_›]
  · exact leafKeys_single ‹_› off
/-- A store goes to the home's copy first, and to every other copy, each at the same place in its sector. -/
theorem copies_keys (l : Leaf) (off : Nat) : ∃ ks, Touch.copies.keys l off = hubKey l off :: ks ∧ (∀ c ∈ hubCopies l off, c ≠ hubKey l off → c ∈ ks) ∧
    ∀ c ∈ ks, c % 64 = hubKey l off % 64 := by
  unfold Touch.keys
  split
  next h =>
    refine ⟨((List.range 4).filter (· != replicaHome (l.pa + off))).map fun d => keyDie d (l.pa + off), ?_, fun c hc hne => ?_, fun c hc => ?_⟩
    · rw [hubKey, if_pos h]
    · have hk : c ∈ leafKeys l off := (List.mem_filter.1 ((List.mem_cons.1 hc).resolve_left hne)).1
      have hd : ∃ d < 4, c = keyDie d (l.pa + off) := by
        unfold leafKeys at hk
        rw [h] at hk
        simp only [List.mem_cons, List.not_mem_nil, or_false] at hk
        rcases hk with rfl | rfl | rfl | rfl
        · exact ⟨0, by decide, rfl⟩
        · exact ⟨1, by decide, rfl⟩
        · exact ⟨2, by decide, rfl⟩
        · exact ⟨3, by decide, rfl⟩
      obtain ⟨d, hd4, rfl⟩ := hd
      rw [hubKey, if_pos h] at hne
      exact List.mem_map.2 ⟨d, List.mem_filter.2 ⟨List.mem_range.2 hd4, bne_iff_ne.2 fun he => hne (by rw [he])⟩, rfl⟩
    · obtain ⟨d, -, rfl⟩ := List.mem_map.1 hc
      rw [hubKey, if_pos h]
      unfold keyDie
      omega
  next h =>
    refine ⟨[], leafKeys_single h off, fun c hc hne => ?_, by simp⟩
    have hk : c ∈ leafKeys l off := (List.mem_filter.1 ((List.mem_cons.1 hc).resolve_left hne)).1
    rw [leafKeys_single h off] at hk
    exact absurd (List.mem_singleton.1 hk) hne

/-- The pieces of an access within one sector are the copies of one part of it. -/
theorem parts_one {ks : List Nat} (hne : ks ≠ []) (n : Nat) :
    (((ks.map fun k => ({ key := k, off := 0, len := n } : Piece)).map (·.off)).eraseDups).map (fun o => (ks.map fun k => ({ key := k, off := 0, len := n } : Piece)).filter (·.off == o)) =
      [ks.map fun k => { key := k, off := 0, len := n }] := by
  rw [eraseDups_of_all_eq (a := 0) (by simpa using hne) (by simp), List.map_singleton, List.filter_eq_self.2]
  intro p hp
  obtain ⟨k, -, rfl⟩ := List.mem_map.1 hp
  rfl

/-! ## The three accesses -/

section
variable {s : State} {src : Src} {part : Nat} {va : W64} {n : Nat} {l : Leaf} {off k : Nat} {e : Eye} (hwf : s.mem.wf = true) (hu : (W.of s).unitsOf src = [4]) (h1 : 1 ≤ n)
  (h64 : va.toNat % 64 + n ≤ 64) (he : e = hubAgent ((W.of s).srcAgent src)) (hk : k = hubKey l off) (hk64 : k % 64 + n ≤ 64)
include hu h1 h64 he hk

/-- A hub agent's read, once it may read. -/
theorem hubGet_cases {a : Access} {sc b : Nat} {sees : Bool} (hat : s.hubAt part va a l off) (hway : (W.of s).wayOpen k = true)
    (hsees : sees = (W.of s).seesAll e ((W.of s).owed e sc ((W.of s).sources e false { key := k, len := n }))) :
    (sees = true → sectorKey k ∉ s.m.bus.bad → ∃ w r, (W.of s).hubGet src part va n a sc b = (w, .ok ((W.of s).viewBytes e k n, r)) ∧ (w.commit s).mem = s.mem) ∧
    (sees = true → sectorKey k ∈ s.m.bus.bad → ∃ w, (W.of s).hubGet src part va n a sc b = (w, .error (.fault 0x370 va)) ∧ (w.commit s).mem = s.mem) ∧
    (sees = false → ∃ w, (W.of s).hubGet src part va n a sc b = (w, .error .wait) ∧ (w.commit s).mem = s.mem) := by
  obtain ⟨x, hx⟩ := hat
  subst he hk hsees
  have hcount := (W.of s).countReqs_quiet 4 [hubKey l off]
  have hbad : ∀ p : Piece, ((W.of s).countReqs 4 none [hubKey l off]).dramBad [p] = s.m.bus.bad.contains (sectorKey p.key) := fun p => by
    simp only [W.dramBad, hcount.bad, List.any_cons, List.any_nil, Bool.or_false]
    rfl
  unfold W.hubGet
  simp only [W.placed_hub _ hu h1 h64 hx, home_keys, List.map_cons, List.map_nil, List.all_cons, List.all_nil, Bool.and_true, hway, Bool.true_and]
  refine ⟨fun hs hb => ?_, fun hs hb => ?_, fun hs => ?_⟩
  · have hq := hcount.trans (W.learn_quiet _ (hubAgent ((W.of s).srcAgent src)) 0 sc
      (((W.of s).countReqs 4 none [hubKey l off]).sources (hubAgent ((W.of s).srcAgent src)) false { key := hubKey l off, off := 0, len := n }))
    simp only [hs, hbad, hb, List.contains_eq_mem, decide_false, Bool.not_true, Bool.false_eq_true, if_false, List.foldl_cons, List.foldl_nil, List.flatMap_cons, List.flatMap_nil,
      List.append_nil, hq.viewBytes]
    exact ⟨_, _, rfl, hq.mem⟩
  · simp only [hs, hbad, hb, List.contains_eq_mem, decide_true, Bool.not_true, Bool.false_eq_true, if_false, if_true]
    exact ⟨_, rfl, hcount.mem⟩
  · simp only [hs]
    exact ⟨_, rfl, by rw [W.of_commit]⟩
variable (ho : (W.of s).homeOpen e k = true)
include hwf hk64 ho

theorem hubPut_stores (rel : Rel) {bs : List Byte} (hbs : bs.length = n) (hat : s.hubAt part va .write l off) : ∃ w ids, (W.of s).hubPut src part va rel bs = (w, .ok ids) ∧
    memBytes (w.commit s).mem k n = bs ∧ (∀ a, a < k ∨ k + n ≤ a → (w.commit s).byte a = s.byte a) ∧
    ∀ c ∈ hubCopies l off, c ≠ k → ∃ r ∈ (w.commit s).m.bus.reqs, r.kind = .write ∧ r.agent = e.agent ∧ r.pieces = [{ key := c, off := 0, len := n }] ∧
      r.data = BitVec.ofNat 768 (leNat bs) := by
  obtain ⟨x, hx⟩ := hat
  obtain ⟨ks, hkeys, hmem, hmod⟩ := copies_keys l off
  have hp := W.placed_hub (W.of s) hu h1 h64 hx .copies 0xF
  have hcomm := fun rel => spread_committed hwf (.refl _) e 0 part rel hbs h1 hk64 (hk ▸ hmod)
  subst hbs he
  rw [← hk] at hkeys hmem
  have hparts := parts_one (ks := k :: ks) (by simp) bs.length
  unfold W.hubPut
  rw [hp, hkeys]
  dsimp only
  rw [hparts]
  simp only [List.all_cons, List.all_nil, Bool.and_true, List.map_cons, List.headD_cons, ho, Bool.not_true, Bool.false_eq_true, if_false, List.foldl_cons, List.foldl_nil,
    List.map_map, Function.comp_def, List.map_id', List.drop_zero, List.take_length]
  obtain ⟨hm, hf, hr⟩ := hcomm (if rel.scope ≠ 0 ∧ ([l].any fun l => decide (3 ≤ l.place)) = true then { rel with scope := 5 } else rel)
  exact ⟨_, _, rfl, hm, hf, fun c hc hne => hr c (hmem c hc hne)⟩

theorem hubSignal_adds (v : W64) (rel : Rel) (h8 : n = 8) (hat : s.hubAt part va .atomic l off) : ∃ w ids, (W.of s).hubSignal src part va 2 v rel false = (w, .ok ids) ∧
    memBytes (w.commit s).mem k 8 = leBytes 8 (leNat (memBytes s.mem k 8) + v.toNat) ∧ ∀ a, a < k ∨ k + 8 ≤ a → (w.commit s).byte a = s.byte a := by
  obtain ⟨x, hx⟩ := hat
  subst h8 he
  have hp := W.placed_hub (W.of s) hu h1 h64 hx .home 0xF
  have hcomm := fun rel => spread_committed (ks := []) hwf ((W.of s).learn_quiet (hubAgent ((W.of s).srcAgent src)) 0 0
      ((W.of s).sources (hubAgent ((W.of s).srcAgent src)) true { key := k, off := 0, len := 8 })) (hubAgent ((W.of s).srcAgent src)) 0 part rel
    (leBytes_length 8 (leNat (memBytes s.mem k 8) + v.toNat)) h1 hk64 (by simp)
  rw [home_keys, ← hk] at hp
  unfold W.hubSignal
  simp only [if_true, hp, List.map_cons, List.map_nil, List.headD_cons, ho, Bool.not_true, Bool.false_eq_true, if_false, Bool.false_and, W.bytes_of]
  obtain ⟨hm, hf, -⟩ := hcomm (if ([l].any fun l => decide (3 ≤ l.place)) = true then { rel with scope := 5 } else rel)
  exact ⟨_, _, rfl, hm, hf⟩

theorem hubSignal_stores (v : W64) (rel : Rel) (h8 : n = 8) (hat : s.hubAt part va .write l off) : ∃ w ids, (W.of s).hubSignal src part va 1 v rel false = (w, .ok ids) ∧
    memBytes (w.commit s).mem k 8 = leBytes 8 v.toNat ∧ (∀ a, a < k ∨ k + 8 ≤ a → (w.commit s).byte a = s.byte a) ∧
    ∀ c ∈ hubCopies l off, c ≠ k → ∃ r ∈ (w.commit s).m.bus.reqs, r.kind = .write ∧ r.agent = e.agent ∧ r.pieces = [{ key := c, off := 0, len := 8 }] ∧
      r.data = BitVec.ofNat 768 v.toNat := by
  obtain ⟨x, hx⟩ := hat
  obtain ⟨ks, hkeys, hmem, hmod⟩ := copies_keys l off
  have hp := W.placed_hub (W.of s) hu h1 h64 hx .copies 0xF
  subst h8 he
  have hcomm := fun rel => spread_committed hwf (.refl _) (hubAgent ((W.of s).srcAgent src)) 0 part rel (leBytes_length 8 v.toNat) h1 hk64 (hk ▸ hmod)
  rw [hkeys, ← hk] at hp
  rw [← hk] at hmem
  rw [leNat_leBytes, Nat.mod_eq_of_lt v.isLt] at hcomm
  unfold W.hubSignal
  simp only [show ¬ (1 = 2) by decide, if_false, hp, List.map_cons, List.headD_cons, ho, Bool.not_true, Bool.false_eq_true, Bool.false_and, List.map_map, Function.comp_def, List.map_id']
  obtain ⟨hm, hf, hr⟩ := hcomm (if ([l].any fun l => decide (3 ≤ l.place)) = true then { rel with scope := 5 } else rel)
  exact ⟨_, _, rfl, hm, hf, fun c hc hne => hr c (hmem c hc hne)⟩
end

/-- Settles O40: a write at its home is noted for the dies that are still to see it, so its writer sees it and no other agent does (`W.applyWrite_view_self`, `W.applyWrite_view_other`); a
hub agent's write is such a write at the home's copy and a request for each other copy (`spread_committed`). -/
theorem homeWrites : Obligations.HomeWrites := by
  refine ⟨⟨fun s r i p me hwf hr hme hm hrel hleft hp hl hd ha ho => ⟨homeWriteApply_store hwf hr hme hm hrel hleft hp hl hd ha ho,
      fun n f q d old hn hsrc hi hps _ hlen hsize hmask hold => ⟨?amo, ?cas⟩⟩,
    fun s r i hr hk hl ho => homeWriteApply_closed hr hk hl ho,
    fun s a b u hu hone => ⟨fun hsrc h5 => crossDieWriteVisible_far hu hone hsrc h5, fun hsrc h5 who => crossDieWriteVisible_near hu hone hsrc h5 who⟩⟩,
    fun s src part va n l off k e hwf hu h1 h64 he hk hk64 => ⟨fun a sc b sees hat hway hsees => hubGet_cases hu h1 h64 he hk hat hway hsees, fun ho => ⟨?put, ?add, ?store⟩⟩⟩
  case amo => exact homeWriteApply_amo hwf hr hme hm hrel hleft hp ho hn hsrc hi hps hlen hsize hmask hold
  case cas => exact homeWriteApply_cas hwf hr hme hm hrel hleft hp ho hn hsrc hi hps hlen hsize hmask hold
  case put => exact fun rel bs hbs hat => hubPut_stores hwf hu h1 h64 he hk hk64 ho rel hbs hat
  case add => exact fun v rel h8 _ hat => hubSignal_adds hwf hu h1 h64 he hk hk64 ho v rel h8 hat
  case store => exact fun v rel h8 _ hat => hubSignal_stores hwf hu h1 h64 he hk hk64 ho v rel h8 hat

end Sys2Proof.Machine
end

section
/-! PROOFS. The copies that the engines hold, and ENGINE_POP (06_ordering_wide.md R100, R103; 04_memory_spaces.md R239). -/

namespace Sys2Proof.Machine

/-! ## Copies by their numbers -/

theorem W.copy_of_hub {w w' : W} (h : w'.m.hub = w.m.hub) (id : Nat) : w'.copy id = w.copy id := by simp only [W.copy, h]
theorem W.copy_id {w : W} {id : Nat} {c : Copy} (h : w.copy id = some c) : c.id = id := by simpa using List.find?_some h
theorem W.copy_setCopy {w : W} {id : Nat} {c : Copy} {f : Copy → Copy} (hf : ∀ c, (f c).id = c.id) (h : w.copy id = some c) : (w.setCopy id f).copy id = some (f c) := by
  have hid := W.copy_id h
  unfold W.copy at h ⊢
  show (w.m.hub.copies.map fun c => if c.id == id then f c else c).find? _ = _
  have hc : ((fun c : Copy => c.id == id) ∘ fun c => if c.id == id then f c else c) = fun c => c.id == id := by
    funext c
    simp only [Function.comp_apply]
    split
    · rw [hf]
    · rfl
  rw [List.find?_map, hc, h]
  simp [hid]
/-- A change of the one copy of a number. -/
theorem map_one_copy {l r : List Copy} {c : Copy} (f : Copy → Copy) (hone : ∀ x ∈ l ++ r, x.id ≠ c.id) :
    (l ++ c :: r).map (fun x => if x.id == c.id then f x else x) = l ++ f c :: r := by
  have hid : ∀ l : List Copy, (∀ x ∈ l, x.id ≠ c.id) → l.map (fun x => if x.id == c.id then f x else x) = l := fun l hl => by
    conv_rhs => rw [← List.map_id l]
    exact List.map_congr_left fun x hx => if_neg (by simpa using hl x hx)
  rw [List.map_append, List.map_cons, hid l fun x hx => hone x (List.mem_append_left _ hx), hid r fun x hx => hone x (List.mem_append_right _ hx)]
  simp

theorem W.setCopy_quiet (w : W) (id : Nat) (f : Copy → Copy) : w.Quiet (w.setCopy id f) := w.setHub_quiet _
theorem W.pennant_quiet (w : W) (ring part : Nat) (p : Pennant) : w.Quiet (w.pennant ring part p).1 := by
  unfold W.pennant
  dsimp only
  split
  · exact ⟨rfl, rfl, rfl, rfl, rfl⟩
  · exact ⟨rfl, rfl, rfl, rfl, rfl⟩
theorem W.pennant_hub (w : W) (ring part : Nat) (p : Pennant) : (w.pennant ring part p).1.m.hub = w.m.hub := by
  unfold W.pennant
  dsimp only
  split <;> rfl

/-! ## Which position a request feeds -/

theorem W.pickFeed_quiet (w : W) (src : Src) (r : Nat) (dst : W64) : w.Quiet (w.pickFeed src r dst).1 := by
  unfold W.pickFeed
  split
  · exact w.draw_quiet 2
  · exact .refl w
theorem W.pickFeed_hub (w : W) (src : Src) (r : Nat) (dst : W64) : (w.pickFeed src r dst).1.m.hub = w.m.hub := by
  unfold W.pickFeed
  split <;> rfl
/-- A request to global memory, or to a cell without an engine-fed RECV, feeds nothing (R239). -/
theorem W.pickFeed_none (w : W) (src : Src) (r : Nat) (dst : W64) (h : isBank dst = false ∨ (w.region r).fedRecv (bankCell dst) = none) : (w.pickFeed src r dst).2 = none := by
  unfold W.pickFeed
  split
  next h1 h2 => simp [h1, h2] at h
  next => rfl

/-- The position that a copy feeds: none when it reduces or has a LAND element (R224, R239). -/
def W.copyFeed (w : W) (c : Copy) : W × Option Nat := if c.redop = 0 && !c.landen then w.pickFeed c.src c.region c.dst else (w, none)
theorem W.copyFeed_quiet (w : W) (c : Copy) : w.Quiet (w.copyFeed c).1 := by
  unfold W.copyFeed
  split
  · exact w.pickFeed_quiet _ _ _
  · exact .refl w
theorem W.copyFeed_hub (w : W) (c : Copy) : (w.copyFeed c).1.m.hub = w.m.hub := by
  unfold W.copyFeed
  split
  · exact w.pickFeed_hub _ _ _
  · rfl
theorem W.copyFeed_none (w : W) (c : Copy) (h : c.redop ≠ 0 ∨ c.landen = true ∨ isBank c.dst = false ∨ (w.region c.region).fedRecv (bankCell c.dst) = none) :
    (w.copyFeed c).2 = none := by
  unfold W.copyFeed
  split
  next hc =>
    simp only [Bool.and_eq_true, decide_eq_true_eq, Bool.not_eq_true'] at hc
    exact W.pickFeed_none _ _ _ _ ((h.resolve_left (not_not_intro hc.1)).resolve_left (by simp [hc.2]))
  next => rfl

/-! ## ENGINE_POP -/

section
variable {s : State} {l r : List Copy} {c : Copy} (hcs : s.m.hub.copies = l ++ c :: r) (hold : ∀ x ∈ l, x.eng ≠ c.eng ∨ x.agent ≠ c.agent ∨ x.popped = true) (hp : c.popped = false)
include hcs hold hp

/-- The oldest request that an agent has sent an engine. -/
theorem oldest_copy : (W.of s).m.hub.copies.find? (fun x => x.eng == c.eng && x.agent == c.agent && !x.popped) = some c := by
  show s.m.hub.copies.find? _ = _
  rw [hcs, List.find?_append, List.find?_eq_none.2 fun x hx => ?_]
  · simp [hp]
  · have := hold x hx
    simp
    tauto
/-- An unpopped request sent on the same cycle by an agent of a lower id comes first. -/
theorem lower_iff : ((W.of s).m.hub.copies.any fun x => x.eng == c.eng && !x.popped && decide (x.sent = c.sent ∧ x.agent < c.agent)) = true ↔
    ∃ x ∈ l ++ r, x.eng = c.eng ∧ x.popped = false ∧ x.sent = c.sent ∧ x.agent < c.agent := by
  have hall : (W.of s).m.hub.copies = l ++ c :: r := hcs
  rw [hall, List.any_eq_true]
  constructor
  · rintro ⟨x, hx, hc⟩
    simp only [Bool.and_eq_true, beq_iff_eq, Bool.not_eq_true', decide_eq_true_eq] at hc
    obtain ⟨⟨h1, h2⟩, h3, h4⟩ := hc
    refine ⟨x, ?_, h1, h2, h3, h4⟩
    rcases List.mem_append.1 hx with h | h
    · exact List.mem_append_left _ h
    · rcases List.mem_cons.1 h with rfl | h
      · omega
      · exact List.mem_append_right _ h
  · rintro ⟨x, hx, h1, h2, h3, h4⟩
    refine ⟨x, ?_, by simp [h1, h2, h3, h4]⟩
    rcases List.mem_append.1 hx with h | h
    · exact List.mem_append_left _ h
    · exact List.mem_append_right _ (List.mem_cons_of_mem _ h)

variable (he : c.eng ≠ 48)
include he

theorem enginePop_waits (hlow : ∃ x ∈ l ++ r, x.eng = c.eng ∧ x.popped = false ∧ x.sent = c.sent ∧ x.agent < c.agent) : exec (.enginePop c.eng c.agent) s = .next s := by
  have hfind := oldest_copy hcs hold hp
  have hany := (lower_iff hcs hold hp).2 hlow
  show execEnginePop c.eng c.agent s = _
  unfold execEnginePop run
  simp only [if_neg he, hfind, hany, Bool.or_true, if_true, W.of_commit]
variable (hh : (s.part c.part).halted = false)
include hh
theorem enginePop_takes (hone : ∀ x ∈ l ++ r, x.id ≠ c.id) (hlow : ∀ x ∈ l ++ r, x.eng = c.eng → x.popped = false → x.sent = c.sent → c.agent ≤ x.agent) {ref : W32}
    (href : ref = ((W.of s).pennant (engRing c.eng) c.part ⟨(W.of s).engAgent c.eng, c.agent, c.ref, s.ns, s.ns, s.ns, 0x30, c.step⟩).2) :
    ∃ t fd, exec (.enginePop c.eng c.agent) s = .next t ∧ t.mem = s.mem ∧ t.m.hub.copies = l ++ { c with popped := true, popRef := ref, feed := fd } :: r ∧
      (c.redop ≠ 0 ∨ c.landen = true ∨ isBank c.dst = false ∨ (s.region c.region).fedRecv (bankCell c.dst) = none → fd = none) := by
  have hfind := oldest_copy hcs hold hp
  have hany := mt (lower_iff hcs hold hp).1 (by rintro ⟨x, hx, h1, h2, h3, h4⟩; have := hlow x hx h1 h2 h3; omega)
  have hh' : ((W.of s).part c.part).halted = false := hh
  set v := (W.of s).pennant (engRing c.eng) c.part ⟨(W.of s).engAgent c.eng, c.agent, c.ref, s.ns, s.ns, s.ns, 0x30, c.step⟩ with hv
  set y := v.1.copyFeed c with hy
  have hexec : exec (.enginePop c.eng c.agent) s = .next ((y.1.setCopy c.id fun c => { c with popped := true, popRef := ref, feed := y.2 }).commit s) := by
    show execEnginePop c.eng c.agent s = _
    unfold execEnginePop run
    simp only [if_neg he, hfind, hh', Bool.false_or, if_neg hany]
    rw [href]
    rfl
  have hquiet : (W.of s).Quiet y.1 := ((W.of s).pennant_quiet _ _ _).trans (v.1.copyFeed_quiet c)
  have hhub : y.1.m.hub.copies = l ++ c :: r := by rw [hy, W.copyFeed_hub, hv, W.pennant_hub]; exact hcs
  have hreg : v.1.region c.region = s.region c.region := by simp only [W.region, hv, (W.pennant_aside _ _ _ _).regions]; rfl
  refine ⟨_, y.2, hexec, (hquiet.trans (W.setCopy_quiet _ _ _)).mem, ?_, fun h => v.1.copyFeed_none c (by rw [hreg]; exact h)⟩
  show y.1.m.hub.copies.map _ = _
  rw [hhub, map_one_copy _ hone]
end

end Sys2Proof.Machine
end

section
/-! PROOFS. COPY_SECTOR: the source sectors of a copy, its pieces in a bank and in an engine-fed RECV (06_ordering_wide.md R101, R104; 04_memory_spaces.md R239). -/

namespace Sys2Proof.Machine

/-! ## The bytes that a copy writes -/

/-- A copy's bytes are those of its source; only a free value may have been taken for them. -/
theorem W.copyBytes_fst (w : W) (c : Copy) (i off len : Nat) : ∃ d, (w.copyBytes c i off len).1 = w.setM fun m => { m with draw := d } := by
  unfold W.copyBytes
  dsimp only
  split
  · exact ⟨w.m.draw, rfl⟩
  · exact ⟨w.m.draw + 1, rfl⟩
theorem W.copyBytes_length (w : W) (c : Copy) (i off len : Nat) : (w.copyBytes c i off len).2.length = len := by
  unfold W.copyBytes
  dsimp only
  split <;> simp
/-- A byte that does not lie in the source too is the source's (R267). -/
theorem W.copyBytes_getD (w : W) (c : Copy) (i off len b : Nat) (hb : b < len) (ho : c.overlaps (rowAt c.dst c.dstr i + BitVec.ofNat 64 off + BitVec.ofNat 64 b) = false) :
    (w.copyBytes c i off len).2.getD b 0 = c.byteOf i (off + b) := by
  unfold W.copyBytes
  dsimp only
  split
  · simp [hb]
  · simp [hb, ho]

/-! ## A bank -/

theorem W.bank_setBank {w : W} {r : Nat} {g : Region} (h : tget w.m.regions r = some g) (cell : Nat) (f : Memory → Memory) : (w.setBank r cell f).bank r cell = f (w.bank r cell) := by
  have hr := W.tget_setRegion h fun g => { g with banks := tput g.banks cell (f (tgetD g.banks cell [])) }
  simp only [W.bank, W.setBank, W.region_of hr, W.region_of h, tgetD_tput_self]
theorem W.tget_setCell {w : W} {r : Nat} {g : Region} (h : tget w.m.regions r = some g) (cell : Nat) (f : Cell → Cell) :
    tget (w.setCell r cell f).m.regions r = some { g with cells := tput g.cells cell (f (tgetD g.cells cell {})) } := W.tget_setRegion h _
theorem W.bank_setCell {w : W} {r : Nat} {g : Region} (h : tget w.m.regions r = some g) (cell b : Nat) (f : Cell → Cell) : (w.setCell r cell f).bank r b = w.bank r b := by
  have hr := W.tget_setRegion h fun g => { g with cells := tput g.cells cell (f (tgetD g.cells cell {})) }
  simp only [W.bank, W.setCell, W.region_of hr, W.region_of h]

/-! ## An engine-fed position -/

/-- A token that an engine sends stands in the position. -/
theorem W.Has.feed {w : W} {e : ERef} {g : Region} {x : Elem} (h : w.Has e g x) (right : Bool) (tok : Token) : ∃ g' x', (w.feed e right tok).Has e g' x' ∧
    (if right then x'.inR else x'.inL) = some { tok with landed := w.now, landedNs := w.ns } := by
  refine ⟨_, _, (h.of_regions (w' := w.stir (w.region e.r) e.cell) rfl).setElem fun x =>
    if right then { x with inR := some { tok with landed := w.now, landedNs := w.ns } } else { x with inL := some { tok with landed := w.now, landedNs := w.ns } }, ?_⟩
  cases right <;> rfl
theorem W.feed_quiet (w : W) (e : ERef) (right : Bool) (tok : Token) : w.Quiet (w.feed e right tok) := ⟨rfl, rfl, rfl, rfl, rfl⟩
theorem W.feed_hub (w : W) (e : ERef) (right : Bool) (tok : Token) : (w.feed e right tok).m.hub = w.m.hub := rfl

/-! ## A piece's turn -/

theorem find_missing_none {l : List Nat} {f : Nat → Option W512} (h : ∀ j ∈ l, (f j).isSome = true) : l.find? (fun j => (f j).isNone) = none :=
  List.find?_eq_none.2 fun j hj hn => by
    have := h j hj
    rw [Option.isNone_iff_eq_none.1 hn] at this
    exact Bool.false_ne_true this
/-- A piece of a copy has been written, with what its write has done. -/
def Copy.wrote (c : Copy) (n : Nat) (x : EngWrote) : Copy :=
  let c := { c with done := n :: c.done, writes := x.ids ++ c.writes, scope := max c.scope x.scope }
  { c with reads := c.reads.filter fun x => c.needsPart x.1 }
theorem W.lateFlags_zero (w : W) (part : Nat) : w.lateFlags part 0 = w := by rw [W.lateFlags, if_pos rfl]

section
variable {s : State} {c : Copy} {n off len : Nat} (hc : (W.of s).copy c.id = some c) (hpop : c.popped = true) (hi : n / 2 ^ 36 < c.rows)
  (hn : n % 2 ^ 36 < pieceCount (rowAt c.dst c.dstr (n / 2 ^ 36)).toNat c.len) (hol : (off, len) = pieceAt (rowAt c.dst c.dstr (n / 2 ^ 36)).toNat c.len (n % 2 ^ 36))
  (hdone : n ∉ c.done) (hh : (s.part c.part).halted = false)
include hc hpop hi hn hol hdone hh

/-- A source sector that has been read is kept with the copy. -/
theorem copySector_reads {j o k : Nat} {w : W} {bs : List Byte} (hj : (sourceParts (rowAt c.from' c.sstr (n / 2 ^ 36)).toNat off len).find? (fun j => (tget c.reads (n / 2 ^ 36 * 2 ^ 36 + j)).isNone) = some j)
    (hok : (o, k) = pieceAt (rowAt c.from' c.sstr (n / 2 ^ 36)).toNat c.len j)
    (hr : (W.of s).engRead c.eng c.part c.src c.region (rowAt c.from' c.sstr (n / 2 ^ 36) + BitVec.ofNat 64 o) k = (w, .ok bs)) :
    exec (.copySector c.id n false) s = .next ((w.setCopy c.id fun c => { c with reads := tput c.reads (n / 2 ^ 36 * 2 ^ 36 + j) (BitVec.ofNat 512 (leNat bs)) }).commit s) := by
  have hh' : ((W.of s).part c.part).halted = false := hh
  have hd : c.done.contains n = false := by simpa using hdone
  show execCopySector c.id n false s = _
  unfold execCopySector run
  simp only [hc, ← hol, hpop, hi, hn, hd, hh', hj, ← hok, hr]
  rfl

variable (hread : ∀ j ∈ sourceParts (rowAt c.from' c.sstr (n / 2 ^ 36)).toNat off len, (tget c.reads (n / 2 ^ 36 * 2 ^ 36 + j)).isSome = true)
include hread

/-- A piece whose source has been read waits for the earlier requests that its order names. -/
theorem copySector_waits (hm : (W.of s).mayWrite c.src c.num c.fence c.ord = false) : exec (.copySector c.id n false) s = .next s := by
  have hh' : ((W.of s).part c.part).halted = false := hh
  have hd : c.done.contains n = false := by simpa using hdone
  have hj := find_missing_none hread
  show execCopySector c.id n false s = _
  unfold execCopySector run
  simp only [hc, ← hol, hpop, hi, hn, hd, hh', hj, hm]
  exact congrArg _ (W.of_commit s)

variable {q : Nat} (hsrc : c.src = .seq q 0) (hm : (W.of s).mayWrite c.src c.num c.fence c.ord = true)
include hsrc hm

theorem copySector_bank (hf : c.feed = none) (hred : c.redop = 0) {g : Region} (hg : tget s.m.regions c.region = some g) {a : W64} (ha : a = rowAt c.dst c.dstr (n / 2 ^ 36) + BitVec.ofNat 64 off)
    (hb : isBank a = true) (hs : (W.of s).engineSlot c.region (bankCell a) true = true) : ∃ t bs, exec (.copySector c.id n false) s = .next t ∧ t.mem = s.mem ∧
      t.bank c.region (bankCell a) = memPut (s.bank c.region (bankCell a)) (bankOffset a) bs ∧ bs.length = len ∧
      (∀ b < len, c.overlaps (a + BitVec.ofNat 64 b) = false → bs.getD b 0 = c.byteOf (n / 2 ^ 36) (off + b)) ∧ ∃ c', (W.of t).copy c.id = some c' ∧ c'.done = n :: c.done := by
  have hh' : ((W.of s).part c.part).halted = false := hh
  have hd : c.done.contains n = false := by simpa using hdone
  have hj := find_missing_none hread
  obtain ⟨d, hfst⟩ := (W.of s).copyBytes_fst c (n / 2 ^ 36) off len
  have hlen := (W.of s).copyBytes_length c (n / 2 ^ 36) off len
  have hbyte := (W.of s).copyBytes_getD c (n / 2 ^ 36) off len
  rw [← ha] at hbyte
  generalize hx : (W.of s).copyBytes c (n / 2 ^ 36) off len = x at hfst hlen hbyte
  have hslot : x.1.engineSlot c.region (bankCell a) true = true := hfst ▸ hs
  obtain ⟨v, hv⟩ : ∃ v, v = (x.1.setCell c.region (bankCell a) fun y => { y with writeAt := x.1.now + 1 }).setBank c.region (bankCell a) fun m => memPut m (bankOffset a) x.2 := ⟨_, rfl⟩
  have hwr : x.1.engWrite c.eng c.part c.id c.src c.region (c.agent / 2 ^ 16 % 8) a x.2 none .write = (v, .ok {}) := by
    unfold W.engWrite
    simp only [hb, hslot, hsrc, if_true, hv]
  have hexec : exec (.copySector c.id n false) s = .next ((v.setCopy c.id fun c => c.wrote n {}).commit s) := by
    show execCopySector c.id n false s = _
    unfold execCopySector run
    simp only [hc, ← hol, hpop, hi, hn, hd, hh', hj, hm, hf, hred, hx, ← ha, if_true, Option.isSome_none, Bool.false_eq_true, if_false, hwr, W.lateFlags_zero, Bool.not_true, Bool.or_false,
      and_self, decide_true]
    rfl
  have hgx : tget x.1.m.regions c.region = some g := by rw [hfst]; exact hg
  refine ⟨_, x.2, hexec, ?_, ?_, hlen, hbyte, _, W.copy_setCopy (fun _ => rfl) ?_, rfl⟩
  · rw [W.commit_mem, hv, hfst]; rfl
  · show v.bank _ _ = _
    rw [hv, W.bank_setBank (W.tget_setCell hgx _ _), W.bank_setCell hgx, hfst]
    rfl
  · rw [W.copy_of_hub (w := W.of s) (by rw [hv, hfst]; rfl)]
    exact hc

theorem copySector_feeds {sl : Nat} {e : ERef} {g : Region} {x : Elem} (hf : c.feed = some sl) (he : e = ⟨c.region, bankCell (rowAt c.dst c.dstr (n / 2 ^ 36)), sl⟩)
    (hg : tget s.m.regions e.r = some g) (hx : tget g.elems e.key = some x) (hup : c.upTo n = true) (hearly : (W.of s).earlierFeeds c.src c.eng c.num = false)
    (hfeed : (W.of s).feedable e true = true) : ∃ t k bs, exec (.copySector c.id n false) s = .next t ∧ t.mem = s.mem ∧ (t.elem e).inR = some k ∧ k.null = false ∧
      k.data = BitVec.ofNat 512 (leNat bs) ∧ bs.length = len ∧
      (∀ b < len, c.overlaps (rowAt c.dst c.dstr (n / 2 ^ 36) + BitVec.ofNat 64 off + BitVec.ofNat 64 b) = false → bs.getD b 0 = c.byteOf (n / 2 ^ 36) (off + b)) ∧
      k.rel = some ((W.of s).engRel c.eng c.scope c.src c.agent c.region c.popRef c.step) ∧ ∃ c', (W.of t).copy c.id = some c' ∧ c'.done = n :: c.done := by
  have hh' : ((W.of s).part c.part).halted = false := hh
  have hd : c.done.contains n = false := by simpa using hdone
  have hj := find_missing_none hread
  obtain ⟨d, hfst⟩ := (W.of s).copyBytes_fst c (n / 2 ^ 36) off len
  have hlen := (W.of s).copyBytes_length c (n / 2 ^ 36) off len
  have hbyte := (W.of s).copyBytes_getD c (n / 2 ^ 36) off len
  generalize hy : (W.of s).copyBytes c (n / 2 ^ 36) off len = y at hfst hlen hbyte
  obtain ⟨v, hv⟩ : ∃ v, v = y.1.feed e true (fedToken y.2 ((W.of s).engRel c.eng c.scope c.src c.agent c.region c.popRef c.step)) := ⟨_, rfl⟩
  have hexec : exec (.copySector c.id n false) s = .next ((v.setCopy c.id fun c => c.wrote n {}).commit s) := by
    show execCopySector c.id n false s = _
    unfold execCopySector run
    rw [hsrc] at hm hearly hv
    rw [he] at hfeed hv
    simp only [hc, ← hol, hpop, hi, hn, hd, hh', hj, hm, hf, hsrc, hup, hearly, hfeed, hy, ← hv, W.guard, Bool.not_true, Bool.not_false, Bool.and_self, and_self, decide_true, Bool.or_false,
      Bool.false_eq_true, if_false, if_true]
    rfl
  have hhas : y.1.Has e g x := ⟨by rw [hfst]; exact hg, hx⟩
  obtain ⟨g', x', hfed, hin⟩ := hhas.feed true (fedToken y.2 ((W.of s).engRel c.eng c.scope c.src c.agent c.region c.popRef c.step))
  rw [← hv] at hfed
  have hquiet : (W.of s).Quiet v := hv ▸ .trans (hfst ▸ ⟨rfl, rfl, rfl, rfl, rfl⟩) (y.1.feed_quiet _ _ _)
  have hhub : v.m.hub = s.m.hub := by rw [hv, W.feed_hub, hfst]; rfl
  refine ⟨_, { fedToken y.2 ((W.of s).engRel c.eng c.scope c.src c.agent c.region c.popRef c.step) with landed := y.1.now, landedNs := y.1.ns }, y.2, hexec,
    (hquiet.trans (W.setCopy_quiet _ _ _)).mem, ?_, rfl, rfl, hlen, hbyte, rfl, _, W.copy_setCopy (fun _ => rfl) ?_, rfl⟩
  · show (v.elem e).inR = _
    rw [hfed.elem_eq]
    exact hin
  · rw [W.copy_of_hub (w := W.of s) hhub]
    exact hc
end

end Sys2Proof.Machine
end

section
/-! PROOFS. LAND tokens, stamps and completions (04_memory_spaces.md R80; 06_ordering_wide.md R100, R102; 14_sequencer.md R267; 28_links_and_collectives.md R407); from them O43. -/

namespace Sys2Proof.Machine

/-! ## A completion at its sequencer -/

theorem mem_of_mem_retireGo (cls : Cls) {o : Out} (l : List Out) (h : o ∈ retire.go cls l) : o ∈ l := by
  induction l with
  | nil => exact h
  | cons x t ih =>
    unfold retire.go at h
    split at h
    · split at h
      · exact List.mem_cons_of_mem _ (ih h)
      · exact h
    · rcases List.mem_cons.1 h with rfl | h
      · exact List.mem_cons_self
      · exact List.mem_cons_of_mem _ (ih h)
/-- What retires leaves the others as they are. -/
theorem mem_of_mem_retire {o : Out} {l : List Out} (h : o ∈ retire l) : o ∈ l :=
  mem_of_mem_retireGo _ _ (mem_of_mem_retireGo _ _ (mem_of_mem_retireGo _ _ (mem_of_mem_retireGo _ _ h)))
/-- An operation that has finished is done, if it is still among the outstanding ones. -/
theorem Seq.finish_done (sq : Seq) (id agent : Nat) (ref : W32) (ns : Nat) (cov : Cov) : ∀ o ∈ (sq.finish id agent ref ns cov).outs, o.id = id → o.done = true := by
  intro o ho hid
  obtain ⟨x, -, rfl⟩ := List.mem_map.1 (mem_of_mem_retire ho)
  by_cases hx : (x.id == id) = true
  · rw [if_pos hx]
  · rw [if_neg hx] at hid
    exact absurd (beq_iff_eq.2 hid) hx
/-- A tag's completion sets the tag's bit. -/
theorem Seq.finish_setTag_tags (sq : Seq) (cyc tag : Nat) (out : Out) (id agent : Nat) (ref : W32) (ns : Nat) (cov : Cov) :
    ((sq.setTag cyc tag out).finish id agent ref ns cov).tags = sq.tags ||| (1#64 <<< tag) := rfl

/-- A copy's or collective's completion at a running sequencer: its tag is set, and its entry is done. -/
theorem W.opDone_seq {w : W} {q : Nat} {sq : Seq} (h : tget w.m.seqs q = some sq) (k id tag agent : Nat) (ref : W32) (cov : Cov) : ∃ sq', tget (w.opDone (.seq q k) id tag agent ref cov).m.seqs q = some sq' ∧
    sq'.tags = sq.tags ||| (1#64 <<< tag) ∧ ∀ o ∈ sq'.outs, o.id = id → o.done = true := by
  refine ⟨_, ?_, Seq.finish_setTag_tags sq (w.now / 4) tag { id := id, cls := .copies, done := true, agent := agent, ref := ref, doneNs := w.ns, cov := cov } id agent ref w.ns cov,
    Seq.finish_done _ _ _ _ _ _⟩
  show tget (tmod w.m.seqs q _) q = _
  rw [tget_tmod_self, h, Option.map_some]
/-! ## LAND tokens -/

section
variable {s : State} {c : Copy} {e : ERef} {g : Region} {x : Elem} {q : Nat} (hc : (W.of s).copy c.id = some c) (hsrc : c.src = .seq q 0) (hpop : c.popped = true)
  (hh : (s.part c.part).halted = false) (he : e = ⟨c.region, c.lcell, c.lslot⟩) (hg : tget s.m.regions e.r = some g) (hx : tget g.elems e.key = some x)
  (hearly : (W.of s).earlierFeeds c.src c.eng c.num = false) (hfeed : (W.of s).feedable e false = true) (hland : c.landed < c.tiles)
include hc

theorem landTokenEmit_waits (ht : c.tileIn c.landed = false) : exec (.landTokenEmit c.id) s = .next s := by
  show execLandTokenEmit c.id s = _
  unfold execLandTokenEmit run
  simp only [hc, ht, W.guard, Bool.and_false, Bool.false_and, Bool.false_eq_true, if_false, W.of_commit]
include hsrc hpop hh he hg hx hearly hfeed hland
theorem landTokenEmit_sends (ht : c.tileIn c.landed = true) : ∃ t k, exec (.landTokenEmit c.id) s = .next t ∧ t.mem = s.mem ∧ (t.elem e).inL = some k ∧ k.null = false ∧ k.empty = 0 ∧
    k.data = BitVec.ofNat 512 (packElems 32 [bankOffset c.dst + 0x4000 * c.landed, c.landed, min 0x4000 (c.span - 0x4000 * c.landed)]) ∧
    k.rel = some ((W.of s).engRel c.eng c.scope c.src c.agent c.region c.popRef c.step) ∧ ∃ c', (W.of t).copy c.id = some c' ∧ c'.landed = c.landed + 1 := by
  have hh' : ((W.of s).part c.part).halted = false := hh
  have hedge : (W.of s).onEdge ((W.of s).region e.r) e.cell = true := by
    unfold W.feedable at hfeed
    simp only [Bool.and_eq_true] at hfeed
    exact hfeed.2
  obtain ⟨tok, htok⟩ : ∃ tok : Token, tok = {
    data := (lowLanes [bankOffset c.dst + 0x4000 * c.landed, c.landed, min 0x4000 (c.span - 0x4000 * c.landed)]).data
    rel := some ((W.of s).engRel c.eng c.scope c.src c.agent c.region c.popRef c.step) } := ⟨_, rfl⟩
  have hexec : exec (.landTokenEmit c.id) s = .next ((((W.of s).feed e false tok).setCopy c.id fun c => { c with landed := c.landed + 1 }).commit s) := by
    show execLandTokenEmit c.id s = _
    unfold execLandTokenEmit run
    rw [hsrc] at hearly htok
    rw [he] at hedge hfeed ⊢
    simp only [hc, hsrc, hpop, hh', ht, hland, hearly, hedge, hfeed, ← htok, W.guard, Bool.not_false, Bool.not_true, Bool.and_self, decide_true, if_true, Bool.false_eq_true, if_false]
  have hhas : (W.of s).Has e g x := ⟨hg, hx⟩
  obtain ⟨g', x', hfed, hin⟩ := hhas.feed false tok
  refine ⟨_, { tok with landed := (W.of s).now, landedNs := (W.of s).ns }, hexec, (((W.of s).feed_quiet _ _ _).trans (W.setCopy_quiet _ _ _)).mem, ?_, by rw [htok], by rw [htok], by rw [htok]; rfl, by rw [htok],
    _, W.copy_setCopy (fun _ => rfl) hc, rfl⟩
  show ((W.feed _ e false tok).elem e).inL = _
  rw [hfed.elem_eq]
  exact hin
end

/-! ## Stamps -/

theorem W.copyEnds_quiet {w : W} {c : Copy} {q k : Nat} (hsrc : c.src = .seq q k) (ids : List Nat) : w.Quiet (w.copyEnds c ids) := by
  unfold W.copyEnds
  rw [hsrc]
  exact ⟨rfl, rfl, rfl, rfl, rfl⟩
/-- The copy is gone, and its tag is set. -/
theorem W.copyEnds_copy {w : W} {c : Copy} {q k : Nat} (hsrc : c.src = .seq q k) (ids : List Nat) : (w.copyEnds c ids).copy c.id = none := by
  unfold W.copyEnds
  rw [hsrc]
  refine List.find?_eq_none.2 fun x hx => ?_
  have := (List.mem_filter.1 hx).2
  simpa using this
theorem W.copyEnds_seq {w : W} {c : Copy} {q k : Nat} {sq : Seq} (hsrc : c.src = .seq q k) (hq : tget w.m.seqs q = some sq) (ids : List Nat) :
    ((w.copyEnds c ids).seq q).tags = sq.tags ||| (1#64 <<< c.tag) ∧ ∀ o ∈ ((w.copyEnds c ids).seq q).outs, o.id = c.id → o.done = true := by
  unfold W.copyEnds
  rw [hsrc]
  obtain ⟨v, hv⟩ : ∃ v, v = (w.noteStamp ⟨.seq q k, c.num, c.scope, c.agent, (issuerEye (.seq q k) c.agent c.region).reg, ids ++ c.writes⟩).setHub fun h =>
    { h with copies := h.copies.filter fun x => x.id != c.id } := ⟨_, rfl⟩
  obtain ⟨sq', h1, h2, h3⟩ := W.opDone_seq (w := v) (by rw [hv]; exact hq) k c.id c.tag (w.engAgent c.eng) c.popRef (w.coverIds (ids ++ c.writes))
  rw [hv] at h1
  simp only [W.seq, tgetD_of_tget _ h1]
  exact ⟨h2, h3⟩

/-! ### Where a stamp goes -/

theorem W.tlbFill_quiet (w : W) (u : Nat) (t : TlbE) : w.Quiet (w.tlbFill u t) ∧ (w.tlbFill u t).m.hub = w.m.hub := by
  unfold W.tlbFill
  dsimp only
  split
  · exact ⟨.refl w, rfl⟩
  split
  · exact ⟨⟨rfl, rfl, rfl, rfl, rfl⟩, rfl⟩
  · exact ⟨⟨rfl, rfl, rfl, rfl, rfl⟩, rfl⟩
theorem W.addWalk_quiet (w : W) (src : Src) (agent part : Nat) (va : W64) (a : Access) (unit : Nat) (pre : Bool) :
    w.Quiet (w.addWalk src agent part va a unit pre) ∧ (w.addWalk src agent part va a unit pre).m.hub = w.m.hub := by
  unfold W.addWalk
  dsimp only
  split
  · exact ⟨.refl w, rfl⟩
  split
  · exact ⟨⟨rfl, rfl, rfl, rfl, rfl⟩, rfl⟩
  · exact ⟨⟨rfl, rfl, rfl, rfl, rfl⟩, rfl⟩
/-- Finding the place of an access changes translation alone. -/
theorem W.placed_quiet (w : W) (src : Src) (part : Nat) (va : W64) (len : Nat) (a : Access) (t : Touch) (unit : Nat) :
    w.Quiet (w.placed src part va len a t unit).1 ∧ (w.placed src part va len a t unit).1.m.hub = w.m.hub := by
  unfold W.placed
  refine List.foldlRecOn (motive := fun (x : W × Placed) => w.Quiet x.1 ∧ x.1.m.hub = w.m.hub) _ _ ⟨.refl w, rfl⟩ ?_
  rintro ⟨v, y⟩ ⟨hq, hh⟩ s -
  have hfill : ∀ (us : List Nat) (x : TlbE), v.Quiet (us.foldl (fun w u => w.tlbFill u x) v) ∧ (us.foldl (fun w u => w.tlbFill u x) v).m.hub = v.m.hub := fun us x =>
    ⟨W.quiet_foldl _ (fun w u => (w.tlbFill_quiet u x).1) us v, W.hub_foldl _ (fun w u => (w.tlbFill_quiet u x).2) us v⟩
  dsimp only
  split
  · exact ⟨hq, hh⟩
  split
  · dsimp only
    split
    · exact ⟨hq.trans (hfill _ _).1, (hfill _ _).2.trans hh⟩
    · exact ⟨hq, hh⟩
  · exact ⟨hq.trans (v.addWalk_quiet _ _ _ _ _ _ _).1, (v.addWalk_quiet _ _ _ _ _ _ _).2.trans hh⟩
  · exact ⟨hq, hh⟩

/-! ### The event -/

section
variable {s : State} {c : Copy} {q : Nat} {sq : Seq} {me : Eye} (hc : (W.of s).copy c.id = some c) (hsrc : c.src = .seq q 0) (hq : tget s.m.seqs q = some sq)
  (hme : me = issuerEye c.src c.agent c.region) (hh : (s.part c.part).halted = false) (hown : (W.of s).ownedDone c.id = true)

/-- What a copy leaves behind it. -/
theorem copyEnds_commit (hsrc : c.src = .seq q 0) (hq : tget s.m.seqs q = some sq) (ids : List Nat) :
    (((W.of s).copyEnds c ids).commit s).mem = s.mem ∧ (W.of (((W.of s).copyEnds c ids).commit s)).copy c.id = none ∧
    ((((W.of s).copyEnds c ids).commit s).seq q).tags = sq.tags ||| (1#64 <<< c.tag) ∧ ∀ o ∈ ((((W.of s).copyEnds c ids).commit s).seq q).outs, o.id = c.id → o.done = true := by
  obtain ⟨h1, h2⟩ := W.copyEnds_seq (w := W.of s) hsrc hq ids
  exact ⟨(W.copyEnds_quiet hsrc ids).mem, W.copyEnds_copy hsrc ids, h1, h2⟩

include hc hh hown hme
/-- A copy whose stamp is performed in its turn is over. -/
theorem copyStamp_retires {ids : List Nat} (he : c.ends = some ids) : exec (.copyStamp c.id) s =
    .next (((W.of s).guard ((W.of s).performed me c.scope (ids ++ c.writes) {}) fun w => w.copyEnds c ids).commit s) := by
  have hh' : ((W.of s).part c.part).halted = false := hh
  show execCopyStamp c.id s = _
  unfold execCopyStamp run
  simp only [hc, hh', hown, he, ← hme, Bool.not_true, Bool.or_false, Bool.false_eq_true, if_false]

variable (he : c.ends = none)
include he
theorem copyStamp_waits (hp : (W.of s).performed me c.scope c.writes {} = false) : exec (.copyStamp c.id) s = .next s := by
  have hh' : ((W.of s).part c.part).halted = false := hh
  show execCopyStamp c.id s = _
  unfold execCopyStamp run
  simp only [hc, hh', hown, he, ← hme, hp, Bool.not_true, Bool.not_false, Bool.or_false, Bool.or_true, Bool.false_eq_true, if_false, if_true, W.of_commit]
variable (hp : (W.of s).performed me c.scope c.writes {} = true) (hpop : c.popped = true) (hcomp : c.complete = true) (hland : c.tiles ≤ c.landed)
include hp hpop hcomp hland
theorem copyStamp_unstamped (h0 : c.stamp = 0) : exec (.copyStamp c.id) s = .next (((W.of s).copyEnds c []).commit s) := by
  have hh' : ((W.of s).part c.part).halted = false := hh
  have hl : ¬ c.landed < c.tiles := Nat.not_lt.2 hland
  show execCopyStamp c.id s = _
  unfold execCopyStamp run
  simp only [hc, hh', hown, he, ← hme, hp, hpop, hcomp, hl, h0, decide_false, Bool.not_true, Bool.or_false, Bool.false_eq_true, if_false, if_true]
include hq
/-- The stamp is written at its home: the copy's number, and no other byte; the copy goes on until it is performed. -/
theorem copyStamp_writes {w : W} {ls : List Leaf} {p : Piece} {ts : List Nat} (h0 : c.stamp ≠ 0) (hwf : s.mem.wf = true) (hk : p.key % 8 = 0)
    (hpl : (W.of s).placed (.engine c.eng) c.part c.stamp 8 .write (if ((W.of s).engEye c.eng).die < 4 then .near ((W.of s).engEye c.eng).die else .dies) 0xF = (w, .ok (ls, [p], ts)))
    (ho : w.homeOpen ((W.of s).engEye c.eng) p.key = true) : ∃ t c', exec (.copyStamp c.id) s = .next t ∧ memBytes t.mem p.key 8 = leBytes 8 c.num ∧
      (∀ k, k < p.key ∨ p.key + 8 ≤ k → t.byte k = s.byte k) ∧ (W.of t).copy c.id = some c' ∧ c'.ends.isSome = true ∧ (t.seq q).tags = sq.tags := by
  have hh' : ((W.of s).part c.part).halted = false := hh
  have hl : ¬ c.landed < c.tiles := Nat.not_lt.2 hland
  obtain ⟨hquiet, hhub⟩ := (W.of s).placed_quiet (.engine c.eng) c.part c.stamp 8 .write (if ((W.of s).engEye c.eng).die < 4 then .near ((W.of s).engEye c.eng).die else .dies) 0xF
  have haside := ((W.of s).placed_reads _ _ _ _ _ _ _ hpl).aside
  rw [hpl] at hquiet hhub
  obtain ⟨rel, hrel⟩ : ∃ rel, rel = (W.of s).engRel c.eng c.scope c.src c.agent c.region c.popRef c.step := ⟨_, rfl⟩
  obtain ⟨y, hy⟩ : ∃ y, y = w.spread ((W.of s).engEye c.eng) c.id c.part rel [p.key] (leBytes 8 c.num) := ⟨_, rfl⟩
  have hexec : exec (.copyStamp c.id) s = .next ((y.1.setCopy c.id fun c => { c with ends := some y.2 }).commit s) := by
    show execCopyStamp c.id s = _
    unfold execCopyStamp run W.engRelease
    simp only [hc, hh', hown, he, ← hme, hp, hpop, hcomp, hl, h0, hpl, ho, ← hrel, hy, List.headD_cons, List.map_cons, List.map_nil, decide_false, Bool.not_true, Bool.or_false,
      Bool.false_eq_true, if_false]
  obtain ⟨hm, hf, -⟩ := spread_committed (k := p.key) (ks := []) hwf hquiet ((W.of s).engEye c.eng) c.id c.part rel (leBytes_length 8 c.num) (by decide) (by omega) (by simp)
  have hcopy : y.1.copy c.id = some c := by
    rw [W.copy_of_hub (w := W.of s) (by rw [hy, W.spread_hub]; exact hhub)]
    exact hc
  rw [← hy] at hm hf
  refine ⟨_, _, hexec, hm, hf, W.copy_setCopy (fun _ => rfl) hcopy, rfl, ?_⟩
  show (tgetD y.1.m.seqs q {}).tags = _
  rw [hy, (W.spread_aside _ _ _ _ _ _ _).seqs, haside.seqs]
  exact congrArg Seq.tags (tgetD_of_tget _ hq)
end

/-! ## Collectives -/

theorem W.collEnds_quiet {w : W} {c : Coll} {q k : Nat} (hsrc : c.src = .seq q k) (ids : List Nat) : w.Quiet (w.collEnds c ids) := by
  unfold W.collEnds
  rw [hsrc]
  exact ⟨rfl, rfl, rfl, rfl, rfl⟩
/-- The collective is gone, and its tag is set. -/
theorem W.collEnds_coll {w : W} {c : Coll} {q k : Nat} (hsrc : c.src = .seq q k) (ids : List Nat) : (w.collEnds c ids).m.hub.colls.find? (fun x => x.id == c.id) = none := by
  unfold W.collEnds
  rw [hsrc]
  refine List.find?_eq_none.2 fun x hx => ?_
  have := (List.mem_filter.1 hx).2
  simpa using this
theorem W.collEnds_tags {w : W} {c : Coll} {q k : Nat} {sq : Seq} (hsrc : c.src = .seq q k) (hq : tget w.m.seqs q = some sq) (ids : List Nat) :
    ((w.collEnds c ids).seq q).tags = sq.tags ||| (1#64 <<< c.tag) := by
  unfold W.collEnds
  rw [hsrc]
  obtain ⟨v, hv⟩ : ∃ v, v = (w.noteStamp ⟨.seq q k, c.num, c.scope, c.agent, (issuerEye (.seq q k) c.agent c.region).reg, ids ++ c.writes⟩).setHub fun h =>
    { h with colls := h.colls.filter fun x => x.id != c.id } := ⟨_, rfl⟩
  obtain ⟨sq', h1, h2, -⟩ := W.opDone_seq (w := v) (by rw [hv]; exact hq) k c.id c.tag w.collAgent c.popRef (w.coverIds (ids ++ c.writes))
  rw [hv] at h1
  simp only [W.seq, tgetD_of_tget _ h1]
  exact h2

/-- A collective with nothing to write at its end is over when its parts are performed; else when its completion is. -/
theorem collectiveComplete_eq {s : State} {c : Coll} {ids : List Nat} {q : Nat} (hc : s.m.hub.colls.find? (fun x => x.id == c.id) = some c) (hsrc : c.src = .seq q 0) (hpop : c.popped = true)
    (hh : (s.part c.part).halted = false) (hpeers : 1 < c.ranks → Config.peersMatch c.part (field c.ctl 15 0) c.k = true) (hall : ∀ j < c.total, j ∈ c.done)
    (hown : (W.of s).ownedDone c.id = true) (hends : c.ends = some ids ∨ c.ends = none ∧ ids = [] ∧ c.stamp = 0 ∧ field c.ctl 37 36 = 0) :
    exec (.collectiveComplete c.id) s =
      .next (((W.of s).guard ((W.of s).performed (issuerEye c.src c.agent c.region) c.scope (ids ++ c.writes) {}) fun w => w.collEnds c ids).commit s) := by
  have hc' : (W.of s).m.hub.colls.find? (fun x => x.id == c.id) = some c := hc
  have hh' : ((W.of s).part c.part).halted = false := hh
  have hmatch : (decide (1 < c.ranks) && !Config.peersMatch c.part (field c.ctl 15 0) c.k) = false := by
    by_cases h : 1 < c.ranks
    · simp [hpeers h]
    · simp [h]
  have hleft : ((List.range c.total).filter fun j => !c.done.contains j).isEmpty = true := by
    rw [List.isEmpty_iff, List.filter_eq_nil_iff]
    intro j hj
    simpa using hall j (List.mem_range.1 hj)
  show execCollectiveComplete c.id s = _
  unfold execCollectiveComplete run
  rcases hends with he | ⟨he, rfl, hst, hsig⟩
  · simp only [hc', hpop, hh', hmatch, hleft, W.guard, hown, he, Bool.not_true, Bool.or_false, Bool.false_eq_true, if_false, if_true]
  · have hrel : (W.of s).collRelease c = (W.of s, .ok []) := by
      unfold W.collRelease
      simp only [hst, hsrc, hsig, if_true]
    simp only [hc', hpop, hh', hmatch, hleft, W.guard, hown, he, hrel, Bool.not_true, Bool.or_false, Bool.false_eq_true, if_false, if_true, List.nil_append]

/-- Settles O43: an engine's turn on a copy is one of its steps, in their order (`enginePop_takes`, `copySector_reads`, `copySector_bank`, `copySector_feeds`, `landTokenEmit_sends`,
`copyStamp_writes`, `copyStamp_retires`), or a wait; log 81 leaves open which requests feed a RECV. -/
theorem copyEngines : Obligations.CopyEngines := by
  refine ⟨fun s l r c ref hcs hold hone he hp hh => ⟨fun hlow href => enginePop_takes hcs hold hp he hh hone hlow href, fun hlow => enginePop_waits hcs hold hp he hlow⟩,
    fun s c n i off len d a hc hpop hi hrow hd ha hn hol hdone hh => ?sector, fun s c e g x q hc hsrc hpop hh he hg hx hearly hfeed hland =>
      ⟨fun ht => landTokenEmit_sends hc hsrc hpop hh he hg hx hearly hfeed hland ht, fun ht => landTokenEmit_waits hc ht⟩,
    fun s c q sq me hc hsrc hq hme hh hown => ⟨fun he hpop hcomp hland => ⟨fun hp => ⟨fun h0 => ?unstamped, fun w ls p ts h0 hwf hk hpl ho => ?stamped⟩, fun hp => ?waits⟩, fun ids he => ?ends⟩,
    fun s c q sq ids hc hsrc hq hpop hh hpeers hall hown hends => ?coll⟩
  case sector =>
    subst hi hd ha
    refine ⟨fun j o k w bs hj hok hr => copySector_reads hc hpop hrow hn hol hdone hh hj hok hr, fun q hread hsrc => ⟨copySector_waits hc hpop hrow hn hol hdone hh hread,
      fun hm ⟨g, hg⟩ => ⟨fun hf hred hb hs => copySector_bank hc hpop hrow hn hol hdone hh hread hsrc hm hf hred hg rfl hb hs,
        fun sl e g x hf he hg hx hup hearly hfeed => copySector_feeds hc hpop hrow hn hol hdone hh hread hsrc hm hf he hg hx hup hearly hfeed⟩⟩⟩
  case unstamped => exact ⟨_, copyStamp_unstamped hc hme hh hown he hp hpop hcomp hland h0, copyEnds_commit hsrc hq []⟩
  case stamped => exact copyStamp_writes hc hq hme hh hown he hp hpop hcomp hland h0 hwf hk hpl ho
  case waits => exact copyStamp_waits hc hme hh hown he hp
  case ends =>
    have h := copyStamp_retires hc hme hh hown he
    constructor
    · intro hp
      rw [W.guard, if_pos hp] at h
      exact ⟨_, h, copyEnds_commit hsrc hq ids⟩
    · intro hp
      rwa [W.guard, if_neg (by rw [hp]; exact Bool.false_ne_true), W.of_commit] at h
  case coll =>
    have h := collectiveComplete_eq hc hsrc hpop hh hpeers hall hown hends
    constructor
    · intro hp
      rw [W.guard, if_pos hp] at h
      exact ⟨_, h, (W.collEnds_quiet hsrc ids).mem, W.collEnds_coll hsrc ids, W.collEnds_tags (w := W.of s) hsrc hq ids⟩
    · intro hp
      rwa [W.guard, if_neg (by rw [hp]; exact Bool.false_ne_true), W.of_commit] at h

end Sys2Proof.Machine
end

section
/-! PROOFS. The sequencer's requests to global memory (14_sequencer.md R254, R257, R258, R271; 05_ordering_local.md R85); from them O5. -/

namespace Sys2Proof.Machine

/-! ## Effective addresses -/

theorem eaFault_misaligned {ea : W64} {n : Nat} (ha : ea.toNat % n ≠ 0) : eaFault ea n = some 0x160 := by simp [eaFault, ha]

/-- The scratch window ends where the address space does, so no address above is in it. -/
theorem eaFault_above {ea : W64} {n : Nat} (ha : ea.toNat % n = 0) (ho : 2 ^ 56 ≤ ea.toNat) : eaFault ea n = some 0x161 := by
  have hs : inScratch ea = false := decide_eq_false fun h => absurd h.2 (Nat.not_lt.mpr ho)
  have hhigh : ea.toNat / 2 ^ 56 ≠ 0 := (Nat.div_pos ho (Nat.two_pow_pos 56)).ne'
  simp only [eaFault, hs, ha, hhigh, ne_eq, not_true_eq_false, not_false_eq_true, Bool.false_eq_true, if_true, if_false]

theorem eaFault_global {ea : W64} {n : Nat} (ha : ea.toNat % n = 0) (hl : ea.toNat < 2 ^ 56) : eaFault ea n = none := by
  simp only [eaFault, ha, Nat.div_eq_of_lt hl, ne_eq, not_true_eq_false, if_false, ite_self]

/-- An atomic is carried everywhere but on the host's pages, and there when the host carries its operation (R77, R258). -/
theorem hostPlace_none {host : Bool} {ls : List Leaf} (h : (∀ l ∈ ls, l.place ≠ 3) ∨ host = true) : hostPlace host ls = none := by
  rcases h with h | rfl
  · have hany : ls.any (fun l => l.place == 3) = false := by simpa using h
    simp [hostPlace, hany]
  · simp [hostPlace]

/-! ## Requests and faults -/

section Turn
variable {s : State} {q : Nat} {sq : Seq} (h : SeqTurn s q sq)
include h

/-- A global access of the sequencer that has the turn, once it is placed and allowed: its request goes out under the next free number. -/
theorem SeqTurn.seqAccess_sends {w : W} {d : BitVec 5} {ea : W64} {len : Nat} {a : Access} {t : Touch} {ok : List Leaf → Option Nat} {r : Req}
    {f : Nat → W → W} {ls : List Leaf} {ps : List Piece} {ts : List Nat}
    (hp : (W.of s).placed (.seq q d.toNat) sq.part ea len a t 0xE = (w, .ok (ls, ps, ts))) (hok : ok ls = none) :
    (W.of s).seqAccess q d ea len a t ok r f =
      f (w.m.nextId + 1) (w.issue { r with
        die := q / 40, part := sq.part, src := .seq q d.toNat, va := ea, size := len, pieces := ps
        xlate := ts, place := (ls.map (·.place)).headD 0, ref := sq.latest }).1 := by
  have hsq := h.seq_eq
  subst hsq
  exact W.seqAccess_ok hp hok

theorem SeqTurn.loadOp_faults {d a : BitVec 5} {sc : BitVec 3} {o : BitVec 12} {n : Nat} {ea : W64} (hr : sq.stalls [a] = false)
    (he : ea = sq.reg a + o.signExtend 64) : (ea.toNat % n ≠ 0 → loadOp n d a sc o s = .next (s.seqRaised q 0x160 ea)) ∧
      (ea.toNat % n = 0 → 2 ^ 56 ≤ ea.toNat → loadOp n d a sc o s = .next (s.seqRaised q 0x161 ea)) := by
  have raises {c : Nat} (hf : eaFault ea n = some c) : loadOp n d a sc o s = .next (s.seqRaised q c ea) := by
    subst he
    simp only [loadOp, runSeq_turn h, hr, sext64, hf, Bool.false_eq_true, if_false]
    rfl
  exact ⟨fun ha => raises (eaFault_misaligned ha), fun ha ho => raises (eaFault_above ha ho)⟩

theorem SeqTurn.storeSeqOp_faults {d a : BitVec 5} {sc : BitVec 3} {o : BitVec 12} {n : Nat} {ea : W64} (hr : sq.stalls [d, a] = false)
    (he : ea = sq.reg a + o.signExtend 64) : (ea.toNat % n ≠ 0 → storeSeqOp n d a sc o s = .next (s.seqRaised q 0x160 ea)) ∧
      (ea.toNat % n = 0 → 2 ^ 56 ≤ ea.toNat → storeSeqOp n d a sc o s = .next (s.seqRaised q 0x161 ea)) := by
  have raises {c : Nat} (hf : eaFault ea n = some c) : storeSeqOp n d a sc o s = .next (s.seqRaised q c ea) := by
    subst he
    simp only [storeSeqOp, runSeq_turn h, hr, sext64, hf, Bool.false_eq_true, if_false]
    rfl
  exact ⟨fun ha => raises (eaFault_misaligned ha), fun ha ho => raises (eaFault_above ha ho)⟩

section Placed
variable {ea : W64} {w : W} {ls : List Leaf} {ps : List Piece} {ts : List Nat} {n : Nat} {a : BitVec 5} {sc : BitVec 3} (hs : inScratch ea = false)
  (hl : ea.toNat < 2 ^ 56) (ha : ea.toNat % n = 0)
include hs hl ha

theorem SeqTurn.loadOp_sends {d : BitVec 5} {o : BitVec 12} (hr : sq.stalls [a] = false) (he : ea = sq.reg a + o.signExtend 64)
    (hc : sq.count .loads < 64) (hp : (W.of s).placed (.seq q d.toNat) sq.part ea n .read (.near (q / 40)) 0xE = (w, .ok (ls, ps, ts))) :
    loadOp n d a sc o s = .next ((w.seqSent q .loads
      { seqReq q sq d.toNat ea n ls ps ts with kind := .read, acq := decide (sc ≠ 0), scope := sc.toNat } (some d) id).commit s) := by
  subst he
  simp only [loadOp, runSeq_turn h, hr, sext64, eaFault_global ha hl, hs, Seq.not_full hc, Bool.false_eq_true, if_false, h.seqAccess_sends (ok := anyPlace) hp rfl]
  rfl

theorem SeqTurn.storeSeqOp_sends {d : BitVec 5} {o : BitVec 12} (hr : sq.stalls [d, a] = false) (he : ea = sq.reg a + o.signExtend 64)
    (hc : sq.count .stores < 64) (hp : (W.of s).placed (.seq q 0) sq.part ea n .write (.near (q / 40)) 0xE = (w, .ok (ls, ps, ts))) :
    storeSeqOp n d a sc o s = .next ((w.seqSent q .stores
      { seqReq q sq 0 ea n ls ps ts with
        kind := .write, data := (sq.reg d).zeroExtend 768, rel := decide (sc ≠ 0), scope := sc.toNat } none id).commit s) := by
  subst he
  simp only [storeSeqOp, runSeq_turn h, hr, sext64, eaFault_global ha hl, hs, Seq.not_full hc, Bool.false_eq_true, if_false,
    h.seqAccess_sends (d := 0) (ok := anyPlace) hp rfl]
  rfl

theorem SeqTurn.atomSeqOp_sends {kind : ReqKind} {host : Bool} {rs : List (BitVec 5)} {d : BitVec 5} {x y : Seq → W64} (hr : sq.stalls rs = false)
    (he : ea = sq.reg a) (hc : sq.count .stores < 64) (hh : (∀ l ∈ ls, l.place ≠ 3) ∨ host = true)
    (hp : (W.of s).placed (.seq q d.toNat) sq.part ea n .atomic .home 0xE = (w, .ok (ls, ps, ts))) :
    atomSeqOp kind host rs d a n sc x y s = .next ((w.seqSent q .stores
      { seqReq q sq d.toNat ea n ls ps ts with
        kind := kind, data := (x sq).zeroExtend 768, data2 := (y sq).zeroExtend 768
        acq := decide (sc ≠ 0), rel := decide (sc ≠ 0), scope := sc.toNat } (some d) id).commit s) := by
  subst he
  simp only [atomSeqOp, runSeq_turn h, hr, eaFault_global ha hl, hs, Seq.not_full hc, Bool.false_eq_true, if_false,
    h.seqAccess_sends (ok := hostPlace host) hp (hostPlace_none hh)]
  rfl

end Placed

/-- SIGNAL's access is a store's, or an atomic's at the word's home, as its add bit says. -/
theorem SeqTurn.signal_sends {ea : W64} {w : W} {ls : List Leaf} {ps : List Piece} {ts : List Nat} {d a : BitVec 5} {sc : BitVec 3} {o : BitVec 11} {add : BitVec 1}
    {c : Access} {t : Touch} {kind : ReqKind} (hs : inScratch ea = false) (hl : ea.toNat < 2 ^ 56) (ha : ea.toNat % 8 = 0) (hr : sq.stalls [d, a] = false)
    (he : ea = sq.reg a + BitVec.ofNat 64 (8 * o.toNat)) (hc : sq.count .stores < 64) (hacc : (if add = 1 then Access.atomic else .write) = c)
    (ht : (if add = 1 then Touch.home else .near (q / 40)) = t) (hk : (if add = 1 then ReqKind.atomic 16 else .write) = kind)
    (hp : (W.of s).placed (.seq q 0) sq.part ea 8 c t 0xE = (w, .ok (ls, ps, ts))) :
    exec (.signal d a sc o add) s = .next ((w.seqSent q .stores
      { seqReq q sq 0 ea 8 ls ps ts with
        kind := kind, data := (sq.reg d).zeroExtend 768, rel := true, scope := sc.toNat, answered := true } none id).commit s) := by
  show execSignal d a sc o add s = _
  subst he hacc ht hk
  simp only [execSignal, runSeq_turn h, hr, eaFault_global ha hl, hs, Seq.not_full hc, Bool.false_eq_true, if_false,
    h.seqAccess_sends (d := 0) (ok := anyPlace) hp rfl]
  rfl

end Turn

/-- Settles O5: loads, stores and atomics by their shared forms, SIGNAL with the access that its add bit chooses; faults by the effective address. -/
theorem globalMemoryRequests : Obligations.GlobalMemoryRequests := by
  refine ⟨⟨?loads, ?stores⟩, ?faults, ?atomics⟩
  case loads =>
    simp only [List.forall_mem_cons, List.not_mem_nil, false_implies, implies_true, and_true]
    and_intros <;> exact fun _ _ _ _ _ _ _ _ _ _ _ _ h hr he hs hl ha => h.loadOp_sends hs hl ha hr he
  case stores =>
    simp only [List.forall_mem_cons, List.not_mem_nil, false_implies, implies_true, and_true]
    and_intros <;> exact fun _ _ _ _ _ _ _ _ _ _ _ _ h hr he hs hl ha => h.storeSeqOp_sends hs hl ha hr he
  case faults =>
    simp only [List.forall_mem_cons, List.not_mem_nil, false_implies, implies_true, and_true]
    refine ⟨?_, ?_, ?_, ?_, ?_, ?_, ?_, ?_⟩
    iterate 4 exact fun _ _ _ _ _ _ _ _ h => h.loadOp_faults
    iterate 4 exact fun _ _ _ _ _ _ _ _ h => h.storeSeqOp_faults
  case atomics =>
    intro d a b sc s q sq ea w ls ps ts h hc hs hl
    refine ⟨fun z f n hn he ha hp => ⟨fun hr hplace => ?amo, fun hr => ?acas⟩, fun o hr he ha => ⟨?store, ?add⟩⟩
    case amo =>
      show execAmo d a b sc z f s = _
      rw [execAmo, show atomSize z = n from hn.symm]
      have hsend := h.atomSeqOp_sends (kind := .atomic (16 + f.toNat)) (host := f == 0 || f == 8) (sc := sc) (x := fun sq => sq.reg b) (y := fun _ => 0)
        hs hl ha hr he hc (hplace.imp id fun hf => by simpa using hf) hp
      rwa [show (0 : W64).zeroExtend 768 = 0 from BitVec.setWidth_zero 768 64] at hsend
    case acas =>
      show execAcas d a b sc z s = _
      rw [execAcas, show atomSize z = n from hn.symm]
      exact h.atomSeqOp_sends hs hl ha hr he hc (.inr rfl) hp
    case store => exact h.signal_sends hs hl ha hr he hc rfl rfl rfl
    case add => exact h.signal_sends hs hl ha hr he hc rfl rfl rfl

end Sys2Proof.Machine
end

section
/-! PROOFS. What a turn finds and runs (00_scope.md R83; 09_encoding.md R142, R143; 14_sequencer.md R255; R391); from it O35. -/

namespace Sys2Proof.Machine

/-! ## Fetching -/

theorem State.fetch_event (s : State) {i : Instr} (hi : i.kind = .event) : s.fetch (.ev i) = .instr i := by simp [State.fetch, hi]

section Seq
variable {s : State} {q : Nat} {sq : Seq} (hq : tget s.m.seqs q = some sq)
include hq

theorem State.fetch_seq_idle (h : sq.issues s.m ((W.of s).seqAgent q) s.clk.now = false ∨ s.clk.now < sq.nextAt) : s.fetch (.seq q) = .idle := by
  have hidle : (!sq.issues s.m ((W.of s).seqAgent q) s.clk.now || decide (s.clk.now < sq.nextAt)) = true := by simpa using h
  simp only [State.fetch, hq, hidle, if_true]

variable (hi : sq.issues s.m ((W.of s).seqAgent q) s.clk.now = true) (hn : sq.nextAt ≤ s.clk.now)
include hi hn

theorem State.fetch_seq_unloaded (h : 4096 ≤ sq.pc.toNat ∨ tget sq.store sq.pc.toNat = none) : s.fetch (.seq q) = .unloaded q := by
  simp only [State.fetch, hq, hi, Nat.not_lt.mpr hn, Bool.not_true, decide_false, Bool.or_self, Bool.false_eq_true, if_false]
  by_cases hpc : 4096 ≤ sq.pc.toNat
  · rw [if_pos hpc]
  · rw [if_neg hpc, h.resolve_left hpc]

theorem State.fetch_seq_word {w : W32} {i : Instr} (hpc : sq.pc.toNat < 4096) (hw : tget sq.store sq.pc.toNat = some w) (hd : decodeSeq w = .ok i) :
    s.fetch (.seq q) = .instr i := by
  simp only [State.fetch, hq, hi, Nat.not_lt.mpr hn, Nat.not_le.mpr hpc, hw, hd, Bool.not_true, decide_false, Bool.or_self, Bool.false_eq_true, if_false]

end Seq

section Elem
variable {s : State} {e : ERef} {g : Region} {x : Elem} (hg : tget s.m.regions e.r = some g) (hx : tget g.elems e.key = some x)
include hg hx

theorem State.fetch_elem_idle (hw : x.word = 0) : s.fetch (.elem e.r e.cell e.slot) = .idle := by
  rw [ERef.key] at hx
  simp only [State.fetch, hg, hx, hw, if_true]

theorem State.fetch_elem_word {i : Instr} (hw : x.word ≠ 0) (hd : decodeElem x.word = .ok i) : s.fetch (.elem e.r e.cell e.slot) = .instr i := by
  rw [ERef.key] at hx
  simp only [State.fetch, hg, hx, hw, hd, if_false]

end Elem

/-! ## The step of a turn -/

section Turn
variable {s t : State} {a : Act} (ht : s.turn = (a, t))
include ht

/-- A turn is its actor's. -/
theorem State.turn_cur : t.m.cur = a.actor := by
  obtain ⟨rfl, rfl⟩ := Prod.mk.inj ht
  rfl

theorem step_out_of_order (ho : (W.of t).inOrder a = false) : step s = .next t := by simp [step, ht, ho]

variable (ho : (W.of t).inOrder a = true)
include ho

theorem step_instr {i : Instr} (hf : t.fetch a = .instr i) : step s = exec i t := by simp [step, ht, ho, hf]
theorem step_idle (hf : t.fetch a = .idle) : step s = .next t := by simp [step, ht, ho, hf]
theorem step_unloaded {q : Nat} (hf : t.fetch a = .unloaded q) : step s = .next (t.seqRaised q 0x168) := by
  simp [step, ht, ho, hf, State.unloadedWord, State.seqRaised]

end Turn

/-- Settles O35: a turn's fetch by the cases of its actor, and the step of what it finds. -/
theorem stepRunsTheDecoded : Obligations.StepRunsTheDecoded := by
  refine fun s t a ht => ⟨step_out_of_order ht, fun ho => ⟨?event, ?issues, ?quiet, ?elem⟩⟩
  case event =>
    rintro i rfl hi
    exact step_instr ht ho (t.fetch_event hi)
  case issues =>
    rintro q sq rfl hq hi hn
    exact ⟨fun w i hpc hw hd => ⟨step_instr ht ho (State.fetch_seq_word hq hi hn hpc hw hd), State.turn_cur ht, hq⟩,
      fun h => step_unloaded ht ho (State.fetch_seq_unloaded hq hi hn h)⟩
  case quiet =>
    rintro q sq rfl hq h
    exact step_idle ht ho (State.fetch_seq_idle hq h)
  case elem =>
    rintro e g x rfl hg hx
    exact ⟨fun hw => step_idle ht ho (State.fetch_elem_idle hg hx hw),
      fun i hw hd => ⟨step_instr ht ho (State.fetch_elem_word hg hx hw hd), State.turn_cur ht, hg, hx⟩⟩

end Sys2Proof.Machine
end

section
/-! PROOFS. The sequencer's requests to the engines: COPY, COPYX and COLL (14_sequencer.md R254, R266 to R269; 05_ordering_local.md R83, R87); from them O11. -/

namespace Sys2Proof.Machine

/-! ## Operands and descriptors -/

theorem operands_bad {g : Region} {a d : W64} {m n : Nat} (h : operandOk g a m = false ∨ operandOk g d n = false) :
    (!operandOk g a m || !operandOk g d n) = true := by simpa using h

theorem operands_good {g : Region} {a d : W64} {m n : Nat} (ha : operandOk g a m = true) (hd : operandOk g d n = true) :
    (!operandOk g a m || !operandOk g d n) = false := by simp [ha, hd]

theorem descField_lt (v lo n : Nat) : descField v lo n < 2 ^ (8 * n) := Nat.mod_lt _ (Nat.two_pow_pos _)

/-- A word of a descriptor is its field. -/
theorem descField_word (v lo : Nat) : (BitVec.ofNat 64 (descField v lo 8)).toNat = descField v lo 8 :=
  Nat.mod_eq_of_lt (descField_lt v lo 8)

/-- A tag's stamp address, with the tag's number as a word (R267). -/
theorem Seq.stampAt_word (sq : Seq) (tag : BitVec 6) : sq.stampAt tag.toNat = if sq.stampb = 0 then 0 else sq.stampb + 8 * tag.zeroExtend 64 := by
  have hword : BitVec.ofNat 64 (8 * tag.toNat) = 8 * tag.zeroExtend 64 := by
    apply BitVec.eq_of_toNat_eq
    simp [BitVec.toNat_mul]
  rw [Seq.stampAt, hword]

theorem ordered_iff (ord : BitVec 1) : decide (ord.toNat = 1) = decide (ord = 1) := by
  simp [← BitVec.toNat_inj]

/-! ## Requests -/

/-- The collective that a COLL of the sequencer of quad q asks for by a descriptor v (R269). -/
def State.collOf (s : State) (q : Nat) (sq : Seq) (d a : BitVec 5) (tag : BitVec 6) (ord : BitVec 1) (v : Nat) : Coll :=
  { id := s.m.nextId + 1, part := sq.part, agent := (W.of s).seqAgent q, src := .seq q 0, region := sq.region, step := sq.stepNo.toNat % 256
    send := sq.reg d, recv := sq.reg a, count := descField v 0 8, sig := BitVec.ofNat 64 (descField v 8 8)
    sigval := BitVec.ofNat 64 (descField v 16 8), ctl := BitVec.ofNat 64 (descField v 24 8), tag := tag.toNat
    stamp := if sq.stampb = 0 then 0 else sq.stampb + 8 * tag.zeroExtend 64, num := sq.copySeq + 1, ord := decide (ord = 1), fence := sq.fenced
    ref := sq.latest, sent := s.clk.now }

section Turn
variable {s : State} {q : Nat} {sq : Seq} (h : SeqTurn s q sq)
include h

/-- What a copy-class request leaves: its record in the hub, under the next free number, and its place among the outstanding (R254). -/
theorem SeqTurn.sendCopy_commit (eng : Nat) (tag : BitVec 6) (ord : BitVec 1) (c : Copy) :
    ((W.of s).sendCopy q eng tag.toNat ord.toNat c).commit s = s.copySent q sq { c with
      id := s.m.nextId + 1, part := sq.part, eng := eng, agent := (W.of s).seqAgent q, src := .seq q 0, region := sq.region, step := sq.stepNo.toNat % 256
      tag := tag.toNat, stamp := if sq.stampb = 0 then 0 else sq.stampb + 8 * tag.zeroExtend 64, num := sq.copySeq + 1, ord := decide (ord = 1)
      fence := sq.fenced, ref := sq.latest, sent := s.clk.now } := by
  have hstep : (W.of s).fresh.1.stepOf q = sq.stepNo.toNat % 256 := congrArg (fun sq : Seq => sq.stepNo.toNat % 256) h.seq_eq
  simp only [W.sendCopy, h.seq_eq, hstep, Seq.stampAt_word, ordered_iff]
  rw [W.seqDone_commit_of (sq := sq) h.here]
  rfl

section Copy
variable {d a b : BitVec 5} {tag : BitVec 6} {ord : BitVec 1} (hr : sq.stalls [d, a, b] = false)
include hr

theorem SeqTurn.copy_length (hl : (sq.reg b).toNat = 0 ∨ 2 ^ 40 < (sq.reg b).toNat) : exec (.copy d a b tag ord) s = .next (s.seqRaised q 0x165) := by
  show execCopy d a b tag ord s = _
  simp only [execCopy, runSeq_turn h, hr, Bool.false_eq_true, if_false, if_pos hl]
  rfl

variable (h0 : (sq.reg b).toNat ≠ 0) (h40 : (sq.reg b).toNat ≤ 2 ^ 40)
include h0 h40

theorem SeqTurn.copy_operands (ho : operandOk (s.region sq.region) (sq.reg a) (sq.reg b).toNat = false ∨
    operandOk (s.region sq.region) (sq.reg d) (sq.reg b).toNat = false) : exec (.copy d a b tag ord) s = .next (s.seqRaised q 0x161) := by
  show execCopy d a b tag ord s = _
  have hl : ¬ ((sq.reg b).toNat = 0 ∨ 2 ^ 40 < (sq.reg b).toNat) := not_or.mpr ⟨h0, Nat.not_lt.mpr h40⟩
  have hbad := operands_bad ho
  rw [State.region] at hbad
  simp only [execCopy, runSeq_turn h, hr, Bool.false_eq_true, if_false, if_neg hl, hbad, if_true]
  rfl

/-- A COPY that may be queued: whether it is depends on the acquires before it. -/
theorem SeqTurn.copy_queues (ha : operandOk (s.region sq.region) (sq.reg a) (sq.reg b).toNat = true)
    (hd : operandOk (s.region sq.region) (sq.reg d) (sq.reg b).toNat = true) (hc : sq.count .copies < 64) : exec (.copy d a b tag ord) s =
      .next ((if !(W.of s).mayNow ((W.of s).seqAgent q) [] then W.of s else (W.of s).sendCopy q (8 * (q / 40) + (q % 8 + 7) % 8) tag.toNat ord.toNat
        { dst := sq.reg d, from' := sq.reg a, len := (sq.reg b).toNat }).commit s) := by
  show execCopy d a b tag ord s = _
  have hl : ¬ ((sq.reg b).toNat = 0 ∨ 2 ^ 40 < (sq.reg b).toNat) := not_or.mpr ⟨h0, Nat.not_lt.mpr h40⟩
  have hgood := operands_good ha hd
  rw [State.region] at hgood
  simp only [execCopy, runSeq_turn h, hr, Bool.false_eq_true, if_false, if_neg hl, hgood, Seq.not_full hc, Bool.false_or]

end Copy

section Descriptor
variable {d a b : BitVec 5} {tag : BitVec 6} {ord : BitVec 1} {off v : Nat} (hr : sq.stalls [d, a, b] = false) (hs : scratchSpan (sq.reg b) 32 32 = some off)
  (hv : v = leNat (memBytes sq.scratch off 32)) (hc : sq.count .copies < 64) (hm : (W.of s).mayNow ((W.of s).seqAgent q) [] = true)
include hr hs hv hc hm

theorem SeqTurn.copyx_queues (hok : copyxOk (s.region sq.region) (sq.reg d) (sq.reg a) v = true)
    (ha : operandOk (s.region sq.region) (sq.reg a) (copyxSpan v (descField v 24 4)) = true)
    (hd : operandOk (s.region sq.region) (sq.reg d) (copyxSpan v (descField v 28 4)) = true) : exec (.copyx d a b tag ord) s =
      .next (((W.of s).sendCopy q (32 + q % 16) tag.toNat ord.toNat (copyxReq (sq.reg d) (sq.reg a) v)).commit s) := by
  show execCopyx d a b tag ord s = _
  have hgood := operands_good ha hd
  rw [State.region] at hok hgood
  replace hv : sq.scratchNat off 32 = v := hv.symm
  simp only [execCopyx, runSeq_turn h, hr, hs, hv, hok, hgood, Seq.not_full hc, hm, Bool.not_true, Bool.or_self, Bool.false_eq_true, if_false]

/-- COLL queues its collective, and counts as a copy. -/
theorem SeqTurn.coll_queues (hctl : collCtlOk (BitVec.ofNat 64 (descField v 24 8)) = true) (hsig : descField v 8 8 % 8 = 0)
    (hd : operandOk (s.region sq.region) (sq.reg d) (collSpan (BitVec.ofNat 64 (descField v 24 8)) (descField v 0 8) 1).1 = true)
    (ha : operandOk (s.region sq.region) (sq.reg a) (collSpan (BitVec.ofNat 64 (descField v 24 8)) (descField v 0 8) 1).2 = true) :
    exec (.coll d a b tag ord) s = .next ((((W.of s).fresh.1.setHub fun u => { u with colls := u.colls ++ [s.collOf q sq d a tag ord v] }).seqDone q fun sq =>
      { sq.add (s.m.nextId + 1) .copies tag.toNat with copySeq := sq.copySeq + 1 }).commit s) := by
  show execColl d a b tag ord s = _
  have hgood := operands_good hd ha
  rw [State.region] at hgood
  replace hv : sq.scratchNat off 32 = v := hv.symm
  have hstep : (W.of s).fresh.1.stepOf q = sq.stepNo.toNat % 256 := congrArg (fun sq : Seq => sq.stepNo.toNat % 256) h.seq_eq
  simp only [execColl, runSeq_turn h, hr, hs, hv, descField_word, Nat.mul_zero, Nat.reduceMul, hctl, hsig, beq_self_eq_true, Bool.and_self, hgood,
    Seq.not_full hc, hm, Bool.not_true, Bool.or_self, Bool.false_eq_true, if_false, hstep, Seq.stampAt_word]
  rfl

end Descriptor
end Turn

/-- Settles O11: COPY and COPYX send a copy (`SeqTurn.sendCopy_commit`), COLL a collective, where their operands allow it. -/
theorem engineRequests : Obligations.EngineRequests := by
  refine ⟨?copies, ?coll⟩
  case copies =>
    rintro d a b tag ord s q sq c h hr rfl
    refine ⟨h.copy_length hr, h.copy_operands hr, fun h0 h40 ha hd hc => ⟨fun hm => ?waits, fun hm => ?copy⟩, fun off v hs hv hok ha hd hc hm => ?copyx⟩
    case waits => rw [h.copy_queues hr h0 h40 ha hd hc, hm, Bool.not_false, if_pos rfl, W.of_commit]
    case copy => rw [h.copy_queues hr h0 h40 ha hd hc, hm, Bool.not_true, if_neg Bool.false_ne_true, h.sendCopy_commit]
    case copyx =>
      rw [h.copyx_queues hr hs hv hc hm hok ha hd, h.sendCopy_commit]
      rfl
  case coll =>
    intro d a b tag ord s q sq off v h hr hs hv hctl hsig hd ha hc hm
    have hexec := h.coll_queues (tag := tag) (ord := ord) hr hs hv hc hm hctl hsig hd ha
    rw [W.seqDone_commit_of (sq := sq) h.here] at hexec
    exact ⟨_, hexec, tgetD_tput_self _ _ _ _, rfl, rfl, rfl⟩

end Sys2Proof.Machine
end

section
/-! PROOFS. Fabric control by the sequencer: START, RECONF, RATE, GRAISE, INJ and TAKE (14_sequencer.md R273 to R275, R278, R283; 05_ordering_local.md R87, R88);
from them O10. -/

namespace Sys2Proof.Machine

/-! ## Records -/

/-- A change of a region's record, as the state that a sequencer's completed instruction leaves shows it. -/
theorem region_of_tmod (t : Tbl Region) (r : Nat) {g : Region} (f : Region → Region) (hg : tget t r = some g) : tgetD (tmod t r f) r {} = f g := by
  rw [tgetD, tget_tmod_self, hg]
  rfl

theorem region_of_tmod_ne (t : Tbl Region) {r j : Nat} (f : Region → Region) (h : j ≠ r) : tgetD (tmod t r f) j {} = tgetD t j {} := by
  rw [tgetD, tget_tmod_ne _ _ _ _ h]
  rfl

/-- No cell's record says where an element stands. -/
theorem W.setCell_elemAgent (w : W) (r c : Nat) (f : Cell → Cell) (e : ERef) : (w.setCell r c f).elemAgent e = w.elemAgent e := by
  obtain ⟨cells, h⟩ : ∃ cells, (w.setCell r c f).region e.r = { w.region e.r with cells := cells } := by
    simp only [W.region, W.setCell, W.setRegion_regions, tgetD, tget_tmod]
    split
    · next hr =>
      subst hr
      cases tget w.m.regions e.r <;> exact ⟨_, rfl⟩
    · exact ⟨_, rfl⟩
  simp only [W.elemAgent, W.agentId, W.penQuad, W.elem, h]
  rfl

theorem W.gainRel_elemAgent (w : W) (eye : Eye) (k : Rel) (e : ERef) : (w.gainRel eye k).elemAgent e = w.elemAgent e := by
  unfold W.gainRel W.gain
  split
  · split <;> rfl
  · rfl

/-! ## Tokens -/

/-- The empty lanes that an INJ names are bits 31 : 16 of its operand. -/
theorem ofNat_field_lanes (v : W64) : BitVec.ofNat 16 (field v 31 16) = v.extractLsb' 16 16 := by
  apply BitVec.eq_of_toNat_eq
  simp [field]

/-- One bit of a packed word. -/
theorem bit_mod (b : Bool) : (if b = true then 1 else 0) % 2 ^ 1 = b.toNat := by cases b <;> rfl

theorem takeStatus_eq (k : Token) : takeStatus k =
    BitVec.ofNat 64 (k.empty.toNat + 2 ^ 16 * k.null.toNat + 2 ^ 17 * k.head.toNat + 2 ^ 18 * k.tail.toNat + 2 ^ 19 * k.rel.isSome.toNat) := by
  have hempty : k.empty.toNat % 2 ^ 16 = k.empty.toNat := Nat.mod_eq_of_lt k.empty.isLt
  refine congrArg (BitVec.ofNat 64) ?_
  simp only [packFields, hempty, bit_mod]
  omega

/-! ## The sequencer's turn -/

section Turn
variable {s : State} {q : Nat} {sq : Seq} (h : SeqTurn s q sq)
include h

theorem SeqTurn.stepOf_eq : (W.of s).stepOf q = sq.stepNo.toNat % 256 := congrArg (fun sq : Seq => sq.stepNo.toNat % 256) h.seq_eq

theorem SeqTurn.notPrimary (hp : sq.rquad ≠ 0) (f : Nat → Seq → W → W → W) :
    runSeq s (fun q sq w => primaryOnly q sq w (f q sq w)) = .next (s.seqRaised q 0x164) := by
  simp only [runSeq_turn h, primaryOnly, if_pos hp]
  rfl

/-! ### START and RECONF -/

section Primary
variable (hp : sq.rquad = 0) (hc : sq.count .tiles < 64)
include hp hc

theorem SeqTurn.start_pulses (ha : (W.of s).agentPerformed ((W.of s).seqEye q) (max 2 sq.startScope) = true) :
    exec .start s = .next (((((W.of s).fresh.1.pulse sq.region 0 sq.latest ((W.of s).seqAgent q)
      ((W.of s).releases ((W.of s).seqEye q) (max 2 sq.startScope))).setRegion sq.region fun g =>
      { g with rootDone := false }).seqDone q fun sq => { sq.add (s.m.nextId + 1) .tiles 0 with startScope := 0 }).commit s) := by
  show execStart s = _
  have hprimary : ¬ sq.rquad ≠ 0 := not_not.mpr hp
  simp only [execStart, runSeq_turn h, primaryOnly, if_neg hprimary, Seq.not_full hc, ha, Bool.not_true, Bool.or_self, Bool.false_eq_true, if_false]
  rfl

theorem SeqTurn.reconf_asks (i : BitVec 15) (ha : (W.of s).agentPerformed ((W.of s).seqEye q) 4 = true) :
    exec (.reconf i) s = .next ((((W.of s).fresh.1.askSection sq.region
      { sec := i.toNat, who := q, out := s.m.nextId + 1, agent := (W.of s).seqAgent q, ref := sq.latest }).seqDone q fun sq =>
        sq.add (s.m.nextId + 1) .tiles (i.toNat + 1)).commit s) := by
  show execReconf i s = _
  have hprimary : ¬ sq.rquad ≠ 0 := not_not.mpr hp
  simp only [execReconf, runSeq_turn h, primaryOnly, if_neg hprimary, Seq.not_full hc, ha, Bool.not_true, Bool.or_self, Bool.false_eq_true, if_false]
  rfl

end Primary

/-! ### RATE and GRAISE -/

section Count
variable {d a : BitVec 5} {v : Nat} (hr : sq.stalls [a] = false) (hv : v = (sq.reg a).toNat)
include hr hv

theorem SeqTurn.rate_sets (hp : sq.rquad = 0) (h0 : 0 < v) (h40 : v < 2 ^ 40) : ∃ t, exec (.rate a) s = .next t ∧
    t.seq q = { sq.after with nextAt := s.nextIssue } ∧ t.mem = s.mem ∧
    (∀ g, tget s.m.regions sq.region = some g → t.region sq.region = { g with rate := v, trigger := true }) ∧
    ∀ r, r ≠ sq.region → t.region r = s.region r := by
  subst hv
  have hprimary : ¬ sq.rquad ≠ 0 := not_not.mpr hp
  have hrange : ¬ ((sq.reg a).toNat = 0 ∨ 2 ^ 40 ≤ (sq.reg a).toNat) := by omega
  have hexec : exec (.rate a) s = .next ((((W.of s).setRegion sq.region fun g =>
      { g with rate := (sq.reg a).toNat, trigger := true }).seqDone q id).commit s) := by
    show execRate a s = _
    simp only [execRate, runSeq_turn h, primaryOnly, if_neg hprimary, hr, Bool.false_eq_true, if_false, if_neg hrange]
  rw [W.seqDone_commit_of (sq := sq) h.here] at hexec
  exact ⟨_, hexec, tgetD_tput_self _ _ _ _, rfl, fun g hg => region_of_tmod _ _ _ hg, fun r hne => region_of_tmod_ne _ _ hne⟩

theorem SeqTurn.rate_range (hp : sq.rquad = 0) (hrange : v = 0 ∨ 2 ^ 40 ≤ v) : exec (.rate a) s = .next (s.seqRaised q 0x165) := by
  show execRate a s = _
  subst hv
  have hprimary : ¬ sq.rquad ≠ 0 := not_not.mpr hp
  simp only [execRate, runSeq_turn h, primaryOnly, if_neg hprimary, hr, Bool.false_eq_true, if_false, if_pos hrange]
  rfl

theorem SeqTurn.graise_range (hw : sq.wait = none) (h32 : 2 ^ 32 ≤ v) : exec (.graise d a) s = .next (s.seqRaised q 0x2E0) := by
  show execGraise d a s = _
  subst hv
  simp only [execGraise, runSeq_turn h, hr, hw, Bool.false_eq_true, if_false, if_pos h32]
  rfl

theorem SeqTurn.graise_asks (hw : sq.wait = none) (h32 : v < 2 ^ 32) : ∃ t, exec (.graise d a) s = .next t ∧
    t.seq q = { sq with wait := some { stage := 4, start := s.ns }, nextAt := s.nextIssue } ∧
    ∀ g, tget s.m.regions sq.region = some g → (t.region sq.region).range.asks = g.range.asks ++
      [{ raise := true, bySeq := true, who := q, n := v, ref := sq.latest, step := sq.stepNo.toNat % 256 }] := by
  subst hv
  have hexec : exec (.graise d a) s = .next ((((W.of s).setRegion sq.region fun g => { g with range := { g.range with asks := g.range.asks ++
      [{ raise := true, bySeq := true, who := q, n := (sq.reg a).toNat, ref := sq.latest, step := sq.stepNo.toNat % 256 }] } }).seqHold q
        { stage := 4 }).commit s) := by
    show execGraise d a s = _
    simp only [execGraise, runSeq_turn h, hr, hw, Bool.false_eq_true, if_false, if_neg (Nat.not_le.mpr h32), h.stepOf_eq]
  refine ⟨_, hexec, ?held, fun g hg => congrArg (fun g : Region => g.range.asks) (region_of_tmod _ _ _ hg)⟩
  show tgetD (tmod s.m.seqs q _) q {} = _
  rw [tgetD, tget_tmod_self, h.here, Option.map_some, hw]
  rfl

omit hv in
theorem SeqTurn.graise_answered {x : SeqWait} (hw : sq.wait = some x) (hx : x.ready = true) :
    exec (.graise d a) s = .next ((((W.of s).endWait q 0x07 x).seqDone q fun sq => sq.put d x.num).commit s) := by
  show execGraise d a s = _
  simp only [execGraise, runSeq_turn h, hr, hw, hx, Bool.false_eq_true, if_false, if_true]

end Count

/-! ### INJ and TAKE -/

section Queue
variable {d a b : BitVec 5} (hr : sq.stalls [a, b] = false)
include hr

theorem SeqTurn.inj_unqualified {n hd t : BitVec 1} (hq : scratchSpan (sq.reg a) 64 64 = none ∨ queueCell (s.region sq.region) (sq.reg b) 0x8A 0x89 = none) :
    exec (.inj a b n hd t) s = .next (s.seqRaised q 0x164) := by
  show execInj a b n hd t s = _
  rw [State.region] at hq
  simp only [execInj, runSeq_turn h, hr, Bool.false_eq_true, if_false]
  split
  · next hs hc => simp [hs, hc] at hq
  · rfl

theorem SeqTurn.take_unqualified (hq : scratchSpan (sq.reg a) 64 64 = none ∨ queueCell (s.region sq.region) (sq.reg b) 0x89 0x8A = none) :
    exec (.take d a b) s = .next (s.seqRaised q 0x164) := by
  show execTake d a b s = _
  rw [State.region] at hq
  simp only [execTake, runSeq_turn h, hr, Bool.false_eq_true, if_false]
  split
  · next hs hc => simp [hs, hc] at hq
  · rfl

section Inj
variable {n hd t : BitVec 1} {off cell : Nat} (hs : scratchSpan (sq.reg a) 64 64 = some off) (hcell : queueCell (s.region sq.region) (sq.reg b) 0x8A 0x89 = some cell)
include hs hcell

theorem SeqTurn.inj_waits (hw : (s.cell sq.region cell).qcap ≤ (s.cell sq.region cell).queue.length ∨ (W.of s).mayNow ((W.of s).seqAgent q) [] = false ∨
    (s.cell sq.region cell).seqTurn (s.clk.now / 4) ((W.of s).seqAgent q) = false) : exec (.inj a b n hd t) s = .next s := by
  show execInj a b n hd t s = _
  rw [State.region] at hcell
  have hstop : (decide (((W.of s).cell sq.region cell).qcap ≤ ((W.of s).cell sq.region cell).queue.length) || !(W.of s).mayNow ((W.of s).seqAgent q) [] ||
      !((W.of s).cell sq.region cell).seqTurn ((W.of s).now / 4) ((W.of s).seqAgent q)) = true := by
    simpa [State.cell, W.now, or_assoc] using hw
  simp only [execInj, runSeq_turn h, hr, hs, hcell, Bool.false_eq_true, if_false, hstop, if_true, W.of_commit]

theorem SeqTurn.inj_appends (hroom : (s.cell sq.region cell).queue.length < (s.cell sq.region cell).qcap)
    (hm : (W.of s).mayNow ((W.of s).seqAgent q) [] = true) (hturn : (s.cell sq.region cell).seqTurn (s.clk.now / 4) ((W.of s).seqAgent q) = true) :
    exec (.inj a b n hd t) s = .next ((((((W.of s).queuePush sq.region cell {
      data := BitVec.ofNat 512 (leNat (memBytes sq.scratch off 64)), empty := (sq.reg b).extractLsb' 16 16
      null := decide (n = 1), head := decide (hd = 1), tail := decide (t = 1)
      rel := if 2 ≤ sq.injScope then
        some { scope := sq.injScope, agent := (W.of s).seqAgent q, ref := sq.latest, reg := sq.region + 1, step := sq.stepNo.toNat % 256
               who := (W.of s).seqAgent q + 1, cov := (W.of s).releases ((W.of s).seqEye q) sq.injScope }
        else none }).wakeAt sq.region cell).seqTook sq.region cell ((W.of s).seqAgent q)).seqDone q fun sq => { sq with injScope := 0 }).commit s) := by
  show execInj a b n hd t s = _
  rw [State.region] at hcell
  have hgo : (decide (((W.of s).cell sq.region cell).qcap ≤ ((W.of s).cell sq.region cell).queue.length) || !(W.of s).mayNow ((W.of s).seqAgent q) [] ||
      !((W.of s).cell sq.region cell).seqTurn ((W.of s).now / 4) ((W.of s).seqAgent q)) = false := by
    simpa [State.cell, W.now, hm] using And.intro hroom hturn
  simp only [execInj, runSeq_turn h, hr, hs, hcell, Bool.false_eq_true, if_false, hgo, h.stepOf_eq, ofNat_field_lanes]
  rfl

end Inj

section Take
variable {off cell : Nat} (hs : scratchSpan (sq.reg a) 64 64 = some off) (hcell : queueCell (s.region sq.region) (sq.reg b) 0x89 0x8A = some cell)
include hs hcell

theorem SeqTurn.take_empty (he : (s.cell sq.region cell).queue = []) (hw : sq.wait = none) : exec (.take d a b) s = .next (s.held q sq { stage := 5 }) := by
  show execTake d a b s = _
  rw [State.region] at hcell
  rw [State.cell] at he
  simp only [execTake, runSeq_turn h, hr, hs, hcell, he, Bool.false_eq_true, if_false, W.seqHold_commit h.here hw]

variable {k : Token} {ks : List Token} (hk : (s.cell sq.region cell).queue = k :: ks)
include hk

theorem SeqTurn.take_early (hl : s.clk.now ≤ k.landed) (hw : sq.wait = none) : exec (.take d a b) s = .next (s.held q sq { stage := 5 }) := by
  show execTake d a b s = _
  rw [State.region] at hcell
  rw [State.cell] at hk
  have hearly : (W.of s).now ≤ k.landed := hl
  simp only [execTake, runSeq_turn h, hr, hs, hcell, hk, Bool.false_eq_true, if_false, if_pos hearly, W.seqHold_commit h.here hw]

theorem SeqTurn.take_waits (hl : k.landed < s.clk.now) (hturn : (s.cell sq.region cell).seqTurn (s.clk.now / 4) ((W.of s).seqAgent q) = false) :
    exec (.take d a b) s = .next s := by
  show execTake d a b s = _
  rw [State.region] at hcell
  rw [State.cell] at hk hturn
  have hlanded : ¬ (W.of s).now ≤ k.landed := Nat.not_le.mpr hl
  simp only [execTake, runSeq_turn h, hr, hs, hcell, hk, Bool.false_eq_true, if_false, if_neg hlanded]
  rw [show ((W.of s).cell sq.region cell).seqTurn ((W.of s).now / 4) ((W.of s).seqAgent q) = false from hturn, Bool.not_false, if_pos rfl, W.of_commit]

/-- A token that the sequencer takes: what is acquired before its status reaches s[D], and the pennant of a wait. -/
theorem SeqTurn.take_takes {taken w : W} {carried : W32} (hl : k.landed < s.clk.now)
    (hturn : (s.cell sq.region cell).seqTurn (s.clk.now / 4) ((W.of s).seqAgent q) = true)
    (hw : w = ((W.of s).queuePop sq.region cell).seqTook sq.region cell ((W.of s).seqAgent q))
    (ht : taken = (match k.rel with | some r => w.gainRel (w.seqEye q) r | none => w)) (hc : carried = (match k.rel with | some r => r.ref | none => 0)) :
    (sq.wait = none → exec (.take d a b) s = .next ((taken.seqDone q fun sq =>
      ({ sq with latest := newer sq.latest carried }.scratchPut off (leBytes 64 k.data.toNat)).put d (takeStatus k)).commit s)) ∧
    ∀ x, sq.wait = some x → exec (.take d a b) s = .next (((taken.seqPennant q 0x05
      ((W.of s).elemAgent ⟨sq.region, cell, ((s.region sq.region).slotWith cell 0x89).getD 0⟩)
      (if k.rel.isSome then carried else (s.cell sq.region cell).latest) x.start k.landedNs).1.seqDone q fun sq =>
        (sq.scratchPut off (leBytes 64 k.data.toNat)).put d (takeStatus k)).commit s) := by
  have hagent (e : ERef) : taken.elemAgent e = (W.of s).elemAgent e := by
    subst ht hw
    cases k.rel with
    | none => exact (W.setCell_elemAgent _ _ _ _ _).trans (W.setCell_elemAgent _ _ _ _ _)
    | some r => exact (W.gainRel_elemAgent _ _ _ _).trans ((W.setCell_elemAgent _ _ _ _ _).trans (W.setCell_elemAgent _ _ _ _ _))
  rw [State.region] at hcell
  rw [State.cell] at hk hturn
  have hlanded : ¬ (W.of s).now ≤ k.landed := Nat.not_le.mpr hl
  replace hturn : ((W.of s).cell sq.region cell).seqTurn ((W.of s).now / 4) ((W.of s).seqAgent q) = true := hturn
  constructor
  · intro hwait
    show execTake d a b s = _
    simp only [execTake, runSeq_turn h, hr, hs, hcell, hk, hwait, Bool.false_eq_true, if_false, if_neg hlanded, hturn, Bool.not_true, W.setSeq_seqDone]
    rw [ht, hw, hc] <;> rfl
  · intro x hwait
    show execTake d a b s = _
    simp only [execTake, runSeq_turn h, hr, hs, hcell, hk, hwait, Bool.false_eq_true, if_false, if_neg hlanded, hturn, Bool.not_true]
    rw [← hagent, ht, hw, hc] <;> rfl

end Take
end Queue
end Turn

/-- Settles O10: each instruction by the cases of its operands, and of the queue that it names. -/
theorem fabricControl : Obligations.FabricControl := by
  refine ⟨fun i s q sq n h hn => ⟨fun hp => ⟨h.notPrimary hp _, h.notPrimary hp _⟩, ?start, ?reconf⟩, ?counts, ?inj, ?take⟩
  case start => subst hn; exact fun hp hc => h.start_pulses hp hc
  case reconf => subst hn; exact fun hp hc => h.reconf_asks hp hc i
  case counts =>
    exact fun d a s q sq v h hr hv => ⟨h.rate_sets hr hv, h.rate_range hr hv, fun hp => h.notPrimary hp _, h.graise_range hr hv, h.graise_asks hr hv,
      fun x => h.graise_answered hr⟩
  case inj =>
    exact fun a b n hd t s q sq h hr => ⟨fun off cell hs hcell => h.inj_appends hr hs hcell, fun off cell hs hcell => h.inj_waits hr hs hcell,
      h.inj_unqualified hr⟩
  case take =>
    refine fun d a b s q sq h hr => ⟨h.take_unqualified hr, fun off cell hs hcell => ⟨h.take_empty hr hs hcell, fun k ks hk =>
      ⟨h.take_early hr hs hcell hk, h.take_waits hr hs hcell hk, fun taken w carried status hl hturn hw ht hc hst => ?_⟩⟩⟩
    rw [hst, ← takeStatus_eq]
    exact h.take_takes hr hs hcell hk hl hturn hw ht hc

end Sys2Proof.Machine
end

section
/-! PROOFS. The global stores, releases, atomics, contributions and fences of a memory cell (13_memory_and_address_cells.md R225 to R228, R232 to R236, R241, R242;
05_ordering_local.md R91); from them O21. -/

namespace Sys2Proof.Machine

/-- A release of a cell's element says where the element stands, and nothing else of its record. -/
theorem W.setElem_cellRel (w : W) (e : ERef) (f : Elem → Elem) (n : Nat) (hf : ∀ x, (f x).copies = x.copies ∧ (f x).turn = x.turn) :
    (w.setElem e f).cellRel e n = w.cellRel e n := by
  obtain ⟨elems, hr, hc, ht⟩ : ∃ elems, (w.setElem e f).region e.r = { w.region e.r with elems := elems } ∧
      (tgetD elems e.key {}).copies = (w.elem e).copies ∧ (tgetD elems e.key {}).turn = (w.elem e).turn := by
    cases hr : tget w.m.regions e.r with
    | none => exact ⟨(w.region e.r).elems, by simp [W.region, W.setElem, tgetD, tget_tmod, hr], rfl, rfl⟩
    | some g =>
      refine ⟨tmod g.elems e.key f, by simp [W.region, W.setElem, tgetD, tget_tmod, hr], ?_⟩
      simp only [W.elem, W.region, tgetD, tget_tmod_self, hr, Option.getD_some]
      cases tget g.elems e.key with
      | none => exact ⟨rfl, rfl⟩
      | some x => exact hf x
  simp only [W.cellRel, W.elemAgent, W.penQuad, W.elem, W.cell, W.agentId, hr, hc, ht]
  rfl

section Fires
variable {s : State} {e : ERef} {x : Elem} {u : Uses} {i : Ins} (f : EFields)

/-! ## Rows and words -/

section Store
variable (h : CellFires s e x { r := true } true i)
include h

theorem CellFires.storeOp_nothing {kind : ReqKind} {touch : Nat → Touch} {replica : Bool} (hn : i.r.null = true) (hf : f.fmt ≠ 5) :
    (scopeOf f = 0 → storeOp f kind touch replica s = .next (s.fired e i id)) ∧
    (scopeOf f ≠ 0 → storeOp f kind touch replica s = .next (((W.of s).emptyRelease e i (scopeOf f) nullToken).commit s)) := by
  have hrow : (f.fmt.toNat == 5) = false := beq_eq_false_iff_ne.mpr fun h5 => hf (BitVec.eq_of_toNat_eq h5)
  constructor <;> intro hs <;>
    simp [storeOp, h.runElem_eq, h.turn, h.elem_eq, h.ins, hrow, hn, hs, State.fired]

theorem CellFires.storeOp_sends {kind : ReqKind} {touch : Nat → Touch} {replica : Bool} {a : W64} {w : W} {ls : List Leaf} {ps : List Piece} {ts : List Nat}
    (hn : i.r.null = false) (hf : f.fmt ≠ 5) (ha : i.l.va = some a)
    (hp : CellPlaced s e (sectorOf a) 64 1 .write (touch (s.region e.r).die) w ls ps ts) (hl : replica = false ∨ ∀ l ∈ ls, l.place = 2) :
    storeOp f kind touch replica s = .next (s.cellSent e i (sectorOf a) w ls ps ts
      (fun w => { kind := kind, size := 64, fmt := f.fmt.toNat, data := BitVec.ofNat 768 (i.r.policy x.empty x.k).data.toNat
                  mask := storeMask (i.r.policy x.empty x.k), rel := decide (scopeOf f ≠ 0), scope := scopeOf f, ref := (w.cell e.r e.cell).latest })
      fun id w => if scopeOf f ≠ 0 then w.awaitResult e id (completion i.l i (w.cellRel e (scopeOf f))) else w) := by
  have hrow : (f.fmt.toNat == 5) = false := beq_eq_false_iff_ne.mpr fun h5 => hf (BitVec.eq_of_toNat_eq h5)
  have hleaves : (!replica || ls.all fun l => l.place == 2) = true := by simpa using hl
  simp only [storeOp, h.runElem_eq, h.turn, h.elem_eq, h.ins, hrow, hn, ha, Option.isNone_some, Bool.or_self, Bool.false_eq_true, if_true, if_false,
    Option.getD_some, rowOp, decide_eq_true_eq]
  exact congrArg Host.Outcome.next (CellPlaced.globalAccess_eq hp hleaves)

theorem CellFires.sigst_sends {a : W64} {w : W} {ls : List Leaf} {ps : List Piece} {ts : List Nat} (hn : i.r.null = false) (ha : i.l.va = some a)
    (h0 : (i.r.policy x.empty x.k).emptyAt 0 = false) (h1 : (i.r.policy x.empty x.k).emptyAt 1 = false)
    (hp : CellPlaced s e a 8 8 .write (.near (s.region e.r).die) w ls ps ts) (hl : ∀ l ∈ ls, l.place < 3 ∨ scopeOf f = 5) :
    exec (.sigst f) s = .next (s.cellSent e i a w ls ps ts
      (fun w => { kind := .write, size := 8, data := BitVec.ofNat 768 (i.r.policy x.empty x.k).low64.toNat, mask := 0xFF, rel := true, scope := scopeOf f
                  ref := (w.cell e.r e.cell).latest })
      fun id w => w.awaitResult e id (completion i.l i (w.cellRel e (scopeOf f)))) := by
  show execSigst f s = _
  have hleaves : (ls.all fun l => decide (l.place < 3 ∨ scopeOf f = 5)) = true := by simpa using hl
  simp only [execSigst, h.runElem_eq, h.globalFire_eq, ha, hn, h0, h1, Option.isNone_some, Bool.or_self, Bool.false_eq_true, if_false, Option.getD_some]
  exact congrArg Host.Outcome.next (CellPlaced.globalAccess_eq hp hleaves)

end Store

/-! ## Atomics and contributions -/

section Atomic
variable {a : W64} {w : W} {ls : List Leaf} {ps : List Piece} {ts : List Nat} (ha : i.l.va = some a) (hn : i.r.null = false)
  (hp : CellPlaced s e (sectorOf a) 64 1 .atomic .home w ls ps ts) (hl : ∀ l ∈ ls, l.place ≠ 3)
include ha hn hp hl

theorem CellFires.atomOp_sends {kind : ReqKind} {host : Bool} (h : CellFires s e x u true i) (hpn : (u.p && i.p.null) = false) : atomOp f u kind host s =
    .next (s.cellSent e i (sectorOf a) w ls ps ts
      (fun w => { kind := kind, fmt := f.fmt.toNat, data := (i.r.policy x.empty x.k).data.zeroExtend 768, data2 := (i.p.policy x.empty x.k).data.zeroExtend 768
                  mask := packElems 4 ((List.range 16).map fun l => if (atomLanes (if u.p then [i.r.policy x.empty x.k, i.p.policy x.empty x.k]
                    else [i.r.policy x.empty x.k])).contains l then 15 else 0)
                  acq := decide (scopeOf f ≠ 0), rel := decide (scopeOf f ≠ 0), scope := scopeOf f, ref := (w.cell e.r e.cell).latest })
      fun id w => w.awaitResult e id (i.mark {})) := by
  have hleaves : (ls.all fun l => l.place != 3 || (host && (atomLanes (if u.p then [i.r.policy x.empty x.k, i.p.policy x.empty x.k]
      else [i.r.policy x.empty x.k])).length == 1)) = true := List.all_eq_true.mpr fun l hm => by simp [hl l hm]
  simp only [atomOp, h.runElem_eq, h.globalFire_eq, ha, hn, hpn, Option.isNone_some, Bool.or_self, Bool.false_eq_true, if_false, Option.getD_some]
  exact congrArg Host.Outcome.next (CellPlaced.globalAccess_eq hp hleaves)

theorem CellFires.rdcp_sends (h : CellFires s e x { r := true } true i) : exec (.rdcp f) s = .next (s.cellSent e i (sectorOf a) w ls ps ts
    (fun w => { kind := .rdcp (f.imm.toNat % 4) x.seqNo, fmt := f.fmt.toNat, data := (i.r.policy x.empty x.k).data.zeroExtend 768
                mask := storeMask (i.r.policy x.empty x.k), ref := (w.cell e.r e.cell).latest })
    fun id w => (w.setElem e fun x => { x with seqNo := x.seqNo + 1 }).awaitResult e id (completion i.l i (w.cellRel e 0))) := by
  show execRdcp f s = _
  have hleaves : (ls.all fun l => l.place != 3) = true := List.all_eq_true.mpr fun l hm => by simp [hl l hm]
  have hmark (w : W) : (w.setElem e fun x => { x with seqNo := x.seqNo + 1 }).cellRel e 0 = w.cellRel e 0 := w.setElem_cellRel e _ 0 fun _ => ⟨rfl, rfl⟩
  simp only [execRdcp, hmark, h.runElem_eq, h.globalFire_eq, ha, hn, Option.isNone_some, Bool.or_self, Bool.false_eq_true, if_false, Option.getD_some]
  exact congrArg Host.Outcome.next (CellPlaced.globalAccess_eq hp hleaves)

end Atomic

/-! ## Fences -/

theorem CellFires.mfence_takes (h : CellFires s e x {} true i) : exec (.mfence f) s = .next (s.fired e i fun w =>
    let w := w.setCell e.r e.cell fun c => { c with globAt := w.now + 1, globBy := e.slot }
    (w.issue { die := (w.region e.r).die, part := (w.region e.r).part, src := .elem e.r e.cell e.slot, kind := .mfence f.imm.toNat, scope := scopeOf f,
                place := w.edgeOf (w.region e.r) e.cell }).1.awaitResult
      e (w.m.nextId + 1) { i.l with rel := i.rel, last := i.last, log := i.log }) := by
  show execMfence f s = _
  simp only [execMfence, h.runElem_eq, h.turn, h.elem_eq, h.ins, if_true]
  rfl

end Fires

/-- Settles O21: stores by their shared form, atomics by theirs, each as an access that is placed sends it (`CellPlaced.globalAccess_eq`). -/
theorem cellStores : Obligations.CellStores := by
  rintro f s e x i a w ls ps ts sec die scope r rfl rfl rfl ha rfl
  refine ⟨fun h hn hf hp => ?st, fun h hn hf hp hl => ?mcst, fun h hn hf => ⟨fun hs => ?quiet, fun hs => ?released⟩, fun h hn h0 h1 hp hl => ?sigst,
    fun h hn hp hl => ⟨?atom, ?rdcp⟩, ?cas, fun h => ?mfence⟩
  case st => exact h.storeOp_sends f hn hf ha hp (.inl rfl)
  case mcst => exact h.storeOp_sends f (touch := fun _ => .copies) hn hf ha hp (.inr hl)
  case quiet =>
    exact ⟨(h.storeOp_nothing f hn hf).1 hs, (h.storeOp_nothing f (kind := .mcst _) (touch := fun _ => .copies) (replica := true) hn hf).1 hs⟩
  case released =>
    exact ⟨(h.storeOp_nothing f hn hf).2 hs, (h.storeOp_nothing f (kind := .mcst _) (touch := fun _ => .copies) (replica := true) hn hf).2 hs⟩
  case sigst => exact h.sigst_sends f hn ha h0 h1 hp hl
  case atom => exact CellFires.atomOp_sends f ha hn hp hl h rfl
  case rdcp => exact CellFires.rdcp_sends f ha hn hp hl h
  case cas =>
    rintro p rfl h hn hpn hp hl
    exact CellFires.atomOp_sends f ha hn hp hl h hpn
  case mfence => exact h.mfence_takes f

end Sys2Proof.Machine
end

section
/-! PROOFS. The addresses of an address generator: AFF, GATH, IDX, LAST and BND (13_memory_and_address_cells.md R247, R248; 05_ordering_local.md R90); from them O28. -/

namespace Sys2Proof.Machine

/-! ## AFF -/

/-- AFF's address, as the machine computes it over the integers and as a word (R247). -/
theorem affAddr_eq (v : W64) (k lane : W32) : addrToken (((v.toNat : Int) + sextNat 32 k.toNat * (lane.toNat : Int)) % 2 ^ 64).toNat =
    { data := (v + k.signExtend 64 * lane.zeroExtend 64).zeroExtend 512 } := by
  have hk : sextNat 32 k.toNat = (k.signExtend 64).toInt := by
    rw [sextNat_toNat (by decide), BitVec.toInt_signExtend_of_le (by decide)]
  have hword : BitVec.ofInt 64 ((v.toNat : Int) + sextNat 32 k.toNat * (lane.toNat : Int)) = v + k.signExtend 64 * lane.zeroExtend 64 := by
    rw [BitVec.ofInt_add, BitVec.ofInt_mul, hk, BitVec.ofInt_toInt, BitVec.ofInt_natCast, BitVec.ofInt_natCast, BitVec.ofNat_toNat, BitVec.setWidth_eq]
    congr 2
    exact BitVec.ofNat_toNat ..
  have hnat := congrArg BitVec.toNat hword
  rw [BitVec.toNat_ofInt] at hnat
  have hlt := (v + k.signExtend 64 * lane.zeroExtend 64).isLt
  refine congrArg (fun d : W512 => ({ data := d } : Token)) (BitVec.eq_of_toNat_eq ?_)
  rw [show ((2 : Int) ^ 64) = ((2 ^ 64 : Nat) : Int) from rfl, hnat, Nat.mod_eq_of_lt hlt, BitVec.toNat_ofNat, BitVec.toNat_setWidth]

/-! ## One lane of a result -/

/-- The lanes that IDX sums, when none of them is empty. -/
theorem oneLane_full {empty : Nat} {l : Token} {ls : List Nat} (v : List Nat → Nat) (hl : ∀ j ∈ ls, l.emptyAt j = false) (hne : ls ≠ []) :
    oneLane empty l ls v = lowLanes [v ls] := by
  have hfull : ls.filter (fun j => !l.emptyAt j) = ls := List.filter_eq_self.mpr fun j hj => by simp [hl j hj]
  simp [oneLane, hfull, hne]

/-- One of the lanes is empty, and the element does not absorb. -/
theorem oneLane_empty {empty : Nat} {l : Token} {ls : List Nat} (v : List Nat → Nat) (he : empty ≠ 1) (hl : ∃ j ∈ ls, l.emptyAt j = true) :
    oneLane empty l ls v = { empty := 1 } := by
  obtain ⟨j, hj, hemp⟩ := hl
  have hless : (ls.filter fun j => !l.emptyAt j).length ≠ ls.length := fun hlen => by
    have := (List.length_filter_eq_length_iff.mp hlen) j hj
    simp [hemp] at this
  simp [oneLane, he, hless]

section Fires
variable {s : State} {e : ERef} {x : Elem} (f : EFields)

/-- The base that an AFF takes or keeps: what its record says of it as it has consumed its inputs is what it said before. -/
theorem Fires.setBase_eq {i : Ins} (h : Fires s e x { r := x.baseDue } i) :
    (((W.of s).consume e i).setElem e fun y => { y with
      base := x.newBase i, baseRel := y.newBaseRel i, armed := if x.baseDue then false else y.armed }) =
    ((W.of s).consume e i).setElem e fun y => { y with
      base := x.newBase i, baseRel := x.newBaseRel i, armed := if x.baseDue then false else y.armed } := by
  obtain ⟨g, hg⟩ := h.has
  obtain ⟨cells, elems, ref, hc⟩ := h.consume_has hg.reg
  rw [hc.setElem_eq, hc.setElem_eq]
  rfl

section Aff
variable {i : Ins} (h : Fires s e x { r := x.baseDue } i)
include h

theorem Fires.aff_null (hb : x.newBase i = none ∨ i.l.null = true) : exec (.aff f) s = .next (s.fired e i fun w =>
    (w.setElem e fun y => { y with base := x.newBase i, baseRel := x.newBaseRel i, armed := if x.baseDue then false else y.armed }).flyBoth e 1
      (i.withBase x).nullOut 0) := by
  have hl : (i.withBase x).l = i.l := by unfold Ins.withBase; split <;> rfl
  show execAff f s = _
  simp only [execAff, h.runElem_eq, h.elem_eq, h.fireAny_eq, State.fired, h.setBase_eq]
  cases hnew : x.newBase i with
  | none => rfl
  | some v => simp only [hl, hb.resolve_left (by simp [hnew]), if_true]

theorem Fires.aff_sends {v : W64} (hb : x.newBase i = some v) (hn : i.l.null = false) : exec (.aff f) s = .next (s.fired e i fun w =>
    (w.setElem e fun y => { y with base := x.newBase i, baseRel := x.newBaseRel i, armed := if x.baseDue then false else y.armed }).flyBoth e 1
      ((i.withBase x).mark (if (i.l.policy x.empty x.k).emptyAt 0 then { empty := 3 }
        else { data := (v + x.k.signExtend 64 * ((i.l.policy x.empty x.k).lane 0).zeroExtend 64).zeroExtend 512 })) 0) := by
  have hl : (i.withBase x).l = i.l := by unfold Ins.withBase; split <;> rfl
  show execAff f s = _
  simp only [execAff, h.runElem_eq, h.elem_eq, h.fireAny_eq, State.fired, h.setBase_eq, ← affAddr_eq]
  simp only [hb, hl, hn, Bool.false_eq_true, if_false]
  split <;> rfl

end Aff

/-! ## IDX, LAST and BND -/

section Lane
variable {i : Ins} (hn : i.anyNull = false)
include hn

theorem Fires.idx_eq (h : Fires s e x {} i) : exec (.idx f) s = .next (s.fired e i fun w => w.flyBoth e 1 (i.mark
    (oneLane x.empty (i.l.policy x.empty x.k) ((List.range 5).filter fun j => f.imm.getLsbD j) fun full =>
      (full.foldl (fun n j => n + ((i.l.policy x.empty x.k).lane j).toNat) 0) % 2 ^ 32)) 0) := by
  show execIdx f s = _
  simp only [execIdx, h.runElem_eq, h.fire_eq hn]

theorem Fires.last_eq (h : Fires s e x {} i) : exec (.last f) s = .next (s.fired e i fun w => w.flyBoth e 1 (i.mark
    (oneLane x.empty (i.l.policy x.empty x.k) [15] fun _ =>
      if (List.range 4).all fun j => !f.imm.getLsbD j || ((i.l.policy x.empty x.k).lane 15).getLsbD j then 1 else 0)) 0) := by
  show execLast f s = _
  simp only [execLast, h.runElem_eq, h.fire_eq hn]

theorem Fires.bnd_eq (h : Fires s e x { r := true } i) : exec (.bnd f) s = .next (s.fired e i fun w => w.flyBoth e 1 (i.mark { i.l with
    empty := mask16 fun j => i.l.emptyAt j || (i.r.policy x.empty x.k).emptyAt 0 ||
      decide (((i.r.policy x.empty x.k).lane 0).toNat ≤ (i.l.lane j).toNat) }) 0) := by
  show execBnd f s = _
  simp only [execBnd, h.runElem_eq, h.fire_eq hn]

end Lane
end Fires

/-! ## GATH -/

/-- A firing that consumes what carries no mark and no log writes no byte of memory. -/
theorem W.consume_log (w : W) (e : ERef) {i : Ins} (hlog : ∀ t ∈ i.toks, t.log = none) (hrel : i.rel = none) : (w.consume e i).log = w.log := by
  have untraced (v : W) (ts : List Token) (h : ∀ t ∈ ts, t.log = none) : (ts.foldl (fun w t => w.trace e (hopOf w e.key t) false) v) = v :=
    List.foldlRecOn (motive := fun w => w = v) ts _ rfl fun w hw t ht => by rw [hopOf_untraced _ _ (h t ht), W.trace_untraced _ _ (h t ht), hw]
  simp only [W.consume, w.acquireBy_unmarked e hrel, untraced _ _ hlog, ite_self]
  split <;> rfl

theorem relOf_unmarked {ts : List Token} (h : ∀ t ∈ ts, t.rel = none) : relOf ts = none := by
  unfold relOf
  exact List.foldlRecOn (motive := fun r => r = none) ts _ rfl fun r hr t ht => by rw [h t ht, hr]

/-- Every address of a GATH is below 2^64. -/
theorem gathAddrs_lt {l : Token} {v : W64} {sz k a : Nat} {h t : Bool} (hk : (gathAddrs l v sz)[k]? = some (a, h, t)) : a < 2 ^ 64 := by
  have hm := List.mem_of_getElem? hk
  simp only [gathAddrs, List.mem_flatMap, List.mem_map, Prod.mk.injEq] at hm
  obtain ⟨-, -, -, -, rfl, -⟩ := hm
  exact Nat.mod_lt _ (Nat.two_pow_pos 64)

/-- Inputs none of which carries a mark or a log. -/
def Ins.Bare (i : Ins) : Prop := ∀ t ∈ i.toks, t.log = none ∧ t.rel = none ∧ t.last = false

theorem Ins.Bare.rel_none {i : Ins} (h : i.Bare) : i.rel = none := relOf_unmarked fun t ht => (h t ht).2.1
theorem Ins.Bare.log_none {i : Ins} (h : i.Bare) : i.log = none := List.findSome?_eq_none_iff.mpr fun t ht => (h t ht).1
theorem Ins.Bare.last_false {i : Ins} (h : i.Bare) : i.last = false := List.any_eq_false.mpr fun t ht => by simp [(h t ht).2.2]
theorem Ins.Bare.sub {i j : Ins} (h : i.Bare) (hs : ∀ t ∈ j.toks, t ∈ i.toks) : j.Bare := fun t ht => h t (hs t ht)

/-- What a GATH's turn shows while it works: what stands at its element's L and the results that it holds are those of x; its region is but for its records, and
memory and time are, as before. -/
structure W.Gathers (w : W) (s : State) (e : ERef) (g : Region) (x y : Elem) : Prop where
  has     : ∃ cells elems, w.Has e { g with cells := cells, elems := elems } y
  flights : y.flights = x.flights
  pass    : y.pass = x.pass
  clk     : w.clk = s.clk
  log     : w.log = []

section Gathers
variable {w : W} {s : State} {e : ERef} {g : Region} {x y : Elem} (h : w.Gathers s e g x y)
include h

theorem W.Gathers.setElem (f : Elem → Elem) (hf : (f y).flights = y.flights) (hp : (f y).pass = y.pass) : (w.setElem e f).Gathers s e g x (f y) := by
  obtain ⟨cells, elems, hh⟩ := h.has
  exact ⟨⟨cells, _, hh.setElem f⟩, hf.trans h.flights, hp.trans h.pass, h.clk, h.log⟩

theorem W.Gathers.consume {i : Ins} (hb : i.Bare) : ∃ ref, (w.consume e i).Gathers s e g x { y.consumed i w.now with leafRef := ref } := by
  obtain ⟨cells, elems, hh⟩ := h.has
  obtain ⟨cells', elems', ref, hc⟩ := hh.consume i
  exact ⟨ref, ⟨cells', elems', hc⟩, h.flights, h.pass, (w.consume_clk e i).trans h.clk, (w.consume_log e (fun t ht => (hb t ht).1) hb.rel_none).trans h.log⟩

/-- A token without a log that is sent on: the last of the results. -/
theorem W.Gathers.sends {t : Token} (ht : t.log = none) : ((w.flyBoth e 1 t 0).commit s).mem = s.mem ∧
    ((w.flyBoth e 1 t 0).commit s).elem e =
      { y with flights := x.flights ++ [{ due := (W.of s).edgeOf g e.cell + 1 + x.pass, a := some t, b := some t }] } := by
  obtain ⟨cells, elems, hh⟩ := h.has
  refine ⟨?mem, ?elem⟩
  case mem =>
    show applyLog s.mem w.log = s.mem
    rw [h.log]
    rfl
  case elem =>
    rw [(hh.flyBoth 1 t 0).state_elem, h.flights]
    have hedge : w.edgeOf { g with cells := cells, elems := elems } e.cell = (W.of s).edgeOf g e.cell := by
      simp only [W.edgeOf, W.now, h.clk]
      rfl
    simp only [W.flight, hedge, h.pass, Option.map_some, hopOf_untraced _ _ ht]

end Gathers

/-- R is used by a GATH's firing: its first one after an arming, when no burst is under way (R247). -/
def Elem.gathDue (x : Elem) : Bool := x.run.isNone && x.baseDue

/-- The burst of a GATH: the one under way, or one that begins with the inputs' marks. -/
def Elem.GathRun (x : Elem) (i : Ins) (u : Run) : Prop :=
  x.run = some u ∨ x.run = none ∧ u = { pos := [0], tok := { (i.withBase x).markOnly {} with data := 0 } }

/-- A GATH has taken its base, when R is due. -/
def W.gathBase (w : W) (e : ERef) (x : Elem) (i : Ins) (v : W64) : W :=
  let w := if x.gathDue then w.consume e { i with lT := false } else w
  w.setElem e fun y => { y with
    base := some v, baseRel := if x.gathDue then i.r.rel else y.baseRel, armed := if x.gathDue then false else y.armed, nextG := w.now + 1 }

/-- A GATH has consumed what it has not consumed with its base, and its burst is over. -/
def W.gathEnd (w : W) (e : ERef) (i : Ins) : W := (w.consume e { i with r := {}, rT := false }).setElem e fun y => { y with run := none }

/-- A GATH has come to address k of n: the burst goes on, or is over. -/
def W.gathNext (w : W) (e : ERef) (i : Ins) (u : Run) (k n : Nat) : W :=
  if k + 1 = n then w.gathEnd e i else w.setElem e fun y => { y with run := some { u with pos := [k + 1] } }

section Gath
variable (f : EFields) {s : State} {e : ERef} {g : Region} {x : Elem} {i : Ins} {v : W64} (h : ElemTurn s e g x) (hm : (W.of s).mayFire e = true)
  (hgr : (W.of s).grantBoth e = true) (hi : x.inputs { r := x.gathDue } = some i) (hn : i.l.null = false)
  (hb : (if x.run.isNone then x.newBase i else x.base) = some v)

section Exec
variable {u : Run} (hu : x.GathRun i u)
include h hm hgr hi hn hb hu

theorem ElemTurn.gath_address {a : Nat} {hd tl : Bool} (hk : (gathAddrs (i.l.policy x.empty x.k) v f.imm.toNat)[u.pos.headD 0]? = some (a, hd, tl)) :
    exec (.gath f) s = .next
      (((((W.of s).gathBase e x i v).gathNext e i u (u.pos.headD 0) (gathAddrs (i.l.policy x.empty x.k) v f.imm.toNat).length).flyBoth
        e 1 { addrToken a with
          head := hd, tail := tl, rel := u.tok.rel, log := u.tok.log
          last := decide (u.pos.headD 0 + 1 = (gathAddrs (i.l.policy x.empty x.k) v f.imm.toNat).length) && u.tok.last } 0).commit s) := by
  show execGath f s = _
  unfold execGath
  rw [h.runElem_eq]
  unfold Elem.gathDue at hi
  rcases hu with hr | ⟨hr, rfl⟩ <;> rw [hr] at hi hb <;>
    simp only [h.has.elem_eq, hm, hgr, hr, hi, hb, hn, hk, Bool.not_true, Bool.false_eq_true, if_false, W.gathNext, W.gathEnd, W.gathBase, Elem.gathDue,
      decide_eq_true_eq]

theorem ElemTurn.gath_over (hk : (gathAddrs (i.l.policy x.empty x.k) v f.imm.toNat)[u.pos.headD 0]? = none) :
    exec (.gath f) s = .next ((((W.of s).gathBase e x i v).gathEnd e i).commit s) := by
  show execGath f s = _
  unfold execGath
  rw [h.runElem_eq]
  unfold Elem.gathDue at hi
  rcases hu with hr | ⟨hr, rfl⟩ <;> rw [hr] at hi hb <;>
    simp only [h.has.elem_eq, hm, hgr, hr, hi, hb, hn, hk, Bool.not_true, Bool.false_eq_true, if_false, W.gathEnd, W.gathBase, Elem.gathDue]

end Exec
/-! ### What the turn leaves -/

/-- Inputs of which only some are consumed. -/
theorem Ins.Bare.withoutL (hbare : i.Bare) : Ins.Bare { i with lT := false } := hbare.sub fun t ht => by
  simp only [Ins.toks, Bool.false_eq_true, if_false, List.nil_append, List.append_assoc] at ht ⊢
  exact List.mem_append_right _ ht

theorem Ins.Bare.withoutR (hbare : i.Bare) : Ins.Bare { i with r := {}, rT := false } := hbare.sub fun t ht => by
  simp only [Ins.toks, Bool.false_eq_true, if_false, List.append_nil, List.append_assoc, List.mem_append] at ht ⊢
  exact ht.imp_right .inr

theorem Ins.Bare.withBase (hbare : i.Bare) (hrel : x.baseRel = none) : (i.withBase x).Bare := by
  unfold Ins.withBase
  split
  · exact hbare
  · intro t ht
    simp only [Ins.toks, if_true, List.mem_append, List.mem_singleton] at ht
    rcases ht with (hl | rfl) | hp
    · exact hbare t (by simp only [Ins.toks, List.mem_append]; exact .inl (.inl hl))
    · exact ⟨rfl, hrel, rfl⟩
    · exact hbare t (by simp only [Ins.toks, List.mem_append]; exact .inr hp)

/-- The burst of a GATH whose tokens and base carry no mark: it carries none. -/
theorem Elem.gathRun_bare {k : Nat} (hbare : i.Bare) (hrel : x.baseRel = none) (hk : x.run = none ∧ k = 0 ∨
    ∃ u, x.run = some u ∧ u.pos = [k] ∧ u.tok.rel = none ∧ u.tok.log = none ∧ u.tok.last = false) :
    ∃ u, x.GathRun i u ∧ u.pos.headD 0 = k ∧ u.tok.rel = none ∧ u.tok.log = none ∧ u.tok.last = false := by
  rcases hk with ⟨hr, rfl⟩ | ⟨u, hr, hpos, hmarks⟩
  · have hw := hbare.withBase hrel
    exact ⟨_, .inr ⟨hr, rfl⟩, rfl, hw.rel_none, hw.log_none, hw.last_false⟩
  · exact ⟨u, .inl hr, by rw [hpos]; rfl, hmarks⟩

include h in
theorem ElemTurn.gathBase_has (hbare : i.Bare) : ∃ y, ((W.of s).gathBase e x i v).Gathers s e g x y ∧ y.inL = x.inL ∧ y.base = some v := by
  have h0 : (W.of s).Gathers s e g x x := ⟨⟨g.cells, g.elems, h.has⟩, rfl, rfl, rfl, rfl⟩
  unfold W.gathBase
  by_cases hd : x.gathDue = true
  · obtain ⟨ref, hc⟩ := h0.consume hbare.withoutL
    simp only [hd, if_true]
    exact ⟨_, hc.setElem _ rfl rfl, rfl, rfl⟩
  · simp only [hd, Bool.false_eq_true, if_false]
    exact ⟨_, h0.setElem _ rfl rfl, rfl, rfl⟩

theorem W.Gathers.gathEnd {w : W} {y : Elem} (hw : w.Gathers s e g x y) (hbare : i.Bare) : ∃ z, (w.gathEnd e i).Gathers s e g x z ∧
    z.inL = (if i.lT then none else y.inL) ∧ z.base = y.base ∧ z.run = none := by
  obtain ⟨ref, hc⟩ := hw.consume hbare.withoutR
  exact ⟨_, hc.setElem _ rfl rfl, rfl, rfl, rfl⟩

theorem W.Gathers.gathNext {w : W} {y : Elem} (hw : w.Gathers s e g x y) (hbare : i.Bare) (u : Run) (k n : Nat) : ∃ z,
    (w.gathNext e i u k n).Gathers s e g x z ∧ z.base = y.base ∧ (k + 1 < n → z.inL = y.inL ∧ z.run = some { u with pos := [k + 1] }) ∧
    (k + 1 = n → z.inL = (if i.lT then none else y.inL) ∧ z.run = none) := by
  unfold W.gathNext
  by_cases hk : k + 1 = n
  · obtain ⟨z, hz, hL, hbase, hrun⟩ := hw.gathEnd hbare
    rw [if_pos hk]
    exact ⟨z, hz, hbase, fun hlt => absurd hk hlt.ne, fun _ => ⟨hL, hrun⟩⟩
  · rw [if_neg hk]
    exact ⟨_, hw.setElem _ rfl rfl, rfl, fun _ => ⟨rfl, rfl⟩, fun he => absurd he hk⟩

include h hm hgr hi hn hb

theorem ElemTurn.gath_sends (hbare : i.Bare) (hrel : x.baseRel = none) {k a : Nat} {hd tl : Bool} {as : List (Nat × Bool × Bool)}
    (hk : x.run = none ∧ k = 0 ∨ ∃ u, x.run = some u ∧ u.pos = [k] ∧ u.tok.rel = none ∧ u.tok.log = none ∧ u.tok.last = false)
    (has : as = gathAddrs (i.l.policy x.empty x.k) v f.imm.toNat) (ha : as[k]? = some (a, hd, tl)) :
    ∃ s', exec (.gath f) s = .next s' ∧ s'.mem = s.mem ∧ (s'.elem e).base = some v ∧
      (s'.elem e).flights = x.flights ++ [{ due := (W.of s).edgeOf g e.cell + 1 + x.pass, a := some { data := BitVec.ofNat 512 a, head := hd, tail := tl },
                                            b := some { data := BitVec.ofNat 512 a, head := hd, tail := tl } }] ∧
      (k + 1 < as.length → (s'.elem e).inL = x.inL ∧ ∃ u, (s'.elem e).run = some u ∧ u.pos = [k + 1]) ∧
      (k + 1 = as.length → (s'.elem e).inL = (if i.lT then none else x.inL) ∧ (s'.elem e).run = none) := by
  obtain ⟨u, hu, rfl, hurel, hulog, hulast⟩ := Elem.gathRun_bare hbare hrel hk
  subst has
  have hexec := h.gath_address f hm hgr hi hn hb hu ha
  have htok : ({ addrToken a with
      head := hd, tail := tl, rel := u.tok.rel, log := u.tok.log
      last := decide (u.pos.headD 0 + 1 = (gathAddrs (i.l.policy x.empty x.k) v f.imm.toNat).length) && u.tok.last } : Token) =
      { data := BitVec.ofNat 512 a, head := hd, tail := tl } := by
    rw [hurel, hulog, hulast, Bool.and_false, addrToken, Nat.mod_eq_of_lt (gathAddrs_lt ha)]
  rw [htok] at hexec
  obtain ⟨y, hy, hL, hbase⟩ := h.gathBase_has (v := v) hbare
  obtain ⟨z, hz, hzbase, hmore, hlast⟩ := hy.gathNext hbare u (u.pos.headD 0) (gathAddrs (i.l.policy x.empty x.k) v f.imm.toNat).length
  obtain ⟨hmem, helem⟩ := hz.sends (t := { data := BitVec.ofNat 512 a, head := hd, tail := tl }) rfl
  refine ⟨_, hexec, hmem, ?_⟩
  rw [helem]
  exact ⟨hzbase.trans hbase, rfl, fun hlt => ⟨(hmore hlt).1.trans hL, _, (hmore hlt).2, rfl⟩, fun he => ⟨hL ▸ (hlast he).1, (hlast he).2⟩⟩

theorem ElemTurn.gath_none (hbare : i.Bare) (hrel : x.baseRel = none) {k : Nat}
    (hk : x.run = none ∧ k = 0 ∨ ∃ u, x.run = some u ∧ u.pos = [k] ∧ u.tok.rel = none ∧ u.tok.log = none ∧ u.tok.last = false)
    (has : gathAddrs (i.l.policy x.empty x.k) v f.imm.toNat = []) :
    ∃ s', exec (.gath f) s = .next s' ∧ (s'.elem e).inL = (if i.lT then none else x.inL) ∧ (s'.elem e).flights = x.flights := by
  obtain ⟨u, hu, -⟩ := Elem.gathRun_bare hbare hrel hk
  have hexec := h.gath_over f hm hgr hi hn hb hu (by rw [has]; rfl)
  obtain ⟨y, hy, hL, -⟩ := h.gathBase_has (v := v) hbare
  obtain ⟨z, hz, hzL, -⟩ := hy.gathEnd hbare
  obtain ⟨cells, elems, hhas⟩ := hz.has
  refine ⟨_, hexec, ?_⟩
  rw [hhas.state_elem]
  exact ⟨hL ▸ hzL, hz.flights⟩

end Gath

/-- Settles O28: AFF by whether it has a base, GATH by the address that its burst has come to, and IDX and LAST by whether the lanes that they read are full. -/
theorem addresses : Obligations.Addresses := by
  refine ⟨?aff, ?gath, ?lanes⟩
  case aff =>
    rintro f s e x i l b h rfl rfl
    have hbase : (if x.armed = true ∧ x.names 1 = true then i.r.va else x.base) = x.newBase i := by simp [Elem.newBase, Elem.baseDue]
    rw [hbase]
    exact ⟨Fires.aff_null f h, fun v hv hn => hv ▸ Fires.aff_sends f h hv hn⟩
  case gath =>
    rintro f s e g x i l v k due as h hm hgr rfl hi hn hrel hbare hv rfl hk has
    rw [Bool.and_assoc] at hi hv
    have hb : (if x.run.isNone then x.newBase i else x.base) = some v := by
      rw [← hv, Elem.newBase, Elem.baseDue]
      cases x.run.isNone <;> rfl
    exact ⟨fun a hd tl ha => h.gath_sends f hm hgr hi hn hb hbare hrel hk has ha,
      fun he => h.gath_none f hm hgr hi hn hb hbare hrel hk (has.symm.trans he)⟩
  case lanes =>
    rintro f s e x i l h hn rfl
    refine ⟨fun hfull hsel => ?sum, fun he hsel => ?one, fun h15 => ?last, fun h15 => ?none, fun i' h' hn' => h'.bnd_eq f hn'⟩
    case sum =>
      obtain ⟨j, hj, hm⟩ := hsel
      rw [h.idx_eq f hn, oneLane_full _ (fun j _ => by simp [Token.emptyAt, hfull])
        (List.ne_nil_of_mem (List.mem_filter.mpr ⟨List.mem_range.mpr hj, hm⟩)), ← List.foldl_map (g := fun n m => n + m), ← List.sum_eq_foldl]
    case one =>
      obtain ⟨j, hj, hm, hemp⟩ := hsel
      rw [h.idx_eq f hn, oneLane_empty _ he ⟨j, List.mem_filter.mpr ⟨List.mem_range.mpr hj, hm⟩, hemp⟩]
    case last => rw [h.last_eq f hn, oneLane_full _ (by simpa using h15) (by simp)]
    case none =>
      rw [h.last_eq f hn]
      simp [oneLane, h15]

end Sys2Proof.Machine
end

section
/-! PROOFS. The answers of a memory cell's requests, what its releases, contributions and fences send on, and a peer's release (13_memory_and_address_cells.md R226, R229, R232, R236,
R241, R243; 06_ordering_wide.md R94, R97, R104); from them O42. -/

namespace Sys2Proof.Machine

/-! ## A request that an element awaits -/

/-- The element e, which the region g holds as x, awaits the request r, which is whole in its one piece p. -/
structure CellAwaits (s : State) (r : Req) (e : ERef) (g : Region) (x : Elem) (p : Piece) : Prop where
  sent   : s.req r.id = some r
  src    : r.src = .elem e.r e.cell e.slot
  reg    : tget s.m.regions e.r = some g
  here   : tget g.elems e.key = some x
  pieces : r.pieces = [p]
  off    : p.off = 0
  len    : p.len = r.size

theorem CellAwaits.has {s : State} {r : Req} {e : ERef} {g : Region} {x : Elem} {p : Piece} (h : CellAwaits s r e g x p) : (W.of s).Has e g x := ⟨h.reg, h.here⟩
theorem CellAwaits.req {s : State} {r : Req} {e : ERef} {g : Region} {x : Elem} {p : Piece} (h : CellAwaits s r e g x p) : (W.of s).req r.id = some r := h.sent
/-- None of its pieces has been performed: the first is next. -/
theorem Req.left_of_none {r : Req} {p : Piece} (hp : r.pieces = [p]) (hd : r.did = []) : r.left.head? = some 0 := by
  rw [Req.left, hp, hd]
  rfl
theorem W.mayPerform_of_mayRead {w : W} {r : Req} {p : Piece} (h : w.mayRead r p = true) : mayPerform w.m.bus.reqs r = true := by
  simp only [W.mayRead, Bool.and_eq_true] at h
  exact h.1.2

/-! ## What a response leaves alone -/

/-- Nothing is written to memory, and time and the fabric are as the state has them. -/
structure W.Still (s : State) (w : W) : Prop where
  log    : w.log = []
  fabric : w.fabric = (W.of s).fabric

theorem W.Still.of_quiet_aside {s : State} {w w' : W} (h : w.Still s) (q : w.Quiet w') (a : w.Aside w') : w'.Still s := ⟨q.log.trans h.log, a.fabric.trans h.fabric⟩

theorem W.readBy_quiet (w : W) (r : Req) (p : Piece) : w.Quiet (w.readBy r p) := by
  have h := (w.countIn_quiet r.die (keyHome p.key)).trans (W.learn_quiet _ (w.reqEye r) r.id (if r.acq then r.scope else 0) (w.sources (w.reqEye r) false p))
  unfold W.readBy
  dsimp only
  split
  · exact W.quiet_ite h (h.trans (W.setBus_quiet _ _ rfl rfl))
  · exact h
theorem W.learn_aside (w : W) (e : Eye) (id acq : Nat) (us : List Unseen) : w.Aside (w.learn e id acq us) := W.aside_ite (.refl w) (w.setBus_aside _)
theorem W.readBy_aside (w : W) (r : Req) (p : Piece) : w.Aside (w.readBy r p) := by
  have h := (w.countIn_aside r.die (keyHome p.key)).trans (W.learn_aside _ (w.reqEye r) r.id (if r.acq then r.scope else 0) (w.sources (w.reqEye r) false p))
  unfold W.readBy
  dsimp only
  split
  · exact W.aside_ite h (h.trans (W.setBus_aside _ _))
  · exact h
theorem W.still_of (s : State) : (W.of s).Still s := ⟨rfl, rfl⟩

section Still
variable {s : State} {w : W} (h : w.Still s)
include h

theorem W.Still.readBy (r : Req) (p : Piece) : (w.readBy r p).Still s := h.of_quiet_aside (w.readBy_quiet r p) (w.readBy_aside r p)
theorem W.Still.setBus (f : Bus → Bus) : (w.setBus f).Still s := ⟨h.log, h.fabric⟩
theorem W.Still.cellRef (r c : Nat) (ref : W32) : (w.cellRef r c ref).Still s := ⟨h.log, (w.cellRef_fabric r c ref).trans h.fabric⟩
theorem W.Still.cellAcquire (e : ERef) (r : Req) (len : Nat) : (w.cellAcquire e r len).Still s := by
  unfold W.cellAcquire
  split
  · exact h.cellRef _ _ _
  · exact h
/-- An element's record is as it was but for its leaf's latest pennant, and its island has come to the same edge. -/
theorem W.Still.has {e : ERef} {g : Region} {x : Elem} (hx : (W.of s).Has e g x) :
    ∃ g' ref, w.Has e g' { x with leafRef := ref } ∧ w.edgeOf g' e.cell = (W.of s).edgeOf g e.cell := by
  obtain ⟨cells, elems, ref, hw⟩ := hx.of_fabric h.fabric
  have hc : w.clk = s.clk := congrArg Prod.fst h.fabric
  refine ⟨_, ref, hw, ?_⟩
  simp only [W.edgeOf, W.now, hc]
  rfl
end Still

/-- The request is gone, nothing is written to memory, the element's record is y, and its island has come to an edge. -/
structure W.Ends (w : W) (id : Nat) (e : ERef) (edge : Nat) (y : Elem) : Prop where
  log  : w.log = []
  gone : w.req id = none
  has  : ∃ g, w.Has e g y ∧ w.edgeOf g e.cell = edge

theorem W.dropReq_none (w : W) (id : Nat) : (w.dropReq id).req id = none := List.find?_eq_none.2 fun q hq => by simpa using (List.mem_filter.1 hq).2
theorem W.Still.dropReq {s : State} {w : W} {e : ERef} {g : Region} {x : Elem} (h : w.Still s) (hx : (W.of s).Has e g x) (id : Nat) :
    ∃ ref, (w.dropReq id).Ends id e ((W.of s).edgeOf g e.cell) { x with leafRef := ref } := by
  obtain ⟨g', ref, hw, he⟩ := h.has hx
  exact ⟨ref, h.log, w.dropReq_none id, g', hw.of_regions rfl, he⟩

section Ends
variable {s : State} {w : W} {id : Nat} {e : ERef} {edge : Nat} {y : Elem} (h : w.Ends id e edge y)
include h

theorem W.Ends.setElem (f : Elem → Elem) : (w.setElem e f).Ends id e edge (f y) := by
  obtain ⟨g, hw, he⟩ := h.has
  exact ⟨h.log, h.gone, _, hw.setElem f, he⟩
/-- The result that waited for the request has its data, and is due at once. -/
theorem W.Ends.answer (ts : List (W512 × BitVec 16)) (fl : Flags) : (w.answer e id ts fl).Ends id e edge { y with flights := answerFlights id edge fl y.flights ts } := by
  obtain ⟨g, hw, he⟩ := h.has
  have := h.setElem fun x => { x with flights := answerFlights id edge fl x.flights ts }
  rwa [W.answer, hw.region_eq, he]
theorem W.Ends.mem : (w.commit s).mem = s.mem := by
  rw [W.commit_mem, h.log]
  rfl
theorem W.Ends.elem : (w.commit s).elem e = y := by
  obtain ⟨g, hw, -⟩ := h.has
  exact hw.state_elem
theorem W.Ends.req : (w.commit s).req id = none := h.gone
end Ends

/-! ## Loads -/

theorem W.viewBytes_eq (w : W) (e : Eye) (k n : Nat) : w.viewBytes e k n = (List.range n).map fun b => w.view e (k + b) := by
  induction n generalizing k with
  | zero => rfl
  | succ n ih =>
    rw [W.viewBytes, ih, List.range_succ_eq_map, List.map_cons, List.map_map]
    simp only [Nat.add_zero, Nat.succ_eq_add_one, Nat.add_comm, Nat.add_left_comm, Function.comp_def]

/-- The number of the bytes that an agent reads from a place on. -/
def State.word (s : State) (me : Eye) (key n : Nat) : Nat := leNat ((List.range n).map fun b => s.view me (key + b))
theorem readPiece_eq (s : State) (me : Eye) (p : Piece) : (W.of s).readPiece me p = s.word me p.key p.len := by
  rw [W.readPiece, W.viewBytes_eq]
  rfl

/-- A request whose one piece has been read. -/
def Req.filled (r : Req) (v : W512) : Req := { r with did := r.did ++ [0], vals := tput r.vals 0 v }

section
variable {s : State} {r : Req} {e : ERef} {g : Region} {x : Elem} {p : Piece} (h : CellAwaits s r e g x p)
include h

theorem CellAwaits.filled_gather (v : W512) : BitVec.ofNat 512 (r.filled v).gather = v := by
  simp [Req.gather, Req.filled, h.pieces, h.off, tgetD_tput_self]
theorem CellAwaits.filled_allDone (v : W512) : (r.filled v).allDone = true := by simp [Req.allDone, Req.filled, h.pieces]

/-- A read of a cell that no SIGLD made: one read of its piece, or an error. -/
theorem CellAwaits.read_eq (hk : r.kind = .read) (hd : r.did = []) (hm : (W.of s).mayRead r p = true) (hs : x.sig = none) (bad : Bool) (ha : bad = false → r.acq = false ∧ r.size = 64) :
    exec (.globalResponse ⟨r.id, bad⟩) s = .next ((if bad then (W.of s).cellBad e r else
      ((((W.of s).readBy r p).setReq r.id fun _ => r.filled (BitVec.ofNat 512 ((W.of s).readPiece ((W.of s).reqEye r) p))).dropReq r.id).answer e r.id
        [(BitVec.ofNat 512 ((W.of s).readPiece ((W.of s).reqEye r) p), 0)] 0).commit s) := by
  have hl := Req.left_of_none h.pieces hd
  have hp : r.pieces.getD 0 {} = p := by rw [h.pieces]; rfl
  have hx : ((W.of s).elem ⟨e.r, e.cell, e.slot⟩).sig = none := by rw [← hs]; exact congrArg Elem.sig h.has.elem_eq
  have hmp : mayPerform (W.of s).m.bus.reqs r = true := W.mayPerform_of_mayRead hm
  show execGlobalResponse _ s = _
  cases bad with
  | true => simp only [execGlobalResponse, run, h.req, h.src, hk, W.guard, hmp, hx, hl, hp, hm, if_true]
  | false =>
    obtain ⟨hacq, h64⟩ := ha rfl
    have hall := h.filled_allDone (BitVec.ofNat 512 ((W.of s).readPiece ((W.of s).reqEye r) p))
    have hg := h.filled_gather (BitVec.ofNat 512 ((W.of s).readPiece ((W.of s).reqEye r) p))
    simp only [Req.filled, h.src, hk, hacq, h64] at hall hg ⊢
    simp only [execGlobalResponse, run, h.req, h.src, hk, W.guard, hmp, hx, hl, hp, hm, hall, hg, hacq, h64, if_true, Bool.false_eq_true, if_false, Bool.not_true]
    rfl

theorem CellAwaits.load_performed (hk : r.kind = .read) (h64 : r.size = 64) (hm : (W.of s).mayRead r p = true) (hd : r.did = []) (ha : r.acq = false) (hs : x.sig = none) :
    ∃ t, exec (.globalResponse ⟨r.id, false⟩) s = .next t ∧ t.mem = s.mem ∧ t.req r.id = none ∧
      (t.elem e).flights = answerFlights r.id ((W.of s).edgeOf g e.cell) 0 x.flights [(BitVec.ofNat 512 (s.word ((W.of s).reqEye r) p.key 64), 0)] := by
  obtain ⟨ref, hw⟩ := (((W.still_of s).readBy r p).setBus _).dropReq h.has r.id
  have hE := hw.answer [(BitVec.ofNat 512 ((W.of s).readPiece ((W.of s).reqEye r) p), 0)] 0
  refine ⟨_, h.read_eq hk hd hm hs false fun _ => ⟨ha, h64⟩, hE.mem, hE.req, ?_⟩
  rw [← h64, ← h.len, ← readPiece_eq]
  exact congrArg Elem.flights hE.elem

/-! ## An atomic's error -/

theorem CellAwaits.atomic_bad (hk : r.kind = .cas ∨ ∃ o, r.kind = .atomic o) (hd : r.did = []) (hm : mayPerform s.m.bus.reqs r = true) (hr : (W.of s).relReady r = true) :
    exec (.globalResponse ⟨r.id, true⟩) s = .next (((W.of s).cellBad e r).commit s) := by
  have hc : (r.did.isEmpty && mayPerform (W.of s).m.bus.reqs r && (W.of s).relReady r) = true := by
    rw [hd, hr]
    simpa using hm
  show execGlobalResponse _ s = _
  rcases hk with hk | ⟨o, hk⟩
  · simp only [execGlobalResponse, run, h.req, h.src, hk, W.guard, hc, if_true]
  · simp only [execGlobalResponse, run, h.req, h.src, hk, W.guard, hc, if_true]

/-! ## SIGLD -/

section Sigld
variable {y : SigWait} (hk : r.kind = .read) (h8 : r.size = 8) (hm : (W.of s).mayRead r p = true) (hs : x.sig = some y) (hq : y.req = some r.id) (h0 : y.reads = 0)
include hk hm hs hq h0

/-- The first read of a SIGLD: its word against the threshold. -/
theorem CellAwaits.sigld_eq : exec (.globalResponse ⟨r.id, false⟩) s = .next ((if (W.of s).readPiece ((W.of s).reqEye r) p < y.thr then
      ((W.of s).readBy r p).setElem e fun x => { x with sig := some { y with reads := y.reads + 1, first := (W.of s).ns } }
    else (((((W.of s).readBy r p).cellAcquire e r 8).dropReq r.id).setElem e fun x => { x with sig := none }).answer e r.id
      [(BitVec.ofNat 512 ((W.of s).readPiece ((W.of s).reqEye r) p), 0)] 0).commit s) := by
  have hp : r.pieces.headD {} = p := by rw [h.pieces]; rfl
  have hx : ((W.of s).elem ⟨e.r, e.cell, e.slot⟩).sig = some y := by rw [← hs]; exact congrArg Elem.sig h.has.elem_eq
  have hmp : mayPerform (W.of s).m.bus.reqs r = true := W.mayPerform_of_mayRead hm
  have hmr : (W.of s).mayReread r 0 = true := by rw [W.mayReread, hp, hm]; rfl
  have hrr : (W.of s).reread r 0 = (W.of s).readBy r p := by rw [W.reread, W.countAgain, if_pos rfl, hp]
  show execGlobalResponse _ s = _
  simp only [execGlobalResponse, run, h.req, h.src, hk, W.guard, hmp, hx, hq, W.sigRead, hmr, hrr, hp, h0, if_true, ne_eq, not_true_eq_false, Bool.false_eq_true, if_false]

include h8
theorem CellAwaits.sigld_ends (hv : y.thr ≤ s.word ((W.of s).reqEye r) p.key 8) :
    ∃ t, exec (.globalResponse ⟨r.id, false⟩) s = .next t ∧ t.mem = s.mem ∧ t.req r.id = none ∧ (t.elem e).sig = none ∧
      (t.elem e).flights = answerFlights r.id ((W.of s).edgeOf g e.cell) 0 x.flights [(BitVec.ofNat 512 (s.word ((W.of s).reqEye r) p.key 8), 0)] := by
  have hw : (W.of s).readPiece ((W.of s).reqEye r) p = s.word ((W.of s).reqEye r) p.key 8 := by rw [readPiece_eq, h.len, h8]
  obtain ⟨ref, hd⟩ := (((W.still_of s).readBy r p).cellAcquire e r 8).dropReq h.has r.id
  have hE := (hd.setElem fun x => { x with sig := none }).answer [(BitVec.ofNat 512 (s.word ((W.of s).reqEye r) p.key 8), 0)] 0
  refine ⟨_, h.sigld_eq hk hm hs hq h0, ?_⟩
  rw [hw, if_neg (by omega)]
  exact ⟨hE.mem, hE.req, congrArg Elem.sig hE.elem, congrArg Elem.flights hE.elem⟩
theorem CellAwaits.sigld_waits (hv : s.word ((W.of s).reqEye r) p.key 8 < y.thr) :
    ∃ t z, exec (.globalResponse ⟨r.id, false⟩) s = .next t ∧ t.mem = s.mem ∧ (t.elem e).flights = x.flights ∧ (t.elem e).sig = some z ∧ z.reads = 1 := by
  have hw : (W.of s).readPiece ((W.of s).reqEye r) p = s.word ((W.of s).reqEye r) p.key 8 := by rw [readPiece_eq, h.len, h8]
  have hS := (W.still_of s).readBy r p
  obtain ⟨g', ref, hhas, -⟩ := hS.has h.has
  have hE := hhas.setElem fun x => { x with sig := some { y with reads := y.reads + 1, first := (W.of s).ns } }
  refine ⟨_, { y with reads := y.reads + 1, first := (W.of s).ns }, h.sigld_eq hk hm hs hq h0, ?_⟩
  rw [hw, if_pos hv, hE.state_elem, h0]
  refine ⟨?_, rfl, rfl, rfl⟩
  rw [W.commit_mem, W.setElem, W.setRegion_log, hS.log]
  rfl
end Sigld

/-! ## Releases -/

/-- What a performed release covers: what it wrote, and what was before that (R87, R90). -/
def Req.covered (r : Req) (s : State) : Cov := (r.cov.join ((W.of s).coverIds r.writes)).narrow r.scope
/-- A token's release mark takes a performed release. -/
def Req.markOn (r : Req) (s : State) (k : Token) : Token :=
  { k with rel := k.rel.map fun l => { l with scope := max l.scope r.scope, cov := l.cov.join (r.covered s) } }

section Release
variable (hk : r.kind = .write) (hr : r.rel = true) (hd : r.did = [0])
include hk hr hd

theorem CellAwaits.release_eq : exec (.releaseCompletionToken r.id) s = .next ((if (W.of s).performed ((W.of s).reqEye r) r.scope r.writes r.cov then
    ((W.of s).dropReq r.id).setElem e fun x => { x with flights := x.flights.map fun f => if f.req == some r.id then { f with
      req := none, due := (W.of s).edgeOf g e.cell, a := f.a.map (r.markOn s), b := f.b.map (r.markOn s) } else f } else W.of s).commit s) := by
  have hc : (r.rel && (W.of s).releaseDone r) = (W.of s).performed ((W.of s).reqEye r) r.scope r.writes r.cov := by
    have : r.allDone = true := by rw [Req.allDone, h.pieces, hd]; rfl
    simp [hr, W.releaseDone, hk, this]
  have hg : (W.of s).region e.r = g := h.has.region_eq
  show execReleaseCompletionToken _ s = _
  simp only [execReleaseCompletionToken, run, h.req, h.src, hk, W.guard, hc, hg]
  rfl
theorem CellAwaits.release_completes (hp : (W.of s).performed ((W.of s).reqEye r) r.scope r.writes r.cov = true) :
    ∃ t, exec (.releaseCompletionToken r.id) s = .next t ∧ t.mem = s.mem ∧ t.req r.id = none ∧
      (t.elem e).flights = x.flights.map fun f => if f.req = some r.id then { f with
        req := none, due := (W.of s).edgeOf g e.cell, a := f.a.map (r.markOn s), b := f.b.map (r.markOn s) } else f := by
  obtain ⟨ref, hw⟩ := (W.still_of s).dropReq h.has r.id
  have hE := hw.setElem fun x => { x with flights := x.flights.map fun f => if f.req == some r.id then { f with
      req := none, due := (W.of s).edgeOf g e.cell, a := f.a.map (r.markOn s), b := f.b.map (r.markOn s) } else f }
  refine ⟨_, h.release_eq hk hr hd, ?_⟩
  rw [if_pos hp]
  refine ⟨hE.mem, hE.req, (congrArg Elem.flights hE.elem).trans ?_⟩
  simp only [beq_iff_eq]
theorem CellAwaits.release_waits (hp : (W.of s).performed ((W.of s).reqEye r) r.scope r.writes r.cov = false) : exec (.releaseCompletionToken r.id) s = .next s := by
  rw [h.release_eq hk hr hd, hp, if_neg Bool.false_ne_true, W.of_commit]
end Release

/-! ## MFENCE -/

theorem CellAwaits.mfence_completes {k : Nat} (hk : r.kind = .mfence k) (h1 : k ≠ 1) (hbefore : ∀ q ∈ s.m.bus.reqs.takeWhile (fun q => q.id != r.id), q.agent ≠ r.agent)
    (hseen : ∀ u ∈ s.m.bus.unseen, u.outside r.scope ((W.of s).reqEye r) = false) :
    ∃ t, exec (.mfenceComplete r.id) s = .next t ∧ t.mem = s.mem ∧ t.req r.id = none ∧
      (t.elem e).flights = x.flights.map fun y => if y.req = some r.id then { y with req := none, due := max ((W.of s).edgeOf g e.cell) (r.place + 1) } else y := by
  have hnone : ((W.of s).m.bus.reqs.takeWhile fun q => q.id != r.id).filter (fun q => q.agent == r.agent) = [] :=
    List.filter_eq_nil_iff.2 fun q hq => by simpa using hbefore q hq
  have hall : ((W.of s).m.bus.unseen.all fun u => !((u.agent == r.agent || ((W.of s).coverOf ((W.of s).reqEye r) true r.scope).covers u) && u.outside r.scope ((W.of s).reqEye r))) = true :=
    List.all_eq_true.2 fun u hu => by rw [hseen u hu, Bool.and_false]; rfl
  have hg : (W.of s).region e.r = g := h.has.region_eq
  have hS := ((W.still_of s).cellRef e.r e.cell ((W.of s).heardRef ((W.of s).reqEye r) k r.scope)).setBus
  obtain ⟨ref, hw⟩ := W.Still.dropReq (w := ((W.of s).cellRef e.r e.cell ((W.of s).heardRef ((W.of s).reqEye r) k r.scope)).fenced ((W.of s).reqEye r) k r.scope) (hS _) h.has r.id
  have hE := hw.setElem fun x => { x with
    flights := x.flights.map fun f => if f.req == some r.id then { f with req := none, due := max ((W.of s).edgeOf g e.cell) (r.place + 1) } else f }
  refine ⟨_, ?_, hE.mem, hE.req, (congrArg Elem.flights hE.elem).trans ?_⟩
  · show execMfenceComplete _ s = _
    simp only [execMfenceComplete, run, h.req, h.src, hk, hg, hnone, hall, W.guard, if_neg h1, List.isEmpty_nil, Bool.and_self, Bool.or_true, if_true]
  · simp only [beq_iff_eq]
end

/-! ## RDCP_COMBINE -/

/-- Consecutive bytes of some bytes, as part of their number. -/
theorem leNat_memBytes_part (m : Memory) (a : Nat) {n i k : Nat} (h : i + k ≤ n) : leNat (memBytes m (a + i) k) = leNat (memBytes m a n) / 2 ^ (8 * i) % 2 ^ (8 * k) := by
  have hbytes : leBytes n (leNat (memBytes m a n)) = memBytes m a n := by simpa using leBytes_leNat (memBytes m a n)
  have hbyte : ∀ j < n, memRead m (a + j) = BitVec.ofNat 8 (leNat (memBytes m a n) / 2 ^ (8 * j)) := fun j hj => by
    rw [← leBytes_getD n _ j hj, hbytes, memBytes_getD m a n j hj]
  rw [← leNat_leBytes]
  congr 1
  refine memBytes_eq_of (leBytes_length _ _) fun j hj => ?_
  rw [Nat.add_assoc, hbyte (i + j) (by omega), leBytes_getD _ _ _ hj, Nat.div_div_eq_div_mul, ← Nat.pow_add, Nat.mul_add]

/-- An integer addition on one lane: it sets no flag. -/
theorem redBits_add (x y : Nat) : redBits 6 0 32 x y = ((x % 2 ^ 32 + y % 2 ^ 32) % 2 ^ 32, 0) := by
  have h32 : fmtWidth 6 = 32 := rfl
  simp [redBits, redElem, h32, packElems]

/-- The lanes of a sector with a contribution added. -/
def sumLanes (old d : Nat) : Nat := packElems 32 ((List.range 16).map fun l => (old / 2 ^ (32 * l) % 2 ^ 32 + d / 2 ^ (32 * l) % 2 ^ 32) % 2 ^ 32)
theorem sumLanes_lane (old d : Nat) {l : Nat} (h : l < 16) :
    sumLanes old d / 2 ^ (32 * l) % 2 ^ 32 = (old / 2 ^ (32 * l) % 2 ^ 32 + d / 2 ^ (32 * l) % 2 ^ 32) % 2 ^ 32 := by
  rw [sumLanes, packElems_elem]
  simp [List.getD_eq_getElem?_getD, h]
theorem sumLanes_lt (old d : Nat) : sumLanes old d < 2 ^ (8 * 64) := by
  have h := packElems_lt 32 ((List.range 16).map fun l => (old / 2 ^ (32 * l) % 2 ^ 32 + d / 2 ^ (32 * l) % 2 ^ 32) % 2 ^ 32)
  rw [List.length_map, List.length_range, show 32 * 16 = 8 * 64 by decide] at h
  exact h

section Rdcp
variable {s : State} {r : Req} {e : ERef} {g : Region} {x : Elem} {p : Piece} (h : CellAwaits s r e g x p) {n : Nat} (hk : r.kind = .rdcp 0 n) (hf : r.fmt = 6) (h64 : r.size = 64)
  (hmask : r.mask = 2 ^ 64 - 1)
include h hk hf h64 hmask

/-- A whole integer contribution at its home: the sums of its lanes are the sector's. -/
theorem CellAwaits.applyPiece_sum (w : W) : w.applyPiece r 0 = w.applied r 0
    (cellsAt p.key p.len (fun _ => true) fun b => BitVec.ofNat 8 (sumLanes (leNat (w.bytes p.key 64)) r.data.toNat / 2 ^ (8 * b))) r.vals 0 r.cov (w.reqEye r) := by
  have hp : r.pieces.getD 0 {} = p := by rw [h.pieces]; rfl
  have hlen : p.len = 64 := h.len.trans h64
  have hbit : ∀ b < 64, r.mask.testBit b = true := fun b hb => by rw [hmask, Nat.testBit_two_pow_sub_one]; exact decide_eq_true hb
  have hws : ((List.range (p.len / 4)).map fun l => if r.mask.testBit (p.off + 4 * l) = true then
      redBits r.fmt 0 32 (leNat (w.bytes p.key p.len) / 2 ^ (32 * l) % 2 ^ 32) (r.data.toNat / 2 ^ (8 * p.off) / 2 ^ (32 * l) % 2 ^ 32)
      else (leNat (w.bytes p.key p.len) / 2 ^ (32 * l) % 2 ^ 32, (0 : Flags))) =
      (List.range 16).map fun l => ((leNat (w.bytes p.key 64) / 2 ^ (32 * l) % 2 ^ 32 + r.data.toNat / 2 ^ (32 * l) % 2 ^ 32) % 2 ^ 32, (0 : Flags)) := by
    rw [hlen, h.off, hf]
    refine List.map_congr_left fun l hl => ?_
    have := List.mem_range.1 hl
    rw [hbit _ (by omega), if_pos rfl, redBits_add]
    simp
  have hfl : ((List.range 16).map fun l => ((leNat (w.bytes p.key 64) / 2 ^ (32 * l) % 2 ^ 32 + r.data.toNat / 2 ^ (32 * l) % 2 ^ 32) % 2 ^ 32, (0 : Flags))).foldl
      (fun a v => a ||| v.2) (0 : Flags) = 0 :=
    List.foldlRecOn (motive := fun f => f = (0 : Flags)) _ _ rfl fun f hf v hv => by
      obtain ⟨l, -, rfl⟩ := List.mem_map.1 hv
      simp [hf]
  have hcells : ∀ f : Nat → Byte, cellsAt p.key p.len (fun b => r.mask.testBit (p.off + b)) f = cellsAt p.key p.len (fun _ => true) f := fun f =>
    cellsAt_congr fun b hb => by rw [h.off, Nat.zero_add]; exact hbit b (by omega)
  rw [← hcells]
  unfold W.applyPiece
  simp only [hk, hp, hws, hfl, W.lateFlags_zero, List.map_map]
  rw [W.applied, hp]
  rfl

theorem CellAwaits.rdcp_combines (hwf : s.mem.wf = true) (hd : r.did = []) (hm : mayPerform s.m.bus.reqs r = true) (ho : (W.of s).homeOpen ((W.of s).reqEye r) p.key = true)
    (honly : ∀ q ∈ s.m.bus.reqs, q = r ∨ ∀ o k, q.kind ≠ .rdcp o k) : ∃ t, exec (.rdcpCombine r.id) s = .next t ∧
      (∀ l < 16, leNat (memBytes t.mem (p.key + 4 * l) 4) = (leNat (memBytes s.mem (p.key + 4 * l) 4) + r.data.toNat / 2 ^ (32 * l) % 2 ^ 32) % 2 ^ 32) ∧
      ∀ k, k < p.key ∨ p.key + 64 ≤ k → t.byte k = s.byte k := by
  have hlen : p.len = 64 := h.len.trans h64
  have hgetD : r.pieces.getD 0 {} = p := by rw [h.pieces]; rfl
  have hhead : r.pieces.headD {} = p := by rw [h.pieces]; rfl
  have hdone : r.allDone = false := by rw [Req.allDone, hd, h.pieces]; rfl
  have hfirst : ∀ q ∈ (W.of s).m.bus.reqs.takeWhile (fun q => q.id != r.id), ∀ o k, q.kind ≠ .rdcp o k := fun q hq =>
    (honly q (List.takeWhile_subset _ hq)).resolve_left fun heq => by simpa [heq] using List.mem_takeWhile_imp hq
  have hm' : mayPerform (W.of s).m.bus.reqs r = true := hm
  have hbyte : ∀ k, (((W.of s).applyPiece r 0).commit s).byte k = if p.key ≤ k ∧ k < p.key + 64 then
      BitVec.ofNat 8 (sumLanes (leNat (memBytes s.mem p.key 64)) r.data.toNat / 2 ^ (8 * (k - p.key))) else s.byte k := fun k => by
    rw [h.applyPiece_sum hk hf h64 hmask, W.commit_byte hwf (W.applied_base _ _ _ _ _ _ _ _), W.applied_cells_read hgetD.symm, hlen, W.bytes_of]
    simp only [and_true]
    rfl
  refine ⟨((W.of s).applyPiece r 0).commit s, ?_, fun l hl => ?_, fun k hk => ?_⟩
  · show execRdcpCombine _ s = _
    simp only [execRdcpCombine, run, h.req, hk, h.src, hhead, hdone, hm', ho, W.guard, Bool.not_false, Bool.and_self, Bool.true_and]
    rw [if_pos]
    rw [Bool.not_eq_true', List.any_eq_false]
    intro q hq
    split
    · exact absurd ‹_› (hfirst q hq _ _)
    · exact Bool.false_ne_true
  · have hword : memBytes (((W.of s).applyPiece r 0).commit s).mem p.key 64 = leBytes 64 (sumLanes (leNat (memBytes s.mem p.key 64)) r.data.toNat) :=
      memBytes_eq_of (leBytes_length _ _) fun j hj => by
        rw [leBytes_getD _ _ _ hj]
        refine (hbyte (p.key + j)).trans ?_
        rw [if_pos ⟨by omega, by omega⟩, Nat.add_sub_cancel_left]
    rw [leNat_memBytes_part _ _ (n := 64) (by omega), leNat_memBytes_part _ _ (n := 64) (by omega), hword, leNat_leBytes, Nat.mod_eq_of_lt (sumLanes_lt _ _),
      show 8 * (4 * l) = 32 * l by omega]
    exact sumLanes_lane _ _ hl
  · rw [hbyte k, if_neg (by omega)]
end Rdcp

/-! ## A peer's release -/

theorem releaseBytes_length (len : Nat) (add : Bool) (old : List Byte) (val : W512) : (releaseBytes len add old val).length = len := leBytes_length _ _

/-- Consecutive bytes from a place, listed with their places in its sector. -/
theorem range_zip_cells (key n : Nat) {bs : List Byte} (h : bs.length = n) :
    ((List.range n).zip bs).map (fun (x : Nat × Byte) => (key % 64 + x.1, x.2)) = cellsAt key n (fun _ => true) fun i => bs.getD i 0 := by
  subst h
  rw [range_zip_eq, List.map_map, cellsAt, List.filter_eq_self.2 fun _ _ => rfl]
  rfl

theorem linkReleaseReceive_writes {s : State} {dev len agent key : Nat} {va : W64} {add : Bool} (part : Nat) (val : W512) (ref : W32) (hwf : s.mem.wf = true)
    (hlen : len ∈ [1, 2, 4, 8, 64]) (hadd : add = true → len = 8) (hal : va.toNat % len = 0) (hmax : va.toNat + len ≤ maxInterleave) (hdev : dev ≠ field (s.bar Bar.devLoc) 12 0)
    (hkey : key = keyDie (homeDie va.toNat) (dieOffset va.toNat))
    (ho : (W.of s).homeOpen { die := 5, agent := 2 ^ 41 + dev, id := agent % 2 ^ 19 + dev % 2 ^ 13 * 2 ^ 19 } key = true) :
    ∃ t, exec (.linkReleaseReceive dev part va ⟨val, len⟩ add ref agent) s = .next t ∧ memBytes t.mem key len = releaseBytes len add (memBytes s.mem key len) val ∧
      ∀ k, k < key ∨ key + len ≤ k → t.byte k = s.byte k := by
  have hpos : max len 1 = len := by
    have : len ≠ 0 := by rintro rfl; simp at hlen
    omega
  have hc : ([1, 2, 4, 8, 64].contains len && (!add || len == 8) && decide (va.toNat + len ≤ maxInterleave ∧ dev ≠ (W.of s).fld Bar.devLoc 12 0)) = true := by
    have h8 : (!add || len == 8) = true := by
      cases add with
      | false => rfl
      | true => simpa using hadd rfl
    have hdec : decide (va.toNat + len ≤ maxInterleave ∧ dev ≠ (W.of s).fld Bar.devLoc 12 0) = true := decide_eq_true ⟨hmax, hdev⟩
    rw [h8, hdec, List.contains_iff_mem.2 hlen]
    rfl
  have hbyte : ∀ rel cov k, ((((W.of s).applyWrite { die := 5, agent := 2 ^ 41 + dev, id := agent % 2 ^ 19 + dev % 2 ^ 13 * 2 ^ 19 } (sectorKey key)
      (cellsAt key len (fun _ => true) fun i => (releaseBytes len add (memBytes s.mem key len) val).getD i 0) rel cov).1).commit s).byte k =
      if key ≤ k ∧ k < key + len then (releaseBytes len add (memBytes s.mem key len) val).getD (k - key) 0 else s.byte k := fun rel cov k => by
    rw [W.commit_byte hwf (W.applyWrite_base _ _ _ _ _ _ _), W.applyWrite_read _ _ _ _ _ (g := fun o => (releaseBytes len add (memBytes s.mem key len) val).getD (o - key % 64) 0)
      cellsAt_value, cellsAt_offset]
    exact if_congr ((exists_cellsAt k).trans (by simp)) rfl rfl
  refine ⟨_, ?_, memBytes_eq_of (releaseBytes_length _ _ _ _) fun i hi => (hbyte { scope := 5, agent := agent % 2 ^ 19 + dev % 2 ^ 13 * 2 ^ 19, ref := ref }
    { near := (((W.of s).m.bus.unseen.filter fun u => u.agent == 2 ^ 41 + dev).map (·.id)).eraseDups } (key + i)).trans ?_, fun k hk => (hbyte _ _ k).trans (if_neg (by omega))⟩
  · show execLinkReleaseReceive dev part va ⟨val, len⟩ add ref agent s = _
    simp only [execLinkReleaseReceive, run, hpos, hal, Nat.sub_zero, hc, W.guard, if_true, ← hkey, ho, Bool.not_true, Bool.false_eq_true, if_false, W.bytes_of]
    rw [← range_zip_cells key len (releaseBytes_length _ _ _ _)]
  · rw [if_pos ⟨by omega, by omega⟩, Nat.add_sub_cancel_left]

/-- Settles O42: each answer by the request that the element awaits, a contribution by the sums of its lanes, and a peer's release by the bytes that it writes. -/
theorem cellResponses : Obligations.CellResponses := by
  refine ⟨?cell, ?peer⟩
  case cell =>
    rintro s r e g x p edge me hreq rfl hsrc hreg hx hp hoff hlen rfl
    have h : CellAwaits s r e g x p := ⟨hreq, hsrc, hreg, hx, hp, hoff, hlen⟩
    refine ⟨fun hk h64 hm hd ha hs => h.load_performed hk h64 hm hd ha hs, fun hk hm hd hs => h.read_eq hk hd hm hs true fun hb => absurd hb (by decide),
      fun hk hd hm hr => h.atomic_bad hk hd hm hr, ?sigld, ?release, fun k hk h1 hb hu => h.mfence_completes hk h1 hb hu, ?rdcp⟩
    case sigld =>
      intro y v hk h8 hm hs hq h0 hv
      rw [show v = s.word ((W.of s).reqEye r) p.key 8 from hv]
      exact ⟨fun hv => h.sigld_ends hk h8 hm hs hq h0 hv, fun hv => h.sigld_waits hk h8 hm hs hq h0 hv⟩
    case release => exact fun hk hr hd => ⟨fun hp => h.release_completes hk hr hd hp, fun hp => h.release_waits hk hr hd hp⟩
    case rdcp => exact fun n hwf hk hf h64 _ hd hm ho honly hmask => h.rdcp_combines hk hf h64 hmask hwf hd hm ho honly
  case peer =>
    intro s dev part va val len add ref agent key hwf hlen hadd hal hmax hdev hkey ho
    exact linkReleaseReceive_writes part val ref hwf hlen hadd hal hmax hdev hkey ho

end Sys2Proof.Machine
end

section
/-! PROOFS. The record of a matrix cell: what a change of it leaves alone, and a cause that an element of the cell raises after it (12_matrix_cells.md R202;
24_faults_and_preemption.md R357). -/

namespace Sys2Proof.Machine

/-- From w to w' the record of a matrix cell of the region g becomes x. Banks, registers and halts that wait for the hub may change too, but neither memory nor
a sequencer nor another matrix cell of the region. -/
structure W.MxChange (w w' : W) (r cell : Nat) (g : Region) (x : Mx) : Prop where
  log  : w'.log = w.log
  seqs : w'.m.seqs = w.m.seqs
  reg  : ∃ banks, tget w'.m.regions r = some { g with mxs := tput g.mxs cell x, banks := banks }

section Change

variable {w w' : W} {r cell : Nat} {g : Region} {x : Mx}

theorem W.MxChange.mem {s : State} (h : (W.of s).MxChange w' r cell g x) : (w'.commit s).mem = s.mem := by rw [W.commit_mem, h.log]; rfl
theorem W.MxChange.mx_self (h : w.MxChange w' r cell g x) (s : State) : (w'.commit s).mx r cell = x := by
  obtain ⟨banks, hr⟩ := h.reg
  exact (congrArg (fun g : Region => tgetD g.mxs cell {}) (W.region_of hr)).trans (tgetD_tput_self _ _ _ _)
theorem W.MxChange.mx_other {s : State} (h : (W.of s).MxChange w' r cell g x) (hg : tget s.m.regions r = some g) {c : Nat} (hc : c ≠ cell) :
    (w'.commit s).mx r c = s.mx r c := by
  obtain ⟨banks, hr⟩ := h.reg
  have after : (w'.commit s).mx r c = tgetD (tput g.mxs cell x) c {} := congrArg (fun g : Region => tgetD g.mxs c {}) (W.region_of hr)
  have before : s.mx r c = tgetD g.mxs c {} := congrArg (fun g : Region => tgetD g.mxs c {}) (W.region_of hg)
  rw [after, before, tgetD_tput_ne _ _ _ _ _ hc]

theorem W.MxChange.part (h : w.MxChange w' r cell g x) : (w'.region r).part = g.part := by
  obtain ⟨banks, hr⟩ := h.reg
  rw [W.region_of hr]

/-- Counting an event of a quad before is no change of a cell. -/
theorem W.MxChange.counted {q k n : Nat} (h : (w.countQuad q k n).MxChange w' r cell g x) : w.MxChange w' r cell g x := ⟨h.log, h.seqs, h.reg⟩

theorem W.raise_log (w : W) (n : Nat) (a : Halt) : (w.raise n a).log = w.log := by
  unfold W.raise
  split <;> rfl
theorem W.MxChange.raiseElem (h : w.MxChange w' r cell g x) (e : ERef) (code : Nat) : w.MxChange (w'.raiseElem e code) r cell g x where
  log := (w'.raise_log _ _).trans h.log
  seqs := (w'.raiseElem_aside e code 0 none).seqs.trans h.seqs
  reg := by rw [(w'.raiseElem_aside e code 0 none).regions]; exact h.reg

theorem W.setMx_change (hg : tget w.m.regions r = some g) {m : Mx} (hm : tget g.mxs cell = some m) (f : Mx → Mx) : w.MxChange (w.setMx r cell f) r cell g (f m) :=
  ⟨rfl, rfl, g.banks, by rw [W.setMx, W.tget_setRegion hg, tgetD_of_tget _ hm]⟩

theorem W.setMatrix_change (hg : tget w.m.regions r = some g) (slot : Nat) (x : Mx) : w.MxChange (w.setMatrix ⟨r, cell, slot⟩ x) r cell g x := by
  have hx (q e n : Nat) := W.tget_setRegion (w := w.pmc q e n) hg fun g => { g with mxs := tput g.mxs cell x }
  unfold W.setMatrix
  dsimp only
  split
  · exact ⟨rfl, rfl, _, W.tget_setRegion (hx _ _ _) _⟩
  · exact ⟨rfl, rfl, _, hx _ _ _⟩

/-- The spill log's writes into the bank and the count of new records change no register but a performance counter. -/
theorem W.setMatrix_bar (w : W) (e : ERef) (x : Mx) {o : Nat} (h : ∀ i, i < 8 → o ≠ Bar.pmc (siteQuad (w.region e.r) e.cell) i) : (w.setMatrix e x).bar o = w.bar o := by
  unfold W.setMatrix
  dsimp only
  split <;> exact barGet_pmcAdd _ _ _ _ h

theorem W.setMatrix_parts (w : W) (e : ERef) (x : Mx) : (w.setMatrix e x).m.parts = w.m.parts := by
  unfold W.setMatrix
  dsimp only
  split <;> rfl

/-- No matrix cell's record says where an element stands. -/
theorem W.MxChange.elemAgent (h : w.MxChange w' r cell g x) (hg : tget w.m.regions r = some g) (hd : w'.fld Bar.devLoc 12 0 = w.fld Bar.devLoc 12 0) (c slot : Nat) :
    w'.elemAgent ⟨r, c, slot⟩ = w.elemAgent ⟨r, c, slot⟩ := by
  obtain ⟨banks, hr⟩ := h.reg
  have quad := W.penQuad_congr (W.region_of hr) (W.region_of hg) rfl (fun _ => rfl) c slot
  simp only [W.elemAgent, W.agentId, quad, hd]

/-- An element raises a cause of its partition, which it may still halt. -/
theorem raiseElem_raised {s : State} {e : ERef} {n : Nat} (hp : (w.region e.r).part = n) (hparts : w.m.parts = s.m.parts) (ha : w.elemAgent e = (W.of s).elemAgent e)
    (may : MayRaise s n ((W.of s).elemAgent e)) (code : Nat) : ((w.raiseElem e code).commit s).raised n ((W.of s).elemAgent e) code := by
  obtain ⟨runs, none⟩ := may
  have part : w.part n = s.part n := by rw [W.part, hparts]; rfl
  subst hp
  unfold W.raiseElem W.raise
  rw [if_neg]
  · simp only [State.raised, State.part, W.part, W.of_m, W.commit_m, W.setPart_parts, tgetD_tput_self]
    exact ⟨_, List.mem_append_right _ (List.mem_singleton_self _), ha, rfl⟩
  · rw [part, runs, Bool.false_or, List.any_eq_true]
    rintro ⟨y, hy, same⟩
    simp only [Halt.same, Bool.and_eq_true, beq_iff_eq] at same
    exact none y hy (same.1.trans ha)

/-- A quad counter after its event. -/
theorem W.countQuad_bar (w : W) (q k n : Nat) : (w.countQuad q k n).bar (Bar.quadCounter q k) = w.bar (Bar.quadCounter q k) + BitVec.ofNat 64 n :=
  tgetD_tput_self _ _ _ _

end Change

end Sys2Proof.Machine
end

section
/-! PROOFS. The slew limiter, replays of withheld firings and CCB spills of a matrix cell (07_islands_and_rates.md R118, R119; 12_matrix_cells.md R214, R215;
18_program_surge_start.md R303); from them O49. -/

namespace Sys2Proof.Machine

/-- The region g holds the matrix cell as m, and this grid cycle is an edge of it, of number n. -/
structure MxEdge (s : State) (r cell : Nat) (g : Region) (m : Mx) (n : Nat) : Prop where
  reg  : tget s.m.regions r = some g
  here : tget g.mxs cell = some m
  on   : (W.of s).onEdge g cell = true
  num  : (W.of s).edgeOf g cell = n

section Cell

variable {s : State} {r cell n : Nat} {g : Region} {m : Mx}

theorem MxEdge.region_eq (h : MxEdge s r cell g m n) : (W.of s).region r = g := W.region_of h.reg
theorem MxEdge.mx_eq (h : MxEdge s r cell g m n) : (W.of s).mx r cell = m := by rw [W.mx, h.region_eq, tgetD_of_tget _ h.here]
/-- A change of the cell's record, also after an event of a quad has been counted. -/
theorem MxEdge.change (h : MxEdge s r cell g m n) (f : Mx → Mx) : (W.of s).MxChange ((W.of s).setMx r cell f) r cell g (f m) := W.setMx_change h.reg h.here f
theorem MxEdge.counted_change (h : MxEdge s r cell g m n) (q k i : Nat) (f : Mx → Mx) : (W.of s).MxChange (((W.of s).countQuad q k i).setMx r cell f) r cell g (f m) :=
  (W.setMx_change h.reg h.here f).counted

end Cell

/-! ## Ramps (R118, R303) -/

/-- The cells, of some, that have started a ramp in the step that began at a boundary; a resumption is none. -/
def W.rampsStarted (w : W) (r b : Nat) (cells : List Nat) : List Nat :=
  cells.filter fun c => match (w.mx r c).ramp with | some p => decide (b ≤ p.grid) && !p.resume | none => false
/-- The cells, of some, whose number is lower than a cell's, and which waited at the boundary to start a ramp: they come before it. -/
def W.rampsBefore (w : W) (r b : Nat) (g : Region) (cell : Nat) (cells : List Nat) : List Nat :=
  cells.filter fun c => decide (c < cell) && (w.rowReady r c && decide (w.readyCycle r c ≤ b)) &&
    !(w.mx r c).resumes (w.edgeOf g c) ((g.islandOf c).edge (w.readyCycle r c)) && (w.mx r c).needsRamp (w.edgeOf g c)
/-- The cell with a ramp that starts: no filler runs any more, and the idle count starts here. -/
def Mx.ramped (m : Mx) (p : Ramp) : Mx := { m with ramp := some p, filler := 0, idleAt := p.start }
/-- The table of a ramp that starts: a resumed one keeps its own. -/
def Mx.rampTable (m : Mx) (resume : Bool) (table : Nat) : Nat := match m.ramp with | some p => if resume then p.table else table | none => table

theorem Mx.rampTable_new (m : Mx) (table : Nat) : m.rampTable false table = table := by
  unfold Mx.rampTable
  split <;> rfl
theorem Mx.rampTable_resumed {m : Mx} {p : Ramp} (h : m.ramp = some p) (table : Nat) : m.rampTable true table = p.table := by simp [Mx.rampTable, h]

/-- Until its three filler steps are over, no row resumes a cell's ramp. -/
theorem Mx.not_resumes {m : Mx} (h : m.filler ≠ 3) (edge ready : Nat) : m.resumes edge ready = false := by simp [Mx.resumes, h]
theorem Mx.resumes_of {m : Mx} {edge ready : Nat} (h : m.filler = 3) (he : m.fillEnd ≤ edge) (hr : ready < m.idleAt + 32) : m.resumes edge ready = true := by
  simp [Mx.resumes, h, he, hr]

/-- Where no cell of the quad has started a ramp since the boundary, none counts as started. -/
theorem W.rampsStarted_none {w : W} {r b : Nat} {cells : List Nat} (h : ∀ c ∈ cells, ∀ p, (w.mx r c).ramp = some p → p.grid < b) : w.rampsStarted r b cells = [] := by
  refine List.filter_eq_nil_iff.2 fun c hc => ?_
  cases hp : (w.mx r c).ramp with
  | none => simp
  | some p => simp [Nat.not_le.2 (h c hc p hp)]
/-- Where no other cell of the quad has a row ready, none comes before. -/
theorem W.rampsBefore_none {w : W} {r b cell : Nat} {g : Region} {cells : List Nat} (h : ∀ c ∈ cells, c ≠ cell → w.rowReady r c = false) : w.rampsBefore r b g cell cells = [] := by
  refine List.filter_eq_nil_iff.2 fun c hc => ?_
  by_cases lower : c < cell
  · simp [h c hc (Nat.ne_of_lt lower)]
  · simp [lower]
/-- Two cells that have each started a ramp since the boundary. -/
theorem W.two_rampsStarted {w : W} {r b c d : Nat} {p p' : Ramp} {cells : List Nat} (hc : c ∈ cells) (hd : d ∈ cells) (hne : c ≠ d)
    (hp : (w.mx r c).ramp = some p) (hp' : (w.mx r d).ramp = some p') (hb : b ≤ p.grid) (hb' : b ≤ p'.grid) (hr : p.resume = false) (hr' : p'.resume = false) :
    2 ≤ (w.rampsStarted r b cells).length := by
  have both : [c, d] ⊆ w.rampsStarted r b cells := by
    simp only [W.rampsStarted, List.cons_subset, List.mem_filter, hc, hd, hp, hp', hb, hb', hr, hr', decide_true, Bool.not_false, Bool.and_self, and_self, List.nil_subset]
  exact (List.subperm_of_subset (by simp [hne]) both).length_le

section Cell

variable {s : State} {r cell n : Nat} {g : Region} {m : Mx}

section Boundary

variable {b : Nat} (h : MxEdge s r cell g m n) (hb : b = g.boundary (siteQuad g cell) s.clk.now)
  (first : (g.islandOf cell).edge s.clk.now = (if b ≤ (g.islandOf cell).since then (g.islandOf cell).edges else (g.islandOf cell).edge (b - 1)) + 1)
include h hb first

/-- RAMP_START on the cell's first edge at or after the boundary b: a cell that was ready at the boundary resumes its ramp, or needs one and is among the step's
first two. -/
theorem MxEdge.rampStart_eq {resume : Bool} (hr : m.resumes n ((g.islandOf cell).edge ((W.of s).readyCycle r cell)) = resume) :
    exec (.rampStart r cell) s = .next (((W.of s).guard (((W.of s).rowReady r cell && decide ((W.of s).readyCycle r cell ≤ b)) && (resume || (m.needsRamp n && decide (
        ((W.of s).rampsStarted r b (g.mxCells (siteQuad g cell))).length + ((W.of s).rampsBefore r b g cell (g.mxCells (siteQuad g cell))).length < 2)))) fun w =>
      w.setMx r cell fun m' => m'.ramped { start := n, grid := s.clk.now, table := m.rampTable resume (field (s.bar (Bar.slewTab (siteQuad g cell))) 15 0), resume := resume }).commit s) := by
  subst hb hr
  show execRampStart r cell s = _
  simp only [execRampStart, run, h.region_eq, h.mx_eq, h.num, show (W.of s).now = s.clk.now from rfl, h.on, decide_eq_true first, Bool.true_and]
  rfl

theorem MxEdge.ramp_starts (ready : (W.of s).rowReady r cell = true) (early : (W.of s).readyCycle r cell ≤ b) (needs : m.needsRamp n = true) (unfilled : m.filler ≠ 3)
    (others : ∀ c ∈ g.mxCells (siteQuad g cell), c ≠ cell → (s.mx r c).ramp = none ∧ (W.of s).rowReady r c = false) (own : ∀ p, m.ramp = some p → p.grid < b) :
    ∃ t, exec (.rampStart r cell) s = .next t ∧ t.mem = s.mem ∧ t.m.seqs = s.m.seqs ∧ (∀ c, c ≠ cell → t.mx r c = s.mx r c) ∧ (t.mx r cell).acc = m.acc ∧
      (t.mx r cell).ramp = some { start := n, grid := s.clk.now, entry := 0, table := field (s.bar (Bar.slewTab (siteQuad g cell))) 15 0, spent := 0, resume := false } := by
  have none : (W.of s).rampsStarted r b (g.mxCells (siteQuad g cell)) = [] := W.rampsStarted_none fun c hc p hp => by
    by_cases self : c = cell
    · subst self; exact own p (h.mx_eq ▸ hp)
    · exact absurd ((others c hc self).1.symm.trans hp) (by simp)
  have before : (W.of s).rampsBefore r b g cell (g.mxCells (siteQuad g cell)) = [] := W.rampsBefore_none fun c hc self => (others c hc self).2
  have change := h.change fun m => m.ramped { start := n, grid := s.clk.now, table := field (s.bar (Bar.slewTab (siteQuad g cell))) 15 0, resume := false }
  have after := change.mx_self s
  rw [h.rampStart_eq hb first (Mx.not_resumes unfilled _ _), none, before, needs, ready, decide_eq_true early, Mx.rampTable_new]
  exact ⟨_, rfl, change.mem, change.seqs, fun c hc => change.mx_other h.reg hc, (congrArg Mx.acc after :), congrArg Mx.ramp after⟩

theorem MxEdge.ramp_resumes {p : Ramp} (ready : (W.of s).rowReady r cell = true) (early : (W.of s).readyCycle r cell ≤ b) (hp : m.ramp = some p) (fill : m.filler = 3)
    (ended : m.fillEnd ≤ n) (recent : (g.islandOf cell).edge ((W.of s).readyCycle r cell) < m.idleAt + 32) :
    ∃ t, exec (.rampStart r cell) s = .next t ∧ t.mem = s.mem ∧
      (t.mx r cell).ramp = some { start := n, grid := s.clk.now, entry := 0, table := p.table, spent := 0, resume := true } := by
  have change := h.change fun m => m.ramped { start := n, grid := s.clk.now, table := p.table, resume := true }
  rw [h.rampStart_eq hb first (Mx.resumes_of fill ended recent), ready, decide_eq_true early, Mx.rampTable_resumed hp]
  exact ⟨_, rfl, change.mem, congrArg Mx.ramp (change.mx_self s)⟩

/-- Where two cells of the quad have started ramps in the step, a third waits for the next. -/
theorem MxEdge.ramp_waits (two : 2 ≤ ((W.of s).rampsStarted r b (g.mxCells (siteQuad g cell))).length) (unfilled : m.filler ≠ 3) : exec (.rampStart r cell) s = .next s := by
  have third : ¬ ((W.of s).rampsStarted r b (g.mxCells (siteQuad g cell))).length + ((W.of s).rampsBefore r b g cell (g.mxCells (siteQuad g cell))).length < 2 := by omega
  rw [h.rampStart_eq hb first (Mx.not_resumes unfilled _ _), decide_eq_false third, Bool.and_false, Bool.or_self, Bool.and_false]
  exact congrArg _ (W.of_commit s)

end Boundary

/-! ## Fillers (R118) -/

/-- FILLER_STEP of a cell that holds a ramp and has no row ready, when a filler step may begin: the first at full duty with the engine free, a later one at the
end of the one before. -/
theorem MxEdge.filler_steps (h : MxEdge s r cell g m n) {p : Ramp} (hp : m.ramp = some p) (idle : (W.of s).rowReady r cell = false)
    (begins : m.filler = 0 ∧ m.free n = true ∧ p.start ≤ n ∧ p.duty n = 4 ∧ 0 < p.spent ∧ n < m.idleAt + 32 ∨ 0 < m.filler ∧ m.filler < 3 ∧ m.fillEnd ≤ n) :
    ∃ t, exec (.fillerStep r cell) s = .next t ∧ t.mem = s.mem ∧ (t.mx r cell).filler = m.filler + 1 ∧ (t.mx r cell).fillEnd = n + 4 ∧
      (t.mx r cell).firings = m.firings ∧ (t.mx r cell).acc = m.acc ∧
      t.bar (Bar.quadCounter (siteQuad g cell) 1) = s.bar (Bar.quadCounter (siteQuad g cell) 1) + 1 := by
  have may : (if m.filler = 0 then m.free n && decide (p.start ≤ n ∧ p.duty n = 4 ∧ 0 < p.spent) && decide (n < m.idleAt + 32)
      else decide (m.filler < 3 ∧ m.fillEnd ≤ n)) = true := by
    rcases begins with ⟨zero, free, start, duty, spent, recent⟩ | ⟨some, few, ended⟩
    · simp [zero, free, start, duty, spent, recent]
    · simp [Nat.ne_of_gt some, few, ended]
  have after := (h.counted_change (siteQuad g cell) 1 1 fun m => { m with filler := m.filler + 1, fillEnd := n + 4, idleAt := n + fillerDuty (m.filler + 1) }).mx_self s
  have hexec : exec (.fillerStep r cell) s = .next ((((W.of s).countQuad (siteQuad g cell) 1 1).setMx r cell fun m =>
      { m with filler := m.filler + 1, fillEnd := n + 4, idleAt := n + fillerDuty (m.filler + 1) }).commit s) := by
    show execFillerStep r cell s = _
    simp only [execFillerStep, run, h.region_eq, h.mx_eq, h.num, hp, h.on, may, idle, W.guard, Bool.not_false, Bool.and_self, if_true]
  exact ⟨_, hexec, rfl, by rw [after], by rw [after], by rw [after], by rw [after], (W.of s).countQuad_bar _ _ _⟩

/-! ## Replays (R119, R215) -/

/-- A firing withheld behind others that are not: it is the first, and those are what stands before it. -/
theorem withheld_split {pre post : List Firing} {f : Firing} (hpre : ∀ y ∈ pre, y.suspect = false) (hf : f.suspect = true) :
    (pre ++ f :: post).find? (·.suspect) = some f ∧ (pre ++ f :: post).takeWhile (fun y => !y.suspect) = pre := by
  constructor
  · rw [List.find?_append, List.find?_eq_none.2 fun y hy => by simp [hpre y hy], Option.none_or, List.find?_cons_of_pos hf]
  · rw [List.takeWhile_append_of_pos fun y hy => by simp [hpre y hy], List.takeWhile_cons_of_neg (by simp [hf]), List.append_nil]

/-- MX_REPLAY of the oldest withheld firing, once the engine has executed the others. -/
theorem MxEdge.mxReplay_eq (h : MxEdge s r cell g m n) {pre post : List Firing} {f : Firing} (hm : m.firings = pre ++ f :: post) (hf : f.suspect = true)
    (hpre : ∀ y ∈ pre, y.suspect = false ∧ y.frees ≤ n) (hpost : ∀ y ∈ post, y.suspect = true ∨ y.frees ≤ n) (fill : m.filler = 0) :
    exec (.mxReplay r cell false) s = .next ((
      if m.held (s.cell r cell) n || decide (n < m.holdTo) || !m.slewAdmits n (busyOf f.fmt) then W.of s
      else ((W.of s).countQuad (siteQuad g cell) 3 1).setMx r cell fun m =>
        { m.spend n (busyOf f.fmt) with
          firings := pre ++ [{ f with suspect := false, frees := n + busyOf f.fmt, commit := n + busyOf f.fmt + 4 }] ++ post }).commit s) := by
  obtain ⟨found, before⟩ := withheld_split (post := post) (fun y hy => (hpre y hy).1) hf
  have executed : (pre ++ f :: post).any (fun y => !y.suspect && decide (n < y.frees)) = false := by
    simp only [List.any_eq_false, List.mem_append, List.mem_cons, Bool.and_eq_true, Bool.not_eq_true', decide_eq_true_eq, not_and, Nat.not_lt]
    rintro y (hy | rfl | hy) run
    · exact (hpre y hy).2
    · exact absurd (hf.symm.trans run) (by decide)
    · exact (hpost y hy).resolve_left fun sus => absurd (sus.symm.trans run) (by decide)
  show execMxReplay r cell false s = _
  simp only [execMxReplay, run, W.guard, h.region_eq, h.num, h.on, if_true, Bool.false_eq_true, if_false, W.resumeFiller_none (h.mx_eq ▸ fill), h.mx_eq, hm, found, before, executed,
    Bool.false_or, List.drop_length_add_append, List.drop_succ_cons, List.drop_zero]
  rfl

theorem MxEdge.replay_executes (h : MxEdge s r cell g m n) {pre post : List Firing} {f : Firing} (hm : m.firings = pre ++ f :: post) (hf : f.suspect = true)
    (hpre : ∀ y ∈ pre, y.suspect = false ∧ y.frees ≤ n) (hpost : ∀ y ∈ post, y.suspect = true ∨ y.frees ≤ n) (fill : m.filler = 0)
    (unheld : m.held (s.cell r cell) n = false) (spilled : m.holdTo ≤ n) (admitted : m.slewAdmits n (busyOf f.fmt) = true) :
    ∃ t, exec (.mxReplay r cell false) s = .next t ∧ t.mem = s.mem ∧ (t.mx r cell).acc = m.acc ∧
      t.bar (Bar.quadCounter (siteQuad g cell) 3) = s.bar (Bar.quadCounter (siteQuad g cell) 3) + 1 ∧ (t.mx r cell).idleAt = n + busyOf f.fmt ∧
      (t.mx r cell).firings = pre ++ { f with suspect := false, frees := n + busyOf f.fmt, commit := n + busyOf f.fmt + 4 } :: post := by
  have after := (h.counted_change (siteQuad g cell) 3 1 fun m =>
    { m.spend n (busyOf f.fmt) with firings := pre ++ [{ f with suspect := false, frees := n + busyOf f.fmt, commit := n + busyOf f.fmt + 4 }] ++ post }).mx_self s
  rw [h.mxReplay_eq hm hf hpre hpost fill, unheld, admitted, decide_eq_false (Nat.not_lt.2 spilled), if_neg (by decide)]
  exact ⟨_, rfl, rfl, by rw [after]; rfl, (W.of s).countQuad_bar _ _ _, by rw [after]; rfl, by rw [after]; exact List.append_assoc _ _ _⟩

/-- MX_REPLAY on a parity error of the youngest firing: it is withheld, or, if it had been withheld for one before, it is gone and its slot raises 0x310. -/
theorem MxEdge.parity_eq (h : MxEdge s r cell g m n) {pre : List Firing} {f : Firing} (hm : m.firings = pre ++ [f]) (hf : f.suspect = false) :
    exec (.mxReplay r cell true) s = .next ((
      if f.parity then ((W.of s).setMx r cell fun m => { m with firings := pre }).raiseElem ⟨r, cell, f.slot⟩ 0x310
      else (W.of s).setMx r cell fun m => { m with firings := pre ++ [{ f with suspect := true, parity := true }] }).commit s) := by
  show execMxReplay r cell true s = _
  simp only [execMxReplay, run, W.guard, h.region_eq, h.mx_eq, h.on, if_true, hm, List.reverse_append, List.reverse_cons, List.reverse_nil, List.nil_append, List.cons_append, hf,
    List.reverse_reverse, Bool.false_eq_true, if_false]

theorem MxEdge.parity_withholds (h : MxEdge s r cell g m n) {pre : List Firing} {f : Firing} (hm : m.firings = pre ++ [f]) (hf : f.suspect = false) (fresh : f.parity = false) :
    ∃ t, exec (.mxReplay r cell true) s = .next t ∧ t.mem = s.mem ∧ (t.mx r cell).firings = pre ++ [{ f with suspect := true, parity := true }] := by
  have change := h.change fun m => { m with firings := pre ++ [{ f with suspect := true, parity := true }] }
  rw [h.parity_eq hm hf, fresh, if_neg (by decide)]
  exact ⟨_, rfl, change.mem, congrArg Mx.firings (change.mx_self s)⟩

theorem MxEdge.parity_raises (h : MxEdge s r cell g m n) {pre : List Firing} {f : Firing} (hm : m.firings = pre ++ [f]) (hf : f.suspect = false) (again : f.parity = true)
    (may : MayRaise s g.part ((W.of s).elemAgent ⟨r, cell, f.slot⟩)) :
    ∃ t, exec (.mxReplay r cell true) s = .next t ∧ t.mem = s.mem ∧ (t.mx r cell).firings = pre ∧ t.raised g.part ((W.of s).elemAgent ⟨r, cell, f.slot⟩) 0x310 := by
  have change := h.change fun m => { m with firings := pre }
  have raised := change.raiseElem ⟨r, cell, f.slot⟩ 0x310
  rw [h.parity_eq hm hf, again, if_pos rfl]
  exact ⟨_, rfl, raised.mem, congrArg Mx.firings (raised.mx_self s), raiseElem_raised change.part rfl (change.elemAgent h.reg rfl cell f.slot) may 0x310⟩

/-! ## Spills (R214) -/

/-- An empty CCB takes the count changes of any commit of at most 64. -/
theorem ccbFits_nil (row : Nat) {ds : List (Nat × Int)} (h : ds.length ≤ 64) : ccbFits [] row ds = true := by
  have passing : ds.any (passes [] row) = false := List.any_eq_false.2 fun d _ => by simp [passes, ccbGet]
  have new : (ds.filter fun d => (ccbGet [] row d.1).isNone).length ≤ 64 := (List.length_filter_le _ _).trans h
  simp only [ccbFits, passing, List.length_nil, Nat.zero_add, new, decide_true, Bool.not_false, Bool.and_self]
/-- A commit is held by a CCB that has records: an empty one takes up to 64 changes, and more go straight to the log. -/
theorem Mx.held_ccb {c : Cell} {edge : Nat} (h : m.held c edge = true) : m.ccb ≠ [] := by
  intro none
  unfold Mx.held at h
  split at h
  · cases h
  · simp only [none, List.isEmpty_nil, Bool.and_true, Bool.and_eq_true, Bool.not_eq_true', decide_eq_false_iff_not, Nat.not_lt] at h
    obtain ⟨⟨-, few⟩, unfit⟩ := h
    exact absurd (ccbFits_nil _ few) (by rw [unfit]; decide)

/-- One spill puts one record of the CCB into the log. -/
theorem Mx.spillOne_spill (row : Nat) (ds : List (Nat × Int)) (h : m.ccb ≠ []) : (m.spillOne row ds).spill.length = m.spill.length + 1 := by
  unfold Mx.spillOne
  split
  · simp
  · split
    · simp
    · next none => exact absurd none h
theorem Mx.spillOne_frame (m : Mx) (row : Nat) (ds : List (Nat × Int)) : (m.spillOne row ds).firings = m.firings ∧ (m.spillOne row ds).acc = m.acc := by
  unfold Mx.spillOne
  split
  · exact ⟨rfl, rfl⟩
  · split <;> exact ⟨rfl, rfl⟩

section Spill

variable {c : Cell} {f : Firing} {rest : List Firing} (h : MxEdge s r cell g m n) (hc : c = s.cell r cell) (hm : m.firings = f :: rest) (held : m.held c n = true)
  (stall : c.trap = false) (spilled : m.holdTo ≤ n)
include h hc hm held stall spilled

/-- CCB_SPILL of a commit that is held under STALL, once the spill before has ended. -/
theorem MxEdge.ccbSpill_eq : exec (.ccbSpill r cell) s = .next ((
    if 4096 ≤ m.spill.length then ((W.of s).setMatrix ⟨r, cell, f.slot⟩ { m with firings := rest }).raiseElem ⟨r, cell, f.slot⟩ 0x291
    else ((W.of s).countQuad (siteQuad g cell) 0 1).setMatrix ⟨r, cell, f.slot⟩ { m.spillOne f.row (f.changes c m) with holdTo := n + 8 }).commit s) := by
  have hcell : (W.of s).cell r cell = c := hc.symm
  show execCcbSpill r cell s = _
  simp only [execCcbSpill, run, h.region_eq, h.mx_eq, h.num, hcell, hm, h.on, held, stall, decide_eq_true spilled, Bool.not_false, Bool.and_self, Bool.not_true, Bool.false_eq_true, if_false]

theorem MxEdge.spill_logs (room : m.spill.length < 4096) : ∃ t, exec (.ccbSpill r cell) s = .next t ∧ t.mem = s.mem ∧ (t.mx r cell).firings = m.firings ∧
    (t.mx r cell).acc = m.acc ∧ (t.mx r cell).spill.length = m.spill.length + 1 ∧ (t.mx r cell).holdTo = n + 8 ∧
    t.bar (Bar.quadCounter (siteQuad g cell) 0) = s.bar (Bar.quadCounter (siteQuad g cell) 0) + 1 := by
  obtain ⟨firings, acc⟩ := m.spillOne_frame f.row (f.changes c m)
  have change : (W.of s).MxChange _ r cell g { m.spillOne f.row (f.changes c m) with holdTo := n + 8 } :=
    (W.setMatrix_change (w := (W.of s).countQuad (siteQuad g cell) 0 1) h.reg f.slot _).counted
  have after := change.mx_self s
  rw [h.ccbSpill_eq hc hm held stall spilled, if_neg (Nat.not_le.2 room)]
  refine ⟨_, rfl, change.mem, by rw [after, firings], by rw [after, acc], by rw [after, Mx.spillOne_spill _ _ (Mx.held_ccb held)], by rw [after],
    (W.setMatrix_bar _ _ _ fun i _ => ?_).trans ((W.of s).countQuad_bar _ _ _)⟩
  have place : ((W.of s).countQuad (siteQuad g cell) 0 1).region r = g := h.region_eq
  simp only [Bar.quadCounter, Bar.pmc, Bar.pmsel, place]
  omega

theorem MxEdge.spill_raises (full : 4096 ≤ m.spill.length) (may : MayRaise s g.part ((W.of s).elemAgent ⟨r, cell, f.slot⟩)) : ∃ t, exec (.ccbSpill r cell) s = .next t ∧
    (t.mx r cell).firings = rest ∧ t.raised g.part ((W.of s).elemAgent ⟨r, cell, f.slot⟩) 0x291 := by
  have change : (W.of s).MxChange _ r cell g { m with firings := rest } := W.setMatrix_change h.reg f.slot _
  have place : ((W.of s).setMatrix ⟨r, cell, f.slot⟩ { m with firings := rest }).fld Bar.devLoc 12 0 = (W.of s).fld Bar.devLoc 12 0 :=
    congrArg (field · 12 0) (W.setMatrix_bar _ _ _ fun i hi => by simp only [Bar.devLoc, Bar.pmc, Bar.pmsel]; omega)
  rw [h.ccbSpill_eq hc hm held stall spilled, if_pos full]
  exact ⟨_, rfl, congrArg Mx.firings ((change.raiseElem _ _).mx_self s),
    raiseElem_raised change.part (W.setMatrix_parts _ _ _) (change.elemAgent h.reg place cell f.slot) may 0x291⟩

end Spill

end Cell

/-- Settles O49: ramps by `MxEdge.rampStart_eq`, fillers by `MxEdge.filler_steps`, replays by `MxEdge.mxReplay_eq` and `MxEdge.parity_eq`, spills by
`MxEdge.ccbSpill_eq`; what each leaves alone is `W.MxChange`. -/
theorem rampsAndReplays : Obligations.RampsAndReplays := by
  rintro s r cell q n g m hg hm rfl rfl on
  have h : MxEdge s r cell g m _ := ⟨hg, hm, on, rfl⟩
  refine ⟨?ramp, fun p hp idle begins => h.filler_steps hp idle begins, ?replay,
    fun pre f hf sus => ⟨h.parity_withholds hf sus, h.parity_raises hf sus⟩,
    fun c f rest hc hf held stall spilled => ⟨h.spill_logs hc hf held stall spilled, h.spill_raises hc hf held stall spilled⟩⟩
  case ramp =>
    rintro i b rfl hb first
    exact ⟨h.ramp_starts hb first, fun p ready early => h.ramp_resumes hb first ready early,
      fun c d p p' hc hd hne hp hp' hg hg' hr hr' => h.ramp_waits hb first (W.two_rampsStarted hc hd hne hp hp' hg hg' hr hr')⟩
  case replay =>
    intro pre f post hf sus hpre hpost fill
    refine ⟨fun waits => ?_, h.replay_executes hf sus hpre hpost fill, fun refused => ?_⟩
    · have waits := Bool.or_eq_true _ _ ▸ waits.imp_right decide_eq_true
      rw [h.mxReplay_eq hf sus hpre hpost fill, waits, Bool.true_or, if_pos rfl, W.of_commit]
    · rw [h.mxReplay_eq hf sus hpre hpost fill, refused, Bool.not_false, Bool.or_true, if_pos rfl, W.of_commit]

end Sys2Proof.Machine
end

section
/-! PROOFS. CLOCK_GATE of a sector in a table of regions with two entries of one key (07_islands_and_rates.md R116, R117); from it O50. -/

namespace Sys2Proof.Machine

/-- A region whose graph has run out, with an island of no sector that still votes. -/
def voterRegion : Region := { rootDone := true, isl := [(0, { vote := 600 })] }

/-- A running region whose one sector, sector 0, lies in an island that keeps every grid cycle. -/
def gatedRegion : Region := { phase := .running, secIsl := [(0, 0)], isl := [(0, { p := 1, q := 1 })] }

/-- Reset, but for 64 grid cycles and a table of regions with those two under key 0: `tget` gives the first, and the sector's region is the second. -/
def doubledState : State := { State.reset with clk := { now := 64, gtime := 64000000 }, m := { regions := [(0, voterRegion), (0, gatedRegion)] } }

/-- CLOCK_GATE of sector 0 takes the vote of the other region's island. -/
theorem doubled_withdraws : ∃ t, exec (.clockGate 0) doubledState = .next t ∧ t.m.regions ≠ doubledState.m.regions := ⟨_, rfl, by decide +kernel⟩

/-- Refutes O50: its clause on the regions that CLOCK_GATE leaves alone speaks of the region g that `W.sectorRegion` finds, but `W.islandExits` looks up that region's
key, which in a table with two entries of the key gives the first. The clauses on an exiting island and on droop windows have the hypothesis
`tget s.m.regions k = some g`; this one has not. The model makes no such table itself, but the clause is about every state. In `doubledState` its hypotheses hold;
as executed an island of the first entry loses its vote, as stated the regions stand. -/
theorem not_railsAndSectors : ¬ Obligations.RailsAndSectors := by
  unfold Obligations.RailsAndSectors
  rintro ⟨-, hsector, -⟩
  obtain ⟨hgate, -⟩ := hsector doubledState 0 {} (by decide +kernel)
  have hfound : (W.of doubledState).sectorRegion 0 = some (0, gatedRegion) := by decide +kernel
  obtain ⟨t, ht, -, -, hstated, -⟩ := hgate 0 gatedRegion _ hfound rfl (by decide +kernel) rfl rfl (by decide +kernel)
  obtain ⟨u, hu, hchanged⟩ := doubled_withdraws
  rw [ht] at hu
  cases hu
  exact hchanged (hstated rfl)

end Sys2Proof.Machine
end
